-- ==== Sys2Proof/Word.lean ====
section
/-! DEFINITION. The word types of the RW-7820: a byte, a 64-bit register word, an FP32 word and a 64-byte descriptor. -/

namespace Sys2Proof

/-- One byte; all multi-byte structures are little-endian (R6). -/
abbrev Byte := BitVec 8

/-- One register word: every register of BAR0 is 64 bits wide (R435). -/
abbrev Word := BitVec 64

/-- One FP32 value as its bits. -/
abbrev F32 := BitVec 32

/-- One 64-byte descriptor as the little-endian integer its bytes form (R7). -/
abbrev Desc := BitVec 512

end Sys2Proof
end

