-- ==== Sys2Proof/Syntax.lean ====
section
/-! DEFINITION. The commands of the RW-7820: one constructor of `Instr` per row of spec/opcode_table.json, in the table's
order, with what each step takes from outside the module as its operands. -/

namespace Sys2Proof

/-- The two decks (R15, Table 4.1). -/
inductive DeckId where
  | a
  | b
  deriving DecidableEq, Repr

/-- A payload: its bytes and the indices of its poisoned 64-byte sectors, counted from its first byte (R294). -/
structure Payload where
  bytes    : List Byte
  poisoned : List Nat
  deriving DecidableEq, Repr

/-- An Enxis frame: the 32-byte header of Table 11.6 field by field, the payload and the trailer of R292. -/
structure Frame where
  ver   : BitVec 4
  cls   : BitVec 3
  vc    : BitVec 3
  opc   : BitVec 8
  part  : BitVec 6
  epoch : BitVec 8
  dst   : BitVec 16
  src   : BitVec 16
  seq   : BitVec 24
  tag   : BitVec 20
  len   : BitVec 13
  rsvA  : BitVec 7
  flags : BitVec 8
  addr  : BitVec 52
  rsvB  : BitVec 4
  ctx   : BitVec 12
  attr  : BitVec 16
  rsvC  : BitVec 20
  hcrc  : BitVec 16
  data  : List Byte
  ecrc  : BitVec 32
  hops  : BitVec 4
  ce    : BitVec 4
  rsvT  : BitVec 24
  deriving DecidableEq, Repr

/-- One sample of the straps (Table 18.3, R426). -/
structure StrapSample where
  startHold : Bool
  bistEn    : Bool
  slotId    : Nat
  deriving DecidableEq, Repr

/-- The rails of Table 17.2. -/
inductive Rail where
  | v12 | vaux | vio | vhub | vdeckA | vdeckB | vport | vddq | vpp
  deriving DecidableEq, Repr

/-- The causes of a FATAL error (R374), each with its location of Table 15.6. -/
inductive FatalCause where
  | d2dFail (link : Nat)
  | metadataLost (stackPair : Nat)
  | thermalTrip (sensor temp : Nat)
  | clockLoss (pll : Nat)
  | purserFail
  deriving DecidableEq, Repr

/-- What contains a partition (R372). -/
inductive ContainCause where
  | request
  | tallyLost (stackPair addr : Nat)
  | stateUE (table : Nat)
  deriving DecidableEq, Repr

/-- A purser image: header, body, signature and the public key's hash (chapter 16, "Secure boot"). -/
structure Image where
  major   : Nat
  minor   : Nat
  svn     : Nat
  keyIdx  : Nat
  pubHash : BitVec 384
  revoke  : BitVec 4
  bytes   : List Byte
  sig     : BitVec 768
  deriving DecidableEq, Repr

/-- A point of the time base (R409). -/
structure TimeStamp where
  sec  : Nat
  ns   : Nat
  frac : Nat
  deriving DecidableEq, Repr

/-- A TIME payload (Table 17.4). -/
structure TimePayload where
  typ  : Nat
  seq  : Nat
  time : TimeStamp
  /-- the payload's reserved bits (R10) -/
  rsv  : Nat
  deriving DecidableEq, Repr

/-- What resets an upstream port (Table 17.5). -/
inductive UpReset where
  | perst (heldNs : Nat)
  | hotReset
  | linkDown
  deriving DecidableEq, Repr

/-- An LPARAM payload (Table 11.4), with the stage a SWITCH peer reports (R316; the table gives it no place, log entry 20). -/
structure LParam where
  ver   : Nat
  typ   : Nat
  width : Nat
  spare : Bool
  pool  : Nat
  rcred : List Nat
  floor : Nat
  pages : Nat
  uid   : BitVec 64
  stage : Nat
  /-- the payload's reserved bits (R10) -/
  rsv   : Nat
  deriving DecidableEq, Repr

/-- A CREDIT payload: the cumulative counts of the VCs, and its reserved bits (R296, R10). -/
structure CreditCounts where
  counts : List Nat
  rsv    : Nat
  deriving DecidableEq, Repr

/-- What a LANE_CTL says of a lane (0 swap, 1 downshift, 2 done), and its reserved bits (R290, R10). -/
structure LaneAction where
  action : Nat
  rsv    : Nat
  deriving DecidableEq, Repr

/-- Where a resequencer sits (R335): a port's ENDPOINT egress or local delivery. -/
inductive ReseqPoint where
  | egress (port : Nat)
  | delivery
  deriving DecidableEq, Repr

/-- A flow: the (SRC, DST, CLASS) triple of a stream of frames. -/
structure FlowId where
  src : Nat
  dst : Nat
  cls : Nat
  deriving DecidableEq, Repr

/-- Work of the reduce units: a MERGE command or one sequence of a group. -/
inductive ReduceJob where
  | merge (cid : Nat)
  | seq (group seq : Nat)
  deriving DecidableEq, Repr

/-- One event of a patrol pass on a near-memory sector (R188 to R190). -/
inductive SectorEvent where
  | corrected (sector : Nat)
  | uncorrectable (sector : Nat)
  deriving DecidableEq, Repr

/-- What an Identify and a Set Features exchange with a drive found (R243, Table 9.3). -/
structure DriveInfo where
  flitMode  : Bool
  queues    : Nat
  lba4096   : Bool
  adminOk   : Bool
  deriving DecidableEq, Repr

/-- An unlock token as it is presented through JTAG (R390). -/
structure UnlockToken where
  uid       : BitVec 64
  challenge : BitVec 384
  sig       : BitVec 768
  deriving DecidableEq, Repr

/-- The JTAG instructions the manual names (R389, R391, R432). -/
inductive JtagIns where
  | bypass | idcode | samplePreload | extest | clamp | highz
  | readChallenge
  | dieInternal (code : Nat)
  deriving DecidableEq, Repr

/-- The commands: one constructor per row of spec/opcode_table.json (the rows give no bits). `up` is the upstream port a
BAR0 access comes through, `cid` a command slot, `line` a tally line's number, `rid` a module-originated read. -/
inductive Instr where
  /-- The 48 V input is good after OFF, so the module powers on, brings up its rails and samples the straps. (R414) -/
  | powerGood (s0 s1 s2 : StrapSample)
  /-- The purser boot ROM selects a slot, verifies the image against the fuses and jumps to it, or falls back to the other slot. (R383) -/
  | bootRom
  /-- The purser releases the hub; the module enters INIT, the time base starts, and port, flash and stack training start. (R414) -/
  | hubRelease
  /-- Stack training ends; channels that failed go to the sparing reserve, or the module becomes DEGRADED or FAILED. (R415) -/
  | stackTrainingDone (failed : List Nat)
  /-- The start-up zero-fill of near memory and the clearing of internal state complete. (R413) -/
  | zeroFillDone
  /-- At +2.4 s every cell-column is tested with fixed vectors and failing columns are retired; the module then enters READY or DEGRADED. (R414) -/
  | deckSelfTest (failing : List Nat)
  /-- The millisecond clock monitor compares REFCLK with the internal oscillator. (R408) -/
  | refclkCheck (present : Bool) (ppm10 : Int)
  /-- REFCLK is out of range or absent, or a PLL loses lock; this is FATAL after hub release and holds STANDBY before it. (R408) -/
  | clockLoss (pll : Nat)
  /-- The 10 µs check of every rail against its window; a rail outside it for 20 µs causes a power-fail. (R404) -/
  | railCheck (bad : List Rail)
  /-- The input voltage crosses a threshold of the R403 table, which sets LOW_VIN or HIGH_VIN, throttles, or causes a power-fail. (R403) -/
  | inputVoltageChange (deciVolt heldUs : Nat)
  /-- On hold-up energy the module stops the decks and engines, drops its links, sequences the rails off and enters OFF. (R405) -/
  | powerFail
  /-- The 10 µs measurement of input power and current; a sample above 1,450 W or 36 A forces throttle level 7 at once. (R407) -/
  | powerSample (watts deciAmps : Nat)
  /-- Every balance is reset to its fare, pending fare and throttle changes apply, and waiting work may start. (R262) -/
  | tideEdge
  /-- The 100 µs reading of every sensor; it marks failed sensors and computes die temperatures. (R416) -/
  | thermalSample (readings : List Nat)
  /-- The thermal level rises each millisecond with a die at or above 95 °C, and falls after 10 ms with every die at or below 92 °C. (R417) -/
  | thermalLevelUpdate
  /-- The module stops every deck and engine, logs a FATAL entry and writes the crash area, disables its ports and enters FAILED. (R374) -/
  | fatalError (cause : FatalCause)
  /-- A die-to-die lane is retried or repaired in hardware and counted CORRECTED; a failure that repair cannot absorb is FATAL. (R16) -/
  | d2dLaneRepair (link : Nat) (repaired : Bool)
  /-- The purser fails, which is a FATAL error. (R382) -/
  | purserFail
  /-- RESET_N is held low for 1 µs or more, which causes a module reset held at step 2 until release. (R426) -/
  | resetN (lowNs : Nat)
  /-- A module reset restarts the purser, clears all state before READY and unlocks the RWL fields. (R413) -/
  | moduleReset (cause : Nat)
  /-- A write of MODULE together with KEY 0x5A starts a module reset. (R418) -/
  | hsReset (up : Nat) (value : Word)
  /-- PERST#, a hot reset or link-down resets the link and configuration space of that upstream port only. (R448) -/
  | perstN (up : Nat) (kind : UpReset)
  /-- ENABLE_N low for 5 ms closes the input switch; ENABLE_N going high acts as a power-fail. (R422) -/
  | enableN (high : Bool) (heldUs : Nat)
  /-- A debounced cable presence change of a lane group enables DETECT, or sends the port to TRAINING. (R421) -/
  | cblPrsntN (die group : Nat) (present : Bool) (stableMs : Nat)
  /-- A debounced presence change of the spare group makes the bound spare usable or unusable. (R421) -/
  | sprPrsntN (die : Nat) (present : Bool) (stableMs : Nat)
  /-- Drive presence changes: on insertion FREFCLK starts and FPERST_N releases; on removal the drive's commands fail. (R429) -/
  | fprsntN (drive : Nat) (present : Bool) (stableMs : Nat)
  /-- A filtered PPS rising edge is accepted or rejected; an accepted edge sets the time base to the next second. (R411) -/
  | ppsEdge (highNs lowNs : Nat)
  /-- Three seconds pass with no accepted PPS edge, so the time base sets HOLDOVER. (R411) -/
  | ppsHoldover
  /-- A write steps the time base to SEC and 0 ns, with its effect on tide edges and gate lists. (R410) -/
  | ckTimeSet (up : Nat) (value : Word)
  /-- A read of CK_TIME_SEC latches CK_TIME_NS. (R443) -/
  | ckTimeSecRead (up : Nat)
  /-- A SYNC frame arrives from the time source port and the follower corrects its time base. (R412) -/
  | timeSync (port : Nat) (p : TimePayload) (arrival : TimeStamp)
  /-- Every 125 µs a source module sends SYNC on each port whose peer follows it. (R412) -/
  | syncSend
  /-- A DELAY_REQ arrives and is timestamped and answered with DELAY_RSP on any port. (R412) -/
  | delayReq (port : Nat) (p : TimePayload) (arrival : TimeStamp)
  /-- Once per second the follower sends DELAY_REQ to its source. (R412) -/
  | delayReqSend
  /-- A DELAY_RSP arrives and the follower computes the offset and corrects its time base. (R412) -/
  | delayRsp (port : Nat) (p : TimePayload)
  /-- A BAR0 write to registers that have no row of their own, applied under the access codes, ranges, state rules and locks. (R440) -/
  | registerWrite (up offset : Nat) (data : List Byte) (allEnabled : Bool)
  /-- A write to word +0x10 of a PT_FARE entry commits the held words, checks the sums and applies them at the next tide edge. (R444) -/
  | fareCommit (up part : Nat) (value : Word)
  /-- ENABLE written 1 on a DISABLED context runs the enable checks, zero-fills the completion ring and enters ENABLED. (R30) -/
  | contextEnable (ctx : Nat)
  /-- ENABLE cleared moves the context to DRAINING, stops fetching and aborts in-flight commands at their boundaries. (R61) -/
  | contextDisable (ctx : Nat)
  /-- PAUSE set stops fetching while in-flight commands run. (R29) -/
  | contextPause (ctx : Nat)
  /-- PAUSE cleared returns the context to ENABLED. (R29) -/
  | contextResume (ctx : Nat)
  /-- The in-flight count of a DRAINING context reaches zero and the context becomes DISABLED. (R61) -/
  | contextDrainComplete (ctx : Nat)
  /-- A submission doorbell is checked in the order of Table 2.5, sets the tail and gets a doorbell response. (R38) -/
  | db (f : Frame)
  /-- A completion-head doorbell advances the completion head, or is discarded and counted. (R41) -/
  | completionHeadDoorbell (f : Frame)
  /-- The front end issues a descriptor read for a context once slot and completion-entry limits allow, reserving the entries. (R36) -/
  | descriptorFetch (ctx : Nat)
  /-- A command whose CHAIN, BARRIER, sequence gate and live-queue limits are met goes to its engine, with fares judged. (R43) -/
  | commandDispatch (cid : Nat)
  /-- After the result is visible, the front end decides the final status and writes the completion record. (R52) -/
  | recordCommit (cid : Nat)
  /-- TIMEOUT_MS expires and the command stops at its next boundary with TIMEOUT. (R49) -/
  | commandTimeout (cid : Nat)
  /-- NOP completes OK once its dependencies allow. (R43) -/
  | nop (cid : Nat)
  /-- ABORT names a target by tag and aborts it before commit, or completes ABORT_TOO_LATE. (R59) -/
  | abort (cid : Nat)
  /-- Attention over lading-list tiles on a deck or lashed pair, with folding, masks, online softmax and a stripe merge. (R104) -/
  | cross (cid : Nat)
  /-- Writes an upper-bound score per lading-list entry from the block summaries. (R114) -/
  | score (cid : Nat)
  /-- Multiplies endpoint activations by a resident weight matrix on the decks. (R116) -/
  | matmul (cid : Nat)
  /-- Returns the top k rows of an embedding table for each query. (R117) -/
  | search (cid : Nat)
  /-- On filter units, writes a list of k entries per section: the forced entries and then the best-scored ones. (R141) -/
  | select (cid : Nat)
  /-- Ships the tiles named by a lading list, optionally masked, to endpoint memory or a berth. (R134) -/
  | gather (cid : Nat)
  /-- Evaluates a predicate set over row identifiers or DOC_TAGs and writes a bitmap. (R146) -/
  | filter (cid : Nat)
  /-- Stores new token rows into KV tiles, quantising where needed, and optionally writes summaries and lading-list entries. (R89) -/
  | append (cid : Nat)
  /-- Merges attention partials held in berths, in the fixed tree order. (R157) -/
  | merge (cid : Nat)
  /-- Submits a member's contribution to a collective sequence, behind the sequence gate of R160. (R162) -/
  | reduce (cid : Nat)
  /-- Copies bytes in 256 KiB transfers between endpoint, near memory, tray berths and flash berths. (R255) -/
  | copy (cid : Nat)
  /-- Accepts a manifest and starts prefetching layers from the cursor to the cursor plus DEPTH. (R252) -/
  | manifestStart (cid : Nat)
  /-- Stops the context's manifest and completes when none of its fills is in flight. (R256) -/
  | manifestStop (cid : Nat)
  /-- Fills every block of the listed tiles and completes when all are RESIDENT or DIRTY. (R256) -/
  | fill (cid : Nat)
  /-- Sets a window's source and mode after write-back of DIRTY blocks, and marks every block ABSENT. (R245) -/
  | bind (cid : Nat)
  /-- Writes back the DIRTY blocks of a window. (R249) -/
  | clean (cid : Nat)
  /-- Writes back and then makes ABSENT the blocks of a window. (R249) -/
  | evict (cid : Nat)
  /-- Parks at the home until the record's VERSION satisfies COND, or until its timeout. (R210) -/
  | acquire (cid : Nat)
  /-- Flushes, checks the owner and EXPECT, and installs a new version of a record. (R207) -/
  | publishUpdate (cid : Nat)
  /-- Turns a NORMAL line into a RECORD owned by the caller. (R207) -/
  | publishInit (cid : Nat)
  /-- Installs a new version of a record and transfers OWNER to NEW_OWNER. (R207) -/
  | publishXfer (cid : Nat)
  /-- Returns a record line to NORMAL and keeps only VERSION. (R207) -/
  | publishFree (cid : Nat)
  /-- Runs the flush of R208 and returns the highest applied BULK SEQ. (R211) -/
  | fence (cid : Nat)
  /-- Every store covered by a pending flush is visible, or the flush ends REVOKED or PATH_FATAL, so the command goes on. (R208) -/
  | flushComplete (cid : Nat)
  /-- Adds the operand to a tally word at the home and returns the old value. (R223) -/
  | atomicAdd (cid : Nat)
  /-- ORs the operand into a tally word and returns the old value. (R223) -/
  | atomicOr (cid : Nat)
  /-- ANDs the operand into a tally word and returns the old value. (R223) -/
  | atomicAnd (cid : Nat)
  /-- Keeps the larger of the word and the operand, signed or unsigned, and returns the old value. (R223) -/
  | atomicMax (cid : Nat)
  /-- Keeps the smaller of the word and the operand and returns the old value. (R223) -/
  | atomicMin (cid : Nat)
  /-- Replaces the word with the operand and returns the old value. (R223) -/
  | atomicSwap (cid : Nat)
  /-- Writes the operand if the word equals COMPARE and returns the old value. (R223) -/
  | atomicCas (cid : Nat)
  /-- Makes a NORMAL line a SEMA line with a holder limit. (R225) -/
  | semInit (cid : Nat)
  /-- Frees the calling context's holder entry and hands it to the next TAKE waiter. (R227) -/
  | semGive (cid : Nat)
  /-- Returns a SEMA line with no holders and no waiters to NORMAL and zero. (R227) -/
  | semFree (cid : Nat)
  /-- Parks at the home until a masked condition or a semaphore TAKE holds, or until its timeout. (R225) -/
  | wait (cid : Nat)
  /-- Makes a NORMAL line a TICKET owned by the caller's side, optionally linking a record. (R228) -/
  | handoffCreate (cid : Nat)
  /-- Puts an owned ticket IN_TRANSIT toward the other side with a 10 ms deadline. (R228) -/
  | handoffOffer (cid : Nat)
  /-- The target side takes ownership of an IN_TRANSIT ticket before the deadline. (R229) -/
  | handoffConfirm (cid : Nat)
  /-- Returns the ticket state without change. (R228) -/
  | handoffQuery (cid : Nat)
  /-- The owner returns the ticket line to NORMAL and zero. (R228) -/
  | handoffRelease (cid : Nat)
  /-- The deadline of an unconfirmed IN_TRANSIT ticket passes, so the ticket returns to its previous owner. (R229) -/
  | handoffDeadline (line : Nat)
  /-- The home's answer to a tally command returns to the front end, which writes the record with the status the home decided. (R59) -/
  | homeAnswer (cid : Nat)
  /-- An ACQUIRE's TIMEOUT_MS passes first, so it completes TIMEOUT with the version at expiry. (R210) -/
  | acquireTimeout (cid : Nat)
  /-- A WAIT's TIMEOUT_MS passes first, so it completes TIMEOUT with the word at expiry. (R225) -/
  | waitTimeout (cid : Nat)
  /-- A semaphore holder entry's lease ends and the entry passes to the next TAKE waiter. (R227) -/
  | semLeaseExpiry (line ctx : Nat)
  /-- A line's transaction ends and the home takes the next queued request for that line. (R217) -/
  | homeNextRequest (line : Nat)
  /-- The home applies a batch of combinable updates to one line in 8 HCLK and tests the parked waiters. (R223) -/
  | homeBatchApply (line : Nat)
  /-- Shared read of a tally line, served per the directory transitions. (R217) -/
  | rdS (f : Frame)
  /-- Ownership read of a tally line; it invalidates the other copies or snoops the owner. (R217) -/
  | rdO (f : Frame)
  /-- Upgrade to M, answered with GO, or handled as RD_O. (R217) -/
  | upg (f : Frame)
  /-- Uncached read of a tally line. (R217) -/
  | rdU (f : Frame)
  /-- Uncached write of a tally line after invalidation, answered with WR_ACK. (R217) -/
  | wrU (f : Frame)
  /-- A frame atomic is applied exactly once at the home using the reply cache, and answered with AT_RSP. (R221) -/
  | atomicFrame (f : Frame)
  /-- A posted store to a tally line, applied at the home after invalidation, or discarded on a protected line. (R217) -/
  | tallySt (f : Frame)
  /-- An owner writes back its modified line; the home always sinks it and answers WB_ACK. (R219) -/
  | wb (f : Frame)
  /-- A snoop answer arrives at the home with data, MISS or WB_PENDING and advances the line's transaction. (R215) -/
  | snpAck (f : Frame) (miss dirty wbPending : Bool)
  /-- A snoop target becomes unreachable; the snoop is treated as MISS and a lost M line is poisoned. (R220) -/
  | snoopTargetLost (line target : Nat)
  /-- An atomic reply-cache entry reaches 2 ms and is dropped. (R221) -/
  | replyCacheExpiry (src tag : Nat)
  /-- A load to partition memory or a tray is served, with PSN on poisoned sectors, REVOKED or BAD_DESC. (R190) -/
  | ld (f : Frame) (events : List SectorEvent)
  /-- A non-posted store is applied and answered with ST_RSP once visible. (R203) -/
  | stNp (f : Frame)
  /-- A posted store is applied in flow order, or discarded for a revoked or unheld handle or a reserved aperture offset. (R203) -/
  | st (f : Frame) (events : List SectorEvent)
  /-- Response data for a module-originated read arrives: descriptors, tray fills, ring or source reads. (R294) -/
  | ldData (rid status : Nat) (p : Payload)
  /-- A store response arrives, including EPOCH_RETIRED returns treated as a NACK. (R321) -/
  | stRsp (f : Frame)
  /-- A child module's contribution chunk or summary arrives at the parent entry. (R166) -/
  | contrib (f : Frame)
  /-- A result chunk arrives, is forwarded through the multicast group or stored into members' endpoints. (R168) -/
  | result (f : Frame)
  /-- A completion notice arrives; it is forwarded to children, completes local members and opens the RELAY gate. (R169) -/
  | doneFrame (f : Frame)
  /-- CONTRIB_TIMEOUT expires; incomplete members are missing and ON_MISSING decides the outcome. (R173) -/
  | contribTimeout (group seq : Nat)
  /-- A reduce unit finishes a chunk of a collective or MERGE and the next chunk is admitted. (R151) -/
  | reduceChunkComplete (job : ReduceJob)
  /-- ACTIVATE set checks the group entry and takes slot memory, entering ACTIVE. (R158) -/
  | groupActivate (group : Nat)
  /-- ACTIVATE cleared moves the group entry to DRAINING. (R159) -/
  | groupDrain (group : Nat)
  /-- Every open sequence completes and slot memory returns, so the group entry becomes FREE. (R159) -/
  | groupDrainComplete (group : Nat)
  /-- An ACK arrives and frees the source's frames up to its SEQ. (R300) -/
  | ack (f : Frame)
  /-- The destination sends an ACK after 32 frames or within 2 µs of the oldest unacknowledged frame. (R300) -/
  | ackTimer (flow : FlowId)
  /-- A NACK arrives and the source resends the named frame. (R301) -/
  | nack (f : Frame)
  /-- A gap persists for NACK_US, so the destination sends or repeats a NACK. (R301) -/
  | gapNackTimer (flow : FlowId)
  /-- RETX_US passes with no acknowledgement, so the source resends or fails over to the next path. (R302) -/
  | retxTimer (flow : FlowId) (seq : Nat)
  /-- A CREDIT frame arrives and refunds credits to their pots. (R296) -/
  | credit (port : Nat) (p : CreditCounts)
  /-- The receiver sends a CREDIT frame within 64 ns of a count change, and at least every 10 µs. (R296) -/
  | creditSend (port : Nat)
  /-- The LPARAM exchange of PARAM checks type, version and credits. (R287) -/
  | lparam (port : Nat) (p : LParam)
  /-- A lane swap or downshift handshake message arrives. (R290) -/
  | laneCtl (port lane : Nat) (a : LaneAction)
  /-- An uncorrectable codeword or a bad header discards the frame in progress and resynchronises at the next FSTART. (R284) -/
  | codewordUncorrectable (port lane : Nat)
  /-- An arriving transit frame is checked, stamped at ingress, routed and queued for admission. (R313) -/
  | frameForward (port : Nat) (f : Frame)
  /-- A staged frame is admitted to shared or reserve cells once they are free. (R330) -/
  | bufferAdmission (index : Nat)
  /-- An egress chooses the next eligible frame by start-time fair queuing and charges buckets and fare; `bankWord` names a bank
  whose word the read found corrected (false) or uncorrectable (true). (R348) -/
  | frameSelect (egress : Nat) (bankWord : Option (Nat × Bool))
  /-- A resequencer gap lasts RESEQ_US; held frames are passed on or discarded and the context is freed. (R336) -/
  | reseqGapTimeout (point : ReseqPoint) (flow : FlowId)
  /-- An egress flow idle for 1 ms is evicted from the passed-point table. (R336) -/
  | reseqFlowEvict (port : Nat) (flow : FlowId)
  /-- A frame exceeds AGE_US in the buffer and is dropped. (R333) -/
  | frameAgeOut (fid : Nat)
  /-- Buckets are credited every 8 ns up to BURST. (R350) -/
  | tokenBucketRefill
  /-- A gate control list entry begins and the VC gates open or close. (R351) -/
  | gateEntryBoundary (port : Nat)
  /-- COMMIT checks the PENDING list and schedules or refuses it. (R352) -/
  | gclCommit (port : Nat)
  /-- The accepted PENDING list becomes ACTIVE at a cycle start. (R353) -/
  | gclActivate (port : Nat)
  /-- The 10 ms audit pass reclaims leaked cells, removes double-used cells and checks the count. (R337) -/
  | leakAuditPass (unmarked doubles : List Nat) (mismatch : Bool)
  /-- A buffer bank is retired by count or request and its group is refilled from a spare. (R328) -/
  | bankRetire (bank : Nat)
  /-- SC_MC_SEL.OP writes a multicast group entry in one cycle. (R339) -/
  | mcWrite (up : Nat) (value : Word)
  /-- ENABLE set on a port starts training from DETECT. (R285) -/
  | portEnable (port : Nat)
  /-- ENABLE cleared takes the port to DISABLED and drops its frames. (R288) -/
  | portDisable (port : Nat)
  /-- A training step completes and the next one starts, up to UP. (R285) -/
  | trainingStepDone (port : Nat)
  /-- A training step exceeds its limit, so the attempt fails and is retried or the port enters FAILED. (R285) -/
  | trainingStepTimeout (port : Nat) (failedLanes : List Nat)
  /-- The 100 ms or 10 s retry timer restarts training from DETECT. (R285) -/
  | trainingRetry (port : Nat)
  /-- A port leaves UP or DOWNSHIFTED for TRAINING and drops its queued frames. (R288) -/
  | linkLost (port : Nat)
  /-- A lane reaches UCW_RETIRE or loses lock and is retired by spare swap or downshift. (R289) -/
  | laneFailure (die lane : Nat)
  /-- A fabric-manager write retires the named lane. (R289) -/
  | lkLaneRetire (up : Nat) (value : Word)
  /-- FENCE set drops the port's frames within 1 µs and answers non-posted requests PATH_FATAL. (R323) -/
  | portFence (port : Nat)
  /-- LP_ROUTE_SEL.OP replaces a route entry in one cycle. (R315) -/
  | routeWrite (up : Nat) (value : Word)
  /-- LP_MAP_SEL.OP writes a STAGED rank-map entry. (R325) -/
  | mapWrite (up : Nat) (value : Word)
  /-- ACTIVATE rotates the map slots in one cycle and sends EPOCH_NOTICE. (R318) -/
  | epochActivate (part : Nat)
  /-- PREVIOUS retires when its in-flight count reaches zero or RETIRE_US expires. (R320) -/
  | epochRetire (part : Nat) (expired : Bool)
  /-- Fills a berth-table slot with physical berths, as GRANTED. (R185) -/
  | grant (up : Nat)
  /-- Moors a GRANTED berth to a context with a lease. (R202) -/
  | moor (up : Nat)
  /-- Renews a mooring's lease to full, including from GRACE. (R193) -/
  | renew (up : Nat)
  /-- Starts the drain of a moored berth, which returns to GRANTED. (R198) -/
  | unmoor (up : Nat)
  /-- Revokes a slot, and the other handle of a lashed pair, toward EMPTY. (R198) -/
  | revoke (up : Nat)
  /-- A mooring's lease reaches zero and the mooring enters GRACE. (R193) -/
  | leaseEnd (part slot : Nat)
  /-- 4 µs of GRACE pass with no renewal, so the slot enters DRAINING and held descriptors complete REVOKED. (R193) -/
  | graceEnd (part slot : Nat)
  /-- DRAIN_US expires; queued transactions abort REVOKED and drain tokens are queued. (R194) -/
  | drainUsExpiry (part slot : Nat)
  /-- Every drain token returns and every engine releases the berth, so the slot enters SCRUBBING. (R196) -/
  | drainComplete (part slot : Nat)
  /-- The scrub ends; GEN increments and the slot becomes EMPTY or GRANTED. (R197) -/
  | scrubComplete (part slot : Nat)
  /-- Patrol reads correct or poison sectors across near memory within the scrub share. (R190) -/
  | patrolScrub (events : List SectorEvent)
  /-- A row reaching ROW_CE is repaired with a spare row while requests to it are held. (R370) -/
  | rowRepair (chan row : Nat)
  /-- A RETIRE_REQ write or a CE threshold starts a channel migration. (R200) -/
  | channelRetireRequest (chan : Nat)
  /-- The last granule is redirected and the channel becomes RETIRED. (R200) -/
  | migrationComplete (chan : Nat)
  /-- A channel fails before migration; its granules are redirected and poisoned, refetched or copied from the mirror. (R201) -/
  | channelFail (chan : Nat)
  /-- Gather granules arrive and a complete tile is delivered to scratchpad with its tag set valid. (R128) -/
  | granuleReadReturn (cid : Nat) (sec ent : Nat) (isV : Bool) (granules : Nat)
  /-- A gather unit error re-reads the tile, or retires the unit at the next boundary in favour of the spare. (R148) -/
  | gatherUnitError (unit : Nat) (retire : Bool)
  /-- A filter unit error re-executes the piece elsewhere, or retires the unit. (R148) -/
  | filterUnitError (unit : Nat) (retire : Bool)
  /-- A reduce unit error re-runs the chunk, or retires the unit in favour of the spare. (R178) -/
  | reduceUnitError (unit : Nat) (retire : Bool)
  /-- A filter unit reaches a 4,096-entry boundary and acts on aborts, timeouts, revocations and fare waits. (R139) -/
  | filterTransferBoundary (cid : Nat)
  /-- At a deck's leg boundary the scheduler chooses a partition, context and command, or reserves for a lashed leg. (R268) -/
  | legBoundary (deck : DeckId)
  /-- A pass step starts when its tiles are resident and it fits the leg bound; otherwise the leg ends short. (R101) -/
  | passStep (deck : DeckId) (residueFail : Option Nat)
  /-- A leg ends; aborts, timeouts, revocations and switches take effect and partials are spilled. (R103) -/
  | legEnd (deck : DeckId) (audit : Option (Nat × Nat))
  /-- A marked leg is re-executed from its leg-start copy in reserve cycles. (R362) -/
  | legReexecution (deck : DeckId) (fails : Bool)
  /-- ESC_S passes without a mismatch, so a column leaves SUSPECT. (R366) -/
  | suspectExpiry (deck : DeckId) (col : Nat)
  /-- QUIESCE set stops the deck after its running leg. (R276) -/
  | quiesce (deck : DeckId)
  /-- Copies a quiesced deck's full state to its save area. (R276) -/
  | save (deck : DeckId)
  /-- Copies the save area back into a quiesced deck. (R276) -/
  | restore (deck : DeckId)
  /-- A save or restore finishes, clearing BUSY and setting RESULT. (R276) -/
  | fullSaveComplete (deck : DeckId) (uncorrectable : Bool)
  /-- A block DIRTY for WB_AGE_MS is written back to its source. (R249) -/
  | writeBackAge (part slot block : Nat)
  /-- A tile waits TIER_WAIT_MS, so the command completes TIER_FAIL at its boundary. (R257) -/
  | tierWaitExpiry (cid : Nat)
  /-- A polled NVMe completion finishes a flash fill or write. (R241) -/
  | nvmeCompletion (drive nid : Nat) (ok : Bool) (p : Payload)
  /-- A command exceeds NVME_TMO_MS; the queue pair is recreated and the command retried, or the drive is failed. (R243) -/
  | nvmeTimeout (drive nid : Nat)
  /-- A drive's link trains, so the reader identifies it and creates its queue pairs. (R243) -/
  | driveDiscovery (drive : Nat) (info : DriveInfo)
  /-- Every 60 s the reader polls log page 0x02. (R243) -/
  | getLogPagePoll
  /-- A tray fails and its tray berths become DEGRADED or LOST. (R238) -/
  | trayFailure (tray : Nat)
  /-- A tray request unanswered in 100 µs counts as failed. (R304) -/
  | trayRequestTimeout (rid : Nat)
  /-- Allocates a tray berth on the trays with the most free pages and zero-fills it. (R237) -/
  | alloc (up : Nat)
  /-- Frees a tray berth and its pages. (R237) -/
  | trayBerthFree (up : Nat)
  /-- Rebuilds the lost pages of DEGRADED berths onto a replacement tray. (R239) -/
  | rebuild (up spare : Nat)
  /-- The last block is rebuilt and the berth is ALLOCATED again. (R239) -/
  | rebuildComplete (tbn : Nat)
  /-- The purser makes a FREE partition LIVE with reset tables and fares. (R396) -/
  | create (up part : Nat)
  /-- Starts teardown: fencing, disabling, revoking and resetting a partition. (R397) -/
  | destroy (up part : Nat)
  /-- After the scrubs and drains complete, teardown resets the partition's maps and registers and sets it FREE. (R397) -/
  | teardownContinue (part : Nat)
  /-- A CONTAIN write, a lost tally granule or a private-state error contains a LIVE partition within 10 µs. (R372) -/
  | contain (part : Nat) (cause : ContainCause)
  /-- ENABLE going 0 to 1 zero-fills the log ring and restarts it at entry 0. (R375) -/
  | logEnable (up : Nat)
  /-- A HEAD write consumes log entries, or is refused. (R375) -/
  | logHeadWrite (up head : Nat)
  /-- A queued log entry is written to the ring, with MSI-X where enabled. (R376) -/
  | logEntryWrite
  /-- Blows SVN fuses up to the running image's SVN. (R385) -/
  | commitSvn (up : Nat)
  /-- Reads, checks and writes an image into the other slot and sets that slot preferred. (R386) -/
  | imageUpdate (up : Nat)
  /-- Refuses writes to a range, drains earlier writes, hashes it and sets LIVE. (R394) -/
  | sealData (up : Nat)
  /-- Hashing of a sealed range ends and the entry becomes LIVE. (R394) -/
  | sealHashDone (entry : Nat)
  /-- Clears LIVE and lifts the write refusal. (R395) -/
  | unsealData (up : Nat)
  /-- A signed JTAG token is verified; the module scrubs everything and enters UNLOCKED. (R390) -/
  | debugUnlock (token : UnlockToken)
  /-- A JTAG instruction acts or behaves as BYPASS according to the debug and module state. (R391) -/
  | jtagInstruction (ins : JtagIns)
  /-- SPDM GET_VERSION, reporting 1.3. (R392) -/
  | getVersion
  /-- SPDM GET_CAPABILITIES. (R392) -/
  | getCapabilities
  /-- SPDM NEGOTIATE_ALGORITHMS. (R392) -/
  | negotiateAlgorithms
  /-- SPDM GET_DIGESTS for slot 0. (R392) -/
  | getDigests (slot : Nat)
  /-- SPDM GET_CERTIFICATE, returning the Alias chain. (R392) -/
  | getCertificate (slot : Nat)
  /-- SPDM CHALLENGE, signed with the Alias key. (R392) -/
  | challenge (slot : Nat) (nonce : BitVec 256)
  /-- SPDM GET_MEASUREMENTS built from one snapshot. (R393) -/
  | getMeasurements (index : Nat) (nonce : BitVec 256)
  /-- MCTP Set Endpoint ID from the bus owner. (R431) -/
  | setEndpointId (eid : Nat)
  /-- MCTP Get Endpoint ID. (R431) -/
  | getEndpointId
  /-- MCTP Get MCTP Version Support. (R431) -/
  | getMctpVersionSupport (msgType : Nat)
  /-- MCTP Get Message Type Support. (R431) -/
  | getMessageTypeSupport
  /-- PLDM GetTID. (R431) -/
  | gettid
  /-- PLDM GetPLDMVersion. (R431) -/
  | getpldmversion (typ : Nat)
  /-- PLDM GetPLDMTypes. (R431) -/
  | getpldmtypes
  /-- PLDM GetPLDMCommands. (R431) -/
  | getpldmcommands (typ : Nat)
  /-- PLDM GetPDR. (R431) -/
  | getpdr (record : Nat)
  /-- PLDM GetSensorReading, returning the latest value of its source register. (R431) -/
  | getsensorreading (sensor : Nat)
  /-- PLDM GetStateSensorReadings. (R431) -/
  | getstatesensorreadings (sensor : Nat)
  /-- PLDM SetEventReceiver. (R431) -/
  | seteventreceiver (eid : Nat)
  /-- I3C SETDASA, using the static address 0x30 + SLOT_ID. (R430) -/
  | setdasa (static dynamic : Nat)
  /-- I3C ENTDAA dynamic address assignment. (R430) -/
  | entdaa (dynamic : Nat)
  /-- A peer that does not answer LANE_CTL within 10 µs sends the port from REPAIR back to TRAINING under R288. (R291) -/
  | laneCtlTimeout (port : Nat)
  /-- The purser finishes reading, checking, writing and verifying the new image, sets the slot preferred, clears BUSY and sets RESULT. (R386) -/
  | imageUpdateDone (img : Option Image) (readBackOk : Bool)
  /-- The 83.9 ms zero-fill of near memory and the clearing of decks, buffer and caches finish, and the module enters UNLOCKED. (R390) -/
  | unlockZeroFillDone
  /-- The deck self-test, and with BIST_EN the march test and SAVE/RESTORE comparison, finish and the module enters READY or DEGRADED. (R414) -/
  | selfTestDone (bistPassed : Bool)
  /-- A BAR0 read clears RC fields it fully covers and counts bad-size or unmapped reads, with the same-cycle rules for counts. (R441) -/
  | rcRegisterRead (up offset len : Nat)
  /-- 100 ms after FREFCLK of a present drive starts, the module releases FPERST_N so that the drive's link can train. (R429) -/
  | fperstNRelease (drive : Nat)
  /-- RESET_N returns high and the module, held at step 2 of start-up, restarts the sequence from there. (R426) -/
  | resetNRelease
  deriving DecidableEq, Repr

end Sys2Proof
end

