-- ==== Sys2Proof/Decode.lean ====
section
/-! DEFINITION. The decoder the opcode table allows. -/

namespace Sys2Proof

/-- The command a word spells by the table's bits: the table gives no row any bits, so none (log entry 4). -/
def decodeTableWord (_nbits _w : Nat) : Option Instr := none

end Sys2Proof
end

