-- ==== Sys2Proof/Config.lean ====
section
/-! DEFINITION. What one part fixes and the manual leaves open: the free values of the model. Each is opaque, so nothing
in Lean can evaluate it; the assumption log names every one. -/

namespace Sys2Proof

/-- exp2 away from the points R108 fixes: any value within 2^-22 is allowed there, so the value is free (log entry 10). -/
opaque Config.exp2Free : F32 → F32

/-- The bytes an undefined region holds after a stop (R60, R119, R139), by a running counter (log entry 11). -/
opaque Config.freeByte : Nat → Byte

/-- SHA-384 of a byte string, named by R383, R388, R392 and R394 and not defined there (log entry 12). -/
opaque Config.sha384 : List Byte → BitVec 384

/-- ECDSA P-384 verification: key hash, digest, signature (R383 step 4, R390; log entry 12). -/
opaque Config.ecdsaVerify : BitVec 384 → BitVec 384 → BitVec 768 → Bool

/-- ECDSA P-384 signature made with a key handle over a digest (R388, R392; log entry 12). -/
opaque Config.ecdsaSign : BitVec 384 → BitVec 384 → BitVec 768

/-- HMAC-SHA-384 key derivation from DEVICE_SECRET and a digest (R388; log entry 12). -/
opaque Config.deriveKey : BitVec 256 → BitVec 384 → BitVec 384

/-- A fresh unpredictable number by a running counter: unlock challenges (R390) and audit phases (R364) (log entry 13). -/
opaque Config.freeRandom : Nat → BitVec 384

/-- The fuse and ROM contents of one part that the manual does not print (Table 16.2; log entry 3). -/
opaque Config.deviceSecret : BitVec 256

/-- The SHA-384 digest of the purser boot ROM (Table 16.3 index 1; log entry 3). -/
opaque Config.bootRomDigest : BitVec 384

/-- The manufacturer code of I3C and of JTAG IDCODE (R430, R432; log entry 3). -/
opaque Config.manufacturerCode : BitVec 11

/-- The format code and width of the table whose ID planes a FILTER reads (Table 5.5 names neither; log entry 38). -/
opaque Config.tableForm : Nat → Nat

/-- What a poisoned lading-list entry may name: its token count, or its format and number of tiles (log entry 39). -/
opaque Config.lostEntry : Nat → Nat

/-- The tile width, less one, in units of 32 that the tier engine takes for a lading list it fills (R252, R256 name no width;
log entry 28). -/
opaque Config.fillUnits : Nat → Nat

/-- The ADDEND a correction of at most 1 µs leaves, above the lowest one permitted (R410 gives no amount; log entry 42). -/
opaque Config.addendTrim : Nat → Nat

/-- The part of a PLDM or SPDM response the manual does not give: the standard's own tables (R392, R431; log entry 43). -/
opaque Config.standardField : Nat → Nat

/-- The certificates of slot 0 above the Alias certificate: root, intermediate and DeviceID (R388; log entry 3). -/
opaque Config.deviceChain : List Byte

/-- The bytes of the block of an absent member in an ALL_GATHER result: nothing is contributed and the manual names none; by the
sequence's parameters and the place in the stream, so that equal runs give equal bytes (R171; log entry 86). -/
opaque Config.absentByte : List Nat → Nat → Byte

/-- How many rows of a MIGRATING channel have been redirected, by channel and HCLK instant (R200 gives no pace; log entry 88). -/
opaque Config.migratedRows : Nat → Nat → Nat

/-- Whether a read of a line's directory entry misses the directory cache, by line and HCLK instant: R214 and R233 give no rule by
which the cache keeps entries (log entry 90). -/
opaque Config.dirMiss : Nat → Nat → Bool

/-- NGLOBAL of a group as a RELAY knows it: NGLOBALM1 is a field of the TOP entry only (Table 6.11; log entry 85). -/
opaque Config.relayGlobal : Nat → Nat

end Sys2Proof
end

