-- ==== Sys2Proof/Machine/State.lean ====
section
/-! DEFINITION. The state of the RW-7820 as plain data, the reasons a step can stop, and the state right after reset.
Register fields live in one sparse table (Machine/Regs.lean names them); every part of the module that
the manual describes beyond its registers has a structure here. Sparse tables are lists of (key, value) pairs with rising
keys that never list the value an unlisted key reads as. -/

namespace Sys2Proof.Machine

/-- A sparse table by natural-number key, keys rising. -/
abbrev Tab (α : Type) := List (Nat × α)

/-! ## Clocks, power, purser -/

/-- The time base (R409 to R412). -/
structure TimeBase where
  sec        : Nat
  ns         : Nat
  frac       : Nat
  running    : Bool
  /-- HCLK cycles since hub release, by which leases and ages are measured. -/
  hclk       : Nat
  /-- the time base at the last accepted PPS edge (R411) -/
  lastPps    : Option TimeStamp
  /-- CK_TIME_SEC_NEXT was written since the last edge (R411) -/
  secNextNew : Bool
  /-- send and arrival time of the last SYNC: t1 and t2 (R412) -/
  syncTimes  : Option (TimeStamp × TimeStamp)
  /-- exchange number and send time of the last DELAY_REQ: t3 (R412) -/
  delayReq   : Option (Nat × TimeStamp)
  delaySeq   : Nat
  /-- the seconds the last accepted PPS edge stood for (R411) -/
  ppsSec     : Nat
  /-- the link delay of the last exchange, ((t2 − t1) + (t4 − t3)) ÷ 2, in units of 2^-32 ns (R412) -/
  linkDelay  : Option Int
  deriving DecidableEq, Repr

/-- Input, rails, throttle and temperature (chapter 17). -/
structure Power where
  /-- the input switch is closed and 48 V good was seen (Table 17.1) -/
  inputGood   : Bool
  enableLow   : Bool
  railsOn     : Bool
  /-- after a thermal trip only V12, VAUX and VIO stay on (R417) -/
  coreRailsOff : Bool
  /-- rails out of their window at the last check (R404) -/
  railsBad    : List Rail
  /-- a sample since the last tide edge exceeded 1,450 W or 36 A (R407 rule 1) -/
  overSample  : Bool
  sumWatts    : Nat
  samples     : Nat
  /-- averages of the previous tides, newest first, at most 16 (R407 rule 4) -/
  history     : List Nat
  /-- consecutive 10 µs samples above 36 A at throttle level 7 (R403) -/
  overCurrent : Nat
  /-- decks start no pass step until the next tide edge (R407 rule 1) -/
  decksHalted : Bool
  /-- consecutive milliseconds with every die at or below 92 °C (R417) -/
  coolMs      : Nat
  /-- consecutive readings in which a sensor was an outlier (R416) -/
  outlier     : Tab Nat
  /-- sensors at or above 110 °C in the last reading (R417) -/
  tripping    : List Nat
  /-- die temperatures of R416 in 0.25 °C units above −40 °C: hub, deck A, deck B, G0 to G3, stacks 0 to 19 -/
  dieTemps    : List Nat
  faultLow    : Bool
  /-- RESET_N is low: the module is held at step 2 of start-up (R426) -/
  resetHeld   : Bool
  /-- a step of start-up that is over (Table 17.7): 2 stacks, 3 zero-fill, 4 self-test -/
  startStep   : Nat
  /-- some stack exceeds the reserve of its half at start (R415) -/
  startDegraded : Bool
  /-- milliseconds in a row in which REFCLK was not valid in STANDBY (Table 17.8) -/
  refBad : Nat
  deriving DecidableEq, Repr

/-- The debug states of R389. -/
inductive DebugState where
  | locked
  | unlocked
  | disabled
  deriving DecidableEq, Repr

/-- A sealed-range entry (Table 16.5). -/
structure Seal where
  live    : Bool
  busy    : Bool
  part    : Nat
  kind    : Nat
  handle  : Nat
  offset  : Nat
  length  : Nat
  result  : Nat
  refused : Nat
  digest  : BitVec 384
  deriving DecidableEq, Repr

/-- Fuses, boot flash, identity and debug (chapter 16). -/
structure Purser where
  uid          : BitVec 64
  stepping     : BitVec 8
  keyHash      : List (BitVec 384)
  keyRevoke    : BitVec 4
  svnCount     : Nat
  debugDisable : Bool
  slotA        : Option Image
  slotB        : Option Image
  running      : Option Image
  debug        : DebugState
  /-- the challenge in PS_DBG and its number (R390) -/
  challenge    : BitVec 384
  /-- an accepted token's scrub is under way (R390) -/
  unlocking    : Bool
  aliasKey     : BitVec 384
  aliasCert    : BitVec 384
  seals        : Tab Seal
  deriving DecidableEq, Repr

/-! ## Command front end -/

/-- Where an in-flight command stands. -/
inductive Stage where
  /-- validated, waiting on CHAIN, BARRIER, a sequence gate or a live-queue limit (R43) -/
  | waiting
  /-- held at check 8 until GRACE of a mooring is decided (R193) -/
  | held
  /-- handed to its engine -/
  | dispatched
  /-- the engine works on it -/
  | running
  /-- at the home or in its flush, past its commit (R59) -/
  | atHome
  /-- the home's answer is on its way back (R59) -/
  | answered
  /-- the result is written, the record is not (R52) -/
  | finished
  deriving DecidableEq, Repr

/-- A partial of one row: O, m and l as FP32 (R105, R109), and what reached the row (R111, R112). -/
structure Partial where
  o      : List F32
  m      : F32
  l      : F32
  nan    : Bool
  poison : Bool
  deriving DecidableEq, Repr

/-- One candidate of a SEARCH: score, global row index, identifier (R118). -/
structure Candidate where
  score : F32
  index : Nat
  ident : Word
  deriving DecidableEq, Repr

/-- One in-flight command: it holds one command slot, `cid`, and one completion-ring entry (R47). -/
structure Cmd where
  cid     : Nat
  ctx     : Nat
  part    : Nat
  /-- 0xF_FFFF where the tag could not be read or was in use (Table 2.8) -/
  tag     : Nat
  opc     : Nat
  desc    : Desc
  stage   : Stage
  /-- the in-flight predecessor of CHAIN (R44) -/
  chainOn : Option Nat
  /-- its status once it has completed; CHAIN on a recorded command is decided at fetch (R44) -/
  chainRes : Option Nat
  /-- earlier commands of the context that BARRIER waits for (R46) -/
  barrier : List Nat
  /-- the statuses and DETAILs that apply so far (R62) -/
  causes  : List (Nat × Nat)
  /-- a stop that takes effect at the next boundary: STATUS and DETAIL (R60, R103) -/
  stop    : Option (Nat × Nat)
  value   : Nat
  nan     : Bool
  audited : Bool
  legs    : Nat
  /-- fetched data of the endpoint regions the command names, by 4 KiB piece (chapter rows that read them number the pieces) -/
  inputs  : Tab Payload
  /-- 0 deck A, 1 deck B, 2 lashed, once chosen (R98) -/
  place   : Option Nat
  /-- the fold in use, F (R97) -/
  fold    : Nat
  sec     : Nat
  step    : Nat
  /-- one list of row partials per stripe (R96) -/
  acc     : List (List Partial)
  /-- the leg-start copy of `acc` (R361) -/
  accCopy : List (List Partial)
  /-- finished rows or scores of the current section or command, with poison and NaN marks -/
  rows    : List Partial
  /-- per-query best candidates of SEARCH, one list per query -/
  found   : List (List Candidate)
  /-- rows marked by poison so far, by index in the output; of MATMUL, columns stand above its rows (R112, R116) -/
  marked  : List Nat
  /-- rows that became NaN so far (R111, R116) -/
  nanned  : List Nat
  /-- list position of the first entry of the current pass step (R81) -/
  pos     : Nat
  /-- its place in the order of dispatch -/
  order   : Nat
  /-- FEED_AHEAD at its dispatch (R150) -/
  ahead   : Nat
  nanRows : Nat
  poisonRows : Nat
  count   : Nat
  /-- SEQ the flush must reach, and whether its lost stores end it REVOKED (R208) -/
  flushTo : Option Nat
  /-- fetch instant in HCLK cycles (R193) -/
  fetched : Nat
  /-- the berth slots (part, slot) the descriptor names, as found at check 7 (R194) -/
  berths  : List Nat
  /-- it failed a check of Table 2.12, or its descriptor was never run: its status no longer changes (R62, R63) -/
  bad     : Bool
  /-- a ring failure took it while a leg of it ran: the leg ends, and no record is written (R31, R60) -/
  lost    : Bool
  /-- what the unit of work in hand has paid so far, by resource in the order of Table 10.2 (R263) -/
  paid    : List Nat
  /-- MAX_UNITS at its dispatch (R150) -/
  maxUnits : Nat
  /-- filter or reduce units it holds (R138, R151) -/
  held    : List Nat
  deriving DecidableEq, Repr

/-- What a module-originated read is for. -/
inductive ReadUse where
  /-- descriptors `first` … of a context -/
  | descriptors (ctx first n : Nat)
  /-- piece `idx` of the endpoint data a command reads -/
  | input (cid idx : Nat)
  /-- piece `idx` of a COPY's current transfer -/
  | copy (cid idx : Nat)
  /-- a shard, or the whole block, of a fill from a tray -/
  | trayShard (fill shard : Nat)
  /-- a piece for a member of a group that has been declared missing since (R177) -/
  | late (group : Nat)
  deriving DecidableEq, Repr

/-- An outstanding module-originated read. -/
structure ReadReq where
  rid : Nat
  use : ReadUse
  part : Nat
  len : Nat
  /-- issue instant in HCLK cycles -/
  issued : Nat
  /-- SEQ passed on of the owner's BULK flow at the issue (R208) -/
  mark : Option Nat
  deriving DecidableEq, Repr

/-- A context's state beyond its registers. -/
structure Ctx where
  /-- records written and not yet consumed (R41) -/
  unconsumed : Nat
  /-- completed passes through the completion ring (R53) -/
  pass       : Nat
  /-- the last 1,024 completed commands, newest first: tag and status (R44) -/
  history    : List (Nat × Nat)
  /-- descriptors whose read is under way, each holding a command slot and a completion entry (R47) -/
  reserved   : Nat
  deriving DecidableEq, Repr

/-- The command front end. -/
structure FrontEnd where
  cmds    : List Cmd
  reads   : List ReadReq
  nextRid : Nat
  ctxs    : Tab Ctx
  /-- commands dispatched so far -/
  dispatches : Nat
  /-- per partition: the context its last descriptor read served, plus 1 (R36) -/
  turn    : Tab Nat
  deriving DecidableEq, Repr

/-! ## Decks -/

/-- A tile in a deck's scratchpad (R128): the granules that have arrived, then its bytes and poisoned sectors. -/
structure Tile where
  cid    : Nat
  sec    : Nat
  ent    : Nat
  isV    : Bool
  /-- the gather unit that reads it, 0 to 8 of its deck (R127) -/
  unit   : Nat
  /-- granules it consists of: those not arrived are in flight (R128) -/
  need   : Nat
  got    : Nat
  valid  : Bool
  data   : Payload
  deriving DecidableEq, Repr

/-- The leg a deck runs. -/
structure Leg where
  cid     : Nat
  part    : Nat
  /-- the bound L in deck cycles, fixed at the leg's start (R101, R126) -/
  bound   : Nat
  /-- deck cycles since the leg's start: those of its steps, and the idle ones throttling put between them (R101, R406) -/
  cycles  : Nat
  /-- cycles of its steps -/
  busy    : Nat
  steps   : Nat
  lashed  : Bool
  /-- the leg ended early because tiles were not resident -/
  short   : Bool
  /-- phase of the toll audit, when the leg is audited (R364) -/
  audit   : Option Nat
  /-- a residue check failed: the leg is to be re-executed (R360) -/
  marked  : Bool
  /-- failed executions of this leg (R363) -/
  fails   : Nat
  /-- steps its re-execution has still to run (R362) -/
  left    : Nat
  secAtStart  : Nat
  stepAtStart : Nat
  deriving DecidableEq, Repr

/-- A deck's full state as SAVE copies it (R276). -/
structure DeckImage where
  scratch : List Tile
  accs    : List (Nat × List (List Partial))
  deriving DecidableEq, Repr

/-- What a cell-column's exposure report needs (R369): entry into service and first mismatch, in seconds of the time base, and
the hotspot temperature at each mismatch. -/
structure ColHealth where
  since : Nat
  first : Option Nat
  temps : List Nat
  deriving DecidableEq, Repr

/-- One deck beyond its registers. -/
structure Deck where
  leg      : Option Leg
  /-- reserved for a lashed command (R270) -/
  reserved : Option Nat
  /-- HCLK at which the reservation's idle time began -/
  reservedAt : Nat
  /-- per partition: the context that holds the slice (R269) -/
  holder   : Tab Nat
  /-- per context: cycles left of its slice, signed (R269) -/
  slice    : Tab Int
  /-- context and command of the last leg, for switches (R102, R273) -/
  last     : Option (Nat × Nat)
  scratch  : List Tile
  /-- cycles of the device reserve spent in this tide (R362) -/
  reserveUsed : Nat
  /-- a re-execution that waits for the next tide's reserve (R362) -/
  waitingLeg : Option Leg
  saveArea : Option DeckImage
  /-- OP of a save or restore under way: 1 SAVE, 2 RESTORE -/
  saveOp   : Nat
  /-- per column: its exposure (R369) -/
  cols : Tab ColHealth
  /-- legs run on this deck, by hour × 64 + partition (R369) -/
  partLegs : Tab Nat
  /-- the gather unit whose place the deck's spare took (R148) -/
  spareFor : Option Nat
  deriving DecidableEq, Repr

/-! ## Fares -/

/-- The resources of Table 10.2. -/
inductive Res where
  | nearA | nearB | deckA | deckB | engine | tray | link | flash
  deriving DecidableEq, Repr

/-- Fares and balances (chapter 10). Keys: partition × 8 + resource, or (partition × 8 + group) × 8 + resource. -/
structure Fares where
  /-- throttle level the capacities follow, in force since the last tide edge (R406) -/
  capLevel : Nat
  force   : Tab Nat
  balance : Tab Nat
  used    : Tab Nat
  /-- held words +0x00 and +0x08 of PT_FARE entries (R444), key partition × 2 + word -/
  hold    : Tab Word
  /-- written PT_FARE words, key partition × 4 + word (R442) -/
  written : Tab Word
  /-- SLICE_US and LEND in force since the last tide edge (R265), by partition; unlisted: 256 µs, no lending -/
  slices  : Tab Nat
  lending : List Nat
  /-- SHARE in force since the last tide edge (R265), by partition -/
  shares  : Tab Nat
  /-- partitions some work of which was charged in the current microsecond (R378) -/
  active  : List Nat
  /-- SELECT entries and FILTER keys that do not make up 1,024 yet (Table 5.18), key partition × 2 + opcode -/
  kcount  : Tab Nat
  deriving DecidableEq, Repr

/-! ## Collective groups -/

/-- What one member brought to one sequence. -/
structure MemberSeq where
  index    : Nat
  /-- the LOCAL member's REDUCE -/
  cid      : Option Nat
  /-- a CHILD's chunk frames by chunk index; the chunks of a LOCAL member not yet reduced: 2c the elements or rows of chunk c,
  2c + 1 the scales or pairs that go with them -/
  chunks   : List (Nat × Payload)
  /-- chunks a LOCAL member has read so far -/
  read     : Nat
  /-- chunk count its summary names (CHILD) -/
  expected : Option Nat
  complete : Bool
  missing  : Bool
  absent   : Bool
  /-- excluded as a destination (R174) -/
  excluded : Bool
  mask     : List Nat
  deriving DecidableEq, Repr

/-- The DONE of a sequence (Table 6.5d). -/
structure DoneInfo where
  status   : Nat
  detail   : Nat
  excluded : Nat
  missing  : Nat
  chunks   : Nat
  mask     : List Nat
  deriving DecidableEq, Repr

/-- The parameters on which all members of a sequence agree (R167). -/
structure SeqParams where
  kind : Nat
  op   : Nat
  ifmt : Nat
  ofmt : Nat
  len  : Nat
  root : Nat
  nrow : Nat
  dvw  : Nat
  deriving DecidableEq, Repr

/-- One open sequence of a group on this module (R160). -/
structure Seq where
  group   : Nat
  seq     : Nat
  params  : Option SeqParams
  members : List MemberSeq
  /-- the next chunk of contribution to be reduced (R151) -/
  step    : Nat
  /-- bytes of its stream that are made and not yet sent; what stands behind them in the stream's layout (R168) -/
  out     : Payload
  tail    : Payload
  /-- chunks of the stream sent so far, and the frames that carried them -/
  sent    : Nat
  frames  : Nat
  /-- bytes of RESULT a RELAY has received -/
  got     : Nat
  /-- the decided or received outcome -/
  outcome : Option DoneInfo
  /-- a RELAY has sent its summary (R167) -/
  up      : Bool
  deriving DecidableEq, Repr

/-- Group state beyond the RU_ registers. -/
structure Collectives where
  /-- RU_MEMB_DATA words, key group × 512 + member -/
  members : Tab Word
  seqs    : List Seq
  /-- members missing in sequences that are not open yet: group, sequence, member (R173) -/
  gone    : List (Nat × Nat × Nat)
  deriving DecidableEq, Repr

/-! ## Pool memory -/

/-- Near memory: bytes by physical address (half × 15,360 × 64 MiB + berth × 64 MiB + offset), poisoned sectors. -/
structure Near where
  cells  : List Host.Cell
  poison : List Nat
  deriving DecidableEq, Repr

/-- Slot states (Table 7.4). -/
inductive SlotState where
  | empty | granted | moored | draining | scrubbing
  deriving DecidableEq, Repr

/-- Mooring states (Table 7.5). -/
inductive Mooring where
  | active | grace | ended
  deriving DecidableEq, Repr

/-- A berth-table slot (Tables 7.12 and 7.13). -/
structure Slot where
  state    : SlotState
  kind     : Nat
  cls      : Nat
  lhalf    : Nat
  physA    : Nat
  physB    : Nat
  gen      : Nat
  mctx     : Nat
  lprofile : Nat
  leaseMs  : Nat
  mooring  : Mooring
  /-- HCLK instant of the last renewal -/
  renewed  : Nat
  /-- HCLK instant at which containment froze the lease (R372) -/
  frozenAt : Option Nat
  /-- HCLK instant at which the lease ended (R193) -/
  graceAt  : Nat
  /-- DRAIN_US has expired (R194) -/
  expired  : Bool
  /-- a REVOKE started or joined the drain, so the slot ends EMPTY (R198) -/
  revoke   : Bool
  deriving DecidableEq, Repr

/-- A channel whose rows were mapped onto its half's reserve: the first unused granule of the half at that time, and the channels
it skips, of 0 to 319 (R200). -/
structure Placement where
  chan  : Nat
  start : Nat
  skip  : List Nat
  deriving DecidableEq, Repr

/-- Stack controllers and sparing beyond the PM_ registers. -/
structure Pool where
  near      : Near
  /-- berth tables, key partition × 32,768 + slot -/
  slots     : Tab Slot
  /-- HCLK instants of corrected sectors by row, key channel × 12,582,912 + row (R370) -/
  rowCe     : Tab (List Nat)
  /-- channels that failed with the reserve of their half exhausted, so their granules stay in place (R201) -/
  dead      : List Nat
  /-- channels placed in the reserve, latest first (R200, R201) -/
  placed    : List Placement
  /-- the first unused reserve granule of each half, numbered over the half's berths (R200) -/
  reserveA  : Nat
  reserveB  : Nat
  /-- granules of mirrored pairs whose two copies are lost, by pair granule number, until the loss is acted on (R191) -/
  lostPairs : List Nat
  /-- a GRANT has completed since reset, so HASH_SALT is locked (R187) -/
  saltLocked : Bool
  deriving DecidableEq, Repr

/-! ## Coherence home -/

/-- Directory states (Table 8.11). -/
inductive DirState where
  | u | sh | ow
  deriving DecidableEq, Repr

/-- Line kinds (R213). -/
inductive LineKind where
  | normal | record | sema | ticket
  deriving DecidableEq, Repr

/-- A directory entry (Table 8.11). -/
structure DirEntry where
  st   : DirState
  kind : LineKind
  ovf  : Bool
  /-- the pointer holding F -/
  f    : Option Nat
  ptrs : List Nat
  deriving DecidableEq, Repr

/-- A request queued at the home for one line (R217). -/
inductive HomeReq where
  | frame (f : Frame)
  | cmd (cid : Nat)
  /-- an engine's store of part of a line (R212) -/
  | store (part off : Nat) (d : Payload)
  /-- an engine is to read the line, whose owner's data are fetched first (R212) -/
  | recall
  /-- command `cid` at ticket line `line` is to write the record line, whose copies are freed first (R213, R231) -/
  | linked (line cid : Nat)
  /-- the deadline of a ticket's OFFER, made at MOVES `moves` (R229) -/
  | deadline (moves : Nat)
  /-- a holder entry's lease has run out (R227) -/
  | leaseEnd (ctx : Nat)
  /-- a holder's context has ended its DRAINING (R227) -/
  | drainEnd (ctx : Nat)
  deriving DecidableEq, Repr

/-- A line's transaction in progress: its request and the snoop targets still to answer. -/
structure Txn where
  req      : HomeReq
  awaiting : List Nat
  /-- a snoop was answered by or is waiting for a WB (R219) -/
  wbFrom   : Option Nat
  /-- no holder sent the data to the requester, so the home supplies it (R215) -/
  needData : Bool
  /-- the record line whose copies must be freed before a HANDOFF acts (R213, R231) -/
  record   : Option Nat
  deriving DecidableEq, Repr

/-- One tally line beyond its 128 bytes. -/
structure Line where
  dir   : DirEntry
  txn   : Option Txn
  queue : List HomeReq
  deriving DecidableEq, Repr

/-- A parked WAIT or ACQUIRE, in arrival order. -/
structure Waiter where
  cid  : Nat
  line : Nat
  deriving DecidableEq, Repr

/-- A reply-cache entry (R221). -/
structure Reply where
  src    : Nat
  tag    : Nat
  part   : Nat
  status : Nat
  value  : Word
  deriving DecidableEq, Repr

/-- The BULK flow of one source at this module: what has been applied (R203, R208). -/
structure BulkFlow where
  src     : Nat
  start   : Nat
  /-- SEQ up to which every store has been applied, discarded or held -/
  applied : Nat
  /-- the highest SEQ of a store that was applied (R211) -/
  high    : Option Nat
  /-- SEQs of covered stores that were discarded and not yet reported (R195) -/
  lost    : List Nat
  deriving DecidableEq, Repr

/-- The coherence home. -/
structure Home where
  lines   : Tab Line
  waiters : List Waiter
  replies : List Reply
  bulk    : List BulkFlow
  /-- HCLK instant of the last renewal of each holder entry, key line × 4,096 + context (R227) -/
  leases  : Tab Nat
  deriving DecidableEq, Repr

/-! ## Tiers, trays, flash -/

/-- Block states (Table 9.2). -/
inductive BlockState where
  | absent | filling | resident | dirty | failed
  deriving DecidableEq, Repr

/-- The source of a window: tray berth or flash berth. -/
inductive Source where
  | tray (tbn : Nat)
  | flash (fbn : Nat)
  deriving DecidableEq, Repr

/-- A bound window: its source, read mode and the blocks that are not ABSENT. -/
structure Window where
  src     : Source
  through : Bool
  blocks  : Tab BlockState
  deriving DecidableEq, Repr

/-- The read of one block from its source: for a window, for a reader of a window in through-feed, or for a rebuild; `got`
holds the shards that have arrived. -/
structure Fill where
  fid     : Nat
  key     : Nat
  block   : Nat
  /-- its reads have been issued; until then it waits for a fare (R258, R263) -/
  issued  : Bool
  need    : List Nat
  got     : List (Nat × Payload)
  /-- a through-feed read places nothing in near memory (R247) -/
  feed    : Bool
  /-- the tray berth whose lost pages it rebuilds (R239) -/
  rebuildOf : Option Nat
  /-- the manifest's context it counts for (R256) -/
  manifest : Option Nat
  deriving DecidableEq, Repr

/-- A load or store held for a block that is being filled, or a release store behind earlier stores (R203, R235). -/
structure HeldFrame where
  frame : Frame
  /-- it was accepted before its slot entered DRAINING (R194) -/
  accepted : Bool
  deriving DecidableEq, Repr

/-- A layer record of a manifest (Table 9.5) with its bind pairs as read. -/
structure Layer where
  listAddr : Nat
  nent     : Nat
  nsec     : Nat
  through  : Bool
  sumAddr  : Nat
  sumStride : Nat
  binds    : List (Nat × Bool × Nat)
  deriving DecidableEq, Repr

/-- A running manifest (R252). -/
structure Manifest where
  ctx    : Nat
  part   : Nat
  cyclic : Bool
  depth  : Nat
  cursor : Nat
  layers : List Layer
  /-- layers whose bind pairs are applied and whose fills have all been issued, not yet released (R252, R253) -/
  issued : List Nat
  /-- layers the cursor has passed whose commands are not all complete (R253) -/
  passed : List Nat
  /-- bursts of each layer's list that have been read, key layer -/
  bursts : Tab Nat
  deriving DecidableEq, Repr

/-- What a command waits for (Table 9.10). -/
inductive StallCause where
  | trayLate | flashLate | channelRetire | budget
  deriving DecidableEq, Repr

/-- A wait that is charged to a cause from an HCLK instant on: of a command, or of a partition's frames (R257). -/
structure Stall where
  cid   : Option Nat
  part  : Nat
  cause : StallCause
  /-- the missing tile: handle, offset and length; a wait for a fare alone has length 0 -/
  handle : Nat
  off   : Nat
  len   : Nat
  since : Nat
  deriving DecidableEq, Repr

/-- The tier engine. -/
structure Tier where
  /-- windows with a source, key partition × 32,768 + slot -/
  windows   : Tab Window
  fills     : List Fill
  nextFill  : Nat
  held      : List HeldFrame
  /-- blocks read through-feed and not yet consumed: window, block, data -/
  feed      : List (Nat × Nat × Payload)
  manifests : List Manifest
  stalls    : List Stall
  /-- blocks to be filled again because their near copy was lost, by window and block (R251) -/
  refill    : List (Nat × Nat)
  deriving DecidableEq, Repr

/-- A tray berth (Table 9.17). -/
structure TrayBerth where
  part   : Nat
  policy : Nat
  group  : Nat
  state  : Nat
  bound  : Bool
  /-- per copy or shard: tray and its pages -/
  places : List (Nat × List Nat)
  /-- positions of `places` that are lost (R238) -/
  lost   : List Nat
  /-- the position under rebuild and the blocks still to rebuild (R239) -/
  target : Option Nat
  rebuild : List Nat
  deriving DecidableEq, Repr

/-- The tray agent. -/
structure Trays where
  berths : Tab TrayBerth
  /-- 8 MiB pages in use, key tray, value rising page numbers -/
  usedPages : Tab (List Nat)
  capacity : Tab Nat
  /-- endpoint IDs of the trays reached so far: a tray keeps its number (log entry 21) -/
  ids      : List Nat
  deriving DecidableEq, Repr

/-- A flash berth (Table 9.21). -/
structure FlashBerth where
  valid : Bool
  part  : Nat
  first : Nat
  log2n : Nat
  nsid  : Nat
  start : Nat
  deriving DecidableEq, Repr

/-- An outstanding NVMe command: a fill's read, a COPY's read, or a crash-area write. -/
structure Nvme where
  drive   : Nat
  nid     : Nat
  qpair   : Nat
  fill    : Option Nat
  copyCid : Option Nat
  nsid    : Nat
  lba     : Nat
  blocks  : Nat
  retried : Bool
  /-- it is to be issued again once its fare allows (R243, R258) -/
  due     : Bool
  deriving DecidableEq, Repr

/-- One drive beyond FL_DRIVE_STATUS. -/
structure Drive where
  present   : Bool
  refclk    : Bool
  perstLow  : Bool
  /-- HCLK instants of the queue pairs recreated within the last second (R243) -/
  recreates : List Nat
  deriving DecidableEq, Repr

/-- The flash reader. -/
structure Flash where
  berths : Tab FlashBerth
  drives : Tab Drive
  cmds   : List Nvme
  nextNid : Nat
  deriving DecidableEq, Repr

/-! ## Landing stage and links -/

/-- Highest SEQ a flow was stamped with in an epoch, until an ACK covers it (R320). -/
structure StampedFlow where
  flow  : FlowId
  part  : Nat
  epoch : Nat
  high  : Nat
  deriving DecidableEq, Repr

/-- The landing stage. -/
structure Landing where
  /-- rank maps, key (partition × 3 + slot) × 4,096 + rank with slot 0 STAGED, 1 CURRENT, 2 PREVIOUS; endpoint IDs -/
  maps    : Tab Nat
  /-- routes, key endpoint ID; egress ports in entry order -/
  routes  : Tab (List Nat)
  stamped : List StampedFlow
  deriving DecidableEq, Repr

/-- On whose account the module originated a frame: what its acknowledgement or its PATH_FATAL bears on. -/
inductive Owner where
  | cmd (cid : Nat)
  | record (ctx : Nat)
  | notify (ctx : Nat)
  | read (rid : Nat)
  | seq (group seq : Nat)
  deriving DecidableEq, Repr

/-- A frame this module originated and still retains (R298). -/
structure Sent where
  frame  : Frame
  /-- retransmissions on the current path -/
  resends : Nat
  path   : Nat
  owner  : Option Owner
  /-- HCLK instant of its last sending (R301, R302) -/
  sentAt : Nat
  deriving DecidableEq, Repr

/-- A flow this module is the source of. -/
structure FlowOut where
  id       : FlowId
  nextSeq  : Nat
  syncNext : Bool
  unacked  : List Sent
  deriving DecidableEq, Repr

/-- A flow this module is the destination of (R299, R303). -/
structure FlowIn where
  id      : FlowId
  /-- SEQ of the last SYNC frame; none before the flow's start -/
  start   : Option Nat
  /-- SEQ up to which every frame was passed on -/
  passed  : Nat
  held    : List Frame
  /-- frames passed on since the last ACK, and the highest CE among them (R300) -/
  sinceAck : Nat
  /-- an ACK is owed for a discarded duplicate (R302) -/
  owes    : Bool
  maxCe   : Nat
  part    : Nat
  epoch   : Nat
  deriving DecidableEq, Repr

/-- The pots a sent frame took its credits from (R296). -/
structure CreditTake where
  vc    : Nat
  part  : Nat
  resv  : Nat
  pool  : Nat
  floor : Nat
  deriving DecidableEq, Repr

/-- A codeword that carries a part of a port's stream: FSTART in 8-byte words, CWSEQ, and its 640 bytes (Table 11.2). -/
structure Codeword where
  start : Option Nat
  cwseq : Nat
  data  : List Byte
  deriving DecidableEq, Repr

/-- The send side of a port's PCS: its codeword in hand, by number, with the first frame start in it and its bytes so far (R281,
R283). -/
structure PcsTx where
  number : Nat
  start  : Option Nat
  bytes  : List Byte
  deriving DecidableEq, Repr

/-- The receive side of a port's PCS: it skips the stream up to an FSTART; else the bytes of the frame in progress (R283, R284). -/
structure PcsRx where
  skip  : Bool
  frame : List Byte
  deriving DecidableEq, Repr

/-- One port beyond its registers. -/
structure Port where
  /-- training step 1 DETECT … 5 PARAM, 0 when not training (Table 11.3) -/
  step     : Nat
  attempts : Nat
  uid      : Word
  /-- peer's free credits: per VC reserved and floor, and the pool (R296) -/
  resv     : List Nat
  floor    : List Nat
  pool     : Nat
  /-- pool credits held per partition on SWITCH ports (R297) -/
  poolUse  : Tab Nat
  taken    : List CreditTake
  counts   : List Nat
  /-- cumulative credits freed per VC, modulo 2^16 -/
  freed    : List Nat
  /-- lane under repair and its action (R290, R291) -/
  repair   : Option (Nat × Nat)
  /-- the spare is cabled to the same peer (Table 11.4) -/
  peerSpare : Bool
  /-- capacity a TRAY peer reports, in 8 MiB pages (Table 11.4) -/
  pages     : Nat
  /-- LPARAM messages of the attempt that agreed (Table 11.3, PARAM) -/
  agreed    : Nat
  /-- lanes to be retired once the repair in hand is over (R289) -/
  waiting   : List Nat
  tx        : PcsTx
  rx        : PcsRx
  deriving DecidableEq, Repr

/-- Links and end-to-end delivery. -/
structure Links where
  ports    : Tab Port
  out      : List FlowOut
  inn      : List FlowIn
  /-- originated frames that wait for the 65,536 limit (R298) -/
  waiting  : List (Frame × Option Owner)
  deriving DecidableEq, Repr

/-! ## Switch core and traffic manager -/

/-- A frame in the shared buffer. -/
structure BufFrame where
  fid     : Nat
  frame   : Frame
  acct    : Nat
  /-- the cells that hold it, first to last: row of bank group g as 4,096 × g + row (R326) -/
  chain   : List Nat
  shared  : Bool
  sub     : Nat
  /-- egresses that still hold a reference (R332, R334) -/
  egress  : List Nat
  /-- held by a resequencer (R335) -/
  held    : Option ReseqPoint
  /-- admission instant in HCLK cycles (R333) -/
  admitted : Nat
  owner   : Option Owner
  /-- the header, and the part of the data, that an egress sends in place of the stored frame's (R164) -/
  forms   : List (Nat × Frame)
  /-- counted in GATE_HOLD (R354) -/
  gateHeld : Bool
  deriving DecidableEq, Repr

/-- A frame waiting for admission in port-die staging or in its engine (R330). -/
structure Staged where
  frame  : Frame
  acct   : Nat
  sub    : Nat
  egress : List Nat
  ingress : Option Nat
  held   : Option ReseqPoint
  owner  : Option Owner
  /-- per egress, the header it forms for its own target (R164) -/
  forms  : List (Nat × Frame)
  deriving DecidableEq, Repr

/-- A multicast entry (Table 13.11). -/
structure McEntry where
  part  : Nat
  ports : List Nat
  deriving DecidableEq, Repr

/-- The passed point of a flow at an ENDPOINT egress (R336). -/
structure Passed where
  port   : Nat
  flow   : FlowId
  passed : Nat
  deriving DecidableEq, Repr

/-- The switch core. -/
structure SwitchCore where
  frames   : List BufFrame
  staged   : List Staged
  nextFid  : Nat
  groups   : Tab McEntry
  passed   : List Passed
  /-- cells found unmarked by the last audit pass (R337) -/
  unmarked : List Nat
  deriving DecidableEq, Repr

/-- A start tag of start-time fair queuing (R348). -/
structure Tag where
  start : Nat
  woken : Bool
  deriving DecidableEq, Repr

/-- A gate control list: entries of GATES and DURATION, and OFFSET (R351). -/
structure Gcl where
  entries : List (Nat × Nat)
  offset  : Nat
  deriving DecidableEq, Repr

/-- A TIME frame that waits for gate 7 of its port (R347). -/
structure TimeOut where
  port : Nat
  typ  : Nat
  seq  : Nat
  time : TimeStamp
  deriving DecidableEq, Repr

/-- The traffic manager. Service key egress × 512 + service; subscriber key (egress × 512 + service) × 4,608 + subscriber. -/
structure Traffic where
  egressV  : Tab Nat
  serviceV : Tab Nat
  svcTag   : Tab Tag
  subTag   : Tab Tag
  /-- thousandths of a byte in the token buckets that are not full, by service and by subscriber (R350) -/
  svcBucket : Tab Nat
  subBucket : Tab Nat
  /-- PENDING entries as written, key port × 256 + entry: the 32-bit words -/
  pendData : Tab Nat
  pending  : Tab Gcl
  active   : Tab Gcl
  /-- per port: entry of the ACTIVE list in force, plus 1; unlisted: every gate open -/
  entry    : Tab Nat
  /-- TIME frames that wait for their gate, oldest first (R347) -/
  times    : List TimeOut
  deriving DecidableEq, Repr

/-! ## Health and management -/

/-- An error-log entry before it is written (Table 15.5). -/
structure LogEntry where
  seq   : Nat
  sev   : Nat
  cause : Nat
  subsys : Nat
  part  : Option Nat
  sec   : Nat
  ns    : Nat
  ctx   : Nat
  tag   : Nat
  loc   : Nat
  addr  : Nat
  count : Nat
  temp  : Nat
  aux   : Nat
  deriving DecidableEq, Repr

/-- The health subsystem beyond the HS_ registers. -/
structure Health where
  queue    : List LogEntry
  /-- the 64 further places for CONTAINED and FATAL entries (R376) -/
  extra    : List LogEntry
  nextSeq  : Nat
  logPass  : Nat
  /-- entries written and not consumed (R375) -/
  unread   : Nat
  /-- the entries of the last 1 MiB of the log, newest first (R242) -/
  history  : List LogEntry
  /-- die-to-die lane repairs per link (R16) -/
  d2d      : Tab Nat
  /-- units to be retired at their next boundary: gather unit i as i, filter unit i as 32 + i, reduce unit i as 64 + i (R148) -/
  retiring : List Nat
  /-- HCLK instants of the events that are counted over 24 hours, or within a second, by register
  key (R200, R289, R328, R368, R370) -/
  recent   : Tab (List Nat)
  /-- per partition: its unbroken DEVICE_STALL intervals, first microsecond since hub release and length, oldest first (R378, R379) -/
  stallRuns : Tab (List (Nat × Nat))
  deriving DecidableEq, Repr

/-- Management endpoints and the upstream PCIe ports. -/
structure Mgmt where
  eid       : Nat
  i3cAddr   : Nat
  eventEid  : Option Nat
  /-- last threshold zone of each PLDM sensor (Table 18.7) -/
  zones     : Tab Nat
  /-- the links of U0 and U1 are trained (R428) -/
  up0       : Bool
  up1       : Bool
  /-- the MSI-X table entry's two 64-bit words, and the pending-bit array (R436) -/
  msixAddr  : Nat
  msixData  : Nat
  msixPend  : Nat
  /-- the JTAG instruction in force -/
  jtag      : JtagIns
  deriving DecidableEq, Repr

/-- What leaves the module: the model's own record of it, oldest first. -/
inductive Out where
  /-- a frame sent on a port -/
  | frame (port : Nat) (f : Frame)
  /-- a codeword of a port's stream goes out on a logical lane (R281) -/
  | codeword (port lane : Nat) (c : Codeword)
  /-- a frame handed to a consumer behind local egress 512 to 517 -/
  | deliver (egress : Nat) (f : Frame)
  /-- a link-local VC7 frame: CREDIT, LPARAM or LANE_CTL, or a TIME frame, with its payload fields -/
  | link (port opc : Nat) (fields : List Nat)
  /-- a write to fabric-manager memory over PCIe -/
  | fmWrite (up addr : Nat) (bytes : List Byte)
  /-- `len` bytes of fabric-manager memory are zero-filled over PCIe (R375) -/
  | fmZero (up addr len : Nat)
  | msi (up : Nat)
  | readData (up : Nat) (bytes : List Byte)
  /-- an image read from fabric-manager memory starts (R386) -/
  | fmRead (up addr len : Nat)
  /-- a region of endpoint memory whose contents are undefined after a stop (R60): rank, address -/
  | undefinedRegion (part rank addr len : Nat)
  /-- a region of a tray berth whose contents are undefined after a stop (R60): berth, offset, length -/
  | undefinedTray (tbn off len : Nat)
  /-- a page of a tray is zero-filled (R237; the frames are log entry 27) -/
  | trayZero (tray page : Nat)
  /-- an NVMe command: drive, queue pair (0 admin), opcode, namespace, LBA, blocks -/
  | nvme (drive qpair op nsid lba blocks : Nat)
  /-- the data of an NVMe Write; what the command covers beyond them is zero -/
  | nvmeData (drive lba : Nat) (data : List Byte)
  /-- management responses: message name and fields -/
  | spdm (msg : String) (fields : List Nat) (digests : List (BitVec 384)) (sig : Option (BitVec 768))
  | mctp (msg : String) (fields : List Nat)
  | i3c (fields : List Nat)
  | jtag (bits : Nat) (value : Nat)
  deriving DecidableEq, Repr

/-- Why the machine stops: nothing in the manual stops it without a state the manual describes, so no command raises a
fault. -/
inductive Fault where
  /-- Raised by no command; safe. -/
  | none
  deriving DecidableEq, Repr

/-- Why a command has no effect of its own. -/
inductive Refusal where
  /-- The command's meaning is not written yet; raised only by an arm of exec; safe. -/
  | notModelled (mnemonic : String)
  /-- A die-internal JTAG instruction in UNLOCKED reaches state the manual does not describe (R389). Raised by
  JTAG_INSTRUCTION on that form only; safe. -/
  | jtagDieInternal
  deriving DecidableEq, Repr

/-- The whole module. -/
structure State where
  /-- register fields that differ from their reset value, key field + 1024 × entry (Machine/Regs.lean) -/
  regs    : Tab Nat
  tb      : TimeBase
  pwr     : Power
  ps      : Purser
  fe      : FrontEnd
  deckA   : Deck
  deckB   : Deck
  pt      : Fares
  co      : Collectives
  pm      : Pool
  ho      : Home
  te      : Tier
  ty      : Trays
  fl      : Flash
  lp      : Landing
  lk      : Links
  sc      : SwitchCore
  tm      : Traffic
  hs      : Health
  mg      : Mgmt
  out     : List Out
  /-- counter of the free values (the model's own) -/
  freeCtr : Nat
  /-- the commands that wait, first in, first out -/
  pending : List Instr
  deriving DecidableEq, Repr

/-! ## The state right after reset -/

def Deck.reset : Deck :=
  { leg := none, reserved := none, reservedAt := 0, holder := [], slice := [], last := none, scratch := [],
    reserveUsed := 0, waitingLeg := none, saveArea := none, saveOp := 0, cols := [], partLegs := [], spareFor := none }

def TimeBase.reset : TimeBase :=
  { sec := 0, ns := 0, frac := 0, running := false, hclk := 0, lastPps := none, secNextNew := false,
    syncTimes := none, delayReq := none, delaySeq := 0, ppsSec := 0, linkDelay := none }

/-- Rails up, hub in reset (STANDBY); temperatures unread (log entry 3). -/
def Power.reset : Power :=
  { inputGood := true, enableLow := true, railsOn := true, coreRailsOff := false, railsBad := [], overSample := false,
    sumWatts := 0, samples := 0, history := [], overCurrent := 0, decksHalted := false, coolMs := 0, outlier := [],
    tripping := [], dieTemps := [], faultLow := false, resetHeld := false, startStep := 0, startDegraded := false, refBad := 0 }

/-- The fuses and the boot flash survive resets; a part's own values are log entry 3. -/
def Purser.reset : Purser :=
  { uid := 0, stepping := 0xB0, keyHash := [0, 0, 0, 0], keyRevoke := 0, svnCount := 0, debugDisable := false,
    slotA := none, slotB := none, running := none, debug := .locked, challenge := 0, unlocking := false,
    aliasKey := 0, aliasCert := 0, seals := [] }

def FrontEnd.reset : FrontEnd := { cmds := [], reads := [], nextRid := 0, ctxs := [], dispatches := 0, turn := [] }

def Fares.reset : Fares := { capLevel := 0, force := [], balance := [], used := [], hold := [], written := [], slices := [], lending := [], shares := [], active := [], kcount := [] }

def Pool.reset : Pool :=
  { near := { cells := [], poison := [] }, slots := [], rowCe := [], dead := [], placed := [], reserveA := 201326592, reserveB := 201326592,
    lostPairs := [], saltLocked := false }

def Home.reset : Home := { lines := [], waiters := [], replies := [], bulk := [], leases := [] }

def Tier.reset : Tier := { windows := [], fills := [], nextFill := 0, held := [], feed := [], manifests := [], stalls := [], refill := [] }

def Trays.reset : Trays := { berths := [], usedPages := [], capacity := [], ids := [] }

def Flash.reset : Flash := { berths := [], drives := [], cmds := [], nextNid := 0 }

def Landing.reset : Landing := { maps := [], routes := [], stamped := [] }

def Links.reset : Links := { ports := [], out := [], inn := [], waiting := [] }

def SwitchCore.reset : SwitchCore :=
  { frames := [], staged := [], nextFid := 0, groups := [], passed := [], unmarked := [] }

def Traffic.reset : Traffic :=
  { egressV := [], serviceV := [], svcTag := [], subTag := [], svcBucket := [], subBucket := [], pendData := [],
    pending := [], active := [], entry := [], times := [] }

def Health.reset : Health := { queue := [], extra := [], nextSeq := 0, logPass := 0, unread := 0, history := [], d2d := [], retiring := [], recent := [], stallRuns := [] }

def Mgmt.reset : Mgmt :=
  { eid := 0, i3cAddr := 0, eventEid := none, zones := [], 
    up0 := false, up1 := false, msixAddr := 0, msixData := 4294967296, msixPend := 0, jtag := .idcode }

/-- The module right after reset: HS_STATE reads STANDBY, every register reads its Reset column, nothing is listed in
memory or in any table (R413, R448). -/
def State.reset : State :=
  { regs := [], tb := .reset, pwr := .reset, ps := .reset, fe := .reset, deckA := .reset, deckB := .reset,
    pt := .reset, co := { members := [], seqs := [], gone := [] }, pm := .reset, ho := .reset, te := .reset, ty := .reset,
    fl := .reset, lp := .reset, lk := .reset, sc := .reset, tm := .reset, hs := .reset, mg := .reset,
    out := [], freeCtr := 0, pending := [] }

end Sys2Proof.Machine
end

