-- ==== Sys2Proof/Machine/Regs.lean ====
section
/-! DEFINITION. The registers of BAR0 (Table 19.9 and the register table each chapter gives): every field under its own name
with its entry count, width and reset value, and the layout by which a 64-bit word is read and written. -/

namespace Sys2Proof.Machine

/-- How the Reset column gives the value of entry i. -/
inductive ResetRule where
  | const (v : Nat)
  /-- `a` at entry 0, else `b` -/
  | zeroth (a b : Nat)
  /-- `a` at every k-th entry from 0, else `b` -/
  | every (k a b : Nat)
  /-- `a` below entry k, `b` from it on -/
  | upTo (k a b : Nat)
  /-- units in groups of nine: `a` for the first eight, `b` for the spare -/
  | units (a b : Nat)
  /-- columns in groups of 34: 0 for 0 to 31, 1 for the spares -/
  | cols
  /-- the entry number within its group of 34 -/
  | mod34
  /-- the entry number divided by 4 -/
  | quarter
  deriving DecidableEq, Repr

/-- The value entry `i` holds at reset. -/
def resetValue : ResetRule → Nat → Nat
  | .const v, _ => v
  | .zeroth a b, i => if i = 0 then a else b
  | .every k a b, i => if i % k = 0 then a else b
  | .upTo k a b, i => if i < k then a else b
  | .units a b, i => if i % 9 = 8 then b else a
  | .cols, i => if i % 34 < 32 then 0 else 1
  | .mod34, i => i % 34
  | .quarter, i => i / 4

/-- A register field: its number, how many entries it has, its width and its reset rule. -/
structure RegField where
  id    : Fin 1024
  count : Nat
  width : Nat
  reset : ResetRule
  deriving DecidableEq, Repr

/-- The access codes of Table 19.2. -/
inductive Access where
  | rw | ro | w1c | w1s | rc | wo | rwl
  deriving DecidableEq, Repr

/-- Where a field lies in its register: `per` parts of `width` bits, `gap` bits apart, parts `base` on of `total` per entry;
a write may place `lo` to `hi` in it (R12). -/
structure FieldPos where
  f     : RegField
  word  : Nat
  lsb   : Nat
  width : Nat
  acc   : Access
  lo    : Nat
  hi    : Nat
  per   : Nat
  gap   : Nat
  base  : Nat
  total : Nat
  deriving DecidableEq, Repr

/-- The registers of Table 19.9. -/
inductive Reg where
  | CF_PART_QUOTA | CF_DB_REJECT | CF_CTX_CTRL | CF_CTX_SQ | CF_CTX_CQ | CF_CTX_LIMITS
  | CF_CTX_NOTIFY | CF_CTX_STATE | CF_CTX_IDX | CH_CFG | CH_STATUS | CH_PART_CFG
  | CH_PART_STAT | CH_PART_DIR | CK_TIME_CFG | CK_TIME_ADDEND | CK_TIME_SEC | CK_TIME_NS
  | CK_TIME_SET | CK_TIME_SEC_NEXT | CK_TIME_STATUS | CK_CLK_STATUS | DK_DECK_STATUS | DK_FULL_SAVE
  | DK_PART_CFG | DK_PART_LEGS | DK_COL_STATUS | FL_CFG | FL_FB_SEL | FL_FB_DATA
  | FL_DRIVE_STATUS | FU_UNIT_STATUS | FU_PART_CFG | FU_PART_COUNT | GU_UNIT_STATUS | GU_PART_CFG
  | GU_PART_FEED | GU_PART_SHIP | HS_STATE | HS_RESET | HS_RESET_CAUSE | HS_STRAP_STATUS
  | HS_PWR_CFG | HS_PWR_STATUS | HS_RAS_CFG | HS_LOG_BASE | HS_LOG_CTRL | HS_LOG_STATUS
  | HS_ACC_STATUS | HS_ACC_ADDR | HS_THERM_STATUS | HS_PART_STATE | HS_PART_AVAIL | LK_E2E_CFG
  | LK_E2E_STAT | LK_LANE_RETIRE | LK_CBL_STATUS | LK_PART_POOL | LK_PORT_CFG | LK_PORT_STATUS
  | LK_PORT_ERR | LK_LANE_STATUS | LP_CFG | LP_ROUTE_SEL | LP_ROUTE_DATA | LP_MAP_SEL
  | LP_MAP_DATA | LP_EPOCH | LP_PART_STAT | LP_PORT_CFG | PM_CFG | PM_RAS_CFG
  | PM_BERTH_SEL | PM_BERTH_DATA | PM_BERTH_LEASE | PM_BERTH_CMD | PM_HALF_STATUS | PM_PART_ERR
  | PM_CHAN_STATUS | PS_ID | PS_BOOT_STATUS | PS_BOOT_CFG | PS_UPD_ADDR | PS_UPD_LEN
  | PS_UPD_CMD | PS_LOCK_STATUS | PS_DIGEST_SEL | PS_DIGEST_DATA | PS_UID | PT_CFG
  | PT_PART_CMD | PT_CAP | PT_PART_CFG | PT_PART_STATE | PT_GROUP_SHARE | PT_FARE
  | PT_PART_USED | PT_CTX_GROUP | RU_MEMB_SEL | RU_MEMB_DATA | RU_UNIT_STATUS | RU_PART_CFG
  | RU_GRP_STAT | RU_GRP_CFG | RU_GRP_PARENT | SC_CFG | SC_STATUS | SC_AUDIT_STAT
  | SC_BANK_RETIRE | SC_MC_SEL | SC_MC_DATA | SC_PART_BUF | SC_PART_OCC | SC_PART_DROP
  | SC_BANK_STATUS | TE_PART_CFG | TE_PART_STALL | TM_CFG | TM_STATUS | TM_GCL_SEL
  | TM_GCL_DATA | TM_PART_CFG | TM_SVC_SHAPE | TM_SVC_HWM | TM_GCL_CTRL | TM_PORT_STAT
  | TM_SUB_SHAPE | TY_CFG | TY_TB_SEL | TY_TB_DATA | TY_TB_CMD | TY_GROUP
  | TY_TRAY_STATUS
  deriving DecidableEq, Repr

/-- A register: its offset in BAR0, entries, stride in bytes, words per entry and fields. -/
structure RegDesc where
  reg    : Reg
  off    : Nat
  count  : Nat
  stride : Nat
  words  : Nat
  fields : List FieldPos
  deriving DecidableEq, Repr


/-! CF_PART_QUOTA (Table 2.20) -/
def CF_PART_QUOTA.SLOT_QUOTA : RegField := ⟨0, 64, 15, .zeroth 1024 0⟩
def CF_PART_QUOTA.REFUSED : RegField := ⟨1, 64, 1, .const 0⟩
def CF_PART_QUOTA.SLOT_INUSE : RegField := ⟨2, 64, 15, .const 0⟩

/-! CF_DB_REJECT (Table 2.21) -/
def CF_DB_REJECT.NOT_OWNER : RegField := ⟨3, 64, 32, .const 0⟩
def CF_DB_REJECT.DISCARDED : RegField := ⟨4, 64, 32, .const 0⟩

/-! CF_CTX_CTRL (Table 2.14) -/
def CF_CTX_CTRL.ENABLE : RegField := ⟨5, 4096, 1, .const 0⟩
def CF_CTX_CTRL.PAUSE : RegField := ⟨6, 4096, 1, .const 0⟩
def CF_CTX_CTRL.PART : RegField := ⟨7, 4096, 6, .const 0⟩
def CF_CTX_CTRL.OWNER_RANK : RegField := ⟨8, 4096, 12, .const 0⟩
def CF_CTX_CTRL.GEN : RegField := ⟨9, 4096, 8, .const 0⟩
def CF_CTX_CTRL.PROFILE : RegField := ⟨10, 4096, 4, .const 0⟩

/-! CF_CTX_SQ (Table 2.15) -/
def CF_CTX_SQ.BASE : RegField := ⟨11, 4096, 52, .const 0⟩
def CF_CTX_SQ.LOG2 : RegField := ⟨12, 4096, 5, .const 4⟩

/-! CF_CTX_CQ (Table 2.15) -/
def CF_CTX_CQ.BASE : RegField := ⟨13, 4096, 52, .const 0⟩
def CF_CTX_CQ.LOG2 : RegField := ⟨14, 4096, 5, .const 4⟩

/-! CF_CTX_LIMITS (Table 2.16) -/
def CF_CTX_LIMITS.MAX_INFLIGHT : RegField := ⟨15, 4096, 13, .const 256⟩
def CF_CTX_LIMITS.TIMEOUT_MS : RegField := ⟨16, 4096, 16, .const 250⟩
def CF_CTX_LIMITS.FETCH_MAX : RegField := ⟨17, 4096, 7, .const 64⟩

/-! CF_CTX_NOTIFY (Table 2.17) -/
def CF_CTX_NOTIFY.NOTIFY_ADDR : RegField := ⟨18, 4096, 52, .const 0⟩
def CF_CTX_NOTIFY.NOTIFY_EN : RegField := ⟨19, 4096, 1, .const 0⟩

/-! CF_CTX_STATE (Table 2.18) -/
def CF_CTX_STATE.STATE : RegField := ⟨20, 4096, 3, .const 0⟩
def CF_CTX_STATE.REFUSED : RegField := ⟨21, 4096, 1, .const 0⟩
def CF_CTX_STATE.ERR_CAUSE : RegField := ⟨22, 4096, 8, .const 0⟩
def CF_CTX_STATE.SQ_HEAD : RegField := ⟨23, 4096, 16, .const 0⟩
def CF_CTX_STATE.CQ_NEXT : RegField := ⟨24, 4096, 16, .const 0⟩
def CF_CTX_STATE.INFLIGHT : RegField := ⟨25, 4096, 13, .const 0⟩

/-! CF_CTX_IDX (Table 2.19) -/
def CF_CTX_IDX.SQ_TAIL : RegField := ⟨26, 4096, 16, .const 0⟩
def CF_CTX_IDX.CQ_HEAD : RegField := ⟨27, 4096, 16, .const 0⟩

/-! CH_CFG (Table 8.25) -/
def CH_CFG.BATCH_MAX : RegField := ⟨28, 1, 7, .const 64⟩
def CH_CFG.REFUSED : RegField := ⟨29, 1, 1, .const 0⟩

/-! CH_STATUS (Table 8.29) -/
def CH_STATUS.WATCHES : RegField := ⟨30, 1, 15, .const 0⟩
def CH_STATUS.PROTO_ERR : RegField := ⟨31, 1, 16, .const 0⟩
def CH_STATUS.REPLAYS : RegField := ⟨32, 1, 32, .const 0⟩

/-! CH_PART_CFG (Table 8.26) -/
def CH_PART_CFG.PROFILE : RegField := ⟨33, 64, 4, .const 1⟩
def CH_PART_CFG.DIR_UNITS : RegField := ⟨34, 64, 9, .const 4⟩
def CH_PART_CFG.REFUSED : RegField := ⟨35, 64, 1, .const 0⟩
def CH_PART_CFG.SEM_LEASE_MS : RegField := ⟨36, 64, 16, .const 250⟩

/-! CH_PART_STAT (Table 8.27) -/
def CH_PART_STAT.STALE_PUB : RegField := ⟨37, 64, 16, .const 0⟩
def CH_PART_STAT.NOT_OWNER : RegField := ⟨38, 64, 16, .const 0⟩
def CH_PART_STAT.REVERTS : RegField := ⟨39, 64, 16, .const 0⟩
def CH_PART_STAT.SEM_EXPIRED : RegField := ⟨40, 64, 16, .const 0⟩

/-! CH_PART_DIR (Table 8.28) -/
def CH_PART_DIR.DIR_MISS : RegField := ⟨41, 64, 32, .const 0⟩
def CH_PART_DIR.BCAST : RegField := ⟨42, 64, 32, .const 0⟩

/-! CK_TIME_CFG (Table 17.14) -/
def CK_TIME_CFG.SRC : RegField := ⟨43, 1, 2, .const 0⟩
def CK_TIME_CFG.SRC_PORT : RegField := ⟨44, 1, 9, .const 0⟩
def CK_TIME_CFG.SYNC_OUT : RegField := ⟨45, 1, 1, .const 0⟩
def CK_TIME_CFG.REFUSED : RegField := ⟨46, 1, 1, .const 0⟩

/-! CK_TIME_ADDEND (Table 17.14) -/
def CK_TIME_ADDEND.ADDEND : RegField := ⟨47, 1, 40, .const 3579139413⟩

/-! CK_TIME_SEC (Table 17.15) -/
def CK_TIME_SEC.SEC : RegField := ⟨48, 1, 48, .const 0⟩

/-! CK_TIME_NS (Table 17.15) -/
def CK_TIME_NS.NS : RegField := ⟨49, 1, 32, .const 0⟩

/-! CK_TIME_SET (Table 17.15) -/
def CK_TIME_SET.SEC : RegField := ⟨50, 1, 48, .const 0⟩

/-! CK_TIME_SEC_NEXT (Table 17.15) -/
def CK_TIME_SEC_NEXT.SEC : RegField := ⟨51, 1, 48, .const 0⟩

/-! CK_TIME_STATUS (Table 17.16) -/
def CK_TIME_STATUS.LOCKED : RegField := ⟨52, 1, 1, .const 0⟩
def CK_TIME_STATUS.HOLDOVER : RegField := ⟨53, 1, 1, .const 0⟩
def CK_TIME_STATUS.STEPS : RegField := ⟨54, 1, 16, .const 0⟩
def CK_TIME_STATUS.PPS_REJECT : RegField := ⟨55, 1, 16, .const 0⟩
def CK_TIME_STATUS.OFFSET_NS : RegField := ⟨56, 1, 16, .const 0⟩

/-! CK_CLK_STATUS (Table 17.16) -/
def CK_CLK_STATUS.PLL_LOCK : RegField := ⟨57, 1, 4, .const 0⟩
def CK_CLK_STATUS.REF_OK : RegField := ⟨58, 1, 1, .const 0⟩
def CK_CLK_STATUS.REF_PPM : RegField := ⟨59, 1, 16, .const 0⟩

/-! DK_DECK_STATUS (Table 4.15) -/
def DK_DECK_STATUS.BUSY : RegField := ⟨60, 2, 1, .const 0⟩
def DK_DECK_STATUS.LASHED : RegField := ⟨61, 2, 1, .const 0⟩
def DK_DECK_STATUS.PART : RegField := ⟨62, 2, 6, .const 0⟩
def DK_DECK_STATUS.DEGRADED : RegField := ⟨63, 2, 1, .const 0⟩
def DK_DECK_STATUS.SPARES_USED : RegField := ⟨64, 2, 2, .const 0⟩
def DK_DECK_STATUS.COLS : RegField := ⟨65, 2, 6, .const 32⟩
def DK_DECK_STATUS.LEG_SEQ : RegField := ⟨66, 2, 32, .const 0⟩

/-! DK_FULL_SAVE (Table 10.11) -/
def DK_FULL_SAVE.QUIESCE : RegField := ⟨67, 2, 1, .const 0⟩
def DK_FULL_SAVE.QUIESCED : RegField := ⟨68, 2, 1, .const 0⟩
def DK_FULL_SAVE.OP : RegField := ⟨69, 2, 2, .const 0⟩
def DK_FULL_SAVE.BUSY : RegField := ⟨70, 2, 1, .const 0⟩
def DK_FULL_SAVE.RESULT : RegField := ⟨71, 2, 3, .const 0⟩

/-! DK_PART_CFG (Table 4.14) -/
def DK_PART_CFG.PROFILE : RegField := ⟨72, 64, 4, .const 1⟩
def DK_PART_CFG.LEG_US : RegField := ⟨73, 64, 5, .const 4⟩
def DK_PART_CFG.LASH_EN : RegField := ⟨74, 64, 1, .const 1⟩
def DK_PART_CFG.REFUSED : RegField := ⟨75, 64, 1, .const 0⟩

/-! DK_PART_LEGS (Table 4.16) -/
def DK_PART_LEGS.LEGS : RegField := ⟨76, 64, 32, .const 0⟩
def DK_PART_LEGS.SHORT : RegField := ⟨77, 64, 32, .const 0⟩

/-! DK_COL_STATUS (Table 15.13) -/
def DK_COL_STATUS.STATE : RegField := ⟨78, 68, 2, .cols⟩
def DK_COL_STATUS.ROLE : RegField := ⟨79, 68, 5, .mod34⟩
def DK_COL_STATUS.SUSPECT : RegField := ⟨80, 68, 1, .const 0⟩
def DK_COL_STATUS.MISMATCH_24H : RegField := ⟨81, 68, 4, .const 0⟩
def DK_COL_STATUS.RESIDUE_24H : RegField := ⟨82, 68, 8, .const 0⟩
def DK_COL_STATUS.AUDITS : RegField := ⟨83, 68, 28, .const 0⟩
def DK_COL_STATUS.AUDIT_SKIP : RegField := ⟨84, 68, 16, .const 0⟩

/-! FL_CFG (Table 9.20) -/
def FL_CFG.NVME_TMO_MS : RegField := ⟨85, 1, 16, .const 250⟩
def FL_CFG.CRASH_DRIVE : RegField := ⟨86, 1, 4, .const 0⟩
def FL_CFG.CRASH_EN : RegField := ⟨87, 1, 1, .const 0⟩
def FL_CFG.CRASH_LBA : RegField := ⟨88, 1, 32, .const 0⟩

/-! FL_FB_SEL (Table 9.21) -/
def FL_FB_SEL.FBN : RegField := ⟨89, 1, 20, .const 0⟩

/-! FL_FB_DATA (Table 9.21) -/
def FL_FB_DATA.VALID : RegField := ⟨90, 1, 1, .const 0⟩
def FL_FB_DATA.PART : RegField := ⟨91, 1, 6, .const 0⟩
def FL_FB_DATA.FIRST : RegField := ⟨92, 1, 4, .const 0⟩
def FL_FB_DATA.LOG2N : RegField := ⟨93, 1, 3, .const 0⟩
def FL_FB_DATA.NSID : RegField := ⟨94, 1, 18, .const 0⟩
def FL_FB_DATA.START : RegField := ⟨95, 1, 32, .const 0⟩

/-! FL_DRIVE_STATUS (Table 9.22) -/
def FL_DRIVE_STATUS.STATE : RegField := ⟨96, 16, 2, .const 0⟩
def FL_DRIVE_STATUS.QPAIRS : RegField := ⟨97, 16, 7, .const 0⟩
def FL_DRIVE_STATUS.TIMEOUTS : RegField := ⟨98, 16, 16, .const 0⟩
def FL_DRIVE_STATUS.RECREATES : RegField := ⟨99, 16, 16, .const 0⟩
def FL_DRIVE_STATUS.MEDIA_ERR : RegField := ⟨100, 16, 16, .const 0⟩

/-! FU_UNIT_STATUS (Table 5.17) -/
def FU_UNIT_STATUS.ACTIVE : RegField := ⟨101, 9, 1, .units 1 0⟩
def FU_UNIT_STATUS.SPARE : RegField := ⟨102, 9, 1, .units 0 1⟩
def FU_UNIT_STATUS.RETIRED : RegField := ⟨103, 9, 1, .const 0⟩
def FU_UNIT_STATUS.BUSY : RegField := ⟨104, 9, 1, .const 0⟩
def FU_UNIT_STATUS.PART : RegField := ⟨105, 9, 6, .const 0⟩
def FU_UNIT_STATUS.CORRECTED : RegField := ⟨106, 9, 8, .const 0⟩

/-! FU_PART_CFG (Table 5.16) -/
def FU_PART_CFG.PROFILE : RegField := ⟨107, 64, 4, .const 1⟩
def FU_PART_CFG.MAX_UNITS : RegField := ⟨108, 64, 4, .const 8⟩
def FU_PART_CFG.REFUSED : RegField := ⟨109, 64, 1, .const 0⟩

/-! FU_PART_COUNT (Table 5.18) -/
def FU_PART_COUNT.SELECT_KENT : RegField := ⟨110, 64, 32, .const 0⟩
def FU_PART_COUNT.FILTER_KKEY : RegField := ⟨111, 64, 32, .const 0⟩

/-! GU_UNIT_STATUS (Table 5.14) -/
def GU_UNIT_STATUS.ACTIVE : RegField := ⟨112, 18, 1, .units 1 0⟩
def GU_UNIT_STATUS.SPARE : RegField := ⟨113, 18, 1, .units 0 1⟩
def GU_UNIT_STATUS.RETIRED : RegField := ⟨114, 18, 1, .const 0⟩
def GU_UNIT_STATUS.CORRECTED : RegField := ⟨115, 18, 8, .const 0⟩
def GU_UNIT_STATUS.INFLIGHT : RegField := ⟨116, 18, 13, .const 0⟩

/-! GU_PART_CFG (Table 5.13) -/
def GU_PART_CFG.PROFILE : RegField := ⟨117, 64, 4, .const 1⟩
def GU_PART_CFG.FEED_AHEAD : RegField := ⟨118, 64, 6, .const 8⟩
def GU_PART_CFG.GATHER_EN : RegField := ⟨119, 64, 1, .const 1⟩
def GU_PART_CFG.REFUSED : RegField := ⟨120, 64, 1, .const 0⟩

/-! GU_PART_FEED (Table 5.15) -/
def GU_PART_FEED.BYTES : RegField := ⟨121, 64, 64, .const 0⟩

/-! GU_PART_SHIP (Table 5.15) -/
def GU_PART_SHIP.BYTES : RegField := ⟨122, 64, 64, .const 0⟩

/-! HS_STATE (Table 17.10) -/
def HS_STATE.STATE : RegField := ⟨123, 1, 3, .const 1⟩
def HS_STATE.HOLD : RegField := ⟨124, 1, 1, .const 0⟩
def HS_STATE.CAUSE : RegField := ⟨125, 1, 4, .const 0⟩
def HS_STATE.BIST_RAN : RegField := ⟨126, 1, 1, .const 0⟩

/-! HS_RESET (Table 17.11) -/
def HS_RESET.MODULE : RegField := ⟨127, 1, 1, .const 0⟩
def HS_RESET.KEY : RegField := ⟨128, 1, 8, .const 0⟩

/-! HS_RESET_CAUSE (Table 17.11) -/
def HS_RESET_CAUSE.CAUSE : RegField := ⟨129, 1, 3, .const 0⟩

/-! HS_STRAP_STATUS (Table 18.6) -/
def HS_STRAP_STATUS.START_HOLD : RegField := ⟨130, 1, 1, .const 0⟩
def HS_STRAP_STATUS.BIST_EN : RegField := ⟨131, 1, 1, .const 0⟩
def HS_STRAP_STATUS.SLOT_ID : RegField := ⟨132, 1, 4, .const 0⟩
def HS_STRAP_STATUS.UNSTABLE : RegField := ⟨133, 1, 1, .const 0⟩

/-! HS_PWR_CFG (Table 17.12) -/
def HS_PWR_CFG.CAP_W : RegField := ⟨134, 1, 11, .const 1200⟩
def HS_PWR_CFG.REFUSED : RegField := ⟨135, 1, 1, .const 0⟩

/-! HS_PWR_STATUS (Table 17.12) -/
def HS_PWR_STATUS.LEVEL : RegField := ⟨136, 1, 3, .const 0⟩
def HS_PWR_STATUS.THERM_LEVEL : RegField := ⟨137, 1, 3, .const 0⟩
def HS_PWR_STATUS.LOW_VIN : RegField := ⟨138, 1, 1, .const 0⟩
def HS_PWR_STATUS.HIGH_VIN : RegField := ⟨139, 1, 1, .const 0⟩
def HS_PWR_STATUS.POWER_W : RegField := ⟨140, 1, 11, .const 0⟩
def HS_PWR_STATUS.VIN_DV : RegField := ⟨141, 1, 10, .const 0⟩
def HS_PWR_STATUS.IIN_DA : RegField := ⟨142, 1, 9, .const 0⟩
def HS_PWR_STATUS.FAST : RegField := ⟨143, 1, 16, .const 0⟩

/-! HS_RAS_CFG (Table 15.9) -/
def HS_RAS_CFG.PROFILE : RegField := ⟨144, 1, 4, .const 1⟩
def HS_RAS_CFG.AUDIT_LOG2 : RegField := ⟨145, 1, 4, .const 8⟩
def HS_RAS_CFG.COL_RETIRE_N : RegField := ⟨146, 1, 4, .const 3⟩
def HS_RAS_CFG.RES_RETIRE : RegField := ⟨147, 1, 8, .const 8⟩
def HS_RAS_CFG.ROW_CE : RegField := ⟨148, 1, 4, .const 4⟩
def HS_RAS_CFG.ESC_S : RegField := ⟨149, 1, 8, .const 10⟩
def HS_RAS_CFG.REFUSED : RegField := ⟨150, 1, 1, .const 0⟩

/-! HS_LOG_BASE (Table 15.10) -/
def HS_LOG_BASE.BASE : RegField := ⟨151, 1, 52, .const 0⟩

/-! HS_LOG_CTRL (Table 15.10) -/
def HS_LOG_CTRL.ENABLE : RegField := ⟨152, 1, 1, .const 0⟩
def HS_LOG_CTRL.LOG2 : RegField := ⟨153, 1, 5, .const 10⟩
def HS_LOG_CTRL.MSI_EN : RegField := ⟨154, 1, 1, .const 0⟩
def HS_LOG_CTRL.HEAD : RegField := ⟨155, 1, 16, .const 0⟩
def HS_LOG_CTRL.REFUSED : RegField := ⟨156, 1, 1, .const 0⟩

/-! HS_LOG_STATUS (Table 15.10) -/
def HS_LOG_STATUS.TAIL : RegField := ⟨157, 1, 16, .const 0⟩
def HS_LOG_STATUS.FULL : RegField := ⟨158, 1, 1, .const 0⟩
def HS_LOG_STATUS.LOST : RegField := ⟨159, 1, 16, .const 0⟩
def HS_LOG_STATUS.QUEUED : RegField := ⟨160, 1, 11, .const 0⟩

/-! HS_ACC_STATUS (Table 19.7) -/
def HS_ACC_STATUS.BAD_SIZE : RegField := ⟨161, 1, 16, .const 0⟩
def HS_ACC_STATUS.UNMAPPED : RegField := ⟨162, 1, 16, .const 0⟩
def HS_ACC_STATUS.LOCKED_WR : RegField := ⟨163, 1, 8, .const 0⟩
def HS_ACC_STATUS.BUSY_WR : RegField := ⟨164, 1, 8, .const 0⟩
def HS_ACC_STATUS.STATE_WR : RegField := ⟨165, 1, 8, .const 0⟩

/-! HS_ACC_ADDR (Table 19.8) -/
def HS_ACC_ADDR.OFFSET : RegField := ⟨166, 1, 25, .const 0⟩
def HS_ACC_ADDR.KIND : RegField := ⟨167, 1, 3, .const 0⟩
def HS_ACC_ADDR.PORT : RegField := ⟨168, 1, 1, .const 0⟩

/-! HS_THERM_STATUS (Table 17.13) -/
def HS_THERM_STATUS.TEMP : RegField := ⟨169, 64, 10, .const 0⟩
def HS_THERM_STATUS.FAILED : RegField := ⟨170, 64, 1, .const 0⟩
def HS_THERM_STATUS.MAX : RegField := ⟨171, 64, 10, .const 0⟩

/-! HS_PART_STATE (Table 15.11) -/
def HS_PART_STATE.CONTAINED : RegField := ⟨172, 64, 1, .const 0⟩
def HS_PART_STATE.CAUSE : RegField := ⟨173, 64, 8, .const 0⟩
def HS_PART_STATE.CONTAIN : RegField := ⟨174, 64, 1, .const 0⟩

/-! HS_PART_AVAIL (Table 15.12) -/
def HS_PART_AVAIL.PROGRESS_US : RegField := ⟨175, 64, 64, .const 0⟩
def HS_PART_AVAIL.STALL_US : RegField := ⟨176, 64, 64, .const 0⟩
def HS_PART_AVAIL.WINDOW_STALL_US : RegField := ⟨177, 64, 64, .const 0⟩
def HS_PART_AVAIL.LONGEST_US : RegField := ⟨178, 64, 64, .const 0⟩

/-! LK_E2E_CFG (Table 11.18) -/
def LK_E2E_CFG.RETX_US : RegField := ⟨179, 1, 5, .const 20⟩
def LK_E2E_CFG.NACK_US : RegField := ⟨180, 1, 5, .const 8⟩
def LK_E2E_CFG.ACK_N : RegField := ⟨181, 1, 6, .const 32⟩
def LK_E2E_CFG.ACK_US : RegField := ⟨182, 1, 3, .const 2⟩
def LK_E2E_CFG.MAX_RETX : RegField := ⟨183, 1, 3, .const 7⟩
def LK_E2E_CFG.UCW_RETIRE : RegField := ⟨184, 1, 8, .const 8⟩
def LK_E2E_CFG.REFUSED : RegField := ⟨185, 1, 1, .const 0⟩

/-! LK_E2E_STAT (Table 11.20) -/
def LK_E2E_STAT.RETX : RegField := ⟨186, 1, 32, .const 0⟩
def LK_E2E_STAT.FAILOVER : RegField := ⟨187, 1, 16, .const 0⟩
def LK_E2E_STAT.PATH_FATAL : RegField := ⟨188, 1, 16, .const 0⟩

/-! LK_LANE_RETIRE (Table 19.9) -/
def LK_LANE_RETIRE.DIE : RegField := ⟨189, 1, 2, .const 0⟩
def LK_LANE_RETIRE.LANE : RegField := ⟨190, 1, 8, .const 0⟩

/-! LK_CBL_STATUS (Table 18.1) -/
def LK_CBL_STATUS.GROUP_PRSNT : RegField := ⟨191, 4, 32, .const 0⟩
def LK_CBL_STATUS.SPARE_PRSNT : RegField := ⟨192, 4, 1, .const 0⟩

/-! LK_PART_POOL (Table 11.19) -/
def LK_PART_POOL.POOL : RegField := ⟨193, 64, 11, .const 0⟩
def LK_PART_POOL.REFUSED : RegField := ⟨194, 64, 1, .const 0⟩

/-! LK_PORT_CFG (Table 11.14) -/
def LK_PORT_CFG.ENABLE : RegField := ⟨195, 512, 1, .const 0⟩
def LK_PORT_CFG.ROLE : RegField := ⟨196, 512, 2, .const 0⟩
def LK_PORT_CFG.WIDTH : RegField := ⟨197, 512, 2, .const 2⟩
def LK_PORT_CFG.PROFILE : RegField := ⟨198, 512, 4, .const 1⟩
def LK_PORT_CFG.SPARE_EN : RegField := ⟨199, 512, 1, .const 1⟩
def LK_PORT_CFG.DOWNSHIFT_EN : RegField := ⟨200, 512, 1, .const 1⟩
def LK_PORT_CFG.SPARE_SEL : RegField := ⟨201, 512, 2, .const 0⟩
def LK_PORT_CFG.SPARE_BOUND : RegField := ⟨202, 512, 1, .const 0⟩
def LK_PORT_CFG.REFUSED : RegField := ⟨203, 512, 1, .const 0⟩

/-! LK_PORT_STATUS (Table 11.15) -/
def LK_PORT_STATUS.STATE : RegField := ⟨204, 512, 3, .const 0⟩
def LK_PORT_STATUS.WIDTH_UP : RegField := ⟨205, 512, 2, .const 0⟩
def LK_PORT_STATUS.PEER_TYPE : RegField := ⟨206, 512, 2, .const 0⟩
def LK_PORT_STATUS.SPARED : RegField := ⟨207, 512, 1, .const 0⟩
def LK_PORT_STATUS.FAIL_CAUSE : RegField := ⟨208, 512, 3, .const 0⟩
def LK_PORT_STATUS.FAILS : RegField := ⟨209, 512, 16, .const 0⟩
def LK_PORT_STATUS.PEER_UID_LO : RegField := ⟨210, 512, 32, .const 0⟩

/-! LK_PORT_ERR (Table 11.16) -/
def LK_PORT_ERR.UCW : RegField := ⟨211, 512, 16, .const 0⟩
def LK_PORT_ERR.HCRC : RegField := ⟨212, 512, 16, .const 0⟩
def LK_PORT_ERR.PROTO : RegField := ⟨213, 512, 16, .const 0⟩
def LK_PORT_ERR.ECRC : RegField := ⟨214, 512, 16, .const 0⟩

/-! LK_LANE_STATUS (Table 11.17) -/
def LK_LANE_STATUS.STATE : RegField := ⟨215, 528, 2, .const 0⟩
def LK_LANE_STATUS.PORT : RegField := ⟨216, 528, 9, .const 0⟩
def LK_LANE_STATUS.CSYM : RegField := ⟨217, 528, 16, .const 0⟩
def LK_LANE_STATUS.UCW : RegField := ⟨218, 528, 16, .const 0⟩

/-! LP_CFG (Table 12.6) -/
def LP_CFG.MOD_ID : RegField := ⟨219, 1, 16, .const 0⟩
def LP_CFG.STAGE : RegField := ⟨220, 1, 2, .const 1⟩
def LP_CFG.PROFILE : RegField := ⟨221, 1, 4, .const 1⟩
def LP_CFG.ADAPT : RegField := ⟨222, 1, 1, .const 1⟩
def LP_CFG.SPRAY_LOG2 : RegField := ⟨223, 1, 5, .const 3⟩
def LP_CFG.PATH_SALT : RegField := ⟨224, 1, 16, .const 0⟩
def LP_CFG.RETIRE_US : RegField := ⟨225, 1, 11, .const 1000⟩
def LP_CFG.REFUSED : RegField := ⟨226, 1, 1, .const 0⟩

/-! LP_ROUTE_SEL (Table 12.8) -/
def LP_ROUTE_SEL.ID : RegField := ⟨227, 1, 16, .const 0⟩
def LP_ROUTE_SEL.OP : RegField := ⟨228, 1, 1, .const 0⟩

/-! LP_ROUTE_DATA (Table 12.8) -/
def LP_ROUTE_DATA.NPATH : RegField := ⟨229, 1, 4, .const 0⟩
def LP_ROUTE_DATA.PORT : RegField := ⟨230, 8, 9, .const 0⟩

/-! LP_MAP_SEL (Table 12.9) -/
def LP_MAP_SEL.RANK : RegField := ⟨231, 1, 12, .const 0⟩
def LP_MAP_SEL.PART : RegField := ⟨232, 1, 6, .const 0⟩
def LP_MAP_SEL.SLOT : RegField := ⟨233, 1, 2, .const 0⟩
def LP_MAP_SEL.OP : RegField := ⟨234, 1, 1, .const 0⟩

/-! LP_MAP_DATA (Table 12.9) -/
def LP_MAP_DATA.VALID : RegField := ⟨235, 1, 1, .const 0⟩
def LP_MAP_DATA.EP_ID : RegField := ⟨236, 1, 16, .const 0⟩

/-! LP_EPOCH (Table 12.10) -/
def LP_EPOCH.CUR : RegField := ⟨237, 64, 8, .const 1⟩
def LP_EPOCH.PREV : RegField := ⟨238, 64, 8, .const 0⟩
def LP_EPOCH.STAGED_EPOCH : RegField := ⟨239, 64, 8, .const 2⟩
def LP_EPOCH.ACTIVATE : RegField := ⟨240, 64, 1, .const 0⟩
def LP_EPOCH.RETIRED : RegField := ⟨241, 64, 1, .const 1⟩
def LP_EPOCH.REFUSED : RegField := ⟨242, 64, 1, .const 0⟩
def LP_EPOCH.PREV_INFLIGHT : RegField := ⟨243, 64, 32, .const 0⟩

/-! LP_PART_STAT (Table 12.11) -/
def LP_PART_STAT.FENCED : RegField := ⟨244, 64, 12, .const 0⟩
def LP_PART_STAT.STAMP : RegField := ⟨245, 64, 12, .const 0⟩
def LP_PART_STAT.UNMAPPED : RegField := ⟨246, 64, 12, .const 0⟩
def LP_PART_STAT.NOROUTE : RegField := ⟨247, 64, 12, .const 0⟩
def LP_PART_STAT.LATE : RegField := ⟨248, 64, 12, .const 0⟩

/-! LP_PORT_CFG (Table 12.7) -/
def LP_PORT_CFG.PART : RegField := ⟨249, 512, 6, .const 0⟩
def LP_PORT_CFG.EP_ID : RegField := ⟨250, 512, 16, .const 0⟩
def LP_PORT_CFG.DIR : RegField := ⟨251, 512, 1, .const 0⟩
def LP_PORT_CFG.FENCE : RegField := ⟨252, 512, 1, .const 0⟩
def LP_PORT_CFG.REFUSED : RegField := ⟨253, 512, 1, .const 0⟩

/-! PM_CFG (Table 7.9) -/
def PM_CFG.HASH_SALT : RegField := ⟨254, 1, 32, .const 0⟩
def PM_CFG.SCRUB_SHARE : RegField := ⟨255, 1, 6, .const 4⟩
def PM_CFG.MIG_SHARE : RegField := ⟨256, 1, 6, .const 25⟩
def PM_CFG.DRAIN_US : RegField := ⟨257, 1, 8, .const 50⟩
def PM_CFG.REFUSED : RegField := ⟨258, 1, 1, .const 0⟩

/-! PM_RAS_CFG (Table 7.10) -/
def PM_RAS_CFG.RETIRE_CE : RegField := ⟨259, 1, 16, .const 512⟩
def PM_RAS_CFG.AUTO_RETIRE : RegField := ⟨260, 1, 1, .const 1⟩
def PM_RAS_CFG.RETIRE_REQ : RegField := ⟨261, 1, 10, .const 0⟩
def PM_RAS_CFG.REFUSED : RegField := ⟨262, 1, 1, .const 0⟩

/-! PM_BERTH_SEL (Table 7.11) -/
def PM_BERTH_SEL.SLOT : RegField := ⟨263, 1, 15, .const 0⟩
def PM_BERTH_SEL.PART : RegField := ⟨264, 1, 6, .const 0⟩

/-! PM_BERTH_DATA (Table 7.12) -/
def PM_BERTH_DATA.STATE : RegField := ⟨265, 1, 3, .const 0⟩
def PM_BERTH_DATA.KIND : RegField := ⟨266, 1, 2, .const 0⟩
def PM_BERTH_DATA.CLASS : RegField := ⟨267, 1, 2, .const 0⟩
def PM_BERTH_DATA.LHALF : RegField := ⟨268, 1, 1, .const 0⟩
def PM_BERTH_DATA.PHYS_A : RegField := ⟨269, 1, 15, .const 0⟩
def PM_BERTH_DATA.PHYS_B : RegField := ⟨270, 1, 15, .const 0⟩
def PM_BERTH_DATA.GEN : RegField := ⟨271, 1, 9, .const 0⟩
def PM_BERTH_DATA.MCTX : RegField := ⟨272, 1, 12, .const 0⟩

/-! PM_BERTH_LEASE (Table 7.13) -/
def PM_BERTH_LEASE.LPROFILE : RegField := ⟨273, 1, 4, .const 1⟩
def PM_BERTH_LEASE.LEASE_MS : RegField := ⟨274, 1, 16, .const 250⟩
def PM_BERTH_LEASE.REMAIN_US : RegField := ⟨275, 1, 32, .const 0⟩

/-! PM_BERTH_CMD (Table 7.14) -/
def PM_BERTH_CMD.OP : RegField := ⟨276, 1, 3, .const 0⟩
def PM_BERTH_CMD.BUSY : RegField := ⟨277, 1, 1, .const 0⟩
def PM_BERTH_CMD.RESULT : RegField := ⟨278, 1, 4, .const 0⟩

/-! PM_HALF_STATUS (Table 7.16) -/
def PM_HALF_STATUS.RETIRED : RegField := ⟨279, 2, 4, .const 0⟩
def PM_HALF_STATUS.EXHAUSTED : RegField := ⟨280, 2, 1, .const 0⟩
def PM_HALF_STATUS.RESERVE_FREE : RegField := ⟨281, 2, 15, .const 24576⟩
def PM_HALF_STATUS.FREE_BERTHS : RegField := ⟨282, 2, 16, .const 14208⟩

/-! PM_PART_ERR (Table 7.17) -/
def PM_PART_ERR.CORRECTED : RegField := ⟨283, 64, 16, .const 0⟩
def PM_PART_ERR.POISONED : RegField := ⟨284, 64, 16, .const 0⟩
def PM_PART_ERR.REVOKED : RegField := ⟨285, 64, 16, .const 0⟩
def PM_PART_ERR.DROPPED_ST : RegField := ⟨286, 64, 16, .const 0⟩

/-! PM_CHAN_STATUS (Table 7.15) -/
def PM_CHAN_STATUS.STATE : RegField := ⟨287, 640, 2, .const 0⟩
def PM_CHAN_STATUS.MIG_PCT : RegField := ⟨288, 640, 7, .const 0⟩
def PM_CHAN_STATUS.CE_24H : RegField := ⟨289, 640, 16, .const 0⟩
def PM_CHAN_STATUS.UE : RegField := ⟨290, 640, 16, .const 0⟩

/-! PS_ID (Table 16.8) -/
def PS_ID.STEPPING : RegField := ⟨291, 1, 8, .const 176⟩
def PS_ID.FW_MINOR : RegField := ⟨292, 1, 8, .const 0⟩
def PS_ID.FW_MAJOR : RegField := ⟨293, 1, 8, .const 0⟩
def PS_ID.SVN : RegField := ⟨294, 1, 6, .const 0⟩
def PS_ID.SLOT : RegField := ⟨295, 1, 1, .const 0⟩
def PS_ID.FALLBACK : RegField := ⟨296, 1, 1, .const 0⟩
def PS_ID.UID_LO : RegField := ⟨297, 1, 32, .const 0⟩

/-! PS_BOOT_STATUS (Table 16.9) -/
def PS_BOOT_STATUS.CAUSE : RegField := ⟨298, 1, 4, .const 0⟩
def PS_BOOT_STATUS.SVN_COUNT : RegField := ⟨299, 1, 6, .const 0⟩
def PS_BOOT_STATUS.DEBUG : RegField := ⟨300, 1, 2, .const 0⟩

/-! PS_BOOT_CFG (Table 16.9) -/
def PS_BOOT_CFG.COMMIT_SVN : RegField := ⟨301, 1, 1, .const 0⟩
def PS_BOOT_CFG.PREFER_B : RegField := ⟨302, 1, 1, .const 0⟩
def PS_BOOT_CFG.REFUSED : RegField := ⟨303, 1, 1, .const 0⟩

/-! PS_UPD_ADDR (Table 16.10) -/
def PS_UPD_ADDR.ADDR : RegField := ⟨304, 1, 64, .const 0⟩

/-! PS_UPD_LEN (Table 16.10) -/
def PS_UPD_LEN.LEN : RegField := ⟨305, 1, 25, .const 0⟩

/-! PS_UPD_CMD (Table 16.10) -/
def PS_UPD_CMD.OP : RegField := ⟨306, 1, 1, .const 0⟩
def PS_UPD_CMD.BUSY : RegField := ⟨307, 1, 1, .const 0⟩
def PS_UPD_CMD.RESULT : RegField := ⟨308, 1, 4, .const 0⟩

/-! PS_LOCK_STATUS (Table 19.5) -/
def PS_LOCK_STATUS.SALT_LOCKED : RegField := ⟨309, 1, 1, .const 0⟩
def PS_LOCK_STATUS.FARE_LOCKED : RegField := ⟨310, 1, 1, .const 0⟩

/-! PS_DIGEST_SEL (Table 19.9) -/
def PS_DIGEST_SEL.ENTRY : RegField := ⟨311, 1, 4, .const 0⟩

/-! PS_DIGEST_DATA (Table 16.5) -/
def PS_DIGEST_DATA.LIVE : RegField := ⟨312, 1, 1, .const 0⟩
def PS_DIGEST_DATA.BUSY : RegField := ⟨313, 1, 1, .const 0⟩
def PS_DIGEST_DATA.PART : RegField := ⟨314, 1, 6, .const 0⟩
def PS_DIGEST_DATA.KIND : RegField := ⟨315, 1, 4, .const 0⟩
def PS_DIGEST_DATA.HANDLE : RegField := ⟨316, 1, 24, .const 0⟩
def PS_DIGEST_DATA.OFFSET : RegField := ⟨317, 1, 14, .const 0⟩
def PS_DIGEST_DATA.LENGTH : RegField := ⟨318, 1, 15, .const 0⟩
def PS_DIGEST_DATA.OP : RegField := ⟨319, 1, 2, .const 0⟩
def PS_DIGEST_DATA.RESULT : RegField := ⟨320, 1, 3, .const 0⟩
def PS_DIGEST_DATA.REFUSED_WR : RegField := ⟨321, 1, 16, .const 0⟩

/-! PS_UID (Table 19.6) -/
def PS_UID.UID : RegField := ⟨322, 1, 64, .const 0⟩

/-! PT_CFG (Table 10.6) -/
def PT_CFG.FARE_EN : RegField := ⟨323, 1, 1, .const 1⟩
def PT_CFG.OVERCOMMIT : RegField := ⟨324, 1, 1, .const 0⟩
def PT_CFG.FLASH_CAP : RegField := ⟨325, 1, 16, .const 1024⟩
def PT_CFG.TIDE_SEQ : RegField := ⟨326, 1, 32, .const 0⟩

/-! PT_PART_CMD (Table 16.11) -/
def PT_PART_CMD.PART : RegField := ⟨327, 1, 6, .const 0⟩
def PT_PART_CMD.OP : RegField := ⟨328, 1, 2, .const 0⟩
def PT_PART_CMD.BUSY : RegField := ⟨329, 1, 1, .const 0⟩
def PT_PART_CMD.RESULT : RegField := ⟨330, 1, 3, .const 0⟩

/-! PT_CAP (Table 10.8) -/
def PT_CAP.RES : RegField := ⟨331, 8, 22, .const 0⟩

/-! PT_PART_CFG (Table 10.7) -/
def PT_PART_CFG.PROFILE : RegField := ⟨332, 64, 4, .const 1⟩
def PT_PART_CFG.SHARE : RegField := ⟨333, 64, 8, .zeroth 16 0⟩
def PT_PART_CFG.SLICE_US : RegField := ⟨334, 64, 16, .const 256⟩
def PT_PART_CFG.LEND : RegField := ⟨335, 64, 1, .const 0⟩
def PT_PART_CFG.REFUSED : RegField := ⟨336, 64, 1, .const 0⟩

/-! PT_PART_STATE (Table 16.11) -/
def PT_PART_STATE.STATE : RegField := ⟨337, 64, 2, .zeroth 1 0⟩
def PT_PART_STATE.CREATE_SEQ : RegField := ⟨338, 64, 32, .const 0⟩

/-! PT_GROUP_SHARE (Table 10.9) -/
def PT_GROUP_SHARE.SHARE : RegField := ⟨339, 512, 7, .every 8 64 0⟩

/-! PT_FARE (Table 10.8) -/
def PT_FARE.RES : RegField := ⟨340, 512, 22, .const 0⟩

/-! PT_PART_USED (Table 10.8) -/
def PT_PART_USED.RES : RegField := ⟨341, 512, 22, .const 0⟩

/-! PT_CTX_GROUP (Table 10.10) -/
def PT_CTX_GROUP.GROUP : RegField := ⟨342, 4096, 3, .const 0⟩

/-! RU_MEMB_SEL (Table 19.9) -/
def RU_MEMB_SEL.GROUP : RegField := ⟨343, 1, 10, .const 0⟩
def RU_MEMB_SEL.MEMBER : RegField := ⟨344, 1, 9, .const 0⟩

/-! RU_MEMB_DATA (Table 6.13) -/
def RU_MEMB_DATA.VALID : RegField := ⟨345, 1, 1, .const 0⟩
def RU_MEMB_DATA.TYPE : RegField := ⟨346, 1, 1, .const 0⟩
def RU_MEMB_DATA.ID : RegField := ⟨347, 1, 16, .const 0⟩
def RU_MEMB_DATA.GLO : RegField := ⟨348, 1, 12, .const 0⟩
def RU_MEMB_DATA.GHI : RegField := ⟨349, 1, 12, .const 0⟩

/-! RU_UNIT_STATUS (Table 6.15) -/
def RU_UNIT_STATUS.ACTIVE : RegField := ⟨350, 9, 1, .units 1 0⟩
def RU_UNIT_STATUS.SPARE : RegField := ⟨351, 9, 1, .units 0 1⟩
def RU_UNIT_STATUS.RETIRED : RegField := ⟨352, 9, 1, .const 0⟩
def RU_UNIT_STATUS.BUSY : RegField := ⟨353, 9, 1, .const 0⟩
def RU_UNIT_STATUS.PART : RegField := ⟨354, 9, 6, .const 0⟩
def RU_UNIT_STATUS.CORRECTED : RegField := ⟨355, 9, 8, .const 0⟩

/-! RU_PART_CFG (Table 6.10) -/
def RU_PART_CFG.PROFILE : RegField := ⟨356, 64, 4, .const 1⟩
def RU_PART_CFG.MAX_UNITS : RegField := ⟨357, 64, 4, .const 8⟩
def RU_PART_CFG.REFUSED : RegField := ⟨358, 64, 1, .const 0⟩
def RU_PART_CFG.SLOT_RES : RegField := ⟨359, 64, 10, .const 0⟩
def RU_PART_CFG.SLOT_HELD : RegField := ⟨360, 64, 10, .const 0⟩

/-! RU_GRP_STAT (Table 6.14) -/
def RU_GRP_STAT.DONE_SEQ : RegField := ⟨361, 1024, 16, .const 65535⟩
def RU_GRP_STAT.OPEN : RegField := ⟨362, 1024, 3, .const 0⟩
def RU_GRP_STAT.LATE : RegField := ⟨363, 1024, 16, .const 0⟩
def RU_GRP_STAT.MISSING : RegField := ⟨364, 1024, 16, .const 0⟩

/-! RU_GRP_CFG (Table 6.11) -/
def RU_GRP_CFG.ACTIVATE : RegField := ⟨365, 1024, 1, .const 0⟩
def RU_GRP_CFG.STATE : RegField := ⟨366, 1024, 2, .const 0⟩
def RU_GRP_CFG.PART : RegField := ⟨367, 1024, 6, .const 0⟩
def RU_GRP_CFG.ROLE : RegField := ⟨368, 1024, 1, .const 0⟩
def RU_GRP_CFG.NMEMB : RegField := ⟨369, 1024, 10, .const 0⟩
def RU_GRP_CFG.NGLOBALM1 : RegField := ⟨370, 1024, 12, .const 0⟩
def RU_GRP_CFG.MCAST : RegField := ⟨371, 1024, 13, .const 0⟩
def RU_GRP_CFG.ON_MISSING : RegField := ⟨372, 1024, 1, .const 0⟩
def RU_GRP_CFG.CTO : RegField := ⟨373, 1024, 10, .const 20⟩
def RU_GRP_CFG.REFUSED : RegField := ⟨374, 1024, 1, .const 0⟩

/-! RU_GRP_PARENT (Table 6.12) -/
def RU_GRP_PARENT.PARENT_EP : RegField := ⟨375, 1024, 16, .const 0⟩
def RU_GRP_PARENT.PARENT_IDX : RegField := ⟨376, 1024, 9, .const 0⟩

/-! SC_CFG (Table 13.6) -/
def SC_CFG.AGE_US : RegField := ⟨377, 1, 14, .const 500⟩
def SC_CFG.RESEQ_US : RegField := ⟨378, 1, 8, .const 32⟩
def SC_CFG.HOLD_WIN : RegField := ⟨379, 1, 9, .const 256⟩
def SC_CFG.BANK_RETIRE : RegField := ⟨380, 1, 16, .const 64⟩
def SC_CFG.REFUSED : RegField := ⟨381, 1, 1, .const 0⟩

/-! SC_STATUS (Table 13.13) -/
def SC_STATUS.FREE_CELLS : RegField := ⟨382, 1, 20, .const 506608⟩
def SC_STATUS.RESEQ_CTX : RegField := ⟨383, 1, 16, .const 0⟩
def SC_STATUS.GROUPS_OUT : RegField := ⟨384, 1, 7, .const 0⟩
def SC_STATUS.OVERCOMMIT : RegField := ⟨385, 1, 1, .const 0⟩

/-! SC_AUDIT_STAT (Table 13.12) -/
def SC_AUDIT_STAT.PASSES : RegField := ⟨386, 1, 32, .const 0⟩
def SC_AUDIT_STAT.LEAKED : RegField := ⟨387, 1, 16, .const 0⟩
def SC_AUDIT_STAT.DOUBLE : RegField := ⟨388, 1, 8, .const 0⟩
def SC_AUDIT_STAT.MISMATCH : RegField := ⟨389, 1, 8, .const 0⟩

/-! SC_BANK_RETIRE (Table 19.9) -/
def SC_BANK_RETIRE.BANK : RegField := ⟨390, 1, 10, .const 0⟩

/-! SC_MC_SEL (Table 13.11) -/
def SC_MC_SEL.GROUP : RegField := ⟨391, 1, 13, .const 0⟩
def SC_MC_SEL.OP : RegField := ⟨392, 1, 1, .const 0⟩

/-! SC_MC_DATA (Table 13.11) -/
def SC_MC_DATA.VALID : RegField := ⟨393, 1, 1, .const 0⟩
def SC_MC_DATA.PART : RegField := ⟨394, 1, 6, .const 0⟩
def SC_MC_DATA.PORTS : RegField := ⟨395, 8, 64, .const 0⟩

/-! SC_PART_BUF (Table 13.7) -/
def SC_PART_BUF.PROFILE : RegField := ⟨396, 65, 4, .upTo 64 1 0⟩
def SC_PART_BUF.BUF_MIN : RegField := ⟨397, 65, 19, .const 0⟩
def SC_PART_BUF.BUF_MAX : RegField := ⟨398, 65, 19, .const 506608⟩
def SC_PART_BUF.REFUSED : RegField := ⟨399, 65, 1, .const 0⟩

/-! SC_PART_OCC (Table 13.8) -/
def SC_PART_OCC.USED : RegField := ⟨400, 65, 20, .const 0⟩
def SC_PART_OCC.HWM : RegField := ⟨401, 65, 20, .const 0⟩
def SC_PART_OCC.CTX : RegField := ⟨402, 65, 10, .const 0⟩

/-! SC_PART_DROP (Table 13.9) -/
def SC_PART_DROP.AGED : RegField := ⟨403, 65, 16, .const 0⟩
def SC_PART_DROP.NOFARE : RegField := ⟨404, 65, 16, .const 0⟩
def SC_PART_DROP.ECC : RegField := ⟨405, 65, 16, .const 0⟩
def SC_PART_DROP.RESEQ : RegField := ⟨406, 65, 16, .const 0⟩

/-! SC_BANK_STATUS (Table 13.10) -/
def SC_BANK_STATUS.STATE : RegField := ⟨407, 522, 2, .upTo 512 0 1⟩
def SC_BANK_STATUS.GROUP : RegField := ⟨408, 522, 7, .quarter⟩
def SC_BANK_STATUS.CE_24H : RegField := ⟨409, 522, 16, .const 0⟩
def SC_BANK_STATUS.UE : RegField := ⟨410, 522, 16, .const 0⟩

/-! TE_PART_CFG (Table 9.13) -/
def TE_PART_CFG.PROFILE : RegField := ⟨411, 64, 4, .const 1⟩
def TE_PART_CFG.DEPTH : RegField := ⟨412, 64, 3, .const 2⟩
def TE_PART_CFG.WB_AGE_MS : RegField := ⟨413, 64, 16, .const 100⟩
def TE_PART_CFG.TIER_WAIT_MS : RegField := ⟨414, 64, 16, .const 300⟩
def TE_PART_CFG.REFUSED : RegField := ⟨415, 64, 1, .const 0⟩

/-! TE_PART_STALL (Table 9.14) -/
def TE_PART_STALL.TRAY_LATE : RegField := ⟨416, 64, 64, .const 0⟩
def TE_PART_STALL.FLASH_LATE : RegField := ⟨417, 64, 64, .const 0⟩
def TE_PART_STALL.CHANNEL_RETIRE : RegField := ⟨418, 64, 64, .const 0⟩
def TE_PART_STALL.BUDGET : RegField := ⟨419, 64, 64, .const 0⟩
def TE_PART_STALL.TIER_FAIL : RegField := ⟨420, 64, 64, .const 0⟩
def TE_PART_STALL.FILLED : RegField := ⟨421, 64, 64, .const 0⟩
def TE_PART_STALL.WRITTEN_BACK : RegField := ⟨422, 64, 64, .const 0⟩
def TE_PART_STALL.RO_STORE : RegField := ⟨423, 64, 64, .const 0⟩

/-! TM_CFG (Table 14.5) -/
def TM_CFG.CE_KB : RegField := ⟨424, 1, 10, .const 128⟩
def TM_CFG.REFUSED : RegField := ⟨425, 1, 1, .const 0⟩

/-! TM_STATUS (Table 14.13) -/
def TM_STATUS.FQ_USED : RegField := ⟨426, 1, 16, .const 0⟩

/-! TM_GCL_SEL (Table 14.10) -/
def TM_GCL_SEL.PORT : RegField := ⟨427, 1, 9, .const 0⟩
def TM_GCL_SEL.ENTRY : RegField := ⟨428, 1, 8, .const 0⟩

/-! TM_GCL_DATA (Table 14.10) -/
def TM_GCL_DATA.GATES : RegField := ⟨429, 1, 8, .const 0⟩
def TM_GCL_DATA.DURATION : RegField := ⟨430, 1, 24, .const 0⟩

/-! TM_PART_CFG (Table 14.6) -/
def TM_PART_CFG.PROFILE : RegField := ⟨431, 64, 4, .const 1⟩
def TM_PART_CFG.CLASS_WT : RegField := ⟨432, 512, 4, .const 1⟩
def TM_PART_CFG.FQ_MAX : RegField := ⟨433, 64, 16, .const 512⟩
def TM_PART_CFG.REFUSED : RegField := ⟨434, 64, 1, .const 0⟩

/-! TM_SVC_SHAPE (Table 14.7) -/
def TM_SVC_SHAPE.RATE : RegField := ⟨435, 512, 32, .const 0⟩
def TM_SVC_SHAPE.BURST : RegField := ⟨436, 512, 24, .const 17⟩
def TM_SVC_SHAPE.WEIGHT : RegField := ⟨437, 512, 6, .const 0⟩
def TM_SVC_SHAPE.REFUSED : RegField := ⟨438, 512, 1, .const 0⟩

/-! TM_SVC_HWM (Table 14.11) -/
def TM_SVC_HWM.OCC_HWM : RegField := ⟨439, 512, 24, .const 0⟩
def TM_SVC_HWM.SOJ_HWM : RegField := ⟨440, 512, 32, .const 0⟩

/-! TM_GCL_CTRL (Table 14.9) -/
def TM_GCL_CTRL.ENABLE : RegField := ⟨441, 512, 1, .const 0⟩
def TM_GCL_CTRL.MODE : RegField := ⟨442, 512, 1, .const 0⟩
def TM_GCL_CTRL.NENT : RegField := ⟨443, 512, 9, .const 0⟩
def TM_GCL_CTRL.OFFSET : RegField := ⟨444, 512, 27, .const 0⟩
def TM_GCL_CTRL.COMMIT : RegField := ⟨445, 512, 1, .const 0⟩
def TM_GCL_CTRL.PENDING : RegField := ⟨446, 512, 1, .const 0⟩
def TM_GCL_CTRL.BANK : RegField := ⟨447, 512, 1, .const 0⟩
def TM_GCL_CTRL.CAUSE : RegField := ⟨448, 512, 3, .const 0⟩
def TM_GCL_CTRL.REFUSED : RegField := ⟨449, 512, 1, .const 0⟩

/-! TM_PORT_STAT (Table 14.12) -/
def TM_PORT_STAT.GATE_HOLD : RegField := ⟨450, 512, 16, .const 0⟩
def TM_PORT_STAT.OVERRUN : RegField := ⟨451, 512, 16, .const 0⟩
def TM_PORT_STAT.FORCED : RegField := ⟨452, 512, 8, .const 0⟩
def TM_PORT_STAT.SOJ_HWM : RegField := ⟨453, 512, 24, .const 0⟩

/-! TM_SUB_SHAPE (Table 14.8) -/
def TM_SUB_SHAPE.RATE : RegField := ⟨454, 4608, 32, .const 0⟩
def TM_SUB_SHAPE.BURST : RegField := ⟨455, 4608, 24, .const 17⟩
def TM_SUB_SHAPE.WEIGHT : RegField := ⟨456, 4608, 4, .const 1⟩
def TM_SUB_SHAPE.REFUSED : RegField := ⟨457, 4608, 1, .const 0⟩

/-! TY_CFG (Table 9.15) -/
def TY_CFG.REBUILD_SHARE : RegField := ⟨458, 1, 6, .const 10⟩
def TY_CFG.REFUSED : RegField := ⟨459, 1, 1, .const 0⟩

/-! TY_TB_SEL (Table 9.17) -/
def TY_TB_SEL.TBN : RegField := ⟨460, 1, 25, .const 0⟩

/-! TY_TB_DATA (Table 9.17) -/
def TY_TB_DATA.PART : RegField := ⟨461, 1, 6, .const 0⟩
def TY_TB_DATA.POLICY : RegField := ⟨462, 1, 1, .const 0⟩
def TY_TB_DATA.GROUP : RegField := ⟨463, 1, 4, .const 0⟩
def TY_TB_DATA.STATE : RegField := ⟨464, 1, 3, .const 0⟩
def TY_TB_DATA.BOUND : RegField := ⟨465, 1, 1, .const 0⟩

/-! TY_TB_CMD (Table 9.18) -/
def TY_TB_CMD.OP : RegField := ⟨466, 1, 2, .const 0⟩
def TY_TB_CMD.BUSY : RegField := ⟨467, 1, 1, .const 0⟩
def TY_TB_CMD.RESULT : RegField := ⟨468, 1, 4, .const 0⟩
def TY_TB_CMD.SPARE_TRAY : RegField := ⟨469, 1, 6, .const 0⟩

/-! TY_GROUP (Table 9.16) -/
def TY_GROUP.TRAYS : RegField := ⟨470, 16, 64, .const 0⟩

/-! TY_TRAY_STATUS (Table 9.19) -/
def TY_TRAY_STATUS.STATE : RegField := ⟨471, 64, 2, .const 0⟩
def TY_TRAY_STATUS.FREE_PAGES : RegField := ⟨472, 64, 22, .const 0⟩
def TY_TRAY_STATUS.PORTS : RegField := ⟨473, 64, 8, .const 0⟩
def TY_TRAY_STATUS.ERRORS : RegField := ⟨474, 64, 16, .const 0⟩

/-- The PS_ registers. -/
def psRegs : List RegDesc :=
  [⟨.PS_ID, 0x0, 1, 8, 1, [
    ⟨PS_ID.STEPPING, 0, 0, 8, .ro, 0, 255, 1, 0, 0, 1⟩,
    ⟨PS_ID.FW_MINOR, 0, 8, 8, .ro, 0, 255, 1, 0, 0, 1⟩,
    ⟨PS_ID.FW_MAJOR, 0, 16, 8, .ro, 0, 255, 1, 0, 0, 1⟩,
    ⟨PS_ID.SVN, 0, 24, 6, .ro, 0, 63, 1, 0, 0, 1⟩,
    ⟨PS_ID.SLOT, 0, 30, 1, .ro, 0, 1, 1, 0, 0, 1⟩,
    ⟨PS_ID.FALLBACK, 0, 31, 1, .ro, 0, 1, 1, 0, 0, 1⟩,
    ⟨PS_ID.UID_LO, 0, 32, 32, .ro, 0, 4294967295, 1, 0, 0, 1⟩
    ]⟩,
  ⟨.PS_BOOT_STATUS, 0x8, 1, 8, 1, [
    ⟨PS_BOOT_STATUS.CAUSE, 0, 0, 4, .ro, 0, 15, 1, 0, 0, 1⟩,
    ⟨PS_BOOT_STATUS.SVN_COUNT, 0, 4, 6, .ro, 0, 63, 1, 0, 0, 1⟩,
    ⟨PS_BOOT_STATUS.DEBUG, 0, 10, 2, .ro, 0, 3, 1, 0, 0, 1⟩
    ]⟩,
  ⟨.PS_BOOT_CFG, 0x10, 1, 8, 1, [
    ⟨PS_BOOT_CFG.COMMIT_SVN, 0, 0, 1, .w1s, 0, 1, 1, 0, 0, 1⟩,
    ⟨PS_BOOT_CFG.PREFER_B, 0, 1, 1, .rw, 0, 1, 1, 0, 0, 1⟩,
    ⟨PS_BOOT_CFG.REFUSED, 0, 63, 1, .w1c, 0, 1, 1, 0, 0, 1⟩
    ]⟩,
  ⟨.PS_UPD_ADDR, 0x18, 1, 8, 1, [
    ⟨PS_UPD_ADDR.ADDR, 0, 0, 64, .rw, 0, 18446744073709551615, 1, 0, 0, 1⟩
    ]⟩,
  ⟨.PS_UPD_LEN, 0x20, 1, 8, 1, [
    ⟨PS_UPD_LEN.LEN, 0, 0, 25, .rw, 0, 31457280, 1, 0, 0, 1⟩
    ]⟩,
  ⟨.PS_UPD_CMD, 0x28, 1, 8, 1, [
    ⟨PS_UPD_CMD.OP, 0, 0, 1, .wo, 0, 1, 1, 0, 0, 1⟩,
    ⟨PS_UPD_CMD.BUSY, 0, 1, 1, .ro, 0, 1, 1, 0, 0, 1⟩,
    ⟨PS_UPD_CMD.RESULT, 0, 2, 4, .ro, 0, 15, 1, 0, 0, 1⟩
    ]⟩,
  ⟨.PS_LOCK_STATUS, 0x30, 1, 8, 1, [
    ⟨PS_LOCK_STATUS.SALT_LOCKED, 0, 0, 1, .ro, 0, 1, 1, 0, 0, 1⟩,
    ⟨PS_LOCK_STATUS.FARE_LOCKED, 0, 1, 1, .ro, 0, 1, 1, 0, 0, 1⟩
    ]⟩,
  ⟨.PS_DIGEST_SEL, 0x38, 1, 8, 1, [
    ⟨PS_DIGEST_SEL.ENTRY, 0, 0, 4, .rw, 0, 15, 1, 0, 0, 1⟩
    ]⟩,
  ⟨.PS_DIGEST_DATA, 0x40, 1, 128, 16, [
    ⟨PS_DIGEST_DATA.LIVE, 0, 0, 1, .ro, 0, 1, 1, 0, 0, 1⟩,
    ⟨PS_DIGEST_DATA.BUSY, 0, 1, 1, .ro, 0, 1, 1, 0, 0, 1⟩,
    ⟨PS_DIGEST_DATA.PART, 0, 2, 6, .rw, 0, 63, 1, 0, 0, 1⟩,
    ⟨PS_DIGEST_DATA.KIND, 0, 8, 4, .rw, 0, 15, 1, 0, 0, 1⟩,
    ⟨PS_DIGEST_DATA.HANDLE, 0, 12, 24, .rw, 0, 16777215, 1, 0, 0, 1⟩,
    ⟨PS_DIGEST_DATA.OFFSET, 0, 36, 14, .rw, 0, 16383, 1, 0, 0, 1⟩,
    ⟨PS_DIGEST_DATA.LENGTH, 1, 0, 15, .rw, 0, 32767, 1, 0, 0, 1⟩,
    ⟨PS_DIGEST_DATA.OP, 1, 16, 2, .wo, 0, 3, 1, 0, 0, 1⟩,
    ⟨PS_DIGEST_DATA.RESULT, 1, 18, 3, .ro, 0, 7, 1, 0, 0, 1⟩,
    ⟨PS_DIGEST_DATA.REFUSED_WR, 1, 48, 16, .rc, 0, 65535, 1, 0, 0, 1⟩
    ]⟩,
  ⟨.PS_UID, 0xC0, 1, 8, 1, [
    ⟨PS_UID.UID, 0, 0, 64, .ro, 0, 18446744073709551615, 1, 0, 0, 1⟩
    ]⟩]

/-- The PT_ registers. -/
def ptRegs : List RegDesc :=
  [⟨.PT_CFG, 0x100000, 1, 8, 1, [
    ⟨PT_CFG.FARE_EN, 0, 0, 1, .rwl, 0, 1, 1, 0, 0, 1⟩,
    ⟨PT_CFG.OVERCOMMIT, 0, 1, 1, .ro, 0, 1, 1, 0, 0, 1⟩,
    ⟨PT_CFG.FLASH_CAP, 0, 16, 16, .rw, 1, 65535, 1, 0, 0, 1⟩,
    ⟨PT_CFG.TIDE_SEQ, 0, 32, 32, .ro, 0, 4294967295, 1, 0, 0, 1⟩
    ]⟩,
  ⟨.PT_PART_CMD, 0x100008, 1, 8, 1, [
    ⟨PT_PART_CMD.PART, 0, 0, 6, .rw, 0, 63, 1, 0, 0, 1⟩,
    ⟨PT_PART_CMD.OP, 0, 6, 2, .wo, 0, 3, 1, 0, 0, 1⟩,
    ⟨PT_PART_CMD.BUSY, 0, 8, 1, .ro, 0, 1, 1, 0, 0, 1⟩,
    ⟨PT_PART_CMD.RESULT, 0, 9, 3, .ro, 0, 7, 1, 0, 0, 1⟩
    ]⟩,
  ⟨.PT_CAP, 0x100020, 1, 32, 4, [
    ⟨PT_CAP.RES, 0, 0, 22, .ro, 0, 4194303, 1, 0, 0, 8⟩,
    ⟨PT_CAP.RES, 0, 22, 22, .ro, 0, 4194303, 1, 0, 1, 8⟩,
    ⟨PT_CAP.RES, 0, 44, 17, .ro, 0, 131071, 1, 0, 2, 8⟩,
    ⟨PT_CAP.RES, 1, 0, 17, .ro, 0, 131071, 1, 0, 3, 8⟩,
    ⟨PT_CAP.RES, 1, 17, 21, .ro, 0, 2097151, 1, 0, 4, 8⟩,
    ⟨PT_CAP.RES, 1, 38, 22, .ro, 0, 4194303, 1, 0, 5, 8⟩,
    ⟨PT_CAP.RES, 2, 0, 22, .ro, 0, 4194303, 1, 0, 6, 8⟩,
    ⟨PT_CAP.RES, 2, 22, 16, .ro, 0, 65535, 1, 0, 7, 8⟩
    ]⟩,
  ⟨.PT_PART_CFG, 0x101000, 64, 8, 1, [
    ⟨PT_PART_CFG.PROFILE, 0, 0, 4, .rw, 0, 3, 1, 0, 0, 1⟩,
    ⟨PT_PART_CFG.SHARE, 0, 4, 8, .rw, 0, 255, 1, 0, 0, 1⟩,
    ⟨PT_PART_CFG.SLICE_US, 0, 12, 16, .rw, 16, 4096, 1, 0, 0, 1⟩,
    ⟨PT_PART_CFG.LEND, 0, 28, 1, .rw, 0, 1, 1, 0, 0, 1⟩,
    ⟨PT_PART_CFG.REFUSED, 0, 63, 1, .w1c, 0, 1, 1, 0, 0, 1⟩
    ]⟩,
  ⟨.PT_PART_STATE, 0x101200, 64, 8, 1, [
    ⟨PT_PART_STATE.STATE, 0, 0, 2, .ro, 0, 3, 1, 0, 0, 1⟩,
    ⟨PT_PART_STATE.CREATE_SEQ, 0, 2, 32, .ro, 0, 4294967295, 1, 0, 0, 1⟩
    ]⟩,
  ⟨.PT_GROUP_SHARE, 0x101400, 64, 8, 1, [
    ⟨PT_GROUP_SHARE.SHARE, 0, 0, 7, .rw, 0, 64, 8, 8, 0, 8⟩
    ]⟩,
  ⟨.PT_FARE, 0x102000, 64, 32, 4, [
    ⟨PT_FARE.RES, 0, 0, 22, .rw, 0, 4194303, 1, 0, 0, 8⟩,
    ⟨PT_FARE.RES, 0, 22, 22, .rw, 0, 4194303, 1, 0, 1, 8⟩,
    ⟨PT_FARE.RES, 0, 44, 17, .rw, 0, 131071, 1, 0, 2, 8⟩,
    ⟨PT_FARE.RES, 1, 0, 17, .rw, 0, 131071, 1, 0, 3, 8⟩,
    ⟨PT_FARE.RES, 1, 17, 21, .rw, 0, 2097151, 1, 0, 4, 8⟩,
    ⟨PT_FARE.RES, 1, 38, 22, .rw, 0, 4194303, 1, 0, 5, 8⟩,
    ⟨PT_FARE.RES, 2, 0, 22, .rw, 0, 4194303, 1, 0, 6, 8⟩,
    ⟨PT_FARE.RES, 2, 22, 16, .rw, 0, 65535, 1, 0, 7, 8⟩
    ]⟩,
  ⟨.PT_PART_USED, 0x102800, 64, 32, 4, [
    ⟨PT_PART_USED.RES, 0, 0, 22, .ro, 0, 4194303, 1, 0, 0, 8⟩,
    ⟨PT_PART_USED.RES, 0, 22, 22, .ro, 0, 4194303, 1, 0, 1, 8⟩,
    ⟨PT_PART_USED.RES, 0, 44, 17, .ro, 0, 131071, 1, 0, 2, 8⟩,
    ⟨PT_PART_USED.RES, 1, 0, 17, .ro, 0, 131071, 1, 0, 3, 8⟩,
    ⟨PT_PART_USED.RES, 1, 17, 21, .ro, 0, 2097151, 1, 0, 4, 8⟩,
    ⟨PT_PART_USED.RES, 1, 38, 22, .ro, 0, 4194303, 1, 0, 5, 8⟩,
    ⟨PT_PART_USED.RES, 2, 0, 22, .ro, 0, 4194303, 1, 0, 6, 8⟩,
    ⟨PT_PART_USED.RES, 2, 22, 16, .ro, 0, 65535, 1, 0, 7, 8⟩
    ]⟩,
  ⟨.PT_CTX_GROUP, 0x108000, 4096, 8, 1, [
    ⟨PT_CTX_GROUP.GROUP, 0, 0, 3, .rw, 0, 7, 1, 0, 0, 1⟩
    ]⟩]

/-- The HS_ registers. -/
def hsRegs : List RegDesc :=
  [⟨.HS_STATE, 0x200000, 1, 8, 1, [
    ⟨HS_STATE.STATE, 0, 0, 3, .ro, 0, 7, 1, 0, 0, 1⟩,
    ⟨HS_STATE.HOLD, 0, 3, 1, .rw, 0, 1, 1, 0, 0, 1⟩,
    ⟨HS_STATE.CAUSE, 0, 4, 4, .ro, 0, 15, 1, 0, 0, 1⟩,
    ⟨HS_STATE.BIST_RAN, 0, 8, 1, .ro, 0, 1, 1, 0, 0, 1⟩
    ]⟩,
  ⟨.HS_RESET, 0x200008, 1, 8, 1, [
    ⟨HS_RESET.MODULE, 0, 0, 1, .wo, 0, 1, 1, 0, 0, 1⟩,
    ⟨HS_RESET.KEY, 0, 8, 8, .wo, 0, 255, 1, 0, 0, 1⟩
    ]⟩,
  ⟨.HS_RESET_CAUSE, 0x200010, 1, 8, 1, [
    ⟨HS_RESET_CAUSE.CAUSE, 0, 0, 3, .ro, 0, 7, 1, 0, 0, 1⟩
    ]⟩,
  ⟨.HS_STRAP_STATUS, 0x200018, 1, 8, 1, [
    ⟨HS_STRAP_STATUS.START_HOLD, 0, 0, 1, .ro, 0, 1, 1, 0, 0, 1⟩,
    ⟨HS_STRAP_STATUS.BIST_EN, 0, 1, 1, .ro, 0, 1, 1, 0, 0, 1⟩,
    ⟨HS_STRAP_STATUS.SLOT_ID, 0, 2, 4, .ro, 0, 15, 1, 0, 0, 1⟩,
    ⟨HS_STRAP_STATUS.UNSTABLE, 0, 6, 1, .ro, 0, 1, 1, 0, 0, 1⟩
    ]⟩,
  ⟨.HS_PWR_CFG, 0x200020, 1, 8, 1, [
    ⟨HS_PWR_CFG.CAP_W, 0, 0, 11, .rw, 600, 1200, 1, 0, 0, 1⟩,
    ⟨HS_PWR_CFG.REFUSED, 0, 63, 1, .w1c, 0, 1, 1, 0, 0, 1⟩
    ]⟩,
  ⟨.HS_PWR_STATUS, 0x200028, 1, 8, 1, [
    ⟨HS_PWR_STATUS.LEVEL, 0, 0, 3, .ro, 0, 7, 1, 0, 0, 1⟩,
    ⟨HS_PWR_STATUS.THERM_LEVEL, 0, 3, 3, .ro, 0, 7, 1, 0, 0, 1⟩,
    ⟨HS_PWR_STATUS.LOW_VIN, 0, 6, 1, .ro, 0, 1, 1, 0, 0, 1⟩,
    ⟨HS_PWR_STATUS.HIGH_VIN, 0, 7, 1, .ro, 0, 1, 1, 0, 0, 1⟩,
    ⟨HS_PWR_STATUS.POWER_W, 0, 8, 11, .ro, 0, 2047, 1, 0, 0, 1⟩,
    ⟨HS_PWR_STATUS.VIN_DV, 0, 19, 10, .ro, 0, 1023, 1, 0, 0, 1⟩,
    ⟨HS_PWR_STATUS.IIN_DA, 0, 29, 9, .ro, 0, 511, 1, 0, 0, 1⟩,
    ⟨HS_PWR_STATUS.FAST, 0, 48, 16, .rc, 0, 65535, 1, 0, 0, 1⟩
    ]⟩,
  ⟨.HS_RAS_CFG, 0x200030, 1, 8, 1, [
    ⟨HS_RAS_CFG.PROFILE, 0, 0, 4, .rw, 0, 3, 1, 0, 0, 1⟩,
    ⟨HS_RAS_CFG.AUDIT_LOG2, 0, 4, 4, .rw, 0, 8, 1, 0, 0, 1⟩,
    ⟨HS_RAS_CFG.COL_RETIRE_N, 0, 8, 4, .rw, 1, 15, 1, 0, 0, 1⟩,
    ⟨HS_RAS_CFG.RES_RETIRE, 0, 12, 8, .rw, 1, 255, 1, 0, 0, 1⟩,
    ⟨HS_RAS_CFG.ROW_CE, 0, 20, 4, .rw, 1, 15, 1, 0, 0, 1⟩,
    ⟨HS_RAS_CFG.ESC_S, 0, 24, 8, .rw, 1, 255, 1, 0, 0, 1⟩,
    ⟨HS_RAS_CFG.REFUSED, 0, 63, 1, .w1c, 0, 1, 1, 0, 0, 1⟩
    ]⟩,
  ⟨.HS_LOG_BASE, 0x200038, 1, 8, 1, [
    ⟨HS_LOG_BASE.BASE, 0, 12, 52, .rw, 0, 4503599627370495, 1, 0, 0, 1⟩
    ]⟩,
  ⟨.HS_LOG_CTRL, 0x200040, 1, 8, 1, [
    ⟨HS_LOG_CTRL.ENABLE, 0, 0, 1, .rw, 0, 1, 1, 0, 0, 1⟩,
    ⟨HS_LOG_CTRL.LOG2, 0, 1, 5, .rw, 6, 16, 1, 0, 0, 1⟩,
    ⟨HS_LOG_CTRL.MSI_EN, 0, 6, 1, .rw, 0, 1, 1, 0, 0, 1⟩,
    ⟨HS_LOG_CTRL.HEAD, 0, 16, 16, .rw, 0, 65535, 1, 0, 0, 1⟩,
    ⟨HS_LOG_CTRL.REFUSED, 0, 63, 1, .w1c, 0, 1, 1, 0, 0, 1⟩
    ]⟩,
  ⟨.HS_LOG_STATUS, 0x200048, 1, 8, 1, [
    ⟨HS_LOG_STATUS.TAIL, 0, 0, 16, .ro, 0, 65535, 1, 0, 0, 1⟩,
    ⟨HS_LOG_STATUS.FULL, 0, 16, 1, .ro, 0, 1, 1, 0, 0, 1⟩,
    ⟨HS_LOG_STATUS.LOST, 0, 32, 16, .rc, 0, 65535, 1, 0, 0, 1⟩,
    ⟨HS_LOG_STATUS.QUEUED, 0, 48, 11, .ro, 0, 2047, 1, 0, 0, 1⟩
    ]⟩,
  ⟨.HS_ACC_STATUS, 0x200050, 1, 8, 1, [
    ⟨HS_ACC_STATUS.BAD_SIZE, 0, 0, 16, .rc, 0, 65535, 1, 0, 0, 1⟩,
    ⟨HS_ACC_STATUS.UNMAPPED, 0, 16, 16, .rc, 0, 65535, 1, 0, 0, 1⟩,
    ⟨HS_ACC_STATUS.LOCKED_WR, 0, 32, 8, .rc, 0, 255, 1, 0, 0, 1⟩,
    ⟨HS_ACC_STATUS.BUSY_WR, 0, 40, 8, .rc, 0, 255, 1, 0, 0, 1⟩,
    ⟨HS_ACC_STATUS.STATE_WR, 0, 48, 8, .rc, 0, 255, 1, 0, 0, 1⟩
    ]⟩,
  ⟨.HS_ACC_ADDR, 0x200058, 1, 8, 1, [
    ⟨HS_ACC_ADDR.OFFSET, 0, 0, 25, .ro, 0, 33554431, 1, 0, 0, 1⟩,
    ⟨HS_ACC_ADDR.KIND, 0, 25, 3, .ro, 0, 7, 1, 0, 0, 1⟩,
    ⟨HS_ACC_ADDR.PORT, 0, 28, 1, .ro, 0, 1, 1, 0, 0, 1⟩
    ]⟩,
  ⟨.HS_THERM_STATUS, 0x201000, 64, 8, 1, [
    ⟨HS_THERM_STATUS.TEMP, 0, 0, 10, .ro, 0, 1023, 1, 0, 0, 1⟩,
    ⟨HS_THERM_STATUS.FAILED, 0, 10, 1, .ro, 0, 1, 1, 0, 0, 1⟩,
    ⟨HS_THERM_STATUS.MAX, 0, 32, 10, .rc, 0, 1023, 1, 0, 0, 1⟩
    ]⟩,
  ⟨.HS_PART_STATE, 0x201200, 64, 8, 1, [
    ⟨HS_PART_STATE.CONTAINED, 0, 0, 1, .ro, 0, 1, 1, 0, 0, 1⟩,
    ⟨HS_PART_STATE.CAUSE, 0, 1, 8, .ro, 0, 255, 1, 0, 0, 1⟩,
    ⟨HS_PART_STATE.CONTAIN, 0, 9, 1, .wo, 0, 1, 1, 0, 0, 1⟩
    ]⟩,
  ⟨.HS_PART_AVAIL, 0x202000, 64, 32, 4, [
    ⟨HS_PART_AVAIL.PROGRESS_US, 0, 0, 64, .ro, 0, 18446744073709551615, 1, 0, 0, 1⟩,
    ⟨HS_PART_AVAIL.STALL_US, 1, 0, 64, .ro, 0, 18446744073709551615, 1, 0, 0, 1⟩,
    ⟨HS_PART_AVAIL.WINDOW_STALL_US, 2, 0, 64, .ro, 0, 18446744073709551615, 1, 0, 0, 1⟩,
    ⟨HS_PART_AVAIL.LONGEST_US, 3, 0, 64, .rc, 0, 18446744073709551615, 1, 0, 0, 1⟩
    ]⟩]

/-- The CK_ registers. -/
def ckRegs : List RegDesc :=
  [⟨.CK_TIME_CFG, 0x300000, 1, 8, 1, [
    ⟨CK_TIME_CFG.SRC, 0, 0, 2, .rw, 0, 2, 1, 0, 0, 1⟩,
    ⟨CK_TIME_CFG.SRC_PORT, 0, 2, 9, .rw, 0, 511, 1, 0, 0, 1⟩,
    ⟨CK_TIME_CFG.SYNC_OUT, 0, 11, 1, .rw, 0, 1, 1, 0, 0, 1⟩,
    ⟨CK_TIME_CFG.REFUSED, 0, 63, 1, .w1c, 0, 1, 1, 0, 0, 1⟩
    ]⟩,
  ⟨.CK_TIME_ADDEND, 0x300008, 1, 8, 1, [
    ⟨CK_TIME_ADDEND.ADDEND, 0, 0, 40, .rw, 0, 1099511627775, 1, 0, 0, 1⟩
    ]⟩,
  ⟨.CK_TIME_SEC, 0x300010, 1, 8, 1, [
    ⟨CK_TIME_SEC.SEC, 0, 0, 48, .ro, 0, 281474976710655, 1, 0, 0, 1⟩
    ]⟩,
  ⟨.CK_TIME_NS, 0x300018, 1, 8, 1, [
    ⟨CK_TIME_NS.NS, 0, 0, 32, .ro, 0, 4294967295, 1, 0, 0, 1⟩
    ]⟩,
  ⟨.CK_TIME_SET, 0x300020, 1, 8, 1, [
    ⟨CK_TIME_SET.SEC, 0, 0, 48, .wo, 0, 281474976710655, 1, 0, 0, 1⟩
    ]⟩,
  ⟨.CK_TIME_SEC_NEXT, 0x300028, 1, 8, 1, [
    ⟨CK_TIME_SEC_NEXT.SEC, 0, 0, 48, .rw, 0, 281474976710655, 1, 0, 0, 1⟩
    ]⟩,
  ⟨.CK_TIME_STATUS, 0x300030, 1, 8, 1, [
    ⟨CK_TIME_STATUS.LOCKED, 0, 0, 1, .ro, 0, 1, 1, 0, 0, 1⟩,
    ⟨CK_TIME_STATUS.HOLDOVER, 0, 1, 1, .ro, 0, 1, 1, 0, 0, 1⟩,
    ⟨CK_TIME_STATUS.STEPS, 0, 16, 16, .rc, 0, 65535, 1, 0, 0, 1⟩,
    ⟨CK_TIME_STATUS.PPS_REJECT, 0, 32, 16, .rc, 0, 65535, 1, 0, 0, 1⟩,
    ⟨CK_TIME_STATUS.OFFSET_NS, 0, 48, 16, .ro, 0, 65535, 1, 0, 0, 1⟩
    ]⟩,
  ⟨.CK_CLK_STATUS, 0x300038, 1, 8, 1, [
    ⟨CK_CLK_STATUS.PLL_LOCK, 0, 0, 4, .ro, 0, 15, 1, 0, 0, 1⟩,
    ⟨CK_CLK_STATUS.REF_OK, 0, 4, 1, .ro, 0, 1, 1, 0, 0, 1⟩,
    ⟨CK_CLK_STATUS.REF_PPM, 0, 16, 16, .ro, 0, 65535, 1, 0, 0, 1⟩
    ]⟩]

/-- The CF_ registers. -/
def cfRegs : List RegDesc :=
  [⟨.CF_PART_QUOTA, 0x400000, 64, 8, 1, [
    ⟨CF_PART_QUOTA.SLOT_QUOTA, 0, 0, 15, .rw, 0, 16384, 1, 0, 0, 1⟩,
    ⟨CF_PART_QUOTA.REFUSED, 0, 15, 1, .w1c, 0, 1, 1, 0, 0, 1⟩,
    ⟨CF_PART_QUOTA.SLOT_INUSE, 0, 16, 15, .ro, 0, 32767, 1, 0, 0, 1⟩
    ]⟩,
  ⟨.CF_DB_REJECT, 0x400200, 64, 8, 1, [
    ⟨CF_DB_REJECT.NOT_OWNER, 0, 0, 32, .rc, 0, 4294967295, 1, 0, 0, 1⟩,
    ⟨CF_DB_REJECT.DISCARDED, 0, 32, 32, .rc, 0, 4294967295, 1, 0, 0, 1⟩
    ]⟩,
  ⟨.CF_CTX_CTRL, 0x440000, 4096, 64, 1, [
    ⟨CF_CTX_CTRL.ENABLE, 0, 0, 1, .rw, 0, 1, 1, 0, 0, 1⟩,
    ⟨CF_CTX_CTRL.PAUSE, 0, 1, 1, .rw, 0, 1, 1, 0, 0, 1⟩,
    ⟨CF_CTX_CTRL.PART, 0, 8, 6, .rw, 0, 63, 1, 0, 0, 1⟩,
    ⟨CF_CTX_CTRL.OWNER_RANK, 0, 16, 12, .rw, 0, 4095, 1, 0, 0, 1⟩,
    ⟨CF_CTX_CTRL.GEN, 0, 32, 8, .rw, 0, 255, 1, 0, 0, 1⟩,
    ⟨CF_CTX_CTRL.PROFILE, 0, 40, 4, .rw, 0, 3, 1, 0, 0, 1⟩
    ]⟩,
  ⟨.CF_CTX_SQ, 0x440008, 4096, 64, 1, [
    ⟨CF_CTX_SQ.BASE, 0, 0, 52, .rw, 0, 4503599627370495, 1, 0, 0, 1⟩,
    ⟨CF_CTX_SQ.LOG2, 0, 52, 5, .rw, 4, 16, 1, 0, 0, 1⟩
    ]⟩,
  ⟨.CF_CTX_CQ, 0x440010, 4096, 64, 1, [
    ⟨CF_CTX_CQ.BASE, 0, 0, 52, .rw, 0, 4503599627370495, 1, 0, 0, 1⟩,
    ⟨CF_CTX_CQ.LOG2, 0, 52, 5, .rw, 4, 16, 1, 0, 0, 1⟩
    ]⟩,
  ⟨.CF_CTX_LIMITS, 0x440018, 4096, 64, 1, [
    ⟨CF_CTX_LIMITS.MAX_INFLIGHT, 0, 0, 13, .rw, 1, 4096, 1, 0, 0, 1⟩,
    ⟨CF_CTX_LIMITS.TIMEOUT_MS, 0, 16, 16, .rw, 1, 60000, 1, 0, 0, 1⟩,
    ⟨CF_CTX_LIMITS.FETCH_MAX, 0, 32, 7, .rw, 1, 64, 1, 0, 0, 1⟩
    ]⟩,
  ⟨.CF_CTX_NOTIFY, 0x440020, 4096, 64, 1, [
    ⟨CF_CTX_NOTIFY.NOTIFY_ADDR, 0, 0, 52, .rw, 0, 4503599627370495, 1, 0, 0, 1⟩,
    ⟨CF_CTX_NOTIFY.NOTIFY_EN, 0, 52, 1, .rw, 0, 1, 1, 0, 0, 1⟩
    ]⟩,
  ⟨.CF_CTX_STATE, 0x440028, 4096, 64, 1, [
    ⟨CF_CTX_STATE.STATE, 0, 0, 3, .ro, 0, 7, 1, 0, 0, 1⟩,
    ⟨CF_CTX_STATE.REFUSED, 0, 3, 1, .w1c, 0, 1, 1, 0, 0, 1⟩,
    ⟨CF_CTX_STATE.ERR_CAUSE, 0, 8, 8, .ro, 0, 255, 1, 0, 0, 1⟩,
    ⟨CF_CTX_STATE.SQ_HEAD, 0, 16, 16, .ro, 0, 65535, 1, 0, 0, 1⟩,
    ⟨CF_CTX_STATE.CQ_NEXT, 0, 32, 16, .ro, 0, 65535, 1, 0, 0, 1⟩,
    ⟨CF_CTX_STATE.INFLIGHT, 0, 48, 13, .ro, 0, 8191, 1, 0, 0, 1⟩
    ]⟩,
  ⟨.CF_CTX_IDX, 0x440030, 4096, 64, 1, [
    ⟨CF_CTX_IDX.SQ_TAIL, 0, 0, 16, .ro, 0, 65535, 1, 0, 0, 1⟩,
    ⟨CF_CTX_IDX.CQ_HEAD, 0, 16, 16, .ro, 0, 65535, 1, 0, 0, 1⟩
    ]⟩]

/-- The LP_ registers. -/
def lpRegs : List RegDesc :=
  [⟨.LP_CFG, 0x500000, 1, 8, 1, [
    ⟨LP_CFG.MOD_ID, 0, 0, 16, .rw, 1, 65519, 1, 0, 0, 1⟩,
    ⟨LP_CFG.STAGE, 0, 16, 2, .rw, 1, 3, 1, 0, 0, 1⟩,
    ⟨LP_CFG.PROFILE, 0, 18, 4, .rw, 0, 3, 1, 0, 0, 1⟩,
    ⟨LP_CFG.ADAPT, 0, 22, 1, .rw, 0, 1, 1, 0, 0, 1⟩,
    ⟨LP_CFG.SPRAY_LOG2, 0, 23, 5, .rw, 0, 24, 1, 0, 0, 1⟩,
    ⟨LP_CFG.PATH_SALT, 0, 28, 16, .rw, 0, 65535, 1, 0, 0, 1⟩,
    ⟨LP_CFG.RETIRE_US, 0, 44, 11, .rw, 100, 1000, 1, 0, 0, 1⟩,
    ⟨LP_CFG.REFUSED, 0, 63, 1, .w1c, 0, 1, 1, 0, 0, 1⟩
    ]⟩,
  ⟨.LP_ROUTE_SEL, 0x500008, 1, 8, 1, [
    ⟨LP_ROUTE_SEL.ID, 0, 0, 16, .rw, 0, 65535, 1, 0, 0, 1⟩,
    ⟨LP_ROUTE_SEL.OP, 0, 16, 1, .wo, 0, 1, 1, 0, 0, 1⟩
    ]⟩,
  ⟨.LP_ROUTE_DATA, 0x500010, 1, 16, 2, [
    ⟨LP_ROUTE_DATA.NPATH, 0, 0, 4, .rw, 0, 8, 1, 0, 0, 1⟩,
    ⟨LP_ROUTE_DATA.PORT, 0, 4, 9, .rw, 0, 511, 6, 9, 0, 8⟩,
    ⟨LP_ROUTE_DATA.PORT, 1, 0, 9, .rw, 0, 511, 2, 9, 6, 8⟩
    ]⟩,
  ⟨.LP_MAP_SEL, 0x500020, 1, 8, 1, [
    ⟨LP_MAP_SEL.RANK, 0, 0, 12, .rw, 0, 4095, 1, 0, 0, 1⟩,
    ⟨LP_MAP_SEL.PART, 0, 12, 6, .rw, 0, 63, 1, 0, 0, 1⟩,
    ⟨LP_MAP_SEL.SLOT, 0, 18, 2, .rw, 0, 3, 1, 0, 0, 1⟩,
    ⟨LP_MAP_SEL.OP, 0, 20, 1, .wo, 0, 1, 1, 0, 0, 1⟩
    ]⟩,
  ⟨.LP_MAP_DATA, 0x500028, 1, 8, 1, [
    ⟨LP_MAP_DATA.VALID, 0, 0, 1, .rw, 0, 1, 1, 0, 0, 1⟩,
    ⟨LP_MAP_DATA.EP_ID, 0, 1, 16, .rw, 0, 65535, 1, 0, 0, 1⟩
    ]⟩,
  ⟨.LP_EPOCH, 0x500200, 64, 8, 1, [
    ⟨LP_EPOCH.CUR, 0, 0, 8, .ro, 0, 255, 1, 0, 0, 1⟩,
    ⟨LP_EPOCH.PREV, 0, 8, 8, .ro, 0, 255, 1, 0, 0, 1⟩,
    ⟨LP_EPOCH.STAGED_EPOCH, 0, 16, 8, .rw, 0, 255, 1, 0, 0, 1⟩,
    ⟨LP_EPOCH.ACTIVATE, 0, 24, 1, .wo, 0, 1, 1, 0, 0, 1⟩,
    ⟨LP_EPOCH.RETIRED, 0, 25, 1, .ro, 0, 1, 1, 0, 0, 1⟩,
    ⟨LP_EPOCH.REFUSED, 0, 26, 1, .w1c, 0, 1, 1, 0, 0, 1⟩,
    ⟨LP_EPOCH.PREV_INFLIGHT, 0, 32, 32, .ro, 0, 4294967295, 1, 0, 0, 1⟩
    ]⟩,
  ⟨.LP_PART_STAT, 0x500400, 64, 8, 1, [
    ⟨LP_PART_STAT.FENCED, 0, 0, 12, .rc, 0, 4095, 1, 0, 0, 1⟩,
    ⟨LP_PART_STAT.STAMP, 0, 12, 12, .rc, 0, 4095, 1, 0, 0, 1⟩,
    ⟨LP_PART_STAT.UNMAPPED, 0, 24, 12, .rc, 0, 4095, 1, 0, 0, 1⟩,
    ⟨LP_PART_STAT.NOROUTE, 0, 36, 12, .rc, 0, 4095, 1, 0, 0, 1⟩,
    ⟨LP_PART_STAT.LATE, 0, 48, 12, .rc, 0, 4095, 1, 0, 0, 1⟩
    ]⟩,
  ⟨.LP_PORT_CFG, 0x501000, 512, 8, 1, [
    ⟨LP_PORT_CFG.PART, 0, 0, 6, .rw, 0, 63, 1, 0, 0, 1⟩,
    ⟨LP_PORT_CFG.EP_ID, 0, 6, 16, .rw, 0, 65535, 1, 0, 0, 1⟩,
    ⟨LP_PORT_CFG.DIR, 0, 22, 1, .rw, 0, 1, 1, 0, 0, 1⟩,
    ⟨LP_PORT_CFG.FENCE, 0, 23, 1, .rw, 0, 1, 1, 0, 0, 1⟩,
    ⟨LP_PORT_CFG.REFUSED, 0, 63, 1, .w1c, 0, 1, 1, 0, 0, 1⟩
    ]⟩]

/-- The LK_ registers. -/
def lkRegs : List RegDesc :=
  [⟨.LK_E2E_CFG, 0x600000, 1, 8, 1, [
    ⟨LK_E2E_CFG.RETX_US, 0, 0, 5, .rw, 10, 30, 1, 0, 0, 1⟩,
    ⟨LK_E2E_CFG.NACK_US, 0, 5, 5, .rw, 4, 16, 1, 0, 0, 1⟩,
    ⟨LK_E2E_CFG.ACK_N, 0, 10, 6, .rw, 8, 63, 1, 0, 0, 1⟩,
    ⟨LK_E2E_CFG.ACK_US, 0, 16, 3, .rw, 1, 4, 1, 0, 0, 1⟩,
    ⟨LK_E2E_CFG.MAX_RETX, 0, 19, 3, .rw, 1, 7, 1, 0, 0, 1⟩,
    ⟨LK_E2E_CFG.UCW_RETIRE, 0, 22, 8, .rw, 1, 255, 1, 0, 0, 1⟩,
    ⟨LK_E2E_CFG.REFUSED, 0, 63, 1, .w1c, 0, 1, 1, 0, 0, 1⟩
    ]⟩,
  ⟨.LK_E2E_STAT, 0x600008, 1, 8, 1, [
    ⟨LK_E2E_STAT.RETX, 0, 0, 32, .rc, 0, 4294967295, 1, 0, 0, 1⟩,
    ⟨LK_E2E_STAT.FAILOVER, 0, 32, 16, .rc, 0, 65535, 1, 0, 0, 1⟩,
    ⟨LK_E2E_STAT.PATH_FATAL, 0, 48, 16, .rc, 0, 65535, 1, 0, 0, 1⟩
    ]⟩,
  ⟨.LK_LANE_RETIRE, 0x600010, 1, 8, 1, [
    ⟨LK_LANE_RETIRE.DIE, 0, 0, 2, .wo, 0, 3, 1, 0, 0, 1⟩,
    ⟨LK_LANE_RETIRE.LANE, 0, 2, 8, .wo, 0, 255, 1, 0, 0, 1⟩
    ]⟩,
  ⟨.LK_CBL_STATUS, 0x600020, 4, 8, 1, [
    ⟨LK_CBL_STATUS.GROUP_PRSNT, 0, 0, 32, .ro, 0, 4294967295, 1, 0, 0, 1⟩,
    ⟨LK_CBL_STATUS.SPARE_PRSNT, 0, 32, 1, .ro, 0, 1, 1, 0, 0, 1⟩
    ]⟩,
  ⟨.LK_PART_POOL, 0x600200, 64, 8, 1, [
    ⟨LK_PART_POOL.POOL, 0, 0, 11, .rw, 0, 1784, 1, 0, 0, 1⟩,
    ⟨LK_PART_POOL.REFUSED, 0, 15, 1, .w1c, 0, 1, 1, 0, 0, 1⟩
    ]⟩,
  ⟨.LK_PORT_CFG, 0x601000, 512, 8, 1, [
    ⟨LK_PORT_CFG.ENABLE, 0, 0, 1, .rw, 0, 1, 1, 0, 0, 1⟩,
    ⟨LK_PORT_CFG.ROLE, 0, 1, 2, .rw, 0, 2, 1, 0, 0, 1⟩,
    ⟨LK_PORT_CFG.WIDTH, 0, 3, 2, .rw, 0, 3, 1, 0, 0, 1⟩,
    ⟨LK_PORT_CFG.PROFILE, 0, 5, 4, .rw, 0, 3, 1, 0, 0, 1⟩,
    ⟨LK_PORT_CFG.SPARE_EN, 0, 9, 1, .rw, 0, 1, 1, 0, 0, 1⟩,
    ⟨LK_PORT_CFG.DOWNSHIFT_EN, 0, 10, 1, .rw, 0, 1, 1, 0, 0, 1⟩,
    ⟨LK_PORT_CFG.SPARE_SEL, 0, 11, 2, .rw, 0, 3, 1, 0, 0, 1⟩,
    ⟨LK_PORT_CFG.SPARE_BOUND, 0, 13, 1, .rw, 0, 1, 1, 0, 0, 1⟩,
    ⟨LK_PORT_CFG.REFUSED, 0, 15, 1, .w1c, 0, 1, 1, 0, 0, 1⟩
    ]⟩,
  ⟨.LK_PORT_STATUS, 0x602000, 512, 8, 1, [
    ⟨LK_PORT_STATUS.STATE, 0, 0, 3, .ro, 0, 7, 1, 0, 0, 1⟩,
    ⟨LK_PORT_STATUS.WIDTH_UP, 0, 3, 2, .ro, 0, 3, 1, 0, 0, 1⟩,
    ⟨LK_PORT_STATUS.PEER_TYPE, 0, 5, 2, .ro, 0, 3, 1, 0, 0, 1⟩,
    ⟨LK_PORT_STATUS.SPARED, 0, 7, 1, .ro, 0, 1, 1, 0, 0, 1⟩,
    ⟨LK_PORT_STATUS.FAIL_CAUSE, 0, 8, 3, .ro, 0, 7, 1, 0, 0, 1⟩,
    ⟨LK_PORT_STATUS.FAILS, 0, 16, 16, .rc, 0, 65535, 1, 0, 0, 1⟩,
    ⟨LK_PORT_STATUS.PEER_UID_LO, 0, 32, 32, .ro, 0, 4294967295, 1, 0, 0, 1⟩
    ]⟩,
  ⟨.LK_PORT_ERR, 0x603000, 512, 8, 1, [
    ⟨LK_PORT_ERR.UCW, 0, 0, 16, .rc, 0, 65535, 1, 0, 0, 1⟩,
    ⟨LK_PORT_ERR.HCRC, 0, 16, 16, .rc, 0, 65535, 1, 0, 0, 1⟩,
    ⟨LK_PORT_ERR.PROTO, 0, 32, 16, .rc, 0, 65535, 1, 0, 0, 1⟩,
    ⟨LK_PORT_ERR.ECRC, 0, 48, 16, .rc, 0, 65535, 1, 0, 0, 1⟩
    ]⟩,
  ⟨.LK_LANE_STATUS, 0x604000, 528, 8, 1, [
    ⟨LK_LANE_STATUS.STATE, 0, 0, 2, .ro, 0, 3, 1, 0, 0, 1⟩,
    ⟨LK_LANE_STATUS.PORT, 0, 2, 9, .ro, 0, 511, 1, 0, 0, 1⟩,
    ⟨LK_LANE_STATUS.CSYM, 0, 16, 16, .ro, 0, 65535, 1, 0, 0, 1⟩,
    ⟨LK_LANE_STATUS.UCW, 0, 32, 16, .rc, 0, 65535, 1, 0, 0, 1⟩
    ]⟩]

/-- The SC_ registers. -/
def scRegs : List RegDesc :=
  [⟨.SC_CFG, 0x700000, 1, 8, 1, [
    ⟨SC_CFG.AGE_US, 0, 0, 14, .rw, 100, 10000, 1, 0, 0, 1⟩,
    ⟨SC_CFG.RESEQ_US, 0, 14, 8, .rw, 16, 200, 1, 0, 0, 1⟩,
    ⟨SC_CFG.HOLD_WIN, 0, 22, 9, .rw, 16, 256, 1, 0, 0, 1⟩,
    ⟨SC_CFG.BANK_RETIRE, 0, 31, 16, .rw, 8, 65535, 1, 0, 0, 1⟩,
    ⟨SC_CFG.REFUSED, 0, 63, 1, .w1c, 0, 1, 1, 0, 0, 1⟩
    ]⟩,
  ⟨.SC_STATUS, 0x700008, 1, 8, 1, [
    ⟨SC_STATUS.FREE_CELLS, 0, 0, 20, .ro, 0, 1048575, 1, 0, 0, 1⟩,
    ⟨SC_STATUS.RESEQ_CTX, 0, 20, 16, .ro, 0, 65535, 1, 0, 0, 1⟩,
    ⟨SC_STATUS.GROUPS_OUT, 0, 36, 7, .ro, 0, 127, 1, 0, 0, 1⟩,
    ⟨SC_STATUS.OVERCOMMIT, 0, 43, 1, .ro, 0, 1, 1, 0, 0, 1⟩
    ]⟩,
  ⟨.SC_AUDIT_STAT, 0x700010, 1, 8, 1, [
    ⟨SC_AUDIT_STAT.PASSES, 0, 0, 32, .ro, 0, 4294967295, 1, 0, 0, 1⟩,
    ⟨SC_AUDIT_STAT.LEAKED, 0, 32, 16, .rc, 0, 65535, 1, 0, 0, 1⟩,
    ⟨SC_AUDIT_STAT.DOUBLE, 0, 48, 8, .rc, 0, 255, 1, 0, 0, 1⟩,
    ⟨SC_AUDIT_STAT.MISMATCH, 0, 56, 8, .rc, 0, 255, 1, 0, 0, 1⟩
    ]⟩,
  ⟨.SC_BANK_RETIRE, 0x700018, 1, 8, 1, [
    ⟨SC_BANK_RETIRE.BANK, 0, 0, 10, .wo, 0, 1023, 1, 0, 0, 1⟩
    ]⟩,
  ⟨.SC_MC_SEL, 0x700020, 1, 8, 1, [
    ⟨SC_MC_SEL.GROUP, 0, 0, 13, .rw, 0, 8191, 1, 0, 0, 1⟩,
    ⟨SC_MC_SEL.OP, 0, 13, 1, .wo, 0, 1, 1, 0, 0, 1⟩
    ]⟩,
  ⟨.SC_MC_DATA, 0x700040, 1, 72, 9, [
    ⟨SC_MC_DATA.VALID, 0, 0, 1, .rw, 0, 1, 1, 0, 0, 1⟩,
    ⟨SC_MC_DATA.PART, 0, 1, 6, .rw, 0, 63, 1, 0, 0, 1⟩,
    ⟨SC_MC_DATA.PORTS, 1, 0, 64, .rw, 0, 18446744073709551615, 1, 0, 0, 8⟩,
    ⟨SC_MC_DATA.PORTS, 2, 0, 64, .rw, 0, 18446744073709551615, 1, 0, 1, 8⟩,
    ⟨SC_MC_DATA.PORTS, 3, 0, 64, .rw, 0, 18446744073709551615, 1, 0, 2, 8⟩,
    ⟨SC_MC_DATA.PORTS, 4, 0, 64, .rw, 0, 18446744073709551615, 1, 0, 3, 8⟩,
    ⟨SC_MC_DATA.PORTS, 5, 0, 64, .rw, 0, 18446744073709551615, 1, 0, 4, 8⟩,
    ⟨SC_MC_DATA.PORTS, 6, 0, 64, .rw, 0, 18446744073709551615, 1, 0, 5, 8⟩,
    ⟨SC_MC_DATA.PORTS, 7, 0, 64, .rw, 0, 18446744073709551615, 1, 0, 6, 8⟩,
    ⟨SC_MC_DATA.PORTS, 8, 0, 64, .rw, 0, 18446744073709551615, 1, 0, 7, 8⟩
    ]⟩,
  ⟨.SC_PART_BUF, 0x701000, 65, 8, 1, [
    ⟨SC_PART_BUF.PROFILE, 0, 0, 4, .rw, 0, 3, 1, 0, 0, 1⟩,
    ⟨SC_PART_BUF.BUF_MIN, 0, 4, 19, .rw, 0, 524287, 1, 0, 0, 1⟩,
    ⟨SC_PART_BUF.BUF_MAX, 0, 23, 19, .rw, 0, 524287, 1, 0, 0, 1⟩,
    ⟨SC_PART_BUF.REFUSED, 0, 63, 1, .w1c, 0, 1, 1, 0, 0, 1⟩
    ]⟩,
  ⟨.SC_PART_OCC, 0x701400, 65, 8, 1, [
    ⟨SC_PART_OCC.USED, 0, 0, 20, .ro, 0, 1048575, 1, 0, 0, 1⟩,
    ⟨SC_PART_OCC.HWM, 0, 20, 20, .rc, 0, 1048575, 1, 0, 0, 1⟩,
    ⟨SC_PART_OCC.CTX, 0, 40, 10, .ro, 0, 1023, 1, 0, 0, 1⟩
    ]⟩,
  ⟨.SC_PART_DROP, 0x701800, 65, 8, 1, [
    ⟨SC_PART_DROP.AGED, 0, 0, 16, .rc, 0, 65535, 1, 0, 0, 1⟩,
    ⟨SC_PART_DROP.NOFARE, 0, 16, 16, .rc, 0, 65535, 1, 0, 0, 1⟩,
    ⟨SC_PART_DROP.ECC, 0, 32, 16, .rc, 0, 65535, 1, 0, 0, 1⟩,
    ⟨SC_PART_DROP.RESEQ, 0, 48, 16, .rc, 0, 65535, 1, 0, 0, 1⟩
    ]⟩,
  ⟨.SC_BANK_STATUS, 0x702000, 522, 8, 1, [
    ⟨SC_BANK_STATUS.STATE, 0, 0, 2, .ro, 0, 3, 1, 0, 0, 1⟩,
    ⟨SC_BANK_STATUS.GROUP, 0, 2, 7, .ro, 0, 127, 1, 0, 0, 1⟩,
    ⟨SC_BANK_STATUS.CE_24H, 0, 16, 16, .ro, 0, 65535, 1, 0, 0, 1⟩,
    ⟨SC_BANK_STATUS.UE, 0, 32, 16, .rc, 0, 65535, 1, 0, 0, 1⟩
    ]⟩]

/-- The TM_ registers. -/
def tmRegs : List RegDesc :=
  [⟨.TM_CFG, 0x800000, 1, 8, 1, [
    ⟨TM_CFG.CE_KB, 0, 0, 10, .rw, 16, 1023, 1, 0, 0, 1⟩,
    ⟨TM_CFG.REFUSED, 0, 63, 1, .w1c, 0, 1, 1, 0, 0, 1⟩
    ]⟩,
  ⟨.TM_STATUS, 0x800008, 1, 8, 1, [
    ⟨TM_STATUS.FQ_USED, 0, 0, 16, .ro, 0, 65535, 1, 0, 0, 1⟩
    ]⟩,
  ⟨.TM_GCL_SEL, 0x800010, 1, 8, 1, [
    ⟨TM_GCL_SEL.PORT, 0, 0, 9, .rw, 0, 511, 1, 0, 0, 1⟩,
    ⟨TM_GCL_SEL.ENTRY, 0, 9, 8, .rw, 0, 255, 1, 0, 0, 1⟩
    ]⟩,
  ⟨.TM_GCL_DATA, 0x800018, 1, 8, 1, [
    ⟨TM_GCL_DATA.GATES, 0, 0, 8, .rw, 0, 255, 1, 0, 0, 1⟩,
    ⟨TM_GCL_DATA.DURATION, 0, 8, 24, .rw, 1, 16777215, 1, 0, 0, 1⟩
    ]⟩,
  ⟨.TM_PART_CFG, 0x800200, 64, 8, 1, [
    ⟨TM_PART_CFG.PROFILE, 0, 0, 4, .rw, 0, 3, 1, 0, 0, 1⟩,
    ⟨TM_PART_CFG.CLASS_WT, 0, 4, 4, .rw, 1, 15, 8, 4, 0, 8⟩,
    ⟨TM_PART_CFG.FQ_MAX, 0, 36, 16, .rw, 0, 32768, 1, 0, 0, 1⟩,
    ⟨TM_PART_CFG.REFUSED, 0, 63, 1, .w1c, 0, 1, 1, 0, 0, 1⟩
    ]⟩,
  ⟨.TM_SVC_SHAPE, 0x801000, 512, 8, 1, [
    ⟨TM_SVC_SHAPE.RATE, 0, 0, 32, .rw, 0, 4294967295, 1, 0, 0, 1⟩,
    ⟨TM_SVC_SHAPE.BURST, 0, 32, 24, .rw, 17, 16777215, 1, 0, 0, 1⟩,
    ⟨TM_SVC_SHAPE.WEIGHT, 0, 56, 6, .rw, 0, 63, 1, 0, 0, 1⟩,
    ⟨TM_SVC_SHAPE.REFUSED, 0, 63, 1, .w1c, 0, 1, 1, 0, 0, 1⟩
    ]⟩,
  ⟨.TM_SVC_HWM, 0x802000, 512, 8, 1, [
    ⟨TM_SVC_HWM.OCC_HWM, 0, 0, 24, .rc, 0, 16777215, 1, 0, 0, 1⟩,
    ⟨TM_SVC_HWM.SOJ_HWM, 0, 24, 32, .rc, 0, 4294967295, 1, 0, 0, 1⟩
    ]⟩,
  ⟨.TM_GCL_CTRL, 0x803000, 512, 8, 1, [
    ⟨TM_GCL_CTRL.ENABLE, 0, 0, 1, .rw, 0, 1, 1, 0, 0, 1⟩,
    ⟨TM_GCL_CTRL.MODE, 0, 1, 1, .rw, 0, 1, 1, 0, 0, 1⟩,
    ⟨TM_GCL_CTRL.NENT, 0, 2, 9, .rw, 1, 256, 1, 0, 0, 1⟩,
    ⟨TM_GCL_CTRL.OFFSET, 0, 11, 27, .rw, 0, 124999999, 1, 0, 0, 1⟩,
    ⟨TM_GCL_CTRL.COMMIT, 0, 38, 1, .wo, 0, 1, 1, 0, 0, 1⟩,
    ⟨TM_GCL_CTRL.PENDING, 0, 39, 1, .ro, 0, 1, 1, 0, 0, 1⟩,
    ⟨TM_GCL_CTRL.BANK, 0, 40, 1, .ro, 0, 1, 1, 0, 0, 1⟩,
    ⟨TM_GCL_CTRL.CAUSE, 0, 41, 3, .ro, 0, 7, 1, 0, 0, 1⟩,
    ⟨TM_GCL_CTRL.REFUSED, 0, 63, 1, .w1c, 0, 1, 1, 0, 0, 1⟩
    ]⟩,
  ⟨.TM_PORT_STAT, 0x804000, 512, 8, 1, [
    ⟨TM_PORT_STAT.GATE_HOLD, 0, 0, 16, .rc, 0, 65535, 1, 0, 0, 1⟩,
    ⟨TM_PORT_STAT.OVERRUN, 0, 16, 16, .rc, 0, 65535, 1, 0, 0, 1⟩,
    ⟨TM_PORT_STAT.FORCED, 0, 32, 8, .rc, 0, 255, 1, 0, 0, 1⟩,
    ⟨TM_PORT_STAT.SOJ_HWM, 0, 40, 24, .rc, 0, 16777215, 1, 0, 0, 1⟩
    ]⟩,
  ⟨.TM_SUB_SHAPE, 0x810000, 4608, 8, 1, [
    ⟨TM_SUB_SHAPE.RATE, 0, 0, 32, .rw, 0, 4294967295, 1, 0, 0, 1⟩,
    ⟨TM_SUB_SHAPE.BURST, 0, 32, 24, .rw, 17, 16777215, 1, 0, 0, 1⟩,
    ⟨TM_SUB_SHAPE.WEIGHT, 0, 56, 4, .rw, 1, 15, 1, 0, 0, 1⟩,
    ⟨TM_SUB_SHAPE.REFUSED, 0, 63, 1, .w1c, 0, 1, 1, 0, 0, 1⟩
    ]⟩]

/-- The PM_ registers. -/
def pmRegs : List RegDesc :=
  [⟨.PM_CFG, 0x900000, 1, 8, 1, [
    ⟨PM_CFG.HASH_SALT, 0, 0, 32, .rwl, 0, 4294967295, 1, 0, 0, 1⟩,
    ⟨PM_CFG.SCRUB_SHARE, 0, 32, 6, .rw, 1, 20, 1, 0, 0, 1⟩,
    ⟨PM_CFG.MIG_SHARE, 0, 40, 6, .rw, 5, 50, 1, 0, 0, 1⟩,
    ⟨PM_CFG.DRAIN_US, 0, 48, 8, .rw, 10, 50, 1, 0, 0, 1⟩,
    ⟨PM_CFG.REFUSED, 0, 63, 1, .w1c, 0, 1, 1, 0, 0, 1⟩
    ]⟩,
  ⟨.PM_RAS_CFG, 0x900008, 1, 8, 1, [
    ⟨PM_RAS_CFG.RETIRE_CE, 0, 0, 16, .rw, 16, 65535, 1, 0, 0, 1⟩,
    ⟨PM_RAS_CFG.AUTO_RETIRE, 0, 16, 1, .rw, 0, 1, 1, 0, 0, 1⟩,
    ⟨PM_RAS_CFG.RETIRE_REQ, 0, 32, 10, .wo, 0, 1023, 1, 0, 0, 1⟩,
    ⟨PM_RAS_CFG.REFUSED, 0, 63, 1, .w1c, 0, 1, 1, 0, 0, 1⟩
    ]⟩,
  ⟨.PM_BERTH_SEL, 0x900010, 1, 8, 1, [
    ⟨PM_BERTH_SEL.SLOT, 0, 0, 15, .rw, 1, 32767, 1, 0, 0, 1⟩,
    ⟨PM_BERTH_SEL.PART, 0, 16, 6, .rw, 0, 63, 1, 0, 0, 1⟩
    ]⟩,
  ⟨.PM_BERTH_DATA, 0x900018, 1, 8, 1, [
    ⟨PM_BERTH_DATA.STATE, 0, 0, 3, .ro, 0, 7, 1, 0, 0, 1⟩,
    ⟨PM_BERTH_DATA.KIND, 0, 3, 2, .rw, 0, 3, 1, 0, 0, 1⟩,
    ⟨PM_BERTH_DATA.CLASS, 0, 5, 2, .rw, 0, 1, 1, 0, 0, 1⟩,
    ⟨PM_BERTH_DATA.LHALF, 0, 7, 1, .rw, 0, 1, 1, 0, 0, 1⟩,
    ⟨PM_BERTH_DATA.PHYS_A, 0, 8, 15, .rw, 0, 32767, 1, 0, 0, 1⟩,
    ⟨PM_BERTH_DATA.PHYS_B, 0, 23, 15, .rw, 0, 32767, 1, 0, 0, 1⟩,
    ⟨PM_BERTH_DATA.GEN, 0, 38, 9, .ro, 0, 511, 1, 0, 0, 1⟩,
    ⟨PM_BERTH_DATA.MCTX, 0, 47, 12, .rw, 0, 4095, 1, 0, 0, 1⟩
    ]⟩,
  ⟨.PM_BERTH_LEASE, 0x900020, 1, 8, 1, [
    ⟨PM_BERTH_LEASE.LPROFILE, 0, 0, 4, .rw, 0, 4, 1, 0, 0, 1⟩,
    ⟨PM_BERTH_LEASE.LEASE_MS, 0, 4, 16, .rw, 0, 60000, 1, 0, 0, 1⟩,
    ⟨PM_BERTH_LEASE.REMAIN_US, 0, 32, 32, .ro, 0, 4294967295, 1, 0, 0, 1⟩
    ]⟩,
  ⟨.PM_BERTH_CMD, 0x900028, 1, 8, 1, [
    ⟨PM_BERTH_CMD.OP, 0, 0, 3, .wo, 0, 7, 1, 0, 0, 1⟩,
    ⟨PM_BERTH_CMD.BUSY, 0, 3, 1, .ro, 0, 1, 1, 0, 0, 1⟩,
    ⟨PM_BERTH_CMD.RESULT, 0, 4, 4, .ro, 0, 15, 1, 0, 0, 1⟩
    ]⟩,
  ⟨.PM_HALF_STATUS, 0x900040, 2, 8, 1, [
    ⟨PM_HALF_STATUS.RETIRED, 0, 0, 4, .ro, 0, 15, 1, 0, 0, 1⟩,
    ⟨PM_HALF_STATUS.EXHAUSTED, 0, 4, 1, .ro, 0, 1, 1, 0, 0, 1⟩,
    ⟨PM_HALF_STATUS.RESERVE_FREE, 0, 8, 15, .ro, 0, 32767, 1, 0, 0, 1⟩,
    ⟨PM_HALF_STATUS.FREE_BERTHS, 0, 32, 16, .ro, 0, 65535, 1, 0, 0, 1⟩
    ]⟩,
  ⟨.PM_PART_ERR, 0x900200, 64, 8, 1, [
    ⟨PM_PART_ERR.CORRECTED, 0, 0, 16, .rc, 0, 65535, 1, 0, 0, 1⟩,
    ⟨PM_PART_ERR.POISONED, 0, 16, 16, .rc, 0, 65535, 1, 0, 0, 1⟩,
    ⟨PM_PART_ERR.REVOKED, 0, 32, 16, .rc, 0, 65535, 1, 0, 0, 1⟩,
    ⟨PM_PART_ERR.DROPPED_ST, 0, 48, 16, .rc, 0, 65535, 1, 0, 0, 1⟩
    ]⟩,
  ⟨.PM_CHAN_STATUS, 0x901000, 640, 8, 1, [
    ⟨PM_CHAN_STATUS.STATE, 0, 0, 2, .ro, 0, 3, 1, 0, 0, 1⟩,
    ⟨PM_CHAN_STATUS.MIG_PCT, 0, 2, 7, .ro, 0, 127, 1, 0, 0, 1⟩,
    ⟨PM_CHAN_STATUS.CE_24H, 0, 16, 16, .ro, 0, 65535, 1, 0, 0, 1⟩,
    ⟨PM_CHAN_STATUS.UE, 0, 32, 16, .rc, 0, 65535, 1, 0, 0, 1⟩
    ]⟩]

/-- The CH_ registers. -/
def chRegs : List RegDesc :=
  [⟨.CH_CFG, 0xA00000, 1, 8, 1, [
    ⟨CH_CFG.BATCH_MAX, 0, 0, 7, .rw, 1, 64, 1, 0, 0, 1⟩,
    ⟨CH_CFG.REFUSED, 0, 8, 1, .w1c, 0, 1, 1, 0, 0, 1⟩
    ]⟩,
  ⟨.CH_STATUS, 0xA00008, 1, 8, 1, [
    ⟨CH_STATUS.WATCHES, 0, 0, 15, .ro, 0, 32767, 1, 0, 0, 1⟩,
    ⟨CH_STATUS.PROTO_ERR, 0, 16, 16, .rc, 0, 65535, 1, 0, 0, 1⟩,
    ⟨CH_STATUS.REPLAYS, 0, 32, 32, .rc, 0, 4294967295, 1, 0, 0, 1⟩
    ]⟩,
  ⟨.CH_PART_CFG, 0xA00200, 64, 8, 1, [
    ⟨CH_PART_CFG.PROFILE, 0, 0, 4, .rw, 0, 3, 1, 0, 0, 1⟩,
    ⟨CH_PART_CFG.DIR_UNITS, 0, 4, 9, .rw, 0, 256, 1, 0, 0, 1⟩,
    ⟨CH_PART_CFG.REFUSED, 0, 15, 1, .w1c, 0, 1, 1, 0, 0, 1⟩,
    ⟨CH_PART_CFG.SEM_LEASE_MS, 0, 16, 16, .rw, 1, 60000, 1, 0, 0, 1⟩
    ]⟩,
  ⟨.CH_PART_STAT, 0xA00400, 64, 8, 1, [
    ⟨CH_PART_STAT.STALE_PUB, 0, 0, 16, .rc, 0, 65535, 1, 0, 0, 1⟩,
    ⟨CH_PART_STAT.NOT_OWNER, 0, 16, 16, .rc, 0, 65535, 1, 0, 0, 1⟩,
    ⟨CH_PART_STAT.REVERTS, 0, 32, 16, .rc, 0, 65535, 1, 0, 0, 1⟩,
    ⟨CH_PART_STAT.SEM_EXPIRED, 0, 48, 16, .rc, 0, 65535, 1, 0, 0, 1⟩
    ]⟩,
  ⟨.CH_PART_DIR, 0xA00600, 64, 8, 1, [
    ⟨CH_PART_DIR.DIR_MISS, 0, 0, 32, .rc, 0, 4294967295, 1, 0, 0, 1⟩,
    ⟨CH_PART_DIR.BCAST, 0, 32, 32, .rc, 0, 4294967295, 1, 0, 0, 1⟩
    ]⟩]

/-- The TE_ registers. -/
def teRegs : List RegDesc :=
  [⟨.TE_PART_CFG, 0xB00000, 64, 8, 1, [
    ⟨TE_PART_CFG.PROFILE, 0, 0, 4, .rw, 0, 3, 1, 0, 0, 1⟩,
    ⟨TE_PART_CFG.DEPTH, 0, 4, 3, .rw, 1, 7, 1, 0, 0, 1⟩,
    ⟨TE_PART_CFG.WB_AGE_MS, 0, 8, 16, .rw, 1, 10000, 1, 0, 0, 1⟩,
    ⟨TE_PART_CFG.TIER_WAIT_MS, 0, 24, 16, .rw, 1, 60000, 1, 0, 0, 1⟩,
    ⟨TE_PART_CFG.REFUSED, 0, 47, 1, .w1c, 0, 1, 1, 0, 0, 1⟩
    ]⟩,
  ⟨.TE_PART_STALL, 0xB01000, 64, 64, 8, [
    ⟨TE_PART_STALL.TRAY_LATE, 0, 0, 64, .rc, 0, 18446744073709551615, 1, 0, 0, 1⟩,
    ⟨TE_PART_STALL.FLASH_LATE, 1, 0, 64, .rc, 0, 18446744073709551615, 1, 0, 0, 1⟩,
    ⟨TE_PART_STALL.CHANNEL_RETIRE, 2, 0, 64, .rc, 0, 18446744073709551615, 1, 0, 0, 1⟩,
    ⟨TE_PART_STALL.BUDGET, 3, 0, 64, .rc, 0, 18446744073709551615, 1, 0, 0, 1⟩,
    ⟨TE_PART_STALL.TIER_FAIL, 4, 0, 64, .rc, 0, 18446744073709551615, 1, 0, 0, 1⟩,
    ⟨TE_PART_STALL.FILLED, 5, 0, 64, .rc, 0, 18446744073709551615, 1, 0, 0, 1⟩,
    ⟨TE_PART_STALL.WRITTEN_BACK, 6, 0, 64, .rc, 0, 18446744073709551615, 1, 0, 0, 1⟩,
    ⟨TE_PART_STALL.RO_STORE, 7, 0, 64, .rc, 0, 18446744073709551615, 1, 0, 0, 1⟩
    ]⟩]

/-- The TY_ registers. -/
def tyRegs : List RegDesc :=
  [⟨.TY_CFG, 0xC00000, 1, 8, 1, [
    ⟨TY_CFG.REBUILD_SHARE, 0, 0, 6, .rw, 1, 50, 1, 0, 0, 1⟩,
    ⟨TY_CFG.REFUSED, 0, 63, 1, .w1c, 0, 1, 1, 0, 0, 1⟩
    ]⟩,
  ⟨.TY_TB_SEL, 0xC00008, 1, 8, 1, [
    ⟨TY_TB_SEL.TBN, 0, 0, 25, .rw, 0, 33554431, 1, 0, 0, 1⟩
    ]⟩,
  ⟨.TY_TB_DATA, 0xC00010, 1, 8, 1, [
    ⟨TY_TB_DATA.PART, 0, 0, 6, .rw, 0, 63, 1, 0, 0, 1⟩,
    ⟨TY_TB_DATA.POLICY, 0, 6, 1, .rw, 0, 1, 1, 0, 0, 1⟩,
    ⟨TY_TB_DATA.GROUP, 0, 7, 4, .rw, 0, 15, 1, 0, 0, 1⟩,
    ⟨TY_TB_DATA.STATE, 0, 11, 3, .ro, 0, 7, 1, 0, 0, 1⟩,
    ⟨TY_TB_DATA.BOUND, 0, 14, 1, .ro, 0, 1, 1, 0, 0, 1⟩
    ]⟩,
  ⟨.TY_TB_CMD, 0xC00018, 1, 8, 1, [
    ⟨TY_TB_CMD.OP, 0, 0, 2, .wo, 0, 3, 1, 0, 0, 1⟩,
    ⟨TY_TB_CMD.BUSY, 0, 2, 1, .ro, 0, 1, 1, 0, 0, 1⟩,
    ⟨TY_TB_CMD.RESULT, 0, 3, 4, .ro, 0, 15, 1, 0, 0, 1⟩,
    ⟨TY_TB_CMD.SPARE_TRAY, 0, 7, 6, .wo, 0, 63, 1, 0, 0, 1⟩
    ]⟩,
  ⟨.TY_GROUP, 0xC00100, 16, 8, 1, [
    ⟨TY_GROUP.TRAYS, 0, 0, 64, .rw, 0, 18446744073709551615, 1, 0, 0, 1⟩
    ]⟩,
  ⟨.TY_TRAY_STATUS, 0xC00200, 64, 8, 1, [
    ⟨TY_TRAY_STATUS.STATE, 0, 0, 2, .ro, 0, 3, 1, 0, 0, 1⟩,
    ⟨TY_TRAY_STATUS.FREE_PAGES, 0, 2, 22, .ro, 0, 4194303, 1, 0, 0, 1⟩,
    ⟨TY_TRAY_STATUS.PORTS, 0, 24, 8, .ro, 0, 255, 1, 0, 0, 1⟩,
    ⟨TY_TRAY_STATUS.ERRORS, 0, 32, 16, .rc, 0, 65535, 1, 0, 0, 1⟩
    ]⟩]

/-- The FL_ registers. -/
def flRegs : List RegDesc :=
  [⟨.FL_CFG, 0xD00000, 1, 8, 1, [
    ⟨FL_CFG.NVME_TMO_MS, 0, 0, 16, .rw, 10, 10000, 1, 0, 0, 1⟩,
    ⟨FL_CFG.CRASH_DRIVE, 0, 16, 4, .rw, 0, 15, 1, 0, 0, 1⟩,
    ⟨FL_CFG.CRASH_EN, 0, 20, 1, .rw, 0, 1, 1, 0, 0, 1⟩,
    ⟨FL_CFG.CRASH_LBA, 0, 32, 32, .rw, 0, 4294967295, 1, 0, 0, 1⟩
    ]⟩,
  ⟨.FL_FB_SEL, 0xD00008, 1, 8, 1, [
    ⟨FL_FB_SEL.FBN, 0, 0, 20, .rw, 0, 1048575, 1, 0, 0, 1⟩
    ]⟩,
  ⟨.FL_FB_DATA, 0xD00010, 1, 8, 1, [
    ⟨FL_FB_DATA.VALID, 0, 0, 1, .rw, 0, 1, 1, 0, 0, 1⟩,
    ⟨FL_FB_DATA.PART, 0, 1, 6, .rw, 0, 63, 1, 0, 0, 1⟩,
    ⟨FL_FB_DATA.FIRST, 0, 7, 4, .rw, 0, 15, 1, 0, 0, 1⟩,
    ⟨FL_FB_DATA.LOG2N, 0, 11, 3, .rw, 0, 4, 1, 0, 0, 1⟩,
    ⟨FL_FB_DATA.NSID, 0, 14, 18, .rw, 1, 262143, 1, 0, 0, 1⟩,
    ⟨FL_FB_DATA.START, 0, 32, 32, .rw, 0, 4294967295, 1, 0, 0, 1⟩
    ]⟩,
  ⟨.FL_DRIVE_STATUS, 0xD00200, 16, 8, 1, [
    ⟨FL_DRIVE_STATUS.STATE, 0, 0, 2, .ro, 0, 3, 1, 0, 0, 1⟩,
    ⟨FL_DRIVE_STATUS.QPAIRS, 0, 2, 7, .ro, 0, 127, 1, 0, 0, 1⟩,
    ⟨FL_DRIVE_STATUS.TIMEOUTS, 0, 16, 16, .rc, 0, 65535, 1, 0, 0, 1⟩,
    ⟨FL_DRIVE_STATUS.RECREATES, 0, 32, 16, .rc, 0, 65535, 1, 0, 0, 1⟩,
    ⟨FL_DRIVE_STATUS.MEDIA_ERR, 0, 48, 16, .rc, 0, 65535, 1, 0, 0, 1⟩
    ]⟩]

/-- The GU_ registers. -/
def guRegs : List RegDesc :=
  [⟨.GU_UNIT_STATUS, 0xE00000, 18, 8, 1, [
    ⟨GU_UNIT_STATUS.ACTIVE, 0, 0, 1, .ro, 0, 1, 1, 0, 0, 1⟩,
    ⟨GU_UNIT_STATUS.SPARE, 0, 1, 1, .ro, 0, 1, 1, 0, 0, 1⟩,
    ⟨GU_UNIT_STATUS.RETIRED, 0, 2, 1, .ro, 0, 1, 1, 0, 0, 1⟩,
    ⟨GU_UNIT_STATUS.CORRECTED, 0, 8, 8, .ro, 0, 255, 1, 0, 0, 1⟩,
    ⟨GU_UNIT_STATUS.INFLIGHT, 0, 16, 13, .ro, 0, 8191, 1, 0, 0, 1⟩
    ]⟩,
  ⟨.GU_PART_CFG, 0xE00200, 64, 8, 1, [
    ⟨GU_PART_CFG.PROFILE, 0, 0, 4, .rw, 0, 3, 1, 0, 0, 1⟩,
    ⟨GU_PART_CFG.FEED_AHEAD, 0, 4, 6, .rw, 2, 32, 1, 0, 0, 1⟩,
    ⟨GU_PART_CFG.GATHER_EN, 0, 10, 1, .rw, 0, 1, 1, 0, 0, 1⟩,
    ⟨GU_PART_CFG.REFUSED, 0, 15, 1, .w1c, 0, 1, 1, 0, 0, 1⟩
    ]⟩,
  ⟨.GU_PART_FEED, 0xE00400, 64, 8, 1, [
    ⟨GU_PART_FEED.BYTES, 0, 0, 64, .rc, 0, 18446744073709551615, 1, 0, 0, 1⟩
    ]⟩,
  ⟨.GU_PART_SHIP, 0xE00600, 64, 8, 1, [
    ⟨GU_PART_SHIP.BYTES, 0, 0, 64, .rc, 0, 18446744073709551615, 1, 0, 0, 1⟩
    ]⟩]

/-- The FU_ registers. -/
def fuRegs : List RegDesc :=
  [⟨.FU_UNIT_STATUS, 0xF00000, 9, 8, 1, [
    ⟨FU_UNIT_STATUS.ACTIVE, 0, 0, 1, .ro, 0, 1, 1, 0, 0, 1⟩,
    ⟨FU_UNIT_STATUS.SPARE, 0, 1, 1, .ro, 0, 1, 1, 0, 0, 1⟩,
    ⟨FU_UNIT_STATUS.RETIRED, 0, 2, 1, .ro, 0, 1, 1, 0, 0, 1⟩,
    ⟨FU_UNIT_STATUS.BUSY, 0, 3, 1, .ro, 0, 1, 1, 0, 0, 1⟩,
    ⟨FU_UNIT_STATUS.PART, 0, 4, 6, .ro, 0, 63, 1, 0, 0, 1⟩,
    ⟨FU_UNIT_STATUS.CORRECTED, 0, 16, 8, .ro, 0, 255, 1, 0, 0, 1⟩
    ]⟩,
  ⟨.FU_PART_CFG, 0xF00200, 64, 8, 1, [
    ⟨FU_PART_CFG.PROFILE, 0, 0, 4, .rw, 0, 3, 1, 0, 0, 1⟩,
    ⟨FU_PART_CFG.MAX_UNITS, 0, 4, 4, .rw, 1, 8, 1, 0, 0, 1⟩,
    ⟨FU_PART_CFG.REFUSED, 0, 15, 1, .w1c, 0, 1, 1, 0, 0, 1⟩
    ]⟩,
  ⟨.FU_PART_COUNT, 0xF00400, 64, 8, 1, [
    ⟨FU_PART_COUNT.SELECT_KENT, 0, 0, 32, .rc, 0, 4294967295, 1, 0, 0, 1⟩,
    ⟨FU_PART_COUNT.FILTER_KKEY, 0, 32, 32, .rc, 0, 4294967295, 1, 0, 0, 1⟩
    ]⟩]

/-- The RU_ registers. -/
def ruRegs : List RegDesc :=
  [⟨.RU_MEMB_SEL, 0x1000000, 1, 8, 1, [
    ⟨RU_MEMB_SEL.GROUP, 0, 0, 10, .rw, 0, 1023, 1, 0, 0, 1⟩,
    ⟨RU_MEMB_SEL.MEMBER, 0, 10, 9, .rw, 0, 511, 1, 0, 0, 1⟩
    ]⟩,
  ⟨.RU_MEMB_DATA, 0x1000008, 1, 8, 1, [
    ⟨RU_MEMB_DATA.VALID, 0, 0, 1, .rw, 0, 1, 1, 0, 0, 1⟩,
    ⟨RU_MEMB_DATA.TYPE, 0, 1, 1, .rw, 0, 1, 1, 0, 0, 1⟩,
    ⟨RU_MEMB_DATA.ID, 0, 16, 16, .rw, 0, 65535, 1, 0, 0, 1⟩,
    ⟨RU_MEMB_DATA.GLO, 0, 32, 12, .rw, 0, 4095, 1, 0, 0, 1⟩,
    ⟨RU_MEMB_DATA.GHI, 0, 44, 12, .rw, 0, 4095, 1, 0, 0, 1⟩
    ]⟩,
  ⟨.RU_UNIT_STATUS, 0x1000040, 9, 8, 1, [
    ⟨RU_UNIT_STATUS.ACTIVE, 0, 0, 1, .ro, 0, 1, 1, 0, 0, 1⟩,
    ⟨RU_UNIT_STATUS.SPARE, 0, 1, 1, .ro, 0, 1, 1, 0, 0, 1⟩,
    ⟨RU_UNIT_STATUS.RETIRED, 0, 2, 1, .ro, 0, 1, 1, 0, 0, 1⟩,
    ⟨RU_UNIT_STATUS.BUSY, 0, 3, 1, .ro, 0, 1, 1, 0, 0, 1⟩,
    ⟨RU_UNIT_STATUS.PART, 0, 4, 6, .ro, 0, 63, 1, 0, 0, 1⟩,
    ⟨RU_UNIT_STATUS.CORRECTED, 0, 16, 8, .ro, 0, 255, 1, 0, 0, 1⟩
    ]⟩,
  ⟨.RU_PART_CFG, 0x1000200, 64, 8, 1, [
    ⟨RU_PART_CFG.PROFILE, 0, 0, 4, .rw, 0, 3, 1, 0, 0, 1⟩,
    ⟨RU_PART_CFG.MAX_UNITS, 0, 4, 4, .rw, 1, 8, 1, 0, 0, 1⟩,
    ⟨RU_PART_CFG.REFUSED, 0, 15, 1, .w1c, 0, 1, 1, 0, 0, 1⟩,
    ⟨RU_PART_CFG.SLOT_RES, 0, 16, 10, .rw, 0, 512, 1, 0, 0, 1⟩,
    ⟨RU_PART_CFG.SLOT_HELD, 0, 32, 10, .ro, 0, 1023, 1, 0, 0, 1⟩
    ]⟩,
  ⟨.RU_GRP_STAT, 0x1002000, 1024, 8, 1, [
    ⟨RU_GRP_STAT.DONE_SEQ, 0, 0, 16, .ro, 0, 65535, 1, 0, 0, 1⟩,
    ⟨RU_GRP_STAT.OPEN, 0, 16, 3, .ro, 0, 7, 1, 0, 0, 1⟩,
    ⟨RU_GRP_STAT.LATE, 0, 32, 16, .rc, 0, 65535, 1, 0, 0, 1⟩,
    ⟨RU_GRP_STAT.MISSING, 0, 48, 16, .rc, 0, 65535, 1, 0, 0, 1⟩
    ]⟩,
  ⟨.RU_GRP_CFG, 0x1004000, 1024, 16, 1, [
    ⟨RU_GRP_CFG.ACTIVATE, 0, 0, 1, .rw, 0, 1, 1, 0, 0, 1⟩,
    ⟨RU_GRP_CFG.STATE, 0, 1, 2, .ro, 0, 3, 1, 0, 0, 1⟩,
    ⟨RU_GRP_CFG.PART, 0, 3, 6, .rw, 0, 63, 1, 0, 0, 1⟩,
    ⟨RU_GRP_CFG.ROLE, 0, 9, 1, .rw, 0, 1, 1, 0, 0, 1⟩,
    ⟨RU_GRP_CFG.NMEMB, 0, 10, 10, .rw, 1, 512, 1, 0, 0, 1⟩,
    ⟨RU_GRP_CFG.NGLOBALM1, 0, 20, 12, .rw, 0, 4095, 1, 0, 0, 1⟩,
    ⟨RU_GRP_CFG.MCAST, 0, 32, 13, .rw, 0, 8191, 1, 0, 0, 1⟩,
    ⟨RU_GRP_CFG.ON_MISSING, 0, 45, 1, .rw, 0, 1, 1, 0, 0, 1⟩,
    ⟨RU_GRP_CFG.CTO, 0, 46, 10, .rw, 1, 1000, 1, 0, 0, 1⟩,
    ⟨RU_GRP_CFG.REFUSED, 0, 63, 1, .w1c, 0, 1, 1, 0, 0, 1⟩
    ]⟩,
  ⟨.RU_GRP_PARENT, 0x1004008, 1024, 16, 1, [
    ⟨RU_GRP_PARENT.PARENT_EP, 0, 0, 16, .rw, 0, 65535, 1, 0, 0, 1⟩,
    ⟨RU_GRP_PARENT.PARENT_IDX, 0, 16, 9, .rw, 0, 511, 1, 0, 0, 1⟩
    ]⟩]

/-- The DK_ registers. -/
def dkRegs : List RegDesc :=
  [⟨.DK_DECK_STATUS, 0x1100000, 2, 8, 1, [
    ⟨DK_DECK_STATUS.BUSY, 0, 0, 1, .ro, 0, 1, 1, 0, 0, 1⟩,
    ⟨DK_DECK_STATUS.LASHED, 0, 1, 1, .ro, 0, 1, 1, 0, 0, 1⟩,
    ⟨DK_DECK_STATUS.PART, 0, 2, 6, .ro, 0, 63, 1, 0, 0, 1⟩,
    ⟨DK_DECK_STATUS.DEGRADED, 0, 8, 1, .ro, 0, 1, 1, 0, 0, 1⟩,
    ⟨DK_DECK_STATUS.SPARES_USED, 0, 9, 2, .ro, 0, 3, 1, 0, 0, 1⟩,
    ⟨DK_DECK_STATUS.COLS, 0, 11, 6, .ro, 0, 63, 1, 0, 0, 1⟩,
    ⟨DK_DECK_STATUS.LEG_SEQ, 0, 32, 32, .ro, 0, 4294967295, 1, 0, 0, 1⟩
    ]⟩,
  ⟨.DK_FULL_SAVE, 0x1100010, 2, 8, 1, [
    ⟨DK_FULL_SAVE.QUIESCE, 0, 0, 1, .rw, 0, 1, 1, 0, 0, 1⟩,
    ⟨DK_FULL_SAVE.QUIESCED, 0, 1, 1, .ro, 0, 1, 1, 0, 0, 1⟩,
    ⟨DK_FULL_SAVE.OP, 0, 2, 2, .wo, 0, 3, 1, 0, 0, 1⟩,
    ⟨DK_FULL_SAVE.BUSY, 0, 4, 1, .ro, 0, 1, 1, 0, 0, 1⟩,
    ⟨DK_FULL_SAVE.RESULT, 0, 5, 3, .ro, 0, 7, 1, 0, 0, 1⟩
    ]⟩,
  ⟨.DK_PART_CFG, 0x1100200, 64, 8, 1, [
    ⟨DK_PART_CFG.PROFILE, 0, 0, 4, .rw, 0, 4, 1, 0, 0, 1⟩,
    ⟨DK_PART_CFG.LEG_US, 0, 4, 5, .rw, 1, 16, 1, 0, 0, 1⟩,
    ⟨DK_PART_CFG.LASH_EN, 0, 9, 1, .rw, 0, 1, 1, 0, 0, 1⟩,
    ⟨DK_PART_CFG.REFUSED, 0, 15, 1, .w1c, 0, 1, 1, 0, 0, 1⟩
    ]⟩,
  ⟨.DK_PART_LEGS, 0x1100400, 64, 8, 1, [
    ⟨DK_PART_LEGS.LEGS, 0, 0, 32, .rc, 0, 4294967295, 1, 0, 0, 1⟩,
    ⟨DK_PART_LEGS.SHORT, 0, 32, 32, .rc, 0, 4294967295, 1, 0, 0, 1⟩
    ]⟩,
  ⟨.DK_COL_STATUS, 0x1101000, 68, 8, 1, [
    ⟨DK_COL_STATUS.STATE, 0, 0, 2, .ro, 0, 3, 1, 0, 0, 1⟩,
    ⟨DK_COL_STATUS.ROLE, 0, 2, 5, .ro, 0, 31, 1, 0, 0, 1⟩,
    ⟨DK_COL_STATUS.SUSPECT, 0, 7, 1, .ro, 0, 1, 1, 0, 0, 1⟩,
    ⟨DK_COL_STATUS.MISMATCH_24H, 0, 8, 4, .ro, 0, 15, 1, 0, 0, 1⟩,
    ⟨DK_COL_STATUS.RESIDUE_24H, 0, 12, 8, .ro, 0, 255, 1, 0, 0, 1⟩,
    ⟨DK_COL_STATUS.AUDITS, 0, 20, 28, .ro, 0, 268435455, 1, 0, 0, 1⟩,
    ⟨DK_COL_STATUS.AUDIT_SKIP, 0, 48, 16, .rc, 0, 65535, 1, 0, 0, 1⟩
    ]⟩]

/-- Every register of BAR0. -/
def allRegs : List RegDesc :=
  psRegs ++ ptRegs ++ hsRegs ++ ckRegs ++ cfRegs ++ lpRegs ++ lkRegs ++ scRegs ++ tmRegs ++ pmRegs ++ chRegs ++ teRegs ++ tyRegs ++ flRegs ++ guRegs ++ fuRegs ++ ruRegs ++ dkRegs

/-- The value of field `F` in entry `i`; an entry that does not exist reads 0 (R439). -/
def State.get (s : State) (F : RegField) (i : Nat := 0) : Nat :=
  if i < F.count then Tab.get (resetValue F.reset i) s.regs (F.id.val + 1024 * i) else 0

/-- Field `F` of entry `i` takes `v` in its width; a write of an entry that does not exist is ignored (R439). -/
def State.put (s : State) (F : RegField) (i v : Nat) : State :=
  if i < F.count then
    { s with regs := Tab.set (resetValue F.reset i) s.regs (F.id.val + 1024 * i) (v % 2 ^ F.width) }
  else s

/-- A count that saturates at the field's width (R441). -/
def State.bump (s : State) (F : RegField) (i n : Nat) : State :=
  s.put F i (min (s.get F i + n) (2 ^ F.width - 1))

/-- A one-bit field as a truth value. -/
def State.flag (s : State) (F : RegField) (i : Nat := 0) : Bool := s.get F i == 1

/-- The entries of a field that differ from reset, in rising order of entry number. -/
def State.touched (s : State) (F : RegField) : List Nat :=
  s.regs.filterMap fun p => if p.1 % 1024 = F.id.val then some (p.1 / 1024) else none

end Sys2Proof.Machine
end

