-- ==== Sys2Proof/Machine/Ops.lean ====
section
/-! DEFINITION. The operations every family shares: what leaves the module, module states, the time base, free values, and
the error log of chapter 15. -/

namespace Sys2Proof.Machine

/-! ## What leaves the module -/

/-- Appends to the record of what leaves the module. -/
def State.emit (s : State) (o : Out) : State := { s with out := s.out ++ [o] }

/-- Appends several. -/
def State.emits (s : State) (os : List Out) : State := { s with out := s.out ++ os }

/-! ## Module states (Table 17.10) -/

def modOff : Nat := 0
def modStandby : Nat := 1
def modInit : Nat := 2
def modReady : Nat := 3
def modDegraded : Nat := 4
def modFailed : Nat := 5

/-- HS_STATE.STATE. -/
def State.modState (s : State) : Nat := s.get HS_STATE.STATE

/-- The hub is released and works: INIT, READY or DEGRADED (Table 17.6). -/
def State.hubUp (s : State) : Bool := 2 ≤ s.modState && s.modState ≤ 4

/-- Applies `f` while the hub works; otherwise the event has no effect (log entry 2). -/
def whenUp (s : State) (f : State → State) : State := if s.hubUp then f s else s

/-- A PLDM PlatformEventMessage to the event receiver, where one is set (R431, log entry 40). -/
def State.platformEvent (s : State) (sensor value : Nat) : State :=
  match s.mg.eventEid with
  | some e => s.emit (.mctp "PlatformEventMessage" [e, sensor, value])
  | none => s

/-- The module enters a state; sensor 32 of Table 18.7 reports every change. -/
def State.enter (s : State) (st : Nat) : State :=
  if s.modState = st then s else (s.put HS_STATE.STATE 0 st).platformEvent 32 st

/-- A spare kind is exhausted: READY becomes DEGRADED (R371, Table 17.6). -/
def State.degrade (s : State) : State := if s.modState = modReady then s.enter modDegraded else s

/-! ## Events within a span of time (R200, R289, R328, R368, R370) -/

/-- 24 hours and one second in HCLK cycles. -/
def dayCycles : Nat := 103680000000000
def secondCycles : Nat := 1200000000

/-- Events of a key within the last `span` cycles. -/
def State.recentCount (s : State) (key span : Nat) : Nat :=
  ((Tab.get [] s.hs.recent key).filter fun t => s.tb.hclk < t + span).length

/-- An event of a key; those more than `span` cycles ago are forgotten. -/
def State.noteEvent (s : State) (key span : Nat) : State :=
  let l := (Tab.get [] s.hs.recent key).filter fun t => s.tb.hclk < t + span
  { s with hs := { s.hs with recent := Tab.put s.hs.recent key (l ++ [s.tb.hclk]) } }

/-- The events of a key are forgotten. -/
def State.forgetEvents (s : State) (key : Nat) : State := { s with hs := { s.hs with recent := Tab.erase s.hs.recent key } }

/-- An event that a register counts over the last 24 hours. -/
def State.countDay (s : State) (F : RegField) (idx : Nat) : State :=
  let s := s.noteEvent (F.id + 1024 * idx) dayCycles
  s.put F idx (min (s.recentCount (F.id + 1024 * idx) dayCycles) (2 ^ F.width - 1))

/-- A register that counts over 24 hours as it stands now. -/
def State.dayCount (s : State) (F : RegField) (idx : Nat) : Nat := min (s.recentCount (F.id + 1024 * idx) dayCycles) (2 ^ F.width - 1)

/-! ## Accesses of BAR0 (R438 to R447, Tables 19.7 and 19.8) -/

def accBadSize : Nat := 1
def accUnmapped : Nat := 2
def accLocked : Nat := 3
def accBusy : Nat := 4
def accState : Nat := 5

/-- The counter of a kind of access. -/
def accField (kind : Nat) : RegField :=
  match kind with
  | 1 => HS_ACC_STATUS.BAD_SIZE
  | 2 => HS_ACC_STATUS.UNMAPPED
  | 3 => HS_ACC_STATUS.LOCKED_WR
  | 4 => HS_ACC_STATUS.BUSY_WR
  | _ => HS_ACC_STATUS.STATE_WR

/-- An access came through an upstream port, so that port's link is trained (log entry 41). -/
def State.viaUp (s : State) (up : Nat) : State :=
  if up = 0 then { s with mg := { s.mg with up0 := true } }
  else if up = 1 then { s with mg := { s.mg with up1 := true } } else s

/-- The port the module's own writes and reads toward fabric-manager memory take: U0 while it is UP, else U1 (R428). -/
def State.fmPort (s : State) : Option Nat := if s.mg.up0 then some 0 else if s.mg.up1 then some 1 else none

/-- FAILED after hub release: every register is still read (Table 19.3). -/
def State.failedReleased (s : State) : Bool := s.modState == modFailed && (s.get HS_STATE.CAUSE == 2 || s.get HS_STATE.CAUSE == 5)

/-- The hub is released, so HS_ACC_STATUS counts and every register is read (R446, Table 19.3). -/
def State.released (s : State) : Bool := s.hubUp || s.failedReleased

/-- Counts an access and keeps its place, once the hub is released. -/
def State.countAccess (s : State) (kind up off : Nat) : State :=
  if s.released then
    (((s.bump (accField kind) 0 1).put HS_ACC_ADDR.OFFSET 0 off).put HS_ACC_ADDR.KIND 0 kind).put HS_ACC_ADDR.PORT 0 up
  else s

/-- A write of a register with an effect of its own, at BAR0 offset `off`: it acts while the hub works, and is discarded and
counted in FAILED after hub release (R446); there are two upstream ports. -/
def barWrite (up off : Nat) (s : State) (f : State → State) : State :=
  if 2 ≤ up then s
  else if s.hubUp then f (s.viaUp up)
  else if s.failedReleased then (s.viaUp up).countAccess accState up off
  else s

/-! ## Time -/

/-- HCLK cycles of a microsecond (R18: HCLK is 1.2 GHz). -/
def usCycles (us : Nat) : Nat := us * 1200

/-- HCLK cycles of a millisecond. -/
def msCycles (ms : Nat) : Nat := ms * 1200000

/-- The time base as one point. -/
def State.now (s : State) : TimeStamp := ⟨s.tb.sec, s.tb.ns, s.tb.frac⟩

/-- A point of the time base in units of 2^-32 ns since zero. -/
def timeUnits (t : TimeStamp) : Nat := (t.sec * 1000000000 + t.ns) * 4294967296 + t.frac

/-- A point of the time base from units of 2^-32 ns; seconds have 48 bits (R409). -/
def timeOfUnits (u : Nat) : TimeStamp :=
  let ns := u / 4294967296
  ⟨ns / 1000000000 % 281474976710656, ns % 1000000000, u % 4294967296⟩

/-- Sets the time base. -/
def State.setTime (s : State) (t : TimeStamp) : State :=
  { s with tb := { s.tb with sec := t.sec, ns := t.ns, frac := t.frac } }

/-- One HCLK cycle of the time base: it adds ADDEND, nanoseconds in [39:32] and a fraction below (R409). -/
def State.tick (s : State) : State :=
  if s.tb.running then
    let t := timeOfUnits (timeUnits s.now + s.get CK_TIME_ADDEND.ADDEND)
    { s with tb := { s.tb with sec := t.sec, ns := t.ns, frac := t.frac, hclk := s.tb.hclk + 1 } }
  else s

/-! ## Free values -/

/-- `n` fresh free bytes (log entry 11). -/
def freeBytes (ctr n : Nat) : List Byte := (List.range n).map fun i => Config.freeByte (ctr + i)

/-- Draws `n` free bytes. -/
def State.drawBytes (s : State) (n : Nat) : List Byte × State :=
  (freeBytes s.freeCtr n, { s with freeCtr := s.freeCtr + n })

/-- Draws one fresh unpredictable number (log entry 13). -/
def State.drawRandom (s : State) : BitVec 384 × State :=
  (Config.freeRandom s.freeCtr, { s with freeCtr := s.freeCtr + 1 })

/-! ## Die temperatures (R416) -/

/-- Dies in the order of Power.dieTemps: hub 0, decks A and B 1 and 2, G0 to G3 3 to 6, stacks 7 to 26. -/
def dieHub : Nat := 0
def dieDeck (d : DeckId) : Nat := match d with | .a => 1 | .b => 2
def diePort (d : Nat) : Nat := 3 + d
def dieStack (n : Nat) : Nat := 7 + n

/-- °C of a 0.25 °C reading with offset −40 °C, in the 8 bits of TEMP (two's complement). -/
def celsius (t : Nat) : Nat := ((BitVec.ofInt 8 ((t : Int) / 4 - 40)).toNat)

/-- The hotspot of a die, or the highest die temperature where none is named (Table 15.5). -/
def State.hotspot (s : State) (die : Option Nat) : Nat :=
  match die with
  | some d => celsius (s.pwr.dieTemps.getD d 0)
  | none => celsius (s.pwr.dieTemps.foldl max 0)

/-! ## The error log (R375, R376, Tables 15.5 and 15.6) -/

def sevCorrected : Nat := 0
def sevDeferred : Nat := 1
def sevContained : Nat := 2
def sevFatal : Nat := 3

/-- The causes of Table 15.6 by number. -/
inductive Cause where
  | sectorCe | sectorUe | rowRepair | chanRetire | chanFail | laneRepair | ctxError | badList | residue
  | auditMismatch | colRetire | auditExposure | legUnresolved | unitRetire | bankRetire | bankUe | cellLeak
  | trayDegraded | trayLost | dirtyLost | driveFailed | tallyLost | ownerLost | partStateUe | containReq
  | d2dRepair | d2dFail | metadataLost | thermalTrip | clockLoss | purserFail
  deriving DecidableEq, Repr

/-- CAUSE, SEV and SUBSYS of Table 15.6; where SUBSYS depends on the place, the first of its values stands here. -/
def causeRow : Cause → Nat × Nat × Nat
  | .sectorCe => (0x01, 0, 6) | .sectorUe => (0x02, 1, 6) | .rowRepair => (0x03, 0, 6) | .chanRetire => (0x04, 0, 6)
  | .chanFail => (0x05, 1, 6) | .laneRepair => (0x10, 0, 1) | .ctxError => (0x11, 1, 5) | .badList => (0x12, 0, 14)
  | .residue => (0x20, 0, 14) | .auditMismatch => (0x21, 0, 14) | .colRetire => (0x22, 0, 14)
  | .auditExposure => (0x23, 1, 14) | .legUnresolved => (0x24, 1, 14) | .unitRetire => (0x30, 0, 11)
  | .bankRetire => (0x38, 0, 3) | .bankUe => (0x39, 0, 3) | .cellLeak => (0x3A, 0, 3) | .trayDegraded => (0x40, 0, 7)
  | .trayLost => (0x41, 1, 7) | .dirtyLost => (0x42, 1, 9) | .driveFailed => (0x43, 0, 8) | .tallyLost => (0x48, 2, 10)
  | .ownerLost => (0x49, 1, 10) | .partStateUe => (0x50, 2, 15) | .containReq => (0x51, 2, 15)
  | .d2dRepair => (0x60, 0, 16) | .d2dFail => (0x61, 3, 16) | .metadataLost => (0x62, 3, 6)
  | .thermalTrip => (0x63, 3, 16) | .clockLoss => (0x64, 3, 16) | .purserFail => (0x65, 3, 15)

/-- LOC of several numbers: 16 bits each, the first lowest (the layout is log entry 14). -/
def loc : List Nat → Nat
  | [] => 0
  | n :: t => n % 65536 + 65536 * loc t

/-- What an event brings to its entry beyond its cause. -/
structure Event where
  cause  : Cause
  subsys : Option Nat := none
  part   : Option Nat := none
  ctx    : Nat := 0
  tag    : Nat := 0
  loc    : Nat := 0
  addr   : Nat := 0
  count  : Nat := 0
  aux    : Nat := 0
  die    : Option Nat := none
  /-- TEMP, where it is not the hotspot of this instant -/
  temp   : Option Nat := none

/-- The entry an event makes at this instant (Table 15.5). -/
def State.entryOf (s : State) (e : Event) : LogEntry :=
  let row := causeRow e.cause
  { seq := s.hs.nextSeq % 4294967296, sev := row.2.1, cause := row.1, subsys := e.subsys.getD row.2.2, part := e.part,
    sec := s.tb.sec, ns := s.tb.ns, ctx := e.ctx, tag := e.tag, loc := e.loc, addr := e.addr,
    count := min e.count 4294967295, temp := e.temp.getD (s.hotspot e.die), aux := e.aux }

/-- Replaces the newest queued entry of severity `sev` by `e`, where there is one (R376). -/
def displace (sev : Nat) (e : LogEntry) (q : List LogEntry) : Option (List LogEntry) :=
  if q.any (·.sev == sev) then some (replaceFirst (·.sev == sev) (fun _ => e) q.reverse).reverse else none

/-- QUEUED follows the internal queue (Table 15.10). -/
def State.syncQueued (s : State) : State := s.put HS_LOG_STATUS.QUEUED 0 (s.hs.queue.length + s.hs.extra.length)

/-- Enters an entry into the internal queue of 1,024, by its severity when that queue is full (R376). -/
def State.enqueue (s : State) (e : LogEntry) : State :=
  let h := { s.hs with nextSeq := s.hs.nextSeq + 1, history := (e :: s.hs.history).take 16384 }
  let lost (s : State) : State := s.bump HS_LOG_STATUS.LOST 0 1
  if h.queue.length < 1024 then ({ s with hs := { h with queue := h.queue ++ [e] } }).syncQueued
  else if e.sev = sevCorrected then lost { s with hs := h }
  else match displace sevCorrected e h.queue with
    | some q => lost { s with hs := { h with queue := q } }
    | none =>
      if e.sev = sevDeferred then lost { s with hs := h }
      else match displace sevDeferred e h.queue with
        | some q => lost { s with hs := { h with queue := q } }
        | none =>
          if h.extra.length < 64 then ({ s with hs := { h with extra := h.extra ++ [e] } }).syncQueued
          else lost { s with hs := h }

/-- Logs one event. -/
def State.log (s : State) (e : Event) : State := s.enqueue (s.entryOf e)

/-- Logs several events in order. -/
def State.logAll (s : State) (es : List Event) : State := es.foldl State.log s

end Sys2Proof.Machine
end

