-- ==== Sys2Proof/Machine/Fares.lean ====
section
/-! DEFINITION. Partitions, capacities, fares and balances (chapter 10), shared by every arbiter. -/

namespace Sys2Proof.Machine

/-! ## Partition states (PT_PART_STATE, Table 16.11) -/

def partFree : Nat := 0
def partLive : Nat := 1
def partContained : Nat := 2
def partTeardown : Nat := 3

/-- PT_PART_STATE.STATE. -/
def State.partState (s : State) (p : Nat) : Nat := s.get PT_PART_STATE.STATE p

/-- The partition exists and is LIVE. -/
def State.live (s : State) (p : Nat) : Bool := p < 64 && s.partState p == partLive

/-- The partition is contained (R372). -/
def State.contained (s : State) (p : Nat) : Bool := p < 64 && s.partState p == partContained

/-- Partitions that exist, in rising order. -/
def State.partitions (s : State) : List Nat := (List.range 64).filter fun p => s.partState p != partFree

/-! ## Resources (Table 10.2) -/

def resIdx : Res → Nat
  | .nearA => 0 | .nearB => 1 | .deckA => 2 | .deckB => 3 | .engine => 4 | .tray => 5 | .link => 6 | .flash => 7

def allRes : List Res := [.nearA, .nearB, .deckA, .deckB, .engine, .tray, .link, .flash]

/-- The width of a resource's field in Table 10.8. -/
def resWidth : Res → Nat
  | .nearA => 22 | .nearB => 22 | .deckA => 17 | .deckB => 17 | .engine => 21 | .tray => 22 | .link => 22 | .flash => 16

def deckRes : DeckId → Res
  | .a => .deckA
  | .b => .deckB

/-- Channels of a half in a state (1 MIGRATING, 2 RETIRED, 3 FAILED); reset leaves every channel ACTIVE. -/
def State.chansIn (s : State) (half st : Nat) : Nat :=
  ((s.touched PM_CHAN_STATUS.STATE).filter fun c => c / 320 == half && s.get PM_CHAN_STATUS.STATE c == st).length

/-- Units of a kind in service. -/
def State.unitsActive (s : State) (F : RegField) (n : Nat) : Nat :=
  ((List.range n).filter fun u => s.get F u == 1).length

/-- Lanes of a port width code: 1, 2, 4 or 8 (Table 11.1). -/
def widthLanes (w : Nat) : Nat := 2 ^ w

/-- A port carries frames: UP or DOWNSHIFTED (Table 11.5). -/
def State.portUp (s : State) (p : Nat) : Bool :=
  s.get LK_PORT_STATUS.STATE p == 2 || s.get LK_PORT_STATUS.STATE p == 4

/-- Lanes of TRAY ports that are up. -/
def State.trayLanes (s : State) : Nat :=
  ((s.touched LK_PORT_STATUS.STATE).filter fun p => s.portUp p && s.get LK_PORT_CFG.ROLE p == 1).foldl
    (fun n p => n + widthLanes (s.get LK_PORT_STATUS.WIDTH_UP p)) 0

/-- Active lanes: 512, less retired lanes, plus spares in service (R289, R290). -/
def State.activeLanes (s : State) : Nat :=
  512 - ((s.touched LK_LANE_STATUS.STATE).filter fun l => l % 132 < 128 && s.get LK_LANE_STATUS.STATE l == 2).length
    + (s.touched LK_PORT_STATUS.SPARED).length

/-- The current capacity of a resource per tide, as PT_CAP shows it: by what is in service now, at the throttle level of the
last tide edge (Tables 10.2 and 10.8, R406). -/
def State.capacity (s : State) (r : Res) : Nat :=
  let t := s.pt.capLevel
  let near (half : Nat) : Nat :=
    let w := 320 - s.chansIn half 2 - s.chansIn half 3
    9600 * (100 * w - s.chansIn half 1 * s.get PM_CFG.MIG_SHARE) * (200 - s.get PM_CFG.SCRUB_SHARE) / 20000 * (16 - t) / 16
  let deck : Nat := 102400 * (8 - t) / 8 - 4096
  match r with
  | .nearA => near 0
  | .nearB => near 1
  | .deckA => deck
  | .deckB => deck
  | .engine => 76800 * min (s.unitsActive FU_UNIT_STATUS.ACTIVE 9) (s.unitsActive RU_UNIT_STATUS.ACTIVE 9)
  | .tray => 6250 * s.trayLanes
  | .link => 6250 * s.activeLanes
  | .flash => s.get PT_CFG.FLASH_CAP

/-- A word of PT_CAP (Table 10.8). -/
def State.capWord (s : State) (w : Nat) : Nat :=
  match w with
  | 0 => s.capacity .nearA + 2 ^ 22 * s.capacity .nearB + 2 ^ 44 * s.capacity .deckA
  | 1 => s.capacity .deckB + 2 ^ 17 * s.capacity .engine + 2 ^ 38 * s.capacity .tray
  | 2 => s.capacity .link + 2 ^ 22 * s.capacity .flash
  | _ => 0

/-! ## Fares -/

/-- SLICE_US the registers ask for, by the partition's profile (Table 10.5). -/
def State.askedSlice (s : State) (p : Nat) : Nat :=
  match s.get PT_PART_CFG.PROFILE p with
  | 0 => s.get PT_PART_CFG.SLICE_US p
  | 1 => 256
  | 2 => 64
  | _ => 1024

/-- LEND the registers ask for, by the partition's profile (Table 10.5). -/
def State.askedLend (s : State) (p : Nat) : Bool :=
  s.get PT_PART_CFG.PROFILE p == 0 && s.flag PT_PART_CFG.LEND p

/-- SLICE_US in force (R265). -/
def State.sliceUs (s : State) (p : Nat) : Nat := Tab.get 256 s.pt.slices p

/-- LEND in force (R265). -/
def State.lend (s : State) (p : Nat) : Bool := s.pt.lending.contains p

/-- SHARE in force (R265). -/
def State.shareNow (s : State) (p : Nat) : Nat := (Tab.find s.pt.shares p).getD (if p = 0 then 16 else 0)

/-- The fare derived from SHARE (chapter 10, "Control"). -/
def State.derivedFare (s : State) (cap p : Nat) : Nat := s.get PT_PART_CFG.SHARE p * cap / 256

/-- The fare a partition's registers ask for. -/
def State.askedFare (s : State) (r : Res) (cap p : Nat) : Nat :=
  if s.get PT_PART_CFG.PROFILE p = 0 then s.get PT_FARE.RES (8 * p + resIdx r) else s.derivedFare cap p

/-- The sum of the derived fares of a resource. -/
def State.derivedSum (s : State) (cap : Nat) : Nat :=
  (s.partitions.filter fun p => s.get PT_PART_CFG.PROFILE p != 0).foldl (fun n p => n + s.derivedFare cap p) 0

/-- The sum of the EXPERT fares of a resource. -/
def State.expertSum (s : State) (r : Res) : Nat :=
  (s.partitions.filter fun p => s.get PT_PART_CFG.PROFILE p == 0).foldl (fun n p => n + s.get PT_FARE.RES (8 * p + resIdx r)) 0

/-- A capacity loss has left the fares above it (R264). -/
def State.overcommitted (s : State) (r : Res) (cap : Nat) : Bool := cap < s.derivedSum cap + s.expertSum r

/-- The fare enforced from an edge on: EXPERT fares are scaled when the sum exceeds capacity (R264). -/
def State.enforcedFare (s : State) (r : Res) (cap p : Nat) : Nat :=
  if s.get PT_PART_CFG.PROFILE p = 0 && s.overcommitted r cap then
    s.get PT_FARE.RES (8 * p + resIdx r) * (cap - s.derivedSum cap) / s.expertSum r
  else s.askedFare r cap p

/-- The fare in force in this tide. -/
def State.fare (s : State) (p : Nat) (r : Res) : Nat := Tab.get 0 s.pt.force (8 * p + resIdx r)

/-! ## Balances (R263, R267) -/

def balKey (p g : Nat) (r : Res) : Nat := (8 * p + g) * 8 + resIdx r

/-- The balance of one group. -/
def State.balance (s : State) (p g : Nat) (r : Res) : Nat := Tab.get 0 s.pt.balance (balKey p g r)

/-- What a group may draw on: its own balance, and with LEND the other groups' in ascending order (R267). -/
def State.lenders (s : State) (p g : Nat) : List Nat :=
  if s.lend p then g :: (List.range 8).filter (· != g) else [g]

/-- The balances a group may draw on, summed. -/
def State.drawable (s : State) (p g : Nat) (r : Res) : Nat := (s.lenders p g).foldl (fun n h => n + s.balance p h r) 0

/-- Fares bind (R266). -/
def State.faresBind (s : State) : Bool := s.flag PT_CFG.FARE_EN

/-- The balance covers the whole cost of a unit of work (R263); with FARE_EN 0 nothing is held back. -/
def State.covers (s : State) (p g : Nat) (r : Res) (n : Nat) : Bool := !s.faresBind || n ≤ s.drawable p g r

/-- Takes `n` from the balances of the listed groups in order. -/
def drawFrom (p : Nat) (r : Res) : List Nat → Nat → Tab Nat → Tab Nat
  | [], _, b => b
  | g :: gs, n, b =>
    let have_ := Tab.get 0 b (balKey p g r)
    drawFrom p r gs (n - have_) (Tab.set 0 b (balKey p g r) (have_ - n))

/-- Charges a unit of work: the balances pay, and the use of the tide is counted (R263, R266); the partition has run something in
this microsecond (R378). -/
def State.charge (s : State) (p g : Nat) (r : Res) (n : Nat) : State :=
  let b := if s.faresBind then drawFrom p r (s.lenders p g) n s.pt.balance else s.pt.balance
  let k := 8 * p + resIdx r
  { s with pt := { s.pt with balance := b, used := Tab.set 0 s.pt.used k (Tab.get 0 s.pt.used k + n),
                             active := if s.pt.active.contains p then s.pt.active else p :: s.pt.active } }

/-- Use of a resource in the current tide. -/
def State.usedNow (s : State) (p : Nat) (r : Res) : Nat := Tab.get 0 s.pt.used (8 * p + resIdx r)

/-- The group of a context (PT_CTX_GROUP). -/
def State.ctxGroup (s : State) (ctx : Nat) : Nat := s.get PT_CTX_GROUP.GROUP ctx

/-! ## Stalls (R257, R263, Table 9.10) -/

/-- The counter of a cause, in microseconds (Table 9.14). -/
def stallField : StallCause → RegField
  | .trayLate => TE_PART_STALL.TRAY_LATE
  | .flashLate => TE_PART_STALL.FLASH_LATE
  | .channelRetire => TE_PART_STALL.CHANNEL_RETIRE
  | .budget => TE_PART_STALL.BUDGET

/-- The stalls that `p` picks end: the time since each began is charged to its cause. -/
def State.endStalls (s : State) (p : Stall → Bool) : State :=
  let t := (s.te.stalls.filter p).foldl (fun s x => s.bump (stallField x.cause) x.part ((s.tb.hclk - x.since) / 1200)) s
  { t with te := { t.te with stalls := s.te.stalls.filter fun x => !p x } }

/-- What a command waits for, from now on; a cause it waits for already goes on. The tile it misses is
`len` bytes at `off` of `handle`. -/
def State.stall (s : State) (cid : Option Nat) (part : Nat) (cause : StallCause) (handle off len : Nat) : State :=
  let mine (x : Stall) : Bool := x.cid == cid && x.part == part
  if s.te.stalls.any fun x => mine x && x.cause == cause then s
  else
    let s := s.endStalls mine
    { s with te := { s.te with stalls := s.te.stalls ++
      [{ cid := cid, part := part, cause := cause, handle := handle, off := off, len := len, since := s.tb.hclk }] } }

/-- A command waits for a fare (R263). -/
def State.fareStall (s : State) (cid : Option Nat) (part : Nat) : State := s.stall cid part .budget 0 0 0

/-- A command waits no longer. -/
def State.endStall (s : State) (cid part : Nat) : State := s.endStalls fun x => x.cid == some cid && x.part == part

/-- A tide edge ends the waits for a fare (Table 9.10). -/
def State.endBudgetStalls (s : State) : State := s.endStalls fun x => x.cause == .budget

/-! ## The tide edge (R262, R264, R407) -/

/-- THROTTLE_UPDATE: the first rule of R407 that holds; `avg` is the tide's average power. -/
def State.throttleUpdate (s : State) : State :=
  let t := s.get HS_PWR_STATUS.LEVEL
  let therm := s.get HS_PWR_STATUS.THERM_LEVEL
  let cap := s.get HS_PWR_CFG.CAP_W
  let avg := if s.pwr.samples = 0 then s.get HS_PWR_STATUS.POWER_W else s.pwr.sumWatts / s.pwr.samples
  let hist := (avg :: s.pwr.history).take 16
  let low := hist.length == 16 && hist.all fun w => w * 100 < cap * 95
  let t' :=
    if s.pwr.overSample then 7
    else if t < therm then therm
    else if cap < avg then min 7 (t + 1)
    else if low then max therm (t - 1)
    else t
  let t' := if s.flag HS_PWR_STATUS.LOW_VIN then 7 else t'
  let s := (s.put HS_PWR_STATUS.LEVEL 0 t').put HS_PWR_STATUS.POWER_W 0 (min avg 2047)
  { s with pwr := { s.pwr with overSample := false, decksHalted := false, sumWatts := 0, samples := 0, history := hist } }

/-- The eight capacities. -/
def State.capacities (s : State) : List Nat := allRes.map s.capacity

/-- The balances of one partition: group g gets floor(SHARE_g × fare ÷ 64), group 0 also the remainder (R267). -/
def State.balancesOf (s : State) (p : Nat) (fares : List Nat) : Tab Nat :=
  (List.range 8).flatMap fun g =>
    (List.range 8).filterMap fun r =>
      let f := fares.getD r 0
      let share (g : Nat) : Nat := s.get PT_GROUP_SHARE.SHARE (8 * p + g) * f / 64
      let v := if g = 0 then f - ((List.range 7).map fun k => share (k + 1)).sum else share g
      if v = 0 then none else some ((8 * p + g) * 8 + r, v)

/-- What a tide's end leaves in PT_PART_USED, each field at most its maximum (Table 10.8). -/
def State.reportUsed (s : State) : State :=
  s.partitions.foldl (fun s p => allRes.foldl (fun s r =>
    s.put PT_PART_USED.RES (8 * p + resIdx r) (min (s.usedNow p r) (2 ^ resWidth r - 1))) s) s

/-- A tide edge: use is reported, capacities follow the throttle level, every balance is set to its fare in one cycle and
nothing unspent is kept (R262, R264, R265). -/
def State.tideEdge (s : State) : State :=
  let s := s.reportUsed
  let s := { s with pt := { s.pt with capLevel := s.get HS_PWR_STATUS.LEVEL } }
  let caps := s.capacities
  let fares (p : Nat) : List Nat := allRes.map fun r => s.enforcedFare r (caps.getD (resIdx r) 0) p
  let force : Tab Nat := s.partitions.flatMap fun p =>
    (List.range 8).filterMap fun r => if (fares p).getD r 0 = 0 then none else some (8 * p + r, (fares p).getD r 0)
  let balance : Tab Nat := s.partitions.flatMap fun p => s.balancesOf p (fares p)
  let exceeded := allRes.any fun r => s.overcommitted r (caps.getD (resIdx r) 0)
  let s := (s.put PT_CFG.OVERCOMMIT 0 (if exceeded then 1 else 0)).put PT_CFG.TIDE_SEQ 0 (s.get PT_CFG.TIDE_SEQ + 1)
  let slices : Tab Nat := s.partitions.filterMap fun p => if s.askedSlice p = 256 then none else some (p, s.askedSlice p)
  let shares : Tab Nat := s.partitions.map fun p => (p, s.get PT_PART_CFG.SHARE p)
  { s with pt := { s.pt with force := force, balance := balance, used := [], slices := slices, shares := shares,
                             lending := s.partitions.filter s.askedLend } }.endBudgetStalls

end Sys2Proof.Machine
end

