-- ==== Sys2Proof/Machine/Near.lean ====
section
/-! DEFINITION. Near memory: handles, the address hash, bytes and poison, and the slots of the berth tables (chapter 7). -/

namespace Sys2Proof.Machine

/-! ## Physical addresses -/

/-- Bytes of a berth: 64 MiB. -/
def berthBytes : Nat := 67108864

/-- Berths of a half (R181). -/
def halfBerths : Nat := 15360

/-- The byte address of offset `off` of half-local berth `berth`. -/
def physByte (half berth off : Nat) : Nat := (half * halfBerths + berth) * berthBytes + off

/-- The half a byte address lies in. -/
def halfOf (a : Nat) : Nat := a / (halfBerths * berthBytes)

/-- fold9 of R186. -/
def fold9 (x : BitVec 32) : Nat := ((x ^^^ (x >>> 9) ^^^ (x >>> 18) ^^^ (x >>> 27)) &&& 0x1FF#32).toNat

/-- The channel (0 to 639) and row of a granule (R186). -/
def locate (salt : BitVec 32) (half berth gran : Nat) : Nat × Nat :=
  let g := berth * 262144 + gran
  let row := g / 320
  let ch := (g % 320 + fold9 (BitVec.ofNat 32 row ^^^ salt) % 320) % 320
  (320 * half + ch, row)

/-! ## The sparing reserve (R199, R200) -/

/-- The reserve of a half, in granules numbered over its berths: the first and the end (Table 7.2). -/
def reserveFirst : Nat := 201326592
def reserveEnd : Nat := 301989888

/-- Rows of a channel. -/
def chanRows : Nat := 12582912

/-- The channel of its half (0 to 319) on which granule `g` of the half lies (R186). -/
def laneOf (salt : BitVec 32) (g : Nat) : Nat := (g % 320 + fold9 (BitVec.ofNat 32 (g / 320) ^^^ salt) % 320) % 320

/-- The granule of the half that channel `ch` (0 to 319) holds in a row. -/
def granuleIn (salt : BitVec 32) (ch row : Nat) : Nat := row * 320 + (ch + 320 - fold9 (BitVec.ofNat 32 row ^^^ salt) % 320) % 320

/-- Granules below `g` that channel `ch` holds. -/
def heldBelow (salt : BitVec 32) (ch g : Nat) : Nat := g / 320 + (if granuleIn salt ch (g / 320) < g then 1 else 0)

/-- Granules below `g` on channels a placement does not skip. -/
def usableBelow (salt : BitVec 32) (skip : List Nat) (g : Nat) : Nat :=
  g / 320 * (320 - skip.length) + ((List.range (g % 320)).filter fun i => !skip.contains (laneOf salt (g / 320 * 320 + i))).length

/-- The granule below which `m` usable ones lie, itself usable. -/
def usableAt (salt : BitVec 32) (skip : List Nat) (m : Nat) : Nat :=
  let row := m / (320 - skip.length) * 320
  row + ((List.range 320).filter fun i => !skip.contains (laneOf salt (row + i))).getD (m % (320 - skip.length)) 0

/-- The rows of a placed channel that hold data, in ascending order: those outside the reserve, and those of the reserve in use
when it was placed. The place of a row among them. -/
def Placement.rank (p : Placement) (salt : BitVec 32) (row : Nat) : Nat :=
  let ch := p.chan % 320
  if granuleIn salt ch row < p.start then row else heldBelow salt ch p.start + (row - heldBelow salt ch reserveEnd)

/-- How many rows of a placed channel hold data. -/
def Placement.rows (p : Placement) (salt : BitVec 32) : Nat :=
  heldBelow salt (p.chan % 320) p.start + (chanRows - heldBelow salt (p.chan % 320) reserveEnd)

/-- The reserve granule that takes the `n`-th of those rows (R200). -/
def Placement.target (p : Placement) (salt : BitVec 32) (n : Nat) : Nat := usableAt salt p.skip (usableBelow salt p.skip p.start + n)

/-- The half and the granule of its physical berth that granule `gran` of a lashed handle lies on (R186). -/
def locateLashed (salt : BitVec 32) (lhalf gran : Nat) : Nat × Nat :=
  let side := (gran % 2 + fold9 (BitVec.ofNat 32 (gran / 2) ^^^ salt)) % 2
  (side, lhalf * 131072 + gran / 2)

/-- PM_CFG.HASH_SALT. -/
def State.salt (s : State) : BitVec 32 := BitVec.ofNat 32 (s.get PM_CFG.HASH_SALT)

/-! ## Slots and handles (R183, R184) -/

/-- Table 7.12, KIND. -/
def kindDeckA : Nat := 0
def kindDeckB : Nat := 1
def kindLashed : Nat := 2
def kindTally : Nat := 3

/-- A slot at reset (Tables 7.12 and 7.13). -/
def Slot.reset : Slot :=
  { state := .empty, kind := 0, cls := 0, lhalf := 0, physA := 0, physB := 0, gen := 0, mctx := 0, lprofile := 1,
    leaseMs := 250, mooring := .ended, renewed := 0, frozenAt := none, graceAt := 0, expired := false, revoke := false }

def slotKey (part slot : Nat) : Nat := part * 32768 + slot

/-- A berth-table slot. -/
def State.slot (s : State) (part slot : Nat) : Slot := Tab.get Slot.reset s.pm.slots (slotKey part slot)

/-- Writes a berth-table slot. -/
def State.setSlot (s : State) (part slot : Nat) (sl : Slot) : State :=
  { s with pm := { s.pm with slots := Tab.set Slot.reset s.pm.slots (slotKey part slot) sl } }

/-- SLOT and GEN of a handle (R183). -/
def handleSlot (h : Nat) : Nat := h % 32768
def handleGen (h : Nat) : Nat := h / 32768 % 512

/-- The handle of a slot as it stands. -/
def slotHandle (slot : Nat) (sl : Slot) : Nat := sl.gen % 512 * 32768 + slot % 32768

/-- How a handle reads (R184). -/
inductive Held where
  | notHeld
  | held (sl : Slot)
  | draining (sl : Slot)
  deriving DecidableEq, Repr

/-- A handle is held when its slot is MOORED or DRAINING and the generations agree (R184). -/
def State.handle (s : State) (part h : Nat) : Held :=
  let sl := s.slot part (handleSlot h)
  if handleSlot h = 0 || sl.gen != handleGen h then .notHeld
  else match sl.state with
    | .moored => .held sl
    | .draining => .draining sl
    | _ => .notHeld

/-- The slot of a handle that is held, DRAINING included. -/
def State.heldSlot (s : State) (part h : Nat) : Option Slot :=
  match s.handle part h with
  | .notHeld => none
  | .held sl => some sl
  | .draining sl => some sl

/-- The byte address of offset `off` of a slot; a TALLY slot names its half-A copy (R182, R185, R186). -/
def State.slotByte (s : State) (sl : Slot) (off : Nat) : Nat :=
  if sl.kind = kindDeckA then physByte 0 sl.physA off
  else if sl.kind = kindDeckB then physByte 1 sl.physB off
  else if sl.kind = kindLashed then
    let l := locateLashed s.salt sl.lhalf (off / 256)
    physByte l.1 (if l.1 = 0 then sl.physA else sl.physB) (l.2 * 256 + off % 256)
  else physByte 0 sl.physA off

/-! ## Bytes and sectors (R188, R189) -/

/-- The byte at an address: zero where nothing was written since the zero-fill (R413). -/
def Near.byte (n : Near) (a : Nat) : Byte := Tab.get 0 n.cells a

/-- Memory in its one canonical form: addresses rise strictly and no entry holds the zero an unlisted address reads as. -/
def Memory.wf (m : List Host.Cell) : Bool := Tab.wf (0 : Byte) m

/-- Near memory in its one canonical form: its bytes, and its poisoned sectors in rising order. -/
def Near.wf (n : Near) : Bool := Memory.wf n.cells && rises n.poison

/-- Writes one byte. -/
def Near.setByte (n : Near) (a : Nat) (b : Byte) : Near := { n with cells := Tab.set 0 n.cells a b }

/-- Writes consecutive bytes. -/
def Near.setRun (n : Near) : Nat → List Byte → Near
  | _, [] => n
  | a, b :: t => (n.setByte a b).setRun (a + 1) t

/-- A 64-byte sector is marked poisoned (R189). -/
def Near.poisoned (n : Near) (sector : Nat) : Bool := n.poison.contains sector

/-- Marks a sector poisoned. -/
def Near.mark (n : Near) (sector : Nat) : Near := { n with poison := addSorted sector n.poison }

/-- Clears a sector's poison. -/
def Near.clean (n : Near) (sector : Nat) : Near := { n with poison := n.poison.filter (· != sector) }

/-- Writes `bs` from byte `lo` of a sector: all 64 bytes clear poison, a part of a poisoned sector is discarded; `psn` marks
the sector instead (R189). -/
def Near.writeSector (n : Near) (sector lo : Nat) (bs : List Byte) (psn : Bool) : Near :=
  if psn then n.mark sector
  else if bs.length = 64 then (n.clean sector).setRun (sector * 64) bs
  else if n.poisoned sector then n
  else n.setRun (sector * 64 + lo) bs

/-- Rows of a placed channel that have been redirected: all, but while the channel is MIGRATING (R200, log entry 88). -/
def State.redirected (s : State) (p : Placement) : Nat :=
  if s.get PM_CHAN_STATUS.STATE p.chan = 1 then min (Config.migratedRows p.chan s.tb.hclk) (p.rows s.salt) else p.rows s.salt

/-- Where granule `g` of a half lies now, through at most `fuel` redirections: channel (0 to 639) and row. -/
def State.follow (s : State) (half : Nat) : Nat → Nat → Nat × Nat
  | 0, g => (320 * half + laneOf s.salt g, g / 320)
  | fuel + 1, g =>
    let ch := 320 * half + laneOf s.salt g
    match s.pm.placed.find? (·.chan == ch) with
    | none => (ch, g / 320)
    | some p =>
      let n := p.rank s.salt (g / 320)
      if n < s.redirected p then s.follow half fuel (p.target s.salt n) else (ch, g / 320)

/-- The channel (0 to 639) and row that hold a byte address now: by the hash, or in the sparing reserve (R186, R200). -/
def State.placeOf (s : State) (a : Nat) : Nat × Nat :=
  s.follow (halfOf a) 8 (a / berthBytes % halfBerths * 262144 + a % berthBytes / 256)

/-- A berth is CRITICAL: metadata or tally window, stored twice (R182, Table 7.2). -/
def critical (a : Nat) : Bool := a / berthBytes % halfBerths < 768

/-- The same place in the other half: of a mirrored pair, the other copy (R182). -/
def otherHalf (a : Nat) : Nat := (1 - halfOf a) * (halfBerths * berthBytes) + a % (halfBerths * berthBytes)

/-- A byte lies on a failed channel whose granules could not be placed in the reserve (R201). -/
def State.deadAt (s : State) (a : Nat) : Bool := !s.pm.dead.isEmpty && s.pm.dead.contains (s.placeOf a).1

/-- A sector has no working copy left: it reads as poisoned and takes no data; a mirrored pair runs on its other copy (R182, R201). -/
def State.deadSector (s : State) (k : Nat) : Bool :=
  s.deadAt (k * 64) && (!critical (k * 64) || s.deadAt (otherHalf (k * 64)))

/-- A sector reads as poisoned. -/
def State.badSector (s : State) (k : Nat) : Bool := s.pm.near.poisoned k || s.deadSector k

/-- The pieces of `len` bytes from `off` that lie in one sector each: sector number in the berth, first byte, length. -/
def sectorPieces (off len : Nat) : List (Nat × Nat × Nat) :=
  (List.range ((off % 64 + len + 63) / 64)).map fun i =>
    let lo := if i = 0 then off % 64 else 0
    let hi := min 64 (off % 64 + len - 64 * i)
    (off / 64 + i, lo, hi - lo)

/-- Reads `len` bytes from `off` of a slot with the poisoned sectors counted from the first (R190). -/
def State.readSlot (s : State) (sl : Slot) (off len : Nat) : Payload :=
  let ps := sectorPieces off len
  { bytes := ps.flatMap fun p =>
      let a := s.slotByte sl (p.1 * 64) + p.2.1
      (List.range p.2.2).map fun i => s.pm.near.byte (a + i),
    poisoned := (List.range ps.length).filter fun i =>
      s.badSector (s.slotByte sl ((off / 64 + i) * 64) / 64) }

/-- Writes a payload at `off` of a slot, sector by sector. -/
def State.writeSlot (s : State) (sl : Slot) (off : Nat) (p : Payload) : State :=
  let near := (sectorPieces off p.bytes.length).foldl (fun (n : Near × Nat × Nat) q =>
      let bs := (p.bytes.drop n.2.1).take q.2.2
      let k := s.slotByte sl (q.1 * 64) / 64
      let near := if s.deadSector k then n.1 else n.1.writeSector k q.2.1 bs (p.poisoned.contains n.2.2)
      (near, n.2.1 + q.2.2, n.2.2 + 1))
    (s.pm.near, 0, 0)
  { s with pm := { s.pm with near := near.1 } }

/-- Zero-fills and clears the poison of the byte addresses that satisfy `p`; `p` is asked for the first byte of a sector. -/
def Near.scrub (n : Near) (p : Nat → Bool) : Near :=
  { cells := n.cells.filter (fun c => !p (c.1 / 64 * 64)), poison := n.poison.filter (fun k => !p (k * 64)) }

/-- Granules of a slot's span in half A and half B, as NEAR fares count them: a tally write touches both copies
(Table 10.2). -/
def State.granules (s : State) (sl : Slot) (off len : Nat) (write : Bool) : Nat × Nat :=
  let first := off / 256
  let n := if len = 0 then 0 else (off + len - 1) / 256 - first + 1
  if sl.kind = kindDeckA then (n, 0)
  else if sl.kind = kindDeckB then (0, n)
  else if sl.kind = kindLashed then
    let b := ((List.range n).filter fun i => (locateLashed s.salt sl.lhalf (first + i)).1 == 1).length
    (n - b, b)
  else if write then (n, n) else (n, 0)

/-- The balances of a group cover a span's granules in both halves. -/
def State.coversNear (s : State) (p g : Nat) (n : Nat × Nat) : Bool := s.covers p g .nearA n.1 && s.covers p g .nearB n.2

/-- Charges a span's granules. -/
def State.chargeNear (s : State) (p g : Nat) (n : Nat × Nat) : State := (s.charge p g .nearA n.1).charge p g .nearB n.2

/-- A byte address, first of its sector, belongs to a slot: one half of the pair's granules for a lashed slot, both copies for a
TALLY slot (R182, R185, R186). -/
def Slot.owns (sl : Slot) (a : Nat) : Bool :=
  let half := halfOf a
  let b := a / berthBytes % halfBerths
  if sl.kind = kindDeckA then half == 0 && b == sl.physA
  else if sl.kind = kindDeckB then half == 1 && b == sl.physB
  else if sl.kind = kindLashed then b == (if half = 0 then sl.physA else sl.physB) && a % berthBytes / 256 / 131072 == sl.lhalf
  else b == sl.physA

/-- Slots that are not EMPTY, by key. -/
def State.heldSlots (s : State) : List (Nat × Slot) := s.pm.slots.filter fun e => e.2.state != .empty

/-- The partition whose berth a byte address lies in, with its slot (PM_PART_ERR, Table 15.6). -/
def State.owner (s : State) (a : Nat) : Option (Nat × Nat) :=
  (s.heldSlots.find? fun e => e.2.owns a).map fun e => (e.1 / 32768, e.1 % 32768)

/-! ## Blocks of windows (R234) -/

/-- Bytes of a block. -/
def blockBytes : Nat := 4096

/-- A window: a BACKED berth with a source, by slot key. -/
def State.window (s : State) (key : Nat) : Option Window := Tab.find s.te.windows key

/-- The state of a block; every block of a berth without a source is RESIDENT (R234, R245). -/
def State.blockState (s : State) (key b : Nat) : BlockState :=
  match s.window key with
  | some w => Tab.get .absent w.blocks b
  | none => .resident

/-- Blocks a span touches. -/
def spanBlocks (off len : Nat) : List Nat :=
  if len = 0 then [] else (List.range ((off + len - 1) / blockBytes - off / blockBytes + 1)).map (· + off / blockBytes)

/-- A span of a berth stands in near memory whole: none of its blocks is ABSENT, FILLING or FAILED (R234). -/
def State.standing (s : State) (key off len : Nat) : Bool :=
  (spanBlocks off len).all fun b => s.blockState key b == .resident || s.blockState key b == .dirty

/-! ## Sector events (R188, R189, R370) -/

/-- The granule of a byte address within its half's copy of the mirrored pairs. -/
def pairGranule (a : Nat) : Nat := a % (halfBerths * berthBytes) / 256

/-- The block of a window a near byte address lies in, for a DECK_A, DECK_B or LASHED slot: the slot's key and the offset. -/
def State.slotOffset (s : State) (a : Nat) : Option (Nat × Nat) :=
  match s.owner a with
  | none => none
  | some o =>
    let sl := s.slot o.1 o.2
    if sl.kind = kindLashed then
      let g := a % berthBytes / 256
      let gr := if (locateLashed s.salt sl.lhalf (2 * (g % 131072))).1 = halfOf a then 2 * (g % 131072) else 2 * (g % 131072) + 1
      some (slotKey o.1 o.2, gr * 256 + a % 256)
    else some (slotKey o.1 o.2, a % berthBytes)

/-- Near copies of a block's 64 sectors. -/
def State.blockSectors (s : State) (key b : Nat) : List Nat :=
  (List.range 64).map fun i => s.slotByte (s.slot (key / 32768) (key % 32768)) (b * blockBytes + 64 * i) / 64

/-- Marks a sector poisoned and counts it against its channel and its partition, once (Tables 7.15 and 7.17, log entry 89). -/
def State.poisonSector (s : State) (k : Nat) : State :=
  if s.pm.near.poisoned k then s
  else
    let s := { s with pm := { s.pm with near := s.pm.near.mark k } }
    let s := s.bump PM_CHAN_STATUS.UE (s.placeOf (k * 64)).1 1
    match s.owner (k * 64) with
    | some o => s.bump PM_PART_ERR.POISONED o.1 1
    | none => s

/-- The half-A sector of a mirrored pair. -/
def pairSector (k : Nat) : Nat := if halfOf (k * 64) = 0 then k else otherHalf (k * 64) / 64

/-- The near copy of a sector is lost: of a mirrored pair the other copy serves it, and where that is lost too its users see poison
and the loss waits to be acted on; a RESIDENT block of a window becomes ABSENT; a DIRTY block and any other sector is poisoned
(Table 7.3, Table 7.7, R182, R191, R251). -/
def State.loseSector (s : State) (k : Nat) : State :=
  let a := k * 64
  if critical a then
    if s.deadAt (otherHalf a) then
      let s := s.poisonSector (pairSector k)
      { s with pm := { s.pm with lostPairs := addSorted (pairGranule a) s.pm.lostPairs } }
    else s
  else match s.slotOffset a with
    | none => s.poisonSector k
    | some o =>
      match Tab.find s.te.windows o.1 with
      | none => s.poisonSector k
      | some w =>
        let b := o.2 / blockBytes
        match Tab.get .absent w.blocks b with
        | .resident => { s with te := { s.te with windows := Tab.put s.te.windows o.1 { w with blocks := Tab.set .absent w.blocks b .absent },
                                                  refill := if s.te.refill.contains (o.1, b) then s.te.refill else s.te.refill ++ [(o.1, b)] } }
        | .dirty =>
          let at_ := slotHandle (o.1 % 32768) (s.slot (o.1 / 32768) (o.1 % 32768)) * 67108864 + b * blockBytes
          let ks := s.blockSectors o.1 b
          if ks.all s.pm.near.poisoned then s
          else (ks.foldl State.poisonSector s).log { cause := .dirtyLost, part := some (o.1 / 32768), addr := at_ }
        | _ => s

/-! ## Retirement of channels (R199, R200) -/

/-- Channels of a half (0 to 319) in one state. -/
def State.lanesIn (s : State) (half st : Nat) : List Nat := (List.range 320).filter fun i => s.get PM_CHAN_STATUS.STATE (320 * half + i) == st

/-- Channels of a half that are in its reserve or being moved there. -/
def State.reserveUsed (s : State) (half : Nat) : Nat := s.get PM_HALF_STATUS.RETIRED half + s.chansIn half 1

/-- RESERVE_FREE: the unused reserve on channels that work, in MiB (Table 7.16). -/
def State.syncReserve (s : State) (half : Nat) : State :=
  let skip := s.lanesIn half 2 ++ s.lanesIn half 3
  let first := if half = 0 then s.pm.reserveA else s.pm.reserveB
  s.put PM_HALF_STATUS.RESERVE_FREE half ((usableBelow s.salt skip reserveEnd - usableBelow s.salt skip first) / 4096)

/-- A channel's rows are mapped onto the half's unused reserve granules in ascending order, past those on channels that do not work
or are being moved themselves (R200); the eighth uses the reserve up (R199, R201, R371). -/
def State.mapRows (s : State) (chan : Nat) : State :=
  let half := chan / 320
  let first := if half = 0 then s.pm.reserveA else s.pm.reserveB
  let skip := (List.range 320).filter fun i => s.get PM_CHAN_STATUS.STATE (320 * half + i) != 0 || 320 * half + i == chan
  let p : Placement := { chan := chan, start := first, skip := skip }
  let next := p.target s.salt (p.rows s.salt - 1) + 1
  let s := { s with pm := { s.pm with placed := p :: s.pm.placed, reserveA := if half = 0 then next else s.pm.reserveA,
                                      reserveB := if half = 0 then s.pm.reserveB else next } }
  s.syncReserve half

/-- The reserve of a half that is used up shows, and the module is DEGRADED (R201, R371). -/
def State.checkReserve (s : State) (half : Nat) : State :=
  if s.reserveUsed half < 8 then s else (s.put PM_HALF_STATUS.EXHAUSTED half 1).degrade

/-- A channel counts as placed in the reserve of its half. -/
def State.countRetired (s : State) (half : Nat) : State :=
  ((s.put PM_HALF_STATUS.RETIRED half (s.get PM_HALF_STATUS.RETIRED half + 1)).syncReserve half).checkReserve half

/-- A channel's migration starts (R200, steps 1 and 2). -/
def State.startMigration (s : State) (chan : Nat) : State :=
  (((s.mapRows chan).put PM_CHAN_STATUS.STATE chan 1).put PM_CHAN_STATUS.MIG_PCT chan 0).checkReserve (chan / 320)

/-- A retirement the fabric manager requests starts, or is refused: the reserve is exhausted or the channel is not ACTIVE
(R200, Table 7.10). -/
def State.retireChannel (s : State) (chan : Nat) : State :=
  if 640 ≤ chan ∨ s.get PM_CHAN_STATUS.STATE chan ≠ 0 ∨ 8 ≤ s.reserveUsed (chan / 320) then s.put PM_RAS_CFG.REFUSED 0 1
  else s.startMigration chan

/-- A channel whose CORRECTED events within 24 hours reach RETIRE_CE is retired while reserve is left (R200, R371). -/
def State.autoRetire (s : State) (chan : Nat) : State :=
  if !s.flag PM_RAS_CFG.AUTO_RETIRE || s.get PM_CHAN_STATUS.STATE chan != 0
      || s.recentCount (PM_CHAN_STATUS.CE_24H.id + 1024 * chan) dayCycles < s.get PM_RAS_CFG.RETIRE_CE then s
  else if 8 ≤ s.reserveUsed (chan / 320) then s.checkReserve (chan / 320)
  else s.startMigration chan

/-- MIG_PCT while a channel is MIGRATING: the rows redirected so far (Table 7.15, log entry 88). -/
def State.migPct (s : State) (chan : Nat) : Nat :=
  match s.pm.placed.find? (·.chan == chan) with
  | some p => s.redirected p * 100 / p.rows s.salt
  | none => s.get PM_CHAN_STATUS.MIG_PCT chan

/-! ## What the stacks find (R188, R189) -/

/-- Corrected sectors of a row within the last 24 hours (R370). -/
def State.rowCount (s : State) (rk : Nat) : Nat := ((Tab.get [] s.pm.rowCe rk).filter fun t => s.tb.hclk < t + dayCycles).length

/-- A corrected sector of a row. -/
def State.noteRow (s : State) (rk : Nat) : State :=
  let l := (Tab.get [] s.pm.rowCe rk).filter fun t => s.tb.hclk < t + dayCycles
  { s with pm := { s.pm with rowCe := Tab.put s.pm.rowCe rk (l ++ [s.tb.hclk]) } }

/-- What a read or a patrol pass found in a sector: corrected and counted against channel, row and partition, or lost and
reported (R188, R189). -/
def State.sectorEvent (s : State) (e : SectorEvent) : State :=
  match e with
  | .corrected k =>
    let pl := s.placeOf (k * 64)
    let rk := pl.1 * 12582912 + pl.2
    let s := s.countDay PM_CHAN_STATUS.CE_24H pl.1
    let s := match s.owner (k * 64) with
      | some o => s.bump PM_PART_ERR.CORRECTED o.1 1
      | none => s
    (s.noteRow rk |>.log { cause := .sectorCe, loc := loc [pl.1 / 32, pl.1 % 32], count := 1, die := some (dieStack (pl.1 / 32)) }).autoRetire pl.1
  | .uncorrectable k =>
    let pl := s.placeOf (k * 64)
    let own := s.owner (k * 64)
    let k' := if critical (k * 64) then pairSector k else k
    let was := s.pm.near.poisoned k'
    let s := s.loseSector k
    if was || !s.pm.near.poisoned k' then s
    else
      let ad := match own with
        | some o => slotHandle o.2 (s.slot o.1 o.2) * 67108864 + k * 64 % berthBytes
        | none => k * 64
      s.log { cause := .sectorUe, part := own.map (·.1), loc := loc [pl.1 / 32, pl.1 % 32], addr := ad,
              die := some (dieStack (pl.1 / 32)) }

/-- Several sector events in order. -/
def State.sectorEvents (s : State) (es : List SectorEvent) : State := es.foldl State.sectorEvent s

/-! ## Little-endian numbers in memory (R6) -/

/-- The number little-endian bytes form. -/
def leNat : List Byte → Nat
  | [] => 0
  | b :: t => b.toNat + 256 * leNat t

/-- `n` little-endian bytes of a number. -/
def leBytes : Nat → Nat → List Byte
  | 0, _ => []
  | n + 1, v => BitVec.ofNat 8 v :: leBytes n (v / 256)

end Sys2Proof.Machine
end

