-- ==== Sys2Proof/Machine/Frames.lean ====
section
/-! DEFINITION. Enxis frames: the header of Table 11.6, both CRCs of R292, opcodes and classes, rank maps and routes
(chapter 12), and the frames the module originates (R298). -/

namespace Sys2Proof.Machine

/-! ## Header and CRCs -/

/-- The 32-byte header as the little-endian integer of its bytes (Table 11.6). -/
def headerBits (f : Frame) : BitVec 256 :=
  f.hcrc ++ f.rsvC ++ f.attr ++ f.ctx ++ f.rsvB ++ f.addr ++ f.flags ++ f.rsvA ++ f.len ++ f.tag ++ f.seq ++ f.src ++ f.dst
    ++ f.epoch ++ f.part ++ f.opc ++ f.vc ++ f.cls ++ f.ver

/-- The little-endian bytes of a word. -/
def bytesOf {w : Nat} (n : Nat) (x : BitVec w) : List Byte := leBytes n x.toNat

/-- One step of CRC-16: the top bit decides whether the polynomial 0x8BB7 is added. -/
def crc16Bit (c : BitVec 16) : BitVec 16 := if c.msb then (c <<< 1) ^^^ 0x8BB7#16 else c <<< 1

/-- `n` applications of a function. -/
def times {α : Type} (f : α → α) : Nat → α → α
  | 0, a => a
  | n + 1, a => times f n (f a)

/-- CRC-16 with polynomial 0x8BB7, initial value 0, no reflection, no final XOR (R292). -/
def crc16 (bs : List Byte) : BitVec 16 :=
  bs.foldl (fun (c : BitVec 16) (b : Byte) => times crc16Bit 8 (c ^^^ ((b.setWidth 16 : BitVec 16) <<< (8 : Nat)))) 0#16

/-- One step of the reflected CRC-32C: the polynomial 0x1EDC6F41 reads 0x82F63B78 reflected. -/
def crc32Bit (c : BitVec 32) : BitVec 32 := if c.getLsbD 0 then (c >>> 1) ^^^ 0x82F63B78#32 else c >>> 1

/-- CRC-32C, reflected, initial value and final XOR all ones (R292). -/
def crc32c (bs : List Byte) : BitVec 32 :=
  bs.foldl (fun (c : BitVec 32) (b : Byte) => times crc32Bit 8 (c ^^^ (b.setWidth 32 : BitVec 32))) 0xFFFFFFFF#32
    ^^^ 0xFFFFFFFF#32

/-- HCRC: CRC-16 over header bytes 0 to 29. -/
def hcrcOf (f : Frame) : BitVec 16 := crc16 ((bytesOf 32 (headerBits f)).take 30)

/-- With its HCRC. -/
def sealHeader (f : Frame) : Frame := { f with hcrc := hcrcOf f }

/-- FLAGS bits (Table 11.7). -/
def flagRf : BitVec 8 := 1#8
def flagPsn : BitVec 8 := 2#8
def flagLast : BitVec 8 := 4#8
def flagRetx : BitVec 8 := 8#8
def flagSync : BitVec 8 := 16#8

/-- A flag is set. -/
def hasFlag (f : Frame) (b : BitVec 8) : Bool := f.flags &&& b != 0#8

/-- ATTR.MC and ATTR.SUB, ATTR.PIN, PATH and SZM1 (Table 11.7). -/
def attrMc (f : Frame) : Bool := f.attr.getLsbD 4
def attrSub (f : Frame) : Bool := f.attr.getLsbD 5
def attrPin (f : Frame) : Bool := f.attr.getLsbD 3
def attrPath (f : Frame) : Nat := (f.attr.extractLsb' 0 3).toNat
def attrSzm1 (f : Frame) : Nat := (f.attr.extractLsb' 6 6).toNat

/-- The frame with the hop-mutable fields zero, as ECRC sees it (R292). -/
def ecrcForm (f : Frame) : Frame :=
  { f with part := 0, epoch := 0, dst := 0, src := 0, flags := f.flags &&& ~~~flagRetx, attr := f.attr &&& ~~~(0xF#16),
           hcrc := 0 }

/-- ECRC: CRC-32C over header and payload (R292). -/
def ecrcOf (f : Frame) : BitVec 32 := crc32c (bytesOf 32 (headerBits (ecrcForm f)) ++ f.data)

/-- A frame's flow. -/
def flowOf (f : Frame) : FlowId := ⟨f.src.toNat, f.dst.toNat, f.cls.toNat⟩

/-- The length of R346: header, payload and trailer. -/
def frameLen (f : Frame) : Nat := f.data.length + 40

/-- Cells a frame occupies (R329). -/
def frameCells (f : Frame) : Nat := (frameLen f + 255) / 256

/-- Credits a frame costs (R296). -/
def frameCredits (f : Frame) : Nat := 1 + f.data.length / 64

/-! ## Opcodes and classes (Tables 8.12, 11.8 and 11.9) -/

def opLd : Nat := 0x01
def opStNp : Nat := 0x02
def opDb : Nat := 0x03
def opSt : Nat := 0x10
def opLdData : Nat := 0x20
def opStRsp : Nat := 0x21
def opDbRsp : Nat := 0x22
def opContrib : Nat := 0x30
def opResult : Nat := 0x31
def opDone : Nat := 0x32
def opMgmt : Nat := 0x50
def opAck : Nat := 0x60
def opNack : Nat := 0x61

def vcReq : Nat := 0
def vcBulk : Nat := 1
def vcFwd : Nat := 2
def vcRsp : Nat := 3
def vcCup : Nat := 4
def vcCdn : Nat := 5
def vcMgmt : Nat := 6
def vcTime : Nat := 7

/-- The class of an opcode; ACK and NACK carry the class of their flow. -/
def classOf (opc : Nat) : Option Nat :=
  if opc = opLd ∨ opc = opStNp ∨ opc = opDb then some vcReq
  else if opc = opSt then some vcBulk
  else if opc = opLdData ∨ opc = opStRsp ∨ opc = opDbRsp then some vcRsp
  else if opc = opContrib then some vcCup
  else if opc = opResult ∨ opc = opDone then some vcCdn
  else if 0x40 ≤ opc ∧ opc ≤ 0x45 then some vcReq
  else if opc = 0x46 ∨ opc = 0x47 then some vcBulk
  else if 0x48 ≤ opc ∧ opc ≤ 0x4A then some vcFwd
  else if 0x4B ≤ opc ∧ opc ≤ 0x4E then some vcRsp
  else if opc = opMgmt then some vcMgmt
  else if 0x62 ≤ opc ∧ opc ≤ 0x65 then some vcTime
  else none

/-- ACK or NACK. -/
def isAckNack (f : Frame) : Bool := f.opc == 0x60#8 || f.opc == 0x61#8

/-- A non-posted request of Table 11.8 or 8.12. -/
def isNonPosted (f : Frame) : Bool := f.cls == 0#3 && !isAckNack f

/-- The payload rules of Table 11.6: LEN bytes, a multiple of 64 up to 4,096; an LD asks for 64 to 4,096 and carries none. -/
def lenOk (f : Frame) : Bool :=
  f.len.toNat ≤ 4096 && f.len.toNat % 64 == 0 &&
    (if f.opc == 0x01#8 then f.data.isEmpty && 64 ≤ f.len.toNat else f.data.length == f.len.toNat)

/-- The class may be sent by a port's peer (Table 11.9); role 0 ENDPOINT, 1 TRAY, 2 SWITCH. -/
def roleSends (role vc : Nat) : Bool :=
  if role = 2 then true
  else if role = 1 then vc == vcRsp || vc == vcMgmt || vc == vcTime
  else vc == vcReq || vc == vcBulk || vc == vcRsp || vc == vcMgmt || vc == vcTime

/-- Every reserved bit of header and trailer is zero. -/
def reservedZero (f : Frame) : Bool :=
  f.rsvA == 0 && f.rsvB == 0 && f.rsvC == 0 && f.rsvT == 0 && f.flags.extractLsb' 5 3 == 0#3 &&
    (f.opc == 0x60#8 || f.attr.extractLsb' 12 4 == 0#4)

/-! ## Rank maps (R305, R318) -/

def slotStaged : Nat := 0
def slotCurrent : Nat := 1
def slotPrevious : Nat := 2

def mapKey (p slot rank : Nat) : Nat := (p * 3 + slot) * 4096 + rank

/-- The endpoint ID of a rank in a map slot; 0 is unmapped. -/
def State.mapped (s : State) (p slot rank : Nat) : Nat := Tab.get 0 s.lp.maps (mapKey p slot rank)

/-- The map slot a live or staged epoch names (R319); epoch 0 names none. -/
def State.epochSlot (s : State) (p e : Nat) : Option Nat :=
  if e = 0 then none
  else if e = s.get LP_EPOCH.CUR p then some slotCurrent
  else if e = s.get LP_EPOCH.PREV p then some slotPrevious
  else if e = s.get LP_EPOCH.STAGED_EPOCH p then some slotStaged
  else none

/-- The ranks of a map slot that hold an ID, in rising order. -/
def State.ranksOf (s : State) (p slot id : Nat) : List Nat :=
  (s.lp.maps.filter fun e => e.1 / 4096 == p * 3 + slot && e.2 == id).map (·.1 % 4096)

/-- The lowest rank that holds an ID in a map slot (R305). -/
def State.rankOf (s : State) (p slot id : Nat) : Option Nat := (s.ranksOf p slot id).head?

/-- MOD_ID holds a valid ID (R306). -/
def validId (id : Nat) : Bool := 1 ≤ id && id ≤ 0xFFEF

/-- LP_CFG.MOD_ID. -/
def State.modId (s : State) : Nat := s.get LP_CFG.MOD_ID

/-! ## Routes (R313, R314, R316) -/

/-- ADAPT and SPRAY_LOG2 of the routing profile (Table 12.5). -/
def State.adapt (s : State) : Bool :=
  match s.get LP_CFG.PROFILE with
  | 0 => s.flag LP_CFG.ADAPT
  | 1 => true
  | _ => false

def State.sprayLog2 (s : State) : Nat :=
  match s.get LP_CFG.PROFILE with
  | 0 => s.get LP_CFG.SPRAY_LOG2
  | 1 => 3
  | _ => 24

/-- A frame that arrived on an UPLINK SWITCH port travels down (R316). -/
def State.travelsDown (s : State) (ingress : Option Nat) : Bool :=
  match ingress with
  | some p => s.get LK_PORT_CFG.ROLE p == 2 && s.get LP_PORT_CFG.DIR p == 0
  | none => false

/-- R316 lets a frame leave by a port. -/
def State.mayLeave (s : State) (ingress : Option Nat) (p : Nat) : Bool :=
  !s.travelsDown ingress || s.get LK_PORT_CFG.ROLE p != 2 || s.get LP_PORT_CFG.DIR p == 1

/-- The path set of a destination (R313). -/
def State.pathSet (s : State) (dst : Nat) (ingress : Option Nat) : List Nat :=
  (Tab.get [] s.lp.routes dst).filter fun p => s.portUp p && s.mayLeave ingress p

/-- The form an egress sends of a stored frame: its own target's header and data, or the stored ones (R164). -/
def BufFrame.formAt (b : BufFrame) (e : Nat) : Frame := ((b.forms.find? fun x => x.1 == e).map (·.2)).getD b.frame

/-- Cells a frame occupies in the shared buffer. -/
def BufFrame.cells (b : BufFrame) : Nat := b.chain.length

/-- Bytes of a partition and VC waiting at an egress (R314). -/
def State.queued (s : State) (egress part vc : Nat) : Nat :=
  (s.sc.frames.filter fun b => b.egress.contains egress && b.frame.part.toNat == part && b.frame.vc.toNat == vc).foldl
    (fun n b => n + frameLen (b.formAt egress)) 0

/-- fold16: XOR of the four 16-bit pieces (R314). -/
def fold16 (k : BitVec 64) : Nat :=
  (k.extractLsb' 0 16 ^^^ k.extractLsb' 16 16 ^^^ k.extractLsb' 32 16 ^^^ k.extractLsb' 48 16).toNat

/-- choose_port of R314; PROFILE STATIC takes the first port of the set (Table 12.5). -/
def State.choosePort (s : State) (f : Frame) (ports : List Nat) : Option Nat :=
  let ports := if s.get LP_CFG.PROFILE = 3 then ports.take 1 else ports
  let n := ports.length
  if n = 0 then none
  else if attrPin f then ports[attrPath f % n]?
  else
    let key : BitVec 64 := BitVec.ofNat 64 (f.src.toNat ||| (f.dst.toNat <<< 16) ||| (f.cls.toNat <<< 32)
      ||| ((f.seq.toNat >>> s.sprayLog2) <<< 35))
    let h := fold16 (key ^^^ BitVec.ofNat 64 (s.get LP_CFG.PATH_SALT)) % n
    let a := (h + 1) % n
    if !s.adapt || n == 1 then ports[h]?
    else if s.queued (ports.getD a 0) f.part.toNat f.vc.toNat < s.queued (ports.getD h 0) f.part.toNat f.vc.toNat then ports[a]?
    else ports[h]?

/-! ## Local egresses (chapter 14) -/

def egFrontEnd : Nat := 512
def egHome : Nat := 513
def egHalfA : Nat := 514
def egHalfB : Nat := 515
def egReduce : Nat := 516
def egTray : Nat := 517

/-- The account of TRAY ports and the tray agent (chapter 13). -/
def acctDev : Nat := 64

/-- The half that serves an address of a partition: that of its first granule. -/
def State.servingHalf (s : State) (part addr : Nat) : Nat :=
  match s.heldSlot part (addr / berthBytes) with
  | some sl => halfOf (s.slotByte sl (addr % berthBytes))
  | none => 0

/-- The local egress a frame for the module itself leaves by: doorbells and answers go to the front end, tally traffic to
the home, loads and stores to the half that holds them, collective frames to the reduce units, tray answers to the tray
agent (log entry 15). -/
def State.localEgress (s : State) (f : Frame) (fromTray : Bool) : Nat :=
  let opc := f.opc.toNat
  if fromTray then egTray
  else if isAckNack f then egFrontEnd
  else if f.cls.toNat = vcCup ∨ f.cls.toNat = vcCdn then egReduce
  else if 0x40 ≤ opc ∧ opc ≤ 0x4E then egHome
  else if f.cls.toNat = vcRsp ∨ f.cls.toNat = vcMgmt ∨ opc = opDb then egFrontEnd
  else if f.addr.extractLsb' 50 2 != 0#2 then egFrontEnd
  else
    match s.heldSlot f.part.toNat (f.addr.toNat / berthBytes) with
    | some sl => if sl.kind = kindTally then egHome else if s.servingHalf f.part.toNat f.addr.toNat = 0 then egHalfA else egHalfB
    | none => egHalfA

/-! ## Origination (R298, R303, R306) -/

/-- A frame the module makes: SEQ, SYNC and the CRCs are set when it is originated. -/
def State.mkFrame (s : State) (opc cls part dst ctx tag addr len : Nat) (flags : BitVec 8) (attr : BitVec 16)
    (data : List Byte) : Frame :=
  { ver := 1, cls := BitVec.ofNat 3 cls, vc := BitVec.ofNat 3 cls, opc := BitVec.ofNat 8 opc, part := BitVec.ofNat 6 part,
    epoch := BitVec.ofNat 8 (s.get LP_EPOCH.CUR part), dst := BitVec.ofNat 16 dst, src := BitVec.ofNat 16 s.modId, seq := 0,
    tag := BitVec.ofNat 20 tag, len := BitVec.ofNat 13 len, rsvA := 0, flags := flags, addr := BitVec.ofNat 52 addr,
    rsvB := 0, ctx := BitVec.ofNat 12 ctx, attr := attr, rsvC := 0, hcrc := 0, data := data, ecrc := 0, hops := 0, ce := 0,
    rsvT := 0 }

/-- A flow out of the module. -/
def State.flowOut (s : State) (id : FlowId) : FlowOut :=
  (s.lk.out.find? (·.id == id)).getD { id := id, nextSeq := 0, syncNext := true, unacked := [] }

/-- Stores a flow out of the module. -/
def State.setFlowOut (s : State) (fl : FlowOut) : State :=
  let out := if s.lk.out.any (·.id == fl.id) then replaceFirst (·.id == fl.id) (fun _ => fl) s.lk.out else s.lk.out ++ [fl]
  { s with lk := { s.lk with out := out } }

/-- Unacknowledged frames the module originated. -/
def State.unackedCount (s : State) : Nat := s.lk.out.foldl (fun n fl => n + fl.unacked.length) 0

/-- A frame without a path is dropped and counted (R313). -/
def State.noRoute (s : State) (f : Frame) : State := s.bump LP_PART_STAT.NOROUTE f.part.toNat 1

/-- Puts a frame of the module into its engine's staging toward its egress (R330, R341): a frame whose DST is the module
itself goes to the local egress of its consumer. -/
def State.stage (s : State) (f : Frame) (acct sub : Nat) (owner : Option Owner) : State :=
  let egress : Option (List Nat) :=
    if attrMc f then some (Tab.get ⟨0, []⟩ s.sc.groups f.dst.toNat).ports
    else if f.dst.toNat = s.modId then some [s.localEgress f false]
    else (s.choosePort f (s.pathSet f.dst.toNat none)).map fun p => [p]
  match egress with
  | none => s.noRoute f
  | some ps =>
    { s with sc := { s.sc with staged := s.sc.staged ++
      [{ frame := f, acct := acct, sub := sub, egress := ps, ingress := none, held := none, owner := owner, forms := [] }] } }

/-- The port an endpoint ID lies behind: the port that carries it, or the first of its route. -/
def State.portOf (s : State) (id : Nat) : Nat :=
  ((s.touched LP_PORT_CFG.EP_ID).find? fun p => s.get LP_PORT_CFG.EP_ID p == id).getD ((Tab.get [] s.lp.routes id).headD 0)

/-- The subscriber of a frame the module makes (R341): the command's context, and for a response, an ACK or a NACK the one
of the frame it answers, taken as 4,096 plus the port its source lies behind (log entry 16). -/
def State.subscriberOf (s : State) (f : Frame) : Nat :=
  if f.cls.toNat = vcRsp || isAckNack f then 4096 + s.portOf f.dst.toNat else f.ctx.toNat

/-- Numbers a frame in its flow and retains it (R298, R303). -/
def State.number (s : State) (f : Frame) (owner : Option Owner) : State × Frame :=
  let fl := s.flowOut (flowOf f)
  let f := { f with seq := BitVec.ofNat 24 fl.nextSeq, flags := if fl.syncNext then f.flags ||| flagSync else f.flags }
  let f := sealHeader { f with ecrc := ecrcOf f }
  let fl := { fl with nextSeq := (fl.nextSeq + 1) % 16777216, syncNext := false,
                      unacked := fl.unacked ++ [{ frame := f, resends := 0, path := 0, owner := owner, sentAt := s.tb.hclk }] }
  (s.setFlowOut fl, f)

/-- Numbers, retains and stages a frame. -/
def State.launch (s : State) (f : Frame) (acct : Nat) (owner : Option Owner) : State :=
  let r := s.number f owner
  r.1.stage r.2 acct (s.subscriberOf r.2) owner

/-- The account of a frame the module originates: DEV for the tray agent's, else its partition's (chapter 13). -/
def State.sendAcct (s : State) (f : Frame) : Nat :=
  if (s.touched LP_PORT_CFG.EP_ID).any fun p => s.get LP_PORT_CFG.EP_ID p == f.dst.toNat && s.get LK_PORT_CFG.ROLE p == 1
  then acctDev else f.part.toNat

/-- Originates a frame: without a valid MOD_ID none is (R306); at 65,536 unacknowledged frames it waits (R298). -/
def State.originate (s : State) (f : Frame) (owner : Option Owner) : State :=
  if !validId s.modId then s
  else if 65536 ≤ s.unackedCount || !s.lk.waiting.isEmpty then
    { s with lk := { s.lk with waiting := s.lk.waiting ++ [(f, owner)] } }
  else s.launch f (s.sendAcct f) owner

/-- Originates several frames in order. -/
def State.originateAll (s : State) (fs : List Frame) (owner : Option Owner) : State := fs.foldl (fun s f => s.originate f owner) s

/-- Launches waiting frames while acknowledgements have freed places (R298). -/
def State.launchWaiting (s : State) : Nat → State
  | 0 => s
  | n + 1 =>
    match s.lk.waiting with
    | [] => s
    | (f, o) :: t =>
      if 65536 ≤ s.unackedCount then s
      else ({ s with lk := { s.lk with waiting := t } }.launch f (s.sendAcct f) o).launchWaiting n

/-! ## Responses and stores -/

/-- A response of the RSP class: it echoes TAG, carries STATUS in CTX[7:0], and goes back to the request's source
(Tables 11.6 and 11.8). -/
def State.respond (s : State) (req : Frame) (opc status : Nat) (flags : BitVec 8) (addr : Nat) (data : List Byte) : State :=
  let f := s.mkFrame opc vcRsp req.part.toNat req.src.toNat status req.tag.toNat addr data.length flags 0 data
  s.originate f none

/-- The response opcode of a non-posted request: LD_DATA, ST_RSP, DB_RSP, DATA, or the grant 0x4E (Tables 11.8, 8.12). -/
def respOpc (opc : Nat) : Nat :=
  if opc = opLd then opLdData
  else if opc = opStNp then opStRsp
  else if opc = opDb then opDbRsp
  else if opc = 0x42 then 0x4C
  else if 0x40 ≤ opc ∧ opc ≤ 0x43 then 0x4B
  else if opc = 0x44 ∨ opc = 0x45 then 0x4E
  else opStRsp

/-- A payload cut into frames: at most `max` bytes, and at every boundary between poisoned and clean sectors (R294):
offset, bytes, PSN. -/
def cutPayload (max : Nat) (p : Payload) : List (Nat × List Byte × Bool) :=
  let n := (p.bytes.length + 63) / 64
  let go := (List.range n).foldl (fun (acc : List (Nat × Nat × Bool)) i =>
      let psn := p.poisoned.contains i
      match acc with
      | (st, k, q) :: t => if q == psn && (k + 1) * 64 ≤ max then (st, k + 1, q) :: t else (i, 1, psn) :: acc
      | [] => [(i, 1, psn)]) []
  go.reverse.map fun x => (x.1 * 64, (p.bytes.drop (x.1 * 64)).take (x.2.1 * 64), x.2.2)

/-- Pads a payload to whole 64-byte sectors. -/
def padSector (bs : List Byte) : List Byte := bs ++ List.replicate ((64 - bs.length % 64) % 64) 0#8

/-- Posted stores of a payload to a rank's endpoint memory from a 64-byte aligned address, cut under R294. -/
def State.storeFrames (s : State) (part ctx dst addr : Nat) (p : Payload) : List Frame :=
  (cutPayload 4096 p).map fun c =>
    let d := padSector c.2.1
    s.mkFrame opSt vcBulk part dst ctx 0 (addr + c.1) d.length (if c.2.2 then flagPsn else 0) 0 d

/-- A store of up to 64 bytes inside one sector: SUB with SZM1 (Table 11.7). -/
def State.subFrame (s : State) (part ctx dst addr : Nat) (bs : List Byte) : Frame :=
  let lo := addr % 64
  let d := (List.replicate lo 0#8 ++ bs ++ List.replicate (64 - lo - bs.length) 0#8).take 64
  s.mkFrame opSt vcBulk part dst ctx 0 addr 64 0 (BitVec.ofNat 16 (32 + (bs.length - 1) * 64)) d

/-- Stores bytes anywhere in a rank's endpoint memory: a partial first or last sector travels as SUB. -/
def State.storeAny (s : State) (part ctx dst addr : Nat) (p : Payload) : List Frame :=
  if addr % 64 = 0 ∧ p.bytes.length % 64 = 0 then s.storeFrames part ctx dst addr p
  else
    (sectorPieces addr p.bytes.length).foldl (fun (acc : List Frame × Nat) q =>
      let bs := (p.bytes.drop acc.2).take q.2.2
      let psn := p.poisoned.any fun k => acc.2 / 64 ≤ k && k ≤ (acc.2 + q.2.2 - 1) / 64
      let f := s.subFrame part ctx dst (q.1 * 64 + q.2.1) bs
      (acc.1 ++ [{ f with flags := if psn then flagPsn else 0, attr := if q.2.2 = 64 then 0 else f.attr }],
        acc.2 + q.2.2)) ([], 0) |>.1

/-- Some frame of an owner is not acknowledged yet (R25). -/
def State.ownerUnacked (s : State) (o : Owner) : Bool :=
  s.lk.out.any (fun fl => fl.unacked.any (·.owner == some o)) || s.lk.waiting.any (·.2 == some o)

/-- The endpoint ID a rank of a partition has in the current epoch; 0 is unmapped. -/
def State.rankId (s : State) (part rank : Nat) : Nat := s.mapped part slotCurrent rank

end Sys2Proof.Machine
end

