-- ==== Sys2Proof/Machine/Delivery.lean ====
section
/-! DEFINITION. End-to-end delivery (R298 to R303), the checks and stamps of the landing stage (R295, R308 to R321), the
resequencers (R335, R336) and the rows of frames in transit. -/

namespace Sys2Proof.Machine

/-! ## Sequence numbers -/

/-- SEQ `a` is at or before SEQ `b` (R298). -/
def seqLe (a b : Nat) : Bool := (b + 16777216 - a) % 16777216 < 8388608

/-- The SEQ after `a`. -/
def seqNext (a : Nat) : Nat := (a + 1) % 16777216

/-! ## Ports and the credits of their input buffers (R296) -/

/-- A port whose PARAM has not run. -/
def Port.reset : Port :=
  { step := 0, attempts := 0, uid := 0, resv := List.replicate 8 0, floor := List.replicate 8 0, pool := 0, poolUse := [],
    taken := [], counts := List.replicate 8 0, freed := List.replicate 8 0, repair := none, peerSpare := false, pages := 0,
    agreed := 0, waiting := [], tx := { number := 0, start := none, bytes := [] }, rx := { skip := false, frame := [] } }

/-- A port beyond its registers. -/
def State.port (s : State) (p : Nat) : Port := (Tab.find s.lk.ports p).getD Port.reset

/-- Stores a port. -/
def State.setPort (s : State) (p : Nat) (x : Port) : State := { s with lk := { s.lk with ports := Tab.put s.lk.ports p x } }

/-- Credits the waiting frames of one port and VC hold. -/
def heldCredits (l : List Staged) (port vc : Nat) : Nat :=
  (l.filter fun x => x.ingress == some port && x.frame.vc.toNat == vc).foldl (fun n x => n + frameCredits x.frame) 0

/-- What a port adds to its cumulative counts of freed credits, by VC. -/
def State.addFreed (s : State) (p : Nat) (n : Nat → Nat) : State :=
  let x := s.port p
  s.setPort p { x with freed := (List.range 8).map fun v => (x.freed.getD v 0 + n v) % 65536 }

/-- The credits of a frame that enters the shared buffer return to its port's peer (R296). -/
def State.freeCredits (s : State) (ingress : Option Nat) (f : Frame) : State :=
  match ingress with
  | none => s
  | some p => s.addFreed p fun v => if v = f.vc.toNat then frameCredits f else 0

/-- Frames that stood in input buffers in `before` and stand there no longer were dropped: their credits return (R296). -/
def State.returnCredits (s : State) (before : List Staged) : State :=
  (before.filterMap (·.ingress)).eraseDups.foldl (fun t p =>
    let n (v : Nat) : Nat := heldCredits before p v - heldCredits s.sc.staged p v
    if (List.range 8).all fun v => n v == 0 then t else t.addFreed p n) s

/-! ## Acknowledgements -/

/-- An ACK or NACK of a flow the module is the destination of: VC7 with the flow's CLASS, outside every flow (Table 11.8). -/
def State.ackFrame (s : State) (fl : FlowIn) (opc seq ce : Nat) : Frame :=
  let f := s.mkFrame opc fl.id.cls fl.part fl.id.src 0 0 0 0 0 (BitVec.ofNat 16 (ce * 4096)) []
  let f := { f with vc := 7, seq := BitVec.ofNat 24 seq }
  sealHeader { f with ecrc := ecrcOf f }

/-- Sends an ACK naming the highest SEQ passed on, with the highest CE it covers (R300). -/
def State.sendAck (s : State) (fl : FlowIn) : State :=
  let f := s.ackFrame fl opAck fl.passed fl.maxCe
  s.stage f f.part.toNat (s.subscriberOf f) none

/-- A flow into the module. -/
def State.flowIn (s : State) (id : FlowId) : Option FlowIn := s.lk.inn.find? (·.id == id)

/-- Stores a flow into the module. -/
def State.setFlowIn (s : State) (fl : FlowIn) : State :=
  let inn := if s.lk.inn.any (·.id == fl.id) then replaceFirst (·.id == fl.id) (fun _ => fl) s.lk.inn else s.lk.inn ++ [fl]
  { s with lk := { s.lk with inn := inn } }

/-- Sends the flow's ACK and clears what it owed. -/
def State.ackNow (s : State) (fl : FlowIn) : State :=
  (s.sendAck fl).setFlowIn { fl with sinceAck := 0, owes := false, maxCe := 0 }

/-! ## Staging and releasing held frames -/

/-- The account of a frame that entered by a port (chapter 13). -/
def State.accountOf (s : State) (port : Nat) (f : Frame) : Nat :=
  if s.get LK_PORT_CFG.ROLE port = 1 then acctDev else f.part.toNat

/-- Puts a transit frame into the staging of its port die. -/
def State.stageIn (s : State) (port : Nat) (f : Frame) (egress : List Nat) (held : Option ReseqPoint) : State :=
  { s with sc := { s.sc with staged := s.sc.staged ++
    [{ frame := f, acct := s.accountOf port f, sub := 4096 + port, egress := egress, ingress := some port, held := held,
       owner := none, forms := [] }] } }

/-- A frame of a flow held at a point, in staging or in the buffer. -/
def heldAt (pt : ReseqPoint) (id : FlowId) (f : Frame) (h : Option ReseqPoint) : Bool := h == some pt && flowOf f == id

/-- SEQs a point holds of a flow. -/
def State.heldSeqs (s : State) (pt : ReseqPoint) (id : FlowId) : List Nat :=
  (s.sc.staged.filter fun x => heldAt pt id x.frame x.held).map (·.frame.seq.toNat) ++
  (s.sc.frames.filter fun x => heldAt pt id x.frame x.held).map (·.frame.seq.toNat)

/-- Passes on the held frames of a flow that `go` picks. -/
def State.releaseHeld (s : State) (pt : ReseqPoint) (id : FlowId) (go : Nat → Bool) : State :=
  { s with sc := { s.sc with
      staged := s.sc.staged.map fun x => if heldAt pt id x.frame x.held && go x.frame.seq.toNat then { x with held := none } else x,
      frames := s.sc.frames.map fun x => if heldAt pt id x.frame x.held && go x.frame.seq.toNat then { x with held := none } else x } }

/-- How far held frames run in sequence from `seq`, in at most `n` steps. -/
def runOn (held : List Nat) : Nat → Nat → Nat
  | 0, seq => seq
  | n + 1, seq => if held.contains (seqNext seq) then runOn held n (seqNext seq) else seq

/-! ## Cells and bank groups (R326 to R332) -/

/-- Banks that serve a group: those of the group that are ACTIVE, and ACTIVE spares mapped into it (Table 13.10). -/
def State.groupBanks (s : State) (g : Nat) : Nat :=
  ((List.range 4).filter fun k => s.get SC_BANK_STATUS.STATE (4 * g + k) == 0).length +
    ((List.range 10).filter fun k => s.get SC_BANK_STATUS.STATE (512 + k) == 0 && s.get SC_BANK_STATUS.GROUP (512 + k) == g).length

/-- A group is out of service: one of its four banks is DRAINING or RETIRED and no spare has taken its place (R328). -/
def State.groupClosed (s : State) (g : Nat) : Bool := s.groupBanks g < 4

/-- Groups out of service. -/
def State.closedGroups (s : State) : List Nat :=
  (((s.touched SC_BANK_STATUS.STATE).filter fun b => 2 ≤ s.get SC_BANK_STATUS.STATE b).map
    fun b => s.get SC_BANK_STATUS.GROUP b).eraseDups.filter s.groupClosed

/-- A bank of the group is still DRAINING. -/
def State.groupDrains (s : State) (g : Nat) : Bool :=
  (s.touched SC_BANK_STATUS.STATE).any fun b => s.get SC_BANK_STATUS.STATE b == 2 && s.get SC_BANK_STATUS.GROUP b == g

/-- Groups that are out of service for good (R330). -/
def State.lostGroups (s : State) : List Nat := s.closedGroups.filter fun g => !s.groupDrains g

/-- Cells of a list that lie in groups in service. -/
def State.openCells (s : State) (l : List Nat) : Nat := (l.filter fun c => !s.groupClosed (c / 4096)).length

/-- The first `n` cells from `c` on that are neither used nor in a closed group, in at most `k` trials. -/
def pickCells (used : List Nat) (closed : Nat → Bool) : Nat → Nat → Nat → List Nat
  | 0, _, _ => []
  | k + 1, c, n =>
    if n = 0 ∨ 524288 ≤ c then []
    else if closed (c / 4096) then pickCells used closed k ((c / 4096 + 1) * 4096) n
    else if used.contains c then pickCells used closed k (c + 1) n
    else c :: pickCells used closed k (c + 1) (n - 1)

/-- Cells that are not on the free list: those of frames, and those the last audit pass found unmarked. -/
def State.cellsUsed (s : State) : List Nat := s.sc.frames.flatMap (·.chain) ++ s.sc.unmarked

/-- The cells a frame of `n` cells is written to: the lowest that are free (log entry 94). -/
def State.allocate (s : State) (n : Nat) : List Nat :=
  let used := s.cellsUsed
  pickCells used s.groupClosed (n + used.length + 129) 0 n

/-- The registers that show an account's cells follow a frame that takes its chain. -/
def State.takeCells (s : State) (acct : Nat) (chain : List Nat) (shared : Bool) : State :=
  let used := s.get SC_PART_OCC.USED acct + chain.length
  let s := (s.put SC_PART_OCC.USED acct used).put SC_PART_OCC.HWM acct (max used (s.get SC_PART_OCC.HWM acct))
  if shared then s.put SC_STATUS.FREE_CELLS 0 (s.get SC_STATUS.FREE_CELLS - chain.length) else s

/-- Returns a chain to the free list; the cells of a group out of service stay out of it (R328, R332). -/
def State.freeCells (s : State) (acct : Nat) (chain : List Nat) (shared : Bool) : State :=
  let s := s.put SC_PART_OCC.USED acct (s.get SC_PART_OCC.USED acct - chain.length)
  if shared then s.put SC_STATUS.FREE_CELLS 0 (s.get SC_STATUS.FREE_CELLS + s.openCells chain) else s

/-- The lowest spare bank, if one is left (R328). -/
def State.spareBank (s : State) : Option Nat := (List.range 10).map (· + 512) |>.find? fun b => s.get SC_BANK_STATUS.STATE b == 1

/-- GROUPS_OUT follows the groups. -/
def State.syncGroups (s : State) : State := s.put SC_STATUS.GROUPS_OUT 0 s.closedGroups.length

/-- A group is empty, so its DRAINING bank is retired: a spare is mapped into the group, which returns to service when it is whole
again; with no spare it stays out of service (R328, R371). -/
def State.bankDrained (s : State) (bank : Nat) : State :=
  let grp := s.get SC_BANK_STATUS.GROUP bank
  let s := s.put SC_BANK_STATUS.STATE bank 3
  match s.spareBank with
  | some sp =>
    let s := (s.put SC_BANK_STATUS.STATE sp 0).put SC_BANK_STATUS.GROUP sp grp
    (if s.groupClosed grp then s else s.put SC_STATUS.FREE_CELLS 0 (s.get SC_STATUS.FREE_CELLS + 4096)).syncGroups
  | none => s.syncGroups.degrade

/-- A frame has cells in a group. -/
def State.groupHolds (s : State) (g : Nat) : Bool := s.sc.frames.any fun b => b.chain.any fun c => c / 4096 == g

/-- The DRAINING banks whose groups have emptied are retired. -/
def State.finishDrains (s : State) : State :=
  ((s.touched SC_BANK_STATUS.STATE).filter fun b => s.get SC_BANK_STATUS.STATE b == 2 &&
    !s.groupHolds (s.get SC_BANK_STATUS.GROUP b)).foldl State.bankDrained s

/-- A bank is retired: the allocator leaves its group, which loses its free cells, and the frames that occupy it leave as they would
(R328). -/
def State.retireBank (s : State) (bank : Nat) : State :=
  let grp := s.get SC_BANK_STATUS.GROUP bank
  let held := ((s.sc.frames.filter (·.shared)).flatMap (·.chain)).filter fun c => c / 4096 == grp
  let n := if s.groupClosed grp then 0 else 4096 - held.length
  let s := (s.put SC_BANK_STATUS.STATE bank 2).log { cause := .bankRetire, loc := bank }
  (s.put SC_STATUS.FREE_CELLS 0 (s.get SC_STATUS.FREE_CELLS - n)).syncGroups.finishDrains

/-! ## Queues and high-water marks -/

/-- Service index of a frame: 8 × PART + VC (Table 14.1). -/
def serviceOf (f : Frame) : Nat := 8 * f.part.toNat + f.vc.toNat

def svcKey (e svc : Nat) : Nat := e * 512 + svc
def subKey (e svc sub : Nat) : Nat := (e * 512 + svc) * 4608 + sub

/-- A queue or service that has never been served. -/
def Tag.reset : Tag := ⟨0, true⟩

/-- Sojourn high-water marks of a service and a port, in 8 ns units of 9.6 HCLK cycles (R357). -/
def State.markSojourn (s : State) (egress : Nat) (b : BufFrame) : State :=
  let n := (s.tb.hclk - b.admitted) * 5 / 48
  let svc := serviceOf b.frame
  let s := s.put TM_SVC_HWM.SOJ_HWM svc (min (max n (s.get TM_SVC_HWM.SOJ_HWM svc)) 4294967295)
  if 512 ≤ egress then s else s.put TM_PORT_STAT.SOJ_HWM egress (min (max n (s.get TM_PORT_STAT.SOJ_HWM egress)) 16777215)

/-- Subscriber queues in use: one per subscriber, service and egress with a frame that is not held (R342). -/
def State.queues (s : State) : List (Nat × Nat × Nat) :=
  (s.sc.frames.filter (·.held.isNone)).foldl (fun acc b => b.egress.foldl (fun acc e =>
    let k := (e, serviceOf b.frame, b.sub)
    if acc.contains k then acc else k :: acc) acc) []

/-- FQ_USED and the resequencing contexts follow the buffer (Tables 13.8, 13.13 and 14.13). -/
def State.contexts (s : State) : List (ReseqPoint × FlowId × Nat) :=
  (s.sc.staged.map (fun x => (x.held, x.frame)) ++ s.sc.frames.map (fun x => (x.held, x.frame))).foldl (fun acc x =>
    match x.1 with
    | some pt => let k := (pt, flowOf x.2, x.2.part.toNat); if acc.contains k then acc else k :: acc
    | none => acc) []

/-- Tags of queues and services that hold no frame wake when they next become backlogged (R348). -/
def wakeEmpty (live : List Nat) (t : Tab Tag) : Tab Tag :=
  (t.map fun x => if live.contains x.1 then x else (x.1, { x.2 with woken := true })).filter fun x => x.2 != Tag.reset

/-- What follows every change of the buffer: groups that have emptied are refilled, tags of emptied queues wake, and the status
fields count queues and contexts. -/
def State.syncBuffer (s : State) : State :=
  let s := s.finishDrains
  let cs := s.contexts
  let qs := s.queues
  let tm := { s.tm with svcTag := wakeEmpty (qs.map fun q => svcKey q.1 q.2.1) s.tm.svcTag,
                        subTag := wakeEmpty (qs.map fun q => subKey q.1 q.2.1 q.2.2) s.tm.subTag }
  let s := { s with tm := tm }
  let s := (s.put TM_STATUS.FQ_USED 0 s.queues.length).put SC_STATUS.RESEQ_CTX 0 cs.length
  (s.touched SC_PART_OCC.CTX ++ cs.map (·.2.2)).foldl (fun s p =>
    s.put SC_PART_OCC.CTX p (cs.filter (·.2.2 == p)).length) s

/-- A frame leaves the buffer without being sent: its cells return, whatever the reason (R332), and the marks cover it where it was
queued (R357). -/
def State.dropFrame (s : State) (fid : Nat) : State :=
  match s.sc.frames.find? (·.fid == fid) with
  | none => s
  | some b =>
    let s := if b.held.isSome then s else b.egress.foldl (fun s e => s.markSojourn e b) s
    ({ s with sc := { s.sc with frames := s.sc.frames.filter (·.fid != fid) } }).freeCells b.acct b.chain b.shared

/-- Drops every frame that `p` picks from the buffer, and those that `q` picks from staging. -/
def State.dropFrames (s : State) (p : BufFrame → Bool) (q : Staged → Bool) : State :=
  let s := (s.sc.frames.filter p).foldl (fun s b => s.dropFrame b.fid) s
  ({ s with sc := { s.sc with staged := s.sc.staged.filter (fun x => !q x) } }.returnCredits s.sc.staged).syncBuffer

/-- Releases the reference one egress holds on each frame `p` picks; the marks cover those that were queued (R332, R334, R357). -/
def State.releaseEgress (s : State) (egress : Nat) (p : BufFrame → Bool) : State :=
  let s := (s.sc.frames.filter fun b => p b && b.held.isNone && b.egress.contains egress).foldl
    (fun s b => s.markSojourn egress b) s
  let fs := s.sc.frames.map fun b => if p b then { b with egress := b.egress.filter (· != egress) } else b
  let gone := fs.filter (·.egress.isEmpty)
  let s := { s with sc := { s.sc with frames := fs } }
  (gone.foldl (fun s b => s.dropFrame b.fid) s).syncBuffer

/-! ## Resequencers (R335, R336) -/

/-- What a resequencer does with an arriving frame. -/
inductive Reseq where
  | pass
  | hold
  | duplicate
  | discard
  | restart
  deriving DecidableEq, Repr

/-- A resequencing context is free for a flow: it already has one, or neither limit of R336 is reached. -/
def State.contextFree (s : State) (pt : ReseqPoint) (id : FlowId) (part : Nat) : Bool :=
  let cs := s.contexts
  cs.any (fun c => c.1 == pt && c.2.1 == id) || (cs.length < 32768 && (cs.filter (·.2.2 == part)).length < 512)

/-- The table of R335 for a frame at a point whose passed point is `passed`, `start` the SEQ of the last SYNC seen there: a
retransmitted copy of that SYNC frame is a resend (log entry 17). -/
def State.resequence (s : State) (pt : ReseqPoint) (f : Frame) (passed : Option Nat) (start : Option Nat) : Reseq :=
  let seq := f.seq.toNat
  let id := flowOf f
  if hasFlag f flagSync && !(hasFlag f flagRetx && start == some seq) then .restart
  else match passed with
    | none => match pt with
      | .egress _ => .pass
      | .delivery => .discard
    | some p =>
      if seq == seqNext p then .pass
      else if seqLe seq p then .duplicate
      else if (s.heldSeqs pt id).contains seq then .duplicate
      else if (seq + 16777216 - p) % 16777216 ≤ s.get SC_CFG.HOLD_WIN && s.contextFree pt id f.part.toNat then .hold
      else .discard

/-- The passed point of a flow at an ENDPOINT egress. -/
def State.passedPoint (s : State) (port : Nat) (id : FlowId) : Option Nat :=
  (s.sc.passed.find? fun x => x.port == port && x.flow == id).map (·.passed)

/-- Sets a passed point; the table holds 65,536 flows (R336). -/
def State.setPassed (s : State) (port : Nat) (id : FlowId) (seq : Nat) : State :=
  let hit (x : Passed) : Bool := x.port == port && x.flow == id
  if s.sc.passed.any hit then
    { s with sc := { s.sc with passed := replaceFirst hit (fun x => { x with passed := seq }) s.sc.passed } }
  else if s.sc.passed.length < 65536 then
    { s with sc := { s.sc with passed := s.sc.passed ++ [⟨port, id, seq⟩] } }
  else s

/-- Discards the held frames of a flow at a point. -/
def State.discardHeld (s : State) (pt : ReseqPoint) (id : FlowId) : State :=
  s.dropFrames (fun b => heldAt pt id b.frame b.held) (fun x => heldAt pt id x.frame x.held)

/-- A frame at an ENDPOINT egress (R335): a resend is passed on, and a copy of a frame that is held is held with it. -/
def State.atEndpoint (s : State) (port eg : Nat) (f : Frame) : State :=
  let pt := ReseqPoint.egress eg
  let id := flowOf f
  let seq := f.seq.toNat
  match s.resequence pt f (s.passedPoint eg id) none with
  | .restart => ((s.discardHeld pt id).setPassed eg id seq).stageIn port f [eg] none
  | .pass =>
    let last := runOn (s.heldSeqs pt id) 32768 seq
    (((s.releaseHeld pt id fun q => seqLe seq q && seqLe q last).setPassed eg id last).stageIn port f [eg] none).syncBuffer
  | .duplicate => if (s.heldSeqs pt id).contains seq then (s.stageIn port f [eg] (some pt)).syncBuffer else s.stageIn port f [eg] none
  | .hold => (s.stageIn port f [eg] (some pt)).syncBuffer
  | .discard => s.bump SC_PART_DROP.RESEQ (s.accountOf port f) 1

/-- Passes a frame on to its consumer behind a local egress, and acknowledges after ACK_N frames (R299, R300). -/
def State.deliverLocal (s : State) (port : Nat) (f : Frame) (fl : FlowIn) : State :=
  let pt := ReseqPoint.delivery
  let last := runOn (s.heldSeqs pt fl.id) 32768 f.seq.toNat
  let n := (last + 16777216 - f.seq.toNat) % 16777216 + 1
  let fl := { fl with passed := last, sinceAck := fl.sinceAck + n, maxCe := max fl.maxCe f.ce.toNat,
                      part := f.part.toNat, epoch := f.epoch.toNat }
  let s := (s.releaseHeld pt fl.id fun q => seqLe f.seq.toNat q && seqLe q last).stageIn port f
    [s.localEgress f (s.get LK_PORT_CFG.ROLE port == 1)] none
  let s := if s.get LK_E2E_CFG.ACK_N ≤ fl.sinceAck then s.ackNow fl else s.setFlowIn fl
  s.syncBuffer

/-- A frame whose DST is the module, at local delivery (R299, R302, R303, R335). -/
def State.atModule (s : State) (port : Nat) (f : Frame) : State :=
  let id := flowOf f
  let pt := ReseqPoint.delivery
  let fl := (s.flowIn id).getD { id := id, start := none, passed := 0, held := [], sinceAck := 0, owes := false, maxCe := 0,
                                 part := f.part.toNat, epoch := f.epoch.toNat }
  match s.resequence pt f (fl.start.map fun _ => fl.passed) fl.start with
  | .restart => (s.discardHeld pt id).deliverLocal port f { fl with start := some f.seq.toNat }
  | .pass => s.deliverLocal port f fl
  | .duplicate => s.setFlowIn { fl with owes := true }
  | .hold => (s.stageIn port f [s.localEgress f (s.get LK_PORT_CFG.ROLE port == 1)] (some pt)).syncBuffer
  | .discard => if fl.start.isNone then s else s.bump SC_PART_DROP.RESEQ (s.accountOf port f) 1

/-! ## Ingress (R295, R308 to R313, R319, R321) -/

/-- Credits a port's staged frames of one VC hold. -/
def State.stagedCredits (s : State) (port vc : Nat) : Nat := heldCredits s.sc.staged port vc

/-- The peer had credits for a frame: 32 reserved and 33 floor per VC, and 1,784 in common (R287, R295 check 8, R296). -/
def State.creditsOk (s : State) (port : Nat) (f : Frame) : Bool :=
  (List.range 8).foldl (fun n v =>
    n + ((s.stagedCredits port v + if v = f.vc.toNat then frameCredits f else 0) - 65)) 0 ≤ 1784

/-- Checks 2 to 9 of R295. -/
def State.protoOk (s : State) (port : Nat) (f : Frame) : Bool :=
  f.ver == 1#4 && lenOk f && (f.cls == f.vc || (isAckNack f && f.vc == 7#3)) &&
    (isAckNack f || classOf f.opc.toNat == some f.cls.toNat) && roleSends (s.get LK_PORT_CFG.ROLE port) f.vc.toNat &&
    f.hops.toNat < 6 && s.creditsOk port f && reservedZero f

/-- An answer made by the landing stage for a frame that goes no further. It carries the frame's TAG and SEQ and belongs to
no flow (R321, log entry 18). -/
def State.answerDropped (s : State) (f : Frame) (status : Nat) : State :=
  let g := s.mkFrame (respOpc f.opc.toNat) vcRsp f.part.toNat f.src.toNat status f.tag.toNat f.addr.toNat 0 flagLast 0 []
  let g := { g with seq := f.seq }
  let g := sealHeader { g with ecrc := ecrcOf g }
  if validId s.modId then s.stage g g.part.toNat (s.subscriberOf g) none else s

/-- STATUS values of Table 2.10 that frames carry. -/
def stEpochRetired : Nat := 0x08
def stPathFatal : Nat := 0x0E

/-- A late frame is dropped, counted and returned EPOCH_RETIRED (R321). -/
def State.late (s : State) (f : Frame) : State :=
  let s := s.bump LP_PART_STAT.LATE f.part.toNat 1
  if isAckNack f then s
  else if f.cls.toNat = vcReq ∨ f.cls.toNat = vcBulk ∨ f.cls.toNat = vcCup ∨ f.cls.toNat = vcCdn then
    s.answerDropped f stEpochRetired
  else s

/-- Records the highest SEQ a flow was stamped with in an epoch (R320). -/
def State.noteStamped (s : State) (f : Frame) : State :=
  let id := flowOf f
  let hit (x : StampedFlow) : Bool := x.flow == id && x.part == f.part.toNat && x.epoch == f.epoch.toNat
  let q := f.seq.toNat
  let l := if s.lp.stamped.any hit then
      replaceFirst hit (fun x => { x with high := if seqLe x.high q then q else x.high }) s.lp.stamped
    else s.lp.stamped ++ [⟨id, f.part.toNat, f.epoch.toNat, q⟩]
  { s with lp := { s.lp with stamped := l } }

/-- An ACK that passes back to a flow's source covers what was stamped (R320). -/
def State.ackPasses (s : State) (f : Frame) : State :=
  if f.opc != 0x60#8 then s
  else
    let id : FlowId := ⟨f.dst.toNat, f.src.toNat, f.cls.toNat⟩
    { s with lp := { s.lp with stamped := s.lp.stamped.filter fun x => !(x.flow == id && seqLe x.high f.seq.toNat) } }

/-- The in-flight count of PREVIOUS (R320). -/
def State.prevInflight (s : State) (p : Nat) : Nat :=
  let e := s.get LP_EPOCH.PREV p
  if e = 0 then 0
  else (s.lp.stamped.filter fun x => x.part == p && x.epoch == e).length +
    s.lk.out.foldl (fun n fl => n + (fl.unacked.filter fun x => x.frame.part.toNat == p && x.frame.epoch.toNat == e).length) 0

/-- A frame that may not leave by a fenced port: dropped, counted, and a non-posted request is answered PATH_FATAL (R323). -/
def State.fenceDrop (s : State) (f : Frame) : State :=
  let s := s.bump LP_PART_STAT.FENCED f.part.toNat 1
  if isNonPosted f then s.answerDropped f stPathFatal else s

/-- A frame on its way to a port: a SWITCH port takes it as it is; a TRAY port exchanges frames with the tray agent only, so the frame
is dropped (R311, log entry 94); an ENDPOINT port takes it only in a live epoch, in its own partition and from a rank of that
epoch, through its resequencer (R310, R319, R335). -/
def State.toPort (s : State) (port eg : Nat) (f : Frame) : State :=
  if s.flag LP_PORT_CFG.FENCE eg then s.fenceDrop f
  else if s.get LK_PORT_CFG.ROLE eg == 1 then s
  else if s.get LK_PORT_CFG.ROLE eg != 0 then s.stageIn port f [eg] none
  else match s.epochSlot f.part.toNat f.epoch.toNat with
    | none => s.late f
    | some sl =>
      if f.part.toNat != s.get LP_PORT_CFG.PART eg || (s.rankOf f.part.toNat sl f.src.toNat).isNone then
        s.bump LP_PART_STAT.STAMP f.part.toNat 1
      else if isAckNack f then (s.ackPasses f).stageIn port f [eg] none
      else s.atEndpoint port eg f

/-- Routes a stamped frame: a multicast frame to the reduce units of a module with an entry of its group, which forward it, and
else through the multicast group (R168, R169, R334); a frame for the module itself to it; any other by DST's route (R313). -/
def State.routeFrame (s : State) (port : Nat) (f : Frame) : State :=
  if attrMc f then
    let g := f.addr.toNat % 1024
    if 2 ≤ s.get RU_GRP_CFG.STATE g && s.get RU_GRP_CFG.PART g == f.part.toNat then
      if f.ecrc != ecrcOf f then s.bump LK_PORT_ERR.ECRC port 1 else s.stageIn port f [egReduce] none
    else
      let ps := (Tab.get ⟨0, []⟩ s.sc.groups f.dst.toNat).ports.filter fun p =>
        s.portUp p && !s.flag LP_PORT_CFG.FENCE p && s.mayLeave (some port) p
      if ps.isEmpty then s else s.stageIn port f ps none
  else if f.dst.toNat = s.modId then
    if !validId s.modId then s
    else if s.get LK_PORT_CFG.ROLE port != 1 && (s.epochSlot f.part.toNat f.epoch.toNat).isNone then s.late f
    else if f.ecrc != ecrcOf f then s.bump LK_PORT_ERR.ECRC port 1
    else if isAckNack f then s.stageIn port f [s.localEgress f false] none
    else s.atModule port f
  else match s.choosePort f (s.pathSet f.dst.toNat (some port)) with
    | none => s.noRoute f
    | some eg => s.toPort port eg f

/-- A frame that arrived on an ENDPOINT port: Table 12.1, then the stamp of R309. -/
def State.fromEndpoint (s : State) (port : Nat) (f : Frame) : State :=
  let p := s.get LP_PORT_CFG.PART port
  let st : Frame := { f with part := BitVec.ofNat 6 p, epoch := BitVec.ofNat 8 (s.get LP_EPOCH.CUR p),
                             src := BitVec.ofNat 16 (s.get LP_PORT_CFG.EP_ID port) }
  let id := s.mapped p slotCurrent (f.dst.toNat % 4096)
  if s.flag LP_PORT_CFG.FENCE port then s.fenceDrop st
  else if f.part != 0 || f.epoch != 0 || f.src != 0 || 4096 ≤ f.dst.toNat || attrMc f then s.bump LP_PART_STAT.STAMP p 1
  else if id = 0 then
    let s := s.bump LP_PART_STAT.UNMAPPED p 1
    if isNonPosted f then s.answerDropped st stEpochRetired else s
  else if f.cls.toNat = vcMgmt then s.bump LP_PART_STAT.STAMP p 1
  else
    let g := sealHeader { st with dst := BitVec.ofNat 16 id }
    (if isAckNack g then s else s.noteStamped g).routeFrame port g

/-- What the receive side of a port's PCS found: a whole frame, behind which it goes on, or a header it could not use, after which it
skips to the next FSTART (R283, R284). -/
def State.pcsFound (s : State) (p : Nat) (ok : Bool) : State :=
  match Tab.find s.lk.ports p with
  | some x => { s with lk := { s.lk with ports := Tab.put s.lk.ports p { x with rx := { skip := !ok, frame := [] } } } }
  | none => s

/-- A frame whose HCRC and VER hold is checked, stamped, routed and queued for admission (R295, R313). -/
def State.takeFrame (s : State) (port : Nat) (f : Frame) : State :=
  if !s.protoOk port f then s.bump LK_PORT_ERR.PROTO port 1
  else
    let f := { f with hops := f.hops + 1 }
    match s.get LK_PORT_CFG.ROLE port with
    | 0 => s.fromEndpoint port f
    | 1 => if f.dst.toNat = s.modId then s.routeFrame port f else s
    | _ => s.routeFrame port f

/-- FRAME_FORWARD: an arriving frame goes on to staging, or is dropped and its credits return. Those of a frame whose HCRC fails do
not, since its VC cannot be read (log entry 94). Link-local and TIME frames have rows of their own (R295, R296, R313). -/
def State.forward (s : State) (port : Nat) (f : Frame) : State :=
  if !s.portUp port then s
  else
    let s := s.pcsFound port (f.hcrc == hcrcOf f && f.ver == 1#4)
    if f.hcrc != hcrcOf f then s.bump LK_PORT_ERR.HCRC port 1
    else if f.cls.toNat = vcTime && !isAckNack f then (if s.protoOk port f then s else s.bump LK_PORT_ERR.PROTO port 1)
    else
      let x : Staged := { frame := f, acct := 0, sub := 0, egress := [], ingress := some port, held := none, owner := none, forms := [] }
      (s.takeFrame port f).returnCredits (s.sc.staged ++ [x])

/-- FRAME_FORWARD (R313). -/
def execFrameForward (port : Nat) (f : Frame) (s : State) : Host.Outcome State Fault Refusal :=
  .next (whenUp s fun s => s.forward port f)

/-- RESEQ_GAP_TIMEOUT: an ENDPOINT egress passes its held frames on in SEQ order, local delivery discards them; the context
is freed (R336). -/
def execReseqGapTimeout (point : ReseqPoint) (flow : FlowId) (s : State) : Host.Outcome State Fault Refusal :=
  .next (whenUp s fun s =>
    let held := s.heldSeqs point flow
    if held.isEmpty then s
    else match point with
      | .egress p =>
        let last := held.foldl (fun m q => if seqLe m q then q else m) (held.headD 0)
        ((s.releaseHeld point flow fun _ => true).setPassed p flow last).syncBuffer
      | .delivery => s.discardHeld point flow)

/-- RESEQ_FLOW_EVICT: an egress flow idle for 1 ms leaves the table of passed points (R336). -/
def execReseqFlowEvict (port : Nat) (flow : FlowId) (s : State) : Host.Outcome State Fault Refusal :=
  .next (whenUp s fun s =>
    { s with sc := { s.sc with passed := s.sc.passed.filter fun x => !(x.port == port && x.flow == flow) } })

/-! ## The module as a source (R298, R300 to R303) -/

/-- Removes frames at or before a SEQ from a flow's retained frames. -/
def ackedOff (seq : Nat) (l : List Sent) : List Sent := l.filter fun x => !seqLe x.frame.seq.toNat seq

/-- An ACK frees the flow's frames up to its SEQ; an older ACK frees nothing (R300). -/
def State.acked (s : State) (id : FlowId) (seq : Nat) : State :=
  match s.lk.out.find? (·.id == id) with
  | none => s
  | some fl => (s.setFlowOut { fl with unacked := ackedOff seq fl.unacked }).launchWaiting s.lk.waiting.length

/-- Resends a retained frame on its path: RETX set, counted, its timer restarted (R302). -/
def State.resend (s : State) (x : Sent) : State :=
  let pin := x.path != 0
  let attr := (x.frame.attr &&& ~~~(0xF#16)) ||| (if pin then BitVec.ofNat 16 (8 + x.path % 8) else 0#16)
  let f := sealHeader { x.frame with flags := x.frame.flags ||| flagRetx, attr := attr,
                                     epoch := BitVec.ofNat 8 (s.get LP_EPOCH.CUR x.frame.part.toNat) }
  (s.bump LK_E2E_STAT.RETX 0 1).stage f (s.sendAcct f) (s.subscriberOf f) x.owner

/-- ACK: an acknowledgement for a flow of the module arrives (R300). -/
def execAck (f : Frame) (s : State) : Host.Outcome State Fault Refusal :=
  .next (whenUp s fun s => s.acked ⟨f.dst.toNat, f.src.toNat, f.cls.toNat⟩ f.seq.toNat)

/-- A NACK for a frame the module retains: it is resent as one retransmission, unless it was sent within the last NACK_US (R301,
R302). -/
def State.nacked (s : State) (id : FlowId) (seq : Nat) : State :=
  match s.lk.out.find? (·.id == id) with
  | none => s
  | some fl =>
    match fl.unacked.find? (·.frame.seq.toNat == seq) with
    | none => s
    | some x =>
      if s.tb.hclk < x.sentAt + usCycles (s.get LK_E2E_CFG.NACK_US) then s
      else
      let x' := { x with resends := x.resends + 1, sentAt := s.tb.hclk }
      (s.setFlowOut { fl with unacked := replaceFirst (·.frame.seq.toNat == seq) (fun _ => x') fl.unacked }).resend x'

/-- NACK: the source resends the named frame (R301). -/
def execNack (f : Frame) (s : State) : Host.Outcome State Fault Refusal :=
  .next (whenUp s fun s => s.nacked ⟨f.dst.toNat, f.src.toNat, f.cls.toNat⟩ f.seq.toNat)

/-- ACK_TIMER: ACK_US has passed since the oldest frame not acknowledged, so the module acknowledges (R300, R302). -/
def execAckTimer (flow : FlowId) (s : State) : Host.Outcome State Fault Refusal :=
  .next (whenUp s fun s =>
    match s.flowIn flow with
    | some fl => if fl.start.isSome && (0 < fl.sinceAck || fl.owes) then s.ackNow fl else s
    | none => s)

/-- GAP_NACK_TIMER: a gap has lasted NACK_US, so the module names the first missing SEQ (R301). -/
def execGapNackTimer (flow : FlowId) (s : State) : Host.Outcome State Fault Refusal :=
  .next (whenUp s fun s =>
    match s.flowIn flow with
    | some fl =>
      if (s.heldSeqs .delivery flow).isEmpty then s
      else
        let f := s.ackFrame fl opNack (seqNext fl.passed) 0
        s.stage f f.part.toNat (s.subscriberOf f) none
    | none => s)

end Sys2Proof.Machine
end

