-- ==== Sys2Proof/Machine/Flags.lean ====
section
/-! DEFINITION. Status codes (Table 2.10), their order (R62) and the layouts of a record's flags and VALUE. -/

namespace Sys2Proof.Machine

def stOk : Nat := 0x00
def stAborted : Nat := 0x01
def stAbortTooLate : Nat := 0x02
def stPoison : Nat := 0x03
def stRevoked : Nat := 0x04
def stStalePublish : Nat := 0x05
def stBudget : Nat := 0x06
def stRingFull : Nat := 0x07
def stBadDesc : Nat := 0x09
def stTimeout : Nat := 0x0A
def stTierFail : Nat := 0x0B
def stContained : Nat := 0x0F
def stNotOwner : Nat := 0x10
def stPartial : Nat := 0x11

/-- The place of a status in the order of R62. -/
def statusRank (st : Nat) : Nat :=
  match st with
  | 0x09 => 1 | 0x10 => 2 | 0x0F => 3 | 0x04 => 4 | 0x0E => 5 | 0x01 => 6 | 0x0A => 7 | 0x0B => 8 | 0x03 => 9
  | 0x08 => 10 | 0x06 => 11 | 0x05 => 12 | 0x11 => 13 | 0x02 => 14 | _ => 15

/-- The first of several causes in the order of R62; among equals the earlier one. -/
def topCause : List (Nat × Nat) → Nat × Nat
  | [] => (stOk, 0)
  | c :: t => let r := topCause t; if statusRank c.1 ≤ statusRank r.1 then c else r

/-- A count that saturates at 16 bits. -/
def sat16 (n : Nat) : Nat := min n 65535

/-- VALUE of a deck command (R120); MERGE uses it with zero above bit 31 (R157). -/
def valueDeck (nan poison fold : Nat) (lashed : Bool) (count : Nat) : Nat :=
  sat16 nan + 65536 * sat16 poison + 4294967296 * (fold % 8) + 34359738368 * (if lashed then 1 else 0)
    + 68719476736 * min count 268435455

/-- VALUE of GATHER (R137) and FILTER (R147): a count in [31:0], a poison count in [47:32]. -/
def valueShip (count poison : Nat) : Nat := count % 4294967296 + 4294967296 * sat16 poison

/-- VALUE of SELECT (R144). -/
def valueSelect (entries poison forcedOpen : Nat) : Nat :=
  entries % 4294967296 + 4294967296 * sat16 poison + 281474976710656 * sat16 forcedOpen

/-- VALUE of REDUCE (R179). -/
def valueReduce (excluded missing poison : Nat) : Nat := sat16 excluded + 65536 * sat16 missing + 4294967296 * sat16 poison

/-- Word 0 of a completion record: STATUS, the two flags, DETAIL and PHASE (Table 2.8). -/
def recordWord0 (status : Nat) (nan audited : Bool) (detail phase : Nat) : Nat :=
  status % 256 + 256 * (if nan then 1 else 0) + 512 * (if audited then 1 else 0) + 65536 * (detail % 256)
    + 2147483648 * (phase % 2)

/-- The 32 bytes of a completion record (Table 2.8). -/
def recordBytes (status : Nat) (nan audited : Bool) (detail phase tag opc sqHead ctx value ns legs : Nat) : List Byte :=
  leBytes 4 (recordWord0 status nan audited detail phase) ++ leBytes 4 (tag % 1048576 + 1048576 * (opc % 256))
    ++ leBytes 4 (sqHead % 65536 + 65536 * (ctx % 4096)) ++ leBytes 4 0 ++ leBytes 8 value ++ leBytes 4 ns
    ++ leBytes 4 (sat16 legs)

end Sys2Proof.Machine
end

