-- ==== Sys2Proof/Machine/Cmds.lean ====
section
/-! DEFINITION. Contexts and the commands in flight: the parameters a context runs with, and how a command collects causes,
stops and finishes (chapter 2). -/

namespace Sys2Proof.Machine

/-! ## Opcodes (Table 2.7) -/

def ocNop : Nat := 0x00
def ocCross : Nat := 0x01
def ocScore : Nat := 0x02
def ocSelect : Nat := 0x03
def ocGather : Nat := 0x04
def ocAppend : Nat := 0x05
def ocMatmul : Nat := 0x06
def ocMerge : Nat := 0x07
def ocReduce : Nat := 0x08
def ocFilter : Nat := 0x09
def ocCopy : Nat := 0x0A
def ocPrefetch : Nat := 0x0B
def ocAcquire : Nat := 0x0C
def ocPublish : Nat := 0x0D
def ocFence : Nat := 0x0E
def ocAtomic : Nat := 0x0F
def ocWait : Nat := 0x10
def ocHandoff : Nat := 0x11
def ocAbort : Nat := 0x12
def ocSearch : Nat := 0x13

/-- The opcode is in Table 2.7. -/
def knownOpcode (o : Nat) : Bool := o ≤ 0x13

/-- Commands that commit when they leave for the home (R59). -/
def homeOpcode (o : Nat) : Bool := 0x0C ≤ o && o ≤ 0x11

/-- Deck commands. -/
def deckOpcode (o : Nat) : Bool := o == 0x01 || o == 0x02 || o == 0x06 || o == 0x13

/-! ## Contexts -/

def ctxDisabled : Nat := 0
def ctxEnabled : Nat := 1
def ctxPaused : Nat := 2
def ctxDraining : Nat := 3
def ctxError : Nat := 4

/-- CF_CTX_STATE.STATE. -/
def State.ctxState (s : State) (c : Nat) : Nat := s.get CF_CTX_STATE.STATE c

def State.ctxPart (s : State) (c : Nat) : Nat := s.get CF_CTX_CTRL.PART c
def State.ctxRank (s : State) (c : Nat) : Nat := s.get CF_CTX_CTRL.OWNER_RANK c

/-- A value of Table 2.13: the field for EXPERT, else the profile's. -/
def State.byProfile (s : State) (c field decode bulk control : Nat) : Nat :=
  match s.get CF_CTX_CTRL.PROFILE c with
  | 0 => field
  | 1 => decode
  | 2 => bulk
  | _ => control

/-- Entries of the submission and completion rings. -/
def State.sqSize (s : State) (c : Nat) : Nat := s.byProfile c (2 ^ s.get CF_CTX_SQ.LOG2 c) 4096 1024 256
def State.cqSize (s : State) (c : Nat) : Nat := s.byProfile c (2 ^ s.get CF_CTX_CQ.LOG2 c) 4096 1024 256
def State.maxInflight (s : State) (c : Nat) : Nat := s.byProfile c (s.get CF_CTX_LIMITS.MAX_INFLIGHT c) 256 64 16
def State.fetchMax (s : State) (c : Nat) : Nat := s.byProfile c (s.get CF_CTX_LIMITS.FETCH_MAX c) 64 32 8
/-- TIMEOUT_MS (R49): the row COMMAND_TIMEOUT stands for its expiry. -/
def State.timeoutMs (s : State) (c : Nat) : Nat := s.byProfile c (s.get CF_CTX_LIMITS.TIMEOUT_MS c) 250 2000 50

/-- A context as it is enabled. -/
def Ctx.reset : Ctx := { unconsumed := 0, pass := 0, history := [], reserved := 0 }

def State.ctx (s : State) (c : Nat) : Ctx := Tab.get Ctx.reset s.fe.ctxs c

def State.setCtx (s : State) (c : Nat) (x : Ctx) : State :=
  { s with fe := { s.fe with ctxs := Tab.set Ctx.reset s.fe.ctxs c x } }

/-! ## Descriptors -/

/-- `w` bits from bit `lsb` of the 8-byte word at byte `off` of a descriptor. -/
def dbits (d : Desc) (off lsb w : Nat) : Nat := d.toNat / 2 ^ (8 * off + lsb) % 2 ^ w

/-- A flag of a descriptor. -/
def dflag (d : Desc) (off lsb : Nat) : Bool := dbits d off lsb 1 == 1

def Cmd.chain (c : Cmd) : Bool := dflag c.desc 0 8
def Cmd.chainAny (c : Cmd) : Bool := dflag c.desc 0 9
def Cmd.notify (c : Cmd) : Bool := dflag c.desc 0 10
def Cmd.barrierSet (c : Cmd) : Bool := dflag c.desc 0 11

/-! ## Decks -/

def deckNo : DeckId → Nat
  | .a => 0
  | .b => 1

def otherDeck : DeckId → DeckId
  | .a => .b
  | .b => .a

def State.deck (s : State) (d : DeckId) : Deck := match d with | .a => s.deckA | .b => s.deckB

def State.setDeck (s : State) (d : DeckId) (x : Deck) : State :=
  match d with
  | .a => { s with deckA := x }
  | .b => { s with deckB := x }

def State.updDeck (s : State) (d : DeckId) (f : Deck → Deck) : State := s.setDeck d (f (s.deck d))

/-! ## Commands in flight -/

def State.cmd (s : State) (cid : Nat) : Option Cmd := s.fe.cmds.find? (·.cid == cid)

/-- Changes one command. -/
def State.updCmd (s : State) (cid : Nat) (f : Cmd → Cmd) : State :=
  { s with fe := { s.fe with cmds := replaceFirst (·.cid == cid) f s.fe.cmds } }

/-- Commands of a context; those a ring failure took are no longer in flight (R31). -/
def State.ctxCmds (s : State) (c : Nat) : List Cmd := s.fe.cmds.filter fun x => x.ctx == c && !x.lost

/-- In-flight commands of a context, with the descriptors whose read is under way (R47). -/
def State.inflight (s : State) (c : Nat) : Nat := (s.ctxCmds c).length + (s.ctx c).reserved

/-- Command slots a partition holds: its commands and the descriptors being read. -/
def State.slotsHeld (s : State) (p : Nat) : Nat :=
  (s.fe.cmds.filter (·.part == p)).length +
    (s.fe.ctxs.filter fun e => s.ctxPart e.1 == p).foldl (fun n e => n + e.2.reserved) 0

/-- Command slots in use on the device. -/
def State.slotsUsed (s : State) : Nat := s.fe.cmds.length + s.fe.ctxs.foldl (fun n e => n + e.2.reserved) 0

/-- The counts the registers show follow the commands (Tables 2.18 and 2.20). -/
def State.syncSlots (s : State) (ctx : Nat) : State :=
  (s.put CF_CTX_STATE.INFLIGHT ctx (s.inflight ctx)).put CF_PART_QUOTA.SLOT_INUSE (s.ctxPart ctx) (s.slotsHeld (s.ctxPart ctx))

/-- The lowest command slot no command holds. -/
def freeCid (cmds : List Cmd) : Nat → Nat → Nat
  | 0, n => n
  | k + 1, n => if cmds.any (·.cid == n) then freeCid cmds k (n + 1) else n

/-- A command as it is fetched. -/
def newCmd (cid ctx part tag opc : Nat) (d : Desc) (now : Nat) : Cmd :=
  { cid := cid, ctx := ctx, part := part, tag := tag, opc := opc, desc := d, stage := .waiting, chainOn := none,
    chainRes := none, barrier := [], causes := [], stop := none, value := 0, nan := false, audited := false, legs := 0,
    inputs := [], place := none, fold := 1, sec := 0, step := 0, acc := [], accCopy := [], rows := [], found := [],
    marked := [], nanned := [], pos := 0, order := 0, ahead := 0, nanRows := 0, poisonRows := 0, count := 0, flushTo := none, fetched := now, berths := [], bad := false,
    lost := false, paid := [], maxUnits := 0, held := [] }

/-- The command's result is complete, or it stops here: its record may be committed. -/
def State.finish (s : State) (cid : Nat) : State := s.updCmd cid fun c => { c with stage := .finished }

/-- A command that a lost berth ends is counted, once (Table 7.17, log entry 89). -/
def State.countRevoked (s : State) (cid status : Nat) : State :=
  match s.cmd cid with
  | some c => if status = stRevoked && !c.causes.any (·.1 == stRevoked) then s.bump PM_PART_ERR.REVOKED c.part 1 else s
  | none => s

/-- A cause applies to a command (R62). -/
def State.addCause (s : State) (cid status detail : Nat) : State :=
  (s.countRevoked cid status).updCmd cid fun c => { c with causes := c.causes ++ [(status, detail)] }

/-- A cause applies to a command, and it stops at its next boundary. -/
def State.stopLater (s : State) (cid status detail : Nat) : State :=
  (s.addCause cid status detail).updCmd cid fun c => { c with stop := some (status, detail) }

/-- A command ends with a cause. -/
def State.finishWith (s : State) (cid status detail : Nat) : State := (s.addCause cid status detail).finish cid

/-- A command ends OK with a VALUE. -/
def State.finishValue (s : State) (cid value : Nat) : State :=
  (s.updCmd cid fun c => { c with value := value }).finish cid

/-- A stop reaches a command (R49, R59, R61): one that has not started ends at once; a running one ends at its next leg,
transfer or chunk boundary; the status of one past its commit, or refused by a check, no longer changes. -/
def State.stopCmd (s : State) (cid status detail : Nat) : State :=
  match s.cmd cid with
  | none => s
  | some c =>
    match c.stage with
    | .waiting => s.finishWith cid status detail
    | .held => s.finishWith cid status detail
    | .dispatched => s.stopLater cid status detail
    | .running => s.stopLater cid status detail
    | .finished =>
      if c.bad || homeOpcode c.opc then s
      else (if c.opc = ocAbort then s.updCmd cid fun c => { c with value := 0 } else s).addCause cid status detail
    | .atHome => s
    | .answered => s

/-- Stops several commands. -/
def State.stopCmds (s : State) (cids : List Nat) (status detail : Nat) : State :=
  cids.foldl (fun s c => s.stopCmd c status detail) s

/-- Commands that wait on a command that goes away are told its status (R45). -/
def State.tellWaiters (s : State) (cid status : Nat) : State :=
  { s with fe := { s.fe with cmds := s.fe.cmds.map fun c =>
      let c := if c.chainOn == some cid then { c with chainOn := none, chainRes := some status } else c
      { c with barrier := c.barrier.filter (· != cid) } } }

/-- A command leaves the module's slots. -/
def State.dropCmd (s : State) (cid : Nat) : State :=
  match s.cmd cid with
  | none => s
  | some c => (({ s with fe := { s.fe with cmds := s.fe.cmds.filter (·.cid != cid) } } : State).endStall cid c.part).syncSlots c.ctx

end Sys2Proof.Machine
end

