-- ==== Sys2Proof/Machine/Float.lean ====
section
/-! DEFINITION. Arithmetic that fixes every bit: decoding of the formats of Tables 3.1 and 3.2 to exact values, rounding to
nearest even (R94, R95), and the quantiser of R71. A value is exact as a whole number times a power of two. -/

namespace Sys2Proof.Machine

/-- An exact value: NaN, an infinity, or (−1)^neg × m × 2^e. -/
inductive Num where
  | nan
  | inf (neg : Bool)
  | fin (neg : Bool) (m : Nat) (e : Int)
  deriving DecidableEq, Repr

/-- Exact zero. -/
def Num.zero : Num := .fin false 0 0

/-- A NaN or an infinity. -/
def Num.special : Num → Bool
  | .fin _ _ _ => false
  | _ => true

/-- Infinities become NaN, and a negative zero zero, as the product format holds them (R67, R68). -/
def Num.product : Num → Num
  | .fin n m e => if m = 0 then .zero else .fin n m e
  | _ => .nan

/-! ## IEEE 754 layouts -/

/-- A quotient by a power of two rounded to nearest, ties to even. -/
def shiftRne (m k : Nat) : Nat :=
  let q := m >>> k
  let r := m - (q <<< k)
  let h := 1 <<< k
  if h < 2 * r || (2 * r == h && q % 2 == 1) then q + 1 else q

/-- A whole number of units 2^q nearest to m × 2^e. -/
def unitsRne (m : Nat) (e q : Int) : Nat :=
  if q ≤ e then m <<< (e - q).toNat else shiftRne m (q - e).toNat

/-- The magnitude bits of m × 2^e in a layout with bias `bias` and `mb` mantissa bits, before any overflow: subnormals are
kept, and the bits go on rising past the last finite code. -/
def magnitude (bias mb m : Nat) (e : Int) : Nat :=
  if m = 0 then 0
  else
    let top : Int := (Nat.log2 m : Int) + e
    let qmin : Int := 1 - (bias : Int) - mb
    let q := max (top - mb) qmin
    (q - qmin).toNat * 2 ^ mb + unitsRne m e q

/-- Encodes in an IEEE 754 layout of `eb` exponent and `mb` mantissa bits: overflow gives an infinity, NaN is the canonical
quiet NaN (R95, R111). -/
def encodeIeee (eb mb : Nat) (x : Num) : Nat :=
  let top := (2 ^ eb - 1) * 2 ^ mb
  let sign := 2 ^ (eb + mb)
  match x with
  | .nan => top + 2 ^ (mb - 1)
  | .inf n => top + if n then sign else 0
  | .fin n m e => min (magnitude (2 ^ (eb - 1) - 1) mb m e) top + if n then sign else 0

/-- Decodes an IEEE 754 layout exactly. -/
def decodeIeee (eb mb bits : Nat) : Num :=
  let neg := bits / 2 ^ (eb + mb) % 2 == 1
  let ex := bits / 2 ^ mb % 2 ^ eb
  let fr := bits % 2 ^ mb
  let bias : Int := 2 ^ (eb - 1) - 1
  if ex = 2 ^ eb - 1 then (if fr = 0 then .inf neg else .nan)
  else if ex = 0 then .fin neg fr (1 - bias - mb)
  else .fin neg (2 ^ mb + fr) ((ex : Int) - bias - mb)

/-- The FP32 value nearest to an exact one. -/
def toF32 (x : Num) : F32 := BitVec.ofNat 32 (encodeIeee 8 23 x)

/-- The exact value of an FP32. -/
def ofF32 (x : F32) : Num := decodeIeee 8 23 x.toNat

def f32NaN : F32 := 0x7FC00000#32
def f32NegInf : F32 := 0xFF800000#32
def f32PosInf : F32 := 0x7F800000#32
def f32One : F32 := 0x3F800000#32

def isNaN32 (x : F32) : Bool := ofF32 x == .nan

/-- A NaN or an infinity in FP32. -/
def special32 (x : F32) : Bool := (ofF32 x).special

/-! ## Exact sums and products -/

/-- The product of two values. -/
def numMul : Num → Num → Num
  | .nan, _ => .nan
  | _, .nan => .nan
  | .inf a, .inf b => .inf (a != b)
  | .inf a, .fin b m _ => if m = 0 then .nan else .inf (a != b)
  | .fin a m _, .inf b => if m = 0 then .nan else .inf (a != b)
  | .fin a m e, .fin b n f => .fin (a != b) (m * n) (e + f)

/-- A signed whole number. -/
def signedInt (neg : Bool) (m : Nat) : Int := if neg then -(m : Int) else m

/-- The sum of two values, exact; a sum of two negative zeros is a negative zero, any other zero is positive. -/
def numAdd : Num → Num → Num
  | .nan, _ => .nan
  | _, .nan => .nan
  | .inf a, .inf b => if a == b then .inf a else .nan
  | .inf a, .fin _ _ _ => .inf a
  | .fin _ _ _, .inf b => .inf b
  | .fin a m e, .fin b n f =>
    let g := min e f
    let v := signedInt a m * 2 ^ (e - g).toNat + signedInt b n * 2 ^ (f - g).toNat
    if v = 0 then .fin (a && b && m == 0 && n == 0) 0 0 else .fin (v < 0) v.natAbs g

/-- The opposite value. -/
def numNeg : Num → Num
  | .nan => .nan
  | .inf n => .inf (!n)
  | .fin n m e => .fin (!n) m e

/-- m ÷ n × 2^k as a value with enough bits, a sticky bit last, to round once to any format here. -/
def numDivNat (neg : Bool) (m n : Nat) (e : Int) : Num :=
  let k := 64 + Nat.log2 n
  let q := (m <<< k) / n
  let r := (m <<< k) % n
  .fin neg (2 * q + if r = 0 then 0 else 1) (e - k - 1)

/-- The quotient of two values. -/
def numDiv : Num → Num → Num
  | .nan, _ => .nan
  | _, .nan => .nan
  | .inf _, .inf _ => .nan
  | .inf a, .fin b _ _ => .inf (a != b)
  | .fin a _ _, .inf b => .fin (a != b) 0 0
  | .fin a m e, .fin b n f =>
    if n = 0 then (if m = 0 then .nan else .inf (a != b)) else numDivNat (a != b) m n (e - f)

/-- The whole-number square root, bit by bit from bit `b` down. -/
def isqrtFrom (n : Nat) : Nat → Nat → Nat
  | 0, r => r
  | b + 1, r => let t := r + 2 ^ b; if t * t ≤ n then isqrtFrom n b t else isqrtFrom n b r

/-- The square root of a non-negative value, with a sticky bit last. -/
def numSqrt : Num → Num
  | .nan => .nan
  | .inf n => if n then .nan else .inf false
  | .fin n m e =>
    if m = 0 then .fin n 0 0
    else if n then .nan
    else
      let odd := (e % 2 : Int) = 1
      let m' := (if odd then 2 * m else m) <<< 128
      let e' := (if odd then e - 1 else e) - 128
      let r := isqrtFrom m' (Nat.log2 m' / 2 + 1) 0
      .fin false (2 * r + if r * r = m' then 0 else 1) (e' / 2 - 1)

/-- FP32 sum, product, quotient and square root, each rounded once (R95). -/
def f32Add (a b : F32) : F32 := toF32 (numAdd (ofF32 a) (ofF32 b))
def f32Mul (a b : F32) : F32 := toF32 (numMul (ofF32 a) (ofF32 b))
def f32Sub (a b : F32) : F32 := toF32 (numAdd (ofF32 a) (numNeg (ofF32 b)))
def f32Div (a b : F32) : F32 := toF32 (numDiv (ofF32 a) (ofF32 b))
def f32Sqrt (a : F32) : F32 := toF32 (numSqrt (ofF32 a))

/-- An order key of an FP32 that is not NaN: −0 equals +0. -/
def f32Key (x : F32) : Int := if x.msb then -((x.toNat % 2147483648 : Nat) : Int) else (x.toNat % 2147483648 : Nat)

/-- An order key with −0 below +0 (R155). -/
def f32StrictKey (x : F32) : Int := if x.msb then -1 - ((x.toNat % 2147483648 : Nat) : Int) else (x.toNat % 2147483648 : Nat)

/-- The larger of two FP32 values that are not NaN; of zeros of both signs, +0, so that no order of the operands matters (R122). -/
def f32Max (a b : F32) : F32 := if f32StrictKey a < f32StrictKey b then b else a

/-- A FP32 value with its significand rounded to 14 bits, ties to even: the product format (R94, R108). -/
def toProduct (x : F32) : Num :=
  match ofF32 x with
  | .fin n m e =>
    if m = 0 then .zero
    else
      let q : Int := (Nat.log2 m : Int) + e - 13
      .fin n (unitsRne m e q) q
  | _ => .nan

/-- One slice of up to four products added exactly to an FP32 value, rounded once (R94). -/
def slice (acc : F32) (ps : List Num) : F32 := toF32 (ps.foldl numAdd (ofF32 acc))

/-- The cell sum of R94 over lists of factors, slices of 4 in order, in at most `n` slices. -/
def cellSum : Nat → F32 → List Num → List Num → F32
  | 0, acc, _, _ => acc
  | n + 1, acc, xs, ys =>
    if xs.isEmpty || ys.isEmpty then acc
    else cellSum n (slice acc (List.zipWith numMul (xs.take 4) (ys.take 4))) (xs.drop 4) (ys.drop 4)

/-- The cell sum from zero. -/
def cellDot (xs ys : List Num) : F32 := cellSum ((xs.length + 3) / 4) 0 xs ys

/-! ## exp2 (R108) -/

/-- 2^(2^-k) for k from 1 to 40, in units of 2^-62. -/
def rootsOfTwo : List Nat :=
  [6521908912666391106, 5484249825272419511, 5029079263719320435, 4815862801830788490,
   4712668792719003883, 4661903986662671289, 4636727017470743990, 4624189567668517720,
   4617933561212708776, 4614808732577250068, 4613247111281068008, 4612466498810092974,
   4612076242109103707, 4611881126141011236, 4611783571252412753, 4611734794581956353,
   4611710406440186475, 4611698212417665819, 4611692115418496524, 4611689066921934630,
   4611687542674409371, 4611686780550835663, 4611686399489096040, 4611686208958238036,
   4611686113692811986, 4611686066060099699, 4611686042243743740, 4611686030335565806,
   4611686024381476851, 4611686021404432376, 4611686019915910140, 4611686019171649022,
   4611686018799518462, 4611686018613453183, 4611686018520420543, 4611686018473904223,
   4611686018450646063, 4611686018439016983, 4611686018433202443, 4611686018430295173]

/-- 2^(f ÷ 2^40) in units of 2^-62, within 2^-55 of it: the roots whose bits f has. -/
def exp2Frac (f : Nat) : Nat :=
  ((List.range 40).zip rootsOfTwo).foldl (fun a p => if f.testBit (39 - p.1) then (a * p.2) >>> 62 else a) (2 ^ 62)

/-- exp2 of an FP32: the points R108 fixes, and elsewhere the free value where it keeps the relative error of 2^-22, the
nearest value otherwise (log entry 10). -/
def exp2 (x : F32) : F32 :=
  match ofF32 x with
  | .nan => f32NaN
  | .inf n => if n then 0 else f32PosInf
  | .fin n m e =>
    if m = 0 then f32One
    else if n && f32Key x < f32Key 0xC3150000#32 then 0
    else
      let fx : Int := signedInt n m * 2 ^ (e + 40).toNat / 2 ^ (-(e + 40)).toNat
      let whole := fx / 2 ^ 40
      let a := exp2Frac (fx % 2 ^ 40).toNat
      let v := Config.exp2Free x
      let near : Bool := match ofF32 v with
        | .fin vn vm ve =>
          let g := min ve (whole - 62)
          let vs := vm * 2 ^ (ve - g).toNat
          let as := a * 2 ^ (whole - 62 - g).toNat
          !vn && (vs - as) * 4194304 ≤ as && (as - vs) * 4194304 ≤ as
        | _ => false
      if near then v else toF32 (.fin false a (whole - 62))

/-! ## Element formats (Tables 3.1 and 3.2) -/

/-- Element bits of a format code. -/
def elemBits (c : Nat) : Nat :=
  match c with
  | 1 => 8 | 2 => 8 | 3 => 6 | 4 => 6 | 5 => 4 | 6 => 8 | 7 => 16 | 8 => 16 | 9 => 32 | _ => 0

/-- The code carries a scale plane. -/
def isScaled (c : Nat) : Bool := 1 ≤ c && c ≤ 6

/-- A code the KV, weight and embedding structures allow. -/
def kvCode (c : Nat) : Bool := 1 ≤ c && c ≤ 8

/-- A small float without infinities: E exponent bits, M mantissa bits, a bias. -/
def decodeSmall (eb mb bias bits : Nat) : Num :=
  let neg := bits / 2 ^ (eb + mb) % 2 == 1
  let ex := bits / 2 ^ mb % 2 ^ eb
  let fr := bits % 2 ^ mb
  if ex = 0 then .fin neg fr (1 - (bias : Int) - mb) else .fin neg (2 ^ mb + fr) ((ex : Int) - bias - mb)

/-- The exact value of one element (R67, R68 keeps infinities here; `Num.product` turns them into NaN). -/
def decodeElem (c bits : Nat) : Num :=
  match c with
  | 1 => if bits % 128 = 127 then .nan else decodeSmall 4 3 7 bits
  | 2 => decodeIeee 5 2 bits
  | 3 => decodeSmall 3 2 3 bits
  | 4 => decodeSmall 2 3 1 bits
  | 5 => decodeSmall 2 1 1 bits
  | 6 => if 128 ≤ bits then .fin true (256 - bits) (-6) else .fin false bits (-6)
  | 7 => decodeIeee 8 7 bits
  | 8 => decodeIeee 5 10 bits
  | 9 => decodeIeee 8 23 bits
  | _ => .nan

/-- The value of an element under an E8M0 scale byte (R69). -/
def scaled (x : Nat) (v : Num) : Num :=
  if x = 255 then .nan
  else match v with
    | .fin n m e => .fin n m (e + x - 127)
    | w => w

/-- The number little-endian bytes form. -/
def bytesNat : List Byte → Nat
  | [] => 0
  | b :: t => b.toNat + 256 * bytesNat t

/-- The elements of one packed row, least significant bit first (R73). -/
def unpackRow (bits n : Nat) (bs : List Byte) : List Nat :=
  if bits = 8 then (bs.take n).map (·.toNat)
  else
    let v := bytesNat bs
    (List.range n).map fun i => v >>> (bits * i) % 2 ^ bits

/-- Bytes of a row's elements (R72). -/
def rowBytes (c d : Nat) : Nat := d * elemBits c / 8

/-- The exact values of a row of `n` elements with its scale bytes; `conv` is applied last. -/
def decodeRow (c n : Nat) (elems scales : List Byte) (conv : Num → Num) : List Num :=
  let es := (unpackRow (elemBits c) n elems).map (decodeElem c)
  let es := if isScaled c then
      (List.range es.length).zipWith (fun i v => scaled ((scales.getD (i / 32) 0).toNat) v) es
    else es
  es.map conv

/-! ## Quantising (R71) -/

/-- emax of step 3. -/
def emax (c : Nat) : Int :=
  match c with
  | 1 => 8 | 2 => 15 | 3 => 4 | 4 => 2 | 5 => 2 | _ => 0

/-- Exponent bits, mantissa bits, bias and the code of the largest finite magnitude of a scaled float code. -/
def smallLayout (c : Nat) : Nat × Nat × Nat × Nat :=
  match c with
  | 1 => (4, 3, 7, 0x7E) | 2 => (5, 2, 15, 0x7B) | 3 => (3, 2, 3, 0x1F) | 4 => (2, 3, 1, 0x1F) | _ => (2, 1, 1, 0x7)

/-- One element of step 4: v ÷ 2^X in the element format, ties to even, saturated. -/
def quantElem (c : Nat) (x : Int) (v : Num) : Nat :=
  match v with
  | .fin n m e =>
    if c = 6 then
      let u := unitsRne m (e - x) (-6)
      if n then (if u = 0 then 0 else 256 - min u 128) else min u 127
    else
      let l := smallLayout c
      min (magnitude l.2.2.1 l.2.1 m (e - x)) l.2.2.2 + if n then 2 ^ (l.1 + l.2.1) else 0
  | _ => 0

/-- floor(log2 |v|) of a nonzero value. -/
def floorLog2 : Num → Option Int
  | .fin _ m e => if m = 0 then none else some ((Nat.log2 m : Int) + e)
  | _ => none

/-- The largest of several exponents. -/
def maxExp (vs : List Num) : Option Int :=
  vs.foldl (fun a v => match a, floorLog2 v with
    | some p, some q => some (max p q)
    | none, q => q
    | p, none => p) none

/-- One block of up to 32 values: its scale byte and its element codes (R71). -/
def quantBlock (c : Nat) (vs : List Num) : Nat × List Nat :=
  if vs.any Num.special then (255, vs.map fun _ => 0)
  else match maxExp vs with
    | none => (0, vs.map fun _ => 0)
    | some top =>
      let x := max (-127) (min 127 (top - emax c))
      ((x + 127).toNat, vs.map (quantElem c x))

/-- Packs element codes of `bits` bits into bytes, least significant bit first (R73). -/
def packRow (bits : Nat) (codes : List Nat) : List Byte :=
  if bits = 8 then codes.map (BitVec.ofNat 8)
  else
    let v := (codes.zip (List.range codes.length)).foldl (fun a p => a + p.1 % 2 ^ bits * 2 ^ (bits * p.2)) 0
    (List.range (codes.length * bits / 8)).map fun i => BitVec.ofNat 8 (v >>> (8 * i))

/-- A row quantised to a scaled code: element bytes and scale bytes. -/
def quantRow (c d : Nat) (vs : List Num) : List Byte × List Byte :=
  let bl := (List.range (d / 32)).map fun j => quantBlock c ((vs.drop (32 * j)).take 32)
  (packRow (elemBits c) (bl.flatMap (·.2)), bl.map fun b => BitVec.ofNat 8 b.1)

/-! ## Output formats -/

/-- A FP32 value in BF16, FP16 or FP32 bits (R95, R155). -/
def outBits (ofmt : Nat) (x : F32) : Nat :=
  match ofmt with
  | 7 => encodeIeee 8 7 (ofF32 x)
  | 8 => encodeIeee 5 10 (ofF32 x)
  | _ => x.toNat

/-- Little-endian bytes of a FP32 value in an output format. -/
def outBytes (ofmt : Nat) (x : F32) : List Byte :=
  let v := outBits ofmt (if isNaN32 x then f32NaN else x)
  (List.range (elemBits ofmt / 8)).map fun i => BitVec.ofNat 8 (v >>> (8 * i))

/-- A value rounded toward +∞ to FP16 (R77). -/
def toF16Up (x : Num) : Nat :=
  match x with
  | .fin false m e =>
    let near := encodeIeee 5 10 x
    match decodeIeee 5 10 near with
    | .fin _ m' e' =>
      let g := min e e'
      if m' * 2 ^ (e' - g).toNat < m * 2 ^ (e - g).toNat then near + 1 else near
    | _ => near
  | v => encodeIeee 5 10 v

/-- A value in FP16, ties to even, saturated to the largest finite magnitude (R77). -/
def toF16Sat (x : Num) : Nat :=
  match x with
  | .nan => 0x7E00
  | .inf n => if n then 0xFBFF else 0x7BFF
  | .fin n m e => min (magnitude 15 10 m e) 0x7BFF + if n then 0x8000 else 0

end Sys2Proof.Machine
end

