-- ==== Sys2Proof/Machine/Operands.lean ====
section
/-! DEFINITION. The operand forms: every descriptor body (Tables 3.6, 4.3 to 4.6, 5.1 to 5.7, 6.2, 6.4, 8.8 to 8.19, 9.7
and 9.8), the address encodings, and the checks 6 to 12 of Table 2.12 that each body brings. -/

namespace Sys2Proof.Machine

/-! ## Address encodings -/

/-- A berth handle and a byte offset. -/
structure NearRef where
  handle : Nat
  off    : Nat
  deriving DecidableEq, Repr

/-- 44 bits: handle in [43:20], 64-byte units in [19:0]. -/
def ref44 (v : Nat) : NearRef := ⟨v / 2 ^ 20 % 2 ^ 24, v % 2 ^ 20 * 64⟩
/-- 42 bits: handle in [41:18], 256-byte units in [17:0]. -/
def ref42 (v : Nat) : NearRef := ⟨v / 2 ^ 18 % 2 ^ 24, v % 2 ^ 18 * 256⟩
/-- 46 bits: handle in [45:22], 16-byte units in [21:0]. -/
def ref46 (v : Nat) : NearRef := ⟨v / 2 ^ 22 % 2 ^ 24, v % 2 ^ 22 * 16⟩
/-- 38 bits: handle in [37:14], 4 KiB units in [13:0]. -/
def ref38 (v : Nat) : NearRef := ⟨v / 2 ^ 14 % 2 ^ 24, v % 2 ^ 14 * 4096⟩
/-- A partition address: handle in [49:26], byte offset in [25:0] (R183). -/
def ref50 (v : Nat) : NearRef := ⟨v / 2 ^ 26 % 2 ^ 24, v % 2 ^ 26⟩

/-- Rounded up to a multiple of `m`. -/
def roundup (n m : Nat) : Nat := (n + m - 1) / m * m

/-- A region of a berth lies within it. -/
def inBerth (off len : Nat) : Bool := off + len ≤ berthBytes

/-- A region lies within the 52-bit address space of an endpoint (log entry 22). -/
def inEndpoint (addr len : Nat) : Bool := addr + len ≤ 2 ^ 52

/-- A region named by an address with a location bit. -/
def inPlace (near : Bool) (addr len : Nat) : Bool :=
  if near then inBerth (addr % 2 ^ 26) len else inEndpoint addr len

/-! ## Layout sizes -/

/-- Footprint of a tile of 64 rows of width d (R72). -/
def tileBytes (c d : Nat) : Nat :=
  if isScaled c then roundup (64 * rowBytes c d) 256 + roundup (2 * d) 256 else 128 * d

/-- Offset of a tile's scale plane (R72). -/
def scalePlane (c d : Nat) : Nat := roundup (64 * rowBytes c d) 256

/-- Bytes of a block summary (R76). -/
def summaryBytes (d : Nat) : Nat := roundup (2 * d + 2) 64

/-- Footprint of a weight tile of 128 columns by 512 K-elements, and its pitch (R84). -/
def weightTile (c : Nat) : Nat := roundup (128 * rowBytes c 512) 256 + if isScaled c then 2048 else 0
def weightPitch (c : Nat) : Nat := roundup (weightTile c) 4096

/-- Bytes of a row tile of an embedding table: planes, then the ID plane at the next 256-byte boundary (R85). -/
def rowTileIds (c e : Nat) : Nat := roundup (tileBytes c e) 256
def rowTileBytes (c e : Nat) : Nat := rowTileIds c e + 512

/-- Bytes of `rows` rows of width `wv` with their {m, l} pairs (R105). -/
def rowsBytes (ofmt rows wv : Nat) : Nat := roundup (rows * wv * elemBits ofmt / 8) 64 + 8 * rows

/-! ## Bodies -/

/-- Table 4.3. -/
structure CrossBody where
  qAddr : Nat
  qfmt  : Nat
  ofmt  : Nat
  outLoc : Bool
  rsvA  : Nat
  oAddr : Nat
  rsvB  : Nat
  list  : NearRef
  nent  : Nat
  g     : Nat
  t     : Nat
  nsec  : Nat
  dw    : Nat
  dvw   : Nat
  shared : Bool
  fold  : Nat
  lash  : Bool
  causal : Bool
  windowEn : Bool
  docmask : Bool
  legq  : Nat
  rsvC  : Nat
  qpos  : Nat
  window : Nat
  rsvD  : Nat
  scale : F32
  rsvE  : Nat
  sumRaw : Nat
  sumH  : Nat

def crossBody (d : Desc) : CrossBody :=
  { qAddr := dbits d 8 0 52, qfmt := dbits d 8 52 4, ofmt := dbits d 8 56 4, outLoc := dflag d 8 60, rsvA := dbits d 8 61 3,
    oAddr := dbits d 16 0 52, rsvB := dbits d 16 52 12, list := ref44 (dbits d 24 0 44), nent := dbits d 24 44 20,
    g := dbits d 32 0 6 + 1, t := dbits d 32 6 4 + 1, nsec := dbits d 32 10 7, dw := dbits d 32 17 5, dvw := dbits d 32 22 5,
    shared := dflag d 32 27, fold := dbits d 32 28 3, lash := dflag d 32 31, causal := dflag d 32 32,
    windowEn := dflag d 32 33, docmask := dflag d 32 34, legq := dbits d 32 35 5, rsvC := dbits d 32 40 24,
    qpos := dbits d 40 0 28, window := dbits d 40 28 28, rsvD := dbits d 40 56 8,
    scale := BitVec.ofNat 32 (dbits d 48 0 32), rsvE := dbits d 48 32 32, sumRaw := dbits d 56 0 44,
    sumH := dbits d 56 44 20 }

/-- Key and value widths, and the rows of a section (R104, R105). -/
def CrossBody.wk (b : CrossBody) : Nat := 32 * b.dw
def CrossBody.wv (b : CrossBody) : Nat := 32 * (if b.shared then b.dvw else b.dw)
def CrossBody.rows (b : CrossBody) : Nat := b.g * b.t

/-- Bytes of the output region: O with {m, l} pairs for CROSS (R105), scores for SCORE (R114). -/
def crossOut (b : CrossBody) (score : Bool) : Nat :=
  if score then b.nsec * roundup (4 * b.nent) 64 else rowsBytes b.ofmt (b.nsec * b.rows) b.wv

/-- Bytes of the query region with its document tags (R104). -/
def crossQueryBytes (b : CrossBody) : Nat := b.nsec * b.rows * b.wk * 2
def crossQuery (b : CrossBody) : Nat :=
  if b.docmask then roundup (crossQueryBytes b) 64 + roundup (2 * b.t) 64 else roundup (crossQueryBytes b) 64

/-- Table 4.4. -/
structure MatmulBody where
  xAddr : Nat
  xfmt  : Nat
  ofmt  : Nat
  outLoc : Bool
  rsvA  : Nat
  yAddr : Nat
  rsvB  : Nat
  w     : NearRef
  wfmt  : Nat
  rsvC  : Nat
  n     : Nat
  kb    : Nat
  b     : Nat
  fold  : Nat
  lash  : Bool
  legq  : Nat
  rsvD  : Nat
  scale : F32
  rsvE  : Nat

def matmulBody (d : Desc) : MatmulBody :=
  { xAddr := dbits d 8 0 52, xfmt := dbits d 8 52 4, ofmt := dbits d 8 56 4, outLoc := dflag d 8 60, rsvA := dbits d 8 61 3,
    yAddr := dbits d 16 0 52, rsvB := dbits d 16 52 12, w := ref38 (dbits d 24 0 38), wfmt := dbits d 24 38 4,
    rsvC := dbits d 24 42 22, n := dbits d 32 0 16 + 1, kb := dbits d 32 16 12, b := dbits d 32 28 8 + 1,
    fold := dbits d 32 36 3, lash := dflag d 32 39, legq := dbits d 32 40 5, rsvD := dbits d 32 45 19,
    scale := BitVec.ofNat 32 (dbits d 40 0 32), rsvE := dbits d 40 32 32 + dbits d 48 0 128 }

def MatmulBody.k (b : MatmulBody) : Nat := 32 * b.kb

/-- Bytes of one activation row and of one output row (R115). -/
def matmulXRow (b : MatmulBody) : Nat := roundup (rowBytes b.xfmt b.k + if isScaled b.xfmt then b.kb else 0) 64
def matmulYRow (b : MatmulBody) : Nat := roundup (b.n * elemBits b.ofmt / 8) 64

/-- Table 4.5. -/
structure SearchBody where
  qAddr : Nat
  qfmt  : Nat
  tfmt  : Nat
  outLoc : Bool
  rsvA  : Nat
  resAddr : Nat
  rsvB  : Nat
  seg   : NearRef
  nseg  : Nat
  rsvC  : Nat
  nrows : Nat
  ew    : Nat
  q     : Nat
  k     : Nat
  fold  : Nat
  lash  : Bool
  rsvD  : Nat
  scale : F32
  legq  : Nat
  maskEn : Bool
  rsvE  : Nat
  maskRaw : Nat
  rsvF  : Nat

def searchBody (d : Desc) : SearchBody :=
  { qAddr := dbits d 8 0 52, qfmt := dbits d 8 52 4, tfmt := dbits d 8 56 4, outLoc := dflag d 8 60, rsvA := dbits d 8 61 3,
    resAddr := dbits d 16 0 52, rsvB := dbits d 16 52 12, seg := ref44 (dbits d 24 0 44), nseg := dbits d 24 44 12,
    rsvC := dbits d 24 56 8, nrows := dbits d 32 0 32, ew := dbits d 32 32 6, q := dbits d 32 38 8 + 1,
    k := dbits d 32 46 10 + 1, fold := dbits d 32 56 3, lash := dflag d 32 59, rsvD := dbits d 32 60 4,
    scale := BitVec.ofNat 32 (dbits d 40 0 32), legq := dbits d 40 32 5, maskEn := dflag d 40 37, rsvE := dbits d 40 38 26,
    maskRaw := dbits d 48 0 44, rsvF := dbits d 48 44 20 + dbits d 56 0 64 }

/-- Table 5.1. -/
structure GatherBody where
  dst   : Nat
  outLoc : Bool
  withList : Bool
  maskEn : Bool
  rsvA  : Nat
  list  : NearRef
  nent  : Nat
  maskRaw : Nat
  nsec  : Nat
  dw    : Nat
  rsvB  : Nat

def gatherBody (d : Desc) : GatherBody :=
  { dst := dbits d 8 0 52, outLoc := dflag d 8 52, withList := dflag d 8 53, maskEn := dflag d 8 54, rsvA := dbits d 8 55 9,
    list := ref44 (dbits d 16 0 44), nent := dbits d 16 44 20, maskRaw := dbits d 24 0 44, nsec := dbits d 24 44 7,
    dw := dbits d 24 51 5, rsvB := dbits d 24 56 8 + dbits d 32 0 256 }

/-- Where the tiles start (R134), and the largest size of the destination (Table 5.2). -/
def gatherTiles (b : GatherBody) : Nat := if b.withList then roundup (16 * b.nent * b.nsec) 256 else 0
def gatherMax (b : GatherBody) : Nat := gatherTiles b + b.nent * b.nsec * 2 * tileBytes 7 (32 * b.dw)

/-- Bytes of one section's entry mask (R146). -/
def entryMaskBytes (nent : Nat) : Nat := roundup ((nent + 7) / 8) 64

/-- Table 5.3. -/
structure SelectBody where
  score : NearRef
  rsvA  : Nat
  list  : NearRef
  nent  : Nat
  out   : NearRef
  nsec  : Nat
  rsvB  : Nat
  k     : Nat
  sink  : Nat
  recent : Nat
  poschk : Bool
  rsvC  : Nat

def selectBody (d : Desc) : SelectBody :=
  { score := ref44 (dbits d 8 0 44), rsvA := dbits d 8 44 20, list := ref44 (dbits d 16 0 44), nent := dbits d 16 44 20,
    out := ref44 (dbits d 24 0 44), nsec := dbits d 24 44 7, rsvB := dbits d 24 51 13, k := 4 * (dbits d 32 0 14 + 1),
    sink := dbits d 32 14 12, recent := dbits d 32 26 12, poschk := dflag d 32 38,
    rsvC := dbits d 32 39 25 + dbits d 40 0 192 }

/-- Table 5.5. -/
structure FilterBody where
  pred  : NearRef
  mode  : Nat
  rsvA  : Nat
  src   : NearRef
  count : Nat
  out   : NearRef
  nsec  : Nat
  rsvB  : Nat
  nrows : Nat
  rsvC  : Nat

def filterBody (d : Desc) : FilterBody :=
  { pred := ref44 (dbits d 8 0 44), mode := dbits d 8 44 2, rsvA := dbits d 8 46 18, src := ref44 (dbits d 16 0 44),
    count := dbits d 16 44 20, out := ref44 (dbits d 24 0 44), nsec := dbits d 24 44 7, rsvB := dbits d 24 51 13,
    nrows := dbits d 32 0 32, rsvC := dbits d 32 32 32 + dbits d 40 0 192 }

/-- Bytes of the bitmap (R146). -/
def filterOut (b : FilterBody) : Nat :=
  if b.mode = 0 then roundup ((b.nrows + 7) / 8) 64 else b.nsec * entryMaskBytes b.count

/-- Table 3.6. -/
structure AppendBody where
  src   : Nat
  sfmt  : Nat
  dfmt  : Nat
  rsvA  : Nat
  kDst  : NearRef
  ntok  : Nat
  row0  : Nat
  dw    : Nat
  rsvB  : Nat
  vRaw  : Nat
  nhead : Nat
  rsvC  : Nat
  sum   : NearRef
  sstride : Nat
  list  : NearRef
  rsvD  : Nat
  lstride : Nat
  docTag : Nat
  summarise : Bool
  close : Bool
  listEn : Bool
  shared : Bool
  rsvE  : Nat
  hstride : Nat
  rsvF  : Nat

def appendBody (d : Desc) : AppendBody :=
  { src := dbits d 8 0 52, sfmt := dbits d 8 52 4, dfmt := dbits d 8 56 4, rsvA := dbits d 8 60 4,
    kDst := ref42 (dbits d 16 0 42), ntok := dbits d 16 42 7, row0 := dbits d 16 49 6, dw := dbits d 16 55 5,
    rsvB := dbits d 16 60 4, vRaw := dbits d 24 0 42, nhead := dbits d 24 42 7, rsvC := dbits d 24 49 15,
    sum := ref44 (dbits d 32 0 44), sstride := dbits d 32 44 20, list := ref46 (dbits d 40 0 46), rsvD := dbits d 40 46 18,
    lstride := dbits d 48 0 22, docTag := dbits d 48 22 16, summarise := dflag d 48 38, close := dflag d 48 39,
    listEn := dflag d 48 40, shared := dflag d 48 41, rsvE := dbits d 48 42 22, hstride := dbits d 56 0 18,
    rsvF := dbits d 56 18 46 }

def AppendBody.d (b : AppendBody) : Nat := 32 * b.dw

/-- Bytes of one source row, and of the whole source (R88). -/
def appendRow (b : AppendBody) : Nat :=
  if b.sfmt = b.dfmt ∧ isScaled b.dfmt then rowBytes b.dfmt b.d + b.dw else 2 * b.d
def appendSource (b : AppendBody) : Nat := roundup (b.ntok * b.nhead * (if b.shared then 1 else 2) * appendRow b) 64

/-- Table 6.2. -/
structure MergeBody where
  inList : NearRef
  nin   : Nat
  rsvA  : Nat
  oAddr : Nat
  ofmt  : Nat
  outLoc : Bool
  norm  : Bool
  rsvB  : Nat
  nrow  : Nat
  dvw   : Nat
  rsvC  : Nat

def mergeBody (d : Desc) : MergeBody :=
  { inList := ref44 (dbits d 8 0 44), nin := dbits d 8 44 9 + 1, rsvA := dbits d 8 53 11, oAddr := dbits d 16 0 52,
    ofmt := dbits d 16 52 4, outLoc := dflag d 16 56, norm := dflag d 16 57, rsvB := dbits d 16 58 6,
    nrow := dbits d 24 0 15, dvw := dbits d 24 15 5, rsvC := dbits d 24 20 44 + dbits d 32 0 256 }

/-- Table 6.4. -/
structure ReduceBody where
  src   : Nat
  srcLoc : Bool
  dstLoc : Bool
  maskEn : Bool
  maskLoc : Bool
  rsvA  : Nat
  dst   : Nat
  rsvB  : Nat
  len   : Nat
  kind  : Nat
  op    : Nat
  ifmt  : Nat
  ofmt  : Nat
  rsvC  : Nat
  group : Nat
  member : Nat
  seq   : Nat
  root  : Nat
  rsvD  : Nat
  mask  : Nat
  rsvE  : Nat
  nrow  : Nat
  dvw   : Nat
  rsvF  : Nat

def reduceBody (d : Desc) : ReduceBody :=
  { src := dbits d 8 0 52, srcLoc := dflag d 8 52, dstLoc := dflag d 8 53, maskEn := dflag d 8 54, maskLoc := dflag d 8 55,
    rsvA := dbits d 8 56 8, dst := dbits d 16 0 52, rsvB := dbits d 16 52 12, len := dbits d 24 0 26, kind := dbits d 24 26 3,
    op := dbits d 24 29 3, ifmt := dbits d 24 32 4, ofmt := dbits d 24 36 4, rsvC := dbits d 24 40 24,
    group := dbits d 32 0 10, member := dbits d 32 10 9, seq := dbits d 32 19 16, root := dbits d 32 35 12,
    rsvD := dbits d 32 47 17, mask := dbits d 40 0 52, rsvE := dbits d 40 52 12, nrow := dbits d 48 0 15,
    dvw := dbits d 48 15 5, rsvF := dbits d 48 20 44 + dbits d 56 0 64 }

/-- OP is ATTN, in a kind that reduces (R156). -/
def ReduceBody.reduces (b : ReduceBody) : Bool := b.kind == 0 || b.kind == 1 || b.kind == 4
def ReduceBody.attn (b : ReduceBody) : Bool := b.reduces && b.op == 3

/-- Bytes of a contribution (R161). -/
def contribBytes (ifmt len nrow dvw : Nat) (attn : Bool) : Nat :=
  if attn then rowsBytes 9 nrow (32 * dvw)
  else 64 * len + if isScaled ifmt then roundup (2 * len) 64 else 0

/-- Elements of a contribution (R161). -/
def contribElems (ifmt len : Nat) : Nat := if elemBits ifmt = 0 then 0 else len * 512 / elemBits ifmt

/-- Bytes of `n` result elements in OFMT; a scaled code's scales follow its elements as in R161 (log entry 23). -/
def elemsBytes (ofmt n : Nat) : Nat := n * elemBits ofmt / 8 + if isScaled ofmt then roundup (n / 32) 64 else 0

/-- Table 9.7. -/
structure CopyBody where
  src   : Nat
  srcKind : Nat
  dstKind : Nat
  rsvA  : Nat
  dst   : Nat
  rsvB  : Nat
  len   : Nat
  rsvC  : Nat

def copyBody (d : Desc) : CopyBody :=
  { src := dbits d 8 0 52, srcKind := dbits d 8 52 2, dstKind := dbits d 8 54 2, rsvA := dbits d 8 56 8,
    dst := dbits d 16 0 52, rsvB := dbits d 16 52 12, len := 256 * (dbits d 24 0 18 + 1),
    rsvC := dbits d 24 18 46 + dbits d 32 0 256 }

/-- Table 9.8. -/
structure PrefetchBody where
  op    : Nat
  mode  : Bool
  depth : Nat
  start : Nat
  rsvA  : Nat
  addr  : NearRef
  nent  : Nat
  window : Nat
  srcFlash : Bool
  src   : Nat
  nsec  : Nat
  rsvB  : Nat

def prefetchBody (d : Desc) : PrefetchBody :=
  { op := dbits d 8 0 3, mode := dflag d 8 3, depth := dbits d 8 4 3, start := dbits d 8 7 10, rsvA := dbits d 8 17 47,
    addr := ref44 (dbits d 16 0 44), nent := dbits d 16 44 20, window := dbits d 24 0 24, srcFlash := dflag d 24 24,
    src := dbits d 24 25 25, nsec := dbits d 24 50 7, rsvB := dbits d 24 57 7 + dbits d 32 0 256 }

/-- BIND with SRC all ones unbinds. -/
def unbindSrc : Nat := 33554431

/-- Table 8.8. -/
structure PublishBody where
  recAddr : Nat
  rsvA  : Nat
  expect : Nat
  new   : Nat
  bulkSeq : Nat
  seqValid : Bool
  action : Nat
  newOwner : Nat
  rsvB  : Nat
  rHandle : Nat
  rFirst : Nat
  rCount : Nat
  rsvC  : Nat

def publishBody (d : Desc) : PublishBody :=
  { recAddr := dbits d 8 0 50, rsvA := dbits d 8 50 14, expect := dbits d 16 0 64, new := dbits d 24 0 64,
    bulkSeq := dbits d 32 0 24, seqValid := dflag d 32 24, action := dbits d 32 25 2, newOwner := dbits d 32 27 12,
    rsvB := dbits d 32 39 25, rHandle := dbits d 40 0 24, rFirst := dbits d 40 24 10, rCount := dbits d 40 34 11,
    rsvC := dbits d 40 45 19 + dbits d 48 0 128 }

/-- Table 8.9. -/
structure AcquireBody where
  recAddr : Nat
  rsvA  : Nat
  version : Nat
  cond  : Nat
  timeout : Nat
  rsvB  : Nat

def acquireBody (d : Desc) : AcquireBody :=
  { recAddr := dbits d 8 0 50, rsvA := dbits d 8 50 14, version := dbits d 16 0 64, cond := dbits d 24 0 2,
    timeout := dbits d 24 8 16, rsvB := dbits d 24 2 6 + dbits d 24 24 40 + dbits d 32 0 256 }

/-- Table 8.14. -/
structure AtomicBody where
  addr  : Nat
  rsvA  : Nat
  operand : Nat
  compare : Nat
  kind  : Nat
  signed : Bool
  limit : Nat
  rsvB  : Nat

def atomicBody (d : Desc) : AtomicBody :=
  { addr := dbits d 8 0 50, rsvA := dbits d 8 50 14, operand := dbits d 16 0 64, compare := dbits d 24 0 64,
    kind := dbits d 32 0 4, signed := dflag d 32 4, limit := dbits d 32 8 4,
    rsvB := dbits d 32 5 3 + dbits d 32 12 52 + dbits d 40 0 192 }

/-- Table 8.17. -/
structure WaitBody where
  addr  : Nat
  rsvA  : Nat
  cmp   : Nat
  mask  : Nat
  cond  : Nat
  take  : Bool
  timeout : Nat
  rsvB  : Nat

def waitBody (d : Desc) : WaitBody :=
  { addr := dbits d 8 0 50, rsvA := dbits d 8 50 14, cmp := dbits d 16 0 64, mask := dbits d 24 0 64, cond := dbits d 32 0 3,
    take := dflag d 32 3, timeout := dbits d 32 4 16, rsvB := dbits d 32 20 44 + dbits d 40 0 192 }

/-- Table 8.19. -/
structure HandoffBody where
  ticket : Nat
  rsvA  : Nat
  op    : Nat
  side  : Nat
  peer  : Nat
  rsvB  : Nat
  recAddr : Nat
  rsvC  : Nat
  cookie : Nat
  rsvD  : Nat

def handoffBody (d : Desc) : HandoffBody :=
  { ticket := dbits d 8 0 50, rsvA := dbits d 8 50 14, op := dbits d 16 0 3, side := dbits d 16 3 1, peer := dbits d 16 4 12,
    rsvB := dbits d 16 16 48, recAddr := dbits d 24 0 50, rsvC := dbits d 24 50 14, cookie := dbits d 32 0 64,
    rsvD := dbits d 40 0 192 }

/-! ## Checks 6 to 12 of Table 2.12 -/

/-- What a body asks of each check. -/
structure Checks where
  /-- check 6: reserved and stated-zero fields are zero -/
  zeros   : Bool
  /-- checks 7 and 8: handles that must be held and not DRAINING -/
  handles : List Nat
  /-- check 9 -/
  aligned : Bool
  /-- check 10 -/
  ranks   : List Nat
  /-- check 11: conditions with the status and DETAIL they complete with when they hold -/
  fails   : List (Bool × Nat × Nat)
  /-- check 12: resources beyond NEAR of the named handles -/
  needs   : List Res
  /-- regions the command would write: handle, offset, length (R248, R394) -/
  writes  : List (Nat × Nat × Nat)

/-- Nothing to check. -/
def Checks.none : Checks :=
  { zeros := true, handles := [], aligned := true, ranks := [], fails := [], needs := [], writes := [] }

/-- A BAD_DESC condition of check 11. -/
def badIf (b : Bool) (detail : Nat) : Bool × Nat × Nat := (b, stBadDesc, detail)

/-- The handle of a partition address, where the location bit names one. -/
def handleIf (near : Bool) (addr : Nat) : List Nat := if near then [(ref50 addr).handle] else []

/-- The region a command writes in near memory. -/
def writeIf (near : Bool) (addr len : Nat) : List (Nat × Nat × Nat) :=
  if near then [((ref50 addr).handle, (ref50 addr).off, len)] else []

/-- With a location bit set, bits [51:50] of the address are zero. -/
def topZero (near : Bool) (addr : Nat) : Bool := !near || addr / 2 ^ 50 == 0

/-- The kind of the berth a handle names, while it is held. -/
def State.kindOf (s : State) (p h : Nat) : Option Nat := (s.heldSlot p h).map (·.kind)

/-- FOLD names bands too low for n_r rows (R97). -/
def foldBad (fold nr : Nat) : Bool := fold != 0 && 256 / 2 ^ (fold - 1) < nr

/-- SCALE is not finite and positive; zero takes the default except where it must be nonzero (R106). -/
def scaleBad (x : F32) (mustBe : Bool) : Bool :=
  if x = 0 then mustBe else x.msb || special32 x || x == 0x80000000#32

/-- The partition's deck profile refuses lashing (Table 4.13). It is judged at fetch, from the register as it then stands
(DESIGN CHOICE, log entry 100: R126 dates the effect of a write for legs only). -/
def State.lashRefused (s : State) (p : Nat) : Bool :=
  match s.get DK_PART_CFG.PROFILE p with
  | 0 => !s.flag DK_PART_CFG.LASH_EN p
  | 4 => true
  | _ => false

/-- A berth named in the descriptor does not suit LASH (R98). -/
def State.affinityBad (s : State) (p h : Nat) (lash : Bool) : Bool :=
  match s.kindOf p h with
  | some k => if lash then k != kindLashed else k != kindDeckA && k != kindDeckB
  | none => false

/-- DECK resources of a command whose streaming berth is named in the descriptor. -/
def State.deckNeeds (s : State) (p h : Nat) (lash : Bool) : List Res :=
  if lash then [.deckA, .deckB]
  else match s.kindOf p h with
    | some 0 => [.deckA]
    | some 1 => [.deckB]
    | _ => []

/-- CROSS (Tables 4.3 and 4.7). -/
def State.crossChecks (s : State) (p : Nat) (d : Desc) : Checks :=
  let b := crossBody d
  { Checks.none with
    zeros := b.rsvA == 0 && b.rsvB == 0 && b.rsvC == 0 && b.rsvD == 0 && b.rsvE == 0 && b.sumRaw == 0 && b.sumH == 0
      && topZero b.outLoc b.oAddr,
    handles := b.list.handle :: handleIf b.outLoc b.oAddr,
    aligned := b.qAddr % 64 == 0,
    fails := [
      badIf (!(b.qfmt == 7 || b.qfmt == 8) || !(b.ofmt == 7 || b.ofmt == 9)) 0x20,
      badIf (256 < b.rows) 0x21,
      badIf (b.dw == 0 || (if b.shared then 16 else 8) < b.dw
        || (if b.shared then b.dvw == 0 || b.dw < b.dvw else b.dvw != 0)) 0x22,
      badIf (b.nsec == 0 || 64 < b.nsec) 0x23,
      badIf (foldBad b.fold b.rows) 0x24,
      badIf (b.windowEn && b.window == 0) 0x25,
      badIf (scaleBad b.scale b.shared) 0x26,
      badIf (!inBerth b.list.off (16 * b.nent * b.nsec) || !inPlace b.outLoc b.oAddr (crossOut b false)
        || !inEndpoint b.qAddr (crossQuery b)) 0x27,
      badIf (16 < b.legq) 0x28,
      badIf (b.lash && s.lashRefused p) 0x29],
    needs := .link :: (if b.lash then [.deckA, .deckB] else []),
    writes := writeIf b.outLoc b.oAddr (crossOut b false) }

/-- SCORE. -/
def State.scoreChecks (s : State) (p : Nat) (d : Desc) : Checks :=
  let b := crossBody d
  let sum := ref44 b.sumRaw
  let run := if b.nent = 0 then 0 else (b.nsec - 1) * b.sumH * 64 + b.nent * summaryBytes b.wk
  { Checks.none with
    zeros := b.rsvA == 0 && b.rsvB == 0 && b.rsvC == 0 && b.rsvD == 0 && b.rsvE == 0 && topZero b.outLoc b.oAddr,
    handles := b.list.handle :: sum.handle :: handleIf b.outLoc b.oAddr,
    aligned := b.qAddr % 64 == 0,
    fails := [
      badIf (!(b.qfmt == 7 || b.qfmt == 8) || b.ofmt != 0) 0x20,
      badIf (256 < b.rows) 0x21,
      badIf (b.dw == 0 || (if b.shared then 16 else 8) < b.dw || b.dvw != 0) 0x22,
      badIf (b.nsec == 0 || 64 < b.nsec) 0x23,
      badIf (foldBad b.fold b.rows) 0x24,
      badIf (b.windowEn && b.window == 0) 0x25,
      badIf (scaleBad b.scale b.shared) 0x26,
      badIf (!inBerth b.list.off (16 * b.nent * b.nsec) || !inBerth sum.off run
        || !inPlace b.outLoc b.oAddr (crossOut b true) || !inEndpoint b.qAddr (crossQuery b)) 0x27,
      badIf (16 < b.legq) 0x28,
      badIf (b.lash && s.lashRefused p) 0x29,
      badIf (s.affinityBad p sum.handle b.lash) 0x2B],
    needs := .link :: s.deckNeeds p sum.handle b.lash,
    writes := writeIf b.outLoc b.oAddr (crossOut b true) }

/-- MATMUL (Tables 4.4 and 4.7). -/
def State.matmulChecks (s : State) (p : Nat) (d : Desc) : Checks :=
  let b := matmulBody d
  let out := b.b * matmulYRow b
  { Checks.none with
    zeros := b.rsvA == 0 && b.rsvB == 0 && b.rsvC == 0 && b.rsvD == 0 && b.rsvE == 0 && topZero b.outLoc b.yAddr,
    handles := b.w.handle :: handleIf b.outLoc b.yAddr,
    aligned := b.xAddr % 64 == 0,
    fails := [
      badIf (!([1, 2, 6, 7, 8].contains b.xfmt) || !([7, 8, 9].contains b.ofmt) || !kvCode b.wfmt) 0x20,
      badIf (foldBad b.fold b.b) 0x24,
      badIf (scaleBad b.scale false) 0x26,
      badIf (!inBerth b.w.off ((b.n + 127) / 128 * ((b.k + 511) / 512) * weightPitch b.wfmt)
        || !inPlace b.outLoc b.yAddr out || !inEndpoint b.xAddr (b.b * matmulXRow b)) 0x27,
      badIf (16 < b.legq) 0x28,
      badIf (b.lash && s.lashRefused p) 0x29,
      badIf (b.kb == 0 || 2048 < b.kb) 0x2A,
      badIf (s.affinityBad p b.w.handle b.lash) 0x2B],
    needs := .link :: s.deckNeeds p b.w.handle b.lash,
    writes := writeIf b.outLoc b.yAddr out }

/-- SEARCH (Tables 4.5 and 4.7). -/
def State.searchChecks (s : State) (p : Nat) (d : Desc) : Checks :=
  let b := searchBody d
  let mask := ref44 b.maskRaw
  let out := b.q * b.k * 16
  { Checks.none with
    zeros := b.rsvA == 0 && b.rsvB == 0 && b.rsvC == 0 && b.rsvD == 0 && b.rsvE == 0 && b.rsvF == 0
      && (b.maskEn || b.maskRaw == 0) && topZero b.outLoc b.resAddr,
    handles := b.seg.handle :: (if b.maskEn then [mask.handle] else []) ++ handleIf b.outLoc b.resAddr,
    aligned := b.qAddr % 64 == 0,
    fails := [
      badIf (!(b.qfmt == 7 || b.qfmt == 8) || !kvCode b.tfmt) 0x20,
      badIf (foldBad b.fold b.q) 0x24,
      badIf (scaleBad b.scale false) 0x26,
      badIf (!inBerth b.seg.off (8 * b.nseg) || (b.maskEn && !inBerth mask.off (roundup ((b.nrows + 7) / 8) 64))
        || !inPlace b.outLoc b.resAddr out || !inEndpoint b.qAddr (roundup (b.q * b.ew * 64) 64)) 0x27,
      badIf (16 < b.legq) 0x28,
      badIf (b.lash && s.lashRefused p) 0x29,
      badIf (b.nseg == 0 || b.ew == 0 || 32 < b.ew) 0x2C],
    needs := .link :: (if b.lash then [.deckA, .deckB] else []),
    writes := writeIf b.outLoc b.resAddr out }

/-- GATHER is permitted (Table 5.11). -/
def State.gatherPermitted (s : State) (p : Nat) : Bool :=
  match s.get GU_PART_CFG.PROFILE p with
  | 0 => s.flag GU_PART_CFG.GATHER_EN p
  | 3 => false
  | _ => true

/-- GATHER (Tables 5.1 and 5.2). -/
def State.gatherChecks (s : State) (p : Nat) (d : Desc) : Checks :=
  let b := gatherBody d
  let mask := ref44 b.maskRaw
  { Checks.none with
    zeros := b.rsvA == 0 && b.rsvB == 0 && topZero b.outLoc b.dst,
    handles := b.list.handle :: (if b.maskEn then [mask.handle] else []) ++ handleIf b.outLoc b.dst,
    aligned := b.dst % 256 == 0,
    fails := [
      badIf (b.nsec == 0 || 64 < b.nsec) 0x20,
      badIf (b.dw == 0 || 16 < b.dw) 0x21,
      badIf (!inPlace b.outLoc b.dst (gatherMax b)) 0x22,
      badIf (if b.maskEn then !inBerth mask.off (b.nsec * entryMaskBytes b.nent) else b.maskRaw != 0) 0x23,
      badIf (!s.gatherPermitted p) 0x24,
      badIf (!inBerth b.list.off (16 * b.nent * b.nsec)) 0x7F],
    needs := if b.outLoc then [] else [.link],
    writes := writeIf b.outLoc b.dst (gatherMax b) }

/-- Two regions of a berth overlap. -/
def overlaps (a al b bl : Nat) : Bool := a < b + bl && b < a + al

/-- SELECT (Tables 5.3 and 5.4). -/
def selectChecks (d : Desc) : Checks :=
  let b := selectBody d
  let scores := b.nsec * roundup (4 * b.nent) 64
  let lst := 16 * b.nent * b.nsec
  let out := 16 * b.k * b.nsec
  { Checks.none with
    zeros := b.rsvA == 0 && b.rsvB == 0 && b.rsvC == 0,
    handles := [b.score.handle, b.list.handle, b.out.handle],
    fails := [
      badIf (b.nsec == 0 || 64 < b.nsec) 0x20,
      badIf (b.nent < b.k) 0x21,
      badIf (b.k < b.sink + b.recent) 0x22,
      badIf (!inBerth b.score.off scores || !inBerth b.list.off lst || !inBerth b.out.off out) 0x23,
      badIf ((b.out.handle == b.list.handle && overlaps b.out.off out b.list.off lst)
        || (b.out.handle == b.score.handle && overlaps b.out.off out b.score.off scores)) 0x24],
    needs := [.engine],
    writes := [(b.out.handle, b.out.off, out)] }

/-- A predicate term (Table 5.7). -/
structure Term where
  mask   : Nat
  lo     : Nat
  hi     : Nat
  invert : Bool
  close  : Bool
  rsv    : Nat

/-- The terms a predicate set holds, as its bytes read. -/
def termsOf (bs : List Byte) : Nat → List Term
  | 0 => []
  | n + 1 =>
    { mask := leNat (bs.take 8), lo := leNat ((bs.drop 8).take 8), hi := leNat ((bs.drop 16).take 8),
      invert := leNat ((bs.drop 24).take 8) % 2 == 1, close := leNat ((bs.drop 24).take 8) / 2 % 2 == 1,
      rsv := leNat ((bs.drop 24).take 8) / 4 } :: termsOf (bs.drop 32) n

/-- What a span of a berth holds, where it stands in near memory and none of its sectors is poisoned. -/
def State.clearBytes (s : State) (p : Nat) (r : NearRef) (len : Nat) : Option (List Byte) :=
  match s.heldSlot p r.handle with
  | none => none
  | some sl =>
    let d := s.readSlot sl r.off len
    if s.standing (slotKey p (handleSlot r.handle)) r.off len && d.poisoned.isEmpty then some d.bytes else none

/-- Term count of a predicate set's header, and whether its reserved bits are zero (Table 5.6). -/
def predicateHead (bs : List Byte) : Nat × Bool :=
  (leNat (bs.take 8) % 128, leNat (bs.take 8) / 128 == 0 && leNat ((bs.take 32).drop 8) == 0)

/-- Bytes of a predicate set of `n` terms. -/
def predicateBytes (n : Nat) : Nat := 32 + 32 * n

/-- The predicate set of a FILTER as the front end reads it: its term count, and its terms where they lie in the berth; none where
it does not stand clean in near memory yet (R21, log entry 83). -/
def State.predicate (s : State) (p : Nat) (r : NearRef) : Option (Nat × Bool × List Term) :=
  match s.clearBytes p r 32 with
  | none => none
  | some head =>
    let h := predicateHead head
    if h.1 = 0 ∨ 64 < h.1 ∨ !inBerth r.off (predicateBytes h.1) then some (h.1, h.2, [])
    else (s.clearBytes p r (predicateBytes h.1)).map fun bs => (h.1, h.2, termsOf (bs.drop 32) h.1)

/-- A predicate set is wrong: NTERM out of range, reserved bits set, or its last term has END clear (Tables 5.6 to 5.8). -/
def predicateBad (x : Nat × Bool × List Term) : Bool :=
  x.1 == 0 || 64 < x.1 || !x.2.1 || !x.2.2.all (·.rsv == 0) ||
    (match x.2.2.getLast? with
     | some t => !t.close
     | none => false)

/-- The checks of Table 5.8 that stand after MODE, in their order, on a predicate set. -/
def FilterBody.fails (b : FilterBody) (x : Nat × Bool × List Term) : List (Bool × Nat × Nat) :=
  [badIf (predicateBad x) 0x21,
   badIf (if b.mode = 0 then b.count == 0 || 4095 < b.count || b.nrows == 0 || b.nsec != 0
          else b.nsec == 0 || 64 < b.nsec || b.nrows != 0) 0x22,
   badIf (!inBerth b.pred.off (predicateBytes x.1) || !inBerth b.out.off (filterOut b)
     || !inBerth b.src.off (if b.mode = 0 then 8 * b.count else 16 * b.count * b.nsec)) 0x23]

/-- FILTER (Tables 5.5 and 5.8). Where the predicate set does not stand clean in near memory, the checks from 0x21 on are judged
when the filter unit reads it (R21, log entry 83). -/
def State.filterChecks (s : State) (p : Nat) (d : Desc) : Checks :=
  let b := filterBody d
  { Checks.none with
    zeros := b.rsvA == 0 && b.rsvB == 0 && b.rsvC == 0,
    handles := [b.pred.handle, b.src.handle, b.out.handle],
    fails := badIf (2 ≤ b.mode) 0x20 ::
      (match s.predicate p b.pred with
       | some x => b.fails x
       | none => []),
    needs := [.engine],
    writes := [(b.out.handle, b.out.off, filterOut b)] }

/-- The regions an APPEND writes: each head's K and V tile, summary and entry (R89). -/
def appendWrites (b : AppendBody) : List (Nat × Nat × Nat) :=
  let v := ref42 b.vRaw
  (List.range b.nhead).flatMap fun h =>
    (b.kDst.handle, b.kDst.off + h * b.hstride * 256, tileBytes b.dfmt b.d)
      :: (if b.shared then [] else [(v.handle, v.off + h * b.hstride * 256, tileBytes b.dfmt b.d)])
      ++ (if b.summarise then [(b.sum.handle, b.sum.off + h * b.sstride * 64, summaryBytes b.d)] else [])
      ++ (if b.listEn then [(b.list.handle, b.list.off + h * b.lstride * 16, 16)] else [])

/-- APPEND (Table 3.6, R92). -/
def appendChecks (d : Desc) : Checks :=
  let b := appendBody d
  let v := ref42 b.vRaw
  { Checks.none with
    zeros := b.rsvA == 0 && b.rsvB == 0 && b.rsvC == 0 && b.rsvD == 0 && b.rsvE == 0 && b.rsvF == 0,
    handles := b.kDst.handle :: (if b.shared then [] else [v.handle]) ++ (if b.summarise then [b.sum.handle] else [])
      ++ (if b.listEn then [b.list.handle] else []),
    aligned := b.src % 64 == 0,
    fails := [
      badIf (!(kvCode b.sfmt && kvCode b.dfmt
        && (b.sfmt == b.dfmt || ((b.sfmt == 7 || b.sfmt == 8) && isScaled b.dfmt)))) 0x20,
      badIf (b.ntok == 0 || 64 < b.row0 + b.ntok) 0x21,
      badIf (b.dw == 0 || (if b.shared then 16 else 8) < b.dw) 0x22,
      badIf (b.nhead == 0 || 64 < b.nhead) 0x23,
      badIf ((appendWrites b).any (fun w => !inBerth w.2.1 w.2.2) || !inEndpoint b.src (appendSource b)) 0x24,
      badIf (b.shared && b.vRaw != 0) 0x25,
      badIf ((b.summarise && !b.listEn) || (b.close && b.row0 + b.ntok == 64)) 0x26],
    needs := [.link],
    writes := appendWrites b }

/-- MERGE (Tables 6.2 and 6.8). -/
def mergeChecks (d : Desc) : Checks :=
  let b := mergeBody d
  let out := rowsBytes b.ofmt b.nrow (32 * b.dvw)
  { Checks.none with
    zeros := b.rsvA == 0 && b.rsvB == 0 && b.rsvC == 0 && topZero b.outLoc b.oAddr,
    handles := b.inList.handle :: handleIf b.outLoc b.oAddr,
    fails := [
      badIf (!(b.ofmt == 7 || b.ofmt == 9)) 0x20,
      badIf (b.nin == 1 || b.nrow == 0 || 16384 < b.nrow || b.dvw == 0 || 16 < b.dvw) 0x23,
      badIf (!inBerth b.inList.off (8 * b.nin) || !inPlace b.outLoc b.oAddr out) 0x26],
    needs := .engine :: (if b.outLoc then [] else [.link]),
    writes := writeIf b.outLoc b.oAddr out }

/-- RU_MEMB_DATA of a member: VALID, TYPE, ID, GLO, GHI (Table 6.13). -/
structure Member where
  valid : Bool
  child : Bool
  id    : Nat
  glo   : Nat
  ghi   : Nat
  deriving DecidableEq, Repr

/-- A member's word, and the member. -/
def State.memberWord (s : State) (g m : Nat) : Word := Tab.get 0 s.co.members (g * 512 + m)
def State.member (s : State) (g m : Nat) : Member :=
  let w := (s.memberWord g m).toNat
  { valid := w % 2 == 1, child := w / 2 % 2 == 1, id := w / 65536 % 65536, glo := w / 2 ^ 32 % 4096, ghi := w / 2 ^ 44 % 4096 }

def grpFree : Nat := 0
def grpDefining : Nat := 1
def grpActive : Nat := 2
def grpDraining : Nat := 3

/-- The group's result receives something at this member, and its contribution is asked of it (Table 6.5). -/
def ReduceBody.receives (b : ReduceBody) (glo : Nat) : Bool :=
  match b.kind with
  | 4 => glo == b.root
  | 5 => false
  | _ => true
def ReduceBody.gives (b : ReduceBody) (glo : Nat) : Bool :=
  match b.kind with
  | 3 => glo == b.root
  | 5 => false
  | _ => true

/-- Bytes a member receives (Table 6.5). -/
def resultBytes (kind op ifmt ofmt len nrow dvw nglobal : Nat) : Nat :=
  let reduces := kind == 0 || kind == 1 || kind == 4
  if reduces && op == 3 then rowsBytes ofmt nrow (32 * dvw)
  else match kind with
    | 1 => elemsBytes ofmt (contribElems ifmt len / max nglobal 1)
    | 2 => nglobal * contribBytes ifmt len 0 0 false
    | 3 => contribBytes ifmt len 0 0 false
    | 5 => 0
    | _ => elemsBytes ofmt (contribElems ifmt len)

/-- NGLOBAL of a group: the TOP entry holds it (Table 6.11), a RELAY's is free (log entry 85). -/
def State.nglobal (s : State) (g : Nat) : Nat :=
  if s.get RU_GRP_CFG.ROLE g = 0 then s.get RU_GRP_CFG.NGLOBALM1 g + 1 else max 1 (Config.relayGlobal g)

/-- First row of block `i` when `n` rows are divided into `ng` blocks (Table 6.5, for the rows of ATTN; log entry 84). -/
def blockRow (n ng i : Nat) : Nat := i * n / ng

/-- Rows of the result that a member receives: its block's under REDUCE_SCATTER, else all. -/
def rowsAt (kind n ng glo : Nat) : Nat := if kind = 1 then blockRow n ng (glo + 1) - blockRow n ng glo else n

/-- The front end's distance of a SEQ from the group's last completed one (R160). -/
def State.seqDistance (s : State) (g seq : Nat) : Nat := (seq + 2 * 65536 - s.get RU_GRP_STAT.DONE_SEQ g - 1) % 65536

/-- IFMT and OFMT are permitted (Tables 6.1 and 6.5; log entry 23). -/
def reduceFormats (b : ReduceBody) : Bool :=
  let inOk := [1, 2, 7, 8, 9].contains b.ifmt
  match b.kind with
  | 5 => true
  | 2 => inOk && b.ofmt == b.ifmt
  | 3 => inOk && b.ofmt == b.ifmt
  | _ =>
    match b.op with
    | 0 => inOk && (b.ofmt == 9 || ((b.ofmt == 7 || b.ofmt == 8) && b.ifmt != 9))
    | 3 => b.ifmt == 9 && (b.ofmt == 9 || b.ofmt == 7)
    | _ => inOk && (b.ofmt == b.ifmt || b.ofmt == 9)

/-- REDUCE (Tables 6.4 and 6.8); NGLOBAL is held by the TOP entry only, so a RELAY leaves its tests to the TOP (Table 6.11). -/
def State.reduceChecks (s : State) (p ctx : Nat) (d : Desc) : Checks :=
  let b := reduceBody d
  let m := s.member b.group b.member
  let ng := s.nglobal b.group
  let top := s.get RU_GRP_CFG.ROLE b.group == 0
  let attn := b.attn
  let noLen := b.kind == 5 || attn
  let local_ := m.valid && !m.child && b.member < s.get RU_GRP_CFG.NMEMB b.group
  let inLen := contribBytes b.ifmt b.len b.nrow b.dvw attn
  let outLen := resultBytes b.kind b.op b.ifmt b.ofmt b.len (rowsAt b.kind b.nrow ng m.glo) b.dvw ng
  let gives := b.gives m.glo
  let recv := b.receives m.glo
  { Checks.none with
    zeros := b.rsvA == 0 && b.rsvB == 0 && b.rsvC == 0 && b.rsvD == 0 && b.rsvE == 0 && b.rsvF == 0
      && topZero b.srcLoc b.src && topZero b.dstLoc b.dst && (if b.maskEn then topZero b.maskLoc b.mask else b.mask == 0)
      && (!noLen || b.len == 0) && (attn || (b.nrow == 0 && b.dvw == 0)) && (b.kind == 3 || b.kind == 4 || b.root == 0),
    handles := (if gives then handleIf b.srcLoc b.src else []) ++ (if recv then handleIf b.dstLoc b.dst else [])
      ++ (if b.maskEn then handleIf b.maskLoc b.mask else []),
    aligned := !b.maskEn || b.mask % 64 == 0,
    fails := [
      badIf (!reduceFormats b) 0x20,
      badIf (s.get RU_GRP_CFG.STATE b.group != grpActive || s.get RU_GRP_CFG.PART b.group != p) 0x21,
      badIf (!local_) 0x22,
      (local_ && s.ctxRank ctx != m.id % 4096, stNotOwner, 0),
      badIf ((!noLen && (b.len == 0 || (top && b.kind == 1 && b.len % ng != 0)))
        || (attn && (b.nrow == 0 || 16384 < b.nrow || b.dvw == 0 || 16 < b.dvw))) 0x23,
      badIf (6 ≤ b.kind || (if b.reduces then 4 ≤ b.op else b.op != 0)) 0x24,
      badIf ((top && ng ≤ b.root) || (!gives && b.kind == 3 && b.src != 0) || (!recv && b.dst != 0)) 0x25,
      badIf ((gives && !inPlace b.srcLoc b.src inLen) || (recv && !inPlace b.dstLoc b.dst outLen)
        || (b.maskEn && !inPlace b.maskLoc b.mask 512)) 0x26,
      badIf (32768 ≤ s.seqDistance b.group b.seq) 0x27],
    needs := [.engine, .link],
    writes := (if recv then writeIf b.dstLoc b.dst outLen else []) ++ (if b.maskEn then writeIf b.maskLoc b.mask 512 else []) }

/-- A tray berth by number. -/
def TrayBerth.free : TrayBerth :=
  { part := 0, policy := 0, group := 0, state := 0, bound := false, places := [], lost := [], target := none,
    rebuild := [] }
def State.trayBerth (s : State) (tbn : Nat) : TrayBerth := Tab.get TrayBerth.free s.ty.berths tbn

/-- A flash berth by number. -/
def FlashBerth.reset : FlashBerth := { valid := false, part := 0, first := 0, log2n := 0, nsid := 0, start := 0 }
def State.flashBerth (s : State) (fbn : Nat) : FlashBerth := Tab.get FlashBerth.reset s.fl.berths fbn

/-- A tray or flash berth the partition may use (Table 9.9, 0x21). -/
def State.sourceOk (s : State) (p : Nat) (src : Source) : Bool :=
  match src with
  | .tray t => (s.trayBerth t).part == p && ((s.trayBerth t).state == 1 || (s.trayBerth t).state == 2)
  | .flash f => (s.flashBerth f).valid && (s.flashBerth f).part == p

/-- What a COPY address names: its berth, and its range in it. -/
def copyTbn (a : Nat) : Nat := a / 2 ^ 26 % 2 ^ 25
def copyFbn (a : Nat) : Nat := a / 2 ^ 26 % 2 ^ 20

/-- Bits of a COPY address its kind gives no meaning are zero (log entry 22). -/
def copyTop (kind a : Nat) : Bool :=
  match kind with
  | 0 => true
  | 1 => a / 2 ^ 50 == 0
  | 2 => a / 2 ^ 51 == 0
  | _ => a / 2 ^ 46 == 0

/-- One side of a COPY lies in range. -/
def copyRange (kind a len : Nat) : Bool := if kind = 0 then inEndpoint a len else inBerth (a % 2 ^ 26) len

/-- Resources of one side of a COPY beyond NEAR (Table 2.22). -/
def copyNeeds (kind : Nat) : List Res :=
  match kind with
  | 0 => [.link]
  | 1 => []
  | 2 => [.tray]
  | _ => [.flash]

/-- COPY (Tables 9.7 and 9.9). -/
def State.copyChecks (s : State) (p : Nat) (d : Desc) : Checks :=
  let b := copyBody d
  let side (kind a : Nat) : Bool :=
    match kind with
    | 2 => s.sourceOk p (.tray (copyTbn a))
    | 3 => s.sourceOk p (.flash (copyFbn a))
    | _ => true
  { Checks.none with
    zeros := b.rsvA == 0 && b.rsvB == 0 && b.rsvC == 0 && copyTop b.srcKind b.src
      && (b.dstKind == 3 || copyTop b.dstKind b.dst),
    handles := handleIf (b.srcKind == 1) b.src ++ handleIf (b.dstKind == 1) b.dst,
    aligned := b.src % 256 == 0 && b.dst % 256 == 0,
    fails := [
      badIf (b.dstKind == 3) 0x20,
      badIf (!side b.srcKind b.src || (b.dstKind == 2 && !side 2 b.dst)) 0x21,
      badIf (b.dstKind == 2 && (s.trayBerth (copyTbn b.dst)).bound) 0x24,
      badIf (!copyRange b.srcKind b.src b.len || !copyRange b.dstKind b.dst b.len) 0x25],
    needs := copyNeeds b.srcKind ++ copyNeeds b.dstKind,
    writes := writeIf (b.dstKind == 1) b.dst b.len }

/-- A held BACKED berth (Table 9.9, 0x22). -/
def State.backed (s : State) (p h : Nat) : Bool :=
  match s.heldSlot p h with
  | some sl => sl.cls == 1 && sl.kind != kindTally
  | none => false

/-- The source a PREFETCH BIND names; all ones names none. -/
def bindSource (b : PrefetchBody) : Option Source :=
  if b.src = unbindSrc then none else if b.srcFlash then some (.flash (b.src % 2 ^ 20)) else some (.tray b.src)

/-- A source is bound to a window other than `key`. -/
def State.boundElsewhere (s : State) (src : Source) (key : Nat) : Bool :=
  s.te.windows.any fun e => e.1 != key && e.2.src == src

/-- A layer record as its 64 bytes read, with its bind pairs still to be read: the record's words, well formed or not. -/
def layerOk (bs : List Byte) : Bool :=
  let w0 := leNat (bs.take 8)
  let w1 := leNat ((bs.drop 8).take 8)
  let w3 := leNat ((bs.drop 24).take 8)
  let nsec := w1 % 128
  1 ≤ nsec && nsec ≤ 64 && w1 / 256 == 0 && w3 / 2 ^ 56 == 0 && leNat (bs.drop 32) == 0
    && inBerth (ref44 (w0 % 2 ^ 44)).off (16 * (w0 / 2 ^ 44) * nsec)
    && inBerth (ref44 (w3 % 2 ^ 44)).off (8 * (w3 / 2 ^ 44 % 4096))

/-- NLAYER, CYCLIC and the layer records of a manifest, or none where it is malformed (Tables 9.4 and 9.5). -/
def State.manifestBytes (s : State) (p : Nat) (r : NearRef) : Option (Nat × Bool × List (List Byte)) :=
  match s.heldSlot p r.handle with
  | none => none
  | some sl =>
    let head := (s.readSlot sl r.off 64).bytes
    let w := leNat (head.take 8)
    let n := w % 2048
    if n = 0 ∨ 1024 < n ∨ w / 4096 ≠ 0 ∨ leNat (head.drop 8) ≠ 0 ∨ !inBerth r.off (64 + 64 * n) then none
    else
      let recs := (List.range n).map fun i => (s.readSlot sl (r.off + 64 + 64 * i) 64).bytes
      if recs.all layerOk then some (n, w / 2048 % 2 == 1, recs) else none

/-- A sector of a manifest's header or records is poisoned, so that nothing of it can be judged (R190, log entry 93). -/
def State.manifestPoisoned (s : State) (p : Nat) (r : NearRef) : Bool :=
  match s.heldSlot p r.handle with
  | none => false
  | some sl =>
    let head := s.readSlot sl r.off 64
    !head.poisoned.isEmpty || !(s.readSlot sl r.off (64 + 64 * min 1024 (leNat (head.bytes.take 2) % 2048))).poisoned.isEmpty

/-- PREFETCH (Tables 9.8 and 9.9). A manifest in a window is judged when its blocks are resident, at MANIFEST_START. -/
def State.prefetchChecks (s : State) (p : Nat) (d : Desc) : Checks :=
  let b := prefetchBody d
  let src := bindSource b
  let win := b.op == 3 || b.op == 4 || b.op == 5
  let man := if b.op = 0 then s.manifestBytes p b.addr else none
  { Checks.none with
    zeros := b.rsvA == 0 && b.rsvB == 0 && (b.op != 3 || !b.srcFlash || b.src == unbindSrc || b.src / 2 ^ 20 == 0),
    handles := if b.op = 0 ∨ b.op = 2 then [b.addr.handle] else if win then [b.window] else [],
    fails := [
      badIf (6 ≤ b.op) 0x20,
      badIf (b.op == 3 && (match src with | some x => !s.sourceOk p x | none => false)) 0x21,
      badIf (win && (!s.backed p b.window || (b.op == 3 &&
        (match src with | some x => s.boundElsewhere x (slotKey p (handleSlot b.window)) | none => false)))) 0x22,
      badIf (b.op == 0 && !s.manifestPoisoned p b.addr && (Tab.find s.te.windows (slotKey p (handleSlot b.addr.handle))).isNone && (match man with | some m => m.1 ≤ b.start | none => inBerth b.addr.off 64)) 0x23,
      badIf ((b.op == 0 && !inBerth b.addr.off 64) || (b.op == 2 && !inBerth b.addr.off (16 * b.nent * b.nsec))) 0x25] }

/-- An address in a TALLY berth of the partition (Table 8.23, 0x20). -/
def State.tallyAddr (s : State) (p a : Nat) : Bool := s.kindOf p (ref50 a).handle == some kindTally

/-- PUBLISH (Tables 8.8 and 8.23). -/
def State.publishChecks (s : State) (p : Nat) (d : Desc) : Checks :=
  let b := publishBody d
  { Checks.none with
    zeros := b.rsvA == 0 && b.rsvB == 0 && b.rsvC == 0,
    handles := (ref50 b.recAddr).handle :: (if b.action = 1 then [b.rHandle] else []),
    aligned := b.recAddr % 128 == 0,
    ranks := if b.action = 2 ∧ b.newOwner ≠ 0xFFF then [b.newOwner] else [],
    fails := [
      badIf (!s.tallyAddr p b.recAddr) 0x20,
      badIf ((b.action != 2 && b.newOwner != 0) || (b.action != 1 && b.rHandle != 0)) 0x21,
      badIf (b.action == 1 && (b.rCount == 0 || 1024 < b.rFirst + b.rCount || (s.heldSlot p b.rHandle).isNone)) 0x24],
    needs := [.nearA, .nearB] }

/-- ACQUIRE (Tables 8.9 and 8.23). -/
def State.acquireChecks (s : State) (p : Nat) (d : Desc) : Checks :=
  let b := acquireBody d
  { Checks.none with
    zeros := b.rsvA == 0 && b.rsvB == 0,
    handles := [(ref50 b.recAddr).handle],
    aligned := b.recAddr % 128 == 0,
    fails := [badIf (!s.tallyAddr p b.recAddr) 0x20, badIf (b.cond == 3) 0x21, badIf (60000 < b.timeout) 0x22],
    needs := [.nearA, .nearB] }

/-- ATOMIC (Tables 8.14 and 8.23). -/
def State.atomicChecks (s : State) (p : Nat) (d : Desc) : Checks :=
  let b := atomicBody d
  { Checks.none with
    zeros := b.rsvA == 0 && b.rsvB == 0,
    handles := [(ref50 b.addr).handle],
    aligned := b.addr % 8 == 0,
    fails := [
      badIf (!s.tallyAddr p b.addr) 0x20,
      badIf (10 ≤ b.kind || (b.kind != 6 && b.compare != 0) || (b.kind != 7 && b.limit != 0)) 0x21,
      badIf (b.kind == 7 && (b.limit == 0 || 8 < b.limit)) 0x24],
    needs := [.nearA, .nearB] }

/-- WAIT (Tables 8.17 and 8.23). -/
def State.waitChecks (s : State) (p : Nat) (d : Desc) : Checks :=
  let b := waitBody d
  { Checks.none with
    zeros := b.rsvA == 0 && b.rsvB == 0,
    handles := [(ref50 b.addr).handle],
    aligned := b.addr % 8 == 0,
    fails := [badIf (!s.tallyAddr p b.addr) 0x20, badIf (5 ≤ b.cond) 0x21, badIf (60000 < b.timeout) 0x22],
    needs := [.nearA, .nearB] }

/-- HANDOFF (Tables 8.19 and 8.23). -/
def State.handoffChecks (s : State) (p : Nat) (d : Desc) : Checks :=
  let b := handoffBody d
  let links := b.op == 0 && b.recAddr != 0
  { Checks.none with
    zeros := b.rsvA == 0 && b.rsvB == 0 && b.rsvC == 0 && b.rsvD == 0,
    handles := (ref50 b.ticket).handle :: (if links then [(ref50 b.recAddr).handle] else []),
    aligned := b.ticket % 128 == 0 && (!links || b.recAddr % 128 == 0),
    ranks := if b.op = 0 then [b.peer] else [],
    fails := [badIf (!s.tallyAddr p b.ticket || (links && !s.tallyAddr p b.recAddr)) 0x20, badIf (5 ≤ b.op) 0x21],
    needs := [.nearA, .nearB] }

/-- The checks of a descriptor's body. -/
def State.bodyChecks (s : State) (ctx p : Nat) (d : Desc) : Checks :=
  match dbits d 0 0 8 with
  | 0x00 => { Checks.none with zeros := dbits d 8 0 448 == 0 }
  | 0x01 => s.crossChecks p d
  | 0x02 => s.scoreChecks p d
  | 0x03 => selectChecks d
  | 0x04 => s.gatherChecks p d
  | 0x05 => appendChecks d
  | 0x06 => s.matmulChecks p d
  | 0x07 => mergeChecks d
  | 0x08 => s.reduceChecks p ctx d
  | 0x09 => s.filterChecks p d
  | 0x0A => s.copyChecks p d
  | 0x0B => s.prefetchChecks p d
  | 0x0C => s.acquireChecks p d
  | 0x0D => s.publishChecks p d
  | 0x0E => { Checks.none with zeros := dbits d 8 25 39 == 0 && dbits d 16 0 384 == 0 }
  | 0x0F => s.atomicChecks p d
  | 0x10 => s.waitChecks p d
  | 0x11 => s.handoffChecks p d
  | 0x12 => { Checks.none with zeros := dbits d 8 20 44 == 0 && dbits d 16 0 384 == 0 }
  | _ => s.searchChecks p d

/-! ## Refused writes (R248, R394) -/

/-- A window bound to a flash berth is read-only (R248). -/
def State.readOnly (s : State) (p h : Nat) : Bool :=
  match Tab.find s.te.windows (slotKey p (handleSlot h)) with
  | some w => match w.src with
    | .flash _ => true
    | .tray _ => false
  | none => false

/-- The sealed-range entry that refuses a write, if any (R394). -/
def State.sealOn (s : State) (p h off len : Nat) : Option Nat :=
  (s.ps.seals.find? fun e => (e.2.live || e.2.busy) && e.2.part == p && e.2.handle == h &&
    overlaps off len (e.2.offset * 4096) (e.2.length * 4096)).map (·.1)

/-- Counts a refusal in REFUSED_WR, saturating. -/
def State.countRefused (s : State) (entry : Nat) : State :=
  { s with ps := { s.ps with seals := s.ps.seals.map fun e =>
      if e.1 = entry then (e.1, { e.2 with refused := min (e.2.refused + 1) 65535 }) else e } }

/-- A write to a region of a berth that a sealed range refuses is counted there (R394). -/
def State.countSealed (s : State) (p : Nat) (w : Nat × Nat × Nat) : State :=
  match s.sealOn p w.1 w.2.1 w.2.2 with
  | some e => s.countRefused e
  | none => s

/-- A write to a region of a berth is refused: read-only window or sealed range. -/
def State.writeRefused (s : State) (p : Nat) (w : Nat × Nat × Nat) : Bool :=
  s.readOnly p w.1 || (s.sealOn p w.1 w.2.1 w.2.2).isSome

/-! ## NEAR resources of named berths (Table 2.22, R451) -/

/-- The halves of the berths a list of handles names. -/
def State.nearNeeds (s : State) (p : Nat) (hs : List Nat) : List Res :=
  let ks := hs.filterMap fun h => s.kindOf p h
  (if ks.any (· != kindDeckB) then [.nearA] else []) ++ (if ks.any (· != kindDeckA) then [.nearB] else [])

/-- Some resource's fare in force is zero, and fares bind (R50, R265, R266). -/
def State.zeroFare (s : State) (p : Nat) (rs : List Res) : Bool := s.faresBind && rs.any fun r => s.fare p r == 0

/-- The resources a descriptor itself determines (R451). -/
def State.neededOf (s : State) (ctx p : Nat) (d : Desc) : List Res :=
  let k := s.bodyChecks ctx p d
  k.needs ++ s.nearNeeds p (k.handles)

/-! ## Places of an APPEND (R88 to R90) -/

/-- Tile, summary and entry of head `h`. -/
def AppendBody.kTile (b : AppendBody) (h : Nat) : NearRef := { b.kDst with off := b.kDst.off + h * b.hstride * 256 }
def AppendBody.vTile (b : AppendBody) (h : Nat) : NearRef :=
  if b.shared then b.kTile h else { ref42 b.vRaw with off := (ref42 b.vRaw).off + h * b.hstride * 256 }
def AppendBody.sumOf (b : AppendBody) (h : Nat) : NearRef := { b.sum with off := b.sum.off + h * b.sstride * 64 }
def AppendBody.entryOf (b : AppendBody) (h : Nat) : NearRef := { b.list with off := b.list.off + h * b.lstride * 16 }

/-- Rows in the tile afterwards, and whether the block is closed with a summary. -/
def AppendBody.filled (b : AppendBody) : Nat := b.row0 + b.ntok
def AppendBody.sums (b : AppendBody) : Bool := (b.filled == 64 || b.close) && b.summarise

/-- The source row of token `t`, head `h`, K (0) or V (1): where it starts (R88). -/
def AppendBody.sourceRow (b : AppendBody) (t h w : Nat) : Nat :=
  ((t * b.nhead + h) * (if b.shared then 1 else 2) + w) * appendRow b

/-- The spans head `h` writes: rows, then its summary and its entry. -/
def AppendBody.rowSpans (b : AppendBody) (h : Nat) : List (NearRef × Nat) :=
  let tile (k : NearRef) : List (NearRef × Nat) :=
    ({ k with off := k.off + b.row0 * rowBytes b.dfmt b.d }, b.ntok * rowBytes b.dfmt b.d)
      :: if isScaled b.dfmt then [({ k with off := k.off + scalePlane b.dfmt b.d + b.row0 * b.dw }, b.ntok * b.dw)] else []
  tile (b.kTile h) ++ if b.shared then [] else tile (b.vTile h)
def AppendBody.spans (b : AppendBody) (h : Nat) : List (NearRef × Nat) :=
  b.rowSpans h ++ (if b.sums then [(b.sumOf h, summaryBytes b.d)] else []) ++ if b.listEn then [(b.entryOf h, 16)] else []

/-- The partition address of a place in a berth. -/
def NearRef.addr (r : NearRef) : Nat := r.handle * 2 ^ 26 + r.off

/-! ## Destination regions (R60) -/

/-- What a command that stops leaves undefined: whether the region lies in a berth, its address and its length. Trays are apart
(R236), and so are the entries of an APPEND, which stay old or new (R90). -/
def outRegions (d : Desc) : List (Bool × Nat × Nat) :=
  let opc := dbits d 0 0 8
  if opc = ocCross ∨ opc = ocScore then
    let b := crossBody d
    [(b.outLoc, b.oAddr, crossOut b (opc == ocScore))]
  else if opc = ocMatmul then let b := matmulBody d; [(b.outLoc, b.yAddr, b.b * matmulYRow b)]
  else if opc = ocSearch then let b := searchBody d; [(b.outLoc, b.resAddr, b.q * b.k * 16)]
  else if opc = ocSelect then let b := selectBody d; [(true, b.out.addr, 16 * b.k * b.nsec)]
  else if opc = ocFilter then let b := filterBody d; [(true, b.out.addr, filterOut b)]
  else if opc = ocGather then let b := gatherBody d; [(b.outLoc, b.dst, gatherMax b)]
  else if opc = ocAppend then
    let b := appendBody d
    (List.range b.nhead).flatMap fun h =>
      (b.rowSpans h ++ if b.sums then [(b.sumOf h, summaryBytes b.d)] else []).map fun w => (true, w.1.addr, w.2)
  else if opc = ocMerge then let b := mergeBody d; [(b.outLoc, b.oAddr, rowsBytes b.ofmt b.nrow (32 * b.dvw))]
  else if opc = ocCopy then
    let b := copyBody d
    if b.dstKind = 2 then [] else [(b.dstKind == 1, b.dst, b.len)]
  else []

end Sys2Proof.Machine
end

