-- ==== Sys2Proof/Machine/Pcs.lean ====
section
/-! DEFINITION. The Enxis PCS (R281 to R284): a port's byte stream cut into codewords, their order over the lanes, and the frames a
receiver finds in the stream. -/

namespace Sys2Proof.Machine

/-- Bytes of the stream in a codeword, and the modulus of CWSEQ (Table 11.2). -/
def codewordBytes : Nat := 640
def cwseqMod : Nat := 4096

/-- A frame on the wire: header, payload, trailer with ECRC, HOPS and CE (R292). -/
def frameBytes (f : Frame) : List Byte :=
  bytesOf 32 (headerBits f) ++ f.data ++
    leBytes 8 (f.ecrc.toNat + 2 ^ 32 * f.hops.toNat + 2 ^ 36 * f.ce.toNat + 2 ^ 40 * f.rsvT.toNat)

/-! ## Sending (R281, R283) -/

/-- The codeword in hand, once its 640 bytes are there: codeword n goes on lane n mod w with CWSEQ n mod 4,096. -/
def PcsTx.codeword (w : Nat) (t : PcsTx) : Nat × Codeword :=
  (t.number % w, { start := t.start, cwseq := t.number % cwseqMod, data := t.bytes })

/-- Adds bytes to the stream of a port of `w` lanes: the codewords they complete, each with its lane; at most `n`. -/
def PcsTx.fill (w : Nat) : Nat → List Byte → PcsTx → List (Nat × Codeword) × PcsTx
  | 0, bs, t => ([], { t with bytes := t.bytes ++ bs })
  | n + 1, bs, t =>
    let room := codewordBytes - t.bytes.length
    if bs.length < room then ([], { t with bytes := t.bytes ++ bs })
    else
      let r := PcsTx.fill w n (bs.drop room) { number := t.number + 1, start := none, bytes := [] }
      ({ t with bytes := t.bytes ++ bs.take room }.codeword w :: r.1, r.2)

/-- A frame enters the stream behind what was sent before it; FSTART names the first frame start of its codeword (R283). -/
def PcsTx.send (w : Nat) (f : Frame) (t : PcsTx) : List (Nat × Codeword) × PcsTx :=
  let bs := frameBytes f
  PcsTx.fill w (bs.length / codewordBytes + 1) bs
    { t with start := t.start.orElse fun _ => some (t.bytes.length / 8) }

/-! ## Receiving (R282 to R284) -/

/-- The rows of a port's codewords on its `w` lanes: a row is one codeword on every lane. -/
def rowsApart (w a b : Nat) : Nat := (a / w * w + cwseqMod - b / w * w) % cwseqMod / w

/-- DESKEW: the CWSEQs that the physical lanes bring together name every logical lane once, and no lane is more than four codewords
ahead of another (R282). -/
def deskewOk (w : Nat) (seqs : List Nat) : Bool :=
  seqs.length == w && (List.range w).all (fun l => seqs.any fun q => q % w == l) &&
    seqs.any fun b => seqs.all fun q => rowsApart w q b ≤ 4

/-- The logical lane a physical lane carries: its CWSEQ mod w (R282). -/
def logicalLane (w cwseq : Nat) : Nat := cwseq % w

/-- An idle word has zero in bits [3:0]; the first word of a frame has VER = 1 there (R283). -/
def wordVer (word : List Byte) : Nat := (word.headD 0).toNat % 16

/-- Bytes of the frame whose header stands at the front: an LD has no payload (Table 11.6). -/
def wireLength (bs : List Byte) : Nat :=
  let h := BitVec.ofNat 256 (leNat (bs.take 32))
  40 + if (h.extractLsb' 10 8).toNat = opLd then 0 else (h.extractLsb' 108 13).toNat

/-- HCRC of a header's bytes holds. -/
def headerHolds (bs : List Byte) : Bool := (crc16 (bs.take 30)).toNat == leNat ((bs.take 32).drop 30)

/-- What a receiver makes of the next word: idle fill, a frame's start, a part of the frame in progress, or damage after which it skips
(R283, R284). Frames it has found stand behind it. -/
def PcsRx.word (x : PcsRx × List (List Byte)) (word : List Byte) : PcsRx × List (List Byte) :=
  if x.1.skip then x
  else if x.1.frame.isEmpty then
    if wordVer word = 0 then x
    else if wordVer word = 1 then ({ x.1 with frame := word }, x.2)
    else ({ skip := true, frame := [] }, x.2)
  else
    let bs := x.1.frame ++ word
    if bs.length = 32 && !headerHolds bs then ({ skip := true, frame := [] }, x.2)
    else if 40 ≤ bs.length && wireLength bs ≤ bs.length then ({ x.1 with frame := [] }, x.2 ++ [bs])
    else ({ x.1 with frame := bs }, x.2)

/-- The 8-byte words of a run of bytes. -/
def wordsOf (bs : List Byte) : List (List Byte) := (List.range (bs.length / 8)).map fun i => (bs.drop (8 * i)).take 8

/-- A codeword in stream order: an uncorrectable one (none) discards the frame in progress; a receiver that skips goes on at the
FSTART of the first codeword that has one (R284). -/
def PcsRx.take (x : PcsRx) (c : Option Codeword) : PcsRx × List (List Byte) :=
  match c with
  | none => ({ skip := true, frame := [] }, [])
  | some c =>
    if !x.skip then (wordsOf c.data).foldl PcsRx.word (x, [])
    else match c.start with
      | none => (x, [])
      | some k => ((wordsOf c.data).drop k).foldl PcsRx.word ({ skip := false, frame := [] }, [])

/-- Codewords one after another. -/
def PcsRx.takeAll (x : PcsRx) : List (Option Codeword) → PcsRx × List (List Byte)
  | [] => (x, [])
  | c :: t =>
    let r := x.take c
    let q := PcsRx.takeAll r.1 t
    (q.1, r.2 ++ q.2)

end Sys2Proof.Machine
end

