-- ==== Sys2Proof/Machine/SwitchCore.lean ====
section
/-! DEFINITION. The switch core and the traffic manager: admission, start-time fair queuing, token buckets, gates, ageing,
the leak audit, bank retirement and multicast groups (chapters 13 and 14). -/

namespace Sys2Proof.Machine

/-! ## Accounts (R330, Tables 13.2 and 13.5) -/

/-- Shared cells in service: 506,608 less 4,096 for each bank group out of service. -/
def State.sharedCells (s : State) : Nat := 506608 - 4096 * s.closedGroups.length

/-- BUF_MIN of an account's profile, before scaling. -/
def State.bufMinAsked (s : State) (a : Nat) : Nat :=
  match s.get SC_PART_BUF.PROFILE a with
  | 0 => s.get SC_PART_BUF.BUF_MIN a
  | 1 => 0
  | _ => if a < 64 then s.shareNow a * s.sharedCells / 256 else 0

/-- The sum of BUF_MIN over the 65 accounts. -/
def State.bufMinSum (s : State) : Nat := (List.range 65).foldl (fun n a => n + s.bufMinAsked a) 0

/-- Bank groups are out of service for good and the guarantees exceed what is left, so they are scaled (R330). -/
def State.minsScaled (s : State) : Bool := !s.lostGroups.isEmpty && s.sharedCells < s.bufMinSum

/-- BUF_MIN as enforced (R330). -/
def State.bufMin (s : State) (a : Nat) : Nat :=
  if s.minsScaled then s.bufMinAsked a * s.sharedCells / s.bufMinSum else s.bufMinAsked a

/-- BUF_MAX of an account's profile. -/
def State.bufMax (s : State) (a : Nat) : Nat :=
  match s.get SC_PART_BUF.PROFILE a with
  | 0 => s.get SC_PART_BUF.BUF_MAX a
  | 3 => 2 * s.bufMin a
  | _ => s.sharedCells

/-- Shared cells an account uses. -/
def State.sharedUse (s : State) (a : Nat) : Nat :=
  (s.sc.frames.filter fun b => b.acct == a && b.shared).foldl (fun n b => n + b.cells) 0

/-- Reserve cells an account uses on a VC. -/
def State.reserveUse (s : State) (a vc : Nat) : Nat :=
  (s.sc.frames.filter fun b => b.acct == a && !b.shared && b.frame.vc.toNat == vc).foldl (fun n b => n + b.cells) 0

/-- BUF_MIN cells the other accounts have not used. -/
def State.unusedMins (s : State) (a : Nat) : Nat :=
  ((List.range 65).filter (· != a)).foldl (fun n b => n + (s.bufMin b - s.sharedUse b)) 0

/-- Where a frame's cells come from: shared (true), the VC reserve (false), or it waits (R330). -/
def State.admits (s : State) (a vc n : Nat) : Option Bool :=
  if s.sharedUse a + n ≤ s.bufMax a && n + s.unusedMins a ≤ s.get SC_STATUS.FREE_CELLS then some true
  else if n + s.reserveUse a vc ≤ 34 then some false
  else none

/-- FQ_MAX of the partition's traffic profile (Table 14.4). -/
def State.fqMax (s : State) (p : Nat) : Nat :=
  if s.get TM_PART_CFG.PROFILE p = 0 then s.get TM_PART_CFG.FQ_MAX p else 512

/-- The frame finds its queues bound, or may bind them within FQ_MAX and the pool of 32,768 (R342). -/
def State.queuesOk (s : State) (f : Frame) (sub : Nat) (egress : List Nat) : Bool :=
  let qs := s.queues
  let new := egress.filter fun e => !qs.contains (e, serviceOf f, sub)
  new.isEmpty || ((qs.filter fun q => q.2.1 / 8 == f.part.toNat).length + new.length ≤ s.fqMax f.part.toNat &&
    qs.length + new.length ≤ 32768)

/-- Bytes of a service queued at an egress (R356). -/
def State.serviceBytes (s : State) (egress svc : Nat) : Nat :=
  (s.sc.frames.filter fun b => b.held.isNone && b.egress.contains egress && serviceOf b.frame == svc).foldl
    (fun n b => n + frameLen (b.formAt egress)) 0

/-- A port in whose direction a frame may wait: a local egress, or a port that is not fenced and is up (R334), or for a frame of one
target in REPAIR, since frames held during a swap are sent afterwards (R290). -/
def State.egressOpen (s : State) (mc : Bool) (e : Nat) : Bool :=
  512 ≤ e || ((s.portUp e || (!mc && s.get LK_PORT_STATUS.STATE e == 3)) && !s.flag LP_PORT_CFG.FENCE e)

/-- Occupancy high-water mark of a service at an egress, in 256-byte units (R357). -/
def State.markOccupancy (s : State) (egress svc : Nat) : State :=
  let n := (s.serviceBytes egress svc + 255) / 256
  if svc < 512 then s.put TM_SVC_HWM.OCC_HWM svc (min (max n (s.get TM_SVC_HWM.OCC_HWM svc)) 16777215) else s

/-- The staged frame at `index` is admitted, waits, or is dropped for a zero LINK fare (R330, R331, R334, R342, R356). -/
def State.takeIn (s : State) (index : Nat) : State :=
  match s.sc.staged[index]? with
  | none => s
  | some x =>
    let f := x.frame
    let n := frameCells f
    let rest := s.sc.staged.eraseIdx index
    let unstage (s : State) : State := { s with sc := { s.sc with staged := rest } }
    let older := (s.sc.staged.take index).any fun y => y.acct == x.acct && y.frame.vc == f.vc
    let eg := x.egress.filter (s.egressOpen (attrMc f))
    if older then s
    else if eg.isEmpty then
      let s := (unstage s).freeCredits x.ingress f
      if !attrMc f && x.egress.any (s.flag LP_PORT_CFG.FENCE ·) then s.fenceDrop f else s
    else if x.acct < 64 && s.faresBind && s.fare x.acct .link == 0 && eg.any (· < 512) then
      ((unstage s).bump SC_PART_DROP.NOFARE x.acct 1).freeCredits x.ingress f
    else if x.held.isNone && !s.queuesOk f x.sub eg then s
    else match s.admits x.acct f.vc.toNat n with
      | none => s
      | some sh =>
        let chain := s.allocate n
        if chain.length < n then s
        else
        let congested := eg.any fun e => s.get TM_CFG.CE_KB * 1024 < s.serviceBytes e (serviceOf f)
        let mark (f : Frame) : Frame := if congested then { f with ce := if f.ce == 15#4 then 15#4 else f.ce + 1 } else f
        let b : BufFrame :=
          { fid := s.sc.nextFid, frame := mark f, acct := x.acct, chain := chain, shared := sh, sub := x.sub,
            egress := eg, held := x.held, admitted := s.tb.hclk, owner := x.owner, forms := x.forms.map fun y => (y.1, mark y.2),
            gateHeld := false }
        let s := unstage s
        let s := { s with sc := { s.sc with frames := s.sc.frames ++ [b], nextFid := s.sc.nextFid + 1 } }
        let s := (s.takeCells x.acct chain sh).freeCredits x.ingress f
        (eg.foldl (fun s e => s.markOccupancy e (serviceOf f)) s).syncBuffer

/-- BUFFER_ADMISSION (R330). -/
def execBufferAdmission (index : Nat) (s : State) : Host.Outcome State Fault Refusal := .next (whenUp s fun s => s.takeIn index)

/-! ## Ports' credits (R296, R297) -/

/-- What a frame of cost `n` takes from the three pots, in order; the floor only when all 32 reserved credits of the VC were
free (R296), the pool within the partition's share on a SWITCH port (R297). -/
def State.takeOf (s : State) (p : Nat) (f : Frame) : Option CreditTake :=
  let x := s.port p
  let v := f.vc.toNat
  let n := frameCredits f
  let r := min n (x.resv.getD v 0)
  let left := n - r
  let share := if s.get LK_PORT_CFG.ROLE p = 2 then
      min x.pool (s.get LK_PART_POOL.POOL f.part.toNat - Tab.get 0 x.poolUse f.part.toNat) else x.pool
  let c := min left share
  let left := left - c
  let fl := if 32 ≤ x.resv.getD v 0 then min left (x.floor.getD v 0) else 0
  if left - fl = 0 then some { vc := v, part := f.part.toNat, resv := r, pool := c, floor := fl } else none

/-- Takes a frame's credits from the peer's pots. -/
def State.takeCredits (s : State) (p : Nat) (f : Frame) : State :=
  match s.takeOf p f with
  | none => s
  | some t =>
    let x := s.port p
    s.setPort p
      { x with
        resv := x.resv.set t.vc (x.resv.getD t.vc 0 - t.resv),
        floor := x.floor.set t.vc (x.floor.getD t.vc 0 - t.floor),
        pool := x.pool - t.pool, poolUse := Tab.set 0 x.poolUse t.part (Tab.get 0 x.poolUse t.part + t.pool),
        taken := x.taken ++ [t] }

/-! ## Token buckets (R350) -/

/-- Thousandths of a byte a full bucket holds. -/
def bucketFull (burst : Nat) : Nat := burst * 256 * 1000

/-- A service's bucket; an unlisted one is full. -/
def State.svcTokens (s : State) (v : Nat) : Nat := (Tab.find s.tm.svcBucket v).getD (bucketFull (s.get TM_SVC_SHAPE.BURST v))

/-- A subscriber's bucket. -/
def State.subTokens (s : State) (u : Nat) : Nat := (Tab.find s.tm.subBucket u).getD (bucketFull (s.get TM_SUB_SHAPE.BURST u))

/-- Both buckets hold the frame's length; RATE 0 is unlimited (R343 condition 2). -/
def State.tokensOk (s : State) (svc sub len : Nat) : Bool :=
  (s.get TM_SVC_SHAPE.RATE svc == 0 || len * 1000 ≤ s.svcTokens svc) && (s.get TM_SUB_SHAPE.RATE sub == 0 || len * 1000 ≤ s.subTokens sub)

/-- Charges both buckets (R345). -/
def State.takeTokens (s : State) (svc sub len : Nat) : State :=
  let a := if s.get TM_SVC_SHAPE.RATE svc = 0 then s.tm.svcBucket else Tab.put s.tm.svcBucket svc (s.svcTokens svc - len * 1000)
  let b := if s.get TM_SUB_SHAPE.RATE sub = 0 then s.tm.subBucket else Tab.put s.tm.subBucket sub (s.subTokens sub - len * 1000)
  { s with tm := { s.tm with svcBucket := a, subBucket := b } }

/-- Credits a table of buckets for 8 ns: RATE × 10^6 B/s is 8 × RATE thousandths of a byte; full buckets leave the list. -/
def refillBuckets (rate burst : Nat → Nat) (t : Tab Nat) : Tab Nat :=
  t.filterMap fun e =>
    let v := e.2 + 8 * rate e.1
    if bucketFull (burst e.1) ≤ v then none else some (e.1, v)

/-- TOKEN_BUCKET_REFILL: every bucket is credited for 8 ns up to BURST (R350). -/
def execTokenBucketRefill (s : State) : Host.Outcome State Fault Refusal :=
  .next (whenUp s fun s =>
    { s with tm := { s.tm with
        svcBucket := refillBuckets (fun v => s.get TM_SVC_SHAPE.RATE v) (fun v => s.get TM_SVC_SHAPE.BURST v) s.tm.svcBucket,
        subBucket := refillBuckets (fun u => s.get TM_SUB_SHAPE.RATE u) (fun u => s.get TM_SUB_SHAPE.BURST u) s.tm.subBucket } })

/-! ## Gate control lists (R351 to R355) -/

/-- The cycle of a list in 8 ns units. -/
def gclCycle (l : Gcl) : Nat := l.entries.foldl (fun n e => n + e.2) 0

/-- GATES of an entry open a VC. -/
def gateBit (gates v : Nat) : Bool := gates / 2 ^ v % 2 == 1

/-- The ACTIVE list's entry in force at a port, if one is. -/
def State.gateEntry (s : State) (p : Nat) : Option (Gcl × Nat) :=
  if !s.flag TM_GCL_CTRL.ENABLE p then none
  else match Tab.find s.tm.active p, Tab.get 0 s.tm.entry p with
    | some l, n + 1 => some (l, n)
    | _, _ => none

/-- The gate of a VC is open (R351, R353). -/
def State.gateOpen (s : State) (p v : Nat) : Bool :=
  match s.gateEntry p with
  | none => true
  | some (l, e) => gateBit (l.entries.getD e (255, 0)).1 v

/-- 8 ns units at the start of entry `e` of a list. -/
def entryStart (l : Gcl) (e : Nat) : Nat := (l.entries.take e).foldl (fun n x => n + x.2) 0

/-- The place of the time base in a list's cycle, in nanoseconds (R351). -/
def State.cyclePos (s : State) (l : Gcl) : Nat := (s.tb.ns + 1000000000 - l.offset * 8 % 1000000000) % (gclCycle l * 8)

/-- The time base stands at a start of the list's cycle. -/
def State.atCycleStart (s : State) (l : Gcl) : Bool := s.cyclePos l / 8 == 0

/-- The entry of a list that stands `u` units into its cycle. -/
def entryAt : List (Nat × Nat) → Nat → Nat
  | [], _ => 0
  | x :: t, u => if u < x.2 then 0 else 1 + entryAt t (u - x.2)

/-- Units a gate has been open when entry `e` starts: the entries before it while they open it, in at most `n` steps. -/
def openBefore (l : Gcl) (v : Nat) : Nat → Nat → Nat
  | 0, _ => 0
  | n + 1, e =>
    let p := (e + l.entries.length - 1) % l.entries.length
    let x := l.entries.getD p (0, 0)
    if gateBit x.1 v then x.2 + openBefore l v n p else 0

/-- Nanoseconds since the gate of a VC opened. -/
def State.openedFor (s : State) (p v : Nat) : Nat :=
  match s.gateEntry p with
  | none => 0
  | some (l, e) => s.cyclePos l - entryStart l e * 8 + openBefore l v l.entries.length e * 8

/-- Units a gate stays open from the start of entry `e`: that entry and the ones that follow while they open it. -/
def openRun (l : Gcl) (v : Nat) : Nat → Nat → Nat
  | 0, _ => 0
  | n + 1, e =>
    let x := l.entries.getD (e % l.entries.length) (0, 0)
    if gateBit x.1 v then x.2 + openRun l v n (e + 1) else 0

/-- Nanoseconds left until the gate of a VC closes, from the time base's place in the cycle. -/
def State.windowLeft (s : State) (p v : Nat) : Option Nat :=
  match s.gateEntry p with
  | none => none
  | some (l, e) =>
    let c := gclCycle l
    let run := openRun l v l.entries.length e
    if c = 0 || c ≤ run then none
    else some ((entryStart l e + run) * 8 - s.cyclePos l)

/-- The longest open window of a VC in the cycle, in nanoseconds. -/
def longestWindow (l : Gcl) (v : Nat) : Nat :=
  8 * ((List.range l.entries.length).foldl (fun m e => max m (openRun l v l.entries.length e)) 0)

/-- A frame of `len` bytes is sent within `ns` at a port's trained rate of 25 bytes per ns and lane (Table 11.1). -/
def State.fitsIn (s : State) (p len ns : Nat) : Bool := len ≤ 25 * widthLanes (s.get LK_PORT_STATUS.WIDTH_UP p) * ns

/-- STRICT_FIT is in force and the frame fits no window at all (R355). -/
def State.forced (s : State) (p : Nat) (f : Frame) : Bool :=
  match s.gateEntry p with
  | none => false
  | some (l, _) => s.get TM_GCL_CTRL.MODE p == 0 && (s.windowLeft p f.vc.toNat).isSome &&
      !s.fitsIn p (frameLen f) (longestWindow l f.vc.toNat)

/-- Condition 1 of R343: the gate is open and, in STRICT_FIT, the frame fits or is forced. -/
def State.gateOk (s : State) (p : Nat) (f : Frame) : Bool :=
  s.gateOpen p f.vc.toNat &&
    (s.get TM_GCL_CTRL.MODE p == 1 || s.forced p f ||
      (match s.windowLeft p f.vc.toNat with
       | none => true
       | some ns => s.fitsIn p (frameLen f) ns))

/-! ## Start-time fair queuing (R343, R348) -/

/-- The head of each subscriber queue at an egress, in admission order. -/
def State.heads (s : State) (e : Nat) : List BufFrame :=
  (s.sc.frames.filter fun b => b.held.isNone && b.egress.contains e).foldl (fun acc b =>
    if acc.any fun a => serviceOf a.frame == serviceOf b.frame && a.sub == b.sub then acc else acc ++ [b]) []

/-- The group whose LINK balance a frame draws on at an egress: that of the context of the form it sends there. -/
def State.payGroup (s : State) (e : Nat) (b : BufFrame) : Nat :=
  let sub := if b.forms.any (·.1 == e) then (b.formAt e).ctx.toNat else b.sub
  if sub < 4096 then s.ctxGroup sub else 0

/-- The LINK balance covers a frame; DEV frames are exempt (R343 condition 3). -/
def State.linkOk (s : State) (e : Nat) (b : BufFrame) : Bool :=
  b.acct == acctDev || s.covers b.frame.part.toNat (s.payGroup e b) .link ((frameLen (b.formAt e) + 255) / 256)

/-- Condition 1 of R343 for a frame in the buffer: one that fits no window waits for its gate's next opening, so it was admitted before
the gate opened (R355, log entry 94). -/
def State.gateStarts (s : State) (e : Nat) (b : BufFrame) : Bool :=
  let f := b.formAt e
  s.gateOk e f && (!s.forced e f || s.openedFor e f.vc.toNat * 6 ≤ (s.tb.hclk - b.admitted) * 5)

/-- Every condition of R343; at a local egress the consumer has room. -/
def State.eligible (s : State) (e : Nat) (b : BufFrame) : Bool :=
  let f := b.formAt e
  512 ≤ e || (s.portUp e && s.gateStarts e b && s.tokensOk (serviceOf f) b.sub (frameLen f) && s.linkOk e b && (s.takeOf e f).isSome)

/-- Tags are 64-bit integers compared modulo 2^64. -/
def tagLe (a b : Nat) : Bool := (b + 18446744073709551616 - a % 18446744073709551616) % 18446744073709551616 < 9223372036854775808

/-- start(x, v): a woken tag takes the later of S and V. -/
def startTag (t : Tag) (v : Nat) : Tag := if t.woken then ⟨if tagLe t.start v then v else t.start, false⟩ else t

/-- The smallest start tag, ties to the lower index: (index, tag). -/
def minTag (l : List (Nat × Tag)) : Option (Nat × Tag) :=
  l.foldl (fun m x => match m with
    | none => some x
    | some y => if x.2.start == y.2.start then (if x.1 < y.1 then some x else some y)
                else if tagLe x.2.start y.2.start then some x else some y) none

/-- CLASS_WT of a VC by traffic profile (Table 14.4). -/
def State.classWt (s : State) (p v : Nat) : Nat :=
  match s.get TM_PART_CFG.PROFILE p with
  | 0 => s.get TM_PART_CFG.CLASS_WT (8 * p + v)
  | 2 => if v = 2 ∨ v = 3 then 4 else 1
  | 3 => if v = 4 ∨ v = 5 then 4 else 1
  | _ => 1

/-- A service's weight (Table 14.1). -/
def State.svcWeight (s : State) (svc : Nat) : Nat :=
  let w := s.get TM_SVC_SHAPE.WEIGHT svc
  if w = 0 then max (s.shareNow (svc / 8)) 1 * s.classWt (svc / 8) (svc % 8) else w

/-- advance: F = S + ceil(length × 65536 ÷ weight), modulo 2^64. -/
def finishTag (start len weight : Nat) : Nat := (start + (len * 65536 + weight - 1) / weight) % 18446744073709551616

/-- The frame an egress picks, with the tags that the pick leaves (R348). A passed-over service or subscriber of the chosen
service wakes later. -/
def State.pick (s : State) (e : Nat) : Option (BufFrame × State) :=
  let hs := s.heads e
  let ok := hs.filter (s.eligible e)
  let svcs := (ok.map fun b => serviceOf b.frame).eraseDups
  let all := (hs.map fun b => serviceOf b.frame).eraseDups
  let v := Tab.get 0 s.tm.egressV e
  let tagsNow := svcs.map fun x => (x, startTag (Tab.get Tag.reset s.tm.svcTag (svcKey e x)) v)
  match minTag tagsNow with
  | none => none
  | some (svc, st) =>
    let svcTag := (all.filter fun x => !svcs.contains x).foldl (fun t x =>
      Tab.set Tag.reset t (svcKey e x) { Tab.get Tag.reset t (svcKey e x) with woken := true }) s.tm.svcTag
    let svcTag := tagsNow.foldl (fun t x => Tab.set Tag.reset t (svcKey e x.1) x.2) svcTag
    let w := Tab.get 0 s.tm.serviceV (svcKey e svc)
    let mine := hs.filter fun b => serviceOf b.frame == svc
    let subs := (mine.filter (s.eligible e)).map fun b => (b.sub, startTag (Tab.get Tag.reset s.tm.subTag (subKey e svc b.sub)) w)
    let subTag := (mine.filter fun b => !s.eligible e b).foldl (fun t b =>
      Tab.set Tag.reset t (subKey e svc b.sub) { Tab.get Tag.reset t (subKey e svc b.sub) with woken := true }) s.tm.subTag
    let subTag := subs.foldl (fun t x => Tab.set Tag.reset t (subKey e svc x.1) x.2) subTag
    match minTag subs with
    | none => none
    | some (sub, qt) =>
      match mine.find? (·.sub == sub) with
      | none => none
      | some b =>
        let len := frameLen (b.formAt e)
        let waits (p : BufFrame → Bool) : Bool := s.sc.frames.any fun x =>
          x.fid != b.fid && x.held.isNone && x.egress.contains e && serviceOf x.frame == svc && p x
        let svcTag := Tab.set Tag.reset svcTag (svcKey e svc) ⟨finishTag st.start len (s.svcWeight svc), !waits fun _ => true⟩
        let subTag := Tab.set Tag.reset subTag (subKey e svc sub)
          ⟨finishTag qt.start len (s.get TM_SUB_SHAPE.WEIGHT sub), !waits fun x => x.sub == sub⟩
        some (b, { s with tm := { s.tm with
          egressV := Tab.set 0 s.tm.egressV e st.start, serviceV := Tab.set 0 s.tm.serviceV (svcKey e svc) qt.start,
          svcTag := svcTag, subTag := subTag } })

/-- The form in which a frame leaves by a port: toward an endpoint SRC and DST become ranks of the frame's epoch (R307,
R310). -/
def State.wireForm (s : State) (e : Nat) (f : Frame) : Frame :=
  if e < 512 && s.get LK_PORT_CFG.ROLE e == 0 then
    match s.epochSlot f.part.toNat f.epoch.toNat with
    | some sl =>
      let rk (id : Nat) : BitVec 16 := BitVec.ofNat 16 ((s.rankOf f.part.toNat sl id).getD 0)
      sealHeader { f with src := rk f.src.toNat, dst := rk (s.get LP_PORT_CFG.EP_ID e) }
    | none => sealHeader f
  else sealHeader f

/-- Counts what R354 and R355 count when a frame starts. -/
def State.countGate (s : State) (e : Nat) (f : Frame) : State :=
  if s.forced e f then s.bump TM_PORT_STAT.FORCED e 1
  else match s.windowLeft e f.vc.toNat with
    | some ns => if s.get TM_GCL_CTRL.MODE e == 1 && !s.fitsIn e (frameLen f) ns then s.bump TM_PORT_STAT.OVERRUN e 1 else s
    | none => s

/-- Frames whose open window is too short wait and are counted once each (R354). -/
def State.countHolds (s : State) (e : Nat) : State :=
  let late (b : BufFrame) : Bool := !b.gateHeld && s.gateOpen e b.frame.vc.toNat && !s.gateStarts e b
  let hs := if e < 512 then (s.heads e).filter late else []
  hs.foldl (fun s b =>
    { s.bump TM_PORT_STAT.GATE_HOLD e 1 with
        sc := { s.sc with frames := replaceFirst (·.fid == b.fid) (fun x => { x with gateHeld := true }) s.sc.frames } }) s

/-- What a bank word read with the frame does: a correction is counted, and BANK_RETIRE of them within 24 hours retire the bank; an
uncorrectable word drops the frame (R328). -/
def State.bankWord (s : State) (w : Option (Nat × Bool)) : State :=
  match w with
  | none => s
  | some (b, false) =>
    let s := s.countDay SC_BANK_STATUS.CE_24H b
    if s.get SC_BANK_STATUS.STATE b == 0 && s.get SC_CFG.BANK_RETIRE ≤ s.dayCount SC_BANK_STATUS.CE_24H b then s.retireBank b else s
  | some (b, true) => (s.bump SC_BANK_STATUS.UE b 1).log { cause := .bankUe, loc := b, count := 1 }

/-- A frame on a port's stream: the codewords it completes go out on their lanes (R281, R283). -/
def State.pcsSend (s : State) (e : Nat) (f : Frame) : State :=
  let x := s.port e
  let r := x.tx.send (widthLanes (s.get LK_PORT_STATUS.WIDTH_UP e)) f
  r.1.foldl (fun s c => s.emit (.codeword e c.1 c.2)) ((s.setPort e { x with tx := r.2 }).emit (.frame e f))

/-- The chosen frame leaves by egress `e`: charges, credits, the reference released, the frame on the wire or at its
consumer (R332, R345, R357). -/
def State.sendChosen (s : State) (e : Nat) (b : BufFrame) : State :=
  let f := b.formAt e
  let g := s.payGroup e b
  let s := s.releaseEgress e (·.fid == b.fid)
  if e < 512 then
    let s := (s.countGate e f).takeTokens (serviceOf f) b.sub (frameLen f)
    let s := if b.acct = acctDev then s else s.charge f.part.toNat g .link ((frameLen f + 255) / 256)
    (s.takeCredits e f).pcsSend e (s.wireForm e f)
  else s.emit (.deliver e f)

/-- An egress chooses and starts one frame. -/
def State.select (s : State) (e : Nat) (w : Option (Nat × Bool)) : State :=
  let s := s.countHolds e
  match s.pick e with
  | none => s
  | some (b, s) =>
    match w with
    | some (_, true) => (((s.bankWord w).bump SC_PART_DROP.ECC b.acct 1).dropFrame b.fid).syncBuffer
    | _ => (s.bankWord w).sendChosen e b

/-- FRAME_SELECT (R348). -/
def execFrameSelect (egress : Nat) (bankWord : Option (Nat × Bool)) (s : State) : Host.Outcome State Fault Refusal :=
  .next (whenUp s fun s => s.select egress bankWord)

/-- FRAME_AGE_OUT: a frame in the buffer AGE_US after its admission is dropped and counted (R333). -/
def execFrameAgeOut (fid : Nat) (s : State) : Host.Outcome State Fault Refusal :=
  .next (whenUp s fun s =>
    match s.sc.frames.find? (·.fid == fid) with
    | none => s
    | some b =>
      if s.tb.hclk < b.admitted + usCycles (s.get SC_CFG.AGE_US) then s
      else ((s.bump SC_PART_DROP.AGED b.acct 1).dropFrame fid).syncBuffer)

/-! ## Gate lists: rows -/

/-- The PENDING list as TM_GCL_DATA and TM_GCL_CTRL hold it. -/
def State.pendingList (s : State) (p : Nat) : Gcl :=
  { entries := (List.range (s.get TM_GCL_CTRL.NENT p)).map fun e =>
      let w := Tab.get 0 s.tm.pendData (p * 256 + e)
      (w % 256, w / 256 % 16777216),
    offset := s.get TM_GCL_CTRL.OFFSET p }

/-- The longest closed interval of a VC, counted across the wrap, in 8 ns units; `none` when it is never open. -/
def longestClosed (l : Gcl) (v : Nat) : Option Nat :=
  if l.entries.any fun e => gateBit e.1 v then
    let run := (l.entries ++ l.entries).foldl (fun (x : Nat × Nat) e =>
      if gateBit e.1 v then (0, x.2) else (x.1 + e.2, max x.2 (x.1 + e.2))) (0, 0)
    some run.2
  else none

/-- The cause for which R352 refuses a list; 0 when it is accepted (Table 14.9). -/
def State.gclCause (s : State) (l : Gcl) : Nat :=
  let c := gclCycle l
  if l.entries.length < 1 ∨ 256 < l.entries.length then 4
  else if c = 0 ∨ 125000000 % c ≠ 0 then 1
  else if c ≤ l.offset then 5
  else if (List.range 8).any fun v => (longestClosed l v).isNone then 2
  else if (List.range 8).any fun v => s.get SC_CFG.AGE_US * 125 ≤ (longestClosed l v).getD 0 then 3
  else 0

/-- COMMIT: the PENDING list is checked and scheduled, or refused with its cause (R352). -/
def State.gclCommit (s : State) (p : Nat) : State :=
  let l := s.pendingList p
  let c := s.gclCause l
  let s := s.put TM_GCL_CTRL.CAUSE p c
  if c = 0 then
    { s.put TM_GCL_CTRL.PENDING p 1 with tm := { s.tm with pending := Tab.put s.tm.pending p l } }
  else s.put TM_GCL_CTRL.REFUSED p 1

/-- GCL_COMMIT (R352). -/
def execGclCommit (port : Nat) (s : State) : Host.Outcome State Fault Refusal :=
  .next (whenUp s fun s => if port < 512 then s.gclCommit port else s)

/-- A TIME frame may leave: gate 7 is open and, in STRICT_FIT, its 104 bytes fit (R347). -/
def State.timeGate (s : State) (p : Nat) : Bool :=
  s.gateOpen p 7 && (s.get TM_GCL_CTRL.MODE p == 1 ||
    (match s.windowLeft p 7 with
     | none => true
     | some ns => s.fitsIn p 104 ns || !s.fitsIn p 104 (match s.gateEntry p with | some (l, _) => longestWindow l 7 | none => 0)))

/-- A TIME frame leaves: the send times of SYNC and DELAY_REQ are those of this instant (R412). -/
def State.emitTime (s : State) (x : TimeOut) : State :=
  let t := if x.typ = 0 then s.now else x.time
  let s := if x.typ = 1 then { s with tb := { s.tb with delayReq := some (x.seq, s.now) } } else s
  s.emit (.link x.port 0x64 [x.typ, x.seq, t.sec, t.ns, t.frac])

/-- The TIME frames that wait at a port leave once its gate lets them. -/
def State.releaseTimes (s : State) (p : Nat) : State :=
  if s.timeGate p then
    (s.tm.times.filter (·.port == p)).foldl State.emitTime
      { s with tm := { s.tm with times := s.tm.times.filter (·.port != p) } }
  else s

/-- The entry in force at a port, plus 1; 0: every gate is open. -/
def State.setGate (s : State) (p e : Nat) : State :=
  ({ s with tm := { s.tm with entry := Tab.set 0 s.tm.entry p e } } : State).releaseTimes p

/-- The accepted list becomes ACTIVE with its entry 0 in force. -/
def State.activateGates (s : State) (port : Nat) (l : Gcl) : State :=
  let s := (s.put TM_GCL_CTRL.PENDING port 0).put TM_GCL_CTRL.BANK port (1 - s.get TM_GCL_CTRL.BANK port)
  ({ s with tm := { s.tm with active := Tab.put s.tm.active port l, pending := Tab.erase s.tm.pending port } } : State).setGate port 1

/-- GATE_ENTRY_BOUNDARY: the entry begins that the time base names (R351). While every gate is open a list comes into force at a
cycle start only; at the end of its cycle the list gives way to an accepted one, at once where that list's cycle starts too
(R353). -/
def execGateEntryBoundary (port : Nat) (s : State) : Host.Outcome State Fault Refusal :=
  .next (whenUp s fun s =>
    match Tab.find s.tm.active port with
    | none => s
    | some l =>
      let e := entryAt l.entries (s.cyclePos l / 8)
      let waits := Tab.get 0 s.tm.entry port == 0
      match Tab.find s.tm.pending port with
      | none => if waits && e != 0 then s else s.setGate port (e + 1)
      | some l' =>
        if waits then s
        else if e != 0 then s.setGate port (e + 1)
        else if s.atCycleStart l' then s.activateGates port l'
        else s.setGate port 0)

/-- GCL_ACTIVATE: at a start of its cycle the accepted list becomes ACTIVE, if the ACTIVE list is at its end or not in force
(R353). -/
def execGclActivate (port : Nat) (s : State) : Host.Outcome State Fault Refusal :=
  .next (whenUp s fun s =>
    match Tab.find s.tm.pending port with
    | none => s
    | some l' =>
      let atEnd := match s.gateEntry port with
        | none => true
        | some (l, _) => s.atCycleStart l
      if s.atCycleStart l' && atEnd then s.activateGates port l' else s)

/-- A step of the time base ends the current entry of every list: each gate is open until the next cycle start (R353). -/
def State.gatesStepped (s : State) : State :=
  let s := { s with tm := { s.tm with entry := [] } }
  ((s.tm.times.map (·.port)).eraseDups).foldl State.releaseTimes s

/-! ## Leak audit, bank retirement, multicast -/

/-- LEAK_AUDIT_PASS: cells unmarked in two passes running are reclaimed, frames that hold a cell also on the free list are
dropped, and the count is checked (R337). `unmarked` are the cells this pass found nonzero and unmarked, `doubles` the cells of
frames found on the free list too, and `mismatch` says the count was wrong beyond the cells that stay unmarked. -/
def execLeakAuditPass (unmarked doubles : List Nat) (mismatch : Bool) (s : State) : Host.Outcome State Fault Refusal :=
  .next (whenUp s fun s =>
    let marked := s.sc.frames.flatMap (·.chain)
    let seen := unmarked.filter fun c => !marked.contains c
    let leaked := seen.filter s.sc.unmarked.contains
    let left := seen.filter fun c => !leaked.contains c
    let both := doubles.filter marked.contains
    let free := s.get SC_STATUS.FREE_CELLS + s.openCells s.sc.unmarked - s.openCells left
    let s := (s.put SC_AUDIT_STAT.PASSES 0 (s.get SC_AUDIT_STAT.PASSES + 1)).put SC_STATUS.FREE_CELLS 0 free
    let s := { s with sc := { s.sc with unmarked := left } }
    let s := if leaked.isEmpty then s
      else (s.bump SC_AUDIT_STAT.LEAKED 0 leaked.length).log { cause := .cellLeak, count := leaked.length }
    let s := if both.isEmpty then s
      else (s.bump SC_AUDIT_STAT.DOUBLE 0 both.length).dropFrames (fun b => b.chain.any both.contains) (fun _ => false)
    if mismatch || !left.isEmpty then s.bump SC_AUDIT_STAT.MISMATCH 0 1 else s)

/-- BANK_RETIRE: by count, whether a spare is left or not (R328). -/
def execBankRetire (bank : Nat) (s : State) : Host.Outcome State Fault Refusal :=
  .next (whenUp s fun s => if bank < 522 && s.get SC_BANK_STATUS.STATE bank == 0 then s.retireBank bank else s)

/-- A write of SC_BANK_RETIRE: a bank that is not ACTIVE, or no spare left, is refused (chapter 13, "Control"). -/
def State.bankRetireWrite (s : State) (bank : Nat) : State :=
  if bank < 522 && s.get SC_BANK_STATUS.STATE bank == 0 && s.spareBank.isSome then s.retireBank bank
  else s.put SC_CFG.REFUSED 0 1

/-- SC_MC_SEL.OP: the entry takes SC_MC_DATA in one cycle; frames already enqueued keep their targets (R334, R339). -/
def State.mcSelWrite (s : State) (value : Word) : State :=
  let g := (value.extractLsb' 0 13).toNat
  let s := s.put SC_MC_SEL.GROUP 0 g
  if value.getLsbD 13 then
    let ports := (List.range 512).filter fun q => s.get SC_MC_DATA.PORTS (q / 64) / 2 ^ (q % 64) % 2 == 1
    let e : McEntry := if s.flag SC_MC_DATA.VALID then { part := s.get SC_MC_DATA.PART, ports := ports } else { part := 0, ports := [] }
    { s with sc := { s.sc with groups := if s.flag SC_MC_DATA.VALID then Tab.put s.sc.groups g e else Tab.erase s.sc.groups g } }
  else s

/-- MC_WRITE (R339). -/
def execMcWrite (up : Nat) (value : Word) (s : State) : Host.Outcome State Fault Refusal :=
  .next (barWrite up 0x700020 s fun s => s.mcSelWrite value)

end Sys2Proof.Machine
end

