-- ==== Sys2Proof/Machine/Ports.lean ====
section
/-! DEFINITION. Gangway ports: training, port states, lanes, spares, credits and cable presence (chapter 11, R421). -/

namespace Sys2Proof.Machine

/-! ## Placement (R278, Table 11.1) -/

def portDisabled : Nat := 0
def portTraining : Nat := 1
def portUpState : Nat := 2
def portRepair : Nat := 3
def portDownshifted : Nat := 4
def portFailed : Nat := 5

/-- LK_PORT_STATUS.STATE. -/
def State.portState (s : State) (p : Nat) : Nat := s.get LK_PORT_STATUS.STATE p

/-- Lanes of a port of width code `w`, numbered 132 × die + lane as LK_LANE_STATUS numbers them. -/
def portLanes (p w : Nat) : List Nat := (List.range (widthLanes w)).map fun i => p / 128 * 132 + p % 128 + i

/-- A width fits at a first lane (Table 11.1). -/
def placed (p w : Nat) : Bool := p % 128 % widthLanes w == 0

/-- Enabled ports. -/
def State.enabledPorts (s : State) : List Nat := (s.touched LK_PORT_CFG.ENABLE).filter fun p => s.flag LK_PORT_CFG.ENABLE p

/-- No other enabled port uses a lane of the port at width `w`. -/
def State.noOverlap (s : State) (p w : Nat) : Bool :=
  s.enabledPorts.all fun q => q == p || (portLanes p w).all fun l => !(portLanes q (s.get LK_PORT_CFG.WIDTH q)).contains l

/-- Sparing and downshift by port profile (Table 11.13). -/
def State.sparingOn (s : State) (p : Nat) : Bool :=
  match s.get LK_PORT_CFG.PROFILE p with
  | 0 => s.flag LK_PORT_CFG.SPARE_EN p
  | 3 => false
  | _ => true

def State.downshiftOn (s : State) (p : Nat) : Bool :=
  match s.get LK_PORT_CFG.PROFILE p with
  | 0 => s.flag LK_PORT_CFG.DOWNSHIFT_EN p
  | 1 => true
  | _ => false

/-- The lane a port's bound spare has in LK_LANE_STATUS. -/
def State.spareLane (s : State) (p : Nat) : Nat := p / 128 * 132 + 128 + s.get LK_PORT_CFG.SPARE_SEL p

/-- The bound spare can take a lane's place (R290, R421). -/
def State.spareUsable (s : State) (p : Nat) : Bool :=
  s.sparingOn p && s.flag LK_PORT_CFG.SPARE_BOUND p && s.flag LK_CBL_STATUS.SPARE_PRSNT (p / 128) &&
    !s.flag LK_PORT_STATUS.SPARED p && s.get LK_LANE_STATUS.STATE (s.spareLane p) != 2

/-- Every four-lane group the port uses reads present (R421). -/
def State.cabled (s : State) (p : Nat) : Bool :=
  (portLanes p (s.get LK_PORT_CFG.WIDTH p)).all fun l => s.get LK_CBL_STATUS.GROUP_PRSNT (l / 132) / 2 ^ (l % 132 / 4) % 2 == 1

/-! ## Trays behind ports (R238, Table 9.19) -/

/-- Enabled TRAY ports, in port order. -/
def State.trayPorts (s : State) : List Nat := s.enabledPorts.filter fun q => s.get LK_PORT_CFG.ROLE q == 1

/-- The tray of a TRAY port: trays are numbered in the order in which their endpoint IDs were first reached (log entry 21). -/
def State.trayOf (s : State) (port : Nat) : Nat := (s.ty.ids.takeWhile (· != s.get LP_PORT_CFG.EP_ID port)).length

/-- The tray of a port that came up has a number. -/
def State.meetTray (s : State) (port : Nat) : State :=
  let id := s.get LP_PORT_CFG.EP_ID port
  if s.ty.ids.contains id then s else { s with ty := { s.ty with ids := s.ty.ids ++ [id] } }

/-- Pages of a tray that hold tray berths. -/
def State.trayPagesUsed (s : State) (tray : Nat) : List Nat := Tab.get [] s.ty.usedPages tray

/-- FREE_PAGES of a tray. -/
def State.syncPages (s : State) (tray : Nat) : State :=
  s.put TY_TRAY_STATUS.FREE_PAGES tray (Tab.get 0 s.ty.capacity tray - (s.trayPagesUsed tray).length)

/-- TY_TRAY_STATUS follows a TRAY port that came up or went down: a tray first reached is UP with the capacity its port
reports. -/
def State.trayPort (s : State) (p : Nat) (came : Bool) : State :=
  if s.get LK_PORT_CFG.ROLE p != 1 then s
  else
    let s := if came then s.meetTray p else s
    let tray := s.trayOf p
    let n := (s.trayPorts.filter fun q => s.portUp q && s.trayOf q == tray).length
    let first := came && n == 1
    let s := s.put TY_TRAY_STATUS.PORTS tray n
    if first then
      (({ s with ty := { s.ty with capacity := Tab.set 0 s.ty.capacity tray (s.port p).pages } } : State).put
        TY_TRAY_STATUS.STATE tray 1).syncPages tray
    else s

/-! ## State changes (R285, R288) -/

/-- Drops every frame queued for a port or held in its input buffer (R288). -/
def State.dropPortFrames (s : State) (p : Nat) : State :=
  let s := s.releaseEgress p fun b => b.egress.contains p
  let staged := s.sc.staged.filterMap fun x =>
    if x.ingress == some p then none
    else
      let eg := x.egress.filter (· != p)
      if x.egress.contains p && eg.isEmpty then none else some { x with egress := eg }
  ({ s with sc := { s.sc with staged := staged }, tm := { s.tm with times := s.tm.times.filter (·.port != p) } } : State).returnCredits
    (s.sc.staged.filter fun x => x.ingress != some p)

/-- A port starts DETECT when its cables are present, and otherwise waits in TRAINING (R285, R421). -/
def State.startTraining (s : State) (p attempts : Nat) : State :=
  let s := (s.put LK_PORT_STATUS.STATE p portTraining).put LK_PORT_STATUS.WIDTH_UP p (s.get LK_PORT_CFG.WIDTH p)
  s.setPort p { Port.reset with step := if s.cabled p then 1 else 0, attempts := attempts }

/-- A port leaves service for TRAINING: its frames are dropped, its credits restart (R288). -/
def State.toTraining (s : State) (p : Nat) : State := ((s.dropPortFrames p).startTraining p 0).trayPort p false

/-- A failed attempt is counted with its cause; after three the port is FAILED (R285). -/
def State.attemptFailed (s : State) (p cause : Nat) : State :=
  let x := s.port p
  let n := x.attempts + 1
  let s := (s.bump LK_PORT_STATUS.FAILS p 1).put LK_PORT_STATUS.FAIL_CAUSE p cause
  let s := s.put LK_PORT_STATUS.STATE p (if 3 ≤ n then portFailed else portTraining)
  s.setPort p { Port.reset with step := 0, attempts := n }

/-- The port drops to DISABLED (R288, Table 11.5). -/
def State.disablePort (s : State) (p : Nat) : State :=
  let s := (s.dropPortFrames p).put LK_PORT_STATUS.STATE p portDisabled
  ({ s with lk := { s.lk with ports := Tab.erase s.lk.ports p } } : State).trayPort p false

/-- The module's own LPARAM: VER 1, SWITCH, the trained width, its spare, its credits, no PAGES, its UID (Table 11.4, R287). -/
def State.sendLparam (s : State) (p : Nat) : State :=
  s.emit (.link p 0x63 [1, 2, s.get LK_PORT_STATUS.WIDTH_UP p, s.get LK_PORT_CFG.SPARE_BOUND p, 1784, 32, 33, 0, s.ps.uid.toNat])

/-- PORT_ENABLE: ENABLE set on a DISABLED port starts training; a width that breaks placement or overlaps an enabled port is
refused (R278, R285). -/
def State.portEnable (s : State) (p : Nat) : State :=
  if 512 ≤ p || s.portState p != portDisabled || s.flag LK_PORT_CFG.ENABLE p then s
  else
    let w := s.get LK_PORT_CFG.WIDTH p
    if placed p w && s.noOverlap p w then
      let s := s.put LK_PORT_CFG.ENABLE p 1
      ((portLanes p w).foldl (fun s l => s.put LK_LANE_STATUS.PORT l p) s).startTraining p 0
    else s.put LK_PORT_CFG.REFUSED p 1

/-- PORT_DISABLE: ENABLE cleared takes the port to DISABLED and drops its frames. -/
def State.portDisable (s : State) (p : Nat) : State :=
  if 512 ≤ p then s else (s.put LK_PORT_CFG.ENABLE p 0).disablePort p

def execPortEnable (port : Nat) (s : State) : Host.Outcome State Fault Refusal := .next (whenUp s fun s => s.portEnable port)

def execPortDisable (port : Nat) (s : State) : Host.Outcome State Fault Refusal := .next (whenUp s fun s => s.portDisable port)

/-- PARAM has agreed three times: the peer's credits are known (Table 11.3). -/
def paramDone (x : Port) : Bool := 3 ≤ x.agreed && x.resv.all (32 ≤ ·) && x.floor.all (33 ≤ ·)

/-- A training step is over; after PARAM the port is UP, or DOWNSHIFTED at a smaller width (R285, R286, Table 11.5). -/
def State.stepDone (s : State) (p : Nat) : State :=
  let x := s.port p
  if s.portState p != portTraining || x.step = 0 then s
  else if x.step < 5 then
    let s := s.setPort p { x with step := x.step + 1 }
    if x.step = 4 then s.sendLparam p else s
  else if paramDone x then
    let full := s.get LK_PORT_STATUS.WIDTH_UP p == s.get LK_PORT_CFG.WIDTH p
    let s := (s.put LK_PORT_STATUS.STATE p (if full then portUpState else portDownshifted)).setPort p { x with step := 0, attempts := 0 }
    (if full then s else s.degrade).trayPort p true
  else s

def execTrainingStepDone (port : Nat) (s : State) : Host.Outcome State Fault Refusal := .next (whenUp s fun s => s.stepDone port)

/-- Marks a lane RETIRED and logs it (R371). -/
def State.retireLane (s : State) (l p : Nat) : State :=
  (s.put LK_LANE_STATUS.STATE l 2).log
    { cause := .laneRepair, loc := loc [l / 132, l % 132, p], die := some (diePort (l / 132)) }

/-- The bound spare takes a lane's place. -/
def State.spareIn (s : State) (l p : Nat) : State :=
  (((s.retireLane l p).put LK_PORT_STATUS.SPARED p 1).put LK_LANE_STATUS.STATE (s.spareLane p) 0).put LK_LANE_STATUS.PORT (s.spareLane p) p

/-- The largest smaller width whose lanes all passed, at the first lane (R286). -/
def widthOfPassing (p w : Nat) (bad : List Nat) : Option Nat :=
  ((List.range w).filter fun v => (portLanes p v).all fun l => !bad.contains l).getLast?

/-- TRAINING_STEP_TIMEOUT: lanes that fail DETECT, EQUALIZE or LOCK are spared, or the port trains narrower, or the attempt
fails (R285, R286). -/
def State.stepTimeout (s : State) (p : Nat) (failed : List Nat) : State :=
  let x := s.port p
  let bad := failed.map fun l => p / 128 * 132 + l
  if s.portState p != portTraining || x.step = 0 then s
  else if x.step ≤ 3 && bad.length == 1 && s.spareUsable p then
    match bad with
    | [l] => (s.spareIn l p).setPort p { x with step := x.step + 1 }
    | _ => s
  else if x.step ≤ 3 && !bad.isEmpty && s.downshiftOn p then
    match widthOfPassing p (s.get LK_PORT_STATUS.WIDTH_UP p) bad with
    | some w => (s.put LK_PORT_STATUS.WIDTH_UP p w).setPort p { x with step := x.step + 1 }
    | none => s.attemptFailed p x.step
  else s.attemptFailed p x.step

def execTrainingStepTimeout (port : Nat) (failedLanes : List Nat) (s : State) : Host.Outcome State Fault Refusal :=
  .next (whenUp s fun s => s.stepTimeout port failedLanes)

/-- TRAINING_RETRY: the retry timer restarts training from DETECT (R285). -/
def execTrainingRetry (port : Nat) (s : State) : Host.Outcome State Fault Refusal :=
  .next (whenUp s fun s =>
    let x := s.port port
    if s.flag LK_PORT_CFG.ENABLE port && ((s.portState port == portTraining && x.step == 0) || s.portState port == portFailed) then
      s.startTraining port x.attempts
    else s)

/-- LINK_LOST (R288). -/
def execLinkLost (port : Nat) (s : State) : Host.Outcome State Fault Refusal :=
  .next (whenUp s fun s => if s.portUp port || s.portState port == portRepair then s.toTraining port else s)

/-! ## PARAM (R287, R316) -/

/-- The TYPE a role expects: COMPUTE for ENDPOINT, MEMORY for TRAY, SWITCH for SWITCH. -/
def roleType (role : Nat) : Nat := role

/-- The cause for which PARAM fails, 0 when it succeeds. -/
def State.paramCause (s : State) (port : Nat) (p : LParam) : Nat :=
  let role := s.get LK_PORT_CFG.ROLE port
  if p.ver ≠ 1 then 7
  else if p.width ≠ s.get LK_PORT_STATUS.WIDTH_UP port then 5
  else if p.typ ≠ roleType role then 6
  else if role = 2 ∧ p.stage = s.get LP_CFG.STAGE then 6
  else if p.rcred.length ≠ 8 ∨ p.rcred.any (· < 32) ∨ p.floor < 33 then 5
  else if role = 1 ∧ (p.pages < 1 ∨ 3145728 < p.pages) then 5
  else if role ≠ 1 ∧ p.pages ≠ 0 then 5
  else 0

/-- The parameters of a message are those of the one before it. -/
def sameParams (x : Port) (p : LParam) : Bool :=
  x.uid == p.uid && x.resv == p.rcred && x.floor == List.replicate 8 p.floor && x.pool == p.pool && x.peerSpare == p.spare && x.pages == p.pages

/-- LPARAM: the peer's parameters are checked and taken, or the attempt fails (R287); three messages running must agree, and the
module sends its own three times (Table 11.3). -/
def State.lparam (s : State) (port : Nat) (p : LParam) : State :=
  let x := s.port port
  if s.portState port != portTraining || x.step != 5 then s
  else
    let c := s.paramCause port p
    if c ≠ 0 then s.attemptFailed port c
    else
      let s := (s.put LK_PORT_STATUS.PEER_TYPE port p.typ).put LK_PORT_STATUS.PEER_UID_LO port p.uid.toNat
      let n := if 0 < x.agreed && sameParams x p then x.agreed + 1 else 1
      let s := if n < 3 then s.sendLparam port else s
      s.setPort port { x with uid := p.uid, resv := p.rcred, floor := List.replicate 8 p.floor, pool := p.pool,
                              poolUse := [], taken := [], peerSpare := p.spare, pages := p.pages, agreed := n }

/-- A link-local or TIME frame with a reserved payload bit set is malformed: it is dropped and counted, and any other acts (R10,
R295). -/
def State.reservedOk (s : State) (port rsv : Nat) (act : State → State) : State :=
  if rsv = 0 then act s else s.bump LK_PORT_ERR.PROTO port 1

def execLparam (port : Nat) (p : LParam) (s : State) : Host.Outcome State Fault Refusal :=
  .next (whenUp s fun s => s.reservedOk port p.rsv fun s => s.lparam port p)

/-! ## Lanes (R289 to R291) -/

/-- The port that uses a lane, if it is in service. -/
def State.portOfLane (s : State) (l : Nat) : Option Nat :=
  s.enabledPorts.find? fun p => (portLanes p (s.get LK_PORT_STATUS.WIDTH_UP p)).contains l ||
    (s.flag LK_PORT_STATUS.SPARED p && s.spareLane p == l)

/-- The group of a lane reads present; a spare lane needs the spare group (R421). -/
def State.laneCabled (s : State) (l : Nat) : Bool :=
  if l % 132 < 128 then s.get LK_CBL_STATUS.GROUP_PRSNT (l / 132) / 2 ^ (l % 132 / 4) % 2 == 1
  else s.flag LK_CBL_STATUS.SPARE_PRSNT (l / 132)

/-- A lane is retired: LANE_CTL names it, and the port goes to REPAIR for a swap or a downshift; without either it returns
to TRAINING (R289 to R291). A second failure waits for the first repair to finish. -/
def State.failLane (s : State) (l : Nat) : State :=
  match s.portOfLane l with
  | none => s
  | some p =>
    if s.portState p == portRepair && s.laneCabled l then
      if ((s.port p).repair.map (·.1)) == some (l % 132) || (s.port p).waiting.contains l then s
      else s.setPort p { s.port p with waiting := (s.port p).waiting ++ [l] }
    else if !s.portUp p || !s.laneCabled l then s
    else if s.spareUsable p && (s.port p).peerSpare then
      ((s.put LK_PORT_STATUS.STATE p portRepair).setPort p { s.port p with repair := some (l % 132, 0) }).emit (.link p 0x65 [l % 132, 0])
    else if s.downshiftOn p && 0 < s.get LK_PORT_STATUS.WIDTH_UP p then
      ((s.put LK_PORT_STATUS.STATE p portRepair).setPort p { s.port p with repair := some (l % 132, 1) }).emit (.link p 0x65 [l % 132, 1])
    else (s.retireLane l p).toTraining p

/-- LANE_FAILURE (R289). -/
def execLaneFailure (die lane : Nat) (s : State) : Host.Outcome State Fault Refusal :=
  .next (whenUp s fun s => if die < 4 && lane < 132 then s.failLane (die * 132 + lane) else s)

/-- A write of LK_LANE_RETIRE: a spare, unused or retired lane is refused. -/
def State.laneRetireWrite (s : State) (value : Word) : State :=
  let die := (value.extractLsb' 0 2).toNat
  let lane := (value.extractLsb' 2 8).toNat
  let l := die * 132 + lane
  if 128 ≤ lane || s.get LK_LANE_STATUS.STATE l != 0 || (s.portOfLane l).isNone then s else s.failLane l

def execLkLaneRetire (up : Nat) (value : Word) (s : State) : Host.Outcome State Fault Refusal :=
  .next (barWrite up 0x600010 s fun s => s.laneRetireWrite value)

/-- The repair of a lane is done: the spare is in, or the width is halved at the first lane; a lane that failed meanwhile is retired
next (R289 to R291). -/
def State.finishRepair (s : State) (p lane action : Nat) : State :=
  let l := p / 128 * 132 + lane
  let s := if action = 0 then s.spareIn l p
    else (s.retireLane l p).put LK_PORT_STATUS.WIDTH_UP p (s.get LK_PORT_STATUS.WIDTH_UP p - 1)
  let full := s.get LK_PORT_STATUS.WIDTH_UP p == s.get LK_PORT_CFG.WIDTH p
  let s := if action = 0 then s else s.degrade
  let ls := (s.port p).waiting
  let s := (s.put LK_PORT_STATUS.STATE p (if full then portUpState else portDownshifted)).setPort p
    { s.port p with repair := none, waiting := ls.drop 1 }
  match ls with
  | l :: _ => s.failLane l
  | [] => s

/-- LANE_CTL: the peer's swap or downshift is carried out and answered, also where both sides named the same lane; its "done" ends
the module's own repair (R290). -/
def State.laneCtl (s : State) (p lane action : Nat) : State :=
  if action = 2 then
    match s.portState p == portRepair, (s.port p).repair with
    | true, some (l, a) => s.finishRepair p l a
    | _, _ => s
  else if s.portState p == portRepair && (s.port p).repair == some (lane, action) then
    (s.finishRepair p lane action).emit (.link p 0x65 [lane, 2])
  else if !s.portUp p then s
  else if action = 0 then if s.spareUsable p then (s.finishRepair p lane 0).emit (.link p 0x65 [lane, 2]) else s
  else if action = 1 && 0 < s.get LK_PORT_STATUS.WIDTH_UP p then (s.finishRepair p lane 1).emit (.link p 0x65 [lane, 2])
  else s

def execLaneCtl (port lane : Nat) (a : LaneAction) (s : State) : Host.Outcome State Fault Refusal :=
  .next (whenUp s fun s => s.reservedOk port a.rsv fun s => s.laneCtl port lane a.action)

/-- LANE_CTL_TIMEOUT: the peer is silent, so the port returns to TRAINING (R291). -/
def execLaneCtlTimeout (port : Nat) (s : State) : Host.Outcome State Fault Refusal :=
  .next (whenUp s fun s =>
    if s.portState port == portRepair && (s.port port).repair.isSome then s.toTraining port else s)

/-- An uncorrectable codeword of a lane: counted at the port and the lane, the frame in progress is discarded and the receiver skips
to the next FSTART (R284); UCW_RETIRE of them within a second retire the lane (R289). -/
def State.codewordLost (s : State) (port lane : Nat) : State :=
  let l := port / 128 * 132 + lane
  let x := s.port port
  let s := ((s.bump LK_PORT_ERR.UCW port 1).bump LK_LANE_STATUS.UCW l 1).setPort port { x with rx := (x.rx.take none).1 }
  let key := LK_LANE_STATUS.UCW.id + 1024 * l
  let s := s.noteEvent key secondCycles
  if s.recentCount key secondCycles < s.get LK_E2E_CFG.UCW_RETIRE then s
  else (s.forgetEvents key).failLane l

/-- CODEWORD_UNCORRECTABLE (R284, R289). -/
def execCodewordUncorrectable (port lane : Nat) (s : State) : Host.Outcome State Fault Refusal :=
  .next (whenUp s fun s => if s.portUp port then s.codewordLost port lane else s)

/-! ## Credits (R296) -/

/-- Refunds `n` credits of a VC to the pots they came from, frame by frame in send order. -/
def refund (v : Nat) : Nat → List CreditTake → Port → Port
  | _, [], x => x
  | n, t :: l, x =>
    if t.vc ≠ v ∨ n = 0 then
      let y := refund v n l x
      { y with taken := t :: y.taken }
    else
      let r := min n t.resv
      let c := min (n - r) t.pool
      let f := min (n - r - c) t.floor
      let x := { x with resv := x.resv.set v (x.resv.getD v 0 + r), floor := x.floor.set v (x.floor.getD v 0 + f),
                        pool := x.pool + c, poolUse := Tab.set 0 x.poolUse t.part (Tab.get 0 x.poolUse t.part - c) }
      let rest : CreditTake := { t with resv := t.resv - r, pool := t.pool - c, floor := t.floor - f }
      let y := refund v (n - r - c - f) l x
      if rest.resv = 0 ∧ rest.pool = 0 ∧ rest.floor = 0 then y else { y with taken := rest :: y.taken }

/-- CREDIT: the peer's cumulative counts of freed credits arrive; what is new is refunded (R296). -/
def State.creditFrame (s : State) (p : Nat) (counts : List Nat) : State :=
  if !s.portUp p then s
  else
    let x := s.port p
    let y := (List.range 8).foldl (fun (y : Port) v =>
      let d := (counts.getD v 0 + 65536 - x.counts.getD v 0 % 65536) % 65536
      refund v d y.taken { y with taken := [] }) x
    s.setPort p { y with counts := (List.range 8).map fun v => counts.getD v 0 % 65536 }

def execCredit (port : Nat) (p : CreditCounts) (s : State) : Host.Outcome State Fault Refusal :=
  .next (whenUp s fun s => s.reservedOk port p.rsv fun s => s.creditFrame port p.counts)

/-- CREDIT_SEND: the port's cumulative counts go to its peer, past gates and scheduling (R296, R347). -/
def execCreditSend (port : Nat) (s : State) : Host.Outcome State Fault Refusal :=
  .next (whenUp s fun s => if s.portUp port then s.emit (.link port 0x62 (s.port port).freed) else s)

/-! ## Cable presence (R421) -/

/-- Sets or clears bit `k` of a number. -/
def setBit (n k : Nat) (b : Bool) : Nat := n - n / 2 ^ k % 2 * 2 ^ k + if b then 2 ^ k else 0

/-- CBL_PRSNT_N: stable for 10 ms, a group's presence changes; an absent group sends its ports to TRAINING, a present one lets
DETECT start (R421, R426). -/
def State.cablePresence (s : State) (die group : Nat) (present : Bool) (stableMs : Nat) : State :=
  if stableMs < 10 || 4 ≤ die || 32 ≤ group then s
  else
    let s := s.put LK_CBL_STATUS.GROUP_PRSNT die (setBit (s.get LK_CBL_STATUS.GROUP_PRSNT die) group present)
    let uses := s.enabledPorts.filter fun p => (portLanes p (s.get LK_PORT_CFG.WIDTH p)).any fun l => l / 132 == die && l % 132 / 4 == group
    uses.foldl (fun s p =>
      if present then
        if s.portState p == portTraining && (s.port p).step == 0 && (s.port p).attempts == 0 && s.cabled p then s.startTraining p 0 else s
      else if s.portUp p || s.portState p == portRepair then s.toTraining p
      else if s.portState p == portTraining then s.setPort p { s.port p with step := 0 }
      else s) s

def execCblPrsntN (die group : Nat) (present : Bool) (stableMs : Nat) (s : State) : Host.Outcome State Fault Refusal :=
  .next (whenUp s fun s => s.cablePresence die group present stableMs)

/-- SPR_PRSNT_N: the spare group's presence makes the bound spares usable or not (R421). -/
def execSprPrsntN (die : Nat) (present : Bool) (stableMs : Nat) (s : State) : Host.Outcome State Fault Refusal :=
  .next (whenUp s fun s => if stableMs < 10 then s else s.put LK_CBL_STATUS.SPARE_PRSNT die (if present then 1 else 0))

end Sys2Proof.Machine
end

