-- ==== Sys2Proof/Machine/HomeOps.lean ====
section
/-! DEFINITION. The coherence home's operations (chapter 8): tally lines, the directory and its transactions, frame requests,
atomics and their reply cache, parked waiters, semaphores. A line's number is its half-A byte address divided by 128. -/

namespace Sys2Proof.Machine

/-! ## Lines -/

def DirEntry.reset : DirEntry := { st := .u, kind := .normal, ovf := false, f := none, ptrs := [] }
def Line.reset : Line := { dir := .reset, txn := none, queue := [] }

def State.line (s : State) (ln : Nat) : Line := Tab.get Line.reset s.ho.lines ln

def State.setLine (s : State) (ln : Nat) (l : Line) : State :=
  { s with ho := { s.ho with lines := Tab.set Line.reset s.ho.lines ln l } }

/-- Changes a line's directory entry. -/
def State.setDir (s : State) (ln : Nat) (d : DirEntry) : State := s.setLine ln { s.line ln with dir := d }

/-- A line's kind (R213). -/
def State.lineKind (s : State) (ln : Nat) : LineKind := (s.line ln).dir.kind

/-- The line a partition address lies on, where its handle is held and names a TALLY berth. -/
def State.tallyLine (s : State) (p a : Nat) : Option Nat :=
  match s.heldSlot p (ref50 a).handle with
  | some sl => if sl.kind = kindTally then some (s.slotByte sl (ref50 a).off / 128) else none
  | none => none

/-- A sector of a line is poisoned. -/
def State.linePoison (s : State) (ln half : Nat) : Bool := s.badSector (2 * ln + half)

/-- The bytes and the poisoned sectors of a line. -/
def State.lineData (s : State) (ln : Nat) : Payload :=
  { bytes := (List.range 128).map fun i => s.pm.near.byte (ln * 128 + i),
    poisoned := (List.range 2).filter fun i => s.linePoison ln i }

/-- Word `w` (0 to 15) of a line. -/
def State.lineWord (s : State) (ln w : Nat) : Nat :=
  leNat ((List.range 8).map fun i => s.pm.near.byte (ln * 128 + 8 * w + i))

/-- Writes bytes of one sector of a line; a sector with no working copy takes none (R189, R201). -/
def State.setSector (s : State) (k lo : Nat) (bs : List Byte) (psn : Bool) : State :=
  if s.deadSector k then s else { s with pm := { s.pm with near := s.pm.near.writeSector k lo bs psn } }

/-- Writes word `w` of a line; a word of a poisoned sector is discarded (R189). -/
def State.setWord (s : State) (ln w v : Nat) : State := s.setSector (2 * ln + w / 8) (8 * (w % 8)) (leBytes 8 v) false

/-- Writes a whole line with clean sectors. -/
def State.setLineBytes (s : State) (ln : Nat) (bs : List Byte) : State :=
  (s.setSector (2 * ln) 0 (bs.take 64) false).setSector (2 * ln + 1) 0 (bs.drop 64) false

/-- Sixteen words as a line. -/
def lineOfWords (ws : List Nat) : List Byte := ((List.range 16).map fun i => leBytes 8 (ws.getD i 0)).flatten

/-- Marks both sectors of a line poisoned (R220). -/
def State.poisonLine (s : State) (ln : Nat) : State :=
  { s with pm := { s.pm with near := (s.pm.near.mark (2 * ln)).mark (2 * ln + 1) } }

/-- The partition a line belongs to. -/
def State.linePart (s : State) (ln : Nat) : Nat := ((s.owner (ln * 128)).map (·.1)).getD 0

/-- The partition address of a line. -/
def State.lineAddr (s : State) (ln : Nat) : Nat :=
  match s.owner (ln * 128) with
  | some (p, sl) => slotHandle sl (s.slot p sl) * berthBytes + ln * 128 % berthBytes
  | none => 0

/-! ## Answers -/

/-- Answers a command at the home: its value and, unless it is OK, its status (R59). -/
def State.answerCmd (s : State) (cid status detail value : Nat) : State :=
  s.updCmd cid fun c =>
    { c with stage := .answered, value := value, flushTo := none,
             causes := if status = stOk then c.causes else c.causes ++ [(status, detail)] }

/-- A payload as it leaves the module: what stands in a poisoned sector is undefined (R190, log entry 11). -/
def State.blurPoison (s : State) (p : Payload) : Payload × State :=
  if p.poisoned.isEmpty then (p, s)
  else
    let d := s.drawBytes p.bytes.length
    (⟨(p.bytes.zip (d.1.zip (List.range p.bytes.length))).map fun x => if p.poisoned.contains (x.2.2 / 64) then x.2.1 else x.1, p.poisoned⟩, d.2)

/-- A response with data, cut at sector boundaries between poisoned and clean sectors; `code` goes above STATUS in CTX
(log entry 24). -/
def State.respondData (s : State) (req : Frame) (opc code : Nat) (p : Payload) : State :=
  let b := s.blurPoison p
  let s := b.2
  let cs := cutPayload 4096 b.1
  (cs.zip (List.range cs.length)).foldl (fun s c =>
    let fl := (if c.1.2.2 then flagPsn else 0) ||| (if c.2 + 1 = cs.length then flagLast else 0)
    s.respond req opc code fl (req.addr.toNat + c.1.1) c.1.2.1) s

/-- States a DATA response installs (Table 8.10), as the code above STATUS. -/
def installE : Nat := 0
def installM : Nat := 256
def installS : Nat := 512
def installF : Nat := 768

/-- DATA of a line from memory to the source of a request. -/
def State.sendLine (s : State) (req : Frame) (ln code : Nat) : State := s.respondData req 0x4B code (s.lineData ln)

/-- A request ends with a status and no data. -/
def State.refuse (s : State) (req : Frame) (status : Nat) : State :=
  if isNonPosted req then s.respond req (respOpc req.opc.toNat) status flagLast 0 [] else s

/-- A snoop to a holder: the line's address, and in TAG the endpoint it sends data to, the module itself for the home
(Table 8.12, log entry 24). -/
def State.snoop (s : State) (ln target opc requester : Nat) : State :=
  s.originate (s.mkFrame opc vcFwd (s.linePart ln) target 0 requester (s.lineAddr ln) 0 0 0 []) none

/-! ## Requests -/

/-- What a request asks of the directory (Table 8.13). -/
inductive ReqKind where
  | rdS | rdO | upg | rdU | wr
  deriving DecidableEq, Repr

/-- The kind of a frame. An LD of a tally line reads uncached; ST, ST_NP, WR_U and AT write. -/
def frameKind (f : Frame) : ReqKind :=
  match f.opc.toNat with
  | 0x40 => .rdS | 0x41 => .rdO | 0x42 => .upg | 0x43 => .rdU | 0x01 => .rdU
  | _ => .wr

/-- The endpoint a request acts for: a frame's source, or the module for any other. -/
def State.requester (s : State) (r : HomeReq) : Nat :=
  match r with
  | .frame f => f.src.toNat
  | _ => s.modId

/-- A source in the rounds of R223: an endpoint, or a command's context above them, or the engines of a partition. -/
def State.roundSource (s : State) (r : HomeReq) : Nat :=
  match r with
  | .frame f => f.src.toNat
  | .cmd cid => 65536 + ((s.cmd cid).map (·.ctx)).getD 0
  | .store p _ _ => 131072 + p
  | _ => 196608

/-- The kind by which updates combine into one batch: 0 to 5 atomics, 16 plain stores; none does not combine (R223). -/
def State.combineKind (s : State) (r : HomeReq) : Option Nat :=
  match r with
  | .frame f =>
    if f.opc.toNat = 0x45 then
      let k := ((f.data.getD 16 0).toNat) % 16
      if k ≤ 5 then some k else none
    else if frameKind f == .wr then some 16 else none
  | .store _ _ _ => some 16
  | .cmd cid => match s.cmd cid with
    | some c => if c.opc = ocAtomic ∧ (atomicBody c.desc).kind ≤ 5 then some (atomicBody c.desc).kind else none
    | none => none
  | _ => none

/-- The endpoints a broadcast reaches: every one mapped in the partition's current or previous epoch (R216). -/
def State.broadcastSet (s : State) (p : Nat) : List Nat :=
  (s.lp.maps.filter fun e => e.1 / 4096 == p * 3 + slotCurrent || e.1 / 4096 == p * 3 + slotPrevious).foldl
    (fun acc e => if acc.contains e.2 || e.2 == s.modId then acc else acc ++ [e.2]) []

/-- The endpoints to invalidate on a SH line, without `except_` (R216). -/
def State.sharers (s : State) (ln except_ : Nat) : List Nat :=
  let d := (s.line ln).dir
  (if d.ovf then s.broadcastSet (s.linePart ln) else d.ptrs).filter (· != except_)

/-- Adds a sharer that becomes F; with the pointers full it gets S and OVF is set (R216). -/
def addSharer (d : DirEntry) (e : Nat) : DirEntry × Bool :=
  if d.ptrs.contains e then ({ d with st := .sh, f := some e }, true)
  else if d.ptrs.length < 4 then ({ d with st := .sh, ptrs := d.ptrs ++ [e], f := some e }, true)
  else ({ d with st := .sh, ovf := true }, false)

/-! ## Waiters (R210, R225) -/

/-- A word of a SEMA line: LIMIT in [3:0], HELD in [7:4] (Table 8.18). -/
def semLimit (w : Nat) : Nat := w % 16
def semHeld (w : Nat) : Nat := w / 16 % 16

/-- The holder entry (0 to 7) of a context on a SEMA line. -/
def State.semEntry (s : State) (ln ctx : Nat) : Option Nat :=
  (List.range 8).find? fun i => s.lineWord ln (i + 1) / 4096 % 2 == 1 && s.lineWord ln (i + 1) % 4096 == ctx

/-- The first free holder entry. -/
def State.semFreeEntry (s : State) (ln : Nat) : Option Nat :=
  (List.range 8).find? fun i => s.lineWord ln (i + 1) / 4096 % 2 == 0

/-- SEM_LEASE_MS in HCLK cycles, by profile (Table 8.24). -/
def State.semLease (s : State) (p : Nat) : Nat :=
  1200000 * (if s.get CH_PART_CFG.PROFILE p = 0 then s.get CH_PART_CFG.SEM_LEASE_MS p else 250)

/-- A holder entry's lease on a line. -/
def leaseKey (ln ctx : Nat) : Nat := ln * 4096 + ctx % 4096

/-- A holder entry's lease has run out (R227). -/
def State.semExpired (s : State) (ln ctx : Nat) : Bool :=
  Tab.get 0 s.ho.leases (leaseKey ln ctx) + s.semLease (s.linePart ln) ≤ s.tb.hclk

/-- Takes a holder entry for a context; its lease starts (R226, R227). -/
def State.semTake (s : State) (ln ctx : Nat) : State :=
  match s.semFreeEntry ln with
  | some i =>
    let w := s.lineWord ln 0
    let s := (s.setWord ln (i + 1) (ctx % 4096 + 4096)).setWord ln 0 (semLimit w + 16 * (semHeld w + 1))
    { s with ho := { s.ho with leases := Tab.put s.ho.leases (leaseKey ln ctx) s.tb.hclk } }
  | none => s

/-- Frees a context's holder entry; true where it held one. -/
def State.semDrop (s : State) (ln ctx : Nat) : State × Bool :=
  match s.semEntry ln ctx with
  | some i =>
    let w := s.lineWord ln 0
    let s := (s.setWord ln (i + 1) 0).setWord ln 0 (semLimit w + 16 * (semHeld w - 1))
    ({ s with ho := { s.ho with leases := Tab.erase s.ho.leases (leaseKey ln ctx) } }, true)
  | none => (s, false)

/-- Every descriptor fetch of a context renews its holder entries whose lease has not run out (R192, R227). -/
def State.renewSems (s : State) (ctx : Nat) : State :=
  { s with ho := { s.ho with leases := s.ho.leases.map fun e =>
      if e.1 % 4096 = ctx % 4096 && !s.semExpired (e.1 / 4096) ctx then (e.1, s.tb.hclk) else e } }

/-- A WAIT's condition on a word (Table 8.17). -/
def waitHolds (b : WaitBody) (w : Nat) : Bool :=
  let x := BitVec.ofNat 64 w &&& BitVec.ofNat 64 b.mask
  let y := BitVec.ofNat 64 b.cmp &&& BitVec.ofNat 64 b.mask
  match b.cond with
  | 0 => x == y
  | 1 => x != y
  | 2 => y.toNat ≤ x.toNat
  | 3 => x.toNat < y.toNat
  | _ => semHeld w < semLimit w

/-- An ACQUIRE's condition on a version (R210). -/
def acquireHolds (b : AcquireBody) (v : Nat) : Bool :=
  match b.cond with
  | 0 => b.version ≤ v
  | 1 => v == b.version
  | _ => v != b.version

/-- The word a WAIT names on its line. -/
def waitWord (b : WaitBody) : Nat := (ref50 b.addr).off % 128 / 8

/-- Tests one ACQUIRE or WAIT; an answer is the state with the command answered (R210, R225, R226). -/
def State.testOne (s : State) (ln : Nat) (c : Cmd) : Option State :=
  if c.opc = ocAcquire then
    let b := acquireBody c.desc
    if s.lineKind ln != .record then some (s.answerCmd c.cid stBadDesc 0x23 0)
    else if s.linePoison ln 0 then some (s.answerCmd c.cid stPoison 0 0)
    else if acquireHolds b (s.lineWord ln 0) then some (s.answerCmd c.cid stOk 0 (s.lineWord ln 0))
    else none
  else
    let b := waitBody c.desc
    let i := waitWord b
    if b.cond == 4 && (s.lineKind ln != .sema || i != 0) then some (s.answerCmd c.cid stBadDesc 0x23 0)
    else if s.linePoison ln (i / 8) then some (s.answerCmd c.cid stPoison 0 0)
    else if b.cond == 4 && b.take && (s.semEntry ln c.ctx).isSome then some (s.answerCmd c.cid stOk 0 (s.lineWord ln 0))
    else if waitHolds b (s.lineWord ln i) then
      if b.cond == 4 && b.take then
        let s := s.semTake ln c.ctx
        some (s.answerCmd c.cid stOk 0 (s.lineWord ln 0))
      else some (s.answerCmd c.cid stOk 0 (s.lineWord ln i))
    else none

/-- The value a waiter shows at its timeout: the version or the word (R210, R225). -/
def State.waiterValue (s : State) (ln : Nat) (c : Cmd) : Nat :=
  if c.opc = ocAcquire then s.lineWord ln 0 else s.lineWord ln (waitWord (waitBody c.desc))

/-- WATCHES follows the parked commands (Table 8.29). -/
def State.syncWatches (s : State) : State := s.put CH_STATUS.WATCHES 0 s.ho.waiters.length

/-- Removes a parked command. -/
def State.unpark (s : State) (cid : Nat) : State :=
  { s with ho := { s.ho with waiters := s.ho.waiters.filter (·.cid != cid) } }.syncWatches

/-- A waiter takes a holder entry when it is granted. -/
def isTake (c : Cmd) : Bool := c.opc == ocWait && (waitBody c.desc).cond == 4 && (waitBody c.desc).take

/-- One test of every waiter of a line that `which` picks, in arrival order. -/
def State.testPass (s : State) (ln : Nat) (which : Cmd → Bool) : State :=
  (s.ho.waiters.filter (·.line == ln)).foldl (fun s w =>
    match s.cmd w.cid with
    | none => s.unpark w.cid
    | some c => if which c then
        match s.testOne ln c with
        | some s' => s'.unpark w.cid
        | none => s
      else s) s

/-- Tests the waiters of a line after an update of it: those that only look first, then the takes in arrival order, and
again while a take has changed the line, at most `n` times (R225, R226). -/
def State.testWaiters (s : State) (ln : Nat) : Nat → State
  | 0 => s
  | n + 1 =>
    let before := s.ho.waiters.length
    let s := (s.testPass ln fun c => !isTake c).testPass ln isTake
    if s.ho.waiters.length = before then s else s.testWaiters ln n

/-- A line was updated: its waiters are tested. -/
def State.updated (s : State) (ln : Nat) : State := s.testWaiters ln ((s.ho.waiters.filter (·.line == ln)).length + 1)

/-! ## Atomics (Table 8.15, R221) -/

/-- The word after an atomic of kind 0 to 6. -/
def atomicNew (kind : Nat) (signed : Bool) (w operand compare : Nat) : Nat :=
  let a := BitVec.ofNat 64 w
  let b := BitVec.ofNat 64 operand
  let less := if signed then a.toInt < b.toInt else a.toNat < b.toNat
  match kind with
  | 0 => (a + b).toNat
  | 1 => (a ||| b).toNat
  | 2 => (a &&& b).toNat
  | 3 => (if less then b else a).toNat
  | 4 => (if less then a else b).toNat
  | 5 => b.toNat
  | _ => (if w = compare then b else a).toNat

/-- Applies an atomic to word `i` of a line: its status and the old word. A poisoned word answers POISON. -/
def State.applyAtomic (s : State) (ln i kind : Nat) (signed : Bool) (operand compare : Nat) : State × Nat × Nat :=
  if s.linePoison ln (i / 8) then (s, stPoison, 0)
  else
    let w := s.lineWord ln i
    (s.setWord ln i (atomicNew kind signed w operand compare), stOk, w)

/-- A live reply-cache entry of a source and TAG. -/
def State.cachedReply (s : State) (f : Frame) : Option Reply :=
  s.ho.replies.find? fun r => r.src == f.src.toNat && r.tag == f.tag.toNat

/-- Keeps a reply; a source keeps its last 256 (R221). -/
def State.cacheReply (s : State) (f : Frame) (status value : Nat) : State :=
  let r : Reply := { src := f.src.toNat, tag := f.tag.toNat, part := f.part.toNat, status := status, value := BitVec.ofNat 64 value }
  let mine := (s.ho.replies.filter (·.src == f.src.toNat)).length
  let old := if 256 ≤ mine then
      match s.ho.replies.find? (·.src == f.src.toNat) with
      | some x => s.ho.replies.erase x
      | none => s.ho.replies
    else s.ho.replies
  { s with ho := { s.ho with replies := old ++ [r] } }

/-- AT_RSP: the old value and the status (Table 8.12). -/
def State.atRsp (s : State) (f : Frame) (status value : Nat) : State :=
  s.respond f 0x4E status flagLast f.addr.toNat (leBytes 8 value ++ List.replicate 56 0#8)

/-- An AT payload is well formed (Table 8.16). -/
def atOk (f : Frame) : Bool :=
  let b := (f.data.getD 16 0).toNat
  f.data.length == 64 && f.addr.toNat % 8 == 0 && b % 16 ≤ 6 && b / 32 == 0 && (f.data.drop 17).all (· == 0#8)

/-! ## Posted-store bookkeeping (R195, R208) -/

/-- The BULK flow of a source at this module. -/
def State.bulk (s : State) (src : Nat) : Option BulkFlow := s.ho.bulk.find? (·.src == src)

/-- How a posted store ends: applied, refused for a reason of its own, or discarded so that the next flush says so (R195). -/
inductive StoreEnd where
  | applied | refused | lost
  deriving DecidableEq, Repr

/-- The owner endpoint of a command's context. -/
def State.ownerEp (s : State) (c : Cmd) : Nat := s.rankId c.part (s.ctxRank c.ctx)

/-- A flow of `src` restarts at SEQ `q` because it had failed: flushes of the failed flow that still wait for a gap below `q` end
PATH_FATAL (R208, R303). -/
def State.failFlushes (s : State) (src q applied : Nat) : State :=
  let waits (c : Cmd) : Bool := c.stage == .atHome && s.ownerEp c == src && (match c.flushTo with
    | some x => seqLe x q && x != q && !seqLe x applied
    | none => false)
  (s.fe.cmds.filter waits).foldl (fun s c => s.answerCmd c.cid stPathFatal 0 0) s

/-- A posted store of a source has been dealt with (R195, R208, R211). -/
def State.bulkDone (s : State) (f : Frame) (e : StoreEnd) : State :=
  let q := f.seq.toNat
  let src := f.src.toNat
  let high (o : Option Nat) : Option Nat :=
    if e != .applied then o else match o with
      | some h => some (if seqLe h q then q else h)
      | none => some q
  let lost : List Nat := if e == .lost then [q] else []
  let restart := hasFlag f flagSync && !hasFlag f flagRetx
  match s.bulk src with
  | none => { s with ho := { s.ho with bulk := s.ho.bulk ++ [{ src := src, start := q, applied := q, high := high none, lost := lost }] } }
  | some b =>
    let s := if restart then s.failFlushes src q b.applied else s
    let b := if restart then { b with start := q } else b
    let b := { b with applied := if seqLe b.applied q then q else b.applied, high := high b.high, lost := b.lost ++ lost }
    { s with ho := { s.ho with bulk := replaceFirst (·.src == src) (fun _ => b) s.ho.bulk } }

/-! ## Commands as one home update (R207, R225 to R231) -/

/-- The caller's rank. -/
def State.callerRank (s : State) (c : Cmd) : Nat := s.ctxRank c.ctx

/-- A record's linked ticket is IN_TRANSIT (R207 step 2, R231). -/
def State.ticketInTransit (s : State) (p a : Nat) : Bool :=
  if a = 0 then false
  else match s.tallyLine p a with
    | some t => s.lineKind t == .ticket && s.lineWord t 0 % 4 == 1
    | none => false

/-- PUBLISH, steps 2 to 5 of R207. -/
def State.applyPublish (s : State) (ln : Nat) (c : Cmd) : State :=
  let b := publishBody c.desc
  let w := s.lineWord ln 0
  let owner := s.lineWord ln 1 % 4096
  let refuse (s : State) : State := (s.bump CH_PART_STAT.NOT_OWNER c.part 1).answerCmd c.cid stNotOwner 0 0
  if b.action = 1 && s.lineKind ln != .normal then s.answerCmd c.cid stBadDesc 0x23 0
  else if s.linePoison ln 0 then
    if b.action ≠ 1 && s.lineKind ln != .record then refuse s else s.answerCmd c.cid stPoison 0 0
  else if b.action ≠ 1 && (s.lineKind ln != .record || (owner != 0xFFF && owner != s.callerRank c)
      || s.ticketInTransit c.part (s.lineWord ln 3)) then refuse s
  else if w ≠ b.expect then
    (s.bump CH_PART_STAT.STALE_PUB c.part 1).answerCmd c.cid stStalePublish 0 w
  else
    let s := match b.action with
      | 0 => s.setWord ln 0 b.new
      | 1 => (s.setLineBytes ln (lineOfWords [b.new, s.callerRank c,
          b.rHandle + 2 ^ 24 * b.rFirst + 2 ^ 34 * b.rCount])).setDir ln { (s.line ln).dir with kind := .record }
      | 2 => (s.setWord ln 0 b.new).setWord ln 1 b.newOwner
      | _ => (s.setLineBytes ln (lineOfWords [b.new])).setDir ln { (s.line ln).dir with kind := .normal }
    (s.answerCmd c.cid stOk 0 b.new).updated ln

/-- ATOMIC, kinds 0 to 9 (Table 8.15). -/
def State.applyAtomicCmd (s : State) (ln : Nat) (c : Cmd) : State :=
  let b := atomicBody c.desc
  let i := (ref50 b.addr).off % 128 / 8
  let kind := s.lineKind ln
  match b.kind with
  | 7 =>
    if kind != .normal then s.answerCmd c.cid stBadDesc 0x23 0
    else ((s.setLineBytes ln (lineOfWords [b.limit])).setDir ln { (s.line ln).dir with kind := .sema }).answerCmd c.cid stOk 0 0
      |>.updated ln
  | 8 =>
    if kind != .sema then s.answerCmd c.cid stBadDesc 0x23 0
    else if s.linePoison ln 0 || s.linePoison ln 1 then s.answerCmd c.cid stPoison 0 0
    else
      let r := s.semDrop ln c.ctx
      if r.2 then (r.1.answerCmd c.cid stOk 0 (semHeld (r.1.lineWord ln 0))).updated ln
      else (s.bump CH_PART_STAT.NOT_OWNER c.part 1).answerCmd c.cid stNotOwner 0 0
  | 9 =>
    if kind != .sema || semHeld (s.lineWord ln 0) != 0 || s.ho.waiters.any (·.line == ln) then s.answerCmd c.cid stBadDesc 0x23 0
    else ((s.setLineBytes ln (lineOfWords [])).setDir ln { (s.line ln).dir with kind := .normal }).answerCmd c.cid stOk 0 0
      |>.updated ln
  | k =>
    if kind != .normal then s.answerCmd c.cid stBadDesc 0x23 0
    else
      let r := s.applyAtomic ln i k b.signed b.operand b.compare
      (r.1.answerCmd c.cid r.2.1 0 r.2.2).updated ln

/-- States of a ticket (Table 8.20). -/
def tkPrefill : Nat := 0
def tkTransit : Nat := 1
def tkDecode : Nat := 2

/-- Sets OWNER of a linked record, of which no copy is cached by now (R228). -/
def State.setRecordOwner (s : State) (p a rank : Nat) : State :=
  if a = 0 then s
  else match s.tallyLine p a with
    | some r => if s.lineKind r != .record then s else (s.setWord r 1 rank).updated r
    | none => s

/-- HANDOFF (Table 8.21, R228 to R231). -/
def State.applyHandoff (s : State) (ln : Nat) (c : Cmd) : State :=
  let b := handoffBody c.desc
  let rank := s.callerRank c
  let w := s.lineWord ln 0
  let st := w % 4
  let dir := w / 4 % 2
  let pre := w / 65536 % 4096
  let dec := w / 2 ^ 32 % 4096
  let word (st dir : Nat) : Nat := st + 4 * dir + 65536 * pre + 2 ^ 32 * dec
  let done (s : State) : State := (s.answerCmd c.cid stOk 0 (s.lineWord ln 0)).updated ln
  let refuse (s : State) : State := (s.bump CH_PART_STAT.NOT_OWNER c.part 1).answerCmd c.cid stNotOwner 0 (s.lineWord ln 0)
  if b.op = 0 then
    let links := b.recAddr != 0
    let mine := match s.tallyLine c.part b.recAddr with
      | some r => s.lineKind r == .record && s.lineWord r 1 % 4096 == rank
      | none => false
    if s.lineKind ln != .normal then s.answerCmd c.cid stBadDesc 0x23 (s.lineWord ln 0)
    else if s.linePoison ln 0 then s.answerCmd c.cid stPoison 0 0
    else if links && !mine then refuse s
    else
      let p := if b.side = 0 then rank else b.peer
      let q := if b.side = 0 then b.peer else rank
      let s := (s.setLineBytes ln (lineOfWords [(if b.side = 0 then tkPrefill else tkDecode) + 65536 * p + 2 ^ 32 * q,
        b.cookie, b.recAddr, 0])).setDir ln { (s.line ln).dir with kind := .ticket }
      let s := if links then
          match s.tallyLine c.part b.recAddr with
          | some r => (s.setWord r 3 b.ticket).updated r
          | none => s
        else s
      done s
  else if s.lineKind ln != .ticket then refuse s
  else if s.linePoison ln 0 then s.answerCmd c.cid stPoison 0 0
  else if s.lineWord ln 1 != b.cookie then refuse s
  else if b.op = 1 then
    if (st == tkPrefill && rank == pre) || (st == tkDecode && rank == dec) then
      done (s.setWord ln 0 (word tkTransit (if st = tkPrefill then 0 else 1)))
    else refuse s
  else if b.op = 2 then
    if st == tkTransit && rank == (if dir = 0 then dec else pre) then
      let s := (s.setWord ln 0 (word (if dir = 0 then tkDecode else tkPrefill) 0)).setWord ln 3 ((s.lineWord ln 3 + 1) % 2 ^ 32)
      done (s.setRecordOwner c.part (s.lineWord ln 2 % 2 ^ 50) rank)
    else refuse s
  else if b.op = 3 then
    if rank == pre || rank == dec then s.answerCmd c.cid stOk 0 w else refuse s
  else
    if (st == tkPrefill && rank == pre) || (st == tkDecode && rank == dec) then
      ((s.setLineBytes ln (lineOfWords [])).setDir ln { (s.line ln).dir with kind := .normal }).answerCmd c.cid stOk 0 0
        |>.updated ln
    else refuse s

/-- The record line a HANDOFF at ticket line `ln` will write beside the ticket: CREATE links it, CONFIRM sets its OWNER (R228,
R231). -/
def State.linkedRecord (s : State) (ln : Nat) (c : Cmd) : Option Nat :=
  let b := handoffBody c.desc
  let a := if b.op = 0 then b.recAddr else s.lineWord ln 2 % 2 ^ 50
  let acts := (b.op == 0 && s.lineKind ln == .normal)
    || (b.op == 2 && s.lineKind ln == .ticket && s.lineWord ln 1 == b.cookie && s.lineWord ln 0 % 4 == tkTransit)
  if c.opc = ocHandoff && acts && a != 0 then (s.tallyLine c.part a).filter fun r => s.lineKind r == .record else none

/-! ## Applying a request whose line is free of copies -/

/-- Who pays for a request: a frame's partition in group 0, a command's group, or the line's partition in group 0 (log entry 25). -/
def State.homePayer (s : State) (ln : Nat) (r : HomeReq) : Nat × Nat :=
  let ofCmd (cid : Nat) : Nat × Nat := match s.cmd cid with
    | some c => (c.part, s.ctxGroup c.ctx)
    | none => (s.linePart ln, 0)
  match r with
  | .frame f => (f.part.toNat, 0)
  | .cmd cid => ofCmd cid
  | .linked _ cid => ofCmd cid
  | _ => (s.linePart ln, 0)

/-- Charges granules of both halves to the payer of a request. -/
def State.chargeHome (s : State) (ln : Nat) (r : HomeReq) (n : Nat × Nat) : State :=
  let p := s.homePayer ln r
  s.chargeNear p.1 p.2 n

/-- A store frame on a line: SUB writes part of a sector, a PSN frame poisons (R189, Table 11.7). -/
def State.storeLine (s : State) (ln : Nat) (f : Frame) : State :=
  let off := f.addr.toNat % 128
  if attrSub f then
    let lo := f.addr.toNat % 64
    let n := min (attrSzm1 f + 1) (64 - lo)
    s.setSector (2 * ln + off / 64) lo ((f.data.drop lo).take n) (hasFlag f flagPsn)
  else
    (List.range (min (f.data.length / 64) 2)).foldl (fun s i =>
      s.setSector (2 * ln + off / 64 + i) 0 ((f.data.drop (64 * i)).take 64) (hasFlag f flagPsn)) s

/-- An engine's store on a line, sector by sector. -/
def State.storeSpan (s : State) (ln off : Nat) (d : Payload) : State :=
  let ps := sectorPieces off d.bytes.length
  (ps.foldl (fun (a : State × Nat × Nat) q =>
    (a.1.setSector (2 * ln + q.1) q.2.1 ((d.bytes.drop a.2.1).take q.2.2) (d.poisoned.contains a.2.2), a.2.1 + q.2.2, a.2.2 + 1)) (s, 0, 0)).1

/-- A ticket that is still IN_TRANSIT at its deadline returns to its previous owner (R229). -/
def State.revertTicket (s : State) (ln moves : Nat) : State :=
  let w := s.lineWord ln 0
  if s.lineKind ln == .ticket && w % 4 == tkTransit && s.lineWord ln 3 % 2 ^ 32 == moves then
    let st := if w / 4 % 2 = 0 then tkPrefill else tkDecode
    ((s.setWord ln 0 (w / 65536 * 65536 + st)).bump CH_PART_STAT.REVERTS (s.linePart ln) 1).updated ln
  else s

/-- A holder entry ends, and the next TAKE waiter has it (R227). -/
def State.endHolder (s : State) (ln ctx : Nat) (lease : Bool) : State :=
  if s.lineKind ln != .sema then s
  else
    let r := s.semDrop ln ctx
    if !r.2 then s
    else (if lease then r.1.bump CH_PART_STAT.SEM_EXPIRED (s.linePart ln) 1 else r.1).updated ln

/-- Applies a WR request (Table 8.13): the line has no cached copy. -/
def State.applyWr (s : State) (ln : Nat) (r : HomeReq) : State :=
  match r with
  | .cmd cid => match s.cmd cid with
    | none => s
    | some c =>
      if c.stage != .atHome then s
      else if c.opc = ocPublish then s.applyPublish ln c
      else if c.opc = ocAtomic then s.applyAtomicCmd ln c
      else s.applyHandoff ln c
  | .store _ off d => (s.storeSpan ln off d).updated ln
  | .linked t cid =>
    match (s.line t).txn, s.cmd cid with
    | some x, some c =>
      if x.record == some ln && x.req == .cmd cid then
        let s := s.setLine t { s.line t with txn := none }
        if c.stage == .atHome then s.applyHandoff t c else s
      else s
    | some x, none => if x.record == some ln && x.req == .cmd cid then s.setLine t { s.line t with txn := none } else s
    | none, _ => s
  | .deadline moves => s.revertTicket ln moves
  | .leaseEnd ctx => if s.semExpired ln ctx then s.endHolder ln ctx true else s
  | .drainEnd ctx => s.endHolder ln ctx false
  | .recall => s
  | .frame f =>
    if f.opc.toNat = 0x45 then
      match s.cachedReply f with
      | some x => (s.bump CH_STATUS.REPLAYS 0 1).atRsp f x.status x.value.toNat
      | none =>
        let b := (f.data.getD 16 0).toNat
        let a := s.applyAtomic ln (f.addr.toNat % 128 / 8) (b % 16) (b / 16 % 2 == 1) (leNat (f.data.take 8))
          (leNat ((f.data.drop 8).take 8))
        ((a.1.cacheReply f a.2.1 a.2.2).atRsp f a.2.1 a.2.2).updated ln
    else
      let s := (s.storeLine ln f).updated ln
      if f.opc.toNat = 0x44 then s.respond f 0x4E stOk flagLast f.addr.toNat []
      else if f.opc.toNat = opStNp then s.respond f opStRsp stOk flagLast f.addr.toNat []
      else s.bulkDone f .applied

/-- Serves a read that takes no copy: RD_U and LD get the data, ACQUIRE and WAIT are tested and parked. -/
def State.applyRead (s : State) (ln : Nat) (r : HomeReq) : State :=
  match r with
  | .frame f =>
    if f.opc.toNat = opLd then
      match s.heldSlot f.part.toNat (f.addr.toNat / berthBytes) with
      | some sl => s.respondData f opLdData stOk (s.readSlot sl (f.addr.toNat % berthBytes) f.len.toNat)
      | none => s.refuse f stBadDesc
    else s.sendLine f ln installS
  | .cmd cid => match s.cmd cid with
    | none => s
    | some c =>
      if c.stage != .atHome then s
      else match s.testOne ln c with
      | some s' => s'.updated ln
      | none =>
        let tmo := if c.opc = ocAcquire then (acquireBody c.desc).timeout else (waitBody c.desc).timeout
        if tmo = 0 then s.answerCmd cid stTimeout 0 (s.waiterValue ln c)
        else ({ s with ho := { s.ho with waiters := s.ho.waiters ++ [{ cid := cid, line := ln }] } } : State).syncWatches
  | _ => s

/-- The kind of a request on a line. ACQUIRE and WAIT read; a WAIT that takes a holder entry as it arrives updates the line (R226). -/
def State.reqKind (s : State) (ln : Nat) (r : HomeReq) : ReqKind :=
  match r with
  | .frame f => frameKind f
  | .cmd cid => match s.cmd cid with
    | some c =>
      if c.opc = ocAcquire then .rdU
      else if c.opc = ocWait then
        if isTake c && s.lineKind ln == .sema && (s.semEntry ln c.ctx).isNone && semHeld (s.lineWord ln 0) < semLimit (s.lineWord ln 0)
        then .wr else .rdU
      else .wr
    | none => .rdU
  | .recall => .rdU
  | _ => .wr

/-- What a request costs as it starts: both copies of a granule are written, one is read where the table has memory supply the data;
an engine has paid for its own accesses (Tables 8.13 and 10.2, R263). -/
def State.homeCost (s : State) (ln : Nat) (r : HomeReq) : Nat × Nat :=
  let d := (s.line ln).dir
  match r with
  | .store _ _ _ => (0, 0)
  | .recall => (0, 0)
  | _ => match s.reqKind ln r, d.st with
    | .wr, _ => (1, 1)
    | .rdU, _ => (1, 0)
    | _, .u => (1, 0)
    | .rdS, .sh => if d.f.isSome then (0, 0) else (1, 0)
    | .rdO, .sh => (1, 0)
    | .upg, .sh => if d.ptrs.contains (s.requester r) || d.ovf then (0, 0) else (1, 0)
    | _, .ow => (0, 0)

/-- A request's balance covers what it costs now (R263). -/
def State.homeAffords (s : State) (ln : Nat) (r : HomeReq) : Bool :=
  let p := s.homePayer ln r
  s.coversNear p.1 p.2 (s.homeCost ln r)

/-! ## Serving a request (R217, Table 8.13) -/

/-- A protected line refuses a request (R213). -/
def State.protects (s : State) (ln : Nat) (r : HomeReq) : Bool :=
  s.lineKind ln != .normal && (match r with
    | .frame f => frameKind f == .rdO || frameKind f == .upg || frameKind f == .wr
    | .store _ _ _ => true
    | _ => false)

/-- Refuses a frame on a protected line with NOT_OWNER; a posted store is discarded and counted (R213). -/
def State.refuseProtected (s : State) (r : HomeReq) : State :=
  match r with
  | .frame f =>
    let s := s.bump CH_PART_STAT.NOT_OWNER f.part.toNat 1
    if isNonPosted f then s.refuse f stNotOwner else s.bulkDone f .refused
  | .store p _ _ => s.bump CH_PART_STAT.NOT_OWNER p 1
  | _ => s

/-- Starts a transaction that waits for snoop answers. -/
def State.startTxn (s : State) (ln : Nat) (r : HomeReq) (targets : List Nat) (opc requester : Nat) : State :=
  let s := s.setLine ln { s.line ln with txn := some { req := r, awaiting := targets, wbFrom := none, needData := false, record := none } }
  targets.foldl (fun s t => s.snoop ln t opc requester) s

/-- A transaction that needs no answer, or has all of them, ends: the home supplies what no holder sent, and the directory
takes its next state (Table 8.13). -/
def State.conclude (s : State) (ln : Nat) (r : HomeReq) (needData : Bool) : State :=
  let s := if needData && s.homeCost ln r == (0, 0) && r != .recall then s.chargeHome ln r (1, 0) else s
  let s := s.setLine ln { s.line ln with txn := none }
  let d := (s.line ln).dir
  let q := s.requester r
  let owned (d : DirEntry) : DirEntry := { d with st := .ow, ptrs := [q], f := none, ovf := false }
  let free (d : DirEntry) : DirEntry := { d with st := .u, ptrs := [], f := none, ovf := false }
  match r, s.reqKind ln r with
  | .frame f, .rdS =>
    match d.st with
    | .u =>
      if d.kind = .normal then (s.sendLine f ln installE).setDir ln (owned d)
      else (s.sendLine f ln installF).setDir ln { d with st := .sh, ptrs := [q], f := some q }
    | .sh =>
      let a := addSharer d q
      let s := if needData then s.sendLine f ln (if a.2 then installF else installS) else s
      s.setDir ln a.1
    | .ow =>
      let s := if needData then s.sendLine f ln installF else s
      s.setDir ln { d with st := .sh, ptrs := d.ptrs.take 1 ++ (if d.ptrs.take 1 = [q] then [] else [q]), f := some q }
  | .frame f, .rdO =>
    (if needData then s.sendLine f ln installM else s).setDir ln (owned d)
  | .frame f, .upg =>
    let s := match d.st with
      | .sh =>
        if d.ptrs.contains q || d.ovf then s.respond f 0x4C stOk flagLast f.addr.toNat [] else s.sendLine f ln installM
      | .ow => if needData then s.sendLine f ln installM else s
      | .u => s.sendLine f ln installM
    s.setDir ln (owned d)
  | .cmd cid, .wr =>
    let s := s.setDir ln (free d)
    match (s.cmd cid).bind fun c => (s.linkedRecord ln c) with
    | some k =>
      if k = ln then s.applyWr ln r
      else s.setLine ln { s.line ln with txn := some { req := r, awaiting := [], wbFrom := none, needData := false, record := some k } }
    | none => if (s.cmd cid).any (·.opc == ocWait) then s.applyRead ln r else s.applyWr ln r
  | _, .wr => (s.setDir ln (free d)).applyWr ln r
  | _, _ =>
    let s := match d.st with
      | .ow => s.setDir ln { d with st := .sh, f := d.ptrs.head? }
      | _ => s
    s.applyRead ln r

/-- DIR_UNITS by profile (Table 8.24). -/
def State.dirUnits (s : State) (p : Nat) : Nat :=
  match s.get CH_PART_CFG.PROFILE p with
  | 0 => s.get CH_PART_CFG.DIR_UNITS p
  | 1 => 4
  | 2 => 1
  | _ => 16

/-- A read of a line's directory entry misses the directory cache: always where the partition has no share of it (R233). -/
def State.countMiss (s : State) (ln : Nat) : State :=
  let p := s.linePart ln
  if s.dirUnits p == 0 || Config.dirMiss ln s.tb.hclk then s.bump CH_PART_DIR.DIR_MISS p 1 else s

/-- Takes a request on a line with no transaction in progress (Table 8.13). One whose balance does not cover its cost goes back to the
front of the line's queue until the next tide edge (R263). -/
def State.serveLine (s : State) (ln : Nat) (r : HomeReq) : State :=
  if s.protects ln r then s.refuseProtected r
  else if !s.homeAffords ln r then
    (s.setLine ln { s.line ln with queue := r :: (s.line ln).queue }).fareStall none (s.homePayer ln r).1
  else
    let s := (s.countMiss ln).chargeHome ln r (s.homeCost ln r)
    let d := (s.line ln).dir
    let q := s.requester r
    let invalidate (ts : List Nat) : State :=
      let s := if d.ovf then s.bump CH_PART_DIR.BCAST (s.linePart ln) 1 else s
      if ts.isEmpty then s.conclude ln r true else s.startTxn ln r ts 0x4A s.modId
    match s.reqKind ln r, d.st with
    | .rdS, .u => s.conclude ln r true
    | .rdS, .sh => match d.f with
      | some e => s.startTxn ln r [e] 0x48 q
      | none => s.conclude ln r true
    | .rdS, .ow => s.startTxn ln r (d.ptrs.take 1) 0x48 q
    | .rdO, .u => s.conclude ln r true
    | .rdO, .sh => invalidate (s.sharers ln q)
    | .rdO, .ow => s.startTxn ln r (d.ptrs.take 1) 0x49 q
    | .upg, .sh =>
      if d.ptrs.contains q || d.ovf then
        let ts := s.sharers ln q
        let s := if d.ovf then s.bump CH_PART_DIR.BCAST (s.linePart ln) 1 else s
        if ts.isEmpty then s.conclude ln r false else s.startTxn ln r ts 0x4A s.modId
      else invalidate (s.sharers ln q)
    | .upg, .u => s.conclude ln r true
    | .upg, .ow => s.startTxn ln r (d.ptrs.take 1) 0x49 q
    | .rdU, .ow => s.startTxn ln r (d.ptrs.take 1) 0x48 s.modId
    | .rdU, _ => s.conclude ln r true
    | .wr, .u => s.conclude ln r true
    | .wr, .sh => invalidate (s.sharers ln s.modId)
    | .wr, .ow =>
      match r with
      | .cmd cid =>
        match s.cmd cid with
        | some c =>
          if c.opc = ocPublish ∧ (publishBody c.desc).action = 1 then s.answerCmd cid stBadDesc 0x23 0
          else s.startTxn ln r (d.ptrs.take 1) 0x49 s.modId
        | none => s
      | _ => s.startTxn ln r (d.ptrs.take 1) 0x49 s.modId

/-- The record line a HANDOFF that has its ticket line now waits for. -/
def State.recordAwaited (s : State) (ln : Nat) : Option (Nat × Nat) :=
  match (s.line ln).txn with
  | some t => match t.record, t.req with
    | some k, .cmd cid => some (k, cid)
    | _, _ => none
  | none => none

/-- Queues the second half of a HANDOFF on its record line, or takes it there at once (R213, R231). -/
def State.linkRecord (s : State) (ln : Nat) : State :=
  match s.recordAwaited ln with
  | none => s
  | some x =>
    let r : HomeReq := .linked ln x.2
    let l := s.line x.1
    if l.txn.any (·.req == r) || l.queue.contains r then s
    else if l.txn.isNone && l.queue.isEmpty then s.serveLine x.1 r
    else s.setLine x.1 { l with queue := l.queue ++ [r] }

/-- Takes a request on a line with no transaction in progress, and the record line it needs beside it. -/
def State.serve (s : State) (ln : Nat) (r : HomeReq) : State := (s.serveLine ln r).linkRecord ln

/-- Ends a transaction, and takes the record line its HANDOFF needs. -/
def State.concludeLine (s : State) (ln : Nat) (r : HomeReq) (needData : Bool) : State := (s.conclude ln r needData).linkRecord ln

/-- Takes several requests of a line in order; what meets a transaction or an empty balance stays in front of the queue. -/
def State.serveAll (s : State) (ln : Nat) : List HomeReq → State
  | [] => s
  | r :: t =>
    if (s.line ln).txn.isSome || !(s.protects ln r || s.homeAffords ln r) then
      (s.setLine ln { s.line ln with queue := r :: t ++ (s.line ln).queue }).fareStall none (s.homePayer ln r).1
    else (s.serve ln r).serveAll ln t

/-- Queues a request of a line in the order of R217; an update joins the round of its source (R223): it goes before the
updates that belong to later rounds. -/
def State.enqueueReq (s : State) (ln : Nat) (r : HomeReq) : State :=
  let l := s.line ln
  let isUpd (x : HomeReq) : Bool := match x with
    | .frame _ => s.reqKind ln x == .wr
    | .cmd _ => s.reqKind ln x == .wr
    | .store _ _ _ => true
    | _ => false
  let round (q : List HomeReq) (x : HomeReq) : Nat := (q.filter fun y => isUpd y && s.roundSource y == s.roundSource x).length
  let mine := round l.queue r
  let withRound := l.queue.foldl (fun (acc : List (HomeReq × Nat)) x => acc ++ [(x, round (acc.map (·.1)) x)]) []
  let late := if isUpd r then (withRound.reverse.takeWhile fun x => isUpd x.1 && mine < x.2).length else 0
  let n := l.queue.length - late
  s.setLine ln { l with queue := l.queue.take n ++ [r] ++ l.queue.drop n }

/-- A request reaches the home. -/
def State.arrive (s : State) (ln : Nat) (r : HomeReq) : State :=
  let l := s.line ln
  if l.txn.isNone && l.queue.isEmpty then s.serve ln r else s.enqueueReq ln r

/-- A frame of a held slot reaches the home: a handle that names no TALLY berth gets BAD_DESC, and a posted store to it is discarded
and counted (R190, R195). -/
def State.homeFrame (s : State) (f : Frame) (sl : Slot) : State :=
  if sl.kind ≠ kindTally || f.addr.extractLsb' 50 2 != 0#2 then
    if isNonPosted f then s.refuse f stBadDesc else (s.bump PM_PART_ERR.DROPPED_ST f.part.toNat 1).bulkDone f .lost
  else s.arrive (s.slotByte sl (f.addr.toNat % berthBytes) / 128) (.frame f)

/-! ## Engines at the home (R212) -/

/-- The tally lines a span of a slot touches; none of a slot that is no TALLY slot. -/
def State.spanLines (s : State) (sl : Slot) (off len : Nat) : List Nat :=
  if sl.kind ≠ kindTally || len = 0 then []
  else (List.range ((off + len - 1) / 128 - off / 128 + 1)).map fun i => s.slotByte sl ((off / 128 + i) * 128) / 128

/-- Memory holds a line as an engine is to read it: no owner caches it, and nothing that changes it is under way. -/
def State.lineCurrent (s : State) (ln : Nat) : Bool :=
  let l := s.line ln
  l.dir.st != .ow && l.txn.isNone && !l.queue.any fun r => match r with | .store _ _ _ => true | _ => false

/-- An engine asks the home for lines it is to read. -/
def State.recallLines (s : State) (lns : List Nat) : State :=
  (lns.filter fun ln => !s.lineCurrent ln).foldl (fun s ln =>
    let l := s.line ln
    if l.txn.any (·.req == .recall) || l.queue.contains .recall then s else s.arrive ln .recall) s

/-- An engine's store to a TALLY berth: the home applies it line by line. -/
def State.storeLines (s : State) (p : Nat) (sl : Slot) (off : Nat) (d : Payload) : State :=
  (List.range ((off + d.bytes.length - 1) / 128 - off / 128 + 1)).foldl (fun s i =>
    let lo := max off ((off / 128 + i) * 128)
    let hi := min (off + d.bytes.length) ((off / 128 + i + 1) * 128)
    let piece := (d.bytes.drop (lo - off)).take (hi - lo)
    let bad := (List.range 2).filter fun k => d.poisoned.contains (lo / 64 + k - off / 64)
    s.arrive (s.slotByte sl lo / 128) (.store p (lo % 128) ⟨piece, bad⟩)) s

/-- Stores of a partition's engines that the home has not applied yet. -/
def State.storesAtHome (s : State) (p : Nat) : Bool :=
  let mine (r : HomeReq) : Bool := match r with | .store q _ _ => q == p | _ => false
  s.ho.lines.any fun e => e.2.queue.any mine || e.2.txn.any fun t => mine t.req

/-- A span touches a protected line, so engines may not store to it (R205, R213). -/
def State.protectedSpan (s : State) (p h off len : Nat) : Bool :=
  match s.heldSlot p h with
  | some sl => (s.spanLines sl off len).any fun ln => s.lineKind ln != .normal
  | none => false

end Sys2Proof.Machine
end

