-- ==== Sys2Proof/Machine/Doorbells.lean ====
section
/-! DEFINITION. Doorbells (R37 to R41, Tables 2.2 to 2.5) and the aperture they are written to (R312). -/

namespace Sys2Proof.Machine

/-- A frame's address lies in the doorbell aperture. -/
def inAperture (f : Frame) : Bool := f.addr.extractLsb' 50 2 == 1#2

/-- The context a doorbell slot belongs to, and the offset in the slot (R312). -/
def slotContext (f : Frame) : Nat := f.addr.toNat / 64 % 4096
def slotOffset6 (f : Frame) : Nat := f.addr.toNat % 64

/-- ADDR[49:18] is zero. -/
def apertureOk (f : Frame) : Bool := f.addr.toNat % 2 ^ 50 / 2 ^ 18 == 0

/-- A write of 8 bytes inside one block. -/
def eightBytes (f : Frame) : Bool := attrSub f && attrSzm1 f == 7 && f.data.length == 64

/-- The 8-byte doorbell value (Table 2.3). -/
def doorbellValue (f : Frame) : Nat := leNat ((f.data.drop (slotOffset6 f)).take 8)

/-- Check 1 of Table 2.5: the stamped PART is the slot's, and OWNER_RANK holds the frame's SRC in the frame's epoch (R305,
R312). -/
def State.doorbellOwner (s : State) (f : Frame) : Bool :=
  let c := slotContext f
  let p := s.ctxPart c
  f.part.toNat == p && (match s.epochSlot p f.epoch.toNat with
    | some sl => f.src.toNat != 0 && s.mapped p sl (s.ctxRank c) == f.src.toNat
    | none => false)

/-- REASON of the first of checks 2 to 5 of Table 2.5 that fails, for a ring of `n` entries. -/
def State.doorbellReason (s : State) (f : Frame) (n : Nat) : Nat :=
  let c := slotContext f
  let v := doorbellValue f
  if !eightBytes f || v / 2 ^ 24 != 0 then 1
  else if s.ctxState c != ctxEnabled && s.ctxState c != ctxPaused then 2
  else if v / 65536 % 256 != s.get CF_CTX_CTRL.GEN c then 3
  else if n ≤ v % 65536 then 4
  else 0

/-- DB_RSP: STATUS, REASON, SQ_HEAD and GEN (Table 2.4). -/
def State.doorbellRsp (s : State) (f : Frame) (status reason head gen : Nat) : State :=
  s.respond f opDbRsp status flagLast 0
    (leBytes 8 (status + 256 * reason + 65536 * head + 2 ^ 32 * gen) ++ List.replicate 56 0#8)

/-- A submission doorbell (R38 to R40, R65, R398). -/
def State.doorbell (s : State) (f : Frame) : State :=
  let c := slotContext f
  let n := s.sqSize c
  let head := s.get CF_CTX_STATE.SQ_HEAD c
  let tail := s.get CF_CTX_IDX.SQ_TAIL c
  let gen := s.get CF_CTX_CTRL.GEN c
  let bad (r : Nat) : State := s.doorbellRsp f stBadDesc r head gen
  if !inAperture f || !apertureOk f || slotOffset6 f != 0 then s.respond f opDbRsp stBadDesc flagLast 0
      (leBytes 8 (stBadDesc + 256) ++ List.replicate 56 0#8)
  else if !s.doorbellOwner f || s.partState (s.ctxPart c) == partTeardown then
    (s.bump CF_DB_REJECT.NOT_OWNER (s.ctxPart c) 1).doorbellRsp f stNotOwner 0 0 0
  else
    let r := s.doorbellReason f n
    let idx := doorbellValue f % 65536
    if r ≠ 0 then bad r
    else if (idx + n - head) % n < (tail + n - head) % n then bad 5
    else if idx = tail then s.doorbellRsp f stOk 0 head gen
    else
      let s := s.put CF_CTX_IDX.SQ_TAIL c idx
      s.doorbellRsp f (if (idx + n - head) % n = n - 1 then stRingFull else stOk) 0 head gen

/-- A posted write to the aperture: the completion-head doorbell, or anything else, discarded and counted (R37, R41, R312). R41
does not say for which partition: DESIGN CHOICE, the slot's for a completion-head doorbell, the frame's PART for any other offset
(log entry 80). -/
def State.completionHead (s : State) (f : Frame) : State :=
  let c := slotContext f
  let n := s.cqSize c
  let discard (s : State) : State := s.bump CF_DB_REJECT.DISCARDED (s.ctxPart c) 1
  if !apertureOk f || slotOffset6 f != 8 then s.bump CF_DB_REJECT.DISCARDED f.part.toNat 1
  else if !s.doorbellOwner f || s.doorbellReason f n ≠ 0 then discard s
  else
    let idx := doorbellValue f % 65536
    let k := (idx + n - s.get CF_CTX_IDX.CQ_HEAD c) % n
    let x := s.ctx c
    if x.unconsumed < k then discard s
    else (s.setCtx c { x with unconsumed := x.unconsumed - k }).put CF_CTX_IDX.CQ_HEAD c idx

/-- DB: a submission doorbell is checked in the order of Table 2.5, sets the tail and gets its response (R38). -/
def execDb (f : Frame) (s : State) : Host.Outcome State Fault Refusal := .next (whenUp s fun s => s.doorbell f)

/-- COMPLETION_HEAD_DOORBELL (R41). -/
def execCompletionHeadDoorbell (f : Frame) (s : State) : Host.Outcome State Fault Refusal :=
  .next (whenUp s fun s => s.completionHead f)

end Sys2Proof.Machine
end

