-- ==== Sys2Proof/Machine/Partials.lean ====
section
/-! DEFINITION. Attention partials: rows of O with m and l, their merge (R109, R111, R112), the fixed tree of R154, and the
row layout of R105. -/

namespace Sys2Proof.Machine

/-- The neutral partial of width `w` (R110). -/
def Partial.neutral (w : Nat) : Partial :=
  { o := List.replicate w 0, m := f32NegInf, l := 0, nan := false, poison := false }

/-- A row that became NaN (R111). -/
def Partial.nanRow (w : Nat) : Partial :=
  { o := List.replicate w f32NaN, m := f32NaN, l := f32NaN, nan := true, poison := false }

/-- A NaN or an infinity makes the whole row NaN; poison takes precedence over NaN (R111, R112). -/
def Partial.settle (p : Partial) : Partial :=
  if p.poison then { p with nan := false }
  else if p.nan || p.o.any special32 || special32 p.l || isNaN32 p.m || p.m == f32PosInf then Partial.nanRow p.o.length
  else p

/-- The merge of R109, `a` from the lower index; a difference that overflows to −∞ counts as exp2 = 0 (DESIGN CHOICE, log entry
82). -/
def mergePartial (a b : Partial) : Partial :=
  let w := a.o.length
  if a.poison || b.poison then { Partial.neutral w with poison := true }
  else if a.nan || b.nan then Partial.nanRow w
  else
    let m := f32Max a.m b.m
    if m = f32NegInf then Partial.neutral w
    else
      let ca := exp2 (f32Sub a.m m)
      let cb := exp2 (f32Sub b.m m)
      ({ o := List.zipWith (fun x y => f32Add (f32Mul x ca) (f32Mul y cb)) a.o b.o, m := m,
         l := f32Add (f32Mul a.l ca) (f32Mul b.l cb), nan := false, poison := false } : Partial).settle

/-- One level of the tree of R154: pairs combine, lower index first; an absent leaf passes its sibling up. -/
def treeLevel {α : Type} (combine : α → α → α) : List (Option α) → List (Option α)
  | a :: b :: t =>
    (match a, b with
     | none, x => x
     | x, none => x
     | some x, some y => some (combine x y)) :: treeLevel combine t
  | l => l

/-- The tree of R154, in at most `n` levels. -/
def treeOf {α : Type} (combine : α → α → α) : Nat → List (Option α) → Option α
  | _, [] => none
  | _, [x] => x
  | 0, x :: _ => x
  | n + 1, l => treeOf combine n (treeLevel combine l)

/-- Some sector that holds any of `n` bytes from `off` is poisoned. -/
def touched (ps : List Nat) (off n : Nat) : Bool := ps.any fun k => off / 64 ≤ k && k ≤ (off + n - 1) / 64

/-- FP32 rows of width `w` in the layout of R105, from row `first` on. -/
def rowsFrom (p : Payload) (nrow w first n : Nat) : List Partial :=
  let base := (nrow * w * 4 + 63) / 64 * 64
  (List.range n).map fun i =>
    let r := first + i
    let bs := (p.bytes.drop (r * w * 4)).take (w * 4)
    let pair := (p.bytes.drop (base + 8 * r)).take 8
    let word (l : List Byte) : F32 := BitVec.ofNat 32 (bytesNat (l.take 4))
    ({ o := (List.range w).map fun j => word (bs.drop (4 * j)), m := word pair, l := word (pair.drop 4), nan := false,
       poison := touched p.poisoned (r * w * 4) (w * 4) || touched p.poisoned (base + 8 * r) 8 } : Partial).settle

/-- The O element of a row as it is written: a NaN row writes canonical NaNs (R111). -/
def rowBytesOut (ofmt : Nat) (p : Partial) : List Byte := p.o.flatMap fun x => outBytes ofmt (if p.nan then f32NaN else x)

/-- Rows in the layout of R105: O in OFMT, then pairs {m, l}; a sector that holds any part of a reached row is poisoned
(R112). -/
def rowsOut (ofmt w : Nat) (rows : List Partial) : Payload :=
  let rb := w * elemBits ofmt / 8
  let os := rows.flatMap (rowBytesOut ofmt)
  let base := (os.length + 63) / 64 * 64
  let pairs := rows.flatMap fun p => outBytes 9 (if p.nan then f32NaN else p.m) ++ outBytes 9 (if p.nan then f32NaN else p.l)
  let bad := (List.range rows.length).filter fun i => match rows[i]? with | some p => p.poison | none => false
  let secs := bad.flatMap fun i =>
    (List.range ((i * rb + rb - 1) / 64 - i * rb / 64 + 1)).map (· + i * rb / 64) ++ [(base + 8 * i) / 64]
  { bytes := os ++ List.replicate (base - os.length) 0 ++ pairs, poisoned := secs.eraseDups }

/-- Counts of NaN and poisoned rows (R120). -/
def nanCount (rows : List Partial) : Nat := (rows.filter (·.nan)).length
def poisonCount (rows : List Partial) : Nat := (rows.filter (·.poison)).length

end Sys2Proof.Machine
end

