-- ==== Sys2Proof/Machine/Tier.lean ====
section
/-! DEFINITION. The tier engine's operations (chapter 9): blocks of windows, fills from trays and flash with the 8+2 code,
write-back, bindings, reads of spans that may not be resident, and manifests. -/

namespace Sys2Proof.Machine

/-! ## Blocks (R234) -/

/-- Stores a window. -/
def State.setWindow (s : State) (key : Nat) (w : Window) : State :=
  { s with te := { s.te with windows := Tab.put s.te.windows key w } }

/-- Changes the state of a block of a window; what was read past near memory for a block that is no longer ABSENT is forgotten
(R247). -/
def State.setBlock (s : State) (key b : Nat) (st : BlockState) : State :=
  match s.window key with
  | some w =>
    let s := s.setWindow key { w with blocks := Tab.set .absent w.blocks b st }
    if st = .absent then s
    else
      { s with te := { s.te with
        feed := s.te.feed.filter fun x => !(x.1 == key && x.2.1 == b),
        refill := if st = .filling then s.te.refill else s.te.refill.filter fun x => !(x.1 == key && x.2 == b) } }
  | none => s

/-- The slot of a key. -/
def State.keySlot (s : State) (key : Nat) : Slot := s.slot (key / 32768) (key % 32768)

/-- The handle of a key as its slot stands. -/
def State.keyHandle (s : State) (key : Nat) : Nat := slotHandle (key % 32768) (s.keySlot key)

/-! ## The 8+2 code (R236) -/

/-- Doubling in GF(2^8) with the polynomial x^8 + x^4 + x^3 + x^2 + 1. -/
def gfDouble (a : Byte) : Byte := if a.msb then (a <<< 1) ^^^ 0x1D#8 else a <<< 1

/-- The product in GF(2^8), by the bits of the second factor. -/
def gfMulAux (a : Byte) : Nat → Nat → Byte
  | 0, _ => 0
  | n + 1, b => (if b % 2 = 1 then a else 0) ^^^ gfMulAux (gfDouble a) n (b / 2)
def gfMul (a b : Byte) : Byte := gfMulAux a 8 b.toNat

/-- g^i with g = 2. -/
def gfPow (i : Nat) : Byte := times gfDouble i 1#8

/-- The inverse: a^254. -/
def gfInv (a : Byte) : Byte := times (gfMul a) 254 1#8

/-- The sum of two shards, and a multiple of one. -/
def shardAdd (x y : List Byte) : List Byte := List.zipWith (· ^^^ ·) x y
def shardMul (c : Byte) (x : List Byte) : List Byte := x.map (gfMul c)

/-- Bytes of a shard. -/
def shardBytes : Nat := 512

/-- The eight data shards of a block's bytes. -/
def dataShards (bs : List Byte) : List (List Byte) := (List.range 8).map fun j => (bs.drop (512 * j)).take 512

/-- P and Q of eight data shards. -/
def parityP (ds : List (List Byte)) : List Byte := ds.foldl shardAdd (List.replicate 512 0#8)
def parityQ (ds : List (List Byte)) : List Byte :=
  (ds.zip (List.range 8)).foldl (fun acc x => shardAdd acc (shardMul (gfPow x.2) x.1)) (List.replicate 512 0#8)

/-- The eight data shards from the shards that were read, 8 being P and 9 Q: at most two data shards are missing. -/
def recoverShards (got : List (Nat × List Byte)) : List (List Byte) :=
  let zero := List.replicate 512 0#8
  let have_ (j : Nat) : Option (List Byte) := (got.find? (·.1 == j)).map (·.2)
  let known := (List.range 8).map fun j => (have_ j).getD zero
  match (List.range 8).filter fun j => (have_ j).isNone with
  | [] => known
  | [x] =>
    let v := match have_ 8 with
      | some p => shardAdd p (parityP known)
      | none => shardMul (gfInv (gfPow x)) (shardAdd ((have_ 9).getD zero) (parityQ known))
    known.set x v
  | x :: y :: _ =>
    let p := shardAdd ((have_ 8).getD zero) (parityP known)
    let q := shardAdd ((have_ 9).getD zero) (parityQ known)
    let dx := shardMul (gfInv (gfPow x ^^^ gfPow y)) (shardAdd (shardMul (gfPow y) p) q)
    (known.set x dx).set y (shardAdd p dx)

/-! ## Trays (R236, R238) -/

/-- Tray berth states (Table 9.17). -/
def tbFree : Nat := 0
def tbAllocated : Nat := 1
def tbDegraded : Nat := 2
def tbRebuilding : Nat := 3
def tbLost : Nat := 4

def State.setTrayBerth (s : State) (tbn : Nat) (t : TrayBerth) : State :=
  { s with ty := { s.ty with berths := Tab.set TrayBerth.free s.ty.berths tbn t } }

/-- Position `pos` of a berth's trays cannot serve block `b`: lost, and not yet rebuilt for it (R238, R239). -/
def TrayBerth.lostAt (t : TrayBerth) (b pos : Nat) : Bool :=
  t.lost.contains pos && !(t.target == some pos && !t.rebuild.contains b)

/-- The byte of a tray where a position's copy or shard of a block lies. -/
def TrayBerth.byteOf (t : TrayBerth) (b pos : Nat) : Nat × Nat :=
  match t.places[pos]? with
  | none => (0, 0)
  | some pl =>
    if t.policy = 0 then (pl.1, pl.2.getD (b / 2048) 0 * 8388608 + b % 2048 * 4096) else (pl.1, pl.2.headD 0 * 8388608 + 512 * b)

/-- The reads that fetch a block: shard (or copy), tray, byte address and length; none where it cannot be fetched. -/
def TrayBerth.reads (t : TrayBerth) (b : Nat) : Option (List (Nat × Nat × Nat × Nat)) :=
  if t.state = tbFree ∨ t.state = tbLost then none
  else if t.policy = 0 then
    let c := if t.lostAt b (b % 2) then 1 - b % 2 else b % 2
    if t.lostAt b c then none else some [(c, (t.byteOf b c).1, (t.byteOf b c).2, blockBytes)]
  else
    let js := ((List.range 10).filter fun j => !t.lostAt b ((j + b) % 10)).take 8
    if js.length < 8 then none
    else some (js.map fun j => (j, (t.byteOf b ((j + b) % 10)).1, (t.byteOf b ((j + b) % 10)).2, shardBytes))

/-- The poisoned sectors of a shard, from those of a block; parity is poisoned where any data shard is. -/
def shardPoison (ps : List Nat) (j : Nat) : List Nat :=
  (List.range 8).filter fun k => if j < 8 then ps.contains (8 * j + k) else (List.range 8).any fun i => ps.contains (8 * i + k)

/-- A shard of a block. -/
def shardOf (p : Payload) (j : Nat) : Payload :=
  let ds := dataShards p.bytes
  { bytes := if j < 8 then ds.getD j [] else if j = 8 then parityP ds else parityQ ds, poisoned := shardPoison p.poisoned j }

/-- The stores that write a block, to the positions `at_` picks: tray, byte address, data. -/
def TrayBerth.stores (t : TrayBerth) (b : Nat) (p : Payload) (at_ : Nat → Bool) : List (Nat × Nat × Payload) :=
  if t.policy = 0 then ((List.range 2).filter at_).map fun c => ((t.byteOf b c).1, (t.byteOf b c).2, p)
  else ((List.range 10).filter fun j => at_ ((j + b) % 10)).map fun j =>
    ((t.byteOf b ((j + b) % 10)).1, (t.byteOf b ((j + b) % 10)).2, shardOf p j)

/-- A block from what was read. -/
def assembleBlock (policy : Nat) (got : List (Nat × Payload)) : Payload :=
  if policy = 0 then (got.head?.map (·.2)).getD ⟨[], []⟩
  else
    let missing := (List.range 8).filter fun j => !got.any (·.1 == j)
    let anyBad (k : Nat) : Bool := got.any fun g => g.2.poisoned.contains k
    { bytes := (recoverShards (got.map fun g => (g.1, g.2.bytes))).flatten,
      poisoned := (List.range 64).filter fun i =>
        if missing.contains (i / 8) then anyBad (i % 8)
        else match got.find? (·.1 == i / 8) with
          | some g => g.2.poisoned.contains (i % 8)
          | none => false }

/-- The endpoint ID of a tray: that of its first TRAY port that is up. -/
def State.trayEp (s : State) (tray : Nat) : Option Nat :=
  ((List.range 512).find? fun p => s.flag LK_PORT_CFG.ENABLE p && s.get LK_PORT_CFG.ROLE p == 1 && s.portUp p &&
    s.trayOf p == tray).map fun p => s.get LP_PORT_CFG.EP_ID p

/-- Posted stores to a tray (R311). -/
def State.storeTray (s : State) (part : Nat) (w : Nat × Nat × Payload) : State :=
  match s.trayEp w.1 with
  | some ep => s.originateAll (s.storeFrames part 0 ep w.2.1 w.2.2) none
  | none => s

/-- A read by the module, tracked until its data or its failure arrives. -/
def State.newRead (s : State) (use : ReadUse) (part len : Nat) : Nat × State :=
  (s.fe.nextRid, { s with fe := { s.fe with
    reads := s.fe.reads ++ [{ rid := s.fe.nextRid, use := use, part := part, len := len, issued := s.tb.hclk, mark := none }],
    nextRid := s.fe.nextRid + 1 } })

/-- Sends the LD of a read: its TAG is the read's number (R298). -/
def State.sendLd (s : State) (rid part dst ctx addr len : Nat) : State :=
  s.originate (s.mkFrame opLd vcReq part dst ctx rid addr len 0 0 []) (some (.read rid))

/-! ## Fills -/

def State.fill (s : State) (fid : Nat) : Option Fill := s.te.fills.find? (·.fid == fid)

def State.dropFill (s : State) (fid : Nat) : State :=
  { s with te := { s.te with fills := s.te.fills.filter (·.fid != fid) },
           fe := { s.fe with reads := s.fe.reads.filter fun r => match r.use with | .trayShard f _ => f != fid | _ => true },
           fl := { s.fl with cmds := s.fl.cmds.filter fun c => c.fill != some fid } }

/-- A fill fails: its block is FAILED; a block under rebuild stays to be rebuilt (R240, R254). -/
def State.fillFailed (s : State) (fid : Nat) : State :=
  match s.fill fid with
  | none => s
  | some f =>
    let s := s.dropFill fid
    if f.rebuildOf.isSome then s else s.setBlock f.key f.block .failed

/-- The place of a block of a flash berth: drive and LBA (R244). -/
def FlashBerth.place (f : FlashBerth) (b : Nat) : Nat × Nat :=
  let n := 2 ^ f.log2n
  let u := b / 64
  (f.first + u % n, f.start + 64 * (u / n) + b % 64)

/-- Issues an NVMe Read; a drive that is not UP fails it (R241, R243). -/
def State.nvmeRead (s : State) (fb : FlashBerth) (b n : Nat) (fill copy : Option Nat) : Option State :=
  let pl := fb.place b
  let q := s.get FL_DRIVE_STATUS.QPAIRS pl.1
  if s.get FL_DRIVE_STATUS.STATE pl.1 ≠ 2 ∨ q = 0 then none
  else
    let nid := s.fl.nextNid
    let c : Nvme := { drive := pl.1, nid := nid, qpair := nid % q + 1, fill := fill, copyCid := copy, nsid := fb.nsid,
                      lba := pl.2, blocks := n, retried := false, due := false }
    some (({ s with fl := { s.fl with cmds := s.fl.cmds ++ [c], nextNid := nid + 1 } } : State).emit
      (.nvme pl.1 c.qpair 0x02 fb.nsid pl.2 n))

/-- Near granules and the source resource of one block of a window (R258). -/
def State.fillCost (s : State) (f : Fill) : Nat × Nat :=
  if f.feed || f.rebuildOf.isSome then (0, 0) else s.granules (s.keySlot f.key) (f.block * blockBytes) blockBytes true

/-- The source a fill reads. -/
def State.fillSource (s : State) (f : Fill) : Option Source :=
  match f.rebuildOf with
  | some t => some (.tray t)
  | none => (s.window f.key).map (·.src)

/-- Issues the reads of a fill when the fares of its window's partition cover them (R258, R263). -/
def State.issueFill (s : State) (fid : Nat) : State :=
  match s.fill fid with
  | none => s
  | some f =>
    if f.issued then s
    else
      let p := f.key / 32768
      let near := s.fillCost f
      match s.fillSource f with
      | none => s.dropFill fid
      | some (.flash fb) =>
        if s.covers p 0 .flash 1 && s.coversNear p 0 near then
          match s.nvmeRead (s.flashBerth fb) f.block 1 (some fid) none with
          | none => s.fillFailed fid
          | some s =>
            let s := (s.charge p 0 .flash 1).chargeNear p 0 near
            { s with te := { s.te with fills := replaceFirst (·.fid == fid) (fun f => { f with issued := true, need := [0] }) s.te.fills } }
        else s
      | some (.tray t) =>
        match (s.trayBerth t).reads f.block with
        | none => s.fillFailed fid
        | some rs =>
          if rs.any fun r => (s.trayEp r.2.1).isNone then s.fillFailed fid
          else if f.rebuildOf.isSome || (s.covers p 0 .tray 16 && s.coversNear p 0 near) then
            let s := if f.rebuildOf.isSome then s else (s.charge p 0 .tray 16).chargeNear p 0 near
            let s := { s with te := { s.te with
              fills := replaceFirst (·.fid == fid) (fun f => { f with issued := true, need := rs.map (·.1) }) s.te.fills } }
            rs.foldl (fun s r =>
              let n := s.newRead (.trayShard fid r.1) p r.2.2.2
              n.2.sendLd n.1 p ((s.trayEp r.2.1).getD 0) 0 r.2.2.1 r.2.2.2) s
          else s

/-- Issues every fill that waits for a fare and is now covered, in order. -/
def State.issueFills (s : State) : State := s.te.fills.foldl (fun s f => s.issueFill f.fid) s

/-- Opens a fill of a block. -/
def State.addFill (s : State) (key b : Nat) (feed : Bool) (rebuildOf manifest : Option Nat) : State :=
  let fid := s.te.nextFill
  let f : Fill := { fid := fid, key := key, block := b, issued := false, need := [], got := [], feed := feed,
                    rebuildOf := rebuildOf, manifest := manifest }
  ({ s with te := { s.te with fills := s.te.fills ++ [f], nextFill := fid + 1 } } : State).issueFill fid

/-- The next block of a tray berth under rebuild is read, one block at a time (R239). -/
def State.rebuildNext (s : State) (t : Nat) : State :=
  let tb := s.trayBerth t
  match tb.rebuild with
  | [] => s
  | b :: _ =>
    if tb.state != tbRebuilding || s.te.fills.any (fun f => f.rebuildOf == some t) then s
    else s.addFill (slotKey tb.part 0) b false (some t) none

/-- A block of a window read through-feed is at hand. -/
def State.fed (s : State) (key b : Nat) : Option Payload := (s.te.feed.find? fun x => x.1 == key && x.2.1 == b).map (·.2.2)

/-- A block of a window has granules on channels whose reserve was exhausted: it streams past near memory (R201). -/
def State.deadBlock (s : State) (key b : Nat) : Bool :=
  !s.pm.dead.isEmpty && (List.range 64).any fun i => s.deadSector (s.slotByte (s.keySlot key) (b * blockBytes + 64 * i) / 64)

/-- A block is read past near memory (R201, R247). -/
def State.streams (s : State) (key b : Nat) (w : Window) : Bool := w.through || s.deadBlock key b

/-- An ABSENT block is filled (R235, R247). -/
def State.demandFill (s : State) (key b : Nat) (manifest : Option Nat) : State :=
  if s.blockState key b = .absent then (s.setBlock key b .filling).addFill key b false none manifest else s

/-- An ABSENT block of a window in THROUGH is read past near memory (R247). -/
def State.demandFeed (s : State) (key b : Nat) : State :=
  if s.blockState key b ≠ .absent || (s.fed key b).isSome || s.te.fills.any (fun f => f.key == key && f.block == b) then s
  else s.addFill key b true none none

/-- The data of a fill are complete: the block is RESIDENT, or at hand for its readers, or its lost copies are written to
the replacement tray (R235, R239, R247). -/
def State.fillDone (s : State) (f : Fill) (p : Payload) : State :=
  let s := s.dropFill f.fid
  match f.rebuildOf with
  | some t =>
    let tb := s.trayBerth t
    let s := (tb.stores f.block p fun pos => tb.target == some pos).foldl (fun s w => s.storeTray tb.part w) s
    (s.setTrayBerth t { tb with rebuild := tb.rebuild.filter (· != f.block) }).rebuildNext t
  | none =>
    if f.feed then { s with te := { s.te with feed := s.te.feed ++ [(f.key, f.block, p)] } }
    else if s.blockState f.key f.block = .filling ∧ (s.window f.key).isSome then
      ((s.writeSlot (s.keySlot f.key) (f.block * blockBytes) p).setBlock f.key f.block .resident).bump
        TE_PART_STALL.FILLED (f.key / 32768) 1
    else s

/-- A shard of a fill arrives. -/
def State.shardArrived (s : State) (fid shard : Nat) (p : Payload) : State :=
  match s.fill fid with
  | none => s
  | some f =>
    let got := f.got ++ [(shard, p)]
    if f.need.all fun j => got.any (·.1 == j) then
      let policy := match s.fillSource f with
        | some (.tray t) => (s.trayBerth t).policy
        | _ => 0
      s.fillDone f (assembleBlock policy got)
    else { s with te := { s.te with fills := replaceFirst (·.fid == fid) (fun f => { f with got := got }) s.te.fills } }

/-! ## Write-back (R249, R250) -/

/-- A DIRTY block is written to its source, as whole copies or shards to the trays it still has, and is then RESIDENT; one of a
LOST tray berth stays DIRTY and is logged; one whose near and tray fares do not cover the write, or whose block is just being
rebuilt, waits (R238, R239, R249, R258). -/
def State.writeBack (s : State) (key b : Nat) : State :=
  match s.window key with
  | none => s
  | some w =>
    if Tab.get .absent w.blocks b ≠ .dirty then s
    else match w.src with
      | .flash _ => s
      | .tray t =>
        let tb := s.trayBerth t
        let p := key / 32768
        if tb.state = tbLost then
          s.log { cause := .trayLost, part := some p, addr := t, aux := s.keyHandle key, loc := loc [(tb.places.headD (0, [])).1] }
        else
          let data := s.readSlot (s.keySlot key) (b * blockBytes) blockBytes
          let ws := tb.stores b data fun pos => !tb.lostAt b pos
          let n := (ws.map fun x => x.2.2.bytes.length / 256).sum
          let near := s.granules (s.keySlot key) (b * blockBytes) blockBytes false
          if !s.covers p 0 .tray n || !s.coversNear p 0 near
              || s.te.fills.any (fun f => f.rebuildOf == some t && f.block == b) then s
          else
            let s := ws.foldl (fun s x => s.storeTray p x) ((s.charge p 0 .tray n).chargeNear p 0 near)
            (s.setBlock key b .resident).bump TE_PART_STALL.WRITTEN_BACK p 1

/-- DIRTY blocks of a window. -/
def State.dirtyBlocks (s : State) (key : Nat) : List Nat :=
  match s.window key with
  | some w => (w.blocks.filter fun e => e.2 == .dirty).map (·.1)
  | none => []

/-- Writes back every DIRTY block of a window. -/
def State.writeBackAll (s : State) (key : Nat) : State := (s.dirtyBlocks key).foldl (fun s b => s.writeBack key b) s

/-- A window's source is a LOST tray berth. -/
def State.sourceLost (s : State) (key : Nat) : Bool :=
  match s.window key with
  | some w => match w.src with
    | .tray t => (s.trayBerth t).state == tbLost
    | .flash _ => false
  | none => false

/-- Nothing more can be written back: no DIRTY block, or a LOST source. -/
def State.cleaned (s : State) (key : Nat) : Bool := (s.dirtyBlocks key).isEmpty || s.sourceLost key

/-! ## Bindings (R245, R246) -/

/-- No fill and no held request of a window is in flight (R246). -/
def State.quietWindow (s : State) (key : Nat) : Bool :=
  !s.te.fills.any (fun f => f.key == key && f.rebuildOf.isNone) &&
  !s.te.held.any (fun h => slotKey h.frame.part.toNat (handleSlot (h.frame.addr.toNat / berthBytes)) == key)

/-- A tray berth is marked bound or not. -/
def State.markBound (s : State) (src : Source) (b : Bool) : State :=
  match src with
  | .tray t => s.setTrayBerth t { s.trayBerth t with bound := b }
  | .flash _ => s

/-- A window loses its source; its near copy is served as it stands (R245). -/
def State.unbind (s : State) (key : Nat) : State :=
  match s.window key with
  | none => s
  | some w =>
    ({ s with te := { s.te with windows := Tab.erase s.te.windows key, feed := s.te.feed.filter (·.1 != key) } } : State).markBound w.src false

/-- A window takes a source and a read mode, every block ABSENT (R245). -/
def State.bindTo (s : State) (key : Nat) (src : Source) (through : Bool) : State :=
  ((s.unbind key).setWindow key { src := src, through := through, blocks := [] }).markBound src true

/-! ## Spans that may not be resident (R129, R234, R247) -/

/-- How a span of a berth can be read now. -/
inductive View where
  | ready
  | wait
  /-- a block is FAILED: TIER_FAIL at once (Table 9.2) -/
  | failed
  /-- it waits for a source whose fare is zero (R451) -/
  | budget
  deriving DecidableEq, Repr

/-- The resource of a window's source. -/
def sourceRes : Source → Res
  | .tray _ => .tray
  | .flash _ => .flash

/-- The view of a span of a berth by slot key. -/
def State.viewKey (s : State) (key off len : Nat) : View :=
  match s.window key with
  | none => if (s.spanLines (s.keySlot key) off len).all s.lineCurrent then .ready else .wait
  | some w =>
    let bs := spanBlocks off len
    if bs.any fun b => Tab.get .absent w.blocks b == .failed then .failed
    else if bs.all fun b =>
        match Tab.get .absent w.blocks b with
        | .resident => true
        | .dirty => true
        | .absent => s.streams key b w && (s.fed key b).isSome
        | _ => false then .ready
    else if s.zeroFare (key / 32768) [sourceRes w.src] then .budget
    else .wait

/-- The view of a span named by a handle of a partition. -/
def State.view (s : State) (p : Nat) (r : NearRef) (len : Nat) : View := s.viewKey (slotKey p (handleSlot r.handle)) r.off len

/-- The cause for which a tile that is not resident is waited for (R257, Table 9.10): by its first block that is not at hand, or, where
its granules are in near memory, by their channels and the near fare. -/
def State.stallCause (s : State) (p g : Nat) (r : NearRef) (len : Nat) : Option StallCause :=
  let key := slotKey p (handleSlot r.handle)
  let sl := s.keySlot key
  let here (w : Window) (b : Nat) : Bool :=
    match Tab.get .absent w.blocks b with
    | .resident => true
    | .dirty => true
    | _ => s.streams key b w && (s.fed key b).isSome
  let late := (s.window key).bind fun w => ((spanBlocks r.off len).find? fun b => !here w b).map fun b => (w, b)
  match late with
  | some (w, b) =>
    if s.te.refill.contains (key, b) then some .channelRetire
    else if s.te.fills.any fun f => f.key == key && f.block == b && f.rebuildOf.isNone && !f.issued then some .budget
    else match w.src with
      | .tray _ => some .trayLate
      | .flash _ => some .flashLate
  | none =>
    if (List.range ((len + 255) / 256 + 1)).any fun i =>
        s.get PM_CHAN_STATUS.STATE (s.placeOf (s.slotByte sl (r.off / 256 * 256 + min (256 * i) len))).1 == 1 then some .channelRetire
    else if s.coversNear p g (s.granules sl r.off len false) then none else some .budget

/-- A command misses a tile: the time is charged to its cause until the tile is there (R257). -/
def State.missTile (s : State) (cid p g : Nat) (r : NearRef) (len : Nat) : State :=
  match s.stallCause p g r len with
  | some x => s.stall (some cid) p x r.handle r.off len
  | none => s

/-- Tiles that have arrived end the waits for them (Table 9.10). -/
def State.settleStalls (s : State) : State :=
  s.endStalls fun x => x.cause != .budget && x.len != 0 && s.view x.part ⟨x.handle, x.off⟩ x.len == .ready
    && !(x.cause == .channelRetire && (s.window (slotKey x.part (handleSlot x.handle))).isNone)

/-- Asks the tier engine for what a span lacks (R129, R247). -/
def State.ask (s : State) (p : Nat) (r : NearRef) (len : Nat) : State :=
  let key := slotKey p (handleSlot r.handle)
  match s.window key with
  | none => s.recallLines (s.spanLines (s.keySlot key) r.off len)
  | some w => (spanBlocks r.off len).foldl (fun s b => if s.streams key b w then s.demandFeed key b else s.demandFill key b none) s

/-- Reads a span block by block, from near memory or from what was read through-feed. -/
def State.readSpan (s : State) (p : Nat) (r : NearRef) (len : Nat) : Payload :=
  let key := slotKey p (handleSlot r.handle)
  let sl := s.keySlot key
  if (s.window key).isNone then s.readSlot sl r.off len
  else
    (spanBlocks r.off len).foldl (fun (acc : Payload) b =>
      let lo := max r.off (b * blockBytes)
      let n := min (r.off + len) ((b + 1) * blockBytes) - lo
      let d : Payload := match s.blockState key b, s.fed key b with
        | .absent, some q =>
          let first := (lo - b * blockBytes) / 64
          { bytes := (q.bytes.drop (lo - b * blockBytes)).take n,
            poisoned := (q.poisoned.filter fun k => first ≤ k && k ≤ (lo + n - 1 - b * blockBytes) / 64).map (· - first) }
        | _, _ => s.readSlot sl lo n
      { bytes := acc.bytes ++ d.bytes, poisoned := acc.poisoned ++ d.poisoned.map (· + (lo / 64 - r.off / 64)) }) ⟨[], []⟩

/-- What was read through-feed for a span is consumed. -/
def State.consume (s : State) (p : Nat) (r : NearRef) (len : Nat) : State :=
  let key := slotKey p (handleSlot r.handle)
  let bs := spanBlocks r.off len
  { s with te := { s.te with feed := s.te.feed.filter fun x => !(x.1 == key && bs.contains x.2.1) } }

/-- The worst view of several spans: FAILED, then a zero fare, then waiting. -/
def State.viewAll (s : State) (p : Nat) (l : List (NearRef × Nat)) : View :=
  let vs := l.map fun x => s.view p x.1 x.2
  if vs.contains .failed then .failed else if vs.contains .budget then .budget
  else if vs.contains .wait then .wait else .ready

/-- Asks for several spans. -/
def State.askAll (s : State) (p : Nat) (l : List (NearRef × Nat)) : State := l.foldl (fun s x => s.ask p x.1 x.2) s

/-- Consumes several spans. -/
def State.consumeAll (s : State) (p : Nat) (l : List (NearRef × Nat)) : State := l.foldl (fun s x => s.consume p x.1 x.2) s

/-- Blocks of a window become DIRTY where something was stored (R234). -/
def State.dirty (s : State) (key off len : Nat) : State :=
  match s.window key with
  | none => s
  | some _ => (spanBlocks off len).foldl (fun s b => s.setBlock key b .dirty) s

/-- A store can be applied to a span now: each block it touches is RESIDENT or DIRTY, or is ABSENT and covered whole; `budget` where a
fill it needs waits for a source whose fare is zero (R235, R451). -/
def State.storable (s : State) (key off len : Nat) : View :=
  let whole (b : Nat) : Bool := off ≤ b * blockBytes && (b + 1) * blockBytes ≤ off + len
  let bs := spanBlocks off len
  if bs.any fun b => s.blockState key b == .failed then .failed
  else if bs.all fun b =>
      match s.blockState key b with
      | .resident => true
      | .dirty => true
      | .absent => whole b
      | _ => false then .ready
  else match s.window key with
    | some w => if s.zeroFare (key / 32768) [sourceRes w.src] then .budget else .wait
    | none => .wait

/-- An engine may not write a region of a berth: read-only window, sealed range or protected line (R213, R248, R394). -/
def State.writeBarred (s : State) (p : Nat) (w : Nat × Nat × Nat) : Bool := s.writeRefused p w || s.protectedSpan p w.1 w.2.1 w.2.2

/-- Fills the blocks a store covers in part (R235, R247). -/
def State.askStore (s : State) (key off len : Nat) : State :=
  (spanBlocks off len).foldl (fun s b =>
    if off ≤ b * blockBytes && (b + 1) * blockBytes ≤ off + len then s else s.demandFill key b none) s

/-- An engine writes a payload to a berth of its partition, through the home to a TALLY berth; the blocks it touches become DIRTY (R212,
R234). -/
def State.writeSpan (s : State) (p : Nat) (r : NearRef) (d : Payload) : State :=
  let key := slotKey p (handleSlot r.handle)
  if (s.keySlot key).kind = kindTally && d.bytes.length != 0 then s.storeLines p (s.keySlot key) r.off d
  else (s.writeSlot (s.keySlot key) r.off d).dirty key r.off d.bytes.length

/-! ## Lading-list entries (Table 3.4) -/

/-- An entry as its 16 bytes read. -/
structure Entry where
  k    : NearRef
  v    : NearRef
  fmt  : Nat
  ntok : Nat
  sumv : Bool
  doc  : Nat
  rsv  : Nat
  deriving DecidableEq, Repr

def entryOfBytes (bs : List Byte) : Entry :=
  let w := leNat (bs.take 16)
  { k := ref42 (w % 2 ^ 42), v := ref42 (w / 2 ^ 42 % 2 ^ 42), fmt := w / 2 ^ 84 % 16, ntok := w / 2 ^ 88 % 128,
    sumv := w / 2 ^ 95 % 2 == 1, doc := w / 2 ^ 96 % 65536, rsv := w / 2 ^ 112 % 65536 }

/-- The tile is a shared-latent one (R75). -/
def Entry.latent (e : Entry) : Bool := e.k == e.v

/-- The entries a list's bytes hold. -/
def entriesOf (bs : List Byte) : Nat → List Entry
  | 0 => []
  | n + 1 => entryOfBytes bs :: entriesOf (bs.drop 16) n

/-- An entry is malformed; `d` is the tile width the command names, if it names one (R83). -/
def State.entryBad (s : State) (p : Nat) (d : Option Nat) (e : Entry) : Bool :=
  !(kvCode e.fmt) || e.ntok == 0 || 64 < e.ntok || e.rsv != 0
    || (s.heldSlot p e.k.handle).isNone || (s.heldSlot p e.v.handle).isNone
    || (match d with
        | some d => !inBerth e.k.off (tileBytes e.fmt d) || !inBerth e.v.off (tileBytes e.fmt d)
        | none => false)

/-- A handle's berth is DRAINING and DRAIN_US has expired, or it was lost since: accesses end REVOKED (R83, R194). -/
def State.drained (s : State) (p h : Nat) : Bool :=
  match s.handle p h with
  | .held _ => false
  | .draining sl => sl.expired
  | .notHeld => true

/-! ## Manifests (R252 to R254) -/

/-- A bind pair from its 8 bytes (Table 9.6). -/
def bindPair (bs : List Byte) : Nat × Bool × Nat :=
  let w := leNat (bs.take 8)
  (w % 2 ^ 24, w / 2 ^ 24 % 2 == 1, w / 2 ^ 25 % 2 ^ 25)

/-- A layer record with its bind pairs, as they read when the manifest is accepted (R254). -/
def State.layerOf (s : State) (p : Nat) (bs : List Byte) : Layer :=
  let w0 := leNat (bs.take 8)
  let w1 := leNat ((bs.drop 8).take 8)
  let w2 := leNat ((bs.drop 16).take 8)
  let w3 := leNat ((bs.drop 24).take 8)
  let n := w3 / 2 ^ 44 % 4096
  let pairs := (s.readSpan p (ref44 (w3 % 2 ^ 44)) (8 * n)).bytes
  { listAddr := w0 % 2 ^ 44, nent := w0 / 2 ^ 44, nsec := w1 % 128, through := w1 / 128 % 2 == 1, sumAddr := w2 % 2 ^ 44,
    sumStride := w2 / 2 ^ 44, binds := (List.range n).map fun i => bindPair (pairs.drop (8 * i)) }

/-- The address in a command's LIST_ADDR, for the commands that name a lading list. -/
def listAddrOf (c : Cmd) : Option Nat :=
  if c.opc = ocCross ∨ c.opc = ocScore then some (dbits c.desc 24 0 44)
  else if c.opc = ocGather ∨ c.opc = ocSelect then some (dbits c.desc 16 0 44)
  else none

/-- The layers from the cursor to the cursor + DEPTH, modulo NLAYER when CYCLIC (R252). -/
def Manifest.ahead (m : Manifest) : List Nat :=
  let n := m.layers.length
  ((List.range (m.depth + 1)).filterMap fun i =>
    let l := m.cursor + i
    if l < n then some l else if m.cyclic then some (l % n) else none).eraseDups

/-- The cursor: the layer of the oldest uncompleted command of the context that names a layer's list; it stays where none
does (R252). -/
def State.cursorOf (s : State) (m : Manifest) : Nat :=
  let n := m.layers.length
  let hit (a : Nat) : Option Nat :=
    ((List.range n).map fun i => (m.cursor + i) % n).find? fun l =>
      match m.layers[l]? with
      | some x => x.listAddr == a
      | none => false
  (((s.ctxCmds m.ctx).filter fun c => !c.bad).findSome? fun c => (listAddrOf c).bind hit).getD m.cursor

/-- A command of the context that names a layer's list is not complete. -/
def State.layerInUse (s : State) (m : Manifest) (l : Nat) : Bool :=
  match m.layers[l]? with
  | some x => (s.ctxCmds m.ctx).any fun c => listAddrOf c == some x.listAddr
  | none => false

def pairSource (b : Nat × Bool × Nat) : Source := if b.2.1 then .flash (b.2.2 % 2 ^ 20) else .tray b.2.2

/-- Some layer issued and not released binds a window to another source, or in the other mode (R253). -/
def Manifest.windowInUse (m : Manifest) (l : Nat) (through : Bool) (b : Nat × Bool × Nat) : Bool :=
  m.issued.any fun k => k != l && (match m.layers[k]? with
    | some x => x.binds.any fun c => c.1 == b.1 && (pairSource c != pairSource b || x.through != through)
    | none => false)

/-- Applies one bind pair of a layer; the flag tells whether it is done or must wait. A pair that BIND would refuse is passed
over (log entry 29). -/
def State.applyPair (s : State) (m : Manifest) (l : Nat) (through : Bool) (b : Nat × Bool × Nat) : State × Bool :=
  let key := slotKey m.part (handleSlot b.1)
  let src := pairSource b
  let same := match s.window key with
    | some w => w.src == src && w.through == through
    | none => false
  if same then (s, true)
  else if !s.backed m.part b.1 || !s.sourceOk m.part src || s.boundElsewhere src key then (s, true)
  else if m.windowInUse l through b || !s.quietWindow key then (s, false)
  else
    let s := s.writeBackAll key
    if s.cleaned key then (s.bindTo key src through, true) else (s, false)

/-- The blocks of windows that the tiles and summaries of a list touch, in feed order. The tile width is free (log entry 28); an entry
that is poisoned or malformed names none (log entry 93), and a tile that overruns its berth names no block beyond it (log entry
28). -/
def State.listBlocks (s : State) (p : Nat) (list : NearRef) (nent nsec : Nat) (sum : Option (NearRef × Nat)) : List (Nat × Nat) :=
  let t := s.readSpan p list (16 * nent * nsec)
  let es := entriesOf t.bytes (nent * nsec)
  let d := 32 * (Config.fillUnits list.off % 16 + 1)
  let go (r : NearRef) (len : Nat) : List (Nat × Nat) :=
    let key := slotKey p (handleSlot r.handle)
    if (s.window key).isSome then ((spanBlocks r.off len).filter (· < 16384)).map fun b => (key, b) else []
  (es.zip (List.range (nent * nsec))).flatMap fun e =>
    if Sys2Proof.Machine.touched t.poisoned (16 * e.2) 16 || s.entryBad p none e.1 then []
    else
      go e.1.k (tileBytes e.1.fmt d) ++ (if e.1.latent then [] else go e.1.v (tileBytes e.1.fmt d)) ++
      (match sum with
       | some x =>
         if e.1.sumv then
           go { x.1 with off := x.1.off + e.2 / nent * x.2 * 64 + e.2 % nent * summaryBytes d } (summaryBytes d)
         else []
       | none => [])

/-- Fills the ABSENT blocks of a list, in feed order; without `through`, windows in THROUGH keep theirs ABSENT, and blocks with
no place in near memory stay ABSENT (R201, R252, R256). -/
def State.fillBlocks (s : State) (bs : List (Nat × Nat)) (through : Bool) (manifest : Option Nat) : State :=
  bs.foldl (fun s x =>
    match s.window x.1 with
    | some w => if (w.through && !through) || s.deadBlock x.1 x.2 then s else s.demandFill x.1 x.2 manifest
    | none => s) s

/-- Stores a manifest's progress. -/
def State.setManifest (s : State) (m : Manifest) : State :=
  { s with te := { s.te with manifests := s.te.manifests.map fun x => if x.ctx = m.ctx then m else x } }

/-- Bursts of at most 4 KiB that a list of `len` bytes is read in. -/
def listBursts (len : Nat) : Nat := (len + 4095) / 4096

/-- Reads a layer's list burst by burst, as the near fare of the manifest's partition covers it, each burst once; how many are read
(R258, R263, Table 10.2). -/
def State.readBursts (s : State) (p : Nat) (list : NearRef) (len : Nat) : Nat → Nat → State × Nat
  | 0, k => (s, k)
  | n + 1, k =>
    if listBursts len ≤ k then (s, k)
    else
      let cost := match s.heldSlot p list.handle with
        | some sl => s.granules sl (list.off + 4096 * k) (min 4096 (len - 4096 * k)) false
        | none => (0, 0)
      if s.coversNear p 0 cost then (s.chargeNear p 0 cost).readBursts p list len n (k + 1) else (s, k)

/-- Some of these blocks wait for a fill that has not been issued. -/
def State.unissued (s : State) (bs : List (Nat × Nat)) : Bool :=
  s.te.fills.any fun f => f.rebuildOf.isNone && !f.issued && bs.contains (f.key, f.block)

/-- Works on one layer of a manifest: its bind pairs, then its list and its fills; true when all of them are issued (R252). -/
def State.issueLayer (s : State) (m : Manifest) (l : Nat) : State × Manifest × Bool :=
  match m.layers[l]? with
  | none => (s, m, true)
  | some x =>
    let r := x.binds.foldl (fun (a : State × Bool) b => let q := a.1.applyPair m l x.through b; (q.1, a.2 && q.2)) (s, true)
    if !r.2 then (r.1, m, false)
    else
      let list := ref44 x.listAddr
      let len := 16 * x.nent * x.nsec
      match r.1.view m.part list len with
      | .ready =>
        let k := Tab.get 0 m.bursts l
        let q := r.1.readBursts m.part list len (listBursts len) k
        let m := { m with bursts := Tab.set 0 m.bursts l q.2 }
        if q.2 < listBursts len then (q.1, m, false)
        else
          let sum := if x.sumAddr = 0 then none else some (ref44 x.sumAddr, x.sumStride)
          let bs := q.1.listBlocks m.part list x.nent x.nsec sum
          let s := q.1.fillBlocks bs false (some m.ctx)
          (s, m, !s.unissued bs)
      | .failed => (r.1, m, true)
      | _ => (r.1.ask m.part list len, m, false)

/-- Layers still to be worked on, one after the other: the next only when the one before is issued. -/
def State.issueLayers (s : State) (m : Manifest) : List Nat → State
  | [] => s.setManifest m
  | l :: t =>
    if m.issued.contains l then s.issueLayers m t
    else
      let r := s.issueLayer m l
      if r.2.2 then r.1.issueLayers { r.2.1 with issued := r.2.1.issued ++ [l] } t else r.1.setManifest r.2.1

/-- The layers a cursor passes when it moves to `c`. -/
def Manifest.passes (m : Manifest) (c : Nat) : List Nat :=
  let n := m.layers.length
  if m.cursor ≤ c then (List.range (c - m.cursor)).map (· + m.cursor)
  else if m.cyclic then (List.range (n - m.cursor)).map (· + m.cursor) ++ List.range c
  else []

/-- A manifest whose cursor moves to `c`: a passed layer, and one that is no longer ahead, is released once no command that names its
list is in flight (R253). -/
def State.release (s : State) (m : Manifest) (c : Nat) : Manifest :=
  let passed := (m.passed ++ m.passes c).eraseDups
  let m := { m with cursor := c }
  let free (l : Nat) : Bool := (passed.contains l || !m.ahead.contains l) && !s.layerInUse m l
  { m with issued := m.issued.filter fun l => !free l, passed := passed.filter fun l => !free l,
           bursts := m.bursts.filter fun e => !free e.1 }

/-- The manifests follow their contexts' commands: the cursor moves, passed layers are released, and the layers ahead are
bound and filled (R252, R253). -/
def State.moveCursors (s : State) : State :=
  s.te.manifests.foldl (fun s m0 =>
    match s.te.manifests.find? (·.ctx == m0.ctx) with
    | none => s
    | some m =>
      let m := s.release m (s.cursorOf m)
      s.issueLayers m m.ahead) s

/-- A manifest ends. -/
def State.dropManifest (s : State) (ctx : Nat) : State :=
  { s with te := { s.te with manifests := s.te.manifests.filter (·.ctx != ctx) } }

end Sys2Proof.Machine
end

