-- ==== Sys2Proof/Machine/Memory.lean ====
section
/-! DEFINITION. Loads and stores of endpoints to partition memory (R184, R190, R194, R195, R203, R235, R247, R248, R394), with
the frames that wait for a block or behind earlier stores. -/

namespace Sys2Proof.Machine

/-- A posted store that has not been applied yet is held by the tier engine or queued at the home (G4, R208). -/
def State.storesPending (s : State) (src : Nat) (before : Nat → Bool) : Bool :=
  let mine (f : Frame) : Bool := f.src.toNat == src && f.cls.toNat == vcBulk && before f.seq.toNat
  let req (r : HomeReq) : Bool := match r with
    | .frame f => mine f
    | _ => false
  s.te.held.any (fun h => mine h.frame) || s.ho.lines.any fun e => e.2.queue.any req || e.2.txn.any fun t => req t.req

/-- Holds a frame until a block arrives, a fare returns or earlier stores are applied. It counts as accepted before a drain that starts
later (R194). -/
def State.hold (s : State) (f : Frame) (accepted : Bool) : State :=
  let held := match s.handle f.part.toNat (f.addr.toNat / berthBytes % 2 ^ 24) with
    | .held _ => true
    | _ => false
  { s with te := { s.te with held := s.te.held ++ [{ frame := f, accepted := accepted || held }] } }

/-- Holds a frame for a fare; the wait is counted (R257, R263). -/
def State.holdFare (s : State) (f : Frame) (accepted : Bool) : State := (s.hold f accepted).fareStall none f.part.toNat

/-- The bytes of its berth a frame names, rounded out to sectors: first sector and how many. -/
def frameSectors (f : Frame) : Nat × Nat :=
  let off := f.addr.toNat % berthBytes
  let len := if attrSub f then 1 else max 1 f.data.length
  (off / 64, (off + len - 1) / 64 - off / 64 + 1)

/-- An earlier store of the frame's flow to one of its sectors is still held: a store waits behind it (G2). -/
def State.behindHeld (s : State) (f : Frame) : Bool :=
  let a := frameSectors f
  f.data.length != 0 && s.te.held.any fun h =>
    let b := frameSectors h.frame
    h.frame.src == f.src && h.frame.cls == f.cls && h.frame.part == f.part && h.frame.data.length != 0
      && h.frame.addr.toNat / berthBytes == f.addr.toNat / berthBytes && a.1 < b.1 + b.2 && b.1 < a.1 + a.2

/-- The bytes a store frame writes: offset within its berth, data with poison (Table 11.7, R189). -/
def storeData (f : Frame) : Nat × Payload :=
  let off := f.addr.toNat % berthBytes
  if attrSub f then
    let lo := f.addr.toNat % 64
    let n := min (attrSzm1 f + 1) (64 - lo)
    (off, { bytes := (f.data.drop lo).take n, poisoned := if hasFlag f flagPsn then [0] else [] })
  else (off, { bytes := f.data, poisoned := if hasFlag f flagPsn then List.range ((off % 64 + f.data.length + 63) / 64) else [] })

/-- A load of a held berth that is not a TALLY berth: it waits for ABSENT blocks and for its fare, meets FAILED blocks with
TIER_FAIL, and is answered with every sector, poisoned ones in PSN frames (R190, R234, R247). -/
def State.serveLoad (s : State) (f : Frame) (sl : Slot) (accepted : Bool) : State :=
  let p := f.part.toNat
  let h := f.addr.toNat / berthBytes % 2 ^ 24
  let off := f.addr.toNat % berthBytes
  let len := f.len.toNat
  let r : NearRef := ⟨h, off⟩
  if !inBerth off len then s.refuse f stBadDesc
  else
    let near := s.granules sl off len false
    match s.view p r len with
    | .failed => s.refuse f stTierFail
    | .wait => (s.ask p r len).hold f accepted
    | .budget => s.hold f accepted
    | .ready =>
      if !s.coversNear p 0 near then s.holdFare f accepted
      else ((s.chargeNear p 0 near).respondData f opLdData stOk (s.readSpan p r len)).consume p r len

/-- A store to a held berth that is not a TALLY berth. -/
def State.serveStore (s : State) (f : Frame) (sl : Slot) (accepted : Bool) : State :=
  let p := f.part.toNat
  let h := f.addr.toNat / berthBytes % 2 ^ 24
  let key := slotKey p (handleSlot h)
  let d := storeData f
  let len := d.2.bytes.length
  let posted := !isNonPosted f
  let drop (s : State) (status : Nat) : State := if posted then s.bulkDone f .refused else s.refuse f status
  if !inBerth d.1 len then if posted then s.bulkDone f .lost else s.refuse f stBadDesc
  else if s.readOnly p h then drop (s.bump TE_PART_STALL.RO_STORE p 1) stNotOwner
  else match s.sealOn p h d.1 len with
    | some e => drop (s.countRefused e) stNotOwner
    | none =>
      let near := s.granules sl d.1 len true
      match s.storable key d.1 len with
      | .failed => if posted then s.bulkDone f .lost else s.refuse f stTierFail
      | .ready =>
        if !s.coversNear p 0 near then s.holdFare f accepted
        else
          let s := ((s.chargeNear p 0 near).writeSlot sl d.1 d.2).dirty key d.1 len
          if posted then s.bulkDone f .applied else s.respond f opStRsp stOk flagLast f.addr.toNat []
      | _ => (s.askStore key d.1 len).hold f accepted

/-- A posted store is discarded and counted (R195). -/
def State.discardStore (s : State) (f : Frame) : State := (s.bump PM_PART_ERR.DROPPED_ST f.part.toNat 1).bulkDone f .lost

/-- A request to a draining berth ends REVOKED (R194, R195). -/
def State.revokeFrame (s : State) (f : Frame) : State :=
  if isNonPosted f then (s.bump PM_PART_ERR.REVOKED f.part.toNat 1).refuse f stRevoked else s.discardStore f

/-- A load or store reaches its berth (R184, R194, R195, R372). `accepted` marks one that was held before its slot entered
DRAINING: it is served until DRAIN_US expires. -/
def State.serveFrame (s : State) (f : Frame) (accepted : Bool) : State :=
  let p := f.part.toNat
  let posted := !isNonPosted f
  if s.contained p then if posted then s.bulkDone f .refused else s.refuse f stContained
  else if 2#2 ≤ f.addr.extractLsb' 50 2 then if posted then s.bulkDone f .refused else s.refuse f stBadDesc
  else if inAperture f then
    if posted then (s.completionHead f).bulkDone f .applied
    else if f.opc.toNat = opDb then s.doorbell f
    else s.respond f (respOpc f.opc.toNat) (stBadDesc + 256) flagLast 0 []
  else if hasFlag f flagRf && posted && s.storesPending f.src.toNat (fun q => seqLe q f.seq.toNat) then s.hold f accepted
  else if s.behindHeld f then s.hold f accepted
  else
    let go (sl : Slot) : State :=
      if sl.kind = kindTally ∨ 0x40 ≤ f.opc.toNat then s.homeFrame f sl
      else if f.opc.toNat = opLd then s.serveLoad f sl accepted
      else s.serveStore f sl accepted
    match s.handle p (f.addr.toNat / berthBytes % 2 ^ 24) with
    | .notHeld => if accepted then s.revokeFrame f else if posted then s.discardStore f else s.refuse f stBadDesc
    | .draining sl => if accepted && !sl.expired then go sl else s.revokeFrame f
    | .held sl => go sl

/-- Looks at the held frames again, in their order. -/
def State.retryHeld (s : State) : State :=
  s.te.held.foldl (fun s h => s.serveFrame h.frame h.accepted) { s with te := { s.te with held := [] } }

end Sys2Proof.Machine
end

