-- ==== Sys2Proof/Machine/Home.lean ====
section
/-! DEFINITION. The rows of the coherence home (chapter 8). A store that releases waits behind its source's earlier stores, so
each row that may end a transaction looks at the held frames again. -/

namespace Sys2Proof.Machine

/-! ## Rows: frames (chapter 8, Table 8.12) -/

/-- RD_S. -/
def execRdS (f : Frame) (s : State) : Host.Outcome State Fault Refusal := .next (whenUp s fun s => (s.serveFrame f false).retryHeld)
/-- RD_O. -/
def execRdO (f : Frame) (s : State) : Host.Outcome State Fault Refusal := .next (whenUp s fun s => (s.serveFrame f false).retryHeld)
/-- UPG. -/
def execUpg (f : Frame) (s : State) : Host.Outcome State Fault Refusal := .next (whenUp s fun s => (s.serveFrame f false).retryHeld)
/-- RD_U. -/
def execRdU (f : Frame) (s : State) : Host.Outcome State Fault Refusal := .next (whenUp s fun s => (s.serveFrame f false).retryHeld)

/-- WR_U carries 64 or 128 bytes within its line; any other shape is malformed (Table 8.12). -/
def execWrU (f : Frame) (s : State) : Host.Outcome State Fault Refusal :=
  .next (whenUp s fun s =>
    if s.contained f.part.toNat || (f.data.length == 64 && f.addr.toNat % 64 == 0) || (f.data.length == 128 && f.addr.toNat % 128 == 0) then
      (s.serveFrame f false).retryHeld
    else s.refuse f stBadDesc)

/-- ATOMIC_FRAME: a live reply is repeated, any other is applied once (R221). -/
def execAtomicFrame (f : Frame) (s : State) : Host.Outcome State Fault Refusal :=
  .next (whenUp s fun s =>
    if s.contained f.part.toNat then s.refuse f stContained
    else match s.cachedReply f with
    | some x => (s.bump CH_STATUS.REPLAYS 0 1).atRsp f x.status x.value.toNat
    | none => if atOk f then (s.serveFrame f false).retryHeld else s.refuse f stBadDesc)

/-- TALLY_ST. -/
def execTallySt (f : Frame) (s : State) : Host.Outcome State Fault Refusal := .next (whenUp s fun s => (s.serveFrame f false).retryHeld)

/-- Ends a transaction that has every answer it waits for. -/
def State.tryConclude (s : State) (ln : Nat) : State :=
  match (s.line ln).txn with
  | some t => if t.awaiting.isEmpty && t.wbFrom.isNone && t.record.isNone then s.concludeLine ln t.req t.needData else s
  | none => s

/-- The line of a frame's address. -/
def State.frameLine (s : State) (f : Frame) : Option Nat := s.tallyLine f.part.toNat f.addr.toNat

/-- WB: the home always sinks it; from the owner it writes memory, from any other it is counted (R219, Table 8.13). -/
def execWb (f : Frame) (s : State) : Host.Outcome State Fault Refusal :=
  .next (whenUp s fun s => State.retryHeld (
    match s.frameLine f with
    | none => (s.bulkDone f .refused).respond f 0x4E stOk flagLast f.addr.toNat []
    | some ln =>
      let l := s.line ln
      let src := f.src.toNat
      let owner := l.dir.st == .ow && l.dir.ptrs.take 1 == [src]
      let s := s.bulkDone f (if owner then .applied else .refused)
      let ack (s : State) : State := s.respond f 0x4E stOk flagLast f.addr.toNat []
      if owner then
        let s := s.chargeNear (s.linePart ln) 0 (1, 1)
        let s := if hasFlag f flagPsn then s.poisonLine ln else s.setLineBytes ln f.data
        match l.txn with
        | some t =>
          if t.wbFrom == some src then
            ((ack (s.setLine ln { l with txn := some { t with wbFrom := none, needData := true } })).updated ln).tryConclude ln
          else (ack (s.setDir ln { l.dir with st := .u, ptrs := [], f := none })).updated ln
        | none => (ack (s.setDir ln { l.dir with st := .u, ptrs := [], f := none })).updated ln
      else ack (s.bump CH_STATUS.PROTO_ERR 0 1)))

/-- SNP_ACK: dirty data go to memory, a MISS leaves the home to supply the data, WB_PENDING waits for the WB (R215, R219). -/
def execSnpAck (f : Frame) (miss dirty wbPending : Bool) (s : State) : Host.Outcome State Fault Refusal :=
  .next (whenUp s fun s => State.retryHeld (
    match s.frameLine f with
    | none => s
    | some ln =>
      match (s.line ln).txn with
      | none => s
      | some t =>
        let src := f.src.toNat
        if !t.awaiting.contains src then s
        else
          let s := if dirty then s.chargeNear (s.linePart ln) 0 (1, 1) else s
          let s := if dirty then (if hasFlag f flagPsn then s.poisonLine ln else s.setLineBytes ln f.data) else s
          let stillOwner := (s.line ln).dir.st == .ow && (s.line ln).dir.ptrs.take 1 == [src]
          let toHome := match s.reqKind ln t.req with
            | .rdO => (s.line ln).dir.st == .sh
            | .rdS => false
            | .upg => false
            | _ => true
          let t := { t with awaiting := t.awaiting.erase src, needData := t.needData || miss || toHome,
                            wbFrom := if wbPending && stillOwner then some src else t.wbFrom }
          let s := s.setLine ln { s.line ln with txn := some t }
          (if dirty then s.updated ln else s).tryConclude ln))

/-- A snoop's target cannot be reached: the snoop counts as MISS; a lost owner's data poison the line (R220). -/
def State.snoopLost (s : State) (line target : Nat) : State :=
  match (s.line line).txn with
  | none => s
  | some t =>
    if !(t.awaiting.contains target || t.wbFrom == some target) then s
    else
      let d := (s.line line).dir
      let s := if d.st == .ow && d.ptrs.take 1 == [target] then
          (s.poisonLine line).log { cause := .ownerLost, part := some (s.linePart line), addr := s.lineAddr line, aux := target }
        else s
      let t := { t with awaiting := t.awaiting.erase target, needData := true,
                        wbFrom := if t.wbFrom == some target then none else t.wbFrom }
      (s.setLine line { s.line line with txn := some t }).tryConclude line

/-- SNOOP_TARGET_LOST (R220). -/
def execSnoopTargetLost (line target : Nat) (s : State) : Host.Outcome State Fault Refusal :=
  .next (whenUp s fun s => (s.snoopLost line target).retryHeld)

/-- Every snoop to an endpoint is answered as MISS (R220, R323). -/
def State.snoopsLost (s : State) (target : Nat) : State :=
  ((s.ho.lines.filter fun e => e.2.txn.isSome).map (·.1)).foldl (fun s ln => s.snoopLost ln target) s

/-- HOME_NEXT_REQUEST: the home takes the next queued request of a line with no transaction in progress (R217). -/
def execHomeNextRequest (line : Nat) (s : State) : Host.Outcome State Fault Refusal :=
  .next (whenUp s fun s => State.retryHeld (
    let l := s.line line
    match l.txn, l.queue with
    | none, r :: t => (s.setLine line { l with queue := t }).serve line r
    | _, _ => s))

/-- The queued updates of one batch: the leading ones of one combinable kind, at most BATCH_MAX (R223). -/
def State.batch (s : State) (q : List HomeReq) : List HomeReq :=
  match q with
  | [] => []
  | r :: t => match s.combineKind r with
    | none => [r]
    | some k => (r :: t.takeWhile fun x => s.combineKind x == some k).take (max 1 (s.get CH_CFG.BATCH_MAX))

/-- HOME_BATCH_APPLY: a batch is applied one by one in order; a line with cached copies is first freed of them (R223). -/
def execHomeBatchApply (line : Nat) (s : State) : Host.Outcome State Fault Refusal :=
  .next (whenUp s fun s => State.retryHeld (
    let l := s.line line
    if l.txn.isSome then s
    else match l.queue with
      | [] => s
      | r :: t =>
        if s.reqKind line r != .wr || l.dir.st != .u then (s.setLine line { l with queue := t }).serve line r
        else
          let b := s.batch l.queue
          (s.setLine line { l with queue := l.queue.drop b.length }).serveAll line b))

/-- REPLY_CACHE_EXPIRY: an entry reaches 2 ms and is dropped (R221). -/
def execReplyCacheExpiry (src tag : Nat) (s : State) : Host.Outcome State Fault Refusal :=
  .next (whenUp s fun s =>
    { s with ho := { s.ho with replies := s.ho.replies.filter fun r => !(r.src == src && r.tag == tag) } })

/-! ## Rows: commands at the home -/

/-- A command's request is already at the home: queued, in progress or parked. -/
def State.atLine (s : State) (ln cid : Nat) : Bool :=
  s.ho.waiters.any (·.cid == cid) || (s.line ln).queue.contains (.cmd cid) ||
    (match (s.line ln).txn with | some t => t.req == .cmd cid | none => false)

/-- The tally address a command of chapter 8 names. -/
def homeAddr (c : Cmd) : Nat :=
  if c.opc = ocAtomic then (atomicBody c.desc).addr
  else if c.opc = ocWait then (waitBody c.desc).addr
  else if c.opc = ocHandoff then (handoffBody c.desc).ticket
  else (publishBody c.desc).recAddr

/-- A command's berth has been lost, or drained past DRAIN_US (R194). -/
def State.homeLost (s : State) (c : Cmd) : Bool :=
  match s.handle c.part (ref50 (homeAddr c)).handle with
  | .held _ => false
  | .draining sl => sl.expired
  | .notHeld => true

/-- The request of a command reaches the home; a handle lost since the check ends it REVOKED. -/
def State.cmdArrives (s : State) (cid : Nat) (which : Cmd → Bool) : State :=
  match s.cmd cid with
  | none => s
  | some c =>
    if c.stage != .atHome || !which c then s
    else if s.homeLost c then (s.bump PM_PART_ERR.REVOKED c.part 1).answerCmd cid stRevoked 0 0
    else match s.tallyLine c.part (homeAddr c) with
      | none => s.answerCmd cid stRevoked 0 0
      | some ln => if s.atLine ln cid then s else s.arrive ln (.cmd cid)

/-- Where the flush of a FENCE or PUBLISH stands (R208): lost stores, a failed flow, complete or not. -/
inductive FlushState where
  | done | revoked | pathFatal | waiting
  deriving DecidableEq, Repr

/-- A flush (R208): every store of the owner's BULK flow from its start to `flushTo`; with no SEQ the command covers
nothing, and a source no path leads to has failed (log entry 26). -/
def State.flushState (s : State) (c : Cmd) : FlushState :=
  match c.flushTo with
  | none => .done
  | some q =>
    match s.bulk (s.ownerEp c) with
    | none => if (s.pathSet (s.ownerEp c) none).isEmpty then .pathFatal else .waiting
    | some b =>
      if b.lost.any (fun l => seqLe l q) then .revoked
      else if s.storesPending b.src (fun x => seqLe b.start x && seqLe x q) then .waiting
      else if seqLe q b.applied then .done
      else if seqLe q b.start && q != b.start then .done
      else if (s.pathSet (s.ownerEp c) none).isEmpty then .pathFatal
      else .waiting

/-- Lost stores a flush has reported are reported no more. -/
def State.reportLost (s : State) (c : Cmd) : State :=
  match c.flushTo with
  | none => s
  | some q =>
    let go (b : BulkFlow) : BulkFlow :=
      if b.src == s.ownerEp c then { b with lost := b.lost.filter fun l => !seqLe l q } else b
    { s with ho := { s.ho with bulk := s.ho.bulk.map go } }

/-- A FENCE or PUBLISH whose flush is over acts; one whose flush failed ends; one that waits goes on waiting (R207, R208,
R211). -/
def State.afterFlush (s : State) (c : Cmd) : State :=
  match s.flushState c with
  | .waiting => s
  | .revoked => (s.reportLost c).answerCmd c.cid stRevoked 0 0
  | .pathFatal => s.answerCmd c.cid stPathFatal 0 0
  | .done =>
    let s := s.updCmd c.cid fun c => { c with flushTo := none }
    if c.opc = ocFence then s.answerCmd c.cid stOk 0 (((s.bulk (s.ownerEp c)).bind (·.high)).getD 0)
    else s.cmdArrives c.cid fun _ => true

/-- A FENCE or PUBLISH reaches the home, unless its line already has its request. -/
def State.flushArrives (s : State) (cid : Nat) (which : Cmd → Bool) : State :=
  match s.cmd cid with
  | none => s
  | some c => if c.stage == .atHome && which c then s.afterFlush c else s

/-- ACQUIRE. -/
def execAcquire (cid : Nat) (s : State) : Host.Outcome State Fault Refusal :=
  .next (whenUp s fun s => s.cmdArrives cid fun c => c.opc == ocAcquire)

/-- A PUBLISH of one ACTION. -/
def isPublish (action : Nat) (c : Cmd) : Bool := c.opc == ocPublish && (publishBody c.desc).action == action

/-- PUBLISH_UPDATE. -/
def execPublishUpdate (cid : Nat) (s : State) : Host.Outcome State Fault Refusal :=
  .next (whenUp s fun s => s.flushArrives cid (isPublish 0))
/-- PUBLISH_INIT. -/
def execPublishInit (cid : Nat) (s : State) : Host.Outcome State Fault Refusal :=
  .next (whenUp s fun s => s.flushArrives cid (isPublish 1))
/-- PUBLISH_XFER. -/
def execPublishXfer (cid : Nat) (s : State) : Host.Outcome State Fault Refusal :=
  .next (whenUp s fun s => s.flushArrives cid (isPublish 2))
/-- PUBLISH_FREE. -/
def execPublishFree (cid : Nat) (s : State) : Host.Outcome State Fault Refusal :=
  .next (whenUp s fun s => s.flushArrives cid (isPublish 3))

/-- FENCE. -/
def execFence (cid : Nat) (s : State) : Host.Outcome State Fault Refusal :=
  .next (whenUp s fun s => s.flushArrives cid fun c => c.opc == ocFence)

/-- FLUSH_COMPLETE. -/
def execFlushComplete (cid : Nat) (s : State) : Host.Outcome State Fault Refusal :=
  .next (whenUp s fun s => s.flushArrives cid fun c => (c.opc == ocFence || c.opc == ocPublish) && c.flushTo.isSome)

/-- An ATOMIC of one KIND. -/
def isAtomic (kind : Nat) (c : Cmd) : Bool := c.opc == ocAtomic && (atomicBody c.desc).kind == kind

/-- ATOMIC_ADD. -/
def execAtomicAdd (cid : Nat) (s : State) : Host.Outcome State Fault Refusal :=
  .next (whenUp s fun s => s.cmdArrives cid (isAtomic 0))
/-- ATOMIC_OR. -/
def execAtomicOr (cid : Nat) (s : State) : Host.Outcome State Fault Refusal :=
  .next (whenUp s fun s => s.cmdArrives cid (isAtomic 1))
/-- ATOMIC_AND. -/
def execAtomicAnd (cid : Nat) (s : State) : Host.Outcome State Fault Refusal :=
  .next (whenUp s fun s => s.cmdArrives cid (isAtomic 2))
/-- ATOMIC_MAX. -/
def execAtomicMax (cid : Nat) (s : State) : Host.Outcome State Fault Refusal :=
  .next (whenUp s fun s => s.cmdArrives cid (isAtomic 3))
/-- ATOMIC_MIN. -/
def execAtomicMin (cid : Nat) (s : State) : Host.Outcome State Fault Refusal :=
  .next (whenUp s fun s => s.cmdArrives cid (isAtomic 4))
/-- ATOMIC_SWAP. -/
def execAtomicSwap (cid : Nat) (s : State) : Host.Outcome State Fault Refusal :=
  .next (whenUp s fun s => s.cmdArrives cid (isAtomic 5))
/-- ATOMIC_CAS. -/
def execAtomicCas (cid : Nat) (s : State) : Host.Outcome State Fault Refusal :=
  .next (whenUp s fun s => s.cmdArrives cid (isAtomic 6))
/-- SEM_INIT. -/
def execSemInit (cid : Nat) (s : State) : Host.Outcome State Fault Refusal :=
  .next (whenUp s fun s => s.cmdArrives cid (isAtomic 7))
/-- SEM_GIVE. -/
def execSemGive (cid : Nat) (s : State) : Host.Outcome State Fault Refusal :=
  .next (whenUp s fun s => s.cmdArrives cid (isAtomic 8))
/-- SEM_FREE. -/
def execSemFree (cid : Nat) (s : State) : Host.Outcome State Fault Refusal :=
  .next (whenUp s fun s => s.cmdArrives cid (isAtomic 9))

/-- WAIT. -/
def execWait (cid : Nat) (s : State) : Host.Outcome State Fault Refusal :=
  .next (whenUp s fun s => s.cmdArrives cid fun c => c.opc == ocWait)

/-- A HANDOFF of one OP. -/
def isHandoff (op : Nat) (c : Cmd) : Bool := c.opc == ocHandoff && (handoffBody c.desc).op == op

/-- HANDOFF_CREATE. -/
def execHandoffCreate (cid : Nat) (s : State) : Host.Outcome State Fault Refusal :=
  .next (whenUp s fun s => s.cmdArrives cid (isHandoff 0))
/-- HANDOFF_OFFER. -/
def execHandoffOffer (cid : Nat) (s : State) : Host.Outcome State Fault Refusal :=
  .next (whenUp s fun s => s.cmdArrives cid (isHandoff 1))
/-- HANDOFF_CONFIRM. -/
def execHandoffConfirm (cid : Nat) (s : State) : Host.Outcome State Fault Refusal :=
  .next (whenUp s fun s => s.cmdArrives cid (isHandoff 2))
/-- HANDOFF_QUERY. -/
def execHandoffQuery (cid : Nat) (s : State) : Host.Outcome State Fault Refusal :=
  .next (whenUp s fun s => s.cmdArrives cid (isHandoff 3))
/-- HANDOFF_RELEASE. -/
def execHandoffRelease (cid : Nat) (s : State) : Host.Outcome State Fault Refusal :=
  .next (whenUp s fun s => s.cmdArrives cid (isHandoff 4))

/-- HANDOFF_DEADLINE: the deadline is an event at the home, in order with every CONFIRM; an IN_TRANSIT ticket returns to its previous
owner (R229). -/
def execHandoffDeadline (line : Nat) (s : State) : Host.Outcome State Fault Refusal :=
  .next (whenUp s fun s =>
    if s.lineKind line == .ticket && s.lineWord line 0 % 4 == tkTransit then
      (s.arrive line (.deadline (s.lineWord line 3 % 2 ^ 32))).retryHeld
    else s)

/-- HOME_ANSWER: the home's answer reaches the front end, which may write the record (R59). -/
def execHomeAnswer (cid : Nat) (s : State) : Host.Outcome State Fault Refusal :=
  .next (whenUp s fun s =>
    match s.cmd cid with
    | some c => if c.stage = .answered then s.finish cid else s
    | none => s)

/-- A parked command's own timeout passes (R210, R225). -/
def State.waitTimesOut (s : State) (cid opc : Nat) : State :=
  match s.cmd cid, s.ho.waiters.find? (·.cid == cid) with
  | some c, some w =>
    if c.opc = opc then (s.answerCmd cid stTimeout 0 (s.waiterValue w.line c)).unpark cid else s
  | _, _ => s

/-- ACQUIRE_TIMEOUT. -/
def execAcquireTimeout (cid : Nat) (s : State) : Host.Outcome State Fault Refusal :=
  .next (whenUp s fun s => s.waitTimesOut cid ocAcquire)
/-- WAIT_TIMEOUT. -/
def execWaitTimeout (cid : Nat) (s : State) : Host.Outcome State Fault Refusal :=
  .next (whenUp s fun s => s.waitTimesOut cid ocWait)

/-- SEM_LEASE_EXPIRY: the lease of a holder entry runs out, and the entry passes to the next TAKE waiter (R227). -/
def execSemLeaseExpiry (line ctx : Nat) (s : State) : Host.Outcome State Fault Refusal :=
  .next (whenUp s fun s =>
    if s.lineKind line != .sema || (s.semEntry line ctx).isNone || s.contained (s.linePart line) || !s.semExpired line ctx then s
    else (s.arrive line (.leaseEnd ctx)).retryHeld)

/-- Every holder entry of a context ends, at the end of its DRAINING (R227). -/
def State.semRelease (s : State) (ctx : Nat) : State :=
  (s.ho.lines.filter fun e => e.2.dir.kind == .sema).foldl (fun s e =>
    if (s.semEntry e.1 ctx).isSome then s.arrive e.1 (.drainEnd ctx) else s) s

end Sys2Proof.Machine
end

