-- ==== Sys2Proof/Machine/Inputs.lean ====
section
/-! DEFINITION. What the engines share: fares of a piece of work, reads of endpoint memory, output regions, and the ends of
commands at a boundary (R25, R60, R62, R263, R294). -/

namespace Sys2Proof.Machine

/-! ## Fares of a piece of work -/

/-- What a balance covers now of `n` units that are due: all of them, or as many bursts of 4 KiB or NVMe commands as it
covers; a transfer unit of a filter or reduce unit is paid whole (R263). -/
def State.affordable (s : State) (p g : Nat) (r : Res) (n : Nat) : Nat :=
  if s.covers p g r n then n
  else match r with
    | .engine => 0
    | .flash => s.drawable p g r
    | _ => s.drawable p g r / 16 * 16

/-- What a command's unit of work costs in all, by resource. -/
def totalCost (costs : List (Res × Nat)) : List Nat :=
  allRes.map fun r => ((costs.filter (·.1 == r)).map (·.2)).sum

/-- A unit of work pays what its balances cover, burst by burst. It starts, with nothing left to pay, once all of it is paid; otherwise the command keeps what it has paid and waits for the next edge, which is counted (R257, R263, log entry 32). -/
def State.spend (s : State) (c : Cmd) (costs : List (Res × Nat)) : State × Bool :=
  let g := s.ctxGroup c.ctx
  let due := (allRes.zip (totalCost costs)).map fun x => (x.1, x.2 - c.paid.getD (resIdx x.1) 0)
  let pay := due.map fun x => (x.1, s.affordable c.part g x.1 x.2)
  let t := pay.foldl (fun s x => s.charge c.part g x.1 x.2) s
  if due == pay then (t.updCmd c.cid fun c => { c with paid := [] }, true)
  else ((t.updCmd c.cid fun k => { k with paid := pay.map fun x => c.paid.getD (resIdx x.1) 0 + x.2 }).fareStall (some c.cid) c.part, false)

/-- The near granules of a span named by a handle, as costs. -/
def State.nearCost (s : State) (p : Nat) (r : NearRef) (len : Nat) (write : Bool) : List (Res × Nat) :=
  match s.heldSlot p r.handle with
  | some sl => let n := s.granules sl r.off len write; [(.nearA, n.1), (.nearB, n.2)]
  | none => []

/-- What an engine's sources lack: it goes on, waits, or stops (R129, R234). -/
inductive Supply where
  | ready
  | wait (s : State)
  | stop (s : State) (status detail : Nat)

/-- The supply of several spans; their berths must not have drained (R83, R194). -/
def State.supply (s : State) (c : Cmd) (spans : List (NearRef × Nat)) : Supply :=
  if spans.any fun x => s.drained c.part x.1.handle then .stop s stRevoked 0
  else match s.viewAll c.part spans with
    | .failed => .stop s stTierFail 0
    | .budget => .stop s stBudget 0
    | .wait => .wait (s.askAll c.part spans)
    | .ready => .ready

/-- Whether an output span of a berth can be written now (R194, R235, R248, R394). -/
def State.target (s : State) (c : Cmd) (r : NearRef) (len : Nat) : Supply :=
  let key := slotKey c.part (handleSlot r.handle)
  if s.drained c.part r.handle then .stop s stRevoked 0
  else if s.writeBarred c.part (r.handle, r.off, len) then .stop (s.countSealed c.part (r.handle, r.off, len)) stNotOwner 0
  else match s.storable key r.off len with
    | .failed => .stop s stTierFail 0
    | .budget => .stop s stBudget 0
    | .ready => .ready
    | .wait => .wait (s.askStore key r.off len)

/-- Costs of reading spans. -/
def State.spanCosts (s : State) (p : Nat) (spans : List (NearRef × Nat)) : List (Res × Nat) :=
  spans.flatMap fun x => s.nearCost p x.1 x.2 false

/-- HCLK cycles a filter or reduce unit takes for `n` input bytes at 1.6 TB/s (chapters 5 and 6). -/
def unitCycles (n : Nat) : Nat := (3 * n + 3999) / 4000

/-! ## Units (R127, R138, R148, R149, R151, R178) -/

/-- Commands that run on filter units. -/
def filterOpcode (o : Nat) : Bool := o == ocSelect || o == ocFilter

/-- Filter units that running commands hold, each with the command's partition (Table 5.17). -/
def State.heldUnits (s : State) : List (Nat × Nat) :=
  (s.fe.cmds.filter fun c => filterOpcode c.opc && c.stage == .running).flatMap fun c => c.held.map fun u => (u, c.part)

/-- Working units of a kind, ascending. -/
def State.workingUnits (s : State) (active : RegField) : List Nat := (List.range 9).filter fun u => s.flag active u

/-- A command takes filter units for `pieces` pieces of work: at most MAX_UNITS, capped at the working units; none where no unit is
free (R138, R149). -/
def State.holdUnits (s : State) (c : Cmd) (pieces : Nat) : Option State :=
  let free := (s.workingUnits FU_UNIT_STATUS.ACTIVE).filter fun u => !s.heldUnits.any (·.1 == u)
  if free.isEmpty then none
  else some (s.updCmd c.cid fun k => { k with held := free.take (max 1 (min c.maxUnits pieces)) })

/-- Active gather units of a deck by place: A of them; the spare stands in the place of the unit it replaced (R127, R148,
R149). -/
def State.gatherUnits (s : State) (d : DeckId) : List Nat :=
  (List.range 8).filterMap fun p =>
    if s.flag GU_UNIT_STATUS.ACTIVE (9 * deckNo d + p) then some p
    else if (s.deck d).spareFor == some p && s.flag GU_UNIT_STATUS.ACTIVE (9 * deckNo d + 8) then some 8 else none

/-- MAX_UNITS of a partition's filter or reduce profile (Tables 5.12 and 6.9). -/
def State.maxUnits (s : State) (p opc : Nat) : Nat :=
  let reduce := opc == ocMerge || opc == ocReduce
  match if reduce then s.get RU_PART_CFG.PROFILE p else s.get FU_PART_CFG.PROFILE p with
  | 0 => if reduce then s.get RU_PART_CFG.MAX_UNITS p else s.get FU_PART_CFG.MAX_UNITS p
  | 2 => 2
  | 3 => 1
  | _ => 8

/-- Chunk `c` of a partition's work runs on unit c mod u of the reduce units, u at most MAX_UNITS and the working units (R151,
R178); none where no unit works. -/
def State.reduceUnit (s : State) (maxUnits c : Nat) : Option Nat :=
  let us := (s.workingUnits RU_UNIT_STATUS.ACTIVE).take (max 1 maxUnits)
  us[c % us.length]?

/-! ## Reads of endpoint memory -/

/-- Pieces of at most 4 KiB a read of `len` bytes is cut into. -/
def inputPieces (len : Nat) : Nat := (len + 4095) / 4096

/-- A piece is at hand or on its way. -/
def State.asked (s : State) (c : Cmd) (i : Nat) : Bool :=
  (Tab.find c.inputs i).isSome || s.fe.reads.any fun r => r.use == .input c.cid i

/-- Asks for the pieces of `len` bytes from `addr` of the owner's memory, at most `limit` of them outstanding; none where the
owner's rank is not mapped. `base` numbers the first piece. -/
def State.askInput (s : State) (c : Cmd) (base addr len limit : Nat) : Option State :=
  let ep := s.rankId c.part (s.ctxRank c.ctx)
  if ep = 0 then none
  else
    let lo := addr / 64 * 64
    let total := roundup (addr + len - lo) 64
    some ((List.range (inputPieces total)).foldl (fun s i =>
      let out := (s.fe.reads.filter fun r => match r.use with | .input k _ => k == c.cid | _ => false).length
      if s.asked c (base + i) || limit ≤ out then s
      else
        let n := min 4096 (total - 4096 * i)
        let r := s.newRead (.input c.cid (base + i)) c.part n
        r.2.sendLd r.1 c.part ep c.ctx (lo + 4096 * i) n) s)

/-- Every piece of a read is at hand. -/
def inputReady (c : Cmd) (base addr len : Nat) : Bool :=
  (List.range (inputPieces (roundup (addr % 64 + len) 64))).all fun i => (Tab.find c.inputs (base + i)).isSome

/-- The bytes of a read, and its poisoned sectors counted from its first byte. -/
def inputPayload (c : Cmd) (base addr len : Nat) : Payload :=
  let ps := (List.range (inputPieces (roundup (addr % 64 + len) 64))).filterMap fun i =>
    (Tab.find c.inputs (base + i)).map fun p => (i, p)
  let bytes := ps.flatMap fun x => x.2.bytes
  let bad := ps.flatMap fun x => x.2.poisoned.map (· + 64 * x.1)
  { bytes := (bytes.drop (addr % 64)).take len,
    poisoned := (List.range ((len + 63) / 64)).filter fun k =>
      bad.contains ((addr % 64 + 64 * k) / 64) || bad.contains ((addr % 64 + min len (64 * k + 64) - 1) / 64) }

/-! ## Outputs -/

/-- A store of a result: to a berth, or to the owner's memory by frames whose acknowledgement the record waits for
(R25, R60). None where the owner's rank is not mapped. -/
def State.storeResult (s : State) (c : Cmd) (near : Bool) (addr : Nat) (d : Payload) : Option State :=
  if near then some (s.writeSpan c.part (ref50 addr) d)
  else
    let ep := s.rankId c.part (s.ctxRank c.ctx)
    if ep = 0 then none
    else some (s.originateAll (s.storeAny c.part c.ctx ep addr d) (some (.cmd c.cid)))

/-- Ends a command whose remote frames have no rank left to go to (R321). -/
def State.retired (s : State) (cid : Nat) : State := s.finishWith cid stEpochRetired 0

/-- Stores a result and ends the command with it. -/
def State.storeAndFinish (s : State) (c : Cmd) (near : Bool) (addr : Nat) (d : Payload) : State :=
  match s.storeResult c near addr d with
  | some s => s.finish c.cid
  | none => s.retired c.cid

/-- Overwrites pieces of sectors with free bytes, or leaves them as they are, as a free bit each says (log entry 11). Tally lines that
are protected or cached keep what they hold (R205, R212). -/
def State.mixRegion (s : State) (sl : Slot) (off len : Nat) : State :=
  let ps := sectorPieces off len
  let new := freeBytes s.freeCtr len
  let pick := freeBytes (s.freeCtr + len) ps.length
  let near := (ps.zip pick).foldl (fun (n : Near × Nat) q =>
      let bs := (new.drop n.2).take q.1.2.2
      let k := s.slotByte sl (q.1.1 * 64) / 64
      (if q.2.getLsbD 0 || s.deadSector k || (sl.kind = kindTally && ((s.line (k / 2)).dir.kind != .normal || (s.line (k / 2)).dir.st != .u)) then n.1 else n.1.writeSector k q.1.2.1 bs false, n.2 + q.1.2.2)) (s.pm.near, 0)
  { s with pm := { s.pm with near := near.1 }, freeCtr := s.freeCtr + len + ps.length }

/-- After a stop an output region holds any mix of old and new data, sector by sector: free bytes or what stood there in a
berth, a mark for endpoint memory (R60, R189, log entry 11). -/
def State.undefineRegion (s : State) (c : Cmd) (near : Bool) (addr len : Nat) : State :=
  if len = 0 then s
  else if near then
    match s.heldSlot c.part (ref50 addr).handle with
    | some sl => if inBerth (ref50 addr).off len then
        (s.mixRegion sl (ref50 addr).off len).dirty (slotKey c.part (handleSlot (ref50 addr).handle)) (ref50 addr).off len
      else s
    | none => s
  else s.emit (.undefinedRegion c.part (s.ctxRank c.ctx) addr len)

/-- The destination regions of a command that stops hold any mix of old and new data (R60). -/
def State.undefineOutputs (s : State) (c : Cmd) : State :=
  let s := (outRegions c.desc).foldl (fun s r => s.undefineRegion c r.1 r.2.1 r.2.2) s
  if c.opc = ocCopy ∧ (copyBody c.desc).dstKind = 2 then
    s.emit (.undefinedTray (copyTbn (copyBody c.desc).dst) ((copyBody c.desc).dst % berthBytes) (copyBody c.desc).len)
  else s

/-- What stops an engine at its boundary: a pending stop, a contained partition or a named resource whose fare became zero
(R60, R265, R372). -/
def State.boundaryStop (s : State) (c : Cmd) : Option (Nat × Nat) :=
  match c.stop with
  | some x => some x
  | none => if s.zeroFare c.part (s.neededOf c.ctx c.part c.desc) then some (stBudget, 0) else none

/-- A command ends at a boundary; the causes of a stop were noted when it came (R62). -/
def State.endStopped (s : State) (c : Cmd) (x : Nat × Nat) : State :=
  if c.stop.isSome then s.finish c.cid else s.finishWith c.cid x.1 x.2

/-- A list entry is reported (R83, Table 15.6): opcode, index and section. -/
def State.logBadList (s : State) (c : Cmd) (subsys index sec : Nat) : State :=
  s.log { cause := .badList, subsys := some subsys, part := some c.part, ctx := c.ctx, tag := c.tag, loc := c.opc, addr := index,
          count := sec }

end Sys2Proof.Machine
end

