-- ==== Sys2Proof/Machine/Reduce.lean ====
section
/-! DEFINITION. The reduce units, part one (chapter 6): elements and their combination, groups and sequences, the frames between
modules, and how members and sequences end. -/

namespace Sys2Proof.Machine

/-! ## Elements (R155) -/

/-- A decoded element and whether poison reached it. -/
abbrev Elem := F32 × Bool

/-- MAX and MIN order −0 below +0; a NaN gives the canonical NaN (R155). -/
def pick32 (larger : Bool) (a b : F32) : F32 :=
  if isNaN32 a || isNaN32 b then f32NaN
  else if (f32StrictKey a < f32StrictKey b) == larger then b else a

/-- One combination of Table 6.1 on two elements. -/
def combineElem (op : Nat) (a b : Elem) : Elem :=
  let v := match op with
    | 0 => f32Add a.1 b.1
    | 1 => pick32 true a.1 b.1
    | _ => if f32StrictKey a.1 = f32StrictKey b.1 then pick32 true a.1 b.1 else pick32 false a.1 b.1
  (v, a.2 || b.2)

/-- Decodes a chunk of a contribution: `n` elements from its element bytes and, of a scaled code, its scale bytes (R67 to R69,
R155, R161). -/
def contribDecode (ifmt n : Nat) (main side : Payload) : List Elem :=
  let conv := if isScaled ifmt then Num.product else id
  let eb := elemBits ifmt / 8
  (((decodeRow ifmt n main.bytes side.bytes conv).map toF32).zip (List.range n)).map fun x =>
    (x.1, main.poisoned.contains (x.2 * eb / 64) || (isScaled ifmt && side.poisoned.contains (x.2 / 32 / 64)))

/-- Decodes `n` FP32 elements of a CHILD's stream (Table 6.5b). -/
def streamDecode (n : Nat) (p : Payload) : List Elem :=
  (List.range n).map fun i => (BitVec.ofNat 32 (leNat ((p.bytes.drop (4 * i)).take 4)), p.poisoned.contains (4 * i / 64))

/-- Bytes and the offsets of those that are poisoned. -/
structure Marked where
  bytes : List Byte
  bad   : List Nat
  deriving DecidableEq, Repr

/-- Appends marked bytes to a payload. -/
def pushMarked (p : Payload) (m : Marked) : Payload :=
  { bytes := p.bytes ++ m.bytes, poisoned := (p.poisoned ++ m.bad.map fun o => (p.bytes.length + o) / 64).eraseDups }

/-- A payload after another that ends at a sector's end. -/
def joinPayload (a b : Payload) : Payload :=
  { bytes := a.bytes ++ b.bytes, poisoned := a.poisoned ++ b.poisoned.map (· + a.bytes.length / 64) }

/-- Indices of the poisoned ones. -/
def badAt {α : Type} (bad : α → Bool) (l : List α) : List Nat := ((l.zip (List.range l.length)).filter (bad ·.1)).map (·.2)

/-- Result elements in OFMT: their codes, and of a scaled code their scale bytes (R71, R155). -/
def elemsOut (ofmt : Nat) (es : List Elem) : Marked × Marked :=
  let bad := badAt (·.2) es
  let eb := elemBits ofmt / 8
  if isScaled ofmt then
    let q := quantRow ofmt es.length (es.map fun e => ofF32 e.1)
    (⟨q.1, bad.map (· * eb)⟩, ⟨q.2, bad.map (· / 32)⟩)
  else (⟨es.flatMap fun e => outBytes ofmt e.1, bad.map (· * eb)⟩, ⟨[], []⟩)

/-- Result rows in the layout of R105: O in OFMT, and the pairs that follow all rows. -/
def rowsMarked (ofmt w : Nat) (rows : List Partial) : Marked × Marked :=
  let rb := w * elemBits ofmt / 8
  let bad := badAt (·.poison) rows
  (⟨rows.flatMap (rowBytesOut ofmt), bad.flatMap fun i => (List.range (rb / 64)).map fun k => i * rb + 64 * k⟩,
   ⟨rows.flatMap fun p => outBytes 9 (if p.nan then f32NaN else p.m) ++ outBytes 9 (if p.nan then f32NaN else p.l),
    bad.map (8 * ·)⟩)

/-- Bytes `off` to `off + n` of a payload, with its poisoned sectors counted from `off`. -/
def subPayload (p : Payload) (off n : Nat) : Payload :=
  let bytes := (p.bytes.drop off).take n
  { bytes := bytes,
    poisoned := (List.range ((bytes.length + 63) / 64)).filter fun k => touched p.poisoned (off + 64 * k) (min 64 (bytes.length - 64 * k)) }

/-- A payload cut or padded with zeros to `n` bytes. -/
def fitPayload (p : Payload) (n : Nat) : Payload :=
  { bytes := p.bytes.take n ++ List.replicate (n - p.bytes.length) 0#8, poisoned := p.poisoned.filter (· < (n + 63) / 64) }

/-! ## Groups and sequences -/

/-- The group entry accepts frames and open sequences go on. -/
def State.groupOpen (s : State) (g : Nat) : Bool :=
  s.get RU_GRP_CFG.STATE g == grpActive || s.get RU_GRP_CFG.STATE g == grpDraining

def State.groupPart (s : State) (g : Nat) : Nat := s.get RU_GRP_CFG.PART g
def State.isTop (s : State) (g : Nat) : Bool := s.get RU_GRP_CFG.ROLE g == 0
def State.excludes (s : State) (g : Nat) : Bool := s.flag RU_GRP_CFG.ON_MISSING g

/-- An open sequence. -/
def State.seqOf (s : State) (g q : Nat) : Option Seq := s.co.seqs.find? fun x => x.group == g && x.seq == q

/-- OPEN follows the open sequences (Table 6.14). -/
def State.syncOpen (s : State) (g : Nat) : State := s.put RU_GRP_STAT.OPEN g (s.co.seqs.filter (·.group == g)).length

/-- Changes an open sequence. -/
def State.updSeq (s : State) (g q : Nat) (f : Seq → Seq) : State :=
  { s with co := { s.co with seqs := replaceFirst (fun x => x.group == g && x.seq == q) f s.co.seqs } }

/-- A member of a sequence that has brought nothing yet. -/
def MemberSeq.reset (i : Nat) : MemberSeq :=
  { index := i, cid := none, chunks := [], read := 0, expected := none, complete := false, missing := false, absent := false,
    excluded := false, mask := [] }

/-- A sequence of `n` members as it opens. -/
def Seq.reset (g q n : Nat) : Seq :=
  { group := g, seq := q, params := none, members := (List.range n).map MemberSeq.reset, step := 0, out := ⟨[], []⟩,
    tail := ⟨[], []⟩, sent := 0, frames := 0, got := 0, outcome := none, up := false }

/-- Opens a sequence, unless it is open: the group is ACTIVE and the sequence is at most three past the next (R160). -/
def State.openSeq (s : State) (g q : Nat) : State :=
  if (s.seqOf g q).isSome || s.get RU_GRP_CFG.STATE g != grpActive || 3 < s.seqDistance g q then s
  else ({ s with co := { s.co with seqs := s.co.seqs ++ [Seq.reset g q (s.get RU_GRP_CFG.NMEMB g)] } } : State).syncOpen g

/-- Changes one member of a sequence. -/
def State.updMember (s : State) (g q i : Nat) (f : MemberSeq → MemberSeq) : State :=
  s.updSeq g q fun x => { x with members := x.members.map fun m => if m.index = i then f m else m }

/-- A member no longer waits for anything. -/
def MemberSeq.settled (m : MemberSeq) : Bool := m.complete || m.missing || m.absent

/-- The member's contribution takes part in the tree. -/
def MemberSeq.gave (m : MemberSeq) : Bool := m.complete && !m.missing && !m.absent

/-- The global indices of a member. -/
def Member.range (m : Member) : List Nat := (List.range (m.ghi + 1 - m.glo)).map (· + m.glo)

/-- The global indices that are missing, and those that are excluded as destinations (R175). -/
def State.missingOf (s : State) (x : Seq) : List Nat :=
  (x.members.flatMap fun m => if m.missing || m.absent then (s.member x.group m.index).range else m.mask).eraseDups
def State.excludedOf (s : State) (x : Seq) : List Nat :=
  (x.members.filter fun m => m.excluded && m.gave).flatMap fun m => (s.member x.group m.index).range

/-- The 512 bytes of an exclusion mask: bit i is global index i (R7, R175). -/
def maskBytes (bits : List Nat) : List Byte :=
  (List.range 512).map fun i => BitVec.ofNat 8 ((bits.filter fun b => b / 8 == i).foldl (fun n b => n + 2 ^ (b % 8)) 0)

/-- The indices a mask holds. -/
def maskOf (bs : List Byte) : List Nat := (List.range 4096).filter fun i => (bs.getD (i / 8) 0).getLsbD (i % 8)

/-- The parameters a REDUCE names (R167). -/
def paramsOf (b : ReduceBody) : SeqParams :=
  { kind := b.kind, op := b.op, ifmt := b.ifmt, ofmt := b.ofmt, len := b.len, root := b.root, nrow := b.nrow, dvw := b.dvw }

def SeqParams.reduces (p : SeqParams) : Bool := p.kind == 0 || p.kind == 1 || p.kind == 4
def SeqParams.attn (p : SeqParams) : Bool := p.reduces && p.op == 3
def SeqParams.wv (p : SeqParams) : Nat := 32 * p.dvw
def SeqParams.elems (p : SeqParams) : Nat := contribElems p.ifmt p.len

/-- Bytes of one LOCAL contribution (R161). -/
def SeqParams.inBytes (p : SeqParams) : Nat :=
  if p.kind = 5 then 0 else contribBytes p.ifmt p.len p.nrow p.dvw p.attn

/-- Bytes a contribution is cut into chunks of: its elements or its rows of O, which scales and pairs follow along; where nothing is
combined, all its bytes (R151, log entry 84). -/
def SeqParams.mainBytes (p : SeqParams) : Nat :=
  if p.attn then p.nrow * p.wv * 4 else if p.reduces then 64 * p.len else p.inBytes

/-- Chunks of a stream. -/
def chunksOf (n : Nat) : Nat := (n + 4095) / 4096

/-- First row that begins in chunk `c` of a contribution. -/
def SeqParams.rowOf (p : SeqParams) (c : Nat) : Nat := min p.nrow ((4096 * c + p.wv * 4 - 1) / max 1 (p.wv * 4))

/-- Elements of chunk `c`, the first of them. -/
def SeqParams.elemOf (p : SeqParams) (c : Nat) : Nat := if elemBits p.ifmt = 0 then 0 else 32768 * c / elemBits p.ifmt
def SeqParams.elemsIn (p : SeqParams) (c : Nat) : Nat := min (p.elems - p.elemOf c) (p.elemOf 1)

/-- The spans of a LOCAL contribution that make up chunk `c`: offset and length of its elements or rows, and of the scales or
pairs that go with them (R151, R161). -/
def SeqParams.spans (p : SeqParams) (c : Nat) : (Nat × Nat) × (Nat × Nat) :=
  if p.attn then
    let r := p.rowOf c
    let n := p.rowOf (c + 1) - r
    let rb := p.wv * 4
    ((r * rb, n * rb), (roundup (p.nrow * rb) 64 + 8 * r, 8 * n))
  else
    let n := min 4096 (p.mainBytes - 4096 * c)
    ((4096 * c, n), if p.reduces && isScaled p.ifmt then (64 * p.len + 128 * c, n / 32) else (0, 0))

/-- Bytes of the RESULT stream (R168). -/
def SeqParams.outBytes (p : SeqParams) (nglobal : Nat) : Nat :=
  if p.kind = 1 ∧ !p.attn then elemsBytes p.ofmt p.elems
  else resultBytes p.kind p.op p.ifmt p.ofmt p.len p.nrow p.dvw nglobal

/-- The parts of the RESULT stream a member receives: offset in the stream, length, offset at its DST_ADDR. Under REDUCE_SCATTER
they are those of its block (R168); a block of rows keeps the layout of R105 (log entry 84). -/
def SeqParams.parts (p : SeqParams) (nglobal glo : Nat) : List (Nat × Nat × Nat) :=
  if p.kind = 1 then
    if p.attn then
      let rb := p.wv * elemBits p.ofmt / 8
      let r := blockRow p.nrow nglobal glo
      let n := rowsAt 1 p.nrow nglobal glo
      [(r * rb, n * rb, 0), (roundup (p.nrow * rb) 64 + 8 * r, 8 * n, roundup (n * rb) 64)]
    else
      let e := p.elems * elemBits p.ofmt / 8
      let b := e / max nglobal 1
      let sc := p.elems / 32 / max nglobal 1
      (glo * b, b, 0) :: (if isScaled p.ofmt then [(e + glo * sc, sc, b)] else [])
  else [(0, p.outBytes nglobal, 0)]

/-! ## Frames between modules (Table 6.5a) -/

/-- ADDR of a collective frame. -/
def collAddr (g member q : Nat) (summary : Bool) (chunk : Nat) : Nat :=
  g + 1024 * member + 2 ^ 19 * q + (if summary then 2 ^ 35 else 0) + 2 ^ 36 * (chunk / 2 ^ 20)

def frameGroup (f : Frame) : Nat := f.addr.toNat % 1024
def frameMember (f : Frame) : Nat := f.addr.toNat / 1024 % 512
def frameSeq (f : Frame) : Nat := f.addr.toNat / 2 ^ 19 % 65536
def frameSummary (f : Frame) : Bool := f.addr.toNat / 2 ^ 35 % 2 == 1
def frameChunk (f : Frame) : Nat := f.addr.toNat / 2 ^ 36 % 4096 * 2 ^ 20 + f.tag.toNat

/-- The payload a frame carries, every sector poisoned under PSN. -/
def framePayload (f : Frame) : Payload :=
  { bytes := f.data, poisoned := if hasFlag f flagPsn then List.range (f.data.length / 64) else [] }

/-- A chunk toward the parent, cut at poisoned sectors (R166). -/
def State.sendUp (s : State) (g q : Nat) (summary : Bool) (chunk : Nat) (p : Payload) : State :=
  (cutPayload 4096 p).foldl (fun s c =>
    s.originate (s.mkFrame opContrib vcCup (s.groupPart g) (s.get RU_GRP_PARENT.PARENT_EP g) 0 (chunk % 2 ^ 20)
      (collAddr g (s.get RU_GRP_PARENT.PARENT_IDX g) q summary chunk) (padSector c.2.1).length
      (if c.2.2 then flagPsn else 0) 0 (padSector c.2.1)) (some (.seq g q))) s

/-- Frames such a chunk takes. -/
def upFrames (p : Payload) : Nat := (cutPayload 4096 p).length

/-- The SWITCH ports of a group's multicast entry that a frame down the tree leaves by. -/
def State.downPorts (s : State) (g : Nat) : List Nat :=
  let e := Tab.get ⟨0, []⟩ s.sc.groups (s.get RU_GRP_CFG.MCAST g)
  if !validId s.modId || e.part != s.groupPart g then []
  else e.ports.filter fun port => s.get LK_PORT_CFG.ROLE port == 2 && s.portUp port && !s.flag LP_PORT_CFG.FENCE port

/-- The frame of one piece down the tree, numbered in the multicast group's flow where a SWITCH port takes it (R334, log
entry 31). -/
def State.downFrame (s : State) (g opc q chunk : Nat) (d : List Byte) (psn numbered : Bool) : State × Frame :=
  let f := s.mkFrame opc vcCdn (s.groupPart g) (s.get RU_GRP_CFG.MCAST g) 0 (chunk % 2 ^ 20) (collAddr g 0 q false chunk)
    d.length (if psn then flagPsn else 0) 16#16 d
  if !numbered then (s, f)
  else
    let fl := s.flowOut (flowOf f)
    let f := { f with seq := BitVec.ofNat 24 fl.nextSeq, flags := if fl.syncNext then f.flags ||| flagSync else f.flags }
    (s.setFlowOut { fl with nextSeq := (fl.nextSeq + 1) % 16777216, syncNext := false }, sealHeader { f with ecrc := ecrcOf f })

/-- The egress by which a frame of the module leaves toward its destination. -/
def State.egressTo (s : State) (f : Frame) : Option Nat :=
  if f.dst.toNat = s.modId then some (s.localEgress f false) else s.choosePort f (s.pathSet f.dst.toNat none)

/-- Frames of LOCAL receivers that leave with a stored piece: each is numbered and becomes the form of its egress; one whose egress
already has a form, or whose flow must wait, goes as a frame of its own (R164, R298). -/
def State.formFrames (s : State) (fs : List (Frame × Owner)) : State × List (Nat × Frame) :=
  fs.foldl (fun a x =>
    let free := validId a.1.modId && a.1.unackedCount < 65536 && a.1.lk.waiting.isEmpty
    match a.1.egressTo x.1 with
    | some e =>
      if free && !a.2.any (·.1 == e) then
        let r := a.1.number x.1 (some x.2)
        (r.1, a.2 ++ [(e, r.2)])
      else (a.1.originate x.1 (some x.2), a.2)
    | none => (a.1.originate x.1 (some x.2), a.2)) (s, [])

/-- A piece of RESULT or DONE is stored once: a pointer for each SWITCH port of the multicast group, and one, with a form of its own,
for the port of each LOCAL receiver (R164, R168). -/
def State.spread (s : State) (g opc q chunk : Nat) (d : List Byte) (psn : Bool) (fs : List (Frame × Owner)) : State :=
  let ports := s.downPorts g
  let r := s.downFrame g opc q chunk (padSector d) psn (!ports.isEmpty)
  let w := r.1.formFrames fs
  let egress := ports ++ w.2.map (·.1)
  if egress.isEmpty then w.1
  else
    let st : Staged := { frame := r.2, acct := s.groupPart g, sub := 0, egress := egress, ingress := none, held := none,
                         owner := none, forms := w.2 }
    { w.1 with sc := { w.1.sc with staged := w.1.sc.staged ++ [st] } }

/-- DONE goes down the tree (R169). -/
def State.sendDone (s : State) (g q : Nat) (d : List Byte) : State := s.spread g opDone q 0 d false []

/-- SUMMARY (Table 6.5c). -/
def summaryPayload (p : SeqParams) (status failStatus failDetail chunks : Nat) (mask : List Nat) : Payload :=
  { bytes := leBytes 8 (p.kind + 8 * p.op + 64 * p.ifmt + 1024 * p.ofmt + 2 ^ 14 * p.len + 2 ^ 40 * p.root)
      ++ leBytes 8 (p.nrow + 2 ^ 15 * p.dvw + 2 ^ 20 * status + 2 ^ 24 * failStatus + 2 ^ 32 * failDetail)
      ++ leBytes 8 chunks ++ List.replicate 40 0#8 ++ maskBytes mask, poisoned := [] }

/-- What a SUMMARY names: parameters, STATUS, FAIL_STATUS, FAIL_DETAIL, CHUNKS, MASK. -/
def summaryOf (bs : List Byte) : SeqParams × Nat × Nat × Nat × Nat × List Nat :=
  let a := leNat (bs.take 8)
  let b := leNat ((bs.drop 8).take 8)
  ({ kind := a % 8, op := a / 8 % 8, ifmt := a / 64 % 16, ofmt := a / 1024 % 16, len := a / 2 ^ 14 % 2 ^ 26,
     root := a / 2 ^ 40 % 4096, nrow := b % 2 ^ 15, dvw := b / 2 ^ 15 % 32 },
   b / 2 ^ 20 % 16, b / 2 ^ 24 % 256, b / 2 ^ 32 % 256, leNat ((bs.drop 16).take 4), maskOf (bs.drop 64))

/-- The reserved fields of a SUMMARY are zero (R10, Table 6.5c). -/
def summaryClean (bs : List Byte) : Bool :=
  leNat (bs.take 8) / 2 ^ 52 == 0 && leNat ((bs.drop 8).take 8) / 2 ^ 40 == 0 && leNat ((bs.drop 20).take 44) == 0

/-- DONE (Table 6.5d). -/
def donePayload (d : DoneInfo) : Payload :=
  { bytes := leBytes 8 (d.status + 256 * d.detail + 65536 * sat16 d.excluded + 2 ^ 32 * sat16 d.missing)
      ++ leBytes 8 d.chunks ++ List.replicate 48 0#8 ++ maskBytes d.mask, poisoned := [] }

def doneOf (bs : List Byte) : DoneInfo :=
  let a := leNat (bs.take 8)
  { status := a % 256, detail := a / 256 % 256, excluded := a / 65536 % 65536, missing := a / 2 ^ 32 % 65536,
    chunks := leNat ((bs.drop 8).take 4), mask := maskOf (bs.drop 64) }

/-- The reserved fields of a DONE are zero (R10, Table 6.5d). -/
def doneClean (bs : List Byte) : Bool := leNat (bs.take 8) / 2 ^ 48 == 0 && leNat ((bs.drop 12).take 52) == 0

/-- The reserved bits of a collective frame's ADDR are zero, and those of a SUMMARY or DONE (R10, Table 6.5a). -/
def collClean (f : Frame) : Bool := f.addr.toNat / 2 ^ 48 == 0

/-- Parameters of a sequence in which no member submitted any. -/
def SeqParams.zero : SeqParams := { kind := 0, op := 0, ifmt := 0, ofmt := 0, len := 0, root := 0, nrow := 0, dvw := 0 }

/-! ## The end of members and sequences (R162, R169, R170, R173 to R175) -/

/-- Writes the exclusion mask of a REDUCE that asks for it (R175). -/
def State.writeMask (s : State) (c : Cmd) (bits : List Nat) : State :=
  let b := reduceBody c.desc
  if !b.maskEn then s
  else if b.maskLoc && s.drained c.part (ref50 b.mask).handle then s.addCause c.cid stRevoked 0
  else match s.storeResult c b.maskLoc b.mask ⟨maskBytes bits, []⟩ with
    | some s => s
    | none => s.addCause c.cid stEpochRetired 0

/-- A member's result region after its sequence ended early: any mix of old and new data once part of the result has been stored
(R60). -/
def State.undefineDst (s : State) (x : Seq) (c : Cmd) : State :=
  let b := reduceBody c.desc
  let glo := (s.member b.group b.member).glo
  if (x.sent = 0 ∧ x.got = 0) || !b.receives glo || b.dst = 0 then s
  else
    let ng := s.nglobal b.group
    s.undefineRegion c b.dstLoc b.dst
      (resultBytes b.kind b.op b.ifmt b.ofmt b.len (rowsAt b.kind b.nrow ng glo) b.dvw ng)

/-- Completes a LOCAL member's REDUCE with the outcome of its sequence; one that was missing or excluded completes with its own
cause, and its mask is the sequence's (R170, R173 to R175, R179). -/
def State.settleCmd (s : State) (d : DoneInfo) (x : Seq) (m : MemberSeq) (cid : Nat) : State :=
  match s.cmd cid with
  | none => s
  | some c =>
    if c.stage == .finished then s
    else if m.missing || m.excluded then (s.writeMask c d.mask).finish cid
    else
      let s := if d.status = stOk ∨ d.status = stPartial then s else s.undefineDst x c
      let s := s.writeMask c d.mask
      let s := if d.status = stOk then s else s.addCause cid d.status d.detail
      let s := if c.poisonRows = 0 then s else s.addCause cid stPoison 0
      s.finishValue cid (valueReduce d.excluded d.missing c.poisonRows)

/-- The commands of a sequence's members that are in flight. -/
def State.seqCmds (s : State) (x : Seq) : List Cmd := x.members.filterMap fun m => m.cid.bind s.cmd

/-- DONE_SEQ advances over the sequences whose outcome is known and whose members have completed, in ascending order
(R160, R170). -/
def State.closeSeqs (s : State) (g : Nat) : Nat → State
  | 0 => s
  | n + 1 =>
    let q := (s.get RU_GRP_STAT.DONE_SEQ g + 1) % 65536
    match s.seqOf g q with
    | some x =>
      if x.outcome.isSome && (s.seqCmds x).isEmpty then
        let s := { s with co := { s.co with seqs := s.co.seqs.filter fun y => !(y.group == g && y.seq == q) } }
        ((s.put RU_GRP_STAT.DONE_SEQ g q).syncOpen g).closeSeqs g n
      else s
    | none => s

/-- The outcome of a sequence is known on this module: its members complete (R170). -/
def State.settleSeq (s : State) (g q : Nat) (d : DoneInfo) : State :=
  match s.seqOf g q with
  | none => s
  | some x =>
    if x.outcome.isSome then s
    else
      let s := s.updSeq g q fun x => { x with outcome := some d }
      (x.members.foldl (fun s m => (m.cid.map fun cid => s.settleCmd d x m cid).getD s) s).closeSeqs g 4

/-- The TOP decides an outcome and sends DONE (R169). -/
def State.decide (s : State) (g q status detail : Nat) : State :=
  match s.seqOf g q with
  | none => s
  | some x =>
    let miss := s.missingOf x
    let excl := s.excludedOf x
    let d : DoneInfo := { status := status, detail := detail, excluded := excl.length, missing := miss.length,
                          chunks := x.sent, mask := (miss ++ excl).eraseDups }
    (s.sendDone g q (donePayload d).bytes).settleSeq g q d

/-- A RELAY sends its summary and waits for DONE (R167). -/
def State.sendSummary (s : State) (g q status failStatus failDetail chunks : Nat) : State :=
  match s.seqOf g q with
  | none => s
  | some x =>
    if x.up then s
    else
      let mask := (s.missingOf x ++ s.excludedOf x).eraseDups
      (s.updSeq g q fun x => { x with up := true }).sendUp g q true 0
        (summaryPayload (x.params.getD .zero) status failStatus failDetail chunks mask)

/-- A sequence ends without a result: the TOP decides so, a RELAY reports it upward (R167, R173, Table 6.6). -/
def State.failSeq (s : State) (g q status detail : Nat) : State :=
  match s.seqOf g q with
  | none => s
  | some x =>
    if x.outcome.isSome then s
    else if s.isTop g then s.decide g q status detail
    else s.sendSummary g q 2 status detail 0

/-- A member is missing; ON_MISSING decides whether the sequence goes on (R173). -/
def State.memberMissing (s : State) (g q i status detail : Nat) : State :=
  let s := (s.updMember g q i fun m => { m with missing := true }).bump RU_GRP_STAT.MISSING g 1
  if s.excludes g then s else s.failSeq g q status detail

/-- ABORTED with the DETAIL of a missing collective member (Table 2.10). -/
def detailMember : Nat := 0x04

/-- The LOCAL member whose own command a REDUCE is: its group is open, and the context's rank is the member's (Table 6.8). -/
def State.memberOf (s : State) (c : Cmd) : Option Nat :=
  let b := reduceBody c.desc
  let m := s.member b.group b.member
  if c.opc == ocReduce && s.groupOpen b.group && s.groupPart b.group == c.part && b.member < s.get RU_GRP_CFG.NMEMB b.group
      && m.valid && !m.child && m.id % 4096 == s.ctxRank c.ctx then some b.member
  else none

/-- A sequence opens, with the members that went missing before it could: ON_MISSING decides at once (R160, R173). -/
def State.enterSeq (s : State) (g q : Nat) : State :=
  if (s.seqOf g q).isSome then s
  else
    let s := s.openSeq g q
    let lost := (s.co.gone.filter fun x => x.1 == g && x.2.1 == q).map (·.2.2)
    if (s.seqOf g q).isNone then s
    else
      lost.foldl (fun s i => s.memberMissing g q i stAborted detailMember)
        { s with co := { s.co with gone := s.co.gone.filter fun x => !(x.1 == g && x.2.1 == q) } }

/-- Pieces on their way for a member declared missing will be late (R177). -/
def State.readsLate (s : State) (cid g : Nat) : State :=
  { s with fe := { s.fe with reads := s.fe.reads.map fun r => match r.use with
      | .input c _ => if c = cid then { r with use := .late g } else r
      | _ => r } }

/-- A member's command ends without a contribution: the member is missing in its sequence, or will be when the sequence opens
(R160, R173). -/
def State.loseMember (s : State) (c : Cmd) (i : Nat) : State :=
  let b := reduceBody c.desc
  let s := s.enterSeq b.group b.seq
  match s.seqOf b.group b.seq with
  | none =>
    if s.get RU_GRP_CFG.STATE b.group = grpActive ∧ s.seqDistance b.group b.seq < 32768 then
      { s with co := { s.co with gone := s.co.gone ++ [(b.group, b.seq, i)] } }
    else s
  | some x =>
    match x.members.find? (·.index == i) with
    | none => s
    | some m =>
      if x.outcome.isSome || m.settled || (m.cid.isSome && m.cid != some c.cid) then s
      else
        ((s.updMember b.group b.seq i fun m => { m with cid := some c.cid }).readsLate c.cid b.group).memberMissing b.group b.seq i
          stAborted detailMember

/-- The exclusion mask a member writes that ends before its sequence could open: itself (R175, log entry 87). -/
def State.soleMask (s : State) (c : Cmd) (i : Nat) : State :=
  s.writeMask c (s.member (reduceBody c.desc).group i).range

/-- A LOCAL member's command stops: before its contribution is complete the member is missing, afterwards it is excluded as a
destination. Its record waits for the sequence's mask where it asks for one (R173 to R175, R177). -/
def State.memberGone (s : State) (cid : Nat) : State :=
  match s.cmd cid with
  | none => s
  | some c =>
    match s.memberOf c with
    | none => s.finish cid
    | some i =>
      let b := reduceBody c.desc
      let s := (s.updCmd cid fun c => { c with stage := .running, inputs := [] }).loseMember c i
      match s.seqOf b.group b.seq with
      | none => ((s.cmd cid).map fun c => (s.soleMask c i).finish cid).getD s
      | some x =>
        match x.members.find? fun m => m.index == i && m.cid == some cid, s.cmd cid with
        | some m, some c =>
          if c.stage == .finished then s
          else
            let s := if m.complete && !m.missing then s.updMember b.group b.seq i fun m => { m with excluded := true } else s
            let s := s.undefineDst x c
            match x.outcome with
            | some d => (s.writeMask c d.mask).finish cid
            | none => if b.maskEn then s else s.finish cid
        | _, _ => ((s.cmd cid).map fun c => (s.soleMask c i).finish cid).getD s

/-- A stop reaches any command: a REDUCE takes its member with it, whether it has started or waits (R173, R177). -/
def State.stopAny (s : State) (cid status detail : Nat) : State :=
  match s.cmd cid with
  | none => s
  | some c =>
    if c.opc != ocReduce || c.stage == .finished then s.stopCmd cid status detail
    else (s.updCmd cid fun c =>
      { c with causes := c.causes ++ [(status, detail)], stop := c.stop.orElse fun _ => some (status, detail) }).memberGone cid

/-- Stops several commands. -/
def State.stopAll (s : State) (cids : List Nat) (status detail : Nat) : State :=
  cids.foldl (fun s c => s.stopAny c status detail) s

/-- A REDUCE ends with a cause of its own and its member with it. -/
def State.memberEnds (s : State) (cid status detail : Nat) : State :=
  (s.updCmd cid fun c =>
    { c with causes := c.causes ++ [(status, detail)], stop := c.stop.orElse fun _ => some (status, detail) }).memberGone cid

/-- The LOCAL members of ranks that are gone, in every sequence they have submitted nothing for, are missing (R173). -/
def State.ranksGone (s : State) (gone : Nat → Nat → Bool) (status : Nat) : State :=
  s.co.seqs.foldl (fun s x => x.members.foldl (fun s m =>
    let mb := s.member x.group m.index
    match s.seqOf x.group x.seq with
    | some y =>
      if !mb.child && gone (s.groupPart x.group) (mb.id % 4096) && m.cid.isNone && y.outcome.isNone
          && !(y.members.any fun k => k.index == m.index && (k.settled || k.cid.isSome)) then
        s.memberMissing x.group x.seq m.index status (if status = stAborted then detailMember else 0)
      else s
    | none => s) s) s

/-- The endpoints of members are fenced or retired: those running end with `status`, and the members are missing or excluded; those
that have submitted nothing are missing (R173, R174). -/
def State.collectFenced (s : State) (gone : Nat → Nat → Bool) (status : Nat) : State :=
  ((s.fe.cmds.filter fun c => c.opc == ocReduce && c.stage == .running && gone c.part (s.ctxRank c.ctx)).foldl
    (fun s c => s.memberEnds c.cid status 0) s).ranksGone gone stAborted

/-- A CHILD module cannot be reached: its range is missing in every open sequence it has not completed (Table 6.6). -/
def State.childLost (s : State) (ep : Nat) : State :=
  s.co.seqs.foldl (fun s x => x.members.foldl (fun s m =>
    let mb := s.member x.group m.index
    if mb.child && mb.id == ep && !m.settled && x.outcome.isNone then
      s.memberMissing x.group x.seq m.index stAborted detailMember
    else s) s) s

/-- A RELAY cannot reach its parent: its members' sequence ends (Table 6.6). -/
def State.parentLost (s : State) (g q : Nat) : State :=
  match s.seqOf g q with
  | none => s
  | some x =>
    let d : DoneInfo := { status := stPathFatal, detail := 0, excluded := 0, missing := 0, chunks := 0,
                          mask := (s.missingOf x ++ s.excludedOf x).eraseDups }
    (s.sendDone g q (donePayload d).bytes).settleSeq g q d

end Sys2Proof.Machine
end

