-- ==== Sys2Proof/Machine/Collect.lean ====
section
/-! DEFINITION. The reduce units, part two (chapter 6): REDUCE and its contribution, CONTRIB, the tree chunk by chunk, and RESULT and
DONE. -/

namespace Sys2Proof.Machine

/-! ## REDUCE (R160 to R163) -/

/-- A LOCAL member's contribution is complete. -/
def State.memberComplete (s : State) (c : Cmd) : State :=
  let b := reduceBody c.desc
  (s.updMember b.group b.seq b.member fun m => { m with complete := true }).updCmd c.cid fun c => { c with inputs := [] }

/-- Chunks of one LOCAL contribution that are reduced, or copied into a result. -/
def SeqParams.chunks (p : SeqParams) : Nat := chunksOf p.mainBytes

/-- Chunks the stream of one member takes where nothing is combined (Table 6.5b). -/
def State.copyChunks (s : State) (g : Nat) (p : SeqParams) (m : MemberSeq) : Nat :=
  chunksOf ((if p.kind = 2 then (s.member g m.index).range.length else 1) * p.inBytes)

/-- Chunks of a member that the sequence has passed: all members go together through a reduction, and one after the other through an
ALL_GATHER (R154, Table 6.5b). -/
def State.passed (s : State) (x : Seq) (p : SeqParams) (i : Nat) : Nat :=
  if p.kind = 2 then x.step - ((x.members.takeWhile (·.index != i)).map (s.copyChunks x.group p)).sum else x.step

/-- The pieces of chunk `k` are numbered from 4k: at most two of its elements or rows, and two of what goes with them. -/
def sideBase (k : Nat) : Nat := 4 * k + 2

/-- A chunk of a LOCAL contribution is here: it waits for the tree, and after the last one the contribution is complete. -/
def State.takeChunk (s : State) (c : Cmd) (m : MemberSeq) (total : Nat) (main side : Payload) : State :=
  let b := reduceBody c.desc
  let k := m.read
  let s := s.updMember b.group b.seq b.member fun m =>
    { m with chunks := m.chunks ++ [(2 * k, main), (2 * k + 1, side)], read := k + 1 }
  if k + 1 = total then s.memberComplete c
  else s.updCmd c.cid fun c => { c with inputs := c.inputs.filter fun e => sideBase k + 1 < e.1 }

/-- Reads a LOCAL member's contribution chunk by chunk, at most two chunks ahead of the tree (R151, R153, R163). -/
def State.readContribution (s : State) (c : Cmd) (b : ReduceBody) (x : Seq) (m : MemberSeq) : State :=
  let p := paramsOf b
  let ahead := s.passed x p m.index + 2
  if !b.gives (s.member b.group b.member).glo || p.chunks = 0 then s.memberComplete c
  else if ahead ≤ m.read || p.chunks ≤ m.read then s
  else
    let sp := p.spans m.read
    if b.srcLoc then
      let r := ref50 b.src
      let spans : List (NearRef × Nat) := [({ r with off := r.off + sp.1.1 }, sp.1.2), ({ r with off := r.off + sp.2.1 }, sp.2.2)]
      if s.drained c.part r.handle then s.memberEnds c.cid stRevoked 0
      else
        let spans := spans.filter (0 < ·.2)
        match s.viewAll c.part spans with
        | .failed => s.memberEnds c.cid stTierFail 0
        | .budget => s.memberEnds c.cid stBudget 0
        | .wait => s.askAll c.part spans
        | .ready =>
          match s.spend c (spans.flatMap fun y => s.nearCost c.part y.1 y.2 false) with
          | (s, false) => s
          | (s, true) =>
            let read (y : Nat × Nat) : Payload :=
              if y.2 = 0 then ⟨[], []⟩ else s.readSpan c.part { r with off := r.off + y.1 } y.2
            ((s.takeChunk c m p.chunks (read sp.1) (read sp.2)).consumeAll c.part spans)
    else
      let at_ (base : Nat) (y : Nat × Nat) : Bool := y.2 == 0 || inputReady c base (b.src + y.1) y.2
      if at_ (4 * m.read) sp.1 && at_ (sideBase m.read) sp.2 then
        let read (base : Nat) (y : Nat × Nat) : Payload :=
          if y.2 = 0 then ⟨[], []⟩ else inputPayload c base (b.src + y.1) y.2
        s.takeChunk c m p.chunks (read (4 * m.read) sp.1) (read (sideBase m.read) sp.2)
      else
        let ask (s : Option State) (base : Nat) (y : Nat × Nat) : Option State :=
          s.bind fun s => if y.2 = 0 then some s else s.askInput c base (b.src + y.1) y.2 16
        let ks := (List.range (min ahead p.chunks - m.read)).map (· + m.read)
        match ks.foldl (fun s k => ask (ask s (4 * k) (p.spans k).1) (sideBase k) (p.spans k).2) (some s) with
        | some s => s
        | none => s.memberEnds c.cid stEpochRetired 0

/-- A REDUCE whose member was declared missing before it joined: its sequence's failure, or ABORTED (R173, Table 6.6, log entry
87). -/
def State.lateMember (s : State) (c : Cmd) (x : Seq) : State :=
  match x.outcome with
  | some d =>
    if d.status = stOk ∨ d.status = stPartial then (s.writeMask c d.mask).finishWith c.cid stAborted detailMember
    else s.settleCmd d x (MemberSeq.reset 0) c.cid
  | none =>
    let b := reduceBody c.desc
    let s := (s.addCause c.cid stAborted detailMember).updMember b.group b.seq b.member fun m => { m with cid := some c.cid }
    if b.maskEn then s.updCmd c.cid fun c => { c with stage := .running, stop := some (stAborted, detailMember) }
    else s.finish c.cid

/-- Whether the berth a member's result goes to can take it; what it lacks is asked for before the contribution is read
(R212, R235, R394). -/
def State.dstSupply (s : State) (c : Cmd) (b : ReduceBody) : Supply :=
  let m := s.member b.group b.member
  if !b.dstLoc || !b.receives m.glo || b.dst = 0 then .ready
  else
    let ng := s.nglobal b.group
    s.target c (ref50 b.dst) (resultBytes b.kind b.op b.ifmt b.ofmt b.len (rowsAt b.kind b.nrow ng m.glo) b.dvw ng)

/-- REDUCE: the member joins its sequence and its contribution is read; a disagreement ends the sequence (R160, R163, R167,
Table 6.6). -/
def State.reduceRow (s : State) (c : Cmd) : State :=
  let b := reduceBody c.desc
  let g := b.group
  if !s.groupOpen g || s.groupPart g != c.part then s.finishWith c.cid stBadDesc 0x21
  else if c.stop.isSome then s.memberGone c.cid
  else match s.boundaryStop c with
    | some x => s.memberEnds c.cid x.1 x.2
    | none =>
      let s := s.enterSeq g b.seq
      match s.seqOf g b.seq with
      | none => s.finishWith c.cid stBadDesc (if s.get RU_GRP_CFG.STATE g = grpActive then 0x27 else 0x21)
      | some x =>
        match x.members.find? (·.index == b.member) with
        | none => s.finishWith c.cid stBadDesc 0x22
        | some m =>
          if m.cid.isSome && m.cid != some c.cid then s.finishWith c.cid stBadDesc 0x2E
          else if x.outcome.isSome || m.missing then s.lateMember c x
          else
            let s := s.updCmd c.cid fun c => { c with stage := .running }
            let s := s.updMember g b.seq b.member fun m => { m with cid := some c.cid }
            if x.params.isSome && x.params != some (paramsOf b) then s.failSeq g b.seq stBadDesc 0x2E
            else
              let s := s.updSeq g b.seq fun x => { x with params := some (paramsOf b) }
              if m.complete then s
              else match s.dstSupply c b with
                | .stop s st dt => s.memberEnds c.cid st dt
                | .wait t => t
                | .ready => s.readContribution c b x m

/-- REDUCE (R162). -/
def execReduce (cid : Nat) (s : State) : Host.Outcome State Fault Refusal :=
  .next (whenUp s fun s =>
    match s.cmd cid with
    | some c => if c.opc == ocReduce && (c.stage == .dispatched || c.stage == .running) then (s.reduceRow c).retryHeld else s
    | none => s)

/-! ## CONTRIB (R166, R167, R177) -/

/-- A collective frame is discarded and counted (R166, R177). -/
def State.lateFrame (s : State) (f : Frame) : State := s.bump RU_GRP_STAT.LATE (frameGroup f) 1

/-- A CHILD member is complete once its summary and every chunk frame it counts are here. -/
def State.childComplete (s : State) (g q i : Nat) : State :=
  s.updMember g q i fun m =>
    match m.expected with
    | some n => if n ≤ m.chunks.length then { m with complete := true } else m
    | none => m

/-- A summary of a CHILD (R167). -/
def State.takeSummary (s : State) (f : Frame) (x : Seq) (m : MemberSeq) : State :=
  let g := x.group
  let q := x.seq
  let v := summaryOf f.data
  if v.2.1 = 1 then
    (s.updMember g q m.index fun m => { m with absent := true, mask := v.2.2.2.2.2 })
  else if v.2.1 = 2 then
    (s.updMember g q m.index fun m => { m with absent := true, mask := v.2.2.2.2.2 }).failSeq g q v.2.2.1 v.2.2.2.1
  else if x.params.isSome && x.params != some v.1 then s.failSeq g q stBadDesc 0x2E
  else
    ((s.updSeq g q fun x => { x with params := some v.1 }).updMember g q m.index fun m =>
      { m with expected := some v.2.2.2.2.1, mask := v.2.2.2.2.2 }).childComplete g q m.index

/-- CONTRIB: a chunk or a summary of a CHILD reaches its parent entry; one with a reserved field that is not zero is dropped
(R10). -/
def State.contribFrame (s : State) (f : Frame) : State :=
  let g := frameGroup f
  let q := frameSeq f
  let mb := s.member g (frameMember f)
  if !collClean f || (frameSummary f && !summaryClean f.data) then s
  else if !s.groupOpen g || s.groupPart g != f.part.toNat
      || !(frameMember f < s.get RU_GRP_CFG.NMEMB g && mb.valid && mb.child && mb.id == f.src.toNat) then s.lateFrame f
  else
    let s := s.enterSeq g q
    match s.seqOf g q with
    | none => s.lateFrame f
    | some x =>
      match x.members.find? (·.index == frameMember f) with
      | none => s.lateFrame f
      | some m =>
        if x.outcome.isSome || m.settled then s.lateFrame f
        else if frameSummary f then s.takeSummary f x m
        else
          (s.updMember g q m.index fun m => { m with chunks := m.chunks ++ [(frameChunk f, framePayload f)] }).childComplete
            g q m.index

/-- CONTRIB (R166). -/
def execContrib (f : Frame) (s : State) : Host.Outcome State Fault Refusal := .next (whenUp s fun s => s.contribFrame f)

/-! ## The tree (R154, R163, R167, R168) -/

/-- Chunk `i` of a CHILD's stream, joined from its pieces. -/
def MemberSeq.streamChunk (m : MemberSeq) (i : Nat) : Payload :=
  ((m.chunks.filter (·.1 == i)).map (·.2)).foldl joinPayload ⟨[], []⟩

/-- Bytes `lo` to `lo + n` of a CHILD's stream, once they are here. -/
def MemberSeq.streamSpan (m : MemberSeq) (lo n : Nat) : Option Payload :=
  if n = 0 then some ⟨[], []⟩
  else
    let cs := (List.range ((lo + n - 1) / 4096 - lo / 4096 + 1)).map fun k => m.streamChunk (lo / 4096 + k)
    if m.complete || cs.all (4096 ≤ ·.bytes.length) then
      some (fitPayload (subPayload (cs.foldl joinPayload ⟨[], []⟩) (lo % 4096) n) n)
    else none

/-- What a member brought to one chunk. -/
inductive Leaf where
  /-- it is still awaited -/
  | wait
  /-- an absent leaf (R154) -/
  | absent
  /-- elements or rows, and the scales or pairs that go with them -/
  | given (main side : Payload)
  deriving DecidableEq, Repr

/-- A leaf that may not be here. -/
def MemberSeq.orAbsent (m : MemberSeq) (l : Option Leaf) : Leaf :=
  match l with
  | some l => l
  | none => if m.settled then .absent else .wait

/-- A LOCAL member's chunk `k`. -/
def MemberSeq.localLeaf (m : MemberSeq) (k : Nat) : Leaf :=
  m.orAbsent ((Tab.find m.chunks (2 * k)).map fun p => .given p ((Tab.find m.chunks (2 * k + 1)).getD ⟨[], []⟩))

/-- What a member brings to chunk `c` of a reduction: a chunk that has reached its home is part of the sequence, whatever becomes of
the member afterwards (R177). A CHILD's rows wait for the pairs behind them (Table 6.5b, log entry 84). -/
def State.leaf (s : State) (x : Seq) (p : SeqParams) (m : MemberSeq) (c : Nat) : Leaf :=
  if m.absent then .absent
  else if (s.member x.group m.index).child then
    if p.attn then
      let sp := p.spans c
      if !m.complete then m.orAbsent none
      else match m.streamSpan sp.1.1 sp.1.2, m.streamSpan (sp.2.1 / 64 * 64) (sp.2.2 + sp.2.1 % 64) with
        | some a, some b => .given a b
        | _, _ => .absent
    else m.orAbsent ((m.streamSpan (4 * p.elemOf c) (4 * p.elemsIn c)).map fun a => .given a ⟨[], []⟩)
  else m.localLeaf c

/-- The elements of a leaf. -/
def Leaf.elems (l : Leaf) (p : SeqParams) (child : Bool) (n : Nat) : Option (List Elem) :=
  match l with
  | .given a b => some (if child then streamDecode n a else contribDecode p.ifmt n a b)
  | _ => none

/-- The rows of a leaf: its pairs begin `skip` bytes into the second part. -/
def Leaf.rows (l : Leaf) (p : SeqParams) (n skip : Nat) : Option (List Partial) :=
  match l with
  | .given a b =>
    let base := n * p.wv * 4
    some ((rowsFrom ⟨a.bytes ++ List.replicate (roundup base 64 - base) 0#8 ++ b.bytes.drop skip, []⟩ n p.wv 0 n).zip (List.range n)
      |>.map fun r =>
        if touched a.poisoned (r.2 * p.wv * 4) (p.wv * 4) || touched b.poisoned (skip + 8 * r.2) 8 then
          { Partial.neutral p.wv with poison := true }
        else r.1)
  | _ => none

/-- Elementwise tree over the members that gave. -/
def treeElems (op n : Nat) (ls : List (Option (List Elem))) : List Elem :=
  (List.range n).filterMap fun i => treeOf (combineElem op) 10 (ls.map fun l => l.bind (·[i]?))

/-- Rowwise tree of R156. -/
def treeRows (n : Nat) (ls : List (Option (List Partial))) : List Partial :=
  (List.range n).filterMap fun i => treeOf mergePartial 10 (ls.map fun l => l.bind (·[i]?))

/-- The next work of a sequence. -/
inductive SeqWork where
  /-- a chunk of some member is awaited -/
  | wait
  /-- every chunk is done -/
  | done
  /-- what the chunk adds to the stream and behind it, and for each context group the bytes of contribution it takes -/
  | chunk (main side : Marked) (bytes : List (Nat × Nat))
  deriving DecidableEq, Repr

/-- The context group a member's contribution is charged to: that of its REDUCE, group 0 for a CHILD (log entry 84). -/
def State.memberGroup (s : State) (m : MemberSeq) : Nat :=
  ((m.cid.bind s.cmd).map fun c => s.ctxGroup c.ctx).getD 0

/-- A reduction's chunk `c`: decode, tree, convert (R151, R154, R155). -/
def State.reduceWork (s : State) (x : Seq) (p : SeqParams) (c : Nat) : SeqWork :=
  if p.chunks ≤ c then .done
  else
    let ls := x.members.map fun m => (m, s.leaf x p m c)
    if ls.any (·.2 == .wait) then .wait
    else
      let bytes := ls.filterMap fun y => match y.2 with
        | .given a b => some (s.memberGroup y.1, a.bytes.length + b.bytes.length)
        | _ => none
      let child (m : MemberSeq) : Bool := (s.member x.group m.index).child
      let fmt := if s.isTop x.group then p.ofmt else 9
      if p.attn then
        let n := p.rowOf (c + 1) - p.rowOf c
        let skip (m : MemberSeq) : Nat := if child m then (p.spans c).2.1 % 64 else 0
        let r := rowsMarked fmt p.wv (treeRows n (ls.map fun y => y.2.rows p n (skip y.1)))
        .chunk r.1 r.2 bytes
      else
        let n := p.elemsIn c
        let r := elemsOut fmt (treeElems p.op n (ls.map fun y => y.2.elems p (child y.1) n))
        .chunk r.1 r.2 bytes

/-- The member and the chunk of its stream that a copying collective takes at step `k`. -/
def State.copyAt (s : State) (g : Nat) (p : SeqParams) : List MemberSeq → Nat → Option (MemberSeq × Nat)
  | [], _ => none
  | m :: t, k => if k < s.copyChunks g p m then some (m, k) else s.copyAt g p t (k - s.copyChunks g p m)

/-- The parameters of a sequence as a list. -/
def SeqParams.key (p : SeqParams) : List Nat := [p.kind, p.op, p.ifmt, p.ofmt, p.len, p.root, p.nrow, p.dvw]

/-- A chunk of one member's stream is copied into the result; an absent member's block of an ALL_GATHER has free bytes that equal
runs repeat (R171, log entry 86). -/
def State.copyWork (s : State) (x : Seq) (p : SeqParams) : SeqWork :=
  let g := x.group
  let ms := if p.kind = 2 then x.members else x.members.filter fun m => (s.member g m.index).range.contains p.root
  match s.copyAt g p ms x.step with
  | none => .done
  | some (m, k) =>
    let mb := s.member g m.index
    let n := min 4096 ((if p.kind = 2 then mb.range.length else 1) * p.inBytes - 4096 * k)
    let l := if m.absent then Leaf.absent
      else if mb.child then m.orAbsent ((m.streamSpan (4096 * k) n).map fun a => .given a ⟨[], []⟩) else m.localLeaf k
    match l with
    | .wait => .wait
    | .given a _ => .chunk ⟨(fitPayload a n).bytes, (fitPayload a n).poisoned.map (64 * ·)⟩ ⟨[], []⟩ [(s.memberGroup m, n)]
    | .absent =>
      if p.kind = 3 then .done
      else .chunk ⟨(List.range n).map fun i => Config.absentByte p.key (mb.glo * p.inBytes + 4096 * k + i), []⟩ ⟨[], []⟩ []

/-- A member has joined: no result can leave before every member's destination is known (Table 6.5). -/
def MemberSeq.joined (m : MemberSeq) : Bool := m.settled || m.cid.isSome || !m.chunks.isEmpty

/-- The next chunk of a sequence; a BROADCAST waits for the members that give nothing. -/
def State.seqWork (s : State) (x : Seq) : SeqWork :=
  match x.params with
  | none => if x.members.all (·.settled) then .done else .wait
  | some p =>
    if !x.members.all (·.joined) then .wait
    else if x.members.all fun m => m.settled && !m.gave then .done
    else if p.reduces then s.reduceWork x p x.step
    else if p.kind = 5 then .done
    else s.copyWork x p

/-! ## Delivery to LOCAL members (R164, R168, R174) -/

/-- NaN elements in bytes `off` on of a RESULT stream; poisoned sectors do not count (R112, R155). Where nothing is combined the stream
is contributions in IFMT one after the other. -/
def SeqParams.nanIn (p : SeqParams) (off : Nat) (d : Payload) : Bool :=
  let eb := elemBits p.ofmt / 8
  let each := if p.reduces then 0 else p.inBytes
  let total := (if p.attn then p.nrow * p.wv else p.elems) * eb
  let nanCode (i : Nat) : Bool :=
    (decodeElem p.ofmt (leNat ((d.bytes.drop i).take eb))) == .nan
      || (isScaled p.ofmt && (decodeElem p.ofmt (leNat ((d.bytes.drop i).take eb))).special)
  p.kind != 5 && eb != 0 && (List.range d.bytes.length).any fun i =>
    let at_ := if each = 0 then off + i else (off + i) % each
    !d.poisoned.contains (i / 64) && (
      if at_ < total then at_ % eb == 0 && nanCode i
      else isScaled p.ofmt && !p.attn && at_ < total + p.elems / 32 && d.bytes.getD i 0 == 255#8)

/-- Poisoned sectors, or rows of ATTN, in bytes `off` on of a RESULT stream (R179). -/
def SeqParams.poisonIn (p : SeqParams) (off : Nat) (d : Payload) : Nat :=
  if p.attn then
    let rb := p.wv * elemBits p.ofmt / 8
    ((List.range p.nrow).filter fun r =>
      off ≤ r * rb && r * rb < off + d.bytes.length && d.poisoned.contains ((r * rb - off) / 64)).length
  else d.poisoned.length

/-- The owner's endpoint cannot receive: unmapped, or behind a fenced port (R174). -/
def State.unreachable (s : State) (c : Cmd) : Bool :=
  let ep := s.rankId c.part (s.ctxRank c.ctx)
  ep == 0 || s.flag LP_PORT_CFG.FENCE (s.portOf ep)

/-- Bytes `off` on of a RESULT stream in front of one LOCAL member: what its part takes of them, each with its place at DST_ADDR. -/
def SeqParams.cuts (p : SeqParams) (ng glo off : Nat) (d : Payload) : List (Nat × Nat × Payload) :=
  (p.parts ng glo).filterMap fun part =>
    let lo := max off part.1
    let hi := min (off + d.bytes.length) (part.1 + part.2.1)
    if hi ≤ lo then none else some (lo, part.2.2 + (lo - part.1), subPayload d (lo - off) (hi - lo))

/-- A result that has come is written whatever the balance, and pays what the balance has (log entry 107). -/
def State.writePaid (s : State) (c : Cmd) (r : NearRef) (d : Payload) : State :=
  ((s.nearCost c.part r d.bytes.length true).foldl (fun s x => s.charge c.part (s.ctxGroup c.ctx) x.1 x.2) s).writeSpan c.part r d

/-- A piece of the result reaches one LOCAL member: it is written to its berth, or the stores its egress forms are answered; the
record notes NaN and poison (R155, R168, R174, R176). -/
def State.deliverMember (s : State) (p : SeqParams) (ng off : Nat) (d : Payload) (c : Cmd) : State × List (Frame × Owner) :=
  let b := reduceBody c.desc
  let glo := (s.member b.group b.member).glo
  if c.stage == .finished || c.stop.isSome || !b.receives glo || b.dst = 0 then (s, [])
  else if b.dstLoc && s.drained c.part (ref50 b.dst).handle then (s.memberEnds c.cid stRevoked 0, [])
  else if !b.dstLoc && s.unreachable c then (s.memberEnds c.cid stEpochRetired 0, [])
  else
    let cs := p.cuts ng glo off d
    let s := s.updCmd c.cid fun c =>
      { c with nan := c.nan || cs.any fun x => p.nanIn x.1 x.2.2,
               poisonRows := c.poisonRows + (cs.map fun x => p.poisonIn x.1 x.2.2).sum }
    let place (x : Nat × Nat × Payload) : Nat × Nat × Nat :=
      ((ref50 (b.dst + x.2.1)).handle, (ref50 (b.dst + x.2.1)).off, x.2.2.bytes.length)
    if b.dstLoc then
      if cs.any fun x => s.writeBarred c.part (place x) then
        ((cs.foldl (fun s x => s.countSealed c.part (place x)) s).memberEnds c.cid stNotOwner 0, [])
      else (cs.foldl (fun s x => s.writePaid c (ref50 (b.dst + x.2.1)) x.2.2) s, [])
    else
      let ep := s.rankId c.part (s.ctxRank c.ctx)
      (s, cs.flatMap fun x => (s.storeAny c.part c.ctx ep (b.dst + x.2.1) x.2.2).map fun f =>
        ({ f with opc := BitVec.ofNat 8 opResult, cls := BitVec.ofNat 3 vcCdn, vc := BitVec.ofNat 3 vcCdn }, .cmd c.cid))

/-- A piece of the result reaches the LOCAL members of an entry that are neither missing nor excluded. -/
def State.deliverAll (s : State) (x : Seq) (p : SeqParams) (off : Nat) (d : Payload) : State × List (Frame × Owner) :=
  ((x.members.filter fun m => !m.missing && !m.excluded).filterMap (·.cid)).foldl (fun a cid =>
    match a.1.cmd cid with
    | some c => let r := a.1.deliverMember p (s.nglobal x.group) off d c; (r.1, a.2 ++ r.2)
    | none => a) (s, [])

/-- A chunk of RESULT, or what came of one, goes to every target: cut at poisoned sectors, each piece is stored once (R164, R166,
R168). -/
def State.spreadChunk (s : State) (x : Seq) (chunk off : Nat) (d : Payload) : State :=
  let p := x.params.getD .zero
  (cutPayload 4096 d).foldl (fun s c =>
    let piece := subPayload d c.1 c.2.1.length
    let r := s.deliverAll x p (off + c.1) piece
    r.1.spread x.group opResult x.seq chunk c.2.1 c.2.2 r.2) s

/-- A chunk of its stream leaves the entry: RESULT from the TOP, CONTRIB from a RELAY (R166 to R168). -/
def State.sendChunk (s : State) (x : Seq) (chunk : Nat) (d : Payload) : State :=
  if s.isTop x.group then s.spreadChunk x chunk (4096 * chunk) d else s.sendUp x.group x.seq false chunk d

/-- Sends the whole chunks that are made; at the end of the stream, the last one as it is. -/
def State.flushSeq (s : State) (g q : Nat) (last : Bool) : Nat → State
  | 0 => s
  | n + 1 =>
    match s.seqOf g q with
    | none => s
    | some x =>
      let d := subPayload x.out 0 4096
      if x.outcome.isSome || x.out.bytes.isEmpty || (!last && x.out.bytes.length < 4096) then s
      else
        let s := s.updSeq g q fun x =>
          { x with out := subPayload x.out 4096 (x.out.bytes.length - 4096), sent := x.sent + 1, frames := x.frames + upFrames d }
        (s.sendChunk x x.sent d).flushSeq g q last n

/-- Every member is complete, missing or absent: nothing more is awaited. -/
def Seq.ready (x : Seq) : Bool := x.members.all (·.settled)

/-- The sequence has no chunk left to reduce: what stands behind its stream is sent, the TOP decides, a RELAY sends its summary
(R167, R169). -/
def State.concludeSeq (s : State) (g q : Nat) : State :=
  let s := s.updSeq g q fun x =>
    { x with out := if x.tail.bytes.isEmpty then x.out
                    else { joinPayload x.out x.tail with bytes := x.out.bytes ++ padSector x.tail.bytes },
             tail := ⟨[], []⟩ }
  let s := s.flushSeq g q true (((s.seqOf g q).map fun x => chunksOf x.out.bytes.length).getD 0)
  match s.seqOf g q with
  | none => s
  | some x =>
    if x.outcome.isSome then s
    else if s.isTop g then s.decide g q (if (s.missingOf x).isEmpty && (s.excludedOf x).isEmpty then stOk else stPartial) 0
    else s.sendSummary g q (if x.members.any (·.gave) then 0 else 1) 0 0 x.frames

/-- Concludes a sequence whose chunks are all done and whose members are all settled. -/
def State.seqEnd (s : State) (g q : Nat) : State :=
  match s.seqOf g q with
  | none => s
  | some x => if x.outcome.isNone && !x.up && x.ready && s.seqWork x == .done then s.concludeSeq g q else s

/-- Engine cycles of a chunk by context group (R151). -/
def chunkCycles (bytes : List (Nat × Nat)) : List (Nat × Nat) :=
  (List.range 64).filterMap fun h =>
    let n := ((bytes.filter (·.1 == h)).map (·.2)).sum
    if n = 0 then none else some (h, unitCycles n)

/-- The chunks of LOCAL members that a sequence has passed give up their buffers (R153). -/
def State.dropPassed (s : State) (x : Seq) : Seq :=
  let keep (m : MemberSeq) (e : Nat × Payload) : Bool := s.passed x (x.params.getD .zero) m.index ≤ e.1 / 2
  { x with members := x.members.map fun m =>
      if (s.member x.group m.index).child then m else { m with chunks := m.chunks.filter (keep m) } }

/-- One chunk of a collective: it runs on a reduce unit once every member has brought its part and the fare covers it, and adds to
the stream (R151, R163, R168); after the last one comes the outcome or the summary. -/
def State.seqChunk (s : State) (g q : Nat) : State :=
  match s.seqOf g q with
  | none => s
  | some x =>
    if x.outcome.isSome || x.up then s
    else match s.seqWork x with
      | .wait => s
      | .done => s.seqEnd g q
      | .chunk main side bytes =>
        let p := s.groupPart g
        let due := chunkCycles bytes
        if (s.reduceUnit (s.maxUnits p ocReduce) x.step).isNone || !due.all (fun y => s.covers p y.1 .engine y.2) then s
        else
          let s := due.foldl (fun s y => s.charge p y.1 .engine y.2) s
          let s := s.updSeq g q fun y => { y with out := pushMarked y.out main, tail := pushMarked y.tail side, step := y.step + 1 }
          let s := s.updSeq g q s.dropPassed
          (s.flushSeq g q false 4).seqEnd g q

/-! ## RESULT and DONE at a RELAY (R168 to R170) -/

/-- The entry takes a RESULT or DONE frame: it is a RELAY's, of an open sequence (R166). -/
def State.downSeq (s : State) (f : Frame) : Option Seq :=
  let g := frameGroup f
  if s.groupOpen g && s.groupPart g == f.part.toNat && !s.isTop g then s.seqOf g (frameSeq f) else none

/-- RESULT: a chunk goes on to the CHILD members and to the LOCAL ones (R164, R168); `got` counts the bytes received, so that the
pieces of a cut chunk follow each other (R166). -/
def State.resultFrame (s : State) (f : Frame) : State :=
  if !collClean f then s
  else match s.downSeq f with
    | none => s.lateFrame f
    | some x =>
      if x.outcome.isSome then s.lateFrame f
      else
        let d := framePayload f
        let c := frameChunk f
        let off := if x.got / 4096 = c then x.got else 4096 * c
        (s.updSeq x.group x.seq fun x => { x with got := off + d.bytes.length }).spreadChunk x c off d

/-- RESULT (R168). -/
def execResult (f : Frame) (s : State) : Host.Outcome State Fault Refusal := .next (whenUp s fun s => s.resultFrame f)

/-- DONE: forwarded to the CHILD members first, then the LOCAL members complete and the gate of R160 opens (R169, R170). -/
def State.doneFrame (s : State) (f : Frame) : State :=
  if !collClean f || !doneClean f.data then s
  else match s.downSeq f with
    | none => s.lateFrame f
    | some x =>
      if x.outcome.isSome then s.lateFrame f
      else
        let d := doneOf f.data
        (s.sendDone x.group x.seq (donePayload d).bytes).settleSeq x.group x.seq d

/-- DONE (R169). -/
def execDoneFrame (f : Frame) (s : State) : Host.Outcome State Fault Refusal := .next (whenUp s fun s => s.doneFrame f)

/-! ## CONTRIB_TIMEOUT (R173) -/

/-- A LOCAL member that submitted in time to a sequence that timed out ends TIMEOUT; its mask is the sequence's (R173, R175). -/
def State.memberTimedOut (s : State) (c : Cmd) (x : Seq) : State :=
  if c.stage == .finished then s
  else
    let s := ((s.addCause c.cid stTimeout 0).updCmd c.cid fun c => { c with stop := some (stTimeout, 0), inputs := [] }).undefineDst x c
    if (reduceBody c.desc).maskEn then s else s.finish c.cid

/-- CONTRIB_TIMEOUT: every member that is not complete is missing; its own REDUCE completes TIMEOUT (R173). -/
def State.contribTimeout (s : State) (g q : Nat) : State :=
  match s.seqOf g q with
  | none => s
  | some x =>
    if x.outcome.isSome || x.up || x.ready then s
    else
      let late := x.members.filter fun m => !m.settled
      let s := late.foldl (fun s m => (s.updMember g q m.index fun m => { m with missing := true }).bump RU_GRP_STAT.MISSING g 1) s
      let s := (late.filterMap (·.cid)).foldl (fun s cid =>
        match s.cmd cid with
        | some c => (s.readsLate cid g).memberTimedOut c x
        | none => s) s
      if s.excludes g then s else s.failSeq g q stTimeout 0

/-- CONTRIB_TIMEOUT (R173). -/
def execContribTimeout (group seq : Nat) (s : State) : Host.Outcome State Fault Refusal :=
  .next (whenUp s fun s => s.contribTimeout group seq)

end Sys2Proof.Machine
end

