-- ==== Sys2Proof/Machine/Merge.lean ====
section
/-! DEFINITION. The reduce units, part three (chapter 6): MERGE, group entries, and units that fail. -/

namespace Sys2Proof.Machine

/-! ## MERGE (R157) -/

/-- The inputs a MERGE's table names, as it was read: poisoned entries are none. -/
def mergeInputs (b : MergeBody) (t : Payload) : List (Option Nat) :=
  (List.range b.nin).map fun i =>
    if touched t.poisoned (8 * i) 8 then none else some (leNat ((t.bytes.drop (8 * i)).take 8))

/-- Bytes of one input. -/
def mergeInBytes (b : MergeBody) : Nat := rowsBytes 9 b.nrow (32 * b.dvw)

/-- What is wrong with an input, as STATUS and DETAIL (R157). -/
def State.mergeBad (s : State) (p : Nat) (b : MergeBody) (a : Nat) : Option (Nat × Nat) :=
  if a / 2 ^ 50 != 0 || !inBerth (ref50 a).off (mergeInBytes b) then some (stBadDesc, 0x26)
  else match s.handle p (ref50 a).handle with
    | .notHeld => some (stBadDesc, 0x15)
    | .draining sl => if sl.expired then some (stRevoked, 0) else none
    | .held _ => none

/-- MERGE: the input table is read; a bad entry stops the command at its next chunk boundary (R157). -/
def State.mergeStart (s : State) (c : Cmd) : State :=
  let b := mergeBody c.desc
  match s.boundaryStop c with
  | some x => s.endStopped c x
  | none =>
    if s.drained c.part b.inList.handle then s.finishWith c.cid stRevoked 0
    else match s.view c.part b.inList (8 * b.nin) with
      | .failed => s.finishWith c.cid stTierFail 0
      | .budget => s.finishWith c.cid stBudget 0
      | .wait => s.ask c.part b.inList (8 * b.nin)
      | .ready =>
        match s.spend c (s.nearCost c.part b.inList (8 * b.nin) false) with
        | (s, false) => s
        | (s, true) =>
          let t := s.readSpan c.part b.inList (8 * b.nin)
          let bad := (mergeInputs b t).findSome? fun a => a.bind (s.mergeBad c.part b)
          let s := (s.consume c.part b.inList (8 * b.nin)).updCmd c.cid fun c => { c with stage := .running, inputs := [(0, t)] }
          match bad with
          | some x => s.updCmd c.cid fun c => { c with causes := c.causes ++ [x], stop := c.stop.orElse fun _ => some x }
          | none => s

/-- The rows of chunk `i`: those whose first byte lies in it. -/
def mergeRows (b : MergeBody) (i : Nat) : List Nat :=
  (List.range b.nrow).filter fun r => r * b.dvw * 128 / 4096 == i

/-- The spans of one input that a chunk's rows need: their O and their pairs. -/
def mergeSpans (b : MergeBody) (rows : List Nat) (a : Nat) : List (NearRef × Nat) :=
  let r := ref50 a
  let base := roundup (b.nrow * b.dvw * 128) 64
  match rows.head? with
  | none => []
  | some r0 =>
    let n := rows.length
    [({ r with off := r.off + r0 * b.dvw * 128 }, n * b.dvw * 128), ({ r with off := r.off + base + 8 * r0 }, 8 * n)]

/-- The rows of one input in a chunk; a poisoned table entry makes them poisoned. -/
def State.mergeInput (s : State) (p : Nat) (b : MergeBody) (rows : List Nat) (a : Option Nat) : List Partial :=
  let w := 32 * b.dvw
  match a with
  | none => rows.map fun _ => { Partial.neutral w with poison := true }
  | some a =>
    let r := ref50 a
    let base := roundup (b.nrow * b.dvw * 128) 64
    rows.flatMap fun k =>
      let o := s.readSpan p { r with off := r.off + k * b.dvw * 128 } (b.dvw * 128)
      let ml := s.readSpan p { r with off := r.off + base + 8 * k } 8
      let q := rowsFrom ⟨o.bytes ++ ml.bytes, []⟩ 1 w 0 1
      q.map fun x => if o.poisoned.isEmpty && ml.poisoned.isEmpty then x else { Partial.neutral w with poison := true }

/-- NORM: O ÷ l, and zero where m is −∞ (R157); a quotient that is NaN or infinite makes the row NaN (R111). -/
def normRow (x : Partial) : Partial :=
  if x.poison then x
  else if x.m = f32NegInf then { x with o := x.o.map fun _ => 0 }
  else ({ x with o := x.o.map fun v => f32Div v x.l } : Partial).settle

/-- A MERGE stops at a chunk boundary; its output is undefined once it has begun (R60). -/
def State.mergeStop (s : State) (c : Cmd) (x : Nat × Nat) : State :=
  let b := mergeBody c.desc
  (if c.step = 0 then s else s.undefineRegion c b.outLoc b.oAddr (rowsBytes b.ofmt b.nrow (32 * b.dvw))).endStopped c x

/-- The output of a MERGE is written, once its berth can take it and the fare covers it, and the command ends (R212, R235, R263). -/
def State.mergeEnd (s : State) (c : Cmd) : State :=
  let b := mergeBody c.desc
  let out := rowsBytes b.ofmt b.nrow (32 * b.dvw)
  let rows := if b.norm then c.rows.map normRow else c.rows
  let bad := poisonCount rows
  match if b.outLoc then s.target c (ref50 b.oAddr) out else .ready with
  | .wait t => t
  | .stop s st dt => s.mergeStop c (st, dt)
  | .ready =>
    match s.spend c (if b.outLoc then s.nearCost c.part (ref50 b.oAddr) out true else []) with
    | (s, false) => s
    | (s, true) =>
      let s := s.updCmd c.cid fun c => { c with value := valueDeck (nanCount rows) bad 0 false 0, nan := 0 < nanCount rows }
      let s := if bad = 0 then s else s.addCause c.cid stPoison 0
      s.storeAndFinish c b.outLoc b.oAddr (rowsOut b.ofmt (32 * b.dvw) rows)

/-- One chunk of a MERGE: its rows are merged on a reduce unit by the tree in table order (R151, R154, R157). -/
def State.mergeChunk (s : State) (c : Cmd) : State :=
  let b := mergeBody c.desc
  let stopped (s : State) (x : Nat × Nat) : State := s.mergeStop c x
  match s.boundaryStop c with
  | some x => stopped s x
  | none =>
    if mergeInBytes b ≤ c.step * 4096 then s.mergeEnd c
    else
    let t := Tab.get ⟨[], []⟩ c.inputs 0
    let ins := mergeInputs b t
    let rows := mergeRows b c.step
    let lost := ins.findSome? fun a => a.bind fun a => if s.drained c.part (ref50 a).handle then some (stRevoked, 0) else none
    match lost with
    | some x => stopped s x
    | none =>
      let spans := ins.flatMap fun a => match a with
        | some a => mergeSpans b rows a
        | none => []
      match s.viewAll c.part spans with
      | .failed => stopped s (stTierFail, 0)
      | .budget => stopped s (stBudget, 0)
      | .wait => s.askAll c.part spans
      | .ready =>
        let bytes := (spans.map (·.2)).sum
        let costs := (spans.flatMap fun x => s.nearCost c.part x.1 x.2 false) ++ [(.engine, unitCycles bytes)]
        if (s.reduceUnit c.maxUnits c.step).isNone then s
        else match s.spend c costs with
        | (s, false) => s
        | (s, true) =>
          let parts := ins.map fun a => some (s.mergeInput c.part b rows a)
          let new := treeRows rows.length parts
          let s := (s.consumeAll c.part spans).updCmd c.cid fun c => { c with rows := c.rows ++ new, step := c.step + 1 }
          if (c.step + 1) * 4096 < mergeInBytes b then s
          else match s.cmd c.cid with
            | some c => s.mergeEnd c
            | none => s

/-- MERGE (R157). -/
def execMerge (cid : Nat) (s : State) : Host.Outcome State Fault Refusal :=
  .next (whenUp s fun s =>
    match s.cmd cid with
    | some c => if c.opc == ocMerge && c.stage == .dispatched then (s.mergeStart c).retryHeld else s
    | none => s)

/-- REDUCE_CHUNK_COMPLETE: the next chunk of a collective or a MERGE (R151). -/
def execReduceChunkComplete (job : ReduceJob) (s : State) : Host.Outcome State Fault Refusal :=
  .next (whenUp s fun s =>
    match job with
    | .seq g q => s.seqChunk g q
    | .merge cid =>
      match s.cmd cid with
      | some c => if c.opc == ocMerge && c.stage == .running then (s.mergeChunk c).retryHeld else s
      | none => s)

/-! ## Group entries (R153, R158, R159, Table 6.3) -/

/-- Slot memory of a group in 64 KiB units (R153). -/
def slotUnits (nmemb : Nat) : Nat := (8192 * nmemb + 65535) / 65536

/-- A CHILD's module can be reached: a route to it has a port (R159, R313). -/
def State.childReached (s : State) (m : Member) : Bool := !m.child || !(Tab.get [] s.lp.routes m.id).isEmpty

/-- The entry's multicast group is unset, or of the entry's partition (R159). -/
def State.mcastOk (s : State) (g : Nat) : Bool :=
  let e := Tab.get ⟨0, []⟩ s.sc.groups (s.get RU_GRP_CFG.MCAST g)
  e.ports.isEmpty || e.part == s.groupPart g

/-- The checks of R158 and R159: members valid, CHILD modules reachable, ranges contiguous from the first one's, and on the TOP
exactly 0 to NGLOBAL − 1. -/
def State.membersOk (s : State) (g : Nat) : Bool :=
  let n := s.get RU_GRP_CFG.NMEMB g
  let ms := (List.range n).map (s.member g)
  let lows := (ms.drop 1).zip ms
  1 ≤ n && n ≤ 512 && ms.all (fun m => m.valid && m.glo ≤ m.ghi && (m.child || (m.glo == m.ghi && m.id < 4096)))
    && lows.all (fun x => x.1.glo == x.2.ghi + 1)
    && ms.all s.childReached && s.mcastOk g
    && (!s.isTop g || ((ms.head?.map (·.glo)) == some 0 && (ms.getLast?.map (·.ghi)) == some (s.nglobal g - 1)))

/-- GROUP_ACTIVATE: the checks pass and slot memory is taken, or REFUSED is set (Table 6.3). -/
def State.groupActivate (s : State) (g : Nat) : State :=
  let p := s.groupPart g
  let u := slotUnits (s.get RU_GRP_CFG.NMEMB g)
  let held := s.get RU_PART_CFG.SLOT_HELD p
  if s.get RU_GRP_CFG.STATE g ≠ grpDefining then s
  else if s.membersOk g && held + u ≤ s.get RU_PART_CFG.SLOT_RES p then
    (((s.put RU_GRP_CFG.ACTIVATE g 1).put RU_GRP_CFG.STATE g grpActive).put RU_PART_CFG.SLOT_HELD p (held + u)).put
      RU_GRP_STAT.DONE_SEQ g 65535
  else s.put RU_GRP_CFG.REFUSED g 1

/-- GROUP_ACTIVATE (R158). -/
def execGroupActivate (group : Nat) (s : State) : Host.Outcome State Fault Refusal := .next (whenUp s fun s => s.groupActivate group)

/-- ACTIVATE is cleared (Table 6.3). -/
def State.groupDrain (s : State) (g : Nat) : State :=
  let s := s.put RU_GRP_CFG.ACTIVATE g 0
  if s.get RU_GRP_CFG.STATE g = grpActive then s.put RU_GRP_CFG.STATE g grpDraining else s

/-- GROUP_DRAIN (R159). -/
def execGroupDrain (group : Nat) (s : State) : Host.Outcome State Fault Refusal := .next (whenUp s fun s => s.groupDrain group)

/-- A DRAINING entry with no open sequence returns its slot memory and is FREE (Table 6.3). -/
def State.groupDrainComplete (s : State) (g : Nat) : State :=
  let p := s.groupPart g
  if s.get RU_GRP_CFG.STATE g = grpDraining ∧ !s.co.seqs.any (·.group == g) then
    let s := (s.put RU_GRP_CFG.STATE g grpFree).put RU_PART_CFG.SLOT_HELD p
      (s.get RU_PART_CFG.SLOT_HELD p - slotUnits (s.get RU_GRP_CFG.NMEMB g))
    { s with co := { s.co with gone := s.co.gone.filter (·.1 != g) } }
  else s

/-- GROUP_DRAIN_COMPLETE (R159). -/
def execGroupDrainComplete (group : Nat) (s : State) : Host.Outcome State Fault Refusal :=
  .next (whenUp s fun s => s.groupDrainComplete group)

/-! ## Unit errors (R148, R178, R371) -/

/-- The pieces of a retired filter unit go to the unit that takes its place. -/
def State.moveHeld (s : State) (kind unit : Nat) (heir : Option Nat) : State :=
  if kind ≠ 12 then s
  else { s with fe := { s.fe with cmds := s.fe.cmds.map fun c =>
      { c with held := c.held.filterMap fun u => if u = unit && filterOpcode c.opc then heir else some u } } }

/-- A deck's spare gather unit stands in the place of the unit it replaces (R148). -/
def State.takePlace (s : State) (kind unit : Nat) : State :=
  if kind ≠ 11 then s
  else s.updDeck (if unit < 9 then .a else .b) fun k => { k with spareFor := some (unit % 9) }

/-- A unit of a kind is retired; the spare among `spares` takes its place, or the module is DEGRADED when none is left. -/
def State.retireUnit (s : State) (active spare retired : RegField) (kind unit : Nat) (spares : List Nat) : State :=
  if s.get retired unit = 1 || s.get active unit = 0 then s
  else
    let s := (((s.put active unit 0).put spare unit 0).put retired unit 1).log
      { cause := .unitRetire, subsys := some kind, loc := loc [kind, unit], count := 1 }
    match spares.find? fun u => s.get spare u == 1 with
    | some u => (((s.put spare u 0).put active u 1).moveHeld kind unit (some u)).takePlace kind unit
    | none => (s.moveHeld kind unit none).degrade

/-- REDUCE_UNIT_ERROR: the chunk is run again on another unit, counted; or the unit is retired (R178, Table 6.6). -/
def execReduceUnitError (unit : Nat) (retire : Bool) (s : State) : Host.Outcome State Fault Refusal :=
  .next (whenUp s fun s =>
    if retire then s.retireUnit RU_UNIT_STATUS.ACTIVE RU_UNIT_STATUS.SPARE RU_UNIT_STATUS.RETIRED 13 unit (List.range 9)
    else s.bump RU_UNIT_STATUS.CORRECTED unit 1)

end Sys2Proof.Machine
end

