-- ==== Sys2Proof/Machine/FrontEnd.lean ====
section
/-! DEFINITION. The command front end (chapter 2): contexts, descriptor fetch and validation, dispatch, aborts, timeouts,
completion records and ring failures. -/

namespace Sys2Proof.Machine

/-! ## Commands that leave (R31, R52) -/

/-- Forgets on whose account frames travel. -/
def State.disown (s : State) (o : Owner) : State :=
  let go (x : Sent) : Sent := if x.owner = some o then { x with owner := none } else x
  { s with lk := { s.lk with
      out := s.lk.out.map fun fl => { fl with unacked := fl.unacked.map go },
      waiting := s.lk.waiting.map fun x => if x.2 = some o then (x.1, none) else x } }

/-- A deck without a command's leg, reservation and tiles. -/
def Deck.without (d : Deck) (cid : Nat) : Deck :=
  { d with leg := d.leg.filter (·.cid != cid), waitingLeg := d.waitingLeg.filter (·.cid != cid),
           reserved := d.reserved.filter (· != cid), scratch := d.scratch.filter (·.cid != cid) }

/-- Idle cycles of a reservation are charged to its partition when it ends (R270). HCLK runs at 3/4 of DCLK. -/
def State.endReservation (s : State) (d : DeckId) : State :=
  match (s.deck d).reserved with
  | none => s
  | some cid =>
    let idle := ((s.tb.hclk - (s.deck d).reservedAt) * 4 + 2) / 3
    let s := match s.cmd cid with
      | some c => s.charge c.part (s.ctxGroup c.ctx) (deckRes d) idle
      | none => s
    s.updDeck d fun k => { k with reserved := none }

/-- The reservations made for a command end (R270). -/
def State.endReservations (s : State) (cid : Nat) : State :=
  [DeckId.a, DeckId.b].foldl (fun s d => if (s.deck d).reserved = some cid then s.endReservation d else s) s

/-- A deck without a leg is not BUSY (Table 4.15). -/
def State.syncDecks (s : State) : State :=
  let off (s : State) (i : Nat) : State := (s.put DK_DECK_STATUS.BUSY i 0).put DK_DECK_STATUS.LASHED i 0
  let s := if s.deckA.leg.isNone then off s 0 else s
  if s.deckB.leg.isNone then off s 1 else s

/-- Whatever the module holds for a command goes: reads, deck state, its place at the home and in collectives. -/
def State.purgeCmd (s : State) (cid : Nat) : State :=
  let keepReq (r : HomeReq) : Bool := r != .cmd cid
  let s := ((s.unpark cid).disown (.cmd cid)).endReservations cid
  let reads := s.fe.reads.filter fun r => match r.use with
    | .input c _ => c != cid
    | .copy c _ => c != cid
    | _ => true
  let lines := s.ho.lines.map fun e => (e.1, { e.2 with queue := e.2.queue.filter keepReq })
  let seqs := s.co.seqs.map fun x => { x with members := x.members.map fun m => if m.cid = some cid then { m with cid := none } else m }
  ({ s with fe := { s.fe with reads := reads }, ho := { s.ho with lines := lines }, co := { s.co with seqs := seqs },
            deckA := s.deckA.without cid, deckB := s.deckB.without cid,
            fl := { s.fl with cmds := s.fl.cmds.map fun n => if n.copyCid = some cid then { n with copyCid := none } else n } }
    : State).syncDecks

/-- The tag of no command. -/
def noTag : Nat := 0xFFFFF

/-- CTX_ERROR entries: the first lost tag in TAG, up to three in AUX, as many entries as the tags need (R31, Table 15.6). -/
def State.logLostTags (s : State) (ctx : Nat) (tags : List Nat) : State :=
  let n := max 1 ((tags.length + 3) / 4)
  (List.range n).foldl (fun s i =>
    let t (k : Nat) : Nat := tags.getD (4 * i + k) noTag
    s.log { cause := .ctxError, part := some (s.ctxPart ctx), ctx := ctx, tag := t 0, loc := ctx,
            aux := t 1 + 2 ^ 20 * t 2 + 2 ^ 40 * t 3 }) s

/-- The tag a lost completion record carries: records are the SUB stores of their owner (Tables 2.8 and 11.7). -/
def lostTags (f : Frame) : List Nat :=
  if f.attr.getLsbD 5 then [leNat ((f.data.drop (f.addr.toNat % 64 + 4)).take 4) % 2 ^ 20] else []

/-- A leg of a command runs, or waits to be run again. -/
def State.hasLeg (s : State) (cid : Nat) : Bool :=
  let here (d : Deck) : Bool := d.leg.any (·.cid == cid) || d.waitingLeg.any (·.cid == cid)
  here s.deckA || here s.deckB

/-- A ring failure takes a command: one whose leg runs goes at the leg's end, any other at once; what it was writing holds any
mix of old and new data (R31, R60, R103). -/
def State.loseCmd (s : State) (c : Cmd) : State :=
  let s := if c.opc == ocReduce && c.stage != .finished then s.memberGone c.cid else s
  if c.stage == .running && s.hasLeg c.cid then
    (s.endReservations c.cid).updCmd c.cid fun c =>
      { c with lost := true, causes := c.causes ++ [(stAborted, 0x03)], stop := some (stAborted, 0x03) }
  else ((if c.stage == .running then s.undefineOutputs c else s).purgeCmd c.cid).dropCmd c.cid

/-- A ring failure: the context's commands go without records, and `lost` are the tags of records already written that did not
arrive. A context that has become DISABLED since still shows the failure (R31). ENABLE reads 0 in ERROR (R30). -/
def State.ringFailure (s : State) (ctx cause : Nat) (lost : List Nat) : State :=
  if !(s.ctxState ctx == ctxEnabled || s.ctxState ctx == ctxPaused || s.ctxState ctx == ctxDraining) then
    let s := if s.flag CF_CTX_CTRL.ENABLE ctx && s.ctxState ctx == ctxDisabled then
        ((s.put CF_CTX_CTRL.ENABLE ctx 0).put CF_CTX_STATE.REFUSED ctx 1).put CF_CTX_STATE.ERR_CAUSE ctx cause
      else s
    if lost.isEmpty then s
    else (s.logLostTags ctx (lost.filter (· != noTag))).put CF_CTX_STATE.ERR_CAUSE ctx cause
  else
    let cmds := s.ctxCmds ctx
    let s := s.logLostTags ctx ((lost ++ cmds.map (·.tag)).filter (· != noTag))
    let s := cmds.foldl State.loseCmd s
    let reads := s.fe.reads.filter fun r => match r.use with
      | .descriptors c _ _ => c != ctx
      | _ => true
    let s : State := { s with fe := { s.fe with reads := reads } }
    let s := (s.setCtx ctx { s.ctx ctx with reserved := 0 }).syncSlots ctx
    let s := s.put CF_CTX_STATE.ERR_CAUSE ctx cause
    let s := if s.ctxState ctx = ctxDraining then (s.put CF_CTX_STATE.STATE ctx ctxDisabled).semRelease ctx
      else (s.put CF_CTX_CTRL.ENABLE ctx 0).put CF_CTX_STATE.STATE ctx ctxError
    (cmds.foldl (fun s c => if c.opc == ocReduce then s.closeSeqs (reduceBody c.desc).group 4 else s) s).moveCursors

/-! ## Contexts (R29, R30, R61) -/

/-- The failed check of R30 by its ERR_CAUSE, 0 where all pass. -/
def State.enableCause (s : State) (c : Nat) : Nat :=
  let log2Ok (n : Nat) : Bool := 4 ≤ n && n ≤ 16
  if s.get CF_CTX_SQ.BASE c % 4096 != 0 || s.get CF_CTX_CQ.BASE c % 4096 != 0 then 1
  else if !log2Ok (s.get CF_CTX_SQ.LOG2 c) || !log2Ok (s.get CF_CTX_CQ.LOG2 c) then 2
  else if s.rankId (s.ctxPart c) (s.ctxRank c) = 0 then 3
  else if s.get CF_PART_QUOTA.SLOT_QUOTA (s.ctxPart c) = 0 then 4
  else 0

/-- CONTEXT_ENABLE: the checks of R30, the zero-fill of the completion ring, and ENABLED once it is visible: the row runs again
when the fill is acknowledged (log entry 33). -/
def State.contextEnable (s : State) (c : Nat) : State :=
  let refuse (s : State) : State := s.put CF_CTX_STATE.REFUSED c 1
  if s.ctxState c = ctxDraining ∨ s.ctxState c = ctxError then refuse s
  else if s.ctxState c ≠ ctxDisabled then s
  else if s.flag CF_CTX_CTRL.ENABLE c then
    if s.ownerUnacked (.record c) then s
    else
      let s := ((((s.put CF_CTX_STATE.SQ_HEAD c 0).put CF_CTX_IDX.SQ_TAIL c 0).put CF_CTX_IDX.CQ_HEAD c 0).put
        CF_CTX_STATE.CQ_NEXT c 0).setCtx c Ctx.reset
      s.put CF_CTX_STATE.STATE c (if s.flag CF_CTX_CTRL.PAUSE c then ctxPaused else ctxEnabled)
  else
    let cause := s.enableCause c
    if cause ≠ 0 then (refuse s).put CF_CTX_STATE.ERR_CAUSE c cause
    else
      let p := s.ctxPart c
      let zeros : Payload := ⟨List.replicate (32 * s.cqSize c) 0#8, []⟩
      (s.put CF_CTX_CTRL.ENABLE c 1).originateAll
        (s.storeFrames p c (s.rankId p (s.ctxRank c)) (s.get CF_CTX_CQ.BASE c) zeros) (some (.record c))

/-- CONTEXT_ENABLE (R30). -/
def execContextEnable (ctx : Nat) (s : State) : Host.Outcome State Fault Refusal := .next (whenUp s fun s => s.contextEnable ctx)

/-- Stops the commands of a context (R61). -/
def State.stopContext (s : State) (c : Nat) : State := s.stopAll ((s.ctxCmds c).map (·.cid)) stAborted 0x03

/-- A context that is disabled takes the members of its rank with it, unless another context of its partition has that rank (R173, log
entry 87). -/
def State.memberContext (s : State) (c : Nat) : State :=
  let p := s.ctxPart c
  let rank := s.ctxRank c
  let other := (s.touched CF_CTX_STATE.STATE).any fun d =>
    d != c && s.ctxPart d == p && s.ctxRank d == rank && (s.ctxState d == ctxEnabled || s.ctxState d == ctxPaused)
  if other then s else s.ranksGone (fun q r => q == p && r == rank) stAborted

/-- ENABLE is cleared: DRAINING, or DISABLED from ERROR (Table 2.1, R61). -/
def State.contextDisable (s : State) (c : Nat) : State :=
  let s := s.put CF_CTX_CTRL.ENABLE c 0
  if s.ctxState c = ctxEnabled ∨ s.ctxState c = ctxPaused then ((s.put CF_CTX_STATE.STATE c ctxDraining).stopContext c).memberContext c
  else if s.ctxState c = ctxError then s.put CF_CTX_STATE.STATE c ctxDisabled
  else s

/-- CONTEXT_DISABLE (R61). -/
def execContextDisable (ctx : Nat) (s : State) : Host.Outcome State Fault Refusal := .next (whenUp s fun s => s.contextDisable ctx)

/-- PAUSE is set. -/
def State.contextPause (s : State) (c : Nat) : State :=
  let s := s.put CF_CTX_CTRL.PAUSE c 1
  if s.ctxState c = ctxEnabled then s.put CF_CTX_STATE.STATE c ctxPaused else s

/-- PAUSE is cleared. -/
def State.contextResume (s : State) (c : Nat) : State :=
  let s := s.put CF_CTX_CTRL.PAUSE c 0
  if s.ctxState c = ctxPaused then s.put CF_CTX_STATE.STATE c ctxEnabled else s

/-- CONTEXT_PAUSE (Table 2.1). -/
def execContextPause (ctx : Nat) (s : State) : Host.Outcome State Fault Refusal := .next (whenUp s fun s => s.contextPause ctx)
/-- CONTEXT_RESUME (Table 2.1). -/
def execContextResume (ctx : Nat) (s : State) : Host.Outcome State Fault Refusal := .next (whenUp s fun s => s.contextResume ctx)

/-- CONTEXT_DRAIN_COMPLETE: no command is in flight, so the context is DISABLED and its semaphore entries end (R61, R227). -/
def execContextDrainComplete (ctx : Nat) (s : State) : Host.Outcome State Fault Refusal :=
  .next (whenUp s fun s =>
    if s.ctxState ctx = ctxDraining ∧ s.inflight ctx = 0 then
      (s.put CF_CTX_STATE.STATE ctx ctxDisabled).semRelease ctx
    else s)

/-! ## Fetch (R34, R36, R47) -/

/-- Completion-ring entries that are neither reserved nor unconsumed (R47). -/
def State.cqFree (s : State) (c : Nat) : Nat := s.cqSize c - s.inflight c - (s.ctx c).unconsumed

/-- How many descriptors the next read of a context may bring (R36, R47). -/
def State.fetchable (s : State) (c : Nat) : Nat :=
  let p := s.ctxPart c
  let n := s.sqSize c
  let head := s.get CF_CTX_STATE.SQ_HEAD c
  let pending := (s.get CF_CTX_IDX.SQ_TAIL c + n - head) % n
  [s.fetchMax c, pending, n - head, s.maxInflight c - s.inflight c, s.get CF_PART_QUOTA.SLOT_QUOTA p - s.slotsHeld p,
    16384 - s.slotsUsed, s.cqFree c].foldl min 64

/-- Contexts of a partition that could be read now, ascending (R36, R47). -/
def State.fetchers (s : State) (p : Nat) : List Nat :=
  ((s.touched CF_CTX_STATE.STATE).filter fun c => s.ctxState c == ctxEnabled).filter
    fun c => s.ctxPart c == p && (s.ctx c).reserved == 0 && s.fetchable c != 0

/-- It is a context's turn among those of its partition: the next one after the context last served (R36). -/
def State.fetchTurn (s : State) (c : Nat) : Bool :=
  let p := s.ctxPart c
  let last := Tab.get 0 s.fe.turn p
  let cs := s.fetchers p
  match cs.find? (last ≤ ·) with
  | some d => c == d
  | none => cs.head? == some c

/-- Every fetch renews the ACTIVE moorings of its context, and its holder entries (R192, R227). -/
def State.renewMoorings (s : State) (c : Nat) : State :=
  let go (e : Nat × Slot) : Nat × Slot :=
    if e.2.state = .moored && e.2.mooring = .active && e.2.mctx == c && e.1 / 32768 == s.ctxPart c then
      (e.1, { e.2 with renewed := s.tb.hclk }) else e
  ({ s with pm := { s.pm with slots := s.pm.slots.map go } } : State).renewSems c

/-- SEQ up to which the landing stage has accepted the owner's stores (R208). -/
def State.acceptedSeq (s : State) (c : Nat) : Option Nat :=
  (s.flowIn ⟨s.rankId (s.ctxPart c) (s.ctxRank c), s.modId, vcBulk⟩).bind fun fl => if fl.start.isSome then some fl.passed else none

/-- DESCRIPTOR_FETCH: one read of a context's submission ring, when it is the context's turn in its partition (R36, R47). -/
def State.descriptorFetch (s : State) (c : Nat) : State :=
  let p := s.ctxPart c
  let k := s.fetchable c
  if s.ctxState c != ctxEnabled || !s.live p || (s.ctx c).reserved != 0 || k == 0 || !s.fetchTurn c then s
  else
    let s := { s with fe := { s.fe with turn := Tab.set 0 s.fe.turn p (c + 1) } }
    let ep := s.rankId p (s.ctxRank c)
    if ep = 0 then s.ringFailure c 7 []
    else
      let head := s.get CF_CTX_STATE.SQ_HEAD c
      let mark := s.acceptedSeq c
      let r := (s.renewMoorings c).newRead (.descriptors c head k) p (64 * k)
      let s := { r.2 with fe := { r.2.fe with reads := replaceFirst (·.rid == r.1) (fun x => { x with mark := mark }) r.2.fe.reads } }
      let s := (s.setCtx c { s.ctx c with reserved := k }).syncSlots c
      s.sendLd r.1 p ep c (s.get CF_CTX_SQ.BASE c + 64 * head) (64 * k)

/-- DESCRIPTOR_FETCH (R36). -/
def execDescriptorFetch (ctx : Nat) (s : State) : Host.Outcome State Fault Refusal := .next (whenUp s fun s => s.descriptorFetch ctx)

/-! ## Validation (Table 2.12) -/

/-- How a descriptor leaves validation. -/
inductive Verdict where
  | pass
  /-- check 8 waits for GRACE of a mooring to be decided (R193) -/
  | hold
  | fail (status detail : Nat)
  deriving DecidableEq, Repr

/-- The lowest DETAIL among the conditions of check 11 that hold. -/
def lowestFail (l : List (Bool × Nat × Nat)) : Option (Nat × Nat) :=
  (l.filter (·.1)).foldl (fun a x => match a with
    | some y => if x.2.2 < y.2 then some x.2 else some y
    | none => some x.2) none

/-- A named slot is in GRACE and the descriptor was fetched at or after the lease's end (R193). -/
def State.inGrace (s : State) (p h issued : Nat) : Bool :=
  match s.handle p h with
  | .held sl => sl.mooring == .grace && sl.graceAt ≤ issued
  | _ => false

/-- Checks 8 to 12. -/
def State.checksFrom8 (s : State) (ctx p issued : Nat) (d : Desc) : Verdict :=
  let k := s.bodyChecks ctx p d
  let hs := k.handles
  if hs.any (fun h => match s.handle p h with
      | .draining _ => true
      | _ => false) then .fail stRevoked 0
  else if hs.any fun h => s.inGrace p h issued then .hold
  else if !k.aligned then .fail stBadDesc 0x16
  else if k.ranks.any fun r => s.rankId p r == 0 then .fail stBadDesc 0x17
  else match lowestFail (k.fails ++ [(k.writes.any (s.writeRefused p), stNotOwner, 0)]) with
    | some x => .fail x.1 x.2
    | none => if s.zeroFare p (s.neededOf ctx p d) then .fail stBudget 0 else .pass

/-- A valid TAG that no command of the context in flight has (R42). -/
def State.tagFree (s : State) (ctx tag : Nat) : Bool := tag != noTag && !(s.ctxCmds ctx).any (·.tag == tag)

/-- CHAIN_TAG resolves to a command in flight, or to the status of a completed one (R44). -/
def State.chainOf (s : State) (ctx tag : Nat) : Option (Nat ⊕ Nat) :=
  match if tag = noTag then none else (s.ctxCmds ctx).find? (·.tag == tag) with
  | some c => some (.inl c.cid)
  | none => ((s.ctx ctx).history.find? (·.1 == tag)).map fun h => .inr h.2

/-- Checks 2 to 12 (R63). -/
def State.verdict (s : State) (ctx p issued : Nat) (d : Desc) : Verdict :=
  let chain := dflag d 0 8
  let ctag := dbits d 0 36 20
  if !knownOpcode (dbits d 0 0 8) then .fail stBadDesc 0x10
  else if dbits d 0 12 4 != 0 || dbits d 0 56 8 != 0 then .fail stBadDesc 0x11
  else if !chain && (ctag != 0 || dflag d 0 9) then .fail stBadDesc 0x12
  else if !s.tagFree ctx (dbits d 0 16 20) then .fail stBadDesc 0x13
  else if chain && (s.chainOf ctx ctag).isNone then .fail stBadDesc 0x14
  else
    let k := s.bodyChecks ctx p d
    if !k.zeros then .fail stBadDesc 0x11
    else if k.handles.any fun h => (s.heldSlot p h).isNone then .fail stBadDesc 0x15
    else s.checksFrom8 ctx p issued d

/-- SEQ the flush of a FENCE or PUBLISH must reach (R207, R208, R211). -/
def flushOf (d : Desc) (mark : Option Nat) : Option Nat :=
  let at_ := if dbits d 0 0 8 = ocFence then 8 else 32
  if dbits d 0 0 8 = ocFence ∨ dbits d 0 0 8 = ocPublish then
    if dflag d at_ 24 then some (dbits d at_ 0 24) else mark
  else none

/-- Counts refused writes of a descriptor that check 11 refuses for them (R248, R394). -/
def State.countWrites (s : State) (p : Nat) (d : Desc) (ctx : Nat) : State :=
  (s.bodyChecks ctx p d).writes.foldl (fun s w => s.countSealed p w) s

/-- Enters a command. -/
def State.addCmd (s : State) (c : Cmd) : State := { s with fe := { s.fe with cmds := s.fe.cmds ++ [c] } }

/-- One descriptor of a read: it is validated and enters the module's slots; one that fails a check, was read poisoned, or
was covered by a read issued before the context stopped ends at once (R61, R63). -/
def State.takeDescriptor (s : State) (ctx issued : Nat) (mark : Option Nat) (d : Desc) (poisoned : Bool) : State :=
  let p := s.ctxPart ctx
  let cid := freeCid s.fe.cmds 16384 0
  let opc := dbits d 0 0 8
  let tag := dbits d 0 16 20
  let shown := if s.tagFree ctx tag then tag else noTag
  let base := newCmd cid ctx p shown opc d issued
  let bad (s : State) (c : Cmd) (status detail : Nat) : State :=
    let c := { c with stage := .finished, causes := [(status, detail)], bad := true }
    let s := s.addCmd c
    let s := if status = stRevoked then s.bump PM_PART_ERR.REVOKED p 1 else s
    ((s.memberOf c).map fun i => s.loseMember c i).getD s
  let base := if poisoned then { base with tag := noTag, opc := 0 } else base
  if s.ctxState ctx = ctxDraining then bad s base stAborted 0x03
  else if poisoned then bad s base stPoison 0x01
  else if s.contained p then bad s base stContained 0
  else
    let chain := if dflag d 0 8 then s.chainOf ctx (dbits d 0 36 20) else none
    let barrier := if dflag d 0 11 then (s.ctxCmds ctx).map (·.cid) else []
    let k := s.bodyChecks ctx p d
    let c := { base with
      chainOn := chain.bind fun x => match x with
        | .inl i => some i
        | .inr _ => none,
      chainRes := chain.bind fun x => match x with
        | .inl _ => none
        | .inr r => some r,
      barrier := barrier, flushTo := flushOf d mark, berths := k.handles }
    match s.verdict ctx p issued d with
    | .pass => s.addCmd c
    | .hold => s.addCmd { c with stage := .held }
    | .fail st dt =>
      let s := if st = stNotOwner && k.writes.any (s.writeRefused p) then s.countWrites p d ctx else s
      bad s c st dt

/-- The verdict on a descriptor held at check 8, once GRACE is decided (R193). -/
def State.recheckHeld (s : State) : State :=
  (s.fe.cmds.filter (·.stage == .held)).foldl (fun s c =>
    match s.checksFrom8 c.ctx c.part c.fetched c.desc with
    | .hold => s
    | .pass => s.updCmd c.cid fun c => { c with stage := .waiting }
    | .fail st dt =>
      let s := (s.addCause c.cid st dt).updCmd c.cid fun c => { c with stage := .finished, bad := true }
      ((s.memberOf c).map fun i => s.loseMember c i).getD s) s

/-- A renewal fetched before a lease's end returns the mooring from GRACE to ACTIVE (R193). -/
def State.graceRenewed (s : State) (ctx issued : Nat) : State :=
  let p := s.ctxPart ctx
  let hit (e : Nat × Slot) : Bool :=
    e.2.state = .moored && e.2.mooring = .grace && e.2.mctx == ctx && e.1 / 32768 == p && issued < e.2.graceAt
  let slots := s.pm.slots.map fun e => if hit e then (e.1, { e.2 with mooring := .active, renewed := issued }) else e
  if s.pm.slots.any hit then ({ s with pm := { s.pm with slots := slots } } : State).recheckHeld else s

/-- The descriptor in bytes. -/
def descOf (bs : List Byte) : Desc := BitVec.ofNat 512 (leNat (bs.take 64))

/-- A descriptor read returns: each of its descriptors is fetched, in ring order (R36). -/
def State.descriptorsArrive (s : State) (r : ReadReq) (ctx first n : Nat) (p : Payload) (allBad : Bool) : State :=
  let s := (s.setCtx ctx { s.ctx ctx with reserved := 0 }).put CF_CTX_STATE.SQ_HEAD ctx ((first + n) % s.sqSize ctx)
  let s := s.graceRenewed ctx r.issued
  ((List.range n).foldl (fun s i =>
    s.takeDescriptor ctx r.issued r.mark (descOf (p.bytes.drop (64 * i))) (allBad || p.poisoned.contains i)) s).syncSlots ctx

/-! ## LD_DATA (R294, R321) -/

/-- Sends a read again with the current epoch (R321). -/
def State.dropRead (s : State) (rid : Nat) : State := { s with fe := { s.fe with reads := s.fe.reads.filter (·.rid != rid) } }

/-- Gives a command a piece of what it reads. -/
def State.giveInput (s : State) (cid i : Nat) (p : Payload) : State :=
  s.updCmd cid fun c => { c with inputs := Tab.put c.inputs i p }

/-- A read has failed for good: a descriptor read fails its ring, a command ends at its boundary, a fill fails (R31, R240,
R303, R321). -/
def State.readFailed (s : State) (r : ReadReq) (status : Nat) : State :=
  let s := s.dropRead r.rid
  match r.use with
  | .descriptors ctx _ _ => s.ringFailure ctx (if status = stEpochRetired then 7 else 5) []
  | .input cid _ => s.stopAny cid status 0
  | .copy cid _ => s.stopAny cid status 0
  | .late _ => s
  | .trayShard fid _ => ((s.fillFailed fid).retryHeld).moveCursors.settleStalls

/-- The retained LD of a read: its flow, SEQ and destination. -/
def State.sentRead (s : State) (rid : Nat) : Option (FlowId × Nat) :=
  s.lk.out.findSome? fun fl => (fl.unacked.find? fun x => x.owner == some (.read rid)).map fun x => (fl.id, x.frame.seq.toNat)

/-- LD_DATA: what the read was for gets its data. EPOCH_RETIRED fails a ring access; a command's read is sent again as after a
NACK while its rank still maps; PATH_FATAL is path exhaustion; any other status counts as poisoned data, and fails a fill
(R31, R240, R294, R303, R321, R323). -/
def State.ldData (s : State) (rid status : Nat) (p : Payload) : State :=
  match s.fe.reads.find? (·.rid == rid) with
  | none => s
  | some r =>
    if status = stPathFatal then s.readFailed r stPathFatal
    else if status = stEpochRetired then
      match r.use, s.sentRead rid with
      | .input _ _, some x => if (s.rankOf r.part slotCurrent x.1.dst).isSome then s.nacked x.1 x.2 else s.readFailed r status
      | .copy _ _, some x => if (s.rankOf r.part slotCurrent x.1.dst).isSome then s.nacked x.1 x.2 else s.readFailed r status
      | _, _ => s.readFailed r status
    else
      let s := s.dropRead rid
      let full : Payload := if status = stOk then p else ⟨List.replicate r.len 0#8, List.range ((r.len + 63) / 64)⟩
      match r.use with
      | .descriptors ctx first n => s.descriptorsArrive r ctx first n full (status != stOk)
      | .input cid i => s.giveInput cid i full
      | .copy cid i => s.giveInput cid i full
      | .late g => s.bump RU_GRP_STAT.LATE g 1
      | .trayShard fid j => (if status = stOk then s.shardArrived fid j p else s.fillFailed fid).retryHeld.moveCursors.settleStalls

/-- LD_DATA (R294). -/
def execLdData (rid status : Nat) (p : Payload) (s : State) : Host.Outcome State Fault Refusal :=
  .next (whenUp s fun s => s.ldData rid status p)

/-! ## Dispatch (R43 to R46, R50, R160, R274) -/

/-- CHAIN failed (R45). -/
def Cmd.chainFailed (c : Cmd) : Bool :=
  match c.chainRes with
  | some st => st != stOk && !c.chainAny
  | none => false

/-- Every dependency is met. -/
def Cmd.depsMet (c : Cmd) : Bool := c.chainOn.isNone && !c.chainFailed && c.barrier.isEmpty

/-- The deck a command's descriptor names: 0 deck A, 1 deck B, 2 lashed (R98). -/
def State.placeNamed (s : State) (c : Cmd) : Option Nat :=
  let lash := if c.opc = ocMatmul then (matmulBody c.desc).lash
    else if c.opc = ocSearch then (searchBody c.desc).lash else (crossBody c.desc).lash
  if !deckOpcode c.opc then none
  else if lash then some 2
  else
    let h := if c.opc = ocScore then some (ref44 (crossBody c.desc).sumRaw).handle
      else if c.opc = ocMatmul then some (matmulBody c.desc).w.handle else none
    (h.bind (s.kindOf c.part)).bind fun k => if k = kindDeckA then some 0 else if k = kindDeckB then some 1 else none

/-- Deck commands of a context on a deck or lashed, dispatched and not complete (R274). -/
def State.liveQueues (s : State) (ctx deck : Nat) : Nat :=
  ((s.ctxCmds ctx).filter fun c => deckOpcode c.opc && c.stage != .waiting && c.stage != .held
    && (c.place == some deck || c.place == some 2)).length

/-- A place has room for one more live queue of a context. -/
def State.liveRoom (s : State) (ctx : Nat) (place : Option Nat) : Bool :=
  match place with
  | some 2 => s.liveQueues ctx 0 < 16 && s.liveQueues ctx 1 < 16
  | some d => s.liveQueues ctx d < 16
  | none => true

/-- The sequence gate of R160 is open. -/
def State.gateOpen160 (s : State) (c : Cmd) : Bool :=
  let b := reduceBody c.desc
  c.opc != ocReduce || s.seqDistance b.group b.seq ≤ 3

/-- FEED_AHEAD of a partition's gather profile (Table 5.11). -/
def State.feedAhead (s : State) (p : Nat) : Nat :=
  match s.get GU_PART_CFG.PROFILE p with
  | 0 => s.get GU_PART_CFG.FEED_AHEAD p
  | 2 => 16
  | _ => 8

/-- COMMAND_DISPATCH: a command whose dependencies, gates and limits are met goes to its engine or leaves for the home; fares
are judged (R43 to R46, R50, R59, R160, R274). -/
def State.dispatchCmd (s : State) (c : Cmd) : State :=
  if c.chainFailed then s.stopAny c.cid stAborted 0x02
  else if !c.depsMet then s
  else if c.berths.any (fun h => match s.handle c.part h with
      | .notHeld => true
      | .draining _ => true
      | .held _ => false) then s.stopAny c.cid stRevoked 0
  else if c.opc == ocReduce && s.get RU_GRP_CFG.STATE (reduceBody c.desc).group != grpActive
      && (s.seqOf (reduceBody c.desc).group (reduceBody c.desc).seq).isNone then s.finishWith c.cid stBadDesc 0x21
  else if c.opc == ocReduce && 32768 ≤ s.seqDistance (reduceBody c.desc).group (reduceBody c.desc).seq then
    s.finishWith c.cid stBadDesc 0x27
  else if !s.gateOpen160 c then s
  else
    let place := (s.placeNamed c).orElse fun _ => c.place
    if !s.liveRoom c.ctx place then s
    else if s.zeroFare c.part (s.neededOf c.ctx c.part c.desc) then s.stopAny c.cid stBudget 0
    else
      let s := s.updCmd c.cid fun c => { c with place := place, order := s.fe.dispatches, ahead := s.feedAhead c.part, maxUnits := s.maxUnits c.part c.opc,
                                                stage := if homeOpcode c.opc then .atHome else .dispatched }
      { s with fe := { s.fe with dispatches := s.fe.dispatches + 1 } }

/-- COMMAND_DISPATCH (R43). -/
def execCommandDispatch (cid : Nat) (s : State) : Host.Outcome State Fault Refusal :=
  .next (whenUp s fun s =>
    match s.cmd cid with
    | some c => if c.stage = .waiting then s.dispatchCmd c else s
    | none => s)

/-- NOP: it completes OK once its dependencies allow (R43). -/
def execNop (cid : Nat) (s : State) : Host.Outcome State Fault Refusal :=
  .next (whenUp s fun s =>
    match s.cmd cid with
    | some c =>
      if c.opc != ocNop || !(c.stage == .waiting || c.stage == .dispatched) then s
      else if c.chainFailed then s.finishWith cid stAborted 0x02
      else if c.depsMet then s.finish cid else s
    | none => s)

/-! ## ABORT and timeouts (R49, R58 to R61) -/

/-- TARGET_TAG. -/
def abortTarget (d : Desc) : Nat := dbits d 8 0 20

/-- The target's commit has not happened (R59). -/
def beforeCommit (c : Cmd) : Bool :=
  match c.stage with
  | .waiting => true
  | .held => true
  | .dispatched => true
  | .running => true
  | .finished => !c.bad && !homeOpcode c.opc
  | _ => false

/-- ABORT acts on the earlier command it names: the target is aborted before its commit, or the ABORT is too late, as it always is for a
HANDOFF (R58, R59, R230, log entry 91). -/
def State.abortCmd (s : State) (c : Cmd) : State :=
  let t := abortTarget c.desc
  match ((s.ctxCmds c.ctx).takeWhile (·.cid != c.cid)).find? fun x => x.tag == t && t != noTag with
  | some x =>
    if beforeCommit x && x.opc != ocHandoff then (s.stopAny x.cid stAborted 0x01).finish c.cid
    else (s.addCause c.cid stAbortTooLate 0).finishValue c.cid 1
  | none =>
    let known := t != noTag && (s.ctx c.ctx).history.any (·.1 == t)
    (s.addCause c.cid stAbortTooLate 0).finishValue c.cid (if known then 1 else 0)

/-- ABORT (R59): it waits for neither CHAIN nor BARRIER unless its own header sets them (R58). -/
def execAbort (cid : Nat) (s : State) : Host.Outcome State Fault Refusal :=
  .next (whenUp s fun s =>
    match s.cmd cid with
    | some c =>
      if c.opc != ocAbort || !(c.stage == .waiting || c.stage == .dispatched) then s
      else if c.chainFailed then s.finishWith cid stAborted 0x02
      else if c.depsMet then s.abortCmd c else s
    | none => s)

/-- COMMAND_TIMEOUT: a running command stops at its next boundary; a flush that waits, and a request the home has not applied, end
TIMEOUT; ACQUIRE and WAIT are exempt (R49, R59, R208). -/
def execCommandTimeout (cid : Nat) (s : State) : Host.Outcome State Fault Refusal :=
  .next (whenUp s fun s =>
    match s.cmd cid with
    | some c =>
      if c.stage == .dispatched || c.stage == .running then s.stopAny cid stTimeout 0
      else if c.stage == .atHome && c.opc != ocAcquire && c.opc != ocWait then
        let lines := s.ho.lines.map fun e => (e.1, { e.2 with queue := e.2.queue.filter (· != .cmd cid) })
        ({ s with ho := { s.ho with lines := lines } } : State).answerCmd cid stTimeout 0 0
      else s
    | none => s)

/-! ## RECORD_COMMIT (R52 to R57) -/

/-- STATUS and DETAIL of a record: the first cause of R62, or what the failed check gave (R63). -/
def recordCause (c : Cmd) : Nat × Nat := if c.bad then c.causes.headD (stOk, 0) else topCause c.causes

/-- The notify write: 8 bytes to NOTIFY_ADDR (R56). -/
def State.notifyWrite (s : State) (ctx ep index : Nat) : State :=
  let v := leBytes 8 (index + 65536 * s.get CF_CTX_CTRL.GEN ctx)
  s.originate (s.subFrame (s.ctxPart ctx) ctx ep (s.get CF_CTX_NOTIFY.NOTIFY_ADDR ctx) v) (some (.notify ctx))

/-- A command's record is written and the command leaves (R25, R52, R53, R56, R44, R212). A record without a readable tag is not among the
1,024 the context remembers: no CHAIN or ABORT can name it (log entry 92, DESIGN CHOICE). -/
def State.commitCmd (s : State) (c : Cmd) : State :=
  let ctx := c.ctx
  let ep := s.rankId c.part (s.ctxRank ctx)
  if s.ownerUnacked (.cmd c.cid) || s.ownerUnacked (.record ctx) || s.storesAtHome c.part then s
  else if ep = 0 then s.ringFailure ctx 7 []
  else
    let r := recordCause c
    let x := s.ctx ctx
    let n := s.cqSize ctx
    let i := s.get CF_CTX_STATE.CQ_NEXT ctx
    let bs := recordBytes r.1 c.nan c.audited r.2 (1 - x.pass % 2) c.tag c.opc (s.get CF_CTX_STATE.SQ_HEAD ctx) ctx c.value
      s.tb.ns c.legs
    let s := s.originate (s.subFrame c.part ctx ep (s.get CF_CTX_CQ.BASE ctx + 32 * i) bs) (some (.record ctx))
    let s := if c.notify && s.flag CF_CTX_NOTIFY.NOTIFY_EN ctx then s.notifyWrite ctx ep ((i + 1) % n) else s
    let s := s.put CF_CTX_STATE.CQ_NEXT ctx ((i + 1) % n)
    let history := if c.tag = noTag then x.history else ((c.tag, r.1) :: x.history).take 1024
    let s := s.setCtx ctx { x with unconsumed := x.unconsumed + 1, pass := if i + 1 = n then x.pass + 1 else x.pass,
                                   history := history }
    let s := if r.1 = stTierFail then s.bump TE_PART_STALL.TIER_FAIL c.part 1 else s
    let s := (((s.tellWaiters c.cid r.1).purgeCmd c.cid).dropCmd c.cid)
    (if c.opc = ocReduce then s.closeSeqs (reduceBody c.desc).group 4 else s).moveCursors

/-- RECORD_COMMIT: the result is visible, so the status is decided and the record written (R52). -/
def execRecordCommit (cid : Nat) (s : State) : Host.Outcome State Fault Refusal :=
  .next (whenUp s fun s =>
    match s.cmd cid with
    | some c => if c.stage = .finished then s.commitCmd c else s
    | none => s)

end Sys2Proof.Machine
end

