-- ==== Sys2Proof/Machine/Append.lean ====
section
/-! DEFINITION. APPEND (chapter 3): rows of new tokens into KV tiles, summaries and lading-list entries, one head at a time. -/

namespace Sys2Proof.Machine

/-! ## Summaries (R76, R77) -/

/-- The decoded K rows 0 to n − 1 of a tile, and whether a sector of them is poisoned. -/
def State.tileRows (s : State) (p : Nat) (k : NearRef) (fmt d n : Nat) : List (List Num) × Bool :=
  let rb := rowBytes fmt d
  let es := s.readSpan p k (n * rb)
  let sc : Payload := if isScaled fmt then s.readSpan p { k with off := k.off + scalePlane fmt d } (n * (d / 32)) else ⟨[], []⟩
  ((List.range n).map fun t =>
      decodeRow fmt d ((es.bytes.drop (t * rb)).take rb) ((sc.bytes.drop (t * (d / 32))).take (d / 32)) Num.product,
    !es.poisoned.isEmpty || !sc.poisoned.isEmpty)

/-- The FP16 mean of a column, in ascending token order (R77 step 2). A decoded element beyond FP32's range enters the sum as an
FP32 infinity, so opposite ones make the mean NaN (DESIGN CHOICE, log entry 98). -/
def columnMean (col : List Num) : Nat :=
  let sum := col.foldl (fun (a : F32) v => f32Add a (toF32 v)) 0
  toF16Sat (numDiv (ofF32 sum) (.fin false col.length 0))

/-- The FP32 norm of a row less the means (R77 step 3). -/
def rowNorm (row means : List Num) : F32 :=
  let ds := List.zipWith (fun v m => ofF32 (toF32 (numAdd v (numNeg m)))) row means
  f32Sqrt (cellDot ds ds)

/-- Means and spread as FP16 bits; all NaN where a decoded value is (R77), of which the bits are 0x7E00 (DESIGN CHOICE, log entry
98: the section gives no pattern). -/
def summaryValues (d : Nat) (rows : List (List Num)) : List Nat × Nat :=
  if rows.any fun r => r.any Num.special then (List.replicate d 0x7E00, 0x7E00)
  else
    let means := (List.range d).map fun j => columnMean (rows.map fun r => r.getD j .zero)
    let mv := means.map (decodeIeee 5 10)
    let norms := rows.map fun r => rowNorm r mv
    (means, if norms.any isNaN32 then 0x7E00 else toF16Up (ofF32 (norms.foldl f32Max 0)))

/-- The bytes of a summary (R76). -/
def summaryPlane (d : Nat) (v : List Nat × Nat) : List Byte :=
  let bs := v.1.flatMap (leBytes 2) ++ leBytes 2 v.2
  bs ++ List.replicate (summaryBytes d - bs.length) 0

/-! ## Rows and entries (R88 to R91) -/

/-- A region marked poisoned: every sector that holds any of `n` bytes from `off`. -/
def poisonedRegion (off n : Nat) : Payload :=
  { bytes := List.replicate n 0, poisoned := List.range ((off % 64 + n + 63) / 64) }

/-- Element and scale bytes of a destination row from its source row (R88, R89). -/
def appendConvert (b : AppendBody) (src : List Byte) : List Byte × List Byte :=
  if b.sfmt = b.dfmt then (src.take (rowBytes b.dfmt b.d), src.drop (rowBytes b.dfmt b.d))
  else quantRow b.dfmt b.d (decodeRow b.sfmt b.d src [] id)

/-- Writes row `r` of a tile, or marks its sectors (R72, R91). -/
def State.writeRow (s : State) (p : Nat) (tile : NearRef) (b : AppendBody) (r : Nat) (src : List Byte) (bad : Bool) : State :=
  let x := appendConvert b src
  let eo := tile.off + r * rowBytes b.dfmt b.d
  let so := tile.off + scalePlane b.dfmt b.d + r * b.dw
  let s := s.writeSpan p { tile with off := eo } (if bad then poisonedRegion eo (rowBytes b.dfmt b.d) else ⟨x.1, []⟩)
  if isScaled b.dfmt then
    s.writeSpan p { tile with off := so } (if bad then poisonedRegion so b.dw else ⟨x.2, []⟩)
  else s

/-- The 16 bytes of an entry (Table 3.4). -/
def entryBytes (k v : NearRef) (fmt ntok : Nat) (sumv : Bool) (doc : Nat) : List Byte :=
  let a (r : NearRef) : Nat := r.handle * 2 ^ 18 + r.off / 256
  leBytes 16 (a k + 2 ^ 42 * a v + 2 ^ 84 * fmt + 2 ^ 88 * ntok + (if sumv then 2 ^ 95 else 0) + 2 ^ 96 * doc)

/-- The K rows a summary of head `h` reads. -/
def AppendBody.kSpans (b : AppendBody) (h : Nat) : List (NearRef × Nat) :=
  if b.sums then [(b.kTile h, b.filled * rowBytes b.dfmt b.d)]
      ++ if isScaled b.dfmt then [({ b.kTile h with off := (b.kTile h).off + scalePlane b.dfmt b.d }, b.filled * b.dw)] else []
  else []

/-- The command is over: POISON where anything it wrote is marked (R91). -/
def State.appendEnd (s : State) (c : Cmd) : State :=
  if c.poisonRows = 0 then s.finish c.cid else s.finishWith c.cid stPoison 0

/-- An APPEND that stops leaves its rows and summaries undefined (R60); entries stay old or new (R90). -/
def State.appendStop (s : State) (c : Cmd) (x : Nat × Nat) : State :=
  (if c.step = 0 then s else s.undefineOutputs c).endStopped c x

/-- Writes head `h`: rows, then the summary, then the entry in one write (R89 to R91). -/
def State.appendHead (s : State) (c : Cmd) (b : AppendBody) (src : Payload) (h : Nat) : State :=
  let bad (t w : Nat) : Bool := Sys2Proof.Machine.touched src.poisoned (b.sourceRow t h w) (appendRow b)
  let rowOf (t w : Nat) : List Byte := (src.bytes.drop (b.sourceRow t h w)).take (appendRow b)
  let s := (List.range b.ntok).foldl (fun s t =>
    let s := s.writeRow c.part (b.kTile h) b (b.row0 + t) (rowOf t 0) (bad t 0)
    if b.shared then s else s.writeRow c.part (b.vTile h) b (b.row0 + t) (rowOf t 1) (bad t 1)) s
  if (List.range b.ntok).any fun t => bad t 0 || (!b.shared && bad t 1) then
    s.updCmd c.cid fun c => { c with step := h + 1, poisonRows := c.poisonRows + 1 }
  else
    let rows := if b.sums then s.tileRows c.part (b.kTile h) b.dfmt b.d b.filled else ([], false)
    let s := if b.sums then
        s.writeSpan c.part (b.sumOf h) (if rows.2 then poisonedRegion (b.sumOf h).off (summaryBytes b.d)
          else ⟨summaryPlane b.d (summaryValues b.d rows.1), []⟩)
      else s
    let s := if b.listEn then
        s.writeSpan c.part (b.entryOf h) ⟨entryBytes (b.kTile h) (b.vTile h) b.dfmt b.filled b.sums b.docTag, []⟩
      else s
    s.updCmd c.cid fun c => { c with step := h + 1, poisonRows := c.poisonRows + (if rows.2 then 1 else 0),
                                     value := c.value + (if b.sums && b.listEn then 1 else 0) }

/-- APPEND: the source is read whole, then each head is written once its blocks and its fares allow; it ends with its last
head. -/
def State.appendStep (s : State) (c : Cmd) : State :=
  let b := appendBody c.desc
  let h := c.step
  let handles := (appendChecks c.desc).handles
  match s.boundaryStop c with
  | some x => s.appendStop c x
  | none =>
    let s := s.updCmd c.cid fun c => { c with stage := .running }
    if handles.any fun x => s.drained c.part x then s.appendStop c (stRevoked, 0)
    else if !inputReady c 0 b.src (appendSource b) then
      match s.askInput c 0 b.src (appendSource b) 64 with
      | some s => s
      | none => s.retired c.cid
    else if (b.spans h).any fun w => s.writeBarred c.part (w.1.handle, w.1.off, w.2) then
      ((b.spans h).foldl (fun s w => s.countSealed c.part (w.1.handle, w.1.off, w.2)) s).appendStop c (stNotOwner, 0)
    else
      let key (r : NearRef) : Nat := slotKey c.part (handleSlot r.handle)
      let vs := (b.spans h).map fun w => s.storable (key w.1) w.1.off w.2
      let v := s.viewAll c.part (b.kSpans h)
      if vs.contains .failed || v == .failed then s.appendStop c (stTierFail, 0)
      else if vs.contains .budget || v == .budget then s.appendStop c (stBudget, 0)
      else if vs.contains .wait || v == .wait then
        ((b.spans h).foldl (fun s w => s.askStore (key w.1) w.1.off w.2) s).askAll c.part (b.kSpans h)
      else
        let cost := (b.spans h).flatMap (fun w => s.nearCost c.part w.1 w.2 true)
          ++ (b.kSpans h).flatMap (fun w => s.nearCost c.part w.1 w.2 false)
        match s.spend c cost with
        | (s, false) => s
        | (s, true) =>
          let s := s.appendHead c b (inputPayload c 0 b.src (appendSource b)) h
          if h + 1 = b.nhead then s.appendEnd ((s.cmd c.cid).getD c) else s

/-- APPEND (R89). -/
def execAppend (cid : Nat) (s : State) : Host.Outcome State Fault Refusal :=
  .next (whenUp s fun s =>
    match s.cmd cid with
    | some c => if c.opc == ocAppend && (c.stage == .dispatched || c.stage == .running) then (s.appendStep c).retryHeld else s
    | none => s)

end Sys2Proof.Machine
end

