-- ==== Sys2Proof/Machine/Ship.lean ====
section
/-! DEFINITION. Filter units and GATHER (chapter 5): SELECT and FILTER work in transfer units of 4,096 inputs, GATHER list granule
by list granule. -/

namespace Sys2Proof.Machine

/-! ## Shared pieces -/

/-- `n` pieces of `k` bytes. -/
def chunks (k : Nat) : Nat → List Byte → List (List Byte)
  | 0, _ => []
  | n + 1, bs => bs.take k :: chunks k n (bs.drop k)

/-- Puts `x` before the first element it ranks before. -/
def insertRanked {α : Type} (before : α → α → Bool) (x : α) : List α → List α
  | [] => [x]
  | y :: t => if before x y then x :: y :: t else y :: insertRanked before x t

/-- The first `n` elements in rank order; equal ranks keep their order. -/
def keepBest {α : Type} (before : α → α → Bool) (n : Nat) (l : List α) : List α :=
  l.foldl (fun (acc : List α) x => (insertRanked before x acc).take n) []

/-- A unit of 8-, 16- or 4-byte items read from `off`: each item's bytes and whether poison reached it. -/
def itemsOf (p : Payload) (off k n : Nat) : List (List Byte × Bool) :=
  (chunks k n p.bytes).zip ((List.range n).map fun i => touched p.poisoned (off % 64 + k * i) k)

/-- Counts inputs in units of 1,024 (Table 5.18); `which` is 0 for SELECT, 1 for FILTER. -/
def State.countInputs (s : State) (p which n : Nat) : State :=
  let k := 2 * p + which
  let v := Tab.get 0 s.pt.kcount k + n
  let s := { s with pt := { s.pt with kcount := Tab.set 0 s.pt.kcount k (v % 1024) } }
  s.bump (if which = 0 then FU_PART_COUNT.SELECT_KENT else FU_PART_COUNT.FILTER_KKEY) p (v / 1024)

/-- A command of a filter unit stops at a transfer boundary; its output is undefined (R139). -/
def State.unitStop (s : State) (c : Cmd) (near : Bool) (addr len : Nat) (x : Nat × Nat) : State :=
  (if c.stage = .running then s.undefineRegion c near addr len else s).endStopped c x

/-- Inputs of a transfer unit (R139). -/
def transferUnit : Nat := 4096

/-! ## SELECT (R140 to R144) -/

/-- The rank of a score: NaN and +∞ highest, −∞ lowest, −0 with +0 (R141). -/
def scoreRank (x : F32) : Int :=
  if isNaN32 x || x == f32PosInf then 2 ^ 32 else if x = f32NegInf then -(2 ^ 32) else f32Key x

/-- An entry of a section with its score. -/
structure Ranked where
  index  : Nat
  entry  : Entry
  bytes  : List Byte
  score  : F32

/-- The forced set (R141). -/
def forcedEntry (b : SelectBody) (x : Ranked) : Bool :=
  x.index < min b.sink b.nent || b.nent - min b.recent b.nent ≤ x.index || !x.entry.sumv

/-- The kept entries in index order, or the DETAIL a section stops with (R141, R143). -/
def selectSection (b : SelectBody) (xs : List Ranked) : Sum Nat (List Ranked) :=
  let forced := xs.filter (forcedEntry b)
  if b.k < forced.length then .inl 0x25
  else
    let rest := xs.filter fun x => !forcedEntry b x
    let best := keepBest (fun (x y : Ranked) => scoreRank y.score < scoreRank x.score) (b.k - forced.length) rest
    let kept := xs.filter fun x => forcedEntry b x || best.any (·.index == x.index)
    if b.poschk && (kept.take (b.k - min b.recent b.nent)).any (·.entry.ntok != 64) then .inl 0x26 else .inr kept

/-- The spans of transfer unit `u` of section `h`: entries, then scores. -/
def SelectBody.unitOf (b : SelectBody) (h u : Nat) : (NearRef × Nat) × (NearRef × Nat) :=
  let n := min transferUnit (b.nent - transferUnit * u)
  (({ b.list with off := b.list.off + 16 * (h * b.nent + transferUnit * u) }, 16 * n),
   ({ b.score with off := b.score.off + h * roundup (4 * b.nent) 64 + 4 * transferUnit * u }, 4 * n))

/-- Entries and scores of a section as they were read, unit by unit, and whether any was poisoned. -/
def SelectBody.sectionOf (b : SelectBody) (c : Cmd) (h : Nat) : List Ranked × Bool :=
  let us := List.range ((b.nent + transferUnit - 1) / transferUnit)
  let es := us.flatMap fun u => let x := (b.unitOf h u).1; itemsOf (Tab.get ⟨[], []⟩ c.inputs (2 * u)) x.1.off 16 (x.2 / 16)
  let sc := us.flatMap fun u => let x := (b.unitOf h u).2; itemsOf (Tab.get ⟨[], []⟩ c.inputs (2 * u + 1)) x.1.off 4 (x.2 / 4)
  (((es.zip sc).zip (List.range b.nent)).map fun x =>
      { index := x.2, entry := entryOfBytes x.1.1.1, bytes := x.1.1.1, score := BitVec.ofNat 32 (leNat x.1.2.1) },
    es.any (·.2) || sc.any (·.2))

/-- The section's output is written (R140, Table 5.10). The open entries of a poisoned section are not counted in VALUE[63:48]
(DESIGN CHOICE, log entry 101). -/
def State.selectWrite (s : State) (c : Cmd) (b : SelectBody) : State :=
  let h := c.sec
  let len := 16 * b.k
  let out : NearRef := { b.out with off := b.out.off + len * h }
  let stop (s : State) (x : Nat × Nat) : State := s.unitStop c true b.out.addr (len * b.nsec) x
  match s.target c out len with
  | .stop s st dt => stop s (st, dt)
  | .wait s => s
  | .ready =>
    match s.spend c (s.nearCost c.part out len true) with
    | (s, false) => s
    | (s, true) =>
      let x := b.sectionOf c h
      let next (s : State) (opens : Nat) (nan bad : Bool) : State :=
        let s := s.updCmd c.cid fun c =>
          let c := { c with inputs := [], step := 0, sec := h + 1, count := c.count + b.k, nanRows := c.nanRows + opens,
                            poisonRows := c.poisonRows + (if bad then 1 else 0), nan := c.nan || nan }
          { c with value := valueSelect c.count c.poisonRows c.nanRows }
        if h + 1 < b.nsec then s
        else if c.poisonRows = 0 ∧ !bad then s.finish c.cid else s.finishWith c.cid stPoison 0
      if x.2 then next (s.writeSpan c.part out (poisonedRegion out.off len)) 0 false true
      else match selectSection b x.1 with
        | .inl d => stop s (stBadDesc, d)
        | .inr kept =>
          next (s.writeSpan c.part out ⟨kept.flatMap (·.bytes), []⟩) (x.1.filter fun y => !y.entry.sumv).length
            (kept.any fun y => isNaN32 y.score) false

/-- One transfer unit of a SELECT; after a section's last one its output is written (R139, R141, R142). -/
def State.selectUnit (s : State) (c : Cmd) : State :=
  let b := selectBody c.desc
  let stop (s : State) (x : Nat × Nat) : State := s.unitStop c true b.out.addr (16 * b.k * b.nsec) x
  match s.boundaryStop c with
  | some x => stop s x
  | none =>
    if b.nent ≤ transferUnit * c.step then s.selectWrite c b
    else
      let u := b.unitOf c.sec c.step
      let n := u.1.2 / 16
      match s.supply c [u.1, u.2] with
      | .stop s st dt => stop s (st, dt)
      | .wait s => s
      | .ready =>
        match s.spend c (s.spanCosts c.part [u.1, u.2] ++ [(.engine, (3 * n + 4) / 5)]) with
        | (s, false) => s
        | (s, true) =>
          let es := s.readSpan c.part u.1.1 u.1.2
          let sc := s.readSpan c.part u.2.1 u.2.2
          let items := itemsOf es u.1.1.off 16 n
          let bad := (items.zip (List.range n)).find? fun x => !x.1.2 && s.entryBad c.part none (entryOfBytes x.1.1)
          let s := (s.consumeAll c.part [u.1, u.2]).countInputs c.part 0 n
          match bad with
          | some x => stop (s.logBadList c 12 (transferUnit * c.step + x.2) c.sec) (stBadDesc, 0x7F)
          | none =>
            let s := s.updCmd c.cid fun c =>
              { c with inputs := Tab.put (Tab.put c.inputs (2 * c.step) es) (2 * c.step + 1) sc, step := c.step + 1 }
            match s.cmd c.cid with
            | some c => if b.nent ≤ transferUnit * c.step then s.selectWrite c b else s
            | none => s

/-! ## FILTER (R145 to R147) -/

/-- A key matches a predicate set (R145). -/
def matchesFrom (key : Nat) : Bool → List Term → Bool
  | _, [] => false
  | group, t :: ts =>
    let v := key &&& t.mask
    let g := group && ((t.lo ≤ v && v ≤ t.hi) != t.invert)
    if t.close then g || matchesFrom key true ts else matchesFrom key g ts

def keyMatches (ts : List Term) (key : Nat) : Bool := matchesFrom key true ts

/-- A segment of a table (Table 4.6). -/
structure Seg where
  at_   : NearRef
  ntile : Nat
  ok    : Bool

/-- The segments a segment list's bytes hold. -/
def segsOf (bs : List Byte) (n : Nat) : List Seg :=
  (chunks 8 n bs).map fun x =>
    let w := leNat x
    { at_ := ⟨w % 2 ^ 24, w / 2 ^ 24 % 2 ^ 18 * 256⟩, ntile := w / 2 ^ 42 % 2 ^ 20, ok := w / 2 ^ 62 == 0 && w / 2 ^ 42 % 2 ^ 20 != 0 }

/-- The row tiles of a segment list fill the table of `nrows` rows (Tables 4.7 and 5.8). -/
def segsFill (segs : List Seg) (nrows : Nat) : Bool := segs.all (·.ok) && 64 * (segs.map (·.ntile)).sum == nrows

/-- The segment of global row tile `g`, and the tile's number in it. -/
def tileAt : List Seg → Nat → Option (Seg × Nat)
  | [], _ => none
  | x :: t, g => if g < x.ntile then some (x, g) else tileAt t (g - x.ntile)

/-- The ID plane of global row tile `g` of a FILTER's table; the table's format and width are free (log entry 38). -/
def idPlane (list : NearRef) (segs : List Seg) (g : Nat) : Option (NearRef × Nat) :=
  (tileAt segs g).map fun x =>
    let v := Config.tableForm list.addr
    let fmt := v % 8 + 1
    let e := 32 * (v / 8 % 32 + 1)
    ({ x.1.at_ with off := x.1.at_.off + x.2 * rowTileBytes fmt e + rowTileIds fmt e }, 512)

/-- Eight bits of a bitmap. -/
def bitsByte (l : List Bool) : Byte := BitVec.ofNat 8 ((l.zip (List.range 8)).foldl (fun a x => if x.1 then a + 2 ^ x.2 else a) 0)

/-- Groups of eight bits, the last one filled with zeros. -/
def bitmapBytes : Nat → List Bool → List Byte
  | 0, _ => []
  | n + 1, l => bitsByte (l.take 8) :: bitmapBytes n (l.drop 8)

/-- The bitmap of a transfer unit: none marks a key poison reached; its bit is 0 and its sector marked (R146, Table 5.10). -/
def bitmapOf (keys : List (Option Bool)) : Payload :=
  let len := roundup ((keys.length + 7) / 8) 64
  { bytes := bitmapBytes len (keys.map fun k => k == some true),
    poisoned := (List.range (len / 64)).filter fun i => ((keys.drop (512 * i)).take 512).contains none }

/-- Keys of a section, and a FILTER's sections (ROWS has one). -/
def FilterBody.total (b : FilterBody) : Nat := if b.mode = 0 then b.nrows else b.count
def FilterBody.sections (b : FilterBody) : Nat := if b.mode = 0 then 1 else b.nsec

/-- Keys of one of `u` equal contiguous runs, whole output sectors so that one unit writes each (R147). -/
def runLength (total u : Nat) : Nat := roundup ((total + max 1 u - 1) / max 1 u) 512

/-- The transfer units of a section, run by run: first key and number of keys (R139, R147). -/
def FilterBody.cuts (b : FilterBody) (u : Nat) : List (Nat × Nat) :=
  let len := runLength b.total u
  (List.range (max 1 u)).flatMap fun r =>
    let n := min len (b.total - r * len)
    (List.range ((n + transferUnit - 1) / transferUnit)).map fun i =>
      (r * len + transferUnit * i, min transferUnit (n - transferUnit * i))

/-- The sources of the `n` keys from key `k` of section `h`, none where an ID plane lies outside its berth. -/
def FilterBody.sources (b : FilterBody) (segs : List Seg) (h k n : Nat) : List (Option (NearRef × Nat)) :=
  if b.mode = 0 then
    (List.range (n / 64)).map fun i =>
      (idPlane b.src segs (k / 64 + i)).bind fun x => if inBerth x.1.off x.2 then some x else none
  else [some ({ b.src with off := b.src.off + 16 * (h * b.count + k) }, 16 * n)]

/-- The keys of one ID plane or of a run of entries, each with whether it matches. -/
def FilterBody.judge (b : FilterBody) (ts : List Term) (x : NearRef × Nat) (p : Payload) : List (Option Bool) :=
  if b.mode = 0 then
    (itemsOf p x.1.off 8 64).map fun i =>
      if i.2 then none else some (leNat i.1 != 2 ^ 64 - 1 && keyMatches ts (leNat i.1))
  else
    (itemsOf p x.1.off 16 (x.2 / 16)).map fun i =>
      if i.2 then none else some ((entryOfBytes i.1).doc == 0xFFFF || keyMatches ts (entryOfBytes i.1).doc)

/-- Terms of the predicate set as it was read, and whether poison reached it. -/
def filterTerms (c : Cmd) : List Term × Bool :=
  let p := Tab.get ⟨[], []⟩ c.inputs 0
  (termsOf (p.bytes.drop 32) ((p.bytes.length - 32) / 32), !p.poisoned.isEmpty)

/-- The checks of Table 5.8 on a predicate set as the filter unit read it: of a header poison reached only the rest is judged, and
poisoned terms pass (R190, log entry 83). -/
def FilterBody.judgeRead (b : FilterBody) (p : Payload) : Option (Nat × Nat) :=
  let h := predicateHead p.bytes
  let ts := termsOf (p.bytes.drop 32) ((p.bytes.length - 32) / 32)
  lowestFail (b.fails (if p.poisoned.contains 0 then (1, true, []) else (h.1, h.2, if p.poisoned.isEmpty then ts else [])))

/-- The start of a FILTER: the header is read, then the terms and, in ROWS mode, the segment list, and what Table 5.8 asks of them
is judged (R21, R190). -/
def State.filterStart (s : State) (c : Cmd) : State :=
  let b := filterBody c.desc
  match s.boundaryStop c, s.holdUnits c ((b.total + transferUnit - 1) / transferUnit) with
  | some x, _ => s.endStopped c x
  | none, none => s
  | none, some held =>
    match s.supply c [(b.pred, 32)] with
    | .stop s st dt => s.finishWith c.cid st dt
    | .wait s => s
    | .ready =>
      let head := s.readSpan c.part b.pred 32
      let h := predicateHead head.bytes
      let n := if head.poisoned.isEmpty && h.1 ≤ 64 && inBerth b.pred.off (predicateBytes h.1) then h.1 else 0
      let spans := (b.pred, predicateBytes n) ::
        if b.mode = 0 && inBerth b.src.off (8 * b.count) then [(b.src, 8 * b.count)] else []
      match s.supply c spans with
      | .stop s st dt => s.finishWith c.cid st dt
      | .wait s => s
      | .ready =>
        match held.spend c (s.spanCosts c.part spans) with
        | (s, false) => s
        | (s, true) =>
          let segs := if spans.length = 2 then s.readSpan c.part b.src (8 * b.count) else ⟨[], []⟩
          let pred := s.readSpan c.part b.pred (predicateBytes n)
          let s := s.consumeAll c.part spans
          let list := segsOf segs.bytes b.count
          match b.judgeRead pred with
          | some x => s.finishWith c.cid x.1 x.2
          | none =>
            let s := s.updCmd c.cid fun c => { c with stage := .running, inputs := [(0, pred), (1, segs)] }
            if b.mode = 0 && segs.poisoned.isEmpty && !segsFill list b.nrows then (s.undefineOutputs c).finishWith c.cid stBadDesc 0x24
            else if b.mode = 0 && segs.poisoned.isEmpty && list.any (fun x => (s.heldSlot c.part x.at_.handle).isNone) then
              (s.undefineOutputs c).finishWith c.cid stBadDesc 0x15
            else if b.total = 0 then s.finishValue c.cid 0
            else s

/-- The bitmap of a transfer unit is written, and the FILTER goes on or ends. -/
def State.filterWrite (s : State) (c : Cmd) (b : FilterBody) (out : NearRef) (d : Payload) (hits : Nat) : State :=
  let s := (s.writeSpan c.part out d).updCmd c.cid fun c =>
    let last := c.step + 1 = (b.cuts c.held.length).length
    let c := { c with count := c.count + hits, poisonRows := c.poisonRows + d.poisoned.length,
                      step := if last then 0 else c.step + 1, sec := if last then c.sec + 1 else c.sec }
    { c with value := valueShip c.count c.poisonRows }
  match s.cmd c.cid with
  | some c =>
    if c.sec < b.sections then s
    else if c.poisonRows = 0 then s.finish c.cid else s.finishWith c.cid stPoison 0
  | none => s

/-- One transfer unit of a FILTER (R139, R146). -/
def State.filterUnit (s : State) (c : Cmd) : State :=
  let b := filterBody c.desc
  let cut := (b.cuts c.held.length).getD c.step (0, 0)
  let n := cut.2
  let out : NearRef := { b.out with off := b.out.off + (if b.mode = 0 then 0 else c.sec * entryMaskBytes b.count) + cut.1 / 8 }
  let len := roundup ((n + 7) / 8) 64
  let stop (s : State) (x : Nat × Nat) : State := s.unitStop c true b.out.addr (filterOut b) x
  match s.boundaryStop c with
  | some x => stop s x
  | none =>
    let segs := Tab.get ⟨[], []⟩ c.inputs 1
    let lost := b.mode == 0 && !segs.poisoned.isEmpty
    let srcs := if lost then [] else b.sources (segsOf segs.bytes b.count) c.sec cut.1 n
    let spans := srcs.filterMap id
    if spans.length < srcs.length then stop s (stBadDesc, 0x23)
    else match s.supply c spans with
      | .stop s st dt => stop s (st, dt)
      | .wait s => s
      | .ready =>
        match s.target c out len with
        | .stop s st dt => stop s (st, dt)
        | .wait s => s
        | .ready =>
          let cost := s.spanCosts c.part spans ++ s.nearCost c.part out len true ++ [(.engine, (3 * n + 31) / 32)]
          match s.spend c cost with
          | (s, false) => s
          | (s, true) =>
            let ps := spans.map fun x => (x, s.readSpan c.part x.1 x.2)
            let bad := if b.mode = 0 then none else ps.findSome? fun x =>
              ((itemsOf x.2 x.1.1.off 16 n).zip (List.range n)).find? fun i =>
                !i.1.2 && s.entryBad c.part none (entryOfBytes i.1.1)
            let s := (s.consumeAll c.part spans).countInputs c.part 1 n
            match bad with
            | some x => stop (s.logBadList c 12 (cut.1 + x.2) c.sec) (stBadDesc, 0x7F)
            | none =>
              let ts := filterTerms c
              let keys := if lost || ts.2 then List.replicate n none else ps.flatMap fun x => b.judge ts.1 x.1 x.2
              s.filterWrite c b out (bitmapOf keys) (keys.filter (· == some true)).length

/-- The filter unit in the middle of a piece of work of a command: a section of a SELECT, a run of a FILTER (R138, R148). -/
def Cmd.midPiece (c : Cmd) : Option Nat :=
  if c.stage != .running then none
  else if c.opc = ocSelect then
    if c.step = 0 then none else c.held[c.sec % c.held.length]?
  else if c.opc = ocFilter then
    let b := filterBody c.desc
    let k := ((b.cuts c.held.length).getD c.step (0, 0)).1
    let len := runLength b.total c.held.length
    if k % len = 0 then none else c.held[k / len]?
  else none

/-- Retires a filter unit; the hub's spare takes its place (R148, R149). -/
def State.retireFilter (s : State) (unit : Nat) : State :=
  s.retireUnit FU_UNIT_STATUS.ACTIVE FU_UNIT_STATUS.SPARE FU_UNIT_STATUS.RETIRED 12 unit (List.range 9)

/-- Filter units that wait for retirement and stand between two pieces are retired (R148). -/
def State.retireFilters (s : State) : State :=
  (s.hs.retiring.filter fun k => 32 ≤ k && !s.fe.cmds.any fun c => c.midPiece == some (k - 32)).foldl (fun s k =>
    ({ s with hs := { s.hs with retiring := s.hs.retiring.filter (· != k) } } : State).retireFilter (k - 32)) s

/-- SELECT (R141): a section is a piece of work, and the command starts once a filter unit is free (R138). -/
def execSelect (cid : Nat) (s : State) : Host.Outcome State Fault Refusal :=
  .next (whenUp s fun s =>
    match s.cmd cid with
    | some c =>
      if c.opc == ocSelect && c.stage == .dispatched then
        match s.boundaryStop c, s.holdUnits c (selectBody c.desc).nsec with
        | some x, _ => s.endStopped c x
        | none, none => s
        | none, some t =>
          let t := t.updCmd cid fun c => { c with stage := .running }
          ((t.selectUnit ((t.cmd cid).getD c)).retryHeld).retireFilters
      else s
    | none => s)

/-- FILTER (R146). -/
def execFilter (cid : Nat) (s : State) : Host.Outcome State Fault Refusal :=
  .next (whenUp s fun s =>
    match s.cmd cid with
    | some c => if c.opc == ocFilter && c.stage == .dispatched then ((s.filterStart c).retryHeld).retireFilters else s
    | none => s)

/-- FILTER_TRANSFER_BOUNDARY: a stop acts here; otherwise the next transfer unit runs (R139). -/
def execFilterTransferBoundary (cid : Nat) (s : State) : Host.Outcome State Fault Refusal :=
  .next (whenUp s fun s =>
    match s.cmd cid with
    | some c =>
      if c.stage != .running then s
      else if c.opc == ocSelect then ((s.selectUnit c).retryHeld).retireFilters
      else if c.opc == ocFilter then ((s.filterUnit c).retryHeld).retireFilters
      else s
    | none => s)

/-! ## GATHER (R134 to R137) -/

/-- The tiles of an entry as GATHER reads them: rows and scales below NTOK (R135). -/
def tileSpans (r : NearRef) (fmt d ntok : Nat) : List (NearRef × Nat) :=
  (r, ntok * rowBytes fmt d)
    :: if isScaled fmt then [({ r with off := r.off + scalePlane fmt d }, ntok * (d / 32))] else []

/-- A shipped tile from its elements and scales: its footprint with zeros beyond NTOK (R135). -/
def shippedTile (es sc : Payload) (fmt d : Nat) : Payload :=
  let body := es.bytes ++ List.replicate ((if isScaled fmt then scalePlane fmt d else tileBytes fmt d) - es.bytes.length) 0 ++ sc.bytes
  { bytes := body ++ List.replicate (tileBytes fmt d - body.length) 0,
    poisoned := es.poisoned ++ sc.poisoned.map (· + scalePlane fmt d / 64) }

/-- Payloads one after the other, each a whole number of sectors. -/
def joinPayloads (ps : List Payload) : Payload :=
  ps.foldl (fun (a : Payload) p =>
    { bytes := a.bytes ++ p.bytes, poisoned := a.poisoned ++ p.poisoned.map (· + a.bytes.length / 64) }) ⟨[], []⟩

/-- Tiles of an entry that poison reached: a footprint one entry of the list could have, all of it marked (log entry 39). -/
def lostTiles (list : NearRef) (e d : Nat) : Payload :=
  let v := Config.lostEntry (list.addr + 16 * e)
  poisonedRegion 0 (tileBytes (v % 8 + 1) d * (v / 8 % 2 + 1))

/-- An entry of the group in hand: its number in the list, bytes, poison, and whether it is shipped. -/
structure Lot where
  number : Nat
  bytes  : List Byte
  bad    : Bool
  ship   : Bool

/-- The entries from `e` on that lie in one granule of the list. -/
def GatherBody.group (b : GatherBody) (e : Nat) : Nat := min (b.nent * b.nsec - e) (16 - (b.list.off / 16 + e) % 16)

/-- The mask byte of an entry. -/
def GatherBody.maskByte (b : GatherBody) (e : Nat) : NearRef :=
  let m := ref44 b.maskRaw
  { m with off := m.off + e / b.nent * entryMaskBytes b.nent + e % b.nent / 8 }

/-- The mask granules of `n` entries from `e` on, each once. -/
def GatherBody.maskGranules (b : GatherBody) (e n : Nat) : List NearRef :=
  if b.maskEn then ((List.range n).map fun i =>
      { b.maskByte (e + i) with off := (b.maskByte (e + i)).off / 256 * 256 }).eraseDups
  else []

/-- The group's entries from what was read: entries at 0, mask bytes from 1 on. -/
def GatherBody.lots (b : GatherBody) (c : Cmd) : List Lot :=
  let e := c.step
  let n := b.group e
  let p := Tab.get ⟨[], []⟩ c.inputs 0
  ((itemsOf p (b.list.off + 16 * e) 16 n).zip (List.range n)).map fun x =>
    { number := e + x.2, bytes := x.1.1, bad := x.1.2,
      ship := !b.maskEn || ((Tab.get ⟨[], []⟩ c.inputs (1 + x.2)).bytes.headD 0).getLsbD ((e + x.2) % b.nent % 8) }

/-- The K tile and, unless the entry is latent, the V tile of an entry. -/
def Lot.tiles (l : Lot) : List NearRef :=
  let e := entryOfBytes l.bytes
  e.k :: if e.latent then [] else [e.v]

/-- The deck whose gather units read an entry: the one its berth is affine to; of a lashed berth A for an even index, B for an odd
one (R136). -/
def State.gatherDeck (s : State) (p : Nat) (b : GatherBody) (l : Lot) : DeckId :=
  match s.kindOf p (entryOfBytes l.bytes).k.handle with
  | some 0 => .a
  | some 1 => .b
  | _ => if l.number % b.nent % 2 = 0 then .a else .b

/-- A span in bursts of at most 4 KiB (R133). -/
def burstsOf (x : NearRef × Nat) : List (NearRef × Nat) :=
  (List.range (inputPieces x.2)).map fun i => ({ x.1 with off := x.1.off + 4096 * i }, min 4096 (x.2 - 4096 * i))

/-- The spans of a clean entry's tiles. -/
def Lot.spans (l : Lot) (d : Nat) : List (NearRef × Nat) :=
  l.tiles.flatMap fun r => tileSpans r (entryOfBytes l.bytes).fmt d (entryOfBytes l.bytes).ntok

/-- The bursts of the group's shipped entries in shipping order, each with the entry it belongs to. -/
def gatherBursts (d : Nat) (lots : List Lot) : List (Lot × NearRef × Nat) :=
  (lots.filter fun l => l.ship && !l.bad).flatMap fun l => ((l.spans d).flatMap burstsOf).map fun x => (l, x)

/-- Piece number of burst `i` of the group in a GATHER's inputs. -/
def burstPiece (i : Nat) : Nat := 32 + i

/-- Bursts of the group that have been read. -/
def burstsRead (c : Cmd) : Nat := (c.inputs.filter fun e => burstPiece 0 ≤ e.1).length

/-- The data of a span whose bursts stand from burst `i` on. -/
def spanData (c : Cmd) (i : Nat) (x : NearRef × Nat) : Payload :=
  joinPayloads ((List.range (inputPieces x.2)).map fun j => Tab.get ⟨[], []⟩ c.inputs (burstPiece (i + j)))

/-- The shipped forms of `n` tiles of an entry, their bursts from burst `i` on. -/
def shipTiles (c : Cmd) (fmt d ntok : Nat) : Nat → Nat → List Payload
  | 0, _ => []
  | n + 1, i =>
    let es := (⟨0, 0⟩, ntok * rowBytes fmt d)
    let sc := (⟨0, 0⟩, if isScaled fmt then ntok * (d / 32) else 0)
    let j := i + inputPieces es.2
    shippedTile (spanData c i es) (spanData c j sc) fmt d :: shipTiles c fmt d ntok n (j + inputPieces sc.2)

/-- What the shipped entries of the group become, their bursts from burst `i` on. -/
def shipLots (b : GatherBody) (c : Cmd) : List Lot → Nat → List Payload
  | [], _ => []
  | l :: t, i =>
    let d := 32 * b.dw
    let e := entryOfBytes l.bytes
    if l.bad then lostTiles b.list l.number d :: shipLots b c t i
    else joinPayloads (shipTiles c e.fmt d e.ntok l.tiles.length i) :: shipLots b c t (i + ((l.spans d).flatMap burstsOf).length)

/-- A gather unit issues nothing for a partition whose link fare a GATHER to an endpoint has spent (R132). -/
def State.linkSpent (s : State) (c : Cmd) (b : GatherBody) : Bool :=
  !b.outLoc && s.faresBind && s.drawable c.part (s.ctxGroup c.ctx) .link == 0

/-- Reads the group's list granule, and its mask bytes, once; the bits of a poisoned mask sector are free (R113, R133, log entry
76). -/
def State.gatherRead (s : State) (c : Cmd) (b : GatherBody) : State × Option (Nat × Nat) :=
  let e := c.step
  let n := b.group e
  let list : NearRef := { b.list with off := b.list.off + 16 * e }
  let masks := if b.maskEn then (List.range n).map fun i => (b.maskByte (e + i), 1) else []
  match s.supply c ((list, 16 * n) :: masks) with
  | .stop s st dt => (s, some (st, dt))
  | .wait s => (s, none)
  | .ready =>
    match s.spend c (s.nearCost c.part list (16 * n) false
        ++ s.spanCosts c.part ((b.maskGranules e n).map fun r => (r, 1))) with
    | (s, false) => (s, none)
    | (s, true) =>
      let ps := ((list, 16 * n) :: masks).map fun x => s.readSpan c.part x.1 x.2
      let free := freeBytes s.freeCtr ps.length
      let got := ((List.range ps.length).zip (ps.zip free)).map fun x =>
        (x.1, if x.1 = 0 || x.2.1.poisoned.isEmpty then x.2.1 else ⟨[x.2.2], x.2.1.poisoned⟩)
      let hidden := got.any fun x => x.1 != 0 && !x.2.poisoned.isEmpty
      let s := s.updCmd c.cid fun c => { c with inputs := got, marked := if hidden then [0] else c.marked }
      (({ s with freeCtr := s.freeCtr + ps.length } : State).consumeAll c.part ((list, 16 * n) :: masks), none)

/-- Reads the next burst of the group, on a gather unit of its entry's deck (R133, R136). -/
def State.gatherBurst (s : State) (c : Cmd) (b : GatherBody) (l : Lot) (x : NearRef × Nat) : State × Option (Nat × Nat) :=
  if (s.gatherUnits (s.gatherDeck c.part b l)).isEmpty then (s, none)
  else match s.supply c [x] with
    | .stop s st dt => (s, some (st, dt))
    | .wait s => (s, none)
    | .ready =>
      match s.spend c (s.spanCosts c.part [x]) with
      | (s, false) => (s, none)
      | (s, true) =>
        let p := s.readSpan c.part x.1 x.2
        ((s.updCmd c.cid fun c => { c with inputs := Tab.put c.inputs (burstPiece (burstsRead c)) p }).consumeAll c.part [x], none)

/-- Ships the group, whose entries and tiles are at hand. The tile area's next byte stands in `sec`. -/
def State.gatherShip (s : State) (c : Cmd) (b : GatherBody) (lots : List Lot) : State × Option (Nat × Nat) :=
  let out := lots.filter (·.ship)
  let ps := shipLots b c out 0
  let body := joinPayloads ps
  let la := b.dst + 16 * c.count
  let lst : Payload := { bytes := out.flatMap (·.bytes), poisoned :=
    (((out.zip (List.range out.length)).filter (·.1.bad)).map fun x => (la % 64 + 16 * x.2) / 64).eraseDups }
  let ta := b.dst + gatherTiles b + c.sec
  let near (a n : Nat) : Supply := if b.outLoc && n != 0 then s.target c (ref50 a) n else .ready
  match near ta body.bytes.length, near la (if b.withList then lst.bytes.length else 0) with
  | .stop s st dt, _ => (s, some (st, dt))
  | _, .stop s st dt => (s, some (st, dt))
  | .wait s, _ => (s, none)
  | _, .wait s => (s, none)
  | .ready, .ready =>
    let cost := if b.outLoc then s.nearCost c.part (ref50 ta) body.bytes.length true ++
        (if b.withList then s.nearCost c.part (ref50 la) lst.bytes.length true else []) else []
    match s.spend c cost with
    | (s, false) => (s, none)
    | (s, true) =>
      let stored := (s.storeResult c b.outLoc ta body).bind fun s =>
        if b.withList && !out.isEmpty then s.storeResult c b.outLoc la lst else some s
      match if out.isEmpty then some s else stored with
      | none => (s, some (stEpochRetired, 0))
      | some s =>
        let bytes := body.bytes.length + if b.withList then lst.bytes.length else 0
        let hurt := ((out.zip ps).filter fun x => x.1.bad || !x.2.poisoned.isEmpty).length
        ((s.bump GU_PART_SHIP.BYTES c.part bytes).updCmd c.cid fun c =>
          let c := { c with inputs := [], step := c.step + lots.length, count := c.count + out.length,
                            sec := c.sec + body.bytes.length, poisonRows := c.poisonRows + hurt }
          { c with value := valueShip c.count c.poisonRows }, none)

/-- A GATHER is over: POISON where a shipped entry or a mask sector was poisoned (R137, Table 5.10). -/
def State.gatherEnd (s : State) (c : Cmd) : State :=
  if c.poisonRows = 0 && c.marked.isEmpty then s.finish c.cid else s.finishWith c.cid stPoison 0

/-- One turn of a GATHER: its list granule, whose entries are judged (R83), then a burst of its tiles, and with the last one the
shipped entries of the granule are copied (R133, R134). -/
def State.gatherRow (s : State) (c : Cmd) : State :=
  let b := gatherBody c.desc
  let stop (s : State) (x : Nat × Nat) : State := s.unitStop c b.outLoc b.dst (gatherMax b) x
  match s.boundaryStop c with
  | some x => stop s x
  | none =>
    if b.nent * b.nsec ≤ c.step then s.gatherEnd c
    else if s.linkSpent c b then s
    else
      let s := s.updCmd c.cid fun c => { c with stage := .running }
      if c.inputs.isEmpty then
        let r := s.gatherRead c b
        match r.2, r.1.cmd c.cid with
        | some x, _ => stop r.1 x
        | none, none => r.1
        | none, some c =>
          match (b.lots c).find? fun l => !c.inputs.isEmpty && !l.bad && r.1.entryBad c.part (some (32 * b.dw)) (entryOfBytes l.bytes) with
          | some l => stop (r.1.logBadList c 11 (l.number % b.nent) (l.number / b.nent)) (stBadDesc, 0x7F)
          | none => r.1
      else
        let lots := b.lots c
        let r := match (gatherBursts (32 * b.dw) lots)[burstsRead c]? with
          | some x => s.gatherBurst c b x.1 x.2
          | none => (s, none)
        match r.2, r.1.cmd c.cid with
        | some x, _ => stop r.1 x
        | none, none => r.1
        | none, some c =>
          if (gatherBursts (32 * b.dw) lots).length ≤ burstsRead c then
            let r := r.1.gatherShip c b lots
            match r.2, r.1.cmd c.cid with
            | some x, _ => stop r.1 x
            | none, some c => if c.step < b.nent * b.nsec then r.1 else r.1.gatherEnd c
            | none, none => r.1
          else r.1

/-- GATHER (R134). -/
def execGather (cid : Nat) (s : State) : Host.Outcome State Fault Refusal :=
  .next (whenUp s fun s =>
    match s.cmd cid with
    | some c => if c.opc == ocGather && (c.stage == .dispatched || c.stage == .running) then (s.gatherRow c).retryHeld else s
    | none => s)

/-! ## Unit errors (R148, R149) -/

/-- Retires a gather unit; the spare of its deck takes its place (R148, R149). -/
def State.retireGather (s : State) (unit : Nat) : State :=
  s.retireUnit GU_UNIT_STATUS.ACTIVE GU_UNIT_STATUS.SPARE GU_UNIT_STATUS.RETIRED 11 unit ((List.range 9).map (· + unit / 9 * 9))

/-- Gather units of a deck that wait for retirement are retired at its leg boundary (R148). -/
def State.retireGathers (s : State) (d : DeckId) : State :=
  (s.hs.retiring.filter fun k => k < 18 && k / 9 == deckNo d).foldl (fun s k =>
    ({ s with hs := { s.hs with retiring := s.hs.retiring.filter (· != k) } } : State).retireGather k) s

/-- GATHER_UNIT_ERROR: the tile is read again, counted; or the unit is retired, at the next leg boundary of a deck that runs a
leg (R148). -/
def execGatherUnitError (unit : Nat) (retire : Bool) (s : State) : Host.Outcome State Fault Refusal :=
  .next (whenUp s fun s =>
    if !retire then s.bump GU_UNIT_STATUS.CORRECTED unit 1
    else if 18 ≤ unit then s
    else if (s.deck (if unit < 9 then .a else .b)).leg.isSome then
      { s with hs := { s.hs with retiring := addSorted unit s.hs.retiring } }
    else s.retireGather unit)

/-- FILTER_UNIT_ERROR: the piece is run again on another unit, counted; or the unit is retired, between pieces of work (R148). -/
def execFilterUnitError (unit : Nat) (retire : Bool) (s : State) : Host.Outcome State Fault Refusal :=
  .next (whenUp s fun s =>
    if !retire then s.bump FU_UNIT_STATUS.CORRECTED unit 1
    else if 9 ≤ unit then s
    else ({ s with hs := { s.hs with retiring := addSorted (32 + unit) s.hs.retiring } } : State).retireFilters)

end Sys2Proof.Machine
end

