-- ==== Sys2Proof/Machine/Attend.lean ====
section
/-! DEFINITION. The arithmetic of the deck commands (chapter 4): folds, one unit of CROSS, SCORE, MATMUL and SEARCH, and the
merges that follow. -/

namespace Sys2Proof.Machine

/-! ## Folds (R96, R97) -/

/-- u of a fold as a fraction: (n_r ÷ h) × (units ÷ (s × ceil(units ÷ s))). -/
def foldUse (nr units d f : Nat) : Nat × Nat := (nr * units, 256 / f * (f * d * ((units + f * d - 1) / (f * d))))

/-- The first fold with the largest u; a tie keeps the smaller fold. -/
def bestFold (nr units d : Nat) : List Nat → Nat → Nat × Nat → Nat
  | [], best, _ => best
  | f :: t, best, u =>
    if 256 / f < nr then best
    else
      let v := foldUse nr units d f
      if u.1 * v.2 < v.1 * u.2 then bestFold nr units d t f v else bestFold nr units d t best u

/-- resolve_fold of R97; `d` is 1, or 2 when lashed. -/
def resolveFold (nr units d : Nat) : Nat :=
  if units = 0 ∨ 256 < nr then 1 else bestFold nr units d [2, 4, 8, 16, 32, 64] 1 (foldUse nr units d 1)

/-- F of a FOLD field. -/
def foldOf (field nr units d : Nat) : Nat := if field = 0 then resolveFold nr units d else 2 ^ (field - 1)

/-- FOLD as VALUE encodes it. -/
def foldCode (f : Nat) : Nat := Nat.log2 f + 1

/-- κ of a column operand's code (R93). -/
def kStep (fmt : Nat) : Nat := if fmt = 5 then 8 else if fmt = 7 ∨ fmt = 8 then 1 else 4

/-- Cycles of one pass of CROSS, and of the other opcodes (chapter 4, "Performance model"). -/
def crossPass (wk wv fmt : Nat) : Nat := max 32 (wk / kStep fmt + (wv + 127) / 128 * 128 / kStep fmt + 4)
def plainPass (w fmt : Nat) : Nat := max 32 (w / kStep fmt + 4)

/-! ## Row operands -/

/-- Row `r` of a query region of width `w` in BF16 or FP16, and whether poison reached it (R104, R112). -/
def queryRow (p : Payload) (fmt w r : Nat) : List Num × Bool :=
  (decodeRow fmt w ((p.bytes.drop (r * w * 2)).take (w * 2)) [] Num.product, touched p.poisoned (r * w * 2) (w * 2))

/-- The pre-scale of R106: SCALE, or (1/√w_k) × log2 e rounded to FP32. The nearest FP32 values for each width are those of the
exact quotient; log2 e stands in units of 2^-120. -/
def preScale (scale : F32) (wk : Nat) : F32 :=
  if scale = 0 then
    match numSqrt (.fin false wk 0) with
    | .fin _ m e => toF32 (numDivNat false 1917670637729674084946755258930051709 m (-120 - e))
    | _ => f32NaN
  else scale

/-! ## CROSS (R104 to R112) -/

/-- One token slot of a unit: its list position, document, key and value, and whether poison reached it. -/
structure Slot64 where
  pos    : Nat
  doc    : Nat
  key    : List Num
  val    : List Num
  poison : Bool

/-- A token at list position `p` of document `doc` is visible to query token `j` of document `qdoc` (R107). -/
def visibleAt (b : CrossBody) (p doc j qdoc : Nat) : Bool :=
  (!b.causal || p ≤ b.qpos + j) && (!b.windowEn || b.qpos + j < p + b.window)
    && (!b.docmask || doc == qdoc || doc == 0xFFFF || qdoc == 0xFFFF)

/-- Some token of an entry whose first position is `pos` is visible to some query token. -/
def entrySeen (b : CrossBody) (qdocs : List Nat) (pos ntok doc : Nat) : Bool :=
  (List.range b.t).any fun j => (List.range ntok).any fun t => visibleAt b (pos + t) doc j (qdocs.getD j 0xFFFF)

/-- tree_sum: pairs in slot order, level by level. -/
def treeSum (l : List F32) : F32 := (treeOf f32Add 16 (l.map some)).getD 0

/-- One row of absorb: 128 slots, of which none stands for an idle one (R107, R108, R111, R112). A difference x − m_new that
overflows to −∞ counts as exp2 = 0 and no infinite intermediate (DESIGN CHOICE, log entry 82). -/
def absorbRow (b : CrossBody) (c : F32) (j qdoc : Nat) (q : List Num × Bool) (slots : List (Option Slot64)) (acc : Partial) :
    Partial :=
  let vis := slots.map fun x => x.bind fun t => if visibleAt b t.pos t.doc j qdoc then some t else none
  if acc.poison || q.2 || vis.any (fun x => match x with | some t => t.poison | none => false) then
    { Partial.neutral b.wv with poison := true }
  else if acc.nan || q.1.any Num.special
      || vis.any (fun x => match x with | some t => t.key.any Num.special || t.val.any Num.special | none => false) then
    Partial.nanRow b.wv
  else
    let s := vis.map fun x => x.map fun t => f32Mul (cellDot q.1 t.key) c
    if s.any fun x => match x with | some v => special32 v | none => false then Partial.nanRow b.wv
    else
      let mNew := s.foldl (fun (m : F32) x => match x with | some v => f32Max m v | none => m) acc.m
      if mNew = f32NegInf then acc
      else
        let alpha := exp2 (f32Sub acc.m mNew)
        let ps := s.map fun x => match x with
          | some v => toProduct (exp2 (f32Sub v mNew))
          | none => Num.zero
        let l := f32Add (f32Mul acc.l alpha) (treeSum (ps.map toF32))
        let col (i : Nat) : F32 := cellDot ps (vis.map fun x => match x with
          | some t => t.val.getD i .zero
          | none => .zero)
        ({ o := (List.range b.wv).map fun i => f32Add (f32Mul (acc.o.getD i 0) alpha) (col i), m := mNew, l := l,
           nan := false, poison := false } : Partial).settle

/-- absorb over the rows of a section (R107). -/
def absorb (b : CrossBody) (c : F32) (qdocs : List Nat) (qs : List (List Num × Bool)) (slots : List (Option Slot64))
    (acc : List Partial) : List Partial :=
  ((acc.zip qs).zip (List.range b.rows)).map fun x =>
    let j := x.2 / b.g
    absorbRow b c j (qdocs.getD j 0xFFFF) x.1.2 slots x.1.1

/-- The stripe tree of R109, one row at a time. -/
def mergeStripes (rows : Nat) (acc : List (List Partial)) : List Partial :=
  (List.range rows).map fun r => (treeOf mergePartial 8 (acc.map fun st => st[r]?)).getD (Partial.neutral 0)

/-! ## SCORE (R114) -/

/-- ‖q‖ (R114). -/
def rowNorm2 (q : List Num) : F32 := f32Sqrt (cellDot q q)

/-- The score one row gives a summary. -/
def rowScore (c : F32) (q mean : List Num) (spread : F32) : F32 :=
  f32Mul c (f32Add (cellDot q mean) (f32Mul (rowNorm2 q) spread))

/-- The score of a summary over the rows that see its entry (R114 step 3). -/
def summaryScore (c : F32) (qs : List (List Num)) (mean : List Num) (spread : F32) : F32 :=
  let vs := qs.map fun q => if q.any Num.special || mean.any Num.special then f32NaN else rowScore c q mean spread
  if vs.any isNaN32 then f32NaN else vs.foldl f32Max f32NegInf

/-! ## MATMUL (R115, R116) -/

/-- The K-elements of tile `kb` of a row in a scaled or plain format, zero beyond K. -/
def tileElems (row : List Num) (kb : Nat) : List Num :=
  let x := (row.drop (512 * kb)).take 512
  x ++ List.replicate (512 - x.length) .zero

/-- An activation row (R115). -/
def activationRow (b : MatmulBody) (p : Payload) (r : Nat) : List Num × Bool :=
  let o := r * matmulXRow b
  let eb := rowBytes b.xfmt b.k
  (decodeRow b.xfmt b.k ((p.bytes.drop o).take eb) ((p.bytes.drop (o + eb)).take b.kb) Num.product,
    touched p.poisoned o (eb + if isScaled b.xfmt then b.kb else 0))

/-- Column `n` of a weight tile: its 512 K-elements, of which those at or beyond K count as zero, poisoned or not (R84). -/
def weightColumn (b : MatmulBody) (t : Payload) (kb n : Nat) : List Num × Bool :=
  let eb := rowBytes b.wfmt 512
  let so := roundup (128 * eb) 256 + 16 * n
  let es := decodeRow b.wfmt 512 ((t.bytes.drop (n * eb)).take eb) ((t.bytes.drop so).take 16) Num.product
  let live := b.k - 512 * kb
  (es.take live ++ List.replicate (512 - min live 512) .zero,
    touched t.poisoned (n * eb) (rowBytes b.wfmt (min live 512)) || (isScaled b.wfmt && touched t.poisoned so (min live 512 / 32)))

/-- One K-tile added to a stripe's partial of one output row: slices of 4 in order (R116). -/
def matmulRow (x : List Num) (cols : List (List Num)) (acc : List F32) : List F32 :=
  List.zipWith (fun a w => cellSum 128 a x w) acc cols

/-- The stripes of one output row summed by the tree of R109's ordering, scaled and rounded (R116). -/
def matmulSum (scale : F32) (parts : List (List F32)) (n : Nat) : List F32 :=
  (List.range n).map fun j => f32Mul (if scale = 0 then f32One else scale) ((treeOf f32Add 8 (parts.map fun p => p[j]?)).getD 0)

/-! ## SEARCH (R117, R118) -/

/-- A candidate ranks before another (R118). -/
def candidateBefore (x y : Candidate) : Bool :=
  f32Key y.score < f32Key x.score || (f32Key y.score == f32Key x.score && x.index < y.index)

/-- The identifier of an empty row. -/
def emptyIdent : Nat := 2 ^ 64 - 1

/-- Row `x` of a row tile: its elements, its identifier, and whether poison reached elements or identifier. -/
def tableRow (fmt e : Nat) (t : Payload) (x : Nat) : List Num × Nat × Bool :=
  let rb := rowBytes fmt e
  let so := scalePlane fmt e + x * (e / 32)
  let io := rowTileIds fmt e + 8 * x
  (decodeRow fmt e ((t.bytes.drop (x * rb)).take rb) ((t.bytes.drop so).take (e / 32)) Num.product,
    leNat ((t.bytes.drop io).take 8),
    touched t.poisoned (x * rb) rb || (isScaled fmt && touched t.poisoned so (e / 32)) || touched t.poisoned io 8)

/-- The 16 bytes of a result record. -/
def candidateBytes (x : Candidate) : List Byte := leBytes 4 x.score.toNat ++ leBytes 4 x.index ++ leBytes 8 x.ident.toNat

/-- A query's result list of k records. -/
def resultList (k : Nat) (l : List Candidate) : List Byte :=
  (l ++ List.replicate (k - l.length) (⟨f32NegInf, 0xFFFFFFFF, BitVec.ofNat 64 emptyIdent⟩ : Candidate)).flatMap
    candidateBytes

end Sys2Proof.Machine
end

