-- ==== Sys2Proof/Machine/DeckFeed.lean ====
section
/-! DEFINITION. What the decks work on (chapters 4 and 5): a command's sections, units and stripes, its lading-list window, the
tiles of a pass step, and their delivery to scratchpad. -/

namespace Sys2Proof.Machine

/-! ## Decks -/

/-- The near-memory half of a deck (R15). -/
def deckNear : DeckId → Res
  | .a => .nearA
  | .b => .nearB

def Cmd.lashed (c : Cmd) : Bool := c.place == some 2

/-- The decks a command runs on (R98). -/
def Cmd.decks (c : Cmd) : List DeckId :=
  match c.place with
  | some 0 => [.a]
  | some 1 => [.b]
  | some _ => [.a, .b]
  | none => []

/-! ## Sections, units, stripes (R96, Table 4.2) -/

/-- The shape of a deck command: sections, units of a section, rows a stripe holds and their width, its FOLD and LEGQ, its output. -/
structure Work where
  sections : Nat
  units    : Nat
  rows     : Nat
  width    : Nat
  foldRaw  : Nat
  legq     : Nat
  near     : Bool
  out      : Nat
  outLen   : Nat

def Cmd.work (c : Cmd) : Work :=
  if c.opc = ocMatmul then
    let b := matmulBody c.desc
    ⟨(b.n + 127) / 128, (b.k + 511) / 512, b.b, 128, b.fold, b.legq, b.outLoc, b.yAddr, b.b * matmulYRow b⟩
  else if c.opc = ocSearch then
    let b := searchBody c.desc
    ⟨1, (b.nrows / 64 + 1) / 2, b.q, 0, b.fold, b.legq, b.outLoc, b.resAddr, b.q * b.k * 16⟩
  else
    let b := crossBody c.desc
    let score := c.opc == ocScore
    ⟨b.nsec, if score then (b.nent + 127) / 128 else (b.nent + 1) / 2, b.rows, b.wv, b.fold, b.legq, b.outLoc, b.oAddr,
      crossOut b score⟩

/-- Stripes of a command. -/
def Cmd.stripes (c : Cmd) : Nat := c.fold * c.decks.length

/-- Pass steps of a section. -/
def Cmd.steps (c : Cmd) : Nat := (c.work.units + c.stripes - 1) / c.stripes

/-- The units of pass step `k`, stripe by stripe. -/
def Cmd.stepUnits (c : Cmd) (k : Nat) : List Nat :=
  (List.range (min c.stripes (c.work.units - k * c.stripes))).map (· + k * c.stripes)

/-- The deck that serves unit `u`. -/
def Cmd.deckOf (c : Cmd) (u : Nat) : DeckId :=
  match c.decks with
  | [d] => d
  | _ => if u % c.stripes < c.fold then .a else .b

/-- Units of a section before unit `u` that the same deck serves. -/
def Cmd.unitsBefore (c : Cmd) (u : Nat) : Nat := ((List.range u).filter fun v => c.deckOf v == c.deckOf u).length

/-- The place of unit `u` of section `h` in its deck's feed order: ascending pass step, then ascending band (R127). -/
def Cmd.feedIndex (c : Cmd) (h u : Nat) : Nat :=
  h * ((List.range c.work.units).filter fun v => c.deckOf v == c.deckOf u).length + c.unitsBefore u

/-- The n-th unit of a deck's feed order goes to active gather unit n mod A (R127). -/
def State.gatherUnit (s : State) (c : Cmd) (h u : Nat) : Option Nat :=
  let a := s.gatherUnits (c.deckOf u)
  a[c.feedIndex h u % a.length]?

/-! ## Row operands (R104, R115) -/

/-- Where the row operand lies, and its bytes. -/
def Cmd.operand (c : Cmd) : Nat × Nat :=
  if c.opc = ocMatmul then let b := matmulBody c.desc; (b.xAddr, b.b * matmulXRow b)
  else if c.opc = ocSearch then let b := searchBody c.desc; (b.qAddr, roundup (b.q * b.ew * 64) 64)
  else let b := crossBody c.desc; (b.qAddr, crossQuery b)

/-- The row operand as it was read. -/
def Cmd.rowData (c : Cmd) : Payload := inputPayload c 0 c.operand.1 c.operand.2

/-- Document tags of the query tokens, with poison (R104, R112). -/
def queryDocs (b : CrossBody) (p : Payload) : List (Nat × Bool) :=
  (List.range b.t).map fun j =>
    let o := roundup (crossQueryBytes b) 64 + 2 * j
    if b.docmask then (leNat ((p.bytes.drop o).take 2), touched p.poisoned o 2) else (0xFFFF, false)

/-- The query rows of a section; a poisoned tag reaches every row of its token. -/
def sectionRows (b : CrossBody) (p : Payload) (h : Nat) : List (List Num × Bool) :=
  let docs := queryDocs b p
  (List.range b.rows).map fun r =>
    let x := queryRow p b.qfmt b.wk (h * b.rows + r)
    (x.1, x.2 || (docs.getD (r / b.g) (0, false)).2)

/-! ## The lading-list window (R83, R113) -/

/-- Piece number of a granule of a list in a command's inputs. -/
def listPiece (g : Nat) : Nat := 2 ^ 20 + g

/-- The granule of entry `i` of a whole list. -/
def listGranule (list : NearRef) (i : Nat) : Nat := (list.off + 16 * i) / 256

/-- A stop an engine meets itself; a command that is to stop already keeps its first one. -/
def State.halt (s : State) (cid status detail : Nat) : State :=
  match s.cmd cid with
  | some c => if c.stop.isSome then s else s.stopCmd cid status detail
  | none => s

/-- What a span lacks: `none` where it can be read, otherwise the state after asking or stopping. -/
def State.lacks (s : State) (c : Cmd) (r : NearRef) (len : Nat) : Option State :=
  if s.drained c.part r.handle then some (s.halt c.cid stRevoked 0)
  else match s.view c.part r len with
    | .ready => none
    | .failed => some (s.halt c.cid stTierFail 0)
    | .budget => some (s.halt c.cid stBudget 0)
    | .wait => some (s.ask c.part r len)

/-- A named resource's fare, judged as a span is first used, is zero (R451). -/
def State.nearZero (s : State) (c : Cmd) (r : NearRef) : Bool := s.zeroFare c.part (s.nearNeeds c.part [r.handle])

/-- The granules a span costs; none where the balances do not cover them (R132, R263). -/
def State.payNear (s : State) (c : Cmd) (r : NearRef) (len : Nat) : Option State :=
  match s.heldSlot c.part r.handle with
  | none => none
  | some sl =>
    let n := s.granules sl r.off len false
    let g := s.ctxGroup c.ctx
    if s.coversNear c.part g n then some (s.chargeNear c.part g n) else none

/-- Reads one granule of a list or mask into the window at piece `piece`, once; it is charged once (R132). -/
def State.readGranule (s : State) (cid piece : Nat) (list : NearRef) (g : Nat) : State :=
  match s.cmd cid with
  | none => s
  | some c =>
    let r : NearRef := { list with off := 256 * g }
    if (Tab.find c.inputs piece).isSome then s
    else match s.lacks c r 256 with
      | some s => s
      | none =>
        match s.payNear c r 256 with
        | none => s
        | some s =>
          let p := s.readSpan c.part r 256
          (s.updCmd cid fun c => { c with inputs := Tab.put c.inputs piece p }).consume c.part r 256

/-- Reads the granules of entries `lo` to `lo + n − 1`. -/
def State.readList (s : State) (cid : Nat) (list : NearRef) (lo n : Nat) : State :=
  if n = 0 then s
  else
    (List.range (listGranule list (lo + n - 1) - listGranule list lo + 1)).foldl
      (fun s i => s.readGranule cid (listPiece (listGranule list lo + i)) list (listGranule list lo + i)) s

/-- The entry as read, and whether it is poisoned; none where its granule is not in the window. -/
def Cmd.entryRead (c : Cmd) (list : NearRef) (i : Nat) : Option (Entry × Bool) :=
  (Tab.find c.inputs (listPiece (listGranule list i))).map fun p =>
    let o := (list.off + 16 * i) % 256
    (entryOfBytes (p.bytes.drop o), p.poisoned.contains (o / 64))

/-- An entry of a section with its first list position and whether some row sees it; a poisoned entry is lost. -/
structure Reached where
  index : Nat
  entry : Entry
  lost  : Bool
  pos   : Nat
  seen  : Bool

/-- Tokens of an entry; of a poisoned one, a free number (log entry 39). -/
def tokensOf (list : NearRef) (i : Nat) (x : Entry × Bool) : Nat :=
  if x.2 then Config.lostEntry (list.addr + 16 * i) % 64 + 1 else x.1.ntok

/-- Entries `e` on of section `h`, as far as they are in the window. -/
def reachedFrom (c : Cmd) (b : CrossBody) (qdocs : List Nat) (h : Nat) : Nat → Nat → Nat → List Reached
  | _, _, 0 => []
  | pos, e, n + 1 =>
    match c.entryRead b.list (h * b.nent + e) with
    | none => []
    | some x =>
      let k := tokensOf b.list (h * b.nent + e) x
      { index := e, entry := x.1, lost := x.2, pos := pos, seen := !x.2 && entrySeen b qdocs pos k x.1.doc }
        :: reachedFrom c b qdocs h (pos + k) (e + 1) n

/-- Entries a unit of CROSS or SCORE holds. -/
def Cmd.perUnit (c : Cmd) : Nat := if c.opc = ocScore then 128 else 2

/-- The entries of section `h` from the first of the step in hand, or of a later section from its first, up to `hi`, with every
granule they need read. -/
def State.reach (s : State) (cid h hi : Nat) : State × List Reached :=
  match s.cmd cid with
  | none => (s, [])
  | some c =>
    let b := crossBody c.desc
    let lo := if h = c.sec then c.step * c.stripes * c.perUnit else 0
    let s := s.readList cid b.list (h * b.nent + lo) (hi - lo)
    match s.cmd cid with
    | none => (s, [])
    | some c =>
      (s, reachedFrom c b ((queryDocs b c.rowData).map (·.1)) h (if h = c.sec then c.pos else 0) lo (hi - lo))

/-- A berth a list or segment names does not suit the deck or decks of a command (R98). -/
def State.misfit (s : State) (c : Cmd) (h : Nat) : Bool :=
  match s.kindOf c.part h, c.place with
  | some k, some p => k != p
  | _, _ => false

/-- Entries are judged as they are reached: a malformed one is reported and stops the command, one of the wrong affinity stops
it (R83, R98). -/
def State.judgeEntries (s : State) (c : Cmd) (h : Nat) (xs : List Reached) : State :=
  let b := crossBody c.desc
  match xs.find? fun x => !x.lost && (s.entryBad c.part (some b.wk) x.entry ||
      (c.opc == ocCross && (s.misfit c x.entry.k.handle || (!b.shared && s.misfit c x.entry.v.handle)))) with
  | none => s
  | some x =>
    if c.stop.isSome then s
    else if s.entryBad c.part (some b.wk) x.entry then (s.logBadList c 14 x.index h).halt c.cid stBadDesc 0x7F
    else s.halt c.cid stBadDesc 0x2B

/-! ## Tiles of a unit -/

/-- A tile a pass step needs: the unit it belongs to, its place in scratchpad and the bytes it is read from. -/
structure Need where
  unit : Nat
  ent  : Nat
  isV  : Bool
  src  : NearRef
  len  : Nat

/-- The tiles of one entry. -/
def entryNeeds (c : Cmd) (b : CrossBody) (h : Nat) (x : Reached) : List Need :=
  if !x.seen then []
  else if c.opc = ocScore then
    if x.entry.sumv then
      let sum := ref44 b.sumRaw
      [⟨x.index / 128, x.index, false,
        { sum with off := sum.off + h * b.sumH * 64 + x.index * summaryBytes b.wk }, summaryBytes b.wk⟩]
    else []
  else
    let n := tileBytes x.entry.fmt b.wk
    ⟨x.index / 2, x.index, false, x.entry.k, n⟩ :: if b.shared then [] else [⟨x.index / 2, x.index, true, x.entry.v, n⟩]

/-- Segments of a SEARCH as its launch read them. -/
def Cmd.segs (c : Cmd) : List Seg :=
  let p := Tab.get ⟨[], []⟩ c.inputs (listPiece 0)
  segsOf p.bytes (searchBody c.desc).nseg

/-- The tiles of units `us` of section `h`. -/
def Cmd.needs (c : Cmd) (h : Nat) (us : List Nat) (xs : List Reached) : List Need :=
  if c.opc = ocMatmul then
    let b := matmulBody c.desc
    us.map fun u => ⟨u, u, false, { b.w with off := b.w.off + (h * c.work.units + u) * weightPitch b.wfmt }, weightTile b.wfmt⟩
  else if c.opc = ocSearch then
    let b := searchBody c.desc
    us.flatMap fun u => ([2 * u, 2 * u + 1].filter (· < b.nrows / 64)).filterMap fun g =>
      (tileAt c.segs g).map fun x =>
        let n := rowTileBytes b.tfmt (32 * b.ew)
        ⟨u, g, false, { x.1.at_ with off := x.1.at_.off + x.2 * n }, n⟩
  else
    let b := crossBody c.desc
    (xs.filter fun x => us.contains (x.index / c.perUnit)).flatMap (entryNeeds c b h)

/-- The tiles of pass step `k` of section `h`, the list window read as far as they need it; none where an entry is not at hand. -/
def State.stepNeeds (s : State) (cid h k : Nat) : State × Option (List Need × List Reached) :=
  match s.cmd cid with
  | none => (s, none)
  | some c =>
    let us := c.stepUnits k
    if c.opc = ocMatmul ∨ c.opc = ocSearch then (s, some (c.needs h us [], []))
    else
      let b := crossBody c.desc
      let lo := k * c.stripes * c.perUnit
      let hi := min b.nent ((k + 1) * c.stripes * c.perUnit)
      let r := s.reach cid h hi
      let xs := r.2.filter fun x => lo ≤ x.index
      match r.1.cmd cid with
      | none => (r.1, none)
      | some c =>
        let s := r.1.judgeEntries c h xs
        if xs.length = hi - lo && ((s.cmd cid).bind (·.stop)) == c.stop
            && !xs.any (fun x => !x.lost && s.entryBad c.part (some b.wk) x.entry) then (s, some (c.needs h us xs, xs))
        else (s, none)

/-! ## Scratchpad (R127 to R131) -/

def tileIs (c : Cmd) (h : Nat) (n : Need) (t : Tile) : Bool := t.cid == c.cid && t.sec == h && t.ent == n.ent && t.isV == n.isV

/-- A need's tile is valid in the scratchpad of its deck. -/
def State.tileValid (s : State) (c : Cmd) (h : Nat) (n : Need) : Bool :=
  (s.deck (c.deckOf n.unit)).scratch.any fun t => tileIs c h n t && t.valid

/-- The bytes of a valid tile. -/
def State.tileData (s : State) (c : Cmd) (h : Nat) (n : Need) : Payload :=
  (((s.deck (c.deckOf n.unit)).scratch.find? fun t => tileIs c h n t && t.valid).map (·.data)).getD ⟨[], []⟩

/-- Granules of a tile. -/
def Need.granules (n : Need) : Nat := (n.src.off % 256 + n.len + 255) / 256

/-- Bytes the feed window of a deck holds; a tile that is arriving holds the place of all its granules (R131). -/
def windowBytes (d : Deck) : Nat := (d.scratch.map fun t => if t.valid then t.data.bytes.length else 256 * t.need).sum

/-- Granule reads a gather unit of a deck has in flight: what is still to arrive of its tiles (R128, Table 5.14). -/
def inflightReads (d : Deck) (unit : Nat) : Nat :=
  ((d.scratch.filter fun t => !t.valid && t.unit == unit).map fun t => t.need - t.got).sum

/-- The step of a need counted from the step in hand. -/
def Cmd.stepsAhead (c : Cmd) (h u : Nat) : Nat := h * c.steps + u / c.stripes - (c.sec * c.steps + c.step)

/-- A tile is in scratchpad, whole or arriving: its granules have all been issued. -/
def State.tileIssued (s : State) (c : Cmd) (h : Nat) (n : Need) : Bool :=
  (s.deck (c.deckOf n.unit)).scratch.any (tileIs c h n)

/-- The tiles of the pass steps from the one in hand to just before step `k` of section `h`, each with its section. -/
def State.earlierNeeds (s : State) (cid h k : Nat) : State × List (Nat × Need) :=
  match s.cmd cid with
  | none => (s, [])
  | some c =>
    let g := c.sec * c.steps + c.step
    (List.range (h * c.steps + k - g)).foldl (fun (a : State × List (Nat × Need)) j =>
      let x := ((g + j) / c.steps, (g + j) % c.steps)
      let r := a.1.stepNeeds cid x.1 x.2
      (r.1, a.2 ++ ((r.2.map (·.1)).getD []).map fun n => (x.1, n))) (s, [])

/-- A gather unit's turn has come to a tile: every tile before it in the unit's feed order has been issued, or waits for the tier
engine (R127 to R129). -/
def State.feedTurn (s : State) (c : Cmd) (unit : Nat) (before : List (Nat × Need)) : Bool :=
  before.all fun x => s.gatherUnit c x.1 x.2.unit != some unit || s.tileIssued c x.1 x.2
    || s.drained c.part x.2.src.handle || s.view c.part x.2.src x.2.len != .ready

/-- A burst of at most 16 granules of a tile arrives; with the last one the tile is delivered and its tag set valid. A tile that is
begun is issued whole: it keeps its turn, at most 4,096 reads of its gather unit are in flight, and the feed window holds all of
it (R127, R128, R131, R133). -/
def State.deliver (s : State) (c : Cmd) (h : Nat) (n : Need) (k : Nat) (before : List (Nat × Need)) : State :=
  let d := c.deckOf n.unit
  let old := (s.deck d).scratch.find? (tileIs c h n)
  let got := (old.map (·.got)).getD 0
  let k := min (min k 16) (n.granules - got)
  match (old.map (·.unit)).orElse fun _ => s.gatherUnit c h n.unit with
  | none => s
  | some unit =>
    if k = 0 || (old.isNone && (33554432 < windowBytes (s.deck d) + 256 * n.granules
        || 4096 < inflightReads (s.deck d) unit + n.granules || !s.feedTurn c unit before)) then s
    else if s.nearZero c n.src then s.halt c.cid stBudget 0
    else match s.lacks c n.src n.len with
      | some s => s
      | none =>
        match s.payNear c { n.src with off := n.src.off / 256 * 256 + 256 * got } (256 * k) with
        | none => s.fareStall (some c.cid) c.part
        | some s =>
          let s := s.bump GU_PART_FEED.BYTES c.part (256 * k)
          let whole := got + k == n.granules
          let t : Tile := { cid := c.cid, sec := h, ent := n.ent, isV := n.isV, unit := unit, need := n.granules, got := got + k,
                            valid := whole, data := if whole then s.readSpan c.part n.src n.len else ⟨[], []⟩ }
          let s := s.updDeck d fun x => { x with scratch := (x.scratch.filter fun t => !tileIs c h n t) ++ [t] }
          if whole then (s.consume c.part n.src n.len).endStalls fun x =>
              x.cid == some c.cid && x.handle == n.src.handle && x.off == n.src.off && x.len == n.len
          else s

/-- GRANULE_READ_RETURN for a launched deck command: the tile is one that a step no further than FEED_AHEAD ahead needs
(R129 to R131). -/
def State.granuleReturn (s : State) (cid h ent : Nat) (isV : Bool) (k : Nat) : State :=
  match s.cmd cid with
  | none => s
  | some c =>
    let u := if c.opc = ocCross ∨ c.opc = ocSearch then ent / 2 else if c.opc = ocScore then ent / 128 else ent
    if !deckOpcode c.opc || c.stage != .running || c.work.sections ≤ h || c.work.units ≤ u || h < c.sec
        || h * c.steps + u / c.stripes < c.sec * c.steps + c.step || c.ahead < c.stepsAhead h u then s
    else
      let e := s.earlierNeeds cid h (u / c.stripes)
      let r := e.1.stepNeeds cid h (u / c.stripes)
      match r.2, r.1.cmd cid with
      | some x, some c =>
        let mine (n : Need) : Bool := n.ent == ent && n.isV == isV
        match x.1.find? mine with
        | some n =>
          if r.1.tileValid c h n then r.1
          else r.1.deliver c h n k (e.2 ++ (x.1.takeWhile fun n => !mine n).map fun n => (h, n))
        | none => r.1
      | _, _ => r.1

/-- GRANULE_READ_RETURN (R128). -/
def execGranuleReadReturn (cid sec ent : Nat) (isV : Bool) (granules : Nat) (s : State) : Host.Outcome State Fault Refusal :=
  .next (whenUp s fun s => (s.granuleReturn cid sec ent isV granules).retryHeld)

end Sys2Proof.Machine
end

