-- ==== Sys2Proof/Machine/Berths.lean ====
section
/-! DEFINITION. Berths and moorings (chapter 7): the operations of PM_BERTH_CMD, leases, drains and scrubs, patrol, row repair
and the retirement and failure of channels. -/

namespace Sys2Proof.Machine

/-! ## Physical berths (R181, R185) -/

/-- A half-local berth is bulk (Table 7.2). -/
def bulkBerth (b : Nat) : Bool := 1152 ≤ b && b < 15360

/-- The physical berths a slot's kind names, as (half, half-local berth); a tally pair is named by its half-A berth. -/
def Slot.physical (sl : Slot) : List (Nat × Nat) :=
  if sl.kind = kindDeckA then [(0, sl.physA)]
  else if sl.kind = kindDeckB then [(1, sl.physB)]
  else if sl.kind = kindLashed then [(0, sl.physA), (1, sl.physB)]
  else [(0, sl.physA)]

/-- Each named berth lies in its kind's region. -/
def Slot.inRegion (sl : Slot) : Bool :=
  if sl.kind = kindTally then 256 ≤ sl.physA && sl.physA < 768 else sl.physical.all fun b => bulkBerth b.2

/-- A physical berth is FREE. -/
def State.berthFree (s : State) (b : Nat × Nat) : Bool := s.heldSlots.all fun e => !e.2.physical.contains b

/-- Bulk berths of a half that are not FREE. -/
def State.berthsTaken (s : State) (half : Nat) : Nat :=
  ((s.heldSlots.flatMap fun e => if e.2.kind = kindTally then [] else e.2.physical).filter fun b => b.1 == half).eraseDups.length

/-- PM_HALF_STATUS.FREE_BERTHS follows the slots (Table 7.16). -/
def State.syncFree (s : State) : State :=
  (s.put PM_HALF_STATUS.FREE_BERTHS 0 (14208 - s.berthsTaken 0)).put PM_HALF_STATUS.FREE_BERTHS 1 (14208 - s.berthsTaken 1)

/-- The other slot of a lashed pair, where it is granted. -/
def State.pairOf (s : State) (key : Nat) (sl : Slot) : Option Nat :=
  if sl.kind != kindLashed then none
  else (s.heldSlots.find? fun e => e.1 != key && e.2.kind == kindLashed && e.2.physA == sl.physA && e.2.physB == sl.physB).map (·.1)

/-- A GRANT's berths may be taken: all FREE, or those of a pair whose one entry is GRANTED or MOORED in the same partition
with the other LHALF (R185, R198). -/
def State.berthsOk (s : State) (part : Nat) (sl : Slot) : Bool :=
  sl.physical.all s.berthFree ||
  (sl.kind == kindLashed &&
    (match s.heldSlots.filter fun e => e.2.physical.any sl.physical.contains with
     | [e] => e.1 / 32768 == part && e.2.kind == kindLashed && e.2.physA == sl.physA && e.2.physB == sl.physB
         && e.2.lhalf != sl.lhalf && (e.2.state == .granted || e.2.state == .moored)
     | _ => false))

/-! ## Leases (Table 7.8) -/

/-- The lease of a slot in milliseconds; none where it is pinned. -/
def Slot.lease (sl : Slot) : Option Nat :=
  match sl.lprofile with
  | 0 => if sl.leaseMs = 0 then none else some sl.leaseMs
  | 1 => some 250
  | 2 => some 50
  | 3 => some 5000
  | _ => none

/-- REMAIN_US: the lease left in microseconds, zero unless ACTIVE (Table 7.13); containment freezes it (R372). -/
def State.remainUs (s : State) (sl : Slot) : Nat :=
  match sl.lease with
  | some ms =>
    if sl.state = .moored ∧ sl.mooring = .active then (msCycles ms - (sl.frozenAt.getD s.tb.hclk - sl.renewed)) / 1200 else 0
  | none => 0

/-! ## The operations (R185, R193, R198, R202) -/

/-- RESULT of an operation. -/
def State.berthResult (s : State) (r : Nat) : State := s.put PM_BERTH_CMD.RESULT 0 r

/-- GRANT of a slot: RESULT, and the state it leaves (R185, R202). -/
def State.grantSlot (s : State) (p n : Nat) : State :=
  let sl := s.slot p n
  if n = 0 ∨ s.partState p ≠ partLive ∨ sl.state ≠ .empty then s.berthResult 1
  else if sl.kind ≠ kindLashed ∧ sl.lhalf = 1 then s.berthResult 4
  else if !sl.inRegion || !s.berthsOk p sl then s.berthResult 2
  else
    let s := s.setSlot p n { sl with state := .granted, mooring := .ended, expired := false, revoke := false }
    (({ s with pm := { s.pm with saltLocked := true } } : State).syncFree).berthResult 0

/-- MOOR of a slot. -/
def State.moorSlot (s : State) (p n : Nat) : State :=
  let sl := s.slot p n
  if n = 0 ∨ s.partState p ≠ partLive ∨ sl.state ≠ .granted then s.berthResult 1
  else if s.ctxPart sl.mctx ≠ p then s.berthResult 3
  else (s.setSlot p n { sl with state := .moored, mooring := .active, renewed := s.tb.hclk, frozenAt := none, graceAt := 0, expired := false,
                                revoke := false }).berthResult 0

/-- RENEW of a slot: a full lease, also from GRACE (R193). -/
def State.renewSlot (s : State) (p n : Nat) : State :=
  let sl := s.slot p n
  if n = 0 ∨ s.partState p ≠ partLive ∨ sl.state ≠ .moored then s.berthResult 1
  else ((s.setSlot p n { sl with mooring := .active, renewed := s.tb.hclk }).recheckHeld).berthResult 0

/-- Sealed ranges on a berth are unsealed (R395). -/
def State.unsealBerth (s : State) (p h : Nat) : State :=
  { s with ps := { s.ps with seals := s.ps.seals.map fun e =>
      if e.2.part == p && e.2.handle == h then (e.1, { e.2 with live := false, busy := false }) else e } }

/-- A MOORED slot enters DRAINING: its mooring ends, its sealed ranges are unsealed, descriptors held for its GRACE complete
REVOKED (R193, R194, R395). -/
def State.startDrain (s : State) (p n : Nat) (revoke : Bool) : State :=
  let sl := s.slot p n
  (((s.setSlot p n { sl with state := .draining, mooring := .ended, expired := false, revoke := revoke }).unsealBerth p
    (slotHandle n sl)).recheckHeld).moveCursors

/-- A slot is revoked (R198): a GRANTED one is EMPTY at once, a MOORED one drains, a drain or scrub under way ends EMPTY. -/
def State.revokeSlot (s : State) (p n : Nat) : State :=
  let sl := s.slot p n
  match sl.state with
  | .empty => s
  | .granted => (s.setSlot p n { sl with state := .empty }).syncFree
  | .moored => s.startDrain p n true
  | _ => s.setSlot p n { sl with revoke := true }

/-- A slot is revoked, with the other handle of a lashed pair (R185, R197). -/
def State.revokePair (s : State) (p n : Nat) : State :=
  match s.pairOf (slotKey p n) (s.slot p n) with
  | some k => (s.revokeSlot p n).revokeSlot (k / 32768) (k % 32768)
  | none => s.revokeSlot p n

/-- UNMOOR and REVOKE are accepted in LIVE and CONTAINED (R202). -/
def State.berthActive (s : State) (p : Nat) : Bool := s.partState p == partLive || s.partState p == partContained

/-- UNMOOR of a slot. -/
def State.unmoorSlot (s : State) (p n : Nat) : State :=
  if n = 0 || !s.berthActive p || (s.slot p n).state != .moored then s.berthResult 1
  else (s.startDrain p n false).berthResult 0

/-- REVOKE of a slot. -/
def State.revokeOp (s : State) (p n : Nat) : State :=
  if n = 0 || !s.berthActive p || (s.slot p n).state == .empty then s.berthResult 1
  else (s.revokePair p n).berthResult 0

/-- OP written to PM_BERTH_CMD: the operation on the selected slot (R202); other values are refused. -/
def State.berthOp (s : State) (op : Nat) : State :=
  let p := s.get PM_BERTH_SEL.PART
  let n := s.get PM_BERTH_SEL.SLOT
  match op with
  | 1 => s.grantSlot p n
  | 2 => s.moorSlot p n
  | 3 => s.renewSlot p n
  | 4 => s.unmoorSlot p n
  | 5 => s.revokeOp p n
  | _ => s

/-- GRANT (R185). -/
def execGrant (up : Nat) (s : State) : Host.Outcome State Fault Refusal := .next (barWrite up 0x900028 s fun s => s.berthOp 1)
/-- MOOR (R202). -/
def execMoor (up : Nat) (s : State) : Host.Outcome State Fault Refusal := .next (barWrite up 0x900028 s fun s => s.berthOp 2)
/-- RENEW (R193). -/
def execRenew (up : Nat) (s : State) : Host.Outcome State Fault Refusal := .next (barWrite up 0x900028 s fun s => s.berthOp 3)
/-- UNMOOR (R198). -/
def execUnmoor (up : Nat) (s : State) : Host.Outcome State Fault Refusal := .next (barWrite up 0x900028 s fun s => s.berthOp 4)
/-- REVOKE (R198). -/
def execRevoke (up : Nat) (s : State) : Host.Outcome State Fault Refusal := .next (barWrite up 0x900028 s fun s => s.berthOp 5)

/-! ## PM_BERTH_DATA and PM_BERTH_LEASE as views of the selected slot (Tables 7.12 and 7.13) -/

/-- STATE of a slot as a number (Table 7.12). -/
def slotStateCode : SlotState → Nat
  | .empty => 0 | .granted => 1 | .moored => 2 | .draining => 3 | .scrubbing => 4

/-- The selected slot. -/
def State.selSlot (s : State) : Slot := s.slot (s.get PM_BERTH_SEL.PART) (s.get PM_BERTH_SEL.SLOT)

/-- PM_BERTH_DATA as it reads. -/
def State.berthDataWord (s : State) : Nat :=
  let sl := s.selSlot
  slotStateCode sl.state + 8 * sl.kind + 32 * (if sl.kind = kindTally then 2 else sl.cls) + 128 * sl.lhalf + 256 * sl.physA
    + 2 ^ 23 * sl.physB + 2 ^ 38 * sl.gen + 2 ^ 47 * sl.mctx

/-- PM_BERTH_LEASE as it reads. -/
def State.berthLeaseWord (s : State) : Nat :=
  let sl := s.selSlot
  sl.lprofile + 16 * sl.leaseMs + 2 ^ 32 * s.remainUs sl

/-- One field of a window write: the value it takes, and RESULT where it is refused: 1 for the slot's state, 4 for the range;
an unchanged value is never refused (R12, R202). -/
def berthField (allowed : Bool) (old new max : Nat) : Nat × Nat :=
  if new = old then (old, 0) else if !allowed then (old, 1) else if max < new then (old, 4) else (new, 0)

/-- The RESULT several fields of one write leave: the state's refusal before the range's. -/
def berthRefusal (rs : List Nat) : Nat := if rs.contains 1 then 1 else if rs.contains 4 then 4 else 0

/-- RESULT shows a refused data write. -/
def State.noteRefusal (s : State) (r : Nat) : State := if r = 0 then s else s.berthResult r

/-- A write to PM_BERTH_DATA (R202). -/
def State.writeBerthData (s : State) (v : Nat) : State :=
  let p := s.get PM_BERTH_SEL.PART
  let n := s.get PM_BERTH_SEL.SLOT
  let sl := s.slot p n
  let e := n != 0 && sl.state == .empty
  let k := berthField e sl.kind (v / 8 % 4) 3
  let shown := if sl.kind = kindTally then 2 else sl.cls
  let c := if v / 32 % 4 = shown then (sl.cls, 0) else berthField e sl.cls (v / 32 % 4) 1
  let l := berthField e sl.lhalf (v / 128 % 2) 1
  let a := berthField e sl.physA (v / 256 % 32768) 32767
  let b := berthField e sl.physB (v / 2 ^ 23 % 32768) 32767
  let m := berthField (n != 0 && sl.state == .granted) sl.mctx (v / 2 ^ 47 % 4096) 4095
  let s := s.setSlot p n { sl with kind := k.1, cls := c.1, lhalf := l.1, physA := a.1, physB := b.1, mctx := m.1 }
  s.noteRefusal (berthRefusal [k.2, c.2, l.2, a.2, b.2, m.2])

/-- A write to PM_BERTH_LEASE (R202). -/
def State.writeBerthLease (s : State) (v : Nat) : State :=
  let p := s.get PM_BERTH_SEL.PART
  let n := s.get PM_BERTH_SEL.SLOT
  let sl := s.slot p n
  let g := n != 0 && sl.state == .granted
  let a := berthField g sl.lprofile (v % 16) 4
  let b := berthField g sl.leaseMs (v / 16 % 65536) 60000
  (s.setSlot p n { sl with lprofile := a.1, leaseMs := b.1 }).noteRefusal (berthRefusal [a.2, b.2])

/-! ## The end of a lease (R192, R193, R372) -/

/-- LEASE_END: an ACTIVE mooring's lease reaches zero and the mooring enters GRACE; a contained partition's leases are frozen
and a pinned one never ends. -/
def execLeaseEnd (part slot : Nat) (s : State) : Host.Outcome State Fault Refusal :=
  .next (whenUp s fun s =>
    let sl := s.slot part slot
    if sl.state = .moored ∧ sl.mooring = .active ∧ sl.lease.isSome ∧ s.contained part = false then
      s.setSlot part slot { sl with mooring := .grace, graceAt := s.tb.hclk }
    else s)

/-- GRACE_END: GRACE passes with no renewal, so the slot drains. -/
def execGraceEnd (part slot : Nat) (s : State) : Host.Outcome State Fault Refusal :=
  .next (whenUp s fun s =>
    let sl := s.slot part slot
    if sl.state = .moored ∧ sl.mooring = .grace ∧ s.contained part = false then s.startDrain part slot false else s)

/-! ## Drain and scrub (R194 to R197) -/

/-- Tally lines of a slot. -/
def State.slotLines (s : State) (sl : Slot) : List Nat :=
  if sl.kind = kindTally then (s.ho.lines.filter fun e => e.1 * 128 / berthBytes == sl.physA).map (·.1) else []

/-- One request queued at the home is aborted (R194). -/
def State.abortReq (s : State) (p : Nat) (r : HomeReq) : State :=
  match r with
  | .frame f => s.revokeFrame f
  | .cmd cid => (s.bump PM_PART_ERR.REVOKED p 1).answerCmd cid stRevoked 0 0
  | .linked line cid =>
    match s.cmd cid with
    | some c => if c.stage == .atHome then
        ((s.setLine line { s.line line with txn := none }).bump PM_PART_ERR.REVOKED p 1).answerCmd cid stRevoked 0 0 else s
    | none => s
  | _ => s

/-- Every request queued, in progress or parked on a line is aborted. -/
def State.abortLine (s : State) (p ln : Nat) : State :=
  let l := s.line ln
  let reqs := (match l.txn with | some t => [t.req] | none => []) ++ l.queue
  reqs.foldl (fun s r => s.abortReq p r) (s.setLine ln { l with txn := none, queue := [] })

/-- Parked commands of a slot's lines are aborted. -/
def State.abortWaiters (s : State) (p : Nat) (sl : Slot) : State :=
  (s.ho.waiters.filter fun w => sl.kind == kindTally && w.line * 128 / berthBytes == sl.physA).foldl (fun s w =>
    (s.abortReq p (.cmd w.cid)).unpark w.cid) s

/-- Commands on their way to the home for a line of a slot are aborted. -/
def State.abortArrivals (s : State) (p n : Nat) : State :=
  (s.fe.cmds.filter fun c => c.part == p && c.stage == .atHome && c.opc != ocFence && handleSlot (ref50 (homeAddr c)).handle == n).foldl
    (fun s c => s.abortReq p (.cmd c.cid)) s

/-- Fills of a window that wait for a fare are dropped. -/
def State.dropWaitingFills (s : State) (key : Nat) : State :=
  (s.te.fills.filter fun f => f.key == key && f.rebuildOf.isNone && !f.issued).foldl (fun s f =>
    (s.dropFill f.fid).setBlock key f.block .absent) s

/-- Commands an engine runs, or will run, that name a handle of a partition. -/
def State.engineCmds (s : State) (p h : Nat) : List Cmd :=
  s.fe.cmds.filter fun c => c.part == p && c.berths.contains h && (c.stage == .dispatched || c.stage == .running)

/-- DRAIN_US_EXPIRY: queued transactions abort REVOKED, and commands that name the berth stop at their next boundary (R194). -/
def execDrainUsExpiry (part slot : Nat) (s : State) : Host.Outcome State Fault Refusal :=
  .next (whenUp s fun s =>
    let sl := s.slot part slot
    if sl.state ≠ .draining ∨ sl.expired = true then s
    else
      let s := s.setSlot part slot { sl with expired := true }
      let s := s.stopAll ((s.engineCmds part (slotHandle slot sl)).map (·.cid)) stRevoked 0
      let s := (s.slotLines sl).foldl (fun s ln => s.abortLine part ln) s
      (((s.abortWaiters part sl).abortArrivals part slot).dropWaitingFills (slotKey part slot)).retryHeld)

/-- What the scrub of a slot clears: its own granules, and after a REVOKE of a lashed handle both physical berths of the pair, but for
what the other handle still drains (R197). -/
def State.scrubs (s : State) (part slot a : Nat) : Bool :=
  let sl := s.slot part slot
  let other := match s.pairOf (slotKey part slot) sl with
    | some k => match (s.slot (k / 32768) (k % 32768)).state with
      | .moored => false
      | .draining => false
      | _ => true
    | none => true
  sl.owns a || (sl.revoke && sl.kind == kindLashed && other && ({ sl with lhalf := 1 - sl.lhalf } : Slot).owns a)

/-- The scrub of a slot: zero bytes, no poison, no tally line (R197). -/
def State.scrubSlot (s : State) (part slot : Nat) : State :=
  let sl := s.slot part slot
  let lines := if sl.kind = kindTally then s.ho.lines.filter (fun e => !(sl.owns (e.1 * 128))) else s.ho.lines
  let leases := if sl.kind = kindTally then s.ho.leases.filter (fun e => !(sl.owns (e.1 / 4096 * 128))) else s.ho.leases
  { s with pm := { s.pm with near := s.pm.near.scrub (s.scrubs part slot) }, ho := { s.ho with lines := lines, leases := leases } }

/-- SCRUB_COMPLETE: GEN increments; the slot is EMPTY after a REVOKE, else GRANTED (R184, R197, R198). -/
def execScrubComplete (part slot : Nat) (s : State) : Host.Outcome State Fault Refusal :=
  .next (whenUp s fun s =>
    let sl := s.slot part slot
    if sl.state ≠ .scrubbing then s
    else
      let s := s.scrubSlot part slot
      (s.setSlot part slot { sl with state := if sl.revoke then .empty else .granted, gen := (sl.gen + 1) % 512,
                                     expired := false, revoke := false }).syncFree)

/-! ## Patrol, rows and channels (R188 to R190, R199 to R201, R370) -/

/-- ROW_REPAIR: a row that reached ROW_CE is repaired with its contents and poison kept; the bank is free (R370). -/
def execRowRepair (chan row : Nat) (s : State) : Host.Outcome State Fault Refusal :=
  .next (whenUp s fun s =>
    let k := chan * 12582912 + row
    if s.rowCount k < s.get HS_RAS_CFG.ROW_CE then s
    else
      let b := s.drawBytes 1
      let s := { b.2 with pm := { b.2.pm with rowCe := Tab.erase b.2.pm.rowCe k } }
      s.log { cause := .rowRepair, loc := loc [chan / 32, chan % 32, leNat b.1], die := some (dieStack (chan / 32)) })

/-- CHANNEL_RETIRE_REQUEST (R200). -/
def execChannelRetireRequest (chan : Nat) (s : State) : Host.Outcome State Fault Refusal :=
  .next (whenUp s fun s => s.retireChannel chan)

/-- MIGRATION_COMPLETE: the channel is RETIRED with its granules in the reserve (R200). -/
def execMigrationComplete (chan : Nat) (s : State) : Host.Outcome State Fault Refusal :=
  .next (whenUp s fun s =>
    if s.get PM_CHAN_STATUS.STATE chan ≠ 1 then s
    else
      let s := ((s.put PM_CHAN_STATUS.STATE chan 2).put PM_CHAN_STATUS.MIG_PCT chan 100).countRetired (chan / 320)
      s.log { cause := .chanRetire, loc := chan, count := 2995, die := some (dieStack (chan / 32)) })

/-- The granules (0 to 262,143) of a half-local berth that the hash places on a channel of its half: one in each of its rows (R186). -/
def granulesOn (salt : BitVec 32) (berth ch : Nat) : List Nat :=
  (List.range 821).filterMap fun i =>
    let g := granuleIn salt (ch % 320) (berth * 262144 / 320 + i)
    if berth * 262144 ≤ g ∧ g < (berth + 1) * 262144 then some (g - berth * 262144) else none

/-- First bytes of the granules of a slot that lie on a channel now, by the hash or redirected there (R186, R199). -/
def State.slotGranulesOn (s : State) (sl : Slot) (chan : Nat) : List Nat :=
  let half := chan / 320
  let homes := (chan :: ((s.pm.placed.map (·.chan)).filter fun c => c / 320 == half)).eraseDups
  (sl.physical.filter fun b => b.1 == half || sl.kind == kindTally).flatMap fun b =>
    homes.flatMap fun h => ((granulesOn s.salt b.2 (h % 320)).map fun g => physByte half b.2 (g * 256)).filter
      fun a => sl.owns a && (s.placeOf a).1 == chan

/-- A class as CHAN_FAIL's COUNT gives it (Table 15.6, Table 7.12). -/
def Slot.classCode (sl : Slot) : Nat := if sl.kind = kindTally then 2 else sl.cls

/-- What a failed channel does to one slot, of which it held the granules `gs` (R201, Table 7.3): bulk sectors are lost as their class
says; a mirrored granule is served from the other copy and, with reserve left, copied back, and is lost where that copy is lost too. -/
def State.failGranules (s : State) (exhausted : Bool) (chan : Nat) (e : Nat × Slot) (gs : List Nat) : State :=
  if gs.isEmpty then s
  else
    let s := gs.foldl (fun s a => (List.range 4).foldl (fun s i => s.loseSector (a / 64 + i)) s) s
    let s := match exhausted && e.2.kind != kindTally, s.window e.1 with
      | true, some w => s.setWindow e.1 { w with through := true }
      | _, _ => s
    s.log { cause := .chanFail, part := some (e.1 / 32768), loc := chan, addr := slotHandle (e.1 % 32768) e.2 * 67108864,
            count := e.2.classCode, die := some (dieStack (chan / 32)) }

/-- Granules of device metadata whose two copies would both be lost with a channel (R191). -/
def State.metadataOn (s : State) (chan : Nat) : Bool :=
  let half := chan / 320
  let both (g : Nat) : Bool := (s.follow half 8 g).1 == chan && s.pm.dead.contains (s.follow (1 - half) 8 g).1
  let row (ch i : Nat) : Bool := let g := granuleIn s.salt (ch % 320) i; g < 256 * 262144 && both g
  let here := s.pm.placed.filter fun p => p.chan % 320 == chan % 320
  !s.pm.dead.isEmpty &&
    (if here.isEmpty then row chan 0 else (List.range 209716).any (row chan)) ||
      (s.pm.placed.filter fun p => p.chan != chan && p.chan / 320 == half).any fun p => (List.range 209716).any (row p.chan)

/-- A granule of a mirrored pair whose two copies are lost waits for the loss to be acted on; `pairMeta` stands for any of device
metadata (R191). -/
def pairMeta : Nat := 0

/-- CHANNEL_FAIL: a channel that fails before its data are copied enters FAILED; its granules go to the reserve, or stay in place when
that is used up (R199, R201). What a migration has redirected is safe. -/
def State.failChannel (s : State) (chan : Nat) : State :=
  let half := chan / 320
  let moving := s.get PM_CHAN_STATUS.STATE chan == 1
  let exhausted := !moving && 8 ≤ s.reserveUsed half
  let hit := s.heldSlots.map fun e => (e, s.slotGranulesOn e.2 chan)
  let meta_ := s.metadataOn chan
  let s := if exhausted then
      let s := ({ s with pm := { s.pm with dead := addSorted chan s.pm.dead } } : State).put PM_CHAN_STATUS.STATE chan 3
      ((s.put PM_HALF_STATUS.EXHAUSTED half 1).syncReserve half).degrade
    else ((if moving then s else s.mapRows chan).put PM_CHAN_STATUS.STATE chan 3).countRetired half
  let s := hit.foldl (fun s x => s.failGranules exhausted chan x.1 x.2) s
  let s := if meta_ then { s with pm := { s.pm with lostPairs := addSorted pairMeta s.pm.lostPairs } } else s
  s.retryHeld

end Sys2Proof.Machine
end

