-- ==== Sys2Proof/Machine/DeckRun.lean ====
section
/-! DEFINITION. The deck commands themselves (chapter 4): launch, the work of a pass step, the ends of sections, and outputs. -/

namespace Sys2Proof.Machine

/-! ## Outputs (R105, R112, R114 to R118) -/

/-- Sectors from the one that holds byte `a` on that hold any of `n` bytes from byte `a + o`, counted from the first. -/
def sectorsOf (a o n : Nat) : List Nat :=
  if n = 0 then [] else (List.range ((a % 64 + o + n - 1) / 64 - (a % 64 + o) / 64 + 1)).map (· + (a % 64 + o) / 64)

/-- Fixed-size records from address `a`; those whose flag is set are poisoned. -/
def recordsOut (a size : Nat) (rs : List (List Byte × Bool)) : Payload :=
  { bytes := rs.flatMap (·.1),
    poisoned := (((rs.zip (List.range rs.length)).filter (·.1.2)).flatMap fun x => sectorsOf a (size * x.2) size).eraseDups }

/-- Writes of a finished section of CROSS: O, then its pairs. -/
def crossOutputs (b : CrossBody) (h : Nat) (rows : List Partial) : List (Nat × Payload) :=
  let rb := b.wv * elemBits b.ofmt / 8
  let o := b.oAddr + h * b.rows * rb
  let m := b.oAddr + roundup (b.nsec * b.rows * rb) 64 + 8 * b.rows * h
  let word (p : Partial) (x : F32) : List Byte := outBytes 9 (if p.nan then f32NaN else x)
  [(o, recordsOut o rb (rows.map fun p => (rowBytesOut b.ofmt p, p.poison))),
   (m, recordsOut m 8 (rows.map fun p => (word p p.m ++ word p p.l, p.poison)))]

/-- The scores of a section. -/
def scoreOutputs (b : CrossBody) (h : Nat) (rows : List Partial) : List (Nat × Payload) :=
  let o := b.oAddr + h * roundup (4 * b.nent) 64
  if rows.isEmpty then [] else [(o, recordsOut o 4 (rows.map fun p => (outBytes 9 p.m, p.poison)))]

/-- Columns of block `nb`. -/
def MatmulBody.cols (b : MatmulBody) (nb : Nat) : Nat := min 128 (b.n - 128 * nb)

/-- The elements of a column block, row by row; the last block carries the padding of its rows. Rows and columns that poison
reached stand in `marked`, columns above the rows. -/
def matmulOutputs (b : MatmulBody) (marked : List Nat) (nb : Nat) (rows : List Partial) : List (Nat × Payload) :=
  let e := elemBits b.ofmt / 8
  ((rows.zip (List.range rows.length)).map fun x =>
    let a := b.yAddr + x.2 * matmulYRow b + nb * 128 * e
    let els := (x.1.o.zip (List.range x.1.o.length)).map fun v =>
      (outBytes b.ofmt v.1, marked.contains x.2 || marked.contains (b.b + 128 * nb + v.2))
    let d := recordsOut a e els
    (a, { d with bytes := d.bytes ++ List.replicate (roundup d.bytes.length 64 - d.bytes.length) 0 }))

/-- The result lists of a SEARCH. -/
def searchOutputs (b : SearchBody) (c : Cmd) : List (Nat × Payload) :=
  [(b.resAddr, recordsOut b.resAddr (16 * b.k)
    ((List.range b.q).map fun q => (resultList b.k (c.found.getD q []), c.marked.contains q)))]

/-- The outputs of section `h`. -/
def Cmd.outputs (c : Cmd) (h : Nat) (rows : List Partial) : List (Nat × Payload) :=
  if c.opc = ocMatmul then matmulOutputs (matmulBody c.desc) c.marked h rows
  else if c.opc = ocSearch then searchOutputs (searchBody c.desc) c
  else if c.opc = ocScore then scoreOutputs (crossBody c.desc) h rows
  else crossOutputs (crossBody c.desc) h rows

/-- Rows one finished section leaves in `rows`. -/
def Cmd.rowsPerSection (c : Cmd) : Nat :=
  if c.opc = ocScore then (crossBody c.desc).nent else if c.opc = ocSearch then 0 else c.work.rows

/-- VALUE and NAN_SEEN as the command stands: a row that is poisoned is no NaN row (R112, R120). -/
def Cmd.tally (c : Cmd) : Cmd :=
  { c with value := valueDeck c.nanRows c.poisonRows (foldCode c.fold) c.lashed c.count, nan := 0 < c.nanRows }

/-- The first finished section is written; what keeps it from that is asked for or stops the command. -/
def State.writeSection (s : State) (c : Cmd) (h : Nat) : State × Bool :=
  let ws := c.outputs h (c.rows.take c.rowsPerSection)
  let near (x : Nat × Payload) : NearRef × Nat := (ref50 x.1, x.2.bytes.length)
  let bad := if c.work.near then
      ws.findSome? fun x => match s.target c (near x).1 (near x).2 with
        | .ready => none
        | .wait t => some (t, false)
        | .stop s st dt => some (s.halt c.cid st dt, false)
    else none
  match bad with
  | some r => r
  | none =>
    let cost := if c.work.near then ws.flatMap fun x => s.nearCost c.part (near x).1 (near x).2 true else []
    match s.spend c cost with
    | (s, false) => (s, false)
    | (s, true) =>
      match ws.foldl (fun (o : Option State) x => o.bind fun s => s.storeResult c c.work.near x.1 x.2) (some s) with
      | some s => (s.updCmd c.cid fun c => { c with rows := c.rows.drop c.rowsPerSection }, true)
      | none => (s.halt c.cid stEpochRetired 0, false)

/-- A stopped deck command ends; its output region is undefined (R60, R119). One that a ring failure took leaves without a
record (R31). -/
def State.deckStopped (s : State) (c : Cmd) (x : Nat × Nat) : State :=
  let s := ((s.updCmd c.cid Cmd.tally).undefineOutputs c).endStopped c x
  if c.lost then (s.purgeCmd c.cid).dropCmd c.cid else s

/-- A deck command whose sections are all written ends. -/
def State.deckEnd (s : State) (c : Cmd) : State :=
  let s := s.updCmd c.cid Cmd.tally
  if c.poisonRows = 0 then s.finish c.cid else s.finishWith c.cid stPoison 0

/-- Outputs of finished sections are written in order, at most `n` of them; after the last one the command ends. A SEARCH has
one section, whose lists are written when it is finished. -/
def State.deckFlush (s : State) (cid : Nat) : Nat → State
  | 0 => s
  | n + 1 =>
    match s.cmd cid with
    | none => s
    | some c =>
      match s.boundaryStop c with
      | some x => s.deckStopped c x
      | none =>
        let due := if c.opc = ocSearch then (if c.sec = 0 then 0 else 1)
          else if c.rowsPerSection = 0 then 0 else c.rows.length / c.rowsPerSection
        if due = 0 then (if c.work.sections ≤ c.sec then s.deckEnd c else s)
        else
          let r := s.writeSection c (c.sec - due)
          if !r.2 then
            match (r.1.cmd cid).bind (fun c => (r.1.boundaryStop c).map fun x => (c, x)) with
            | some y => r.1.deckStopped y.1 y.2
            | none => r.1
          else if c.opc = ocSearch then r.1.deckEnd c
          else r.1.deckFlush cid n

/-! ## Ends of sections -/

/-- The rows of a finished section of CROSS: the stripes merged; NaN and poison of the row's own operand reach it even where no
unit did (R109 to R112). -/
def crossFinish (b : CrossBody) (c : Cmd) : List Partial :=
  let qs := sectionRows b c.rowData c.sec
  ((mergeStripes b.rows c.acc).zip qs).map fun x =>
    if x.1.poison || x.2.2 then { Partial.neutral b.wv with poison := true }
    else if x.1.nan || x.2.1.any Num.special then Partial.nanRow b.wv else x.1

/-- The output rows of a finished column block of MATMUL (R116). -/
def matmulFinish (b : MatmulBody) (c : Cmd) : List Partial :=
  (List.range b.b).map fun r =>
    { o := matmulSum b.scale (c.acc.map fun st => (st.getD r (Partial.neutral 0)).o) (b.cols c.sec), m := 0, l := 0,
      nan := false, poison := false }

/-- Rows of MATMUL some element of which is poisoned: all of them once a column is. -/
def matmulPoisoned (b : MatmulBody) (marked : List Nat) : List Nat :=
  (List.range b.b).filter fun r => marked.contains r || marked.any (b.b ≤ ·)

/-- A section is over: its rows are finished and counted, and the next one starts with empty partials. -/
def Cmd.closeSection (c : Cmd) : Cmd :=
  let next (c : Cmd) : Cmd :=
    { c with sec := c.sec + 1, step := 0, pos := 0,
             acc := List.replicate c.stripes (List.replicate c.work.rows (Partial.neutral c.work.width)) }
  let c := if c.opc = ocMatmul then
      let b := matmulBody c.desc
      let rows := matmulFinish b c
      let bad := matmulPoisoned b c.marked
      let nanned := (c.nanned ++ (List.range rows.length).filter fun r =>
        match rows[r]? with
        | some p => p.o.any isNaN32
        | none => false).eraseDups
      next { c with rows := c.rows ++ rows, nanned := nanned, poisonRows := bad.length,
                    nanRows := (nanned.filter fun r => !bad.contains r).length }
    else if c.opc = ocCross then
      let rows := crossFinish (crossBody c.desc) c
      next { c with rows := c.rows ++ rows, nanRows := c.nanRows + nanCount rows, poisonRows := c.poisonRows + poisonCount rows }
    else if c.opc = ocSearch then next { c with poisonRows := (c.marked.eraseDups).length, nanRows := c.nanned.length }
    else next c
  c.tally

/-! ## Pass steps -/

/-- The token slots of one entry, 64 of them (R74, R107). -/
def entrySlots (b : CrossBody) (k v : Payload) (x : Reached) : List (Option Slot64) :=
  let row (p : Payload) (t : Nat) : List Num × Bool :=
    let rb := rowBytes x.entry.fmt b.wk
    let so := scalePlane x.entry.fmt b.wk + t * (b.wk / 32)
    (decodeRow x.entry.fmt b.wk ((p.bytes.drop (t * rb)).take rb) ((p.bytes.drop so).take (b.wk / 32)) Num.product,
      touched p.poisoned (t * rb) rb || (isScaled x.entry.fmt && touched p.poisoned so (b.wk / 32)))
  (List.range 64).map fun t =>
    if x.entry.ntok ≤ t || !x.seen then none
    else
      let kr := row k t
      let vr := if b.shared then (kr.1.take b.wv, false) else row v t
      some { pos := x.pos + t, doc := x.entry.doc, key := kr.1, val := vr.1, poison := kr.2 || vr.2 }

/-- Changes stripe `i`. -/
def setStripe (acc : List (List Partial)) (i : Nat) (f : List Partial → List Partial) : List (List Partial) :=
  (acc.zip (List.range acc.length)).map fun x => if x.2 = i then f x.1 else x.1

/-- One pass step of CROSS (R107): each unit is absorbed by its stripe; a lost entry poisons every row of its section. -/
def State.crossStep (s : State) (c : Cmd) (xs : List Reached) : Cmd :=
  let b := crossBody c.desc
  let pre := preScale b.scale b.wk
  let docs := (queryDocs b c.rowData).map (·.1)
  let qs := sectionRows b c.rowData c.sec
  let data (x : Reached) (v : Bool) : Payload := s.tileData c c.sec ⟨x.index / 2, x.index, v, x.entry.k, 0⟩
  let acc := (c.stepUnits c.step).foldl (fun (acc : List (List Partial)) u =>
    let es := xs.filter fun x => x.index / 2 == u
    let slots := (es.flatMap fun x => entrySlots b (data x false) (data x true) x)
    let slots := slots ++ List.replicate (128 - slots.length) none
    setStripe acc (u % c.stripes) fun rows =>
      let rows := absorb b pre docs qs slots rows
      if es.any (·.lost) then rows.map fun p => { p with poison := true } else rows) c.acc
  { c with acc := acc, count := c.count + xs.length }

/-- The score of one entry (R114). Where the query document tags are poisoned, what a row sees is judged from the bytes as they
were read (DESIGN CHOICE, log entry 99). -/
def State.scoreEntry (s : State) (c : Cmd) (b : CrossBody) (pre : F32) (docs : List Nat) (qs : List (List Num × Bool))
    (x : Reached) : Partial :=
  let of (m : F32) (bad : Bool) : Partial := { o := [], m := m, l := 0, nan := isNaN32 m && !bad, poison := bad }
  if x.lost then of f32NegInf true
  else if !x.entry.sumv then of f32PosInf false
  else if !x.seen then of f32NegInf false
  else
    let p := s.tileData c c.sec ⟨x.index / 128, x.index, false, x.entry.k, 0⟩
    let v := decodeRow 8 (b.wk + 1) p.bytes [] Num.product
    let rows := ((qs.zip (List.range qs.length)).filter fun q =>
      (List.range x.entry.ntok).any fun t => visibleAt b (x.pos + t) x.entry.doc (q.2 / b.g) (docs.getD (q.2 / b.g) 0xFFFF))
    if !p.poisoned.isEmpty || rows.any (·.1.2) then of f32NegInf true
    else of (summaryScore pre (rows.map (·.1.1)) (v.take b.wk) (toF32 (v.getD b.wk .zero))) false

/-- One pass step of SCORE: the scores of its entries. -/
def State.scoreStep (s : State) (c : Cmd) (xs : List Reached) : Cmd :=
  let b := crossBody c.desc
  let pre := preScale b.scale b.wk
  let docs := (queryDocs b c.rowData).map (·.1)
  let qs := sectionRows b c.rowData c.sec
  let ps := xs.map (s.scoreEntry c b pre docs qs)
  { c with rows := c.rows ++ ps, nanRows := c.nanRows + nanCount ps, poisonRows := c.poisonRows + poisonCount ps,
           count := c.count + (xs.filter fun x => !x.lost && x.entry.sumv).length }

/-- One pass step of MATMUL (R116). -/
def State.matmulStep (s : State) (c : Cmd) : Cmd :=
  let b := matmulBody c.desc
  let xs := (List.range b.b).map (activationRow b c.rowData)
  let n := b.cols c.sec
  (c.stepUnits c.step).foldl (fun (c : Cmd) u =>
    let t := s.tileData c c.sec ⟨u, u, false, b.w, 0⟩
    let cols := (List.range n).map (weightColumn b t u)
    let bad := (List.range n).filterMap fun j =>
      if ((cols.getD j ([], false)).2) then some (b.b + 128 * c.sec + j) else none
    let acc := setStripe c.acc (u % c.stripes) fun rows => (rows.zip xs).map fun x =>
      { x.1 with o := matmulRow (tileElems x.2.1 u) (cols.map (·.1)) (x.1.o.take n) }
    { c with acc := acc, marked := (c.marked ++ bad).eraseDups }) c

/-- One row of a table against every query: its candidates, and whether any score is NaN; the scores of a poisoned query are lost
with it (R112, R117). -/
def searchRow (b : SearchBody) (qs : List (List Num × Bool)) (row : List Num) (index ident : Nat) :
    List (Option Candidate) × Bool :=
  let scores := qs.map fun q =>
    if q.2 then none
    else if q.1.any Num.special || row.any Num.special then some f32NaN
    else some (f32Mul (if b.scale = 0 then f32One else b.scale) (cellDot q.1 row))
  (scores.map fun x => x.bind fun x =>
      if isNaN32 x then none else some { score := x, index := index, ident := BitVec.ofNat 64 ident },
    scores.any fun x => x.any isNaN32)

/-- The mask bits of `n` rows from row `g` on. -/
def maskSpan (b : SearchBody) (g n : Nat) : NearRef × Nat :=
  let m := ref44 b.maskRaw
  ({ m with off := m.off + g / 8 }, n / 8)

/-- One row tile: rows that the mask or their identifier excludes take no part; poison of a row that takes part, of an identifier
or of a mask sector reaches every query (R117, R118). -/
def searchTile (b : SearchBody) (qs : List (List Num × Bool)) (t mask : Payload) (maskOff g : Nat) (c : Cmd) : Cmd :=
  let e := 32 * b.ew
  (List.range 64).foldl (fun (c : Cmd) x =>
    let r := tableRow b.tfmt e t x
    let mbad := b.maskEn && touched mask.poisoned (maskOff % 64 + x / 8) 1
    let masked := b.maskEn && !mbad && !((mask.bytes.getD (x / 8) 0).getLsbD (x % 8))
    let idbad := touched t.poisoned (rowTileIds b.tfmt e + 8 * x) 8
    if masked || (!idbad && r.2.1 == emptyIdent) then c
    else if r.2.2 || mbad then { c with marked := (c.marked ++ List.range b.q).eraseDups }
    else
      let y := searchRow b qs r.1 (64 * g + x) r.2.1
      { c with
        found := (c.found.zip y.1).map fun z => match z.2 with
          | some k => (insertRanked candidateBefore k z.1).take b.k
          | none => z.1,
        count := c.count + (if y.1.any Option.isSome then 1 else 0),
        nanned := if y.2 then c.nanned ++ [64 * g + x] else c.nanned }) c

/-- Piece number of a granule of a SEARCH's mask in its inputs. -/
def maskPiece (g : Nat) : Nat := 2 ^ 21 + g

/-- The mask sector of 64 rows from row `g` on, as it was read: 8 bytes, and whether it is poisoned. -/
def Cmd.maskRead (c : Cmd) (b : SearchBody) (g : Nat) : Payload :=
  let o := (maskSpan b g 64).1.off
  let p := Tab.get ⟨[], []⟩ c.inputs (maskPiece (o / 256))
  ⟨(p.bytes.drop (o % 256)).take 8, if p.poisoned.contains (o % 256 / 64) then [0] else []⟩

/-- One pass step of SEARCH. -/
def State.searchStep (s : State) (c : Cmd) : Cmd :=
  let b := searchBody c.desc
  let qs := (List.range b.q).map (queryRow c.rowData b.qfmt (32 * b.ew))
  (c.stepUnits c.step).foldl (fun (c : Cmd) u =>
    ([2 * u, 2 * u + 1].filter (· < b.nrows / 64)).foldl (fun (c : Cmd) g =>
      let t := s.tileData c c.sec ⟨u, g, false, b.seg, 0⟩
      searchTile b qs t (if b.maskEn then c.maskRead b (64 * g) else ⟨[], []⟩) (maskSpan b (64 * g) 64).1.off g c) c) c

/-- Granules of the list or mask that lie before the step in hand leave the window (R113). -/
def Cmd.dropList (c : Cmd) : Cmd :=
  if c.opc = ocCross ∨ c.opc = ocScore then
    let b := crossBody c.desc
    let g := listPiece (listGranule b.list (c.sec * b.nent + c.step * c.stripes * c.perUnit))
    { c with inputs := c.inputs.filter fun e => e.1 < listPiece 0 || g ≤ e.1 }
  else if c.opc = ocSearch then
    let g := maskPiece ((maskSpan (searchBody c.desc) (128 * c.step * c.stripes) 0).1.off / 256)
    { c with inputs := c.inputs.filter fun e => e.1 < maskPiece 0 || g ≤ e.1 }
  else c

/-- The work of a pass step and the state of the command after it. -/
def State.stepWork (s : State) (c : Cmd) (xs : List Reached) : Cmd :=
  let c := if c.opc = ocMatmul then s.matmulStep c else if c.opc = ocSearch then s.searchStep c
    else if c.opc = ocScore then s.scoreStep c xs else s.crossStep c xs
  let moved := (xs.map fun x => tokensOf (crossBody c.desc).list (c.sec * (crossBody c.desc).nent + x.index) (x.entry, x.lost)).sum
  let c := { c with step := c.step + 1, pos := c.pos + moved }
  (if c.step < c.steps then c else c.closeSection).dropList

/-- Deck cycles of a pass step; a DEGRADED deck runs each pass in two (R124, "Performance model"). -/
def State.stepCycles (s : State) (c : Cmd) (xs : List Reached) : Nat :=
  let once := if c.opc = ocMatmul then plainPass 512 (matmulBody c.desc).wfmt
    else if c.opc = ocSearch then plainPass (32 * (searchBody c.desc).ew) (searchBody c.desc).tfmt
    else
      let b := crossBody c.desc
      if c.opc = ocScore then plainPass b.wk 8
      else (xs.map fun x =>
        let f := if x.lost then Config.lostEntry (b.list.addr + 16 * (c.sec * b.nent + x.index)) % 8 + 1 else x.entry.fmt
        crossPass b.wk b.wv f).foldl max 32
  if c.decks.any fun d => s.flag DK_DECK_STATUS.DEGRADED (deckNo d) then 2 * once else once

/-! ## Launch (R97, R98, R106, R113, R114, R117, R451) -/

/-- A launched command: its fold, its place and empty partials. -/
def State.launchAt (s : State) (cid place : Nat) (segs : Option Payload) : State :=
  s.updCmd cid fun c =>
    let c := { c with place := some place }
    let w := c.work
    let nr := w.rows
    let c := { c with fold := foldOf w.foldRaw nr w.units c.decks.length, stage := .running, sec := 0, step := 0, pos := 0,
                      count := 0, rows := [] }
    let marks : List Nat :=
      if c.opc = ocMatmul then
        let b := matmulBody c.desc
        (List.range b.b).filter fun r => (activationRow b c.rowData r).2
      else if c.opc = ocSearch then
        let b := searchBody c.desc
        (List.range b.q).filter fun q => (queryRow c.rowData b.qfmt (32 * b.ew) q).2
      else []
    let c := { c with marked := marks, acc := List.replicate c.stripes (List.replicate nr (Partial.neutral w.width)),
                      found := if c.opc = ocSearch then List.replicate nr [] else [] }
    (match segs with
     | some p => { c with inputs := Tab.put c.inputs (listPiece 0) p }
     | none => c).tally

/-- Sections without units are finished at once (Table 4.12). -/
def closeAll (c : Cmd) : Nat → Cmd
  | 0 => c
  | n + 1 => closeAll c.closeSection n

/-- After launch: a command without units writes its outputs and ends with no leg. -/
def State.launched (s : State) (cid : Nat) : State :=
  match s.cmd cid with
  | some c =>
    if c.work.units = 0 then (s.updCmd cid fun c => closeAll c c.work.sections).deckFlush cid (c.work.sections + 1) else s
  | none => s

/-- An unlashed CROSS or SEARCH takes its deck now: without room for one more live queue it goes back to wait at the front end
for that deck, and the fares of the deck are judged (R274, R451). -/
def State.launchOn (s : State) (c : Cmd) (place : Nat) (segs : Option Payload) : State :=
  if c.place.isNone && !s.liveRoom c.ctx (some place) then
    s.updCmd c.cid fun c => { c with stage := .waiting, place := some place }
  else if (s.placeNamed c).isNone && s.zeroFare c.part (if place = 1 then [.deckB, .nearB] else [.deckA, .nearA]) then
    s.finishWith c.cid stBudget 0
  else (s.launchAt c.cid place segs).launched c.cid

/-- The row operand is read whole before anything else (R104, R294). -/
def State.launchOperand (s : State) (c : Cmd) (go : State → Cmd → State) : State :=
  match s.boundaryStop c with
  | some x => s.endStopped c x
  | none =>
    if inputReady c 0 c.operand.1 c.operand.2 then go s c
    else match s.askInput c 0 c.operand.1 c.operand.2 64 with
      | some s => s
      | none => s.retired c.cid

/-- A launched command that holds no leg writes what is finished. -/
def State.deckIdle (s : State) (cid : Nat) : Bool :=
  let free (d : Deck) : Bool := d.leg.all (·.cid != cid) && d.waitingLeg.all (·.cid != cid)
  free s.deckA && free s.deckB

/-- A deck command's row: its launch, or, between legs, the writing of what is finished. -/
def State.deckRow (s : State) (cid opc : Nat) (launch : State → Cmd → State) : State :=
  match s.cmd cid with
  | none => s
  | some c =>
    if c.opc != opc then s
    else if c.stage == .dispatched then (s.launchOperand c launch).retryHeld
    else if c.stage == .running && s.deckIdle cid then (s.deckFlush cid (c.work.sections + 1)).retryHeld
    else s

/-- Launch of SCORE and MATMUL: the deck is the one their descriptor names. -/
def State.launchNamed (s : State) (c : Cmd) : State := s.launchOn c (c.place.getD 0) none

/-- A condition marked "run" met at launch stops the command; its output region is undefined (R119). -/
def State.launchStopped (s : State) (c : Cmd) (detail : Nat) : State := (s.undefineOutputs c).finishWith c.cid stBadDesc detail

/-- Launch of CROSS: an unlashed one takes the deck of the first entry's K tile (R98); where that entry is poisoned the manual
names no deck, and it runs on deck A (DESIGN CHOICE, log entry 81). -/
def State.launchCross (s : State) (c : Cmd) : State :=
  let b := crossBody c.desc
  match c.place with
  | some p => s.launchOn c p none
  | none =>
    if b.nent = 0 ∨ b.nsec = 0 then s.launchOn c 0 none
    else
      let s := s.readList c.cid b.list 0 1
      match s.cmd c.cid with
      | none => s
      | some c =>
        match c.stop, c.entryRead b.list 0 with
        | some x, _ => s.endStopped c x
        | none, none => s
        | none, some x =>
          if x.2 then s.launchOn c 0 none
          else if s.entryBad c.part (some b.wk) x.1 then (s.logBadList c 14 0 0).launchStopped c 0x7F
          else match s.kindOf c.part x.1.k.handle with
            | some 0 => s.launchOn c 0 none
            | some 1 => s.launchOn c 1 none
            | _ => s.launchStopped c 0x2B

/-- A segment's row tiles lie within its berth. -/
def SearchBody.segIn (b : SearchBody) (x : Seg) : Bool := inBerth x.at_.off (x.ntile * rowTileBytes b.tfmt (32 * b.ew))

/-- Launch of SEARCH: the segment list is read once, judged, and segment 0 names the deck (Tables 4.6 and 4.7, R98). A poisoned
list and a segment whose berth does not suit are log entry 81. -/
def State.launchSearch (s : State) (c : Cmd) : State :=
  let b := searchBody c.desc
  let len := 8 * b.nseg
  let bad (d : Nat) : State := s.launchStopped c d
  match s.lacks c b.seg len with
  | some s => (match s.cmd c.cid with
    | some c => (match c.stop with
      | some x => s.endStopped c x
      | none => s)
    | none => s)
  | none =>
    match s.payNear c b.seg len with
    | none => s
    | some t =>
      let p := s.readSpan c.part b.seg len
      let segs := segsOf p.bytes b.nseg
      let place := match c.place, (segs.head?).bind fun x => s.kindOf c.part x.at_.handle with
        | some p, _ => p
        | none, some 1 => 1
        | none, _ => 0
      let suits (x : Seg) : Bool := s.kindOf c.part x.at_.handle == some place
      let t := t.consume c.part b.seg len
      if !p.poisoned.isEmpty then
        let t := t.launchAt c.cid place (some p)
        (t.updCmd c.cid fun c => ({ c with marked := List.range b.q } : Cmd).closeSection).deckFlush c.cid 2
      else if !segsFill segs b.nrows then bad 0x2C
      else if segs.any fun x => (s.heldSlot c.part x.at_.handle).isNone then bad 0x15
      else if segs.any fun x => !b.segIn x then bad 0x27
      else if segs.any fun x => !suits x then bad 0x2B
      else t.launchOn c place (some p)

/-- CROSS (R104). -/
def execCross (cid : Nat) (s : State) : Host.Outcome State Fault Refusal :=
  .next (whenUp s fun s => s.deckRow cid ocCross State.launchCross)
/-- SCORE (R114). -/
def execScore (cid : Nat) (s : State) : Host.Outcome State Fault Refusal :=
  .next (whenUp s fun s => s.deckRow cid ocScore State.launchNamed)
/-- MATMUL (R116). -/
def execMatmul (cid : Nat) (s : State) : Host.Outcome State Fault Refusal :=
  .next (whenUp s fun s => s.deckRow cid ocMatmul State.launchNamed)
/-- SEARCH (R117). -/
def execSearch (cid : Nat) (s : State) : Host.Outcome State Fault Refusal :=
  .next (whenUp s fun s => s.deckRow cid ocSearch State.launchSearch)

end Sys2Proof.Machine
end

