-- ==== Sys2Proof/Machine/DeckSched.lean ====
section
/-! DEFINITION. Legs and the deck scheduler (chapters 4 and 10), residue checks and the toll audit (chapter 15), and the full-state
save. -/

namespace Sys2Proof.Machine

/-! ## Bounds and readiness (R101, R126, R268) -/

/-- The leg bound of a partition in µs (Table 4.13). -/
def State.legUs (s : State) (p : Nat) : Nat :=
  match s.get DK_PART_CFG.PROFILE p with
  | 0 => s.get DK_PART_CFG.LEG_US p
  | 2 => 2
  | 3 => 16
  | _ => 4

/-- L of a leg that starts now, in deck cycles. -/
def State.legBound (s : State) (c : Cmd) : Nat :=
  1600 * (if c.work.legq = 0 then s.legUs c.part else min c.work.legq (s.legUs c.part))

/-- The mask granules of the step in hand are read, each once and charged; whether all are at hand (SEARCH, R132). -/
def State.readMask (s : State) (c : Cmd) : State × Bool :=
  let b := searchBody c.desc
  if c.opc = ocSearch ∧ b.maskEn then
    let m := maskSpan b (128 * c.step * c.stripes) (min (128 * c.stripes) (b.nrows - 128 * c.step * c.stripes))
    let gs := (List.range ((m.1.off + m.2 - 1) / 256 - m.1.off / 256 + 1)).map (· + m.1.off / 256)
    let t := gs.foldl (fun s g => s.readGranule c.cid (maskPiece g) m.1 g) s
    (t, match t.cmd c.cid with
      | some c => gs.all fun g => (Tab.find c.inputs (maskPiece g)).isSome
      | none => false)
  else (s, true)

/-- What the step in hand needs, as far as it can be told now: the state with the list window read, and the tiles and entries. -/
def State.nextStep (s : State) (cid : Nat) : State × Option (List Need × List Reached) :=
  match s.cmd cid with
  | some c => if c.work.sections ≤ c.sec then (s, none) else s.stepNeeds cid c.sec c.step
  | none => (s, none)

/-- Every tile of a step is resident: valid in scratchpad, or at hand for the gather units (R22, R129, R268; DEDUCED, since R102
leaves a switched-in context no valid tag). -/
def State.resident (s : State) (c : Cmd) (ns : List Need) : Bool :=
  ns.all fun n => s.tileValid c c.sec n || (!s.drained c.part n.src.handle && s.view c.part n.src n.len == .ready)

/-- The decks of a command cover `n` cycles, and `extra` more on deck `d`. -/
def State.coversStep (s : State) (c : Cmd) (n : Nat) (d : DeckId) (extra : Nat) : Bool :=
  c.decks.all fun e => s.covers c.part (s.ctxGroup c.ctx) (deckRes e) (if e = d then n + extra else n)

/-- A launched command that holds no leg and whose next step could run on `d`, with `extra` cycles to spare there. -/
def State.readyOn (s : State) (cid : Nat) (d : DeckId) (extra : Nat) : State × Bool :=
  match s.cmd cid with
  | none => (s, false)
  | some c =>
    if !(deckOpcode c.opc && c.stage == .running && c.decks.contains d && c.stop.isNone && s.deckIdle cid) then (s, false)
    else
      let r := s.nextStep cid
      match r.2, r.1.cmd cid with
      | some x, some c => (r.1, c.stop.isNone && r.1.resident c x.1 && r.1.coversStep c (r.1.stepCycles c x.2) d extra)
      | _, _ => (r.1, false)

/-- The commands that are ready on a deck. -/
def State.readyCmds (s : State) (d : DeckId) (extra : Nat) : State × List Cmd :=
  s.fe.cmds.foldl (fun (a : State × List Cmd) c =>
    let r := a.1.readyOn c.cid d (if c.lashed then extra else 0)
    (r.1, if r.2 then a.2 ++ [(r.1.cmd c.cid).getD c] else a.2)) (s, [])

/-! ## The choice (R268, R269) -/

/-- Partition `p` comes before `q`: a smaller share of its fare used, then the lower number. -/
def State.partBefore (s : State) (r : Res) (p q : Nat) : Bool :=
  let x := s.usedNow p r * max (s.fare q r) 1
  let y := s.usedNow q r * max (s.fare p r) 1
  x < y || (x == y && p < q)

/-- The next of several contexts after `c`, ascending and wrapping. -/
def nextCtx (cs : List Nat) (c : Option Nat) : Option Nat :=
  match c with
  | none => cs.min?
  | some c => match (cs.filter (c < ·)).min? with
    | some d => some d
    | none => cs.min?

/-- Cycles of a slice. -/
def State.sliceCycles (s : State) (p : Nat) : Int := (s.sliceUs p * 1600 : Nat)

/-- Cycles left of a context's slice on a deck; a context that never ran there has a whole one. -/
def State.sliceLeft (s : State) (d : DeckId) (ctx p : Nat) : Int := (Tab.find (s.deck d).slice ctx).getD (s.sliceCycles p)

/-- The context a partition's slices give the deck to (R269). -/
def State.pickCtx (s : State) (d : DeckId) (p : Nat) (ready : List Nat) : State × Option Nat :=
  let holder := (Tab.find (s.deck d).holder p)
  let r : State × Option Nat := match holder with
    | none => (s, nextCtx ready none)
    | some c =>
      if !ready.contains c then (s, nextCtx ready (some c))
      else if s.sliceLeft d c p ≤ 0 then
        match nextCtx ready (some c) with
        | some e =>
          let given := match Tab.find (s.deck d).slice e with
            | some left => left + s.sliceCycles p
            | none => s.sliceCycles p
          (s.updDeck d fun x => { x with slice := Tab.put x.slice e given }, some e)
        | none => (s, some c)
      else (s, some c)
  match r.2 with
  | some c => (r.1.updDeck d fun x => { x with holder := Tab.put x.holder p c }, some c)
  | none => r

/-- The leg a deck would choose: partition, context, oldest ready command (R268, R269). -/
def State.choose (s : State) (d : DeckId) (cs : List Cmd) : State × Option Cmd :=
  let parts := (cs.map (·.part)).eraseDups
  match parts.foldl (fun (a : Option Nat) p => match a with
      | none => some p
      | some q => if s.partBefore (deckRes d) p q then some p else some q) none with
  | none => (s, none)
  | some p =>
    let mine := cs.filter (·.part == p)
    let r := s.pickCtx d p (mine.map (·.ctx)).eraseDups
    (r.1, r.2.bind fun x => (keepBest (fun (a b : Cmd) => a.order < b.order) 1 (mine.filter (·.ctx == x))).head?)

/-! ## Starting a leg -/

/-- Whether the leg is audited, and its phase: one leg in 2^AUDIT_LOG2 of the profile (R364, Table 15.8). -/
def State.auditChoice (s : State) : Option Nat × State :=
  let r := s.drawRandom
  let n := match s.get HS_RAS_CFG.PROFILE with
    | 0 => 2 ^ s.get HS_RAS_CFG.AUDIT_LOG2
    | 1 => 256
    | 2 => 16
    | _ => 1
  (if r.1.toNat % n = 0 then some (r.1.toNat / 256 % 32) else none, r.2)

/-- Live queues of a context on a deck: launched commands that have run a leg (R273). -/
def State.startedQueues (s : State) (ctx : Nat) (d : DeckId) : Nat :=
  ((s.ctxCmds ctx).filter fun c => deckOpcode c.opc && c.stage == .running && 0 < c.legs && c.decks.contains d).length

/-- Granules of a command's partials on one deck: O with m and l of every row and band, or its best candidates (R102). -/
def partialGranules (c : Cmd) : Nat :=
  let w := c.work
  let bytes := if c.opc = ocSearch then c.fold * w.rows * (searchBody c.desc).k * 16
    else if c.opc = ocScore then 0 else c.fold * w.rows * (4 * w.width + 8)
  (bytes + 255) / 256

/-- Spills write both copies of the save slot in metadata, reloads read the deck's own half (Tables 7.2 and 10.2). -/
def State.spillOut (s : State) (cid : Nat) : State :=
  match s.cmd cid with
  | some c => if c.stage == .running then s.chargeNear c.part (s.ctxGroup c.ctx) (partialGranules c, partialGranules c) else s
  | none => s
def State.reload (s : State) (d : DeckId) (c : Cmd) : State :=
  if c.legs = 0 then s else s.charge c.part (s.ctxGroup c.ctx) (deckNear d) (partialGranules c)

/-- The switch to a command on one deck: another context pays the switch (R273); another command finds no valid tag, and the
outgoing command's partials have gone to its save slot (R102). -/
def State.switchTo (s : State) (d : DeckId) (c : Cmd) : State :=
  match (s.deck d).last with
  | none => s
  | some x =>
    if x.2 = c.cid then s
    else
      let s := if x.1 = c.ctx then s
        else s.charge c.part (s.ctxGroup c.ctx) (deckRes d) ((8 * (12 * s.startedQueues x.1 d + 150) + 4) / 5)
      ((s.spillOut x.2).reload d c).updDeck d fun k => { k with scratch := [] }

/-- A leg starts on the decks of a command (R99, R101, R361). -/
def State.startLeg (s : State) (c : Cmd) : State :=
  let a := s.auditChoice
  let s := c.decks.foldl (fun s d => s.switchTo d c) a.2
  let leg : Leg :=
    { cid := c.cid, part := c.part, bound := s.legBound c, cycles := 0, busy := 0, steps := 0, lashed := c.lashed, short := false,
      audit := a.1, marked := false, fails := 0, left := 0, secAtStart := c.sec, stepAtStart := c.step }
  let s := c.decks.foldl (fun s d =>
    let i := deckNo d
    let s := s.updDeck d fun k => { k with leg := some leg, reserved := none, last := some (c.ctx, c.cid) }
    (((s.put DK_DECK_STATUS.BUSY i 1).put DK_DECK_STATUS.LASHED i (if c.lashed then 1 else 0)).put DK_DECK_STATUS.PART i c.part).put
      DK_DECK_STATUS.LEG_SEQ i ((s.get DK_DECK_STATUS.LEG_SEQ i + 1) % 4294967296)) s
  s.updCmd c.cid fun c => { c with accCopy := c.acc }

/-! ## Columns (R365 to R369, Table 15.13) -/

def colIdx (d : DeckId) (col : Nat) : Nat := 34 * deckNo d + col

def State.colState (s : State) (d : DeckId) (col : Nat) : Nat := s.get DK_COL_STATUS.STATE (colIdx d col)

/-- Spare columns that are neither in service nor retired. -/
def State.freeSpares (s : State) (d : DeckId) : List Nat := [32, 33].filter fun c => s.colState d c == 1

/-- SUSPECT columns in service, ascending. -/
def State.suspects (s : State) (d : DeckId) : List Nat :=
  (List.range 34).filter fun c => s.colState d c == 0 && s.flag DK_COL_STATUS.SUSPECT (colIdx d c)

def State.colHealth (s : State) (d : DeckId) (col : Nat) : ColHealth := (Tab.find (s.deck d).cols col).getD ⟨0, none, []⟩

/-- The column in service that plays a logical column's part. -/
def State.roleColumn (s : State) (d : DeckId) (role : Nat) : Option Nat :=
  (List.range 34).find? fun c => s.colState d c == 0 && s.get DK_COL_STATUS.ROLE (colIdx d c) == role

/-- Exposure entries: one for each partition that ran legs between the window's start and the first mismatch; TEMP is the hotspot at
the last mismatch, and those of the others stand in their AUDIT_MISMATCH entries (R369, log entry 95). -/
def State.logExposure (s : State) (d : DeckId) (col : Nat) : State :=
  let x := s.colHealth d col
  match x.first with
  | none => s
  | some f =>
    let lo := max x.since (f - 86400)
    let legs (p : Nat) : Nat := (((s.deck d).partLegs.filter fun e => e.1 % 64 == p && lo / 3600 ≤ e.1 / 64 && e.1 / 64 ≤ f / 3600).map
      (·.2)).sum
    (List.range 64).foldl (fun s p =>
      if legs p = 0 then s
      else s.log { cause := .auditExposure, part := some p, loc := loc [deckNo d, col], addr := lo, count := legs p, aux := f,
                   die := some (dieDeck d), temp := x.temps.getLast? }) s

/-- A column is retired; a free spare takes over its role, otherwise the deck has one column less and is DEGRADED (R124, R368). -/
def State.retireColumn (s : State) (d : DeckId) (col : Nat) : State :=
  let i := colIdx d col
  let k := deckNo d
  let role := s.get DK_COL_STATUS.ROLE i
  let exposed := 0 < s.dayCount DK_COL_STATUS.MISMATCH_24H i
  let spare := (s.freeSpares d).head?
  let s := ((s.put DK_COL_STATUS.STATE i 2).put DK_COL_STATUS.SUSPECT i 0).log
    { cause := .colRetire, loc := loc [k, col, spare.getD 63], count := 1, die := some (dieDeck d) }
  let s := match spare with
    | some p =>
      let j := colIdx d p
      ((s.put DK_COL_STATUS.STATE j 0).put DK_COL_STATUS.ROLE j role)
        |>.updDeck d fun x => { x with cols := Tab.put x.cols p ⟨s.tb.sec, none, []⟩ }
    | none =>
      ((s.put DK_DECK_STATUS.COLS k (s.get DK_DECK_STATUS.COLS k - 1)).put DK_DECK_STATUS.DEGRADED k 1).degrade
  let s := s.put DK_DECK_STATUS.SPARES_USED k (([32, 33].filter fun c => s.colState d c == 0).length)
  if exposed then s.logExposure d col else s

/-- Columns that have reached a retirement count are retired at the boundary (R368). -/
def State.retireColumns (s : State) (d : DeckId) : State :=
  (List.range 34).foldl (fun s c =>
    let i := colIdx d c
    if s.colState d c == 0 && (s.get HS_RAS_CFG.COL_RETIRE_N ≤ s.dayCount DK_COL_STATUS.MISMATCH_24H i
        || s.get HS_RAS_CFG.RES_RETIRE ≤ s.dayCount DK_COL_STATUS.RESIDUE_24H i) then s.retireColumn d c else s) s

/-- A comparison of an audited or shadowed column differed and the recomputation named `odd`: an active column is counted and
SUSPECT, an odd spare is retired (R365, R366, R371). -/
def State.columnMismatch (s : State) (d : DeckId) (odd : Nat) : State :=
  let i := colIdx d odd
  if s.colState d odd = 1 then
    (s.put DK_COL_STATUS.STATE i 2).log { cause := .colRetire, loc := loc [deckNo d, odd, 63], count := 1, die := some (dieDeck d) }
  else if s.colState d odd = 0 then
    let s := (s.countDay DK_COL_STATUS.MISMATCH_24H i).put DK_COL_STATUS.SUSPECT i 1
    let x := s.colHealth d odd
    let y : ColHealth := { x with first := some (x.first.getD s.tb.sec), temps := x.temps ++ [s.hotspot (some (dieDeck d))] }
    (s.updDeck d fun k => { k with cols := Tab.put k.cols odd y }).log
      { cause := .auditMismatch, loc := loc [deckNo d, odd], count := s.dayCount DK_COL_STATUS.MISMATCH_24H i, die := some (dieDeck d) }
  else s

/-- One sampled column of an audited step, or of a shadow in reserve cycles: compared, or skipped and counted (R364, R367,
R368). -/
def State.auditColumn (s : State) (d : DeckId) (col cycles : Nat) (sampled : Bool) : State :=
  let f := (s.freeSpares d).length
  let sus := s.suspects d
  let i := colIdx d col
  if f = 0 then
    if (s.deck d).reserveUsed + cycles ≤ 4096 then
      (s.updDeck d fun k => { k with reserveUsed := k.reserveUsed + cycles }).bump DK_COL_STATUS.AUDITS i 1
    else s.bump DK_COL_STATUS.AUDIT_SKIP i 1
  else if !sampled then s
  else if sus.length < f || sus.contains col then s.bump DK_COL_STATUS.AUDITS i 1
  else s.bump DK_COL_STATUS.AUDIT_SKIP i 1

/-- The audits of pass step `i` of a leg on one deck. -/
def State.auditStep (s : State) (d : DeckId) (leg : Leg) (cycles : Nat) : State :=
  let s := match leg.audit.bind fun ph => s.roleColumn d ((leg.steps + ph) % 32) with
    | some c => s.auditColumn d c cycles true
    | none => s
  let sus := s.suspects d
  if (s.freeSpares d).isEmpty && !sus.isEmpty then s.auditColumn d (sus.getD (leg.steps % sus.length) 0) cycles false else s

/-! ## PASS_STEP (R101, R360) -/

/-- Decks of a leg that runs on `d`. -/
def legDecks (d : DeckId) (leg : Leg) : List DeckId := if leg.lashed then [.a, .b] else [d]

def State.updLegs (s : State) (ds : List DeckId) (f : Leg → Leg) : State :=
  ds.foldl (fun s d => s.updDeck d fun k => { k with leg := k.leg.map f }) s

/-- A cell's residue check failed: it is counted and reported, and the leg is marked (R360). `cell` is column × 64 + row. -/
def State.residueFailure (s : State) (d : DeckId) (ds : List DeckId) (cell : Nat) : State :=
  let s := (s.countDay DK_COL_STATUS.RESIDUE_24H (colIdx d (cell / 64))).log
    { cause := .residue, loc := loc [deckNo d, cell], count := 1, die := some (dieDeck d) }
  s.updLegs ds fun l => { l with marked := true }

/-- The tiles of a finished step leave scratchpad. -/
def State.freeStep (s : State) (c : Cmd) (ns : List Need) : State :=
  c.decks.foldl (fun s d => s.updDeck d fun k => { k with scratch := k.scratch.filter fun t => !ns.any fun n => tileIs c c.sec n t }) s

/-- Idle cycles that throttling puts between a step of `n` cycles and the one before it: the deck starts steps in 8 − T of every 8
cycles (R406, log entry 96). -/
def State.idleCycles (s : State) (leg : Leg) (n : Nat) : Nat :=
  let t := min 7 (s.get HS_PWR_STATUS.LEVEL)
  if leg.steps = 0 then 0 else (n * t + 7 - t) / (8 - t)

/-- A pass step runs. -/
def State.runStep (s : State) (d : DeckId) (leg : Leg) (c : Cmd) (x : List Need × List Reached) (cost : Nat)
    (residue : Option Nat) : State :=
  let ds := legDecks d leg
  let g := s.ctxGroup c.ctx
  let idle := s.idleCycles leg cost
  let s := ds.foldl (fun s e => (s.charge c.part g (deckRes e) cost).auditStep e leg cost) s
  let s := (s.updCmd c.cid fun c => s.stepWork c x.2).freeStep c x.1
  let s := s.updLegs ds fun l => { l with cycles := l.cycles + idle + cost, busy := l.busy + cost, steps := l.steps + 1 }
  match residue with
  | some cell => if cell / 64 < 34 && s.colState d (cell / 64) == 0 then s.residueFailure d ds cell else s
  | none => s

/-- PASS_STEP on a deck: a step starts when the leg's bound leaves room, the fares cover it and its tiles are valid; only a leg
that had room and fare for a step whose tiles are missing ends short (R101, R263, R407). -/
def State.passStep (s : State) (d : DeckId) (residue : Option Nat) : State :=
  match (s.deck d).leg with
  | none => s
  | some leg =>
    if s.pwr.decksHalted || leg.short || leg.marked then s
    else
      let r := s.nextStep leg.cid
      match r.1.cmd leg.cid with
      | none => r.1
      | some c =>
        let s := r.1
        let short (s : State) : State := s.updLegs (legDecks d leg) fun l => { l with short := true }
        let noRoom (s : State) (c : Cmd) (cost : Nat) : Bool := leg.bound < leg.cycles + s.idleCycles leg cost + cost || !s.coversStep c cost d 0
        match r.2 with
        | none => if c.work.sections ≤ c.sec || c.stop.isSome || noRoom s c (s.stepCycles c []) then s else short s
        | some x =>
          let cost := s.stepCycles c x.2
          if noRoom s c cost then if s.coversStep c cost d 0 then s else s.fareStall (some c.cid) c.part
          else match x.1.find? fun n => !s.tileValid c c.sec n with
          | some n => (short s).missTile c.cid c.part (s.ctxGroup c.ctx) n.src n.len
          | none =>
            let m := s.readMask c
            match m.2, m.1.cmd leg.cid with
            | true, some c => m.1.runStep d leg c x cost residue
            | _, _ => short m.1

/-- PASS_STEP (R101). -/
def execPassStep (deck : DeckId) (residueFail : Option Nat) (s : State) : Host.Outcome State Fault Refusal :=
  .next (whenUp s fun s => s.passStep deck residueFail)

/-! ## LEG_END (R103, R363, R365) -/

/-- Rows of the leg's section are poisoned (R363): what is finished and not written, and the partials in hand. -/
def Cmd.poisonSection (c : Cmd) : Cmd :=
  let bad (p : Partial) : Partial := { p with poison := true, nan := false }
  let fresh := (c.rows.filter fun p => !p.poison).length
  let nans := (c.rows.filter fun p => !p.poison && p.nan).length
  let c := { c with rows := c.rows.map bad, acc := c.acc.map (List.map bad) }
  if c.opc = ocMatmul then
    let b := matmulBody c.desc
    ({ c with marked := (c.marked ++ List.range b.b).eraseDups, poisonRows := b.b, nanRows := 0 } : Cmd).tally
  else if c.opc = ocSearch then
    let b := searchBody c.desc
    ({ c with marked := List.range b.q, poisonRows := b.q } : Cmd).tally
  else ({ c with poisonRows := c.poisonRows + fresh, nanRows := c.nanRows - nans } : Cmd).tally

/-- The counters of a leg that is over (Table 4.16, R269, R369). -/
def State.countLeg (s : State) (d : DeckId) (leg : Leg) (ctx : Nat) : State :=
  let i := deckNo d
  let s := s.bump DK_PART_LEGS.LEGS leg.part 1
  let s := if leg.short then s.bump DK_PART_LEGS.SHORT leg.part 1 else s
  let key := s.tb.sec / 3600 * 64 + leg.part
  let left := s.sliceLeft d ctx leg.part - leg.cycles
  let s := s.updDeck d fun k =>
    { k with leg := none, slice := Tab.put k.slice ctx left, partLegs := Tab.set 0 k.partLegs key (Tab.get 0 k.partLegs key + 1) }
  let s := (s.put DK_DECK_STATUS.BUSY i 0).put DK_DECK_STATUS.LASHED i 0
  if s.flag DK_FULL_SAVE.QUIESCE i then s.put DK_FULL_SAVE.QUIESCED i 1 else s

/-- A comparison the row names is one that the leg's audit or the shadow of a SUSPECT column made. -/
def State.auditedHere (s : State) (d : DeckId) (leg : Leg) (col : Nat) : Bool :=
  0 < leg.steps && (s.flag DK_COL_STATUS.SUSPECT (colIdx d col)
    || (match leg.audit with
        | some ph => (List.range (min 32 leg.steps)).any fun i => s.roleColumn d ((leg.steps - 1 - i + ph) % 32) == some col
        | none => false))

/-- LEG_END: the decks of the leg are free; a marked leg waits for its re-execution, otherwise stops take effect and finished
sections are written (R60, R103, R360 to R365). -/
def State.legEnd (s : State) (d : DeckId) (audit : Option (Nat × Nat)) : State :=
  match (s.deck d).leg with
  | none => s
  | some leg =>
    match s.cmd leg.cid with
    | none => s.updDeck d fun k => { k with leg := none }
    | some c =>
      let ds := legDecks d leg
      let hit := match audit with
        | some x => if s.auditedHere d leg x.1 then some x.2 else none
        | none => none
      let s := match hit with
        | some odd => s.columnMismatch d odd
        | none => s
      let s := ds.foldl (fun s e => (s.countLeg e leg c.ctx).retireGathers e) s
      let s := s.updCmd c.cid fun c => { c with legs := c.legs + 1 }
      let s :=
        if (leg.marked || hit.isSome) && !c.lost then
          let w : Leg := { leg with fails := leg.fails + 1, left := leg.steps }
          (ds.foldl (fun s e => s.updDeck e fun k => { k with waitingLeg := some w }) s).updCmd c.cid
            fun c => { c with audited := true }
        else s.deckFlush c.cid (c.work.sections + 1)
      s.retryHeld

/-- LEG_END (R103). -/
def execLegEnd (deck : DeckId) (audit : Option (Nat × Nat)) (s : State) : Host.Outcome State Fault Refusal :=
  .next (whenUp s fun s => s.legEnd deck audit)

/-! ## LEG_REEXECUTION (R361 to R363) -/

/-- A re-execution has run its steps: it is accepted, or runs again, or after a third failure the leg's section is poisoned. -/
def State.reexecuted (s : State) (ds : List DeckId) (w : Leg) (fails : Bool) : State :=
  let s := s.updCmd w.cid fun c => { c with legs := c.legs + 1 }
  let free (s : State) : State := ds.foldl (fun s e => s.updDeck e fun k => { k with waitingLeg := none }) s
  if !fails then
    match s.cmd w.cid with
    | some c => (free s).deckFlush w.cid (c.work.sections + 1)
    | none => free s
  else if w.fails + 1 < 3 then
    ds.foldl (fun s e => s.updDeck e fun k => { k with waitingLeg := some { w with fails := w.fails + 1, left := w.steps } }) s
  else
    let d := ds.headD .a
    match s.cmd w.cid with
    | some c =>
      ((free (s.updCmd w.cid Cmd.poisonSection)).log
        { cause := .legUnresolved, part := some c.part, ctx := c.ctx, tag := c.tag, loc := loc [deckNo d], count := w.secAtStart,
          die := some (dieDeck d) }).deckFlush w.cid (c.work.sections + 1)
    | none => free s

/-- LEG_REEXECUTION: steps run in the reserve of the tide, on both decks of a lashed leg, and not while a deck is to be quiet
(R276, R362); `fails` says that a check of the
re-execution failed. -/
def State.legReexecution (s : State) (d : DeckId) (fails : Bool) : State :=
  match (s.deck d).waitingLeg with
  | none => s
  | some w =>
    let ds := legDecks d w
    if ds.any (fun e => (s.deck e).leg.isSome || s.flag DK_FULL_SAVE.QUIESCE (deckNo e)) || w.steps = 0 then s
    else
      let per := (w.busy + w.steps - 1) / w.steps
      let room (e : DeckId) : Nat := (4096 - (s.deck e).reserveUsed + per - 1) / per
      let n := ds.foldl (fun n e => min n (room e)) w.left
      let s := ds.foldl (fun s e => s.updDeck e fun k =>
        { k with reserveUsed := k.reserveUsed + n * per, waitingLeg := some { w with left := w.left - n } }) s
      if w.left = n then (s.reexecuted ds w fails).retryHeld else s

/-- LEG_REEXECUTION (R362). -/
def execLegReexecution (deck : DeckId) (fails : Bool) (s : State) : Host.Outcome State Fault Refusal :=
  .next (whenUp s fun s => s.legReexecution deck fails)

/-! ## LEG_BOUNDARY (R268 to R271) -/

/-- Stops of launched commands of a deck that hold no leg take effect. -/
def State.boundaryStops (s : State) (d : DeckId) : State :=
  s.fe.cmds.foldl (fun s c =>
    if deckOpcode c.opc && c.stage == .running && c.decks.contains d && s.deckIdle c.cid then
      match s.cmd c.cid with
      | some c => (match s.boundaryStop c with
        | some x => s.deckStopped c x
        | none => s)
      | none => s
    else s) s

/-- Cycles left to the bound of the leg the other deck runs. -/
def boundLeft (k : Deck) : Nat :=
  match k.leg with
  | some l => l.bound - l.cycles
  | none => 0

/-- A waiting re-execution of a deck has reserve left in this tide, so it comes first (R362). -/
def reexecutes (k : Deck) : Bool := k.waitingLeg.isSome && k.reserveUsed < 4096

/-- The lashed command an idle deck would choose. -/
def State.lashedChoice (s : State) (d : DeckId) : Option Cmd :=
  let r := s.readyCmds d 0
  (r.1.choose d r.2).2.filter Cmd.lashed

/-- A deck that may start a leg chooses one (R268 to R271). Where both decks stand at a boundary and choose lashed commands, deck
A's choice stands; no deck reserves itself against a deck that is to be quiet (R271, R276). -/
def State.chooseLeg (s : State) (d : DeckId) : State :=
  let o := otherDeck d
  let r := s.readyCmds d (boundLeft (s.deck o))
  let lashOk (c : Cmd) : Bool := !c.lashed || ((s.deck o).reserved.isNone && !s.flag DK_FULL_SAVE.QUIESCE (deckNo o))
  let x := r.1.choose d (r.2.filter lashOk)
  match x.2 with
  | none => x.1
  | some c =>
    let s := x.1
    if !c.lashed then s.startLeg c
    else if (s.deck o).leg.isNone && !reexecutes (s.deck o) then
      match if d = .b then s.lashedChoice .a else none with
      | some a => s.startLeg a
      | none => s.startLeg c
    else s.updDeck d fun k => { k with reserved := some c.cid, reservedAt := s.tb.hclk }

/-- Both decks stand at a boundary and `o` is reserved for a lashed command: the leg starts, or the reservation is dropped and
deck `d` chooses (R270, R271). -/
def State.takeReserved (s : State) (d o : DeckId) (cid : Nat) : State :=
  let r := (s.endReservation o).readyOn cid d 0
  let quiet := s.flag DK_FULL_SAVE.QUIESCE 0 || s.flag DK_FULL_SAVE.QUIESCE 1
  match r.2 && !quiet, r.1.cmd cid with
  | true, some c => r.1.startLeg c
  | _, _ => r.1.chooseLeg d

/-- LEG_BOUNDARY on a deck that runs no leg. -/
def State.legBoundary (s : State) (d : DeckId) : State :=
  if (s.deck d).leg.isSome then s
  else
    let i := deckNo d
    let o := otherDeck d
    let s := (s.retireColumns d).boundaryStops d
    if s.flag DK_FULL_SAVE.QUIESCE i then (s.endReservation d).put DK_FULL_SAVE.QUIESCED i 1
    else if s.pwr.decksHalted || reexecutes (s.deck d) then s
    else match (s.deck d).reserved with
      | some cid =>
        if (s.deck o).leg.isSome || (reexecutes (s.deck o) && !s.flag DK_FULL_SAVE.QUIESCE (deckNo o)) then s
        else s.takeReserved d d cid
      | none =>
        match (s.deck o).reserved with
        | none => s.chooseLeg d
        | some cid => s.takeReserved d o cid

/-- LEG_BOUNDARY (R268). -/
def execLegBoundary (deck : DeckId) (s : State) : Host.Outcome State Fault Refusal :=
  .next (whenUp s fun s => (s.legBoundary deck).retryHeld)

/-! ## SUSPECT_EXPIRY and the full-state save (R276, R366) -/

/-- A column of a deck had a mismatch within the last ESC_S seconds. -/
def State.mismatched (s : State) (d : DeckId) (col : Nat) : Bool :=
  s.recentCount (DK_COL_STATUS.MISMATCH_24H.id + 1024 * colIdx d col) (s.get HS_RAS_CFG.ESC_S * secondCycles) != 0

/-- SUSPECT_EXPIRY: a column that had no mismatch for ESC_S seconds leaves SUSPECT (R366). -/
def execSuspectExpiry (deck : DeckId) (col : Nat) (s : State) : Host.Outcome State Fault Refusal :=
  .next (whenUp s fun s =>
    if col < 34 && !s.mismatched deck col then s.put DK_COL_STATUS.SUSPECT (colIdx deck col) 0 else s)

/-- QUIESCE is set: the deck is QUIESCED once it runs no leg. -/
def State.setQuiesce (s : State) (d : DeckId) : State :=
  let i := deckNo d
  let s := s.put DK_FULL_SAVE.QUIESCE i 1
  if (s.deck d).leg.isNone then (s.endReservation d).put DK_FULL_SAVE.QUIESCED i 1 else s

/-- QUIESCE is cleared: every tag is invalid before the next leg. -/
def State.clearQuiesce (s : State) (d : DeckId) : State :=
  let i := deckNo d
  ((s.put DK_FULL_SAVE.QUIESCE i 0).put DK_FULL_SAVE.QUIESCED i 0).updDeck d fun k => { k with scratch := [] }

/-- QUIESCE (R276). -/
def execQuiesce (deck : DeckId) (s : State) : Host.Outcome State Fault Refusal := .next (whenUp s fun s => s.setQuiesce deck)

/-- The full state of a deck: scratchpad and the accumulators of its commands. -/
def State.deckImage (s : State) (d : DeckId) : DeckImage :=
  { scratch := (s.deck d).scratch,
    accs := (s.fe.cmds.filter fun c => c.stage == .running && c.decks.contains d).map fun c => (c.cid, c.acc) }

/-- A save or restore starts on a quiesced deck; otherwise RESULT says that it is not (R276, Table 10.11). -/
def State.fullSave (s : State) (d : DeckId) (op : Nat) : State :=
  let i := deckNo d
  if s.flag DK_FULL_SAVE.BUSY i then s
  else if !s.flag DK_FULL_SAVE.QUIESCED i then s.put DK_FULL_SAVE.RESULT i 1
  else
    let s := (s.put DK_FULL_SAVE.BUSY i 1).updDeck d fun k => { k with saveOp := op }
    if op = 1 then s.updDeck d fun k => { k with saveArea := some (s.deckImage d) }
    else match (s.deck d).saveArea with
      | none => s.updDeck d fun k => { k with scratch := [] }
      | some x => x.accs.foldl (fun s a => s.updCmd a.1 fun c => if c.stage = .running then { c with acc := a.2 } else c)
          (s.updDeck d fun k => { k with scratch := x.scratch })

/-- SAVE (R276). -/
def execSave (deck : DeckId) (s : State) : Host.Outcome State Fault Refusal := .next (whenUp s fun s => s.fullSave deck 1)
/-- RESTORE (R276). -/
def execRestore (deck : DeckId) (s : State) : Host.Outcome State Fault Refusal := .next (whenUp s fun s => s.fullSave deck 2)

/-- FULL_SAVE_COMPLETE: BUSY clears and RESULT stands; an uncorrectable save area is 2 (Table 10.11). -/
def execFullSaveComplete (deck : DeckId) (uncorrectable : Bool) (s : State) : Host.Outcome State Fault Refusal :=
  .next (whenUp s fun s =>
    let i := deckNo deck
    if s.flag DK_FULL_SAVE.BUSY i then
      ((s.put DK_FULL_SAVE.BUSY i 0).put DK_FULL_SAVE.RESULT i (if uncorrectable then 2 else 0)).updDeck deck
        fun k => { k with saveOp := 0 }
    else s)

end Sys2Proof.Machine
end

