-- ==== Sys2Proof/Machine/Prefetch.lean ====
section
/-! DEFINITION. COPY and PREFETCH (chapter 9): commands that move bytes between the tiers and steer the tier engine. -/

namespace Sys2Proof.Machine

/-! ## COPY (R255) -/

/-- Bytes of a COPY transfer. -/
def copyTransfer : Nat := 262144

/-- Piece number of a shard read of tray berth block `b`; the blocks of a destination that a transfer covers in part are
numbered above those of the source. -/
def copyPiece (dst : Bool) (b shard : Nat) : Nat := (if dst then 2 ^ 32 else 2 ^ 24) + 16 * b + shard

/-- Piece number of a flash berth's stripe unit. -/
def copyUnit (u : Nat) : Nat := 2 ^ 40 + u

/-- Reads the shards of tray berth blocks that are not at hand and not on their way; none where a block cannot be read. -/
def State.askTray (s : State) (c : Cmd) (dst : Bool) (tbn : Nat) (bs : List Nat) : Option State :=
  bs.foldl (fun (o : Option State) b => o.bind fun s =>
    match (s.trayBerth tbn).reads b with
    | none => none
    | some rs =>
      if rs.any fun r => (s.trayEp r.2.1).isNone then none
      else some (rs.foldl (fun s r =>
        let i := copyPiece dst b r.1
        if (Tab.find c.inputs i).isSome || s.fe.reads.any (fun x => x.use == .copy c.cid i) then s
        else
          let n := s.newRead (.copy c.cid i) c.part r.2.2.2
          n.2.sendLd n.1 c.part ((s.trayEp r.2.1).getD 0) c.ctx r.2.2.1 r.2.2.2) s)) (some s)

/-- The shards of a block that are at hand. -/
def shardsAt (c : Cmd) (dst : Bool) (b : Nat) : List (Nat × Payload) :=
  (List.range 10).filterMap fun j => (Tab.find c.inputs (copyPiece dst b j)).map fun p => (j, p)

/-- Every shard a block needs is at hand. -/
def State.trayReady (s : State) (c : Cmd) (dst : Bool) (tbn : Nat) (bs : List Nat) : Bool :=
  bs.all fun b => match (s.trayBerth tbn).reads b with
    | none => false
    | some rs => rs.all fun r => (Tab.find c.inputs (copyPiece dst b r.1)).isSome

/-- One block of a tray berth from the shards at hand. -/
def State.trayBlock (s : State) (c : Cmd) (dst : Bool) (tbn b : Nat) : Payload :=
  let need := (((s.trayBerth tbn).reads b).getD []).map (·.1)
  assembleBlock (s.trayBerth tbn).policy ((shardsAt c dst b).filter fun g => need.contains g.1)

/-- `n` bytes from `off` of consecutive blocks, the first of which is block `b0`. -/
def cutBlocks (ps : List Payload) (b0 off n : Nat) : Payload :=
  let whole : Payload := { bytes := ps.flatMap (·.bytes),
                           poisoned := ((ps.zip (List.range ps.length)).flatMap fun x => x.1.poisoned.map (· + 64 * x.2)) }
  subPayload whole (off - b0 * blockBytes) n

/-- Stripe units a range of a flash berth touches, each with its first block and block count. -/
def flashUnits (off n : Nat) : List (Nat × Nat × Nat) :=
  let b0 := off / blockBytes
  let b1 := (off + n - 1) / blockBytes + 1
  ((List.range ((b1 - 1) / 64 - b0 / 64 + 1)).map (· + b0 / 64)).map fun u =>
    (u, max b0 (64 * u), min b1 (64 * u + 64) - max b0 (64 * u))

/-- NVMe reads of a COPY for one flash berth that are outstanding. -/
def State.flashAsked (s : State) (c : Cmd) (fb : FlashBerth) (b : Nat) : Bool :=
  s.fl.cmds.any fun x => x.copyCid == some c.cid && x.drive == (fb.place b).1 && x.lba == (fb.place b).2

/-- Issues the NVMe reads of a range; none where a drive is not UP. -/
def State.askFlash (s : State) (c : Cmd) (fbn off n : Nat) : Option State :=
  (flashUnits off n).foldl (fun (o : Option State) u => o.bind fun s =>
    if (Tab.find c.inputs (copyUnit u.1)).isSome || s.flashAsked c (s.flashBerth fbn) u.2.1 then some s
    else s.nvmeRead (s.flashBerth fbn) u.2.1 u.2.2 none (some c.cid)) (some s)

/-- How a side of a transfer stands. -/
inductive Side where
  | ready (s : State)
  | wait (s : State)
  | fail (s : State) (status : Nat)

/-- The source of a transfer: asks for what is missing. -/
def State.copySource (s : State) (c : Cmd) (b : CopyBody) (off n : Nat) : Side :=
  let a := b.src + off
  match b.srcKind with
  | 0 =>
    match s.askInput c 0 a n 64 with
    | none => .fail s stEpochRetired
    | some s => if inputReady c 0 a n then .ready s else .wait s
  | 1 =>
    if s.drained c.part (ref50 a).handle then .fail s stRevoked
    else match s.view c.part (ref50 a) n with
      | .ready => .ready s
      | .failed => .fail s stTierFail
      | .budget => .fail s stBudget
      | .wait => .wait (s.ask c.part (ref50 a) n)
  | 2 =>
    let bs := spanBlocks (a % berthBytes) n
    match s.askTray c false (copyTbn a) bs with
    | none => .fail s stTierFail
    | some t => if s.trayReady c false (copyTbn a) bs then .ready t else .wait t
  | _ =>
    match s.askFlash c (copyFbn a) (a % berthBytes) n with
    | none => .fail s stTierFail
    | some t => if (flashUnits (a % berthBytes) n).all fun u => (Tab.find c.inputs (copyUnit u.1)).isSome then .ready t else .wait t

/-- The data of a transfer whose source is ready. -/
def State.copyData (s : State) (c : Cmd) (b : CopyBody) (off n : Nat) : Payload :=
  let a := b.src + off
  match b.srcKind with
  | 0 => inputPayload c 0 a n
  | 1 => s.readSpan c.part (ref50 a) n
  | 2 =>
    let o := a % berthBytes
    cutBlocks ((spanBlocks o n).map fun k => s.trayBlock c false (copyTbn a) k) (o / blockBytes) o n
  | _ =>
    let o := a % berthBytes
    cutBlocks ((flashUnits o n).map fun u => fitPayload ((Tab.find c.inputs (copyUnit u.1)).getD ⟨[], []⟩) (blockBytes * u.2.2))
      (o / blockBytes) o n

/-- Blocks of a tray berth that a range covers in part. -/
def partBlocks (o n : Nat) : List Nat :=
  (spanBlocks o n).filter fun k => !(o ≤ k * blockBytes && (k + 1) * blockBytes ≤ o + n)

/-- The destination of a transfer can take its data; a block of a tray berth that is just being rebuilt is waited for (R239). -/
def State.copyTarget (s : State) (c : Cmd) (b : CopyBody) (off n : Nat) : Side :=
  let a := b.dst + off
  match b.dstKind with
  | 1 =>
    if s.drained c.part (ref50 a).handle then .fail s stRevoked
    else if s.writeBarred c.part ((ref50 a).handle, (ref50 a).off, n) then .fail (s.countSealed c.part ((ref50 a).handle, (ref50 a).off, n)) stNotOwner
    else match s.storable (slotKey c.part (handleSlot (ref50 a).handle)) (ref50 a).off n with
      | .ready => .ready s
      | .failed => .fail s stTierFail
      | .budget => .fail s stBudget
      | .wait => .wait (s.askStore (slotKey c.part (handleSlot (ref50 a).handle)) (ref50 a).off n)
  | 2 =>
    let tb := s.trayBerth (copyTbn a)
    let bs := partBlocks (a % berthBytes) n
    if tb.state == tbFree || tb.state == tbLost then .fail s stTierFail
    else if s.te.fills.any fun f => f.rebuildOf == some (copyTbn a) && (spanBlocks (a % berthBytes) n).contains f.block then .wait s
    else match s.askTray c true (copyTbn a) bs with
      | none => .fail s stTierFail
      | some t => if s.trayReady c true (copyTbn a) bs then .ready t else .wait t
  | _ => if s.rankId c.part (s.ctxRank c.ctx) = 0 then .fail s stEpochRetired else .ready s

/-- `n` bytes of a payload written over a block from byte `lo`. -/
def overlay (old new : Payload) (lo : Nat) : Payload :=
  let n := new.bytes.length
  { bytes := old.bytes.take lo ++ new.bytes ++ old.bytes.drop (lo + n),
    poisoned := (old.poisoned.filter fun k => k < lo / 64 || (lo + n) / 64 ≤ k) ++ new.poisoned.map (· + lo / 64) }

/-- Writes a range of a tray berth block by block; a block covered in part is read and written whole (R236). -/
def State.writeTray (s : State) (c : Cmd) (tbn o : Nat) (d : Payload) : State :=
  (spanBlocks o d.bytes.length).foldl (fun s k =>
    let lo := max o (k * blockBytes)
    let hi := min (o + d.bytes.length) ((k + 1) * blockBytes)
    let new := subPayload d (lo - o) (hi - lo)
    let block := if hi - lo = blockBytes then new else overlay (s.trayBlock c true tbn k) new (lo - k * blockBytes)
    let tb := s.trayBerth tbn
    (tb.stores k block fun pos => !tb.lostAt k pos).foldl (fun s w => s.storeTray c.part w) s) s

/-- Writes a transfer to its destination. -/
def State.copyWrite (s : State) (c : Cmd) (b : CopyBody) (off : Nat) (d : Payload) : State :=
  let a := b.dst + off
  match b.dstKind with
  | 2 => s.writeTray c (copyTbn a) (a % berthBytes) d
  | k => (s.storeResult c (k == 1) a d).getD s

/-- Units of 256 bytes that a write of one block sends to the trays a berth still has (R236, R238, R258). -/
def State.trayUnits (s : State) (tbn k : Nat) : Nat :=
  let tb := s.trayBerth tbn
  ((tb.stores k ⟨List.replicate blockBytes 0#8, []⟩ fun pos => !tb.lostAt k pos).map fun w => w.2.2.bytes.length / 256).sum

/-- What a transfer costs: near granules, tray units of 256 B and NVMe commands (R258); LINK is paid as frames leave. -/
def State.copyCost (s : State) (c : Cmd) (b : CopyBody) (off n : Nat) : List (Res × Nat) :=
  let src := b.src + off
  let dst := b.dst + off
  (match b.srcKind with
   | 0 => []
   | 1 => s.nearCost c.part (ref50 src) n false
   | 2 => [(.tray, n / 256)]
   | _ => [(.flash, (flashUnits (src % berthBytes) n).length)]) ++
  (match b.dstKind with
   | 1 => s.nearCost c.part (ref50 dst) n true
   | 2 => [(.tray, ((spanBlocks (dst % berthBytes) n).map fun k => s.trayUnits (copyTbn dst) k).sum)]
   | _ => [])

/-- A COPY ends with the bytes it has copied in VALUE; POISON where a source sector was poisoned. -/
def State.copyEnd (s : State) (c : Cmd) : State :=
  if c.poisonRows = 0 then s.finish c.cid else s.finishWith c.cid stPoison 0

/-- A COPY stops at a transfer boundary: its destination region is undefined (R60). -/
def State.copyStop (s : State) (c : Cmd) (x : Nat × Nat) : State :=
  (s.undefineOutputs c).endStopped c x

/-- COPY: one 256 KiB transfer. Its reads are issued when its fares allow; the transfer is written once they are at hand. -/
def State.copyRow (s : State) (c : Cmd) : State :=
  let b := copyBody c.desc
  let off := c.step * copyTransfer
  let n := min copyTransfer (b.len - off)
  let idle := c.count ≤ c.step
  match if idle then s.boundaryStop c else none with
  | some x => if c.step = 0 then s.endStopped c x else s.copyStop c x
  | none =>
    match if idle then s.spend c (s.copyCost c b off n) else (s, true) with
    | (s, false) => s
    | (s, true) =>
      let s := s.updCmd c.cid fun c => { c with stage := .running, count := c.step + 1 }
      let c := (s.cmd c.cid).getD c
      match s.copySource c b off n with
      | .fail s st => s.copyStop c (st, 0)
      | .wait s => s
      | .ready s =>
        match s.copyTarget c b off n with
        | .fail s st => s.copyStop c (st, 0)
        | .wait s => s
        | .ready s =>
          let d := s.copyData c b off n
          let s := s.copyWrite c b off d
          let s := if b.srcKind = 1 then s.consume c.part (ref50 (b.src + off)) n else s
          let s := s.updCmd c.cid fun c => { c with inputs := [], step := c.step + 1, value := c.value + n,
                                                    poisonRows := c.poisonRows + d.poisoned.length }
          let s := if off + n = b.len then s.copyEnd ((s.cmd c.cid).getD c) else s
          s.retryHeld

/-- COPY (R255). -/
def execCopy (cid : Nat) (s : State) : Host.Outcome State Fault Refusal :=
  .next (whenUp s fun s =>
    match s.cmd cid with
    | some c => if c.opc == ocCopy && (c.stage == .dispatched || c.stage == .running) then s.copyRow c else s
    | none => s)

/-! ## PREFETCH (R252, R256) -/

/-- A PREFETCH of one OP that runs: dispatched, or waiting for what it started. -/
def State.prefetchOf (s : State) (cid op : Nat) : Option Cmd :=
  match s.cmd cid with
  | some c =>
    if c.opc == ocPrefetch && (prefetchBody c.desc).op == op && (c.stage == .dispatched || c.stage == .running) then some c else none
  | none => none

/-- The default prefetch depth of a partition (Table 9.12). -/
def State.defaultDepth (s : State) (p : Nat) : Nat :=
  match s.get TE_PART_CFG.PROFILE p with
  | 0 => s.get TE_PART_CFG.DEPTH p
  | 2 => 4
  | _ => 2

/-- A command goes on running. -/
def State.runs (s : State) (cid : Nat) : State := s.updCmd cid fun c => { c with stage := .running }

/-- Runs `f` unless a stop, or a zero fare, ends the command here. -/
def State.unlessStopped (s : State) (c : Cmd) (f : State → State) : State :=
  match s.boundaryStop c with
  | some x => s.endStopped c x
  | none => f (s.runs c.cid)

/-- Fills of a context's manifest. -/
def State.manifestFills (s : State) (ctx : Nat) : List Fill := s.te.fills.filter fun f => f.manifest == some ctx

/-- Fills of a manifest that have not been issued are given up; their blocks are ABSENT again. -/
def State.dropManifestFills (s : State) (ctx : Nat) : State :=
  ((s.manifestFills ctx).filter fun f => !f.issued).foldl (fun s f => (s.dropFill f.fid).setBlock f.key f.block .absent) s

/-- Spans of a manifest whose bytes are read at its start: header and records, then the bind pairs. -/
def manifestSpans (addr : NearRef) (recs : List (List Byte)) : List (NearRef × Nat) :=
  (addr, 64 + 64 * recs.length) :: recs.filterMap fun bs =>
    let w := leNat ((bs.drop 24).take 8)
    if w / 2 ^ 44 % 4096 = 0 then none else some (ref44 (w % 2 ^ 44), 8 * (w / 2 ^ 44 % 4096))

/-- The number of layer records a manifest's header names, bounded by what it may be. -/
def State.manifestLayers (s : State) (p : Nat) (r : NearRef) : Nat := min 1024 (leNat (s.readSpan p r 2).bytes % 2048)

/-- MANIFEST_START: the manifest is read once and accepted, in place of one that runs; poison in what it reads ends it POISON (R190, R252,
R254, R256, log entry 93). -/
def State.manifestStart (s : State) (c : Cmd) : State :=
  let b := prefetchBody c.desc
  match s.view c.part b.addr 64 with
  | .failed => s.finishWith c.cid stTierFail 0
  | .budget => s.finishWith c.cid stBudget 0
  | .wait => s.ask c.part b.addr 64
  | .ready =>
    let n := s.manifestLayers c.part b.addr
    if !inBerth b.addr.off (64 + 64 * n) then s.finishWith c.cid stBadDesc 0x23
    else match s.view c.part b.addr (64 + 64 * n) with
      | .failed => s.finishWith c.cid stTierFail 0
      | .budget => s.finishWith c.cid stBudget 0
      | .wait => s.ask c.part b.addr (64 + 64 * n)
      | .ready =>
        if s.manifestPoisoned c.part b.addr then s.finishWith c.cid stPoison 0
        else match s.manifestBytes c.part b.addr with
        | none => s.finishWith c.cid stBadDesc 0x23
        | some m =>
          if m.1 ≤ b.start then s.finishWith c.cid stBadDesc 0x23
          else
            let spans := manifestSpans b.addr m.2.2
            match s.viewAll c.part spans with
            | .failed => s.finishWith c.cid stTierFail 0
            | .budget => s.finishWith c.cid stBudget 0
            | .wait => s.askAll c.part spans
            | .ready =>
              match s.spend c (spans.flatMap fun x => s.nearCost c.part x.1 x.2 false) with
              | (s, false) => s
              | (s, true) =>
              if spans.any fun x => !(s.readSpan c.part x.1 x.2).poisoned.isEmpty then s.finishWith c.cid stPoison 0
              else
              let man : Manifest :=
                { ctx := c.ctx, part := c.part, cyclic := m.2.1, depth := if b.depth = 0 then s.defaultDepth c.part else b.depth,
                  cursor := b.start, layers := m.2.2.map (s.layerOf c.part), issued := [], passed := [],
                  bursts := [] }
              let s := ((s.dropManifestFills c.ctx).dropManifest c.ctx).finishValue c.cid 0
              ({ s with te := { s.te with manifests := s.te.manifests ++ [man] } } : State).moveCursors

/-- MANIFEST_START (R252). -/
def execManifestStart (cid : Nat) (s : State) : Host.Outcome State Fault Refusal :=
  .next (whenUp s fun s =>
    match s.prefetchOf cid 0 with
    | some c => s.unlessStopped c fun s => s.manifestStart c
    | none => s)

/-- MANIFEST_STOP: the manifest ends at once, the command when none of its fills is in flight (R256). -/
def execManifestStop (cid : Nat) (s : State) : Host.Outcome State Fault Refusal :=
  .next (whenUp s fun s =>
    match s.prefetchOf cid 1 with
    | some c => s.unlessStopped c fun s =>
        let s := (s.dropManifest c.ctx).dropManifestFills c.ctx
        if (s.manifestFills c.ctx).isEmpty then s.finish cid else s
    | none => s)

/-- Blocks of windows by one number each. -/
def blockNumber (x : Nat × Nat) : Nat := x.1 * 16384 + x.2

/-- VALUE of a FILL: of the blocks that were ABSENT when it began, those that hold data now (R256). -/
def State.countFilled (s : State) (c : Cmd) : State :=
  let is (k : Nat) : Bool := match s.blockState (k / 16384) (k % 16384) with
    | .resident => true
    | .dirty => true
    | _ => false
  s.updCmd c.cid fun k => { k with value := (c.marked.filter is).length }

/-- A list's first malformed entry, by its index (R83); what a poisoned sector of the list names is not judged. -/
def State.fillBad (s : State) (c : Cmd) (b : PrefetchBody) : Option Nat :=
  let t := s.readSpan c.part b.addr (16 * b.nent * b.nsec)
  ((entriesOf t.bytes (b.nent * b.nsec)).zip (List.range (b.nent * b.nsec))).findSome? fun x =>
    if !Sys2Proof.Machine.touched t.poisoned (16 * x.2) 16 && s.entryBad c.part none x.1 then some x.2 else none

/-- FILL: its list is read; a malformed entry ends it BAD_DESC 0x7F (R83, log entry 28), otherwise the blocks that are ABSENT are
filled once. -/
def State.fillStart (s : State) (c : Cmd) (b : PrefetchBody) (bs : List (Nat × Nat)) : State :=
  match s.spend c (s.nearCost c.part b.addr (16 * b.nent * b.nsec) false) with
  | (s, false) => s
  | (s, true) =>
    match if b.nent * b.nsec = 0 then none else s.fillBad c b with
    | some i => (s.logBadList c 9 (i % max 1 b.nent) (i / max 1 b.nent)).finishWith c.cid stBadDesc 0x7F
    | none =>
      let absent := bs.filter fun x => s.blockState x.1 x.2 == .absent
      let bad := !(s.readSpan c.part b.addr (16 * b.nent * b.nsec)).poisoned.isEmpty
      (s.fillBlocks bs true none).updCmd c.cid fun c =>
        { c with step := 1, marked := absent.map blockNumber, poisonRows := if bad then 1 else 0 }

/-- FILL: it ends when all blocks of the listed tiles are RESIDENT or DIRTY, TIER_FAIL where one is FAILED (R256). -/
def State.fillRow (s : State) (c : Cmd) : State :=
  let b := prefetchBody c.desc
  let len := 16 * b.nent * b.nsec
  match if len = 0 then .ready else s.view c.part b.addr len with
  | .failed => s.finishWith c.cid stTierFail 0
  | .budget => s.finishWith c.cid stBudget 0
  | .wait => s.ask c.part b.addr len
  | .ready =>
    let bs := (s.listBlocks c.part b.addr b.nent b.nsec none).eraseDups.filter fun x => !s.deadBlock x.1 x.2
    let s := if c.step = 0 then s.fillStart c b bs else s
    match s.cmd c.cid with
    | none => s
    | some c =>
      let is (st : BlockState) (x : Nat × Nat) : Bool := s.blockState x.1 x.2 == st
      if c.step = 0 || c.stage == .finished then s
      else
        let s := s.countFilled c
        if bs.all fun x => is .resident x || is .dirty x || is .failed x then
          if bs.any (is .failed) then s.finishWith c.cid stTierFail 0
          else if c.poisonRows ≠ 0 then s.finishWith c.cid stPoison 0 else s.finish c.cid
        else if bs.any fun x => is .absent x && (match s.window x.1 with
            | some w => s.zeroFare c.part [sourceRes w.src]
            | none => false) then s.finishWith c.cid stBudget 0
        else s.fillBlocks bs true none

/-- FILL (R256). -/
def execFill (cid : Nat) (s : State) : Host.Outcome State Fault Refusal :=
  .next (whenUp s fun s =>
    match s.prefetchOf cid 2 with
    | some c => (s.countFilled c).unlessStopped c fun s => (s.fillRow c).retryHeld
    | none => s)

/-- The window of a BIND, CLEAN or EVICT. -/
def windowKey (c : Cmd) : Nat := slotKey c.part (handleSlot (prefetchBody c.desc).window)

/-- Writes back what is DIRTY and adds it to VALUE; a zero tray fare, judged as the write-back needs it, ends the command BUDGET
(R451). -/
def State.writeBackFor (s : State) (c : Cmd) : State :=
  let key := windowKey c
  let n := (s.dirtyBlocks key).length
  if n != 0 && !s.sourceLost key && s.zeroFare c.part [.tray] then s.finishWith c.cid stBudget 0
  else
    let s := s.writeBackAll key
    s.updCmd c.cid fun c => { c with value := c.value + (n - (s.dirtyBlocks key).length) }

/-- The write-back of a command has ended it, or leaves blocks DIRTY. -/
def State.notCleaned (s : State) (c : Cmd) : Bool :=
  !s.cleaned (windowKey c) || (match s.cmd c.cid with
    | some k => k.stage == .finished
    | none => true)

/-- BIND: once nothing of the window is in flight and its DIRTY blocks are written back, it takes its source and mode with every
block ABSENT (R245, R246). -/
def State.bindRow (s : State) (c : Cmd) : State :=
  let b := prefetchBody c.desc
  let key := windowKey c
  if !s.backed c.part b.window then s.finishWith c.cid stRevoked 0
  else if !s.quietWindow key then s
  else
    let s := s.writeBackFor c
    if s.notCleaned c then s
    else match bindSource b with
      | none => ((s.unbind key).finish c.cid).moveCursors
      | some src =>
        if !s.sourceOk c.part src then s.finishWith c.cid stBadDesc 0x21
        else if s.boundElsewhere src key then s.finishWith c.cid stBadDesc 0x22
        else ((s.bindTo key src b.mode).finish c.cid).moveCursors

/-- BIND (R245). -/
def execBind (cid : Nat) (s : State) : Host.Outcome State Fault Refusal :=
  .next (whenUp s fun s =>
    match s.prefetchOf cid 3 with
    | some c => s.unlessStopped c fun s => (s.bindRow c).retryHeld
    | none => s)

/-- CLEAN: the DIRTY blocks of the window are written back (R249). -/
def execClean (cid : Nat) (s : State) : Host.Outcome State Fault Refusal :=
  .next (whenUp s fun s =>
    match s.prefetchOf cid 4 with
    | some c => s.unlessStopped c fun s =>
        let s := s.writeBackFor c
        if s.notCleaned c then s else s.finish cid
    | none => s)

/-- RESIDENT blocks of a window become ABSENT. -/
def State.evictResident (s : State) (key : Nat) : State :=
  match s.window key with
  | some w => s.setWindow key { w with blocks := w.blocks.filter fun e => e.2 != .resident }
  | none => s

/-- EVICT: the DIRTY blocks are written back, then the RESIDENT blocks become ABSENT (R249). -/
def execEvict (cid : Nat) (s : State) : Host.Outcome State Fault Refusal :=
  .next (whenUp s fun s =>
    match s.prefetchOf cid 5 with
    | some c => s.unlessStopped c fun s =>
        let s := s.writeBackFor c
        if s.notCleaned c then s else (s.evictResident (windowKey c)).finish cid
    | none => s)

end Sys2Proof.Machine
end

