-- ==== Sys2Proof/Machine/TierRows.lean ====
section
/-! DEFINITION. Trays and flash (chapter 9, R429): write-back by age, late tiles, NVMe, drives, tray berths and their rebuild. -/

namespace Sys2Proof.Machine

/-- WRITE_BACK_AGE: a block that has been DIRTY for WB_AGE_MS is written back (R249). -/
def execWriteBackAge (part slot block : Nat) (s : State) : Host.Outcome State Fault Refusal :=
  .next (whenUp s fun s => s.writeBack (slotKey part slot) block)

/-- TIER_WAIT_EXPIRY: a tile has been waited for too long, so the command ends TIER_FAIL at its boundary (R257). -/
def execTierWaitExpiry (cid : Nat) (s : State) : Host.Outcome State Fault Refusal :=
  .next (whenUp s fun s =>
    match s.cmd cid with
    | some c => if c.stage == .dispatched || c.stage == .running then s.stopAny cid stTierFail 0 else s
    | none => s)

/-! ## Flash (R241 to R244, R429) -/

/-- FL_DRIVE_STATUS.STATE. -/
def drvAbsent : Nat := 0
def drvDiscovering : Nat := 1
def drvUp : Nat := 2
def drvFailed : Nat := 3

def Drive.reset : Drive := { present := false, refclk := false, perstLow := true, recreates := [] }
def State.drive (s : State) (d : Nat) : Drive := Tab.get Drive.reset s.fl.drives d
def State.setDrive (s : State) (d : Nat) (x : Drive) : State :=
  { s with fl := { s.fl with drives := Tab.set Drive.reset s.fl.drives d x } }

/-- NVMe opcodes of the commands of Table 9.3 (log entry 34). -/
def nvCreateSq : Nat := 0x01
def nvCreateCq : Nat := 0x05
def nvDeleteSq : Nat := 0x00
def nvDeleteCq : Nat := 0x04
def nvIdentify : Nat := 0x06
def nvSetFeatures : Nat := 0x09
def nvGetLogPage : Nat := 0x02
def nvRead : Nat := 0x02
def nvWrite : Nat := 0x01
def nvFlush : Nat := 0x00

/-- An outstanding NVMe command is over. -/
def State.dropNvme (s : State) (d nid : Nat) : State :=
  { s with fl := { s.fl with cmds := s.fl.cmds.filter fun c => !(c.drive == d && c.nid == nid) } }

/-- Issues an NVMe admin command, which has a time limit like any other (R243). -/
def State.admin (s : State) (d op nsid lba : Nat) : State :=
  let nid := s.fl.nextNid
  let c : Nvme := { drive := d, nid := nid, qpair := 0, fill := none, copyCid := none, nsid := nsid, lba := lba, blocks := 0,
                    retried := false, due := false }
  ({ s with fl := { s.fl with cmds := s.fl.cmds ++ [c], nextNid := nid + 1 } } : State).emit (.nvme d 0 op nsid lba 0)

/-- Issues several admin commands to a drive. -/
def State.admins (s : State) (d : Nat) (l : List (Nat × Nat × Nat)) : State := l.foldl (fun s x => s.admin d x.1 x.2.1 x.2.2) s

/-- An NVMe command has failed: its fill fails, its COPY ends TIER_FAIL at its boundary (R243, R254). -/
def State.nvmeFailed (s : State) (c : Nvme) : State :=
  let s := s.dropNvme c.drive c.nid
  match c.fill, c.copyCid with
  | some f, _ => s.fillFailed f
  | none, some cid => s.finishWith cid stTierFail 0
  | none, none => s

/-- Every outstanding command of a drive fails. -/
def State.failNvme (s : State) (d : Nat) : State := (s.fl.cmds.filter (·.drive == d)).foldl State.nvmeFailed s

/-- A drive is marked FAILED and its controller disabled (R243). -/
def State.failDrive (s : State) (d : Nat) : State :=
  let s := ((s.put FL_DRIVE_STATUS.STATE d drvFailed).put FL_DRIVE_STATUS.QPAIRS d 0).failNvme d
  s.log { cause := .driveFailed, loc := d }

/-- The stripe unit an NVMe read of a COPY serves, by the source berth's layout (R244). -/
def State.copyUnitOf (s : State) (c : Cmd) (n : Nvme) : Nat :=
  let fb := s.flashBerth (copyFbn (copyBody c.desc).src)
  (n.lba - fb.start) / 64 * 2 ^ fb.log2n + (n.drive - fb.first)

/-- NVME_COMPLETION: the polled completion finishes a read; an error status counts (R241, R254). -/
def execNvmeCompletion (drive nid : Nat) (ok : Bool) (p : Payload) (s : State) : Host.Outcome State Fault Refusal :=
  .next (whenUp s fun s =>
    match s.fl.cmds.find? fun c => c.drive == drive && c.nid == nid with
    | none => s
    | some c =>
      if c.qpair = 0 then s.dropNvme drive nid
      else if !ok then ((s.bump FL_DRIVE_STATUS.MEDIA_ERR drive 1).nvmeFailed c).retryHeld.settleStalls
      else
        let s := s.dropNvme drive nid
        let d := fitPayload p (blockBytes * c.blocks)
        match c.fill, c.copyCid with
        | some f, _ => (s.shardArrived f 0 d).retryHeld.moveCursors.settleStalls
        | none, some cid =>
          match s.cmd cid with
          | some k => s.giveInput cid (copyUnit (s.copyUnitOf k c)) d
          | none => s
        | none, none => s)

/-- The partition and context group an NVMe command is charged to (R258). -/
def State.nvmePayer (s : State) (c : Nvme) : Option (Nat × Nat) :=
  match c.fill, c.copyCid with
  | some f, _ => (s.fill f).map fun x => (x.key / 32768, 0)
  | none, some cid => (s.cmd cid).map fun k => (k.part, s.ctxGroup k.ctx)
  | none, none => none

/-- An NVMe command is issued again under its own number once the fare covers it: it is one more NVMe command (R243, R258, R263). -/
def State.reissue (s : State) (c : Nvme) : State :=
  let set (s : State) (due : Bool) : State :=
    { s with fl := { s.fl with cmds := s.fl.cmds.map fun k => if k.drive == c.drive && k.nid == c.nid then { k with due := due } else k } }
  match s.nvmePayer c with
  | some x =>
    if s.covers x.1 x.2 .flash 1 then
      (set (s.charge x.1 x.2 .flash 1) false).emit (.nvme c.drive c.qpair nvRead c.nsid c.lba c.blocks)
    else set s true
  | none => s

/-- NVMe commands that waited for a fare are issued again, in their order. -/
def State.reissueDue (s : State) : State := (s.fl.cmds.filter (·.due)).foldl State.reissue s

/-- NVME_TIMEOUT: the queue pair is deleted and made again, its other commands are issued again, the late one once more; the
third pair made again within a second, or an admin command that is late, fails the drive (R243). -/
def execNvmeTimeout (drive nid : Nat) (s : State) : Host.Outcome State Fault Refusal :=
  .next (whenUp s fun s =>
    match s.fl.cmds.find? fun c => c.drive == drive && c.nid == nid with
    | none => s
    | some c =>
      if c.qpair = 0 then ((s.bump FL_DRIVE_STATUS.TIMEOUTS drive 1).failDrive drive).retryHeld.settleStalls
      else
      let s := (s.bump FL_DRIVE_STATUS.TIMEOUTS drive 1).bump FL_DRIVE_STATUS.RECREATES drive 1
      let x := s.drive drive
      let recent := (x.recreates.filter fun t => s.tb.hclk < t + msCycles 1000) ++ [s.tb.hclk]
      let s := s.setDrive drive { x with recreates := recent }
      if 3 ≤ recent.length then ((s.failDrive drive).setDrive drive { x with recreates := [] }).retryHeld
      else
        let q := c.qpair
        let s := s.admins drive [(nvDeleteSq, 0, q), (nvDeleteCq, 0, q), (nvCreateCq, 0, q), (nvCreateSq, 0, q)]
        let s := (s.fl.cmds.filter fun k => k.drive == drive && k.qpair == q && k.nid != nid).foldl State.reissue s
        if c.retried then (s.nvmeFailed c).retryHeld
        else
          let s := s.reissue c
          { s with fl := { s.fl with cmds := s.fl.cmds.map fun k =>
              if k.drive == drive && k.nid == nid then { k with retried := true } else k } })

/-- DRIVE_DISCOVERY: the link has trained, so the reader identifies the drive and makes its queue pairs; a link without FLIT
mode, an admin command that timed out or another LBA format leaves the drive FAILED (R241, R243, R429). -/
def execDriveDiscovery (drive : Nat) (info : DriveInfo) (s : State) : Host.Outcome State Fault Refusal :=
  .next (whenUp s fun s =>
    let x := s.drive drive
    if 16 ≤ drive || !x.present || x.perstLow || s.get FL_DRIVE_STATUS.STATE drive == drvUp then s
    else if !info.flitMode then s.failDrive drive
    else
      let s := s.emits [.nvme drive 0 nvIdentify 0 0 0]
      if !info.adminOk || !info.lba4096 then s.failDrive drive
      else
        let n := min 64 info.queues
        let s := s.emits (.nvme drive 0 nvSetFeatures 0 64 0 ::
          (List.range n).flatMap fun q => [.nvme drive 0 nvCreateCq 0 (q + 1) 0, .nvme drive 0 nvCreateSq 0 (q + 1) 0])
        ((s.put FL_DRIVE_STATUS.STATE drive drvUp).put FL_DRIVE_STATUS.QPAIRS drive n).setDrive drive { x with recreates := [] })

/-- GET_LOG_PAGE_POLL: every drive that is UP is asked for log page 0x02 (R243). -/
def execGetLogPagePoll (s : State) : Host.Outcome State Fault Refusal :=
  .next (whenUp s fun s =>
    ((List.range 16).filter fun d => s.get FL_DRIVE_STATUS.STATE d == drvUp).foldl (fun s d => s.admin d nvGetLogPage 0 0x02) s)

/-- FPRSNT_N stable for 10 ms: an inserted drive gets its FREFCLK; a removed one loses it, is ABSENT and its commands fail
(Table 18.4, R429). -/
def execFprsntN (drive : Nat) (present : Bool) (stableMs : Nat) (s : State) : Host.Outcome State Fault Refusal :=
  .next (whenUp s fun s =>
    if stableMs < 10 || 16 ≤ drive || (s.drive drive).present == present then s
    else if present then s.setDrive drive { s.drive drive with present := true, refclk := true }
    else
      let s := s.setDrive drive Drive.reset
      (((s.put FL_DRIVE_STATUS.STATE drive drvAbsent).put FL_DRIVE_STATUS.QPAIRS drive 0).failNvme drive).retryHeld)

/-- FPERST_N_RELEASE: 100 ms after FREFCLK starts the drive leaves reset, and its link can train (R429). -/
def execFperstNRelease (drive : Nat) (s : State) : Host.Outcome State Fault Refusal :=
  .next (whenUp s fun s =>
    let x := s.drive drive
    if x.refclk && x.perstLow then (s.setDrive drive { x with perstLow := false }).put FL_DRIVE_STATUS.STATE drive drvDiscovering
    else s)

/-! ## Trays (R237 to R240, R304) -/

/-- The windows bound to a tray berth, by key. -/
def State.windowsOf (s : State) (tbn : Nat) : List Nat :=
  (s.te.windows.filter fun e => e.2.src == .tray tbn).map (·.1)

/-- A tray berth loses positions: DEGRADED, or LOST once both copies or three of its ten trays are gone (R238). -/
def TrayBerth.lose (t : TrayBerth) (pos : List Nat) : TrayBerth :=
  let lost := (t.lost ++ pos).eraseDups
  let limit := if t.policy = 0 then 2 else 3
  { t with lost := lost, state := if limit ≤ lost.length then tbLost else tbDegraded, target := none, rebuild := [] }

/-- Fills of a tray berth start over: those in flight may wait for a tray that is gone. -/
def State.restartFills (s : State) (tbn : Nat) : State :=
  (s.te.fills.filter fun f => s.fillSource f == some (.tray tbn)).foldl (fun s f =>
    let reads := s.fe.reads.filter fun r => match r.use with
      | .trayShard k _ => k != f.fid
      | _ => true
    let fills := replaceFirst (·.fid == f.fid) (fun f => { f with issued := false, need := [], got := [] }) s.te.fills
    ({ s with fe := { s.fe with reads := reads }, te := { s.te with fills := fills } } : State).issueFill f.fid) s

/-- A tray failure reaches one tray berth, one that is being rebuilt onto it too: it is logged, with the windows that hang on a LOST one, and its fills go on from
what is left (R238, R240, Table 15.6). -/
def State.loseTray (s : State) (tray : Nat) (e : Nat × TrayBerth) : State :=
  let t := e.2
  let pos := (List.range t.places.length).filter fun i =>
    (t.places.getD i (0, [])).1 == tray && (!t.lost.contains i || t.target == some i)
  if t.state = tbFree ∨ t.state = tbLost ∨ pos.isEmpty then s
  else
    let u := t.lose pos
    let rebuilds := (s.te.fills.filter fun f => f.rebuildOf == some e.1).map (·.fid)
    let s := rebuilds.foldl State.dropFill (s.setTrayBerth e.1 u)
    let s := if u.state = tbLost then
        let ws := s.windowsOf e.1
        if ws.isEmpty then s.log { cause := .trayLost, part := some t.part, loc := tray, addr := e.1 }
        else ws.foldl (fun s k => s.log { cause := .trayLost, part := some t.part, loc := tray, addr := e.1, aux := s.keyHandle k }) s
      else s.log { cause := .trayDegraded, part := some t.part, loc := tray, addr := e.1 }
    s.restartFills e.1

/-- TRAY_FAILURE (R238). -/
def execTrayFailure (tray : Nat) (s : State) : Host.Outcome State Fault Refusal :=
  .next (whenUp s fun s =>
    if 64 ≤ tray || s.get TY_TRAY_STATUS.STATE tray != 1 then s
    else ((s.ty.berths.foldl (fun s e => s.loseTray tray e) (s.put TY_TRAY_STATUS.STATE tray 2)).retryHeld).moveCursors)

/-- The tray a module-originated read asks. -/
def State.readTray (s : State) (r : ReadReq) : Option Nat :=
  let from_ (t b shard : Nat) : Option Nat :=
    (((s.trayBerth t).reads b).getD []).find? (·.1 == shard) |>.map fun x => x.2.1
  match r.use with
  | .trayShard fid shard => (s.fill fid).bind fun f => match s.fillSource f with
    | some (.tray t) => from_ t f.block shard
    | _ => none
  | .copy cid i => (s.cmd cid).bind fun c =>
    let b := copyBody c.desc
    let dst := 2 ^ 32 ≤ i
    let k := i - (if dst then 2 ^ 32 else 2 ^ 24)
    from_ (copyTbn (if dst then b.dst else b.src)) (k / 16) (k % 16)
  | _ => none

/-- TRAY_REQUEST_TIMEOUT: a tray has not answered in 100 µs, so the request counts as failed (R240, R304). -/
def execTrayRequestTimeout (rid : Nat) (s : State) : Host.Outcome State Fault Refusal :=
  .next (whenUp s fun s =>
    match s.fe.reads.find? (·.rid == rid) with
    | none => s
    | some r =>
      match s.readTray r with
      | none => s
      | some tray =>
        let s := (s.bump TY_TRAY_STATUS.ERRORS tray 1).dropRead rid
        match r.use with
        | .trayShard fid _ => ((s.fillFailed fid).retryHeld).moveCursors.settleStalls
        | .copy cid _ => s.finishWith cid stTierFail 0
        | _ => s)

/-- Puts a tray before the first with fewer free pages. -/
def State.insertTray (s : State) (t : Nat) : List Nat → List Nat
  | [] => [t]
  | u :: l =>
    if s.get TY_TRAY_STATUS.FREE_PAGES u < s.get TY_TRAY_STATUS.FREE_PAGES t then t :: u :: l else u :: s.insertTray t l

/-- Trays of a group that are UP, those with the most free pages first; of equals the lower number (log entry 35). -/
def State.groupTrays (s : State) (g : Nat) : List Nat :=
  ((List.range 64).filter fun t => s.get TY_GROUP.TRAYS g / 2 ^ t % 2 == 1 && s.get TY_TRAY_STATUS.STATE t == 1).foldl
    (fun l t => s.insertTray t l) []

/-- The lowest `n` free pages of a tray, by search in at most `k` pages. -/
def freePages (used : List Nat) : Nat → Nat → Nat → List Nat
  | 0, _, _ => []
  | k + 1, page, n =>
    if n = 0 then [] else if used.contains page then freePages used k (page + 1) n else page :: freePages used k (page + 1) (n - 1)

/-- Takes `n` pages of a tray; they are zero-filled (R237). -/
def State.takePages (s : State) (tray n : Nat) : List Nat × State :=
  let used := s.trayPagesUsed tray
  let ps := freePages used (used.length + n) 0 n
  let s := { s with ty := { s.ty with usedPages := Tab.set [] s.ty.usedPages tray (ps.foldl (fun l p => addSorted p l) used) } }
  (ps, (s.syncPages tray).emits (ps.map fun p => .trayZero tray p))

/-- Returns pages of a tray. -/
def State.givePages (s : State) (tray : Nat) (ps : List Nat) : State :=
  ({ s with ty := { s.ty with usedPages := Tab.set [] s.ty.usedPages tray ((s.trayPagesUsed tray).filter fun p => !ps.contains p) } }
    : State).syncPages tray

/-- Trays and pages of a policy: two of eight pages, or ten of one (R236). -/
def policyTrays (policy : Nat) : Nat := if policy = 0 then 2 else 10
def policyPages (policy : Nat) : Nat := if policy = 0 then 8 else 1

def State.trayResult (s : State) (r : Nat) : State := s.put TY_TB_CMD.RESULT 0 r

/-- ALLOC of the selected tray berth (R237). -/
def State.allocTray (s : State) : State :=
  let tbn := s.get TY_TB_SEL.TBN
  let t := s.trayBerth tbn
  if t.state ≠ tbFree then s.trayResult 1
  else
    let n := policyPages t.policy
    let ts := ((s.groupTrays t.group).filter fun x => n ≤ s.get TY_TRAY_STATUS.FREE_PAGES x).take (policyTrays t.policy)
    if ts.length < policyTrays t.policy then s.trayResult 2
    else
      let r := ts.foldl (fun (a : List (Nat × List Nat) × State) x =>
        let q := a.2.takePages x n
        (a.1 ++ [(x, q.1)], q.2)) ([], s)
      (r.2.setTrayBerth tbn { t with state := tbAllocated, bound := false, places := r.1, lost := [], target := none,
                                     rebuild := [] }).trayResult 0

/-- FREE of the selected tray berth: its pages return (R237). -/
def State.freeTray (s : State) : State :=
  let tbn := s.get TY_TB_SEL.TBN
  let t := s.trayBerth tbn
  if t.state = tbFree then s.trayResult 1
  else if t.bound then s.trayResult 3
  else
    let s := (s.te.fills.filter fun f => f.rebuildOf == some tbn).foldl (fun s f => s.dropFill f.fid) s
    let s := t.places.foldl (fun s x => s.givePages x.1 x.2) s
    (s.setTrayBerth tbn { t with state := tbFree, places := [], lost := [], target := none, rebuild := [] }).trayResult 0

/-- A DEGRADED berth's first lost position moves to the replacement tray and its blocks are to be rebuilt there (R239). -/
def State.rebuildOnto (s : State) (spare tbn : Nat) : State :=
  let t := s.trayBerth tbn
  match t.lost with
  | [] => s
  | pos :: _ =>
    let old := t.places.getD pos (0, [])
    let q := (s.givePages old.1 old.2).takePages spare (policyPages t.policy)
    (q.2.setTrayBerth tbn { t with state := tbRebuilding, places := t.places.set pos (spare, q.1), target := some pos,
                                   rebuild := List.range 16384 }).rebuildNext tbn

/-- REBUILD: every DEGRADED berth of the selected berth's group that may use the replacement tray is rebuilt onto it
(R239; the berths it takes are log entry 36). -/
def State.rebuildTray (s : State) (spare : Nat) : State :=
  let g := (s.trayBerth (s.get TY_TB_SEL.TBN)).group
  let todo := (s.ty.berths.filter fun e => e.2.state == tbDegraded && e.2.group == g && !e.2.places.any (·.1 == spare)).map (·.1)
  if todo.isEmpty then s.trayResult 1
  else
    let need := (todo.map fun t => policyPages (s.trayBerth t).policy).sum
    if s.get TY_GROUP.TRAYS g / 2 ^ spare % 2 = 0 ∨ s.get TY_TRAY_STATUS.STATE spare ≠ 1
        ∨ s.get TY_TRAY_STATUS.FREE_PAGES spare < need then s.trayResult 2
    else (todo.foldl (fun s t => s.rebuildOnto spare t) s).trayResult 0

/-- ALLOC (R237). -/
def execAlloc (up : Nat) (s : State) : Host.Outcome State Fault Refusal := .next (barWrite up 0xC00018 s fun s => s.allocTray)
/-- TRAY_BERTH_FREE (R237). -/
def execTrayBerthFree (up : Nat) (s : State) : Host.Outcome State Fault Refusal := .next (barWrite up 0xC00018 s fun s => s.freeTray)
/-- REBUILD (R239). -/
def execRebuild (up spare : Nat) (s : State) : Host.Outcome State Fault Refusal := .next (barWrite up 0xC00018 s fun s => s.rebuildTray spare)

/-- REBUILD_COMPLETE: the last block is rebuilt; with no other position lost the berth is ALLOCATED again (R239). -/
def execRebuildComplete (tbn : Nat) (s : State) : Host.Outcome State Fault Refusal :=
  .next (whenUp s fun s =>
    let t := s.trayBerth tbn
    match t.state == tbRebuilding && t.rebuild.isEmpty, t.target with
    | true, some pos =>
      let lost := t.lost.filter (· != pos)
      s.setTrayBerth tbn { t with lost := lost, target := none, state := if lost.isEmpty then tbAllocated else tbDegraded }
    | _, _ => s)

/-! ## TY_TB_DATA and FL_FB_DATA as views of the selected berth (Tables 9.17 and 9.21) -/

/-- TY_TB_DATA as it reads. -/
def State.trayDataWord (s : State) : Nat :=
  let t := s.trayBerth (s.get TY_TB_SEL.TBN)
  t.part + 64 * t.policy + 128 * t.group + 2048 * t.state + 16384 * (if t.bound then 1 else 0)

/-- A write to TY_TB_DATA: PART and POLICY only while FREE; the flag tells that a field was refused (R12). -/
def State.writeTrayData (s : State) (v : Nat) : State × Bool :=
  let tbn := s.get TY_TB_SEL.TBN
  let t := s.trayBerth tbn
  let free := t.state == tbFree
  let part := v % 64
  let policy := v / 64 % 2
  let s := s.setTrayBerth tbn { t with part := if free then part else t.part, policy := if free then policy else t.policy,
                                       group := v / 128 % 16 }
  (s, !free && (part != t.part || policy != t.policy))

/-- FL_FB_DATA as it reads. -/
def State.flashDataWord (s : State) : Nat :=
  let f := s.flashBerth (s.get FL_FB_SEL.FBN)
  (if f.valid then 1 else 0) + 2 * f.part + 128 * f.first + 2048 * f.log2n + 2 ^ 14 * f.nsid + 2 ^ 32 * f.start

/-- A write to FL_FB_DATA: the fields other than VALID only while VALID is 0, in range (LOG2N 0 to 4, FIRST + count at most 16,
NSID at least 1, START a multiple of 64); an unchanged field is never refused (R12). -/
def State.writeFlashData (s : State) (v : Nat) : State :=
  let fbn := s.get FL_FB_SEL.FBN
  let f := s.flashBerth fbn
  let free := !f.valid
  let pick (ok : Bool) (old new : Nat) : Nat := if free && ok then new else old
  let log2n := pick (v / 2048 % 8 ≤ 4) f.log2n (v / 2048 % 8)
  let first := pick (v / 128 % 16 + 2 ^ log2n ≤ 16) f.first (v / 128 % 16)
  let log2n := if first + 2 ^ log2n ≤ 16 then log2n else f.log2n
  let g : FlashBerth :=
    { valid := v % 2 == 1, part := pick true f.part (v / 2 % 64), first := first, log2n := log2n,
      nsid := pick (1 ≤ v / 2 ^ 14 % 2 ^ 18) f.nsid (v / 2 ^ 14 % 2 ^ 18), start := pick (v / 2 ^ 32 % 64 == 0) f.start (v / 2 ^ 32 % 2 ^ 32) }
  { s with fl := { s.fl with berths := Tab.set FlashBerth.reset s.fl.berths fbn g } }

end Sys2Proof.Machine
end

