-- ==== Sys2Proof/Machine/Power.lean ====
section
/-! DEFINITION. Power, clocks, temperature, resets and start-up (chapter 17), the FATAL error of R374, and the sensors of the
management endpoint that follow them (Table 18.7). -/

namespace Sys2Proof.Machine

/-! ## Sensors of Table 18.7 -/

/-- Which thresholds of a sensor its reading is beyond (Table 18.7, R403, R417). -/
def State.sensorBits (s : State) (id v : Nat) : List Bool :=
  match id with
  | 1 => [v < 400, v < 380, 600 < v, 720 < v]
  | 2 => [360 < v]
  | 3 => [s.get HS_PWR_CFG.CAP_W < v, 1450 < v]
  | 4 => [1 ≤ v, 7 ≤ v]
  | _ => [528 < v, 540 ≤ v, 600 ≤ v]

/-- The bits as a number, the first lowest. -/
def bitsNat : List Bool → Nat
  | [] => 0
  | b :: t => (if b then 1 else 0) + 2 * bitsNat t

/-- A new reading of a sensor: one message for each threshold it crosses, in either direction (R431). -/
def State.sense (s : State) (id v : Nat) : State :=
  let old := Tab.get 0 s.mg.zones id
  let bits := s.sensorBits id v
  let new := bitsNat bits
  let s := { s with mg := { s.mg with zones := Tab.set 0 s.mg.zones id new } }
  (List.range bits.length).foldl (fun s k => if old.testBit k == new.testBit k then s else s.platformEvent id v) s

/-- Sensors 5 to 31: the die temperatures, in the order of Power.dieTemps. -/
def State.senseDies (s : State) : State :=
  (List.range s.pwr.dieTemps.length).foldl (fun s i => s.sense (5 + i) (s.pwr.dieTemps.getD i 0)) s

/-! ## FATAL errors (R374) -/

/-- Every deck stops at once. -/
def State.stopDecks (s : State) : State :=
  [DeckId.a, DeckId.b].foldl (fun s d =>
    (s.updDeck d fun k => { k with leg := none, reserved := none, waitingLeg := none }).put DK_DECK_STATUS.BUSY (deckNo d) 0) s

/-- The 64 bytes of an entry (Table 15.5). -/
def logBytes (e : LogEntry) (phase : Nat) : List Byte :=
  let p := e.part.getD 0
  leBytes 8 (e.seq % 2 ^ 32 + 2 ^ 32 * (e.sev % 4) + 2 ^ 34 * (e.subsys % 32)
      + 2 ^ 39 * (if e.part.isSome then 1 else 0) + 2 ^ 40 * (e.cause % 256) + 2 ^ 48 * (p % 64))
    ++ leBytes 8 (e.sec % 2 ^ 48) ++ leBytes 8 (e.ns % 2 ^ 32 + 2 ^ 32 * (e.ctx % 4096) + 2 ^ 44 * (e.tag % 2 ^ 20))
    ++ leBytes 8 e.loc ++ leBytes 8 e.addr ++ leBytes 8 (e.count % 2 ^ 32 + 2 ^ 32 * (e.temp % 256)) ++ leBytes 8 e.aux
    ++ leBytes 8 (2 ^ 63 * (phase % 2))

/-- The last 1 MiB of the log goes to the crash area of a drive that is UP, oldest entry first, in four Writes of 256 KiB, followed by
a Flush (R242, Table 9.3, log entry 50). -/
def State.writeCrash (s : State) : State :=
  let d := s.get FL_CFG.CRASH_DRIVE
  if s.flag FL_CFG.CRASH_EN && s.get FL_DRIVE_STATUS.STATE d == drvUp && s.get FL_DRIVE_STATUS.QPAIRS d != 0 then
    let es := s.hs.history.reverse
    let lba := s.get FL_CFG.CRASH_LBA
    let s := (List.range 4).foldl (fun s i =>
      (s.emit (.nvme d 1 nvWrite 1 (lba + 64 * i) 64)).emit
        (.nvmeData d (lba + 64 * i) (((es.drop (4096 * i)).take 4096).flatMap fun e => logBytes e 1))) s
    s.emit (.nvme d 1 nvFlush 1 0 0)
  else s

/-- Every Enxis port drops to DISABLED. -/
def State.dropPorts (s : State) : State :=
  ((Sys2Proof.Machine.State.touched s LK_PORT_STATUS.STATE).filter fun p => s.portState p != portDisabled).foldl State.disablePort s

/-- A FATAL error: decks and engines stop, the entry is logged and the crash area written, the ports drop and the module is
FAILED with FAULT_N low (R374, R422). Commands in flight get no records. -/
def State.fatal (s : State) (e : Event) (cause : Nat) : State :=
  if s.modState = modOff ∨ s.modState = modFailed then s
  else
    let s := ((s.stopDecks.log e).writeCrash).dropPorts
    let s := (s.put HS_STATE.CAUSE 0 cause).enter modFailed
    { s with pwr := { s.pwr with faultLow := true } }

/-- The entry of a FATAL cause (Table 15.6). -/
def fatalEvent : FatalCause → Event
  | .d2dFail l => { cause := .d2dFail, loc := l }
  | .metadataLost p => { cause := .metadataLost, loc := p }
  | .thermalTrip n t => { cause := .thermalTrip, loc := n, count := t }
  | .clockLoss p => { cause := .clockLoss, loc := p }
  | .purserFail => { cause := .purserFail }

/-- FATAL_ERROR: before hub release only a thermal trip or a purser failure is one (R374, R382, R408, R417). -/
def State.fatalError (s : State) (c : FatalCause) : State :=
  match c with
  | .thermalTrip _ _ =>
    let s := s.fatal (fatalEvent c) 2
    if s.modState = modOff then s else { s with pwr := { s.pwr with coreRailsOff := true } }
  | .purserFail => s.fatal (fatalEvent c) 2
  | _ => whenUp s fun s => s.fatal (fatalEvent c) 2

def execFatalError (cause : FatalCause) (s : State) : Host.Outcome State Fault Refusal := .next (s.fatalError cause)

/-- PURSER_FAIL (R382). -/
def execPurserFail (s : State) : Host.Outcome State Fault Refusal := .next (s.fatal (fatalEvent .purserFail) 2)

/-- D2D_LANE_REPAIR: a repaired lane is counted CORRECTED; what repair cannot absorb is FATAL (R16). -/
def execD2dLaneRepair (link : Nat) (repaired : Bool) (s : State) : Host.Outcome State Fault Refusal :=
  .next (whenUp s fun s =>
    if repaired then
      let n := Tab.get 0 s.hs.d2d link + 1
      ({ s with hs := { s.hs with d2d := Tab.set 0 s.hs.d2d link n } } : State).log { cause := .d2dRepair, loc := link }
    else s.fatal (fatalEvent (.d2dFail link)) 2)

/-! ## Resets (Table 17.5, R413, R448) -/

/-- What a power-on or module reset leaves: every register at its Reset column, every table empty; fuses and boot flash
survive, and so does what lies outside the module. -/
def State.afterReset (s : State) (cause : Nat) : State :=
  let ps : Purser :=
    { Purser.reset with uid := s.ps.uid, stepping := s.ps.stepping, keyHash := s.ps.keyHash, keyRevoke := s.ps.keyRevoke,
                        svnCount := s.ps.svnCount, debugDisable := s.ps.debugDisable, slotA := s.ps.slotA, slotB := s.ps.slotB,
                        debug := if s.ps.debugDisable then .disabled else .locked }
  let r : State :=
    { State.reset with ps := ps, out := s.out, freeCtr := s.freeCtr, pending := s.pending,
                       pwr := { Power.reset with inputGood := s.pwr.inputGood, enableLow := s.pwr.enableLow,
                                                 resetHeld := s.pwr.resetHeld, dieTemps := s.pwr.dieTemps,
                                                 faultLow := s.pwr.faultLow } }
  ((r.put HS_RESET_CAUSE.CAUSE 0 cause).put PS_BOOT_CFG.PREFER_B 0 (s.get PS_BOOT_CFG.PREFER_B))

/-- The straps in use (Table 18.6). -/
def State.keepStraps (r s : State) : State :=
  (((r.put HS_STRAP_STATUS.START_HOLD 0 (s.get HS_STRAP_STATUS.START_HOLD)).put HS_STRAP_STATUS.BIST_EN 0
    (s.get HS_STRAP_STATUS.BIST_EN)).put HS_STRAP_STATUS.SLOT_ID 0 (s.get HS_STRAP_STATUS.SLOT_ID)).put
    HS_STRAP_STATUS.UNSTABLE 0 (s.get HS_STRAP_STATUS.UNSTABLE)

/-- A module reset: STANDBY again, held there by START_HOLD, by a HOLD written before, or while a die is hot (R417, Table 17.10).
The straps are sampled anew and no row changes them in between (log entry 3). -/
def State.moduleReset (s : State) (cause : Nat) : State :=
  if s.modState = modOff then s
  else
    let r := (s.afterReset cause).keepStraps s
    let r := r.put HS_STATE.HOLD 0 (max (s.get HS_STATE.HOLD) (s.get HS_STRAP_STATUS.START_HOLD))
    if s.pwr.dieTemps.any (540 < ·) then r.put HS_STATE.CAUSE 0 4 else r

/-- MODULE_RESET: the pin (1) and the register (2) are its only sources (Tables 17.5 and 17.11). -/
def execModuleReset (cause : Nat) (s : State) : Host.Outcome State Fault Refusal :=
  .next (if cause = 1 ∨ cause = 2 then s.moduleReset cause else s)

/-- HS_RESET: MODULE acts only together with KEY 0x5A, in every module state (R418, Table 19.3). -/
def State.resetWrite (s : State) (value : Word) : State :=
  if value.getLsbD 0 && value.extractLsb' 8 8 == 0x5A#8 then s.moduleReset 2 else s

def execHsReset (up : Nat) (value : Word) (s : State) : Host.Outcome State Fault Refusal :=
  .next (if 2 ≤ up ∨ s.modState = modOff then s else (s.viaUp up).resetWrite value)

/-- RESET_N: low for 1 µs or more is a module reset, held at step 2 while low (R426). -/
def execResetN (lowNs : Nat) (s : State) : Host.Outcome State Fault Refusal :=
  .next (if lowNs < 1000 ∨ s.modState = modOff then s
    else
      let r := s.moduleReset 1
      { r with pwr := { r.pwr with resetHeld := true } })

/-- RESET_N returns high: the sequence restarts from step 2 (R426). -/
def execResetNRelease (s : State) : Host.Outcome State Fault Refusal :=
  .next { s with pwr := { s.pwr with resetHeld := false } }

/-- An upstream port's link goes down; nothing else changes (R448). -/
def State.upDown (s : State) (up : Nat) : State :=
  if up = 0 then { s with mg := { s.mg with up0 := false } }
  else if up = 1 then { s with mg := { s.mg with up1 := false } } else s

/-- PERST_N, a hot reset or link-down: PERST# must hold its level for 1 µs (R426, R448). -/
def execPerstN (up : Nat) (kind : UpReset) (s : State) : Host.Outcome State Fault Refusal :=
  .next (match kind with
    | .perst heldNs => if heldNs < 1000 then s else s.upDown up
    | .hotReset => s.upDown up
    | .linkDown => s.upDown up)

/-! ## Input and rails (R403 to R405, R422) -/

/-- A power-fail: decks, engines and links stop, the rails go off, and all state but fuses and boot flash is lost; OFF, with
FAULT_N low (R405, R422). -/
def State.powerFail (s : State) : State :=
  if s.modState = modOff then s
  else
    let r := (s.afterReset 0).put HS_STATE.STATE 0 modOff
    { r with pwr := { r.pwr with railsOn := false, faultLow := true, inputGood := false, resetHeld := false, dieTemps := [] } }

/-- POWER_FAIL (R405). -/
def execPowerFail (s : State) : Host.Outcome State Fault Refusal := .next s.powerFail

/-- The value of a strap and whether its three samples agreed (R426). -/
def strapOf {α : Type} [DecidableEq α] (zero a b c : α) : α × Bool := if a = b ∧ b = c then (a, true) else (zero, false)

/-- The straps are sampled (R414, R426). -/
def State.sampleStraps (s : State) (a b c : StrapSample) : State :=
  let h := strapOf false a.startHold b.startHold c.startHold
  let e := strapOf false a.bistEn b.bistEn c.bistEn
  let i := strapOf 0 a.slotId b.slotId c.slotId
  let n (x : Bool) : Nat := if x then 1 else 0
  ((((s.put HS_STRAP_STATUS.START_HOLD 0 (n h.1)).put HS_STRAP_STATUS.BIST_EN 0 (n e.1)).put HS_STRAP_STATUS.SLOT_ID 0 i.1).put
    HS_STRAP_STATUS.UNSTABLE 0 (n !(h.2 && e.2 && i.2))).put HS_STATE.HOLD 0 (n h.1)

/-- POWER_GOOD: from OFF with ENABLE_N low, the rails come up and the straps are sampled; STANDBY (R405, R414, R422). -/
def execPowerGood (s0 s1 s2 : StrapSample) (s : State) : Host.Outcome State Fault Refusal :=
  .next (if s.modState ≠ modOff ∨ s.pwr.enableLow = false then s
    else
      let r := (s.afterReset 0).sampleStraps s0 s1 s2
      { r with pwr := { r.pwr with inputGood := true, railsOn := true, faultLow := false } })

/-- ENABLE_N: high is a power-fail; low for 5 ms closes the input switch (R422). -/
def execEnableN (high : Bool) (heldUs : Nat) (s : State) : Host.Outcome State Fault Refusal :=
  .next (if high then
      let r := s.powerFail
      { r with pwr := { r.pwr with enableLow := false } }
    else if heldUs < 5000 then s
    else { s with pwr := { s.pwr with enableLow := true } })

/-- Rails that are meant to be on (R417). -/
def State.railWatched (s : State) (r : Rail) : Bool :=
  !s.pwr.coreRailsOff || r == .v12 || r == .vaux || r == .vio

/-- RAIL_CHECK: a rail outside its window in two checks 10 µs apart is a power-fail (R404). -/
def execRailCheck (bad : List Rail) (s : State) : Host.Outcome State Fault Refusal :=
  .next (if !s.pwr.railsOn then s
    else
      let bad := bad.filter s.railWatched
      if bad.any s.pwr.railsBad.contains then s.powerFail else { s with pwr := { s.pwr with railsBad := bad } })

/-- The throttle level takes a value; sensor 4 follows it. -/
def State.setLevel (s : State) (t : Nat) : State := (s.put HS_PWR_STATUS.LEVEL 0 t).sense 4 t

/-- INPUT_VOLTAGE_CHANGE: the row of R403 the input is in. -/
def execInputVoltageChange (deciVolt heldUs : Nat) (s : State) : Host.Outcome State Fault Refusal :=
  .next (if !s.pwr.railsOn then s
    else
      let s := (s.put HS_PWR_STATUS.VIN_DV 0 (min deciVolt 1023)).sense 1 deciVolt
      if deciVolt < 380 then (if 100 ≤ heldUs then s.powerFail else s)
      else if 720 < deciVolt then (if 10 ≤ heldUs then s.powerFail else s)
      else
        let s := (s.put HS_PWR_STATUS.LOW_VIN 0 (if deciVolt < 400 then 1 else 0)).put HS_PWR_STATUS.HIGH_VIN 0
          (if 600 < deciVolt then 1 else 0)
        if deciVolt < 400 then s.setLevel 7 else s)

/-- POWER_SAMPLE: a sample above 1,450 W or 36 A throttles to level 7 and stops the start of pass steps at once; 1 ms of it at
level 7 opens the input switch (R403, R407). -/
def execPowerSample (watts deciAmps : Nat) (s : State) : Host.Outcome State Fault Refusal :=
  .next (if !s.pwr.railsOn then s
    else
      let high := 1450 < watts || 360 < deciAmps
      let n := if 360 < deciAmps && s.get HS_PWR_STATUS.LEVEL == 7 then s.pwr.overCurrent + 1 else 0
      let s := (s.put HS_PWR_STATUS.IIN_DA 0 (min deciAmps 511)).sense 2 deciAmps
      let first := high && !s.pwr.overSample
      let s := { s with pwr := { s.pwr with sumWatts := s.pwr.sumWatts + watts, samples := s.pwr.samples + 1, overCurrent := n,
                                            overSample := s.pwr.overSample || high,
                                            decksHalted := s.pwr.decksHalted || high } }
      if 100 ≤ n then s.powerFail
      else
        let s := if first then s.bump HS_PWR_STATUS.FAST 0 1 else s
        if high then s.setLevel 7 else s)

/-! ## The tide edge (R262) -/

/-- The words of PT_FARE a commit left take effect (R265, R444; Table 10.8). -/
def State.applyFares (s : State) : State :=
  let put (s : State) (p : Nat) (w : Nat) (v : Word) : State :=
    let f (lsb n : Nat) : Nat := v.toNat / 2 ^ lsb % 2 ^ n
    if w = 0 then ((s.put PT_FARE.RES (8 * p) (f 0 22)).put PT_FARE.RES (8 * p + 1) (f 22 22)).put PT_FARE.RES (8 * p + 2) (f 44 17)
    else if w = 1 then
      ((s.put PT_FARE.RES (8 * p + 3) (f 0 17)).put PT_FARE.RES (8 * p + 4) (f 17 21)).put PT_FARE.RES (8 * p + 5) (f 38 22)
    else (s.put PT_FARE.RES (8 * p + 6) (f 0 22)).put PT_FARE.RES (8 * p + 7) (f 22 16)
  let s := s.pt.written.foldl (fun s e => put s (e.1 / 4) (e.1 % 4) e.2) s
  { s with pt := { s.pt with written := [] } }

/-- TIDE_EDGE: throttle level, fares and balances of the new tide, then the work that waited for it (R262 to R265, R362, R407). -/
def State.newTide (s : State) : State :=
  let s := s.throttleUpdate
  let s := (s.sense 3 (s.get HS_PWR_STATUS.POWER_W)).sense 4 (s.get HS_PWR_STATUS.LEVEL)
  let s := s.applyFares.tideEdge
  let s := [DeckId.a, DeckId.b].foldl (fun s d => s.updDeck d fun k => { k with reserveUsed := 0 }) s
  let s := s.reissueDue.issueFills.moveCursors
  let s := (s.ty.berths.map (·.1)).foldl State.rebuildNext s
  s.retryHeld

/-- TIDE_EDGE (R262). -/
def execTideEdge (s : State) : Host.Outcome State Fault Refusal := .next (whenUp s State.newTide)

/-! ## Temperature (R416, R417) -/

/-- First sensor and number of sensors of each die, in the order of Power.dieTemps (Table 17.9). -/
def dieSensors : List (Nat × Nat) :=
  [(0, 12), (12, 8), (20, 8), (28, 4), (32, 4), (36, 4), (40, 4)] ++ (List.range 20).map fun k => (44 + k, 1)

/-- Puts a number in its place in a rising list, repeats kept. -/
def insertNat (n : Nat) : List Nat → List Nat
  | [] => [n]
  | m :: t => if n ≤ m then n :: m :: t else m :: insertNat n t

/-- The middle of a list's numbers; the upper middle where their count is even. -/
def median (l : List Nat) : Option Nat :=
  let o := l.foldr insertNat []
  o[o.length / 2]?

/-- A reading differs from the median of its die's other sensors by more than 30 °C. -/
def outlying (rs : List Nat) (die : Nat × Nat) (i : Nat) : Bool :=
  let others := ((List.range die.2).map (· + die.1)).filter (· != i)
  match median (others.map fun j => rs.getD j 0) with
  | some m => 120 < (rs.getD i 0 - m) + (m - rs.getD i 0)
  | none => false

/-- One sensor's reading: outside −40 °C to 150 °C, or an outlier for 1 s, marks it FAILED (R416). -/
def State.readSensor (s : State) (rs : List Nat) (die : Nat × Nat) (i : Nat) : State :=
  let r := min (rs.getD i 0) 1023
  let n := if outlying rs die i then Tab.get 0 s.pwr.outlier i + 1 else 0
  let s := { s with pwr := { s.pwr with outlier := Tab.set 0 s.pwr.outlier i n } }
  let s := (s.put HS_THERM_STATUS.TEMP i r).put HS_THERM_STATUS.MAX i (max r (s.get HS_THERM_STATUS.MAX i))
  if 760 < r || 10000 ≤ n then s.put HS_THERM_STATUS.FAILED i 1 else s

/-- A die's temperature: its highest valid reading, 5 °C more where a sensor of it failed; 95 °C with no valid sensor (R416). -/
def State.dieTemp (s : State) (die : Nat × Nat) : Nat :=
  let all := (List.range die.2).map (· + die.1)
  let ok := all.filter fun i => !s.flag HS_THERM_STATUS.FAILED i
  if ok.isEmpty then 540
  else (ok.map fun i => s.get HS_THERM_STATUS.TEMP i).foldl max 0 + (if ok.length = all.length then 0 else 20)

/-- Valid sensors at 110 °C or more. -/
def State.hotSensors (s : State) : List Nat :=
  (List.range 64).filter fun i => !s.flag HS_THERM_STATUS.FAILED i && 600 ≤ s.get HS_THERM_STATUS.TEMP i

/-- A module held in STANDBY for its temperature is let go once every die is at or below 92 °C (R417). -/
def State.releaseThermal (s : State) : State :=
  if s.modState == modStandby && s.get HS_STATE.CAUSE == 4 && s.pwr.dieTemps.all (· ≤ 528) then s.put HS_STATE.CAUSE 0 0 else s

/-- THERMAL_SAMPLE: every sensor is read, die temperatures follow, and a second reading of 110 °C in a row is a thermal trip
(R416, R417). -/
def execThermalSample (readings : List Nat) (s : State) : Host.Outcome State Fault Refusal :=
  .next (if !s.pwr.railsOn then s
    else
      let s := dieSensors.foldl (fun s d => (List.range d.2).foldl (fun s k => s.readSensor readings d (d.1 + k)) s) s
      let s := ({ s with pwr := { s.pwr with dieTemps := dieSensors.map s.dieTemp } } : State).senseDies.releaseThermal
      let hot := s.hotSensors
      let trips := hot.filter s.pwr.tripping.contains
      let s := { s with pwr := { s.pwr with tripping := hot } }
      match trips with
      | [] => s
      | i :: _ => s.fatalError (.thermalTrip i (celsius (s.get HS_THERM_STATUS.TEMP i))))

/-- THERMAL_LEVEL_UPDATE: up with any die at or above 95 °C, down after 10 ms with every die at or below 92 °C (R417). -/
def execThermalLevelUpdate (s : State) : Host.Outcome State Fault Refusal :=
  .next (if !s.pwr.railsOn then s
    else
      let l := s.get HS_PWR_STATUS.THERM_LEVEL
      if s.pwr.dieTemps.any (540 ≤ ·) then
        ({ s with pwr := { s.pwr with coolMs := 0 } } : State).put HS_PWR_STATUS.THERM_LEVEL 0 (min 7 (l + 1))
      else if s.pwr.dieTemps.all (· ≤ 528) then
        if 10 ≤ s.pwr.coolMs + 1 then
          ({ s with pwr := { s.pwr with coolMs := 0 } } : State).put HS_PWR_STATUS.THERM_LEVEL 0 (l - 1)
        else { s with pwr := { s.pwr with coolMs := s.pwr.coolMs + 1 } }
      else { s with pwr := { s.pwr with coolMs := 0 } })

/-! ## Clocks (R408) -/

/-- A clock is lost: FATAL after hub release; before it the module stays in STANDBY (R408). -/
def State.clockLost (s : State) (pll : Nat) : State := whenUp s fun s => s.fatal (fatalEvent (.clockLoss pll)) 2

/-- REFCLK_CHECK, once a millisecond: more than 300 ppm off, or absent, is a clock loss; in STANDBY hub release waits for it and
10 s without it end in FAILED (R408, R427, Table 17.8). The root and upstream PLLs lock on a valid REFCLK. -/
def execRefclkCheck (present : Bool) (ppm10 : Int) (s : State) : Host.Outcome State Fault Refusal :=
  .next (if !s.pwr.railsOn then s
    else
      let ok := present && ppm10.natAbs ≤ 3000
      let s := (s.put CK_CLK_STATUS.REF_OK 0 (if ok then 1 else 0)).put CK_CLK_STATUS.REF_PPM 0 (BitVec.ofInt 16 ppm10).toNat
      if s.modState = modStandby then
        if ok then
          ({ s with pwr := { s.pwr with refBad := 0 } } : State).put CK_CLK_STATUS.PLL_LOCK 0 (s.get CK_CLK_STATUS.PLL_LOCK ||| 5)
        else
          let s := { s with pwr := { s.pwr with refBad := s.pwr.refBad + 1 } }
          if 10000 ≤ s.pwr.refBad then
            let s := (s.put HS_STATE.CAUSE 0 3).enter modFailed
            { s with pwr := { s.pwr with faultLow := true } }
          else s
      else if ok then s else s.clockLost 0)

/-- CLOCK_LOSS: a PLL loses lock (R408). -/
def execClockLoss (pll : Nat) (s : State) : Host.Outcome State Fault Refusal :=
  .next (if !s.pwr.railsOn ∨ 4 ≤ pll then s
    else
      let v := s.get CK_CLK_STATUS.PLL_LOCK
      (s.put CK_CLK_STATUS.PLL_LOCK 0 (if v.testBit pll then v - 2 ^ pll else v)).clockLost pll)

/-! ## Start-up (R414, R415, Table 17.7) -/

/-- What hub release waits for: an image that runs, REFCLK valid and the root PLL locked, no HOLD, no thermal hold, RESET_N
high (Tables 17.6 and 17.8). -/
def State.mayRelease (s : State) : Bool :=
  s.modState == modStandby && s.ps.running.isSome && s.flag CK_CLK_STATUS.REF_OK && (s.get CK_CLK_STATUS.PLL_LOCK).testBit 0
    && !s.flag HS_STATE.HOLD && s.get HS_STATE.CAUSE != 4 && !s.pwr.resetHeld

/-- HUB_RELEASE: INIT; the time base starts at zero, where the first tide edge falls (R262, R409, R414). -/
def execHubRelease (s : State) : Host.Outcome State Fault Refusal :=
  .next (if !s.mayRelease then s
    else
      let s := (s.put CK_CLK_STATUS.PLL_LOCK 0 15).enter modInit
      ({ s with tb := { s.tb with sec := 0, ns := 0, frac := 0, hclk := 0, running := true } } : State).newTide)

/-- Channels of a stack. -/
def stackChans (k : Nat) : List Nat := (List.range 32).map (· + 32 * k)

/-- A half places the channels that failed training: into its reserve where all of them fit, otherwise they stay FAILED in
place and the module will be DEGRADED (R415, Table 7.7). -/
def State.placeFailed (s : State) (half : Nat) (failed : List Nat) : State :=
  let cs := failed.filter fun c => c / 320 == half
  let cs := (List.range 320).map (· + 320 * half) |>.filter cs.contains
  if cs.length ≤ 8 then
    let s := cs.foldl (fun s c => s.put PM_CHAN_STATUS.STATE c 2) s
    cs.foldl (fun s c => ((s.mapRows c).countRetired half).log
      { cause := .chanRetire, loc := c, die := some (dieStack (c / 32)) }) s
  else
    let s := cs.foldl (fun s c => ({ s with pm := { s.pm with dead := addSorted c s.pm.dead } } : State).put PM_CHAN_STATUS.STATE c 3) s
    ({ s with pwr := { s.pwr with startDegraded := true } } : State).syncReserve half

/-- STACK_TRAINING_DONE with the channels that failed; a failed stack fails all its 32. A pair s and s + 10 that both fail
leaves device metadata without a copy (R415). -/
def execStackTrainingDone (failed : List Nat) (s : State) : Host.Outcome State Fault Refusal :=
  .next (if s.modState ≠ modInit ∨ s.pwr.startStep ≠ 0 then s
    else
      let failed := failed.filter (· < 640)
      let dead (k : Nat) : Bool := (stackChans k).all failed.contains
      let s := { s with pwr := { s.pwr with startStep := 2 } }
      match (List.range 10).find? fun k => dead k && dead (k + 10) with
      | some k => s.fatal (fatalEvent (.metadataLost k)) 5
      | none => (s.placeFailed 0 failed).placeFailed 1 failed)

/-- ZERO_FILL_DONE: near memory is zero with valid check bytes, every line NORMAL and U; scratchpads, the reply cache, the tray
berth table and every flash berth definition are cleared (R413). -/
def execZeroFillDone (s : State) : Host.Outcome State Fault Refusal :=
  .next (if s.modState ≠ modInit ∨ s.pwr.startStep ≠ 2 then s
    else
      let s := [DeckId.a, DeckId.b].foldl (fun s d => s.updDeck d fun k => { k with scratch := [] }) s
      { s with pm := { s.pm with near := { cells := [], poison := [] } }, ho := { s.ho with lines := [], replies := [] },
               ty := { s.ty with berths := [], usedPages := [] }, fl := { s.fl with berths := [] },
               pwr := { s.pwr with startStep := 3 } })

/-- DECK_SELF_TEST: columns that fail the fixed vectors, by their DK_COL_STATUS entry, are retired before service (R368, R414). -/
def execDeckSelfTest (failing : List Nat) (s : State) : Host.Outcome State Fault Refusal :=
  .next (if s.modState ≠ modInit ∨ s.pwr.startStep ≠ 3 then s
    else
      let bad := (List.range 68).filter failing.contains
      let deck (i : Nat) : DeckId := if i < 34 then .a else .b
      let spares := bad.filter fun i => 32 ≤ i % 34
      let s := spares.foldl (fun s i => (s.put DK_COL_STATUS.STATE i 2).log
        { cause := .colRetire, loc := loc [i / 34, i % 34, 63], count := 1, die := some (dieDeck (deck i)) }) s
      let s := (bad.filter fun i => i % 34 < 32).foldl (fun s i => s.retireColumn (deck i) (i % 34)) s
      { s with pwr := { s.pwr with startStep := 4 } })

/-- A spare kind is exhausted (R371), or a stack failed at start (R415). -/
def State.exhausted (s : State) : Bool :=
  s.pwr.startDegraded || s.flag PM_HALF_STATUS.EXHAUSTED 0 || s.flag PM_HALF_STATUS.EXHAUSTED 1
    || s.flag DK_DECK_STATUS.DEGRADED 0 || s.flag DK_DECK_STATUS.DEGRADED 1 || s.get SC_STATUS.GROUPS_OUT != 0
    || s.unitsActive FU_UNIT_STATUS.ACTIVE 9 < 8 || s.unitsActive RU_UNIT_STATUS.ACTIVE 9 < 8
    || s.unitsActive GU_UNIT_STATUS.ACTIVE 9 < 8
    || ((List.range 9).filter fun u => s.get GU_UNIT_STATUS.ACTIVE (9 + u) == 1).length < 8

/-- SELF_TEST_DONE: READY, or DEGRADED; with BIST_EN the tests ran, and BIST_RAN says whether they passed (R414). -/
def execSelfTestDone (bistPassed : Bool) (s : State) : Host.Outcome State Fault Refusal :=
  .next (if s.modState ≠ modInit ∨ s.pwr.startStep ≠ 4 then s
    else
      let s := if s.flag HS_STRAP_STATUS.BIST_EN && bistPassed then s.put HS_STATE.BIST_RAN 0 1 else s
      s.enter (if s.exhausted then modDegraded else modReady))

end Sys2Proof.Machine
end

