-- ==== Sys2Proof/Machine/TimeBase.lean ====
section
/-! DEFINITION. The time base, its sources and its steps (R409 to R412, R443). -/

namespace Sys2Proof.Machine

/-- A duration of nanoseconds in units of 2^-32 ns. -/
def nsUnits (n : Nat) : Int := (n : Int) * 4294967296

/-- The difference a − b of two points in units of 2^-32 ns. -/
def timeDiff (a b : TimeStamp) : Int := (timeUnits a : Int) - (timeUnits b : Int)

/-- A point moved by a difference; time starts at zero. -/
def timeMove (t : TimeStamp) (d : Int) : TimeStamp := timeOfUnits (((timeUnits t : Int) + d).toNat)

/-- Tides from zero to a point of the time base (R262). -/
def tideOf (t : TimeStamp) : Nat := timeUnits t / (64000 * 4294967296)

/-- The time base steps: counted, every gate list waits for its next cycle start, and a step forward past one or more tide edges
is a single edge (R353, R410). What the follower remembers of its own time moves with it. -/
def State.stepTime (s : State) (t : TimeStamp) : State :=
  let old := s.now
  let d := timeDiff t old
  let s := (s.setTime t).bump CK_TIME_STATUS.STEPS 0 1
  let s := { s with tb := { s.tb with syncTimes := s.tb.syncTimes.map fun (x : TimeStamp × TimeStamp) => (x.1, timeMove x.2 d),
                                      delayReq := s.tb.delayReq.map fun (x : Nat × TimeStamp) => (x.1, timeMove x.2 d) } }
  let s := s.gatesStepped
  if tideOf old < tideOf t then s.newTide else s

/-- CK_TIME_SET: the time base steps to SEC and 0 ns (R410). -/
def State.setSeconds (s : State) (value : Word) : State := s.stepTime ⟨(value.extractLsb' 0 48).toNat, 0, 0⟩

def execCkTimeSet (up : Nat) (value : Word) (s : State) : Host.Outcome State Fault Refusal :=
  .next (barWrite up 0x300020 s fun s => s.setSeconds value)

/-- Reading CK_TIME_SEC latches CK_TIME_NS (R443). -/
def State.latchNs (s : State) : State := s.put CK_TIME_NS.NS 0 s.tb.ns

/-- CK_TIME_SEC_READ: the seconds, and the latch (R443, Table 17.15); where no register responds it reads zero (R446). -/
def execCkTimeSecRead (up : Nat) (s : State) : Host.Outcome State Fault Refusal :=
  .next (if 2 ≤ up ∨ s.modState = modOff then s
    else if s.hubUp ∨ s.failedReleased = true then
      ((s.viaUp up).latchNs).emit (.readData up (leBytes 8 s.tb.sec))
    else (s.viaUp up).emit (.readData up (leBytes 8 0)))

/-! ## Corrections (R410) -/

/-- OFFSET_NS, saturating, and LOCKED: within 1 µs of the source. -/
def State.noteOffset (s : State) (off : Int) : State :=
  let ns := off / 4294967296
  let sat := if ns < -32768 then -32768 else if 32767 < ns then 32767 else ns
  (s.put CK_TIME_STATUS.OFFSET_NS 0 (BitVec.ofInt 16 sat).toNat).put CK_TIME_STATUS.LOCKED 0
    (if off.natAbs ≤ (nsUnits 1000).natAbs then 1 else 0)

/-- Lowest and number of the ADDEND values within 500 ppm of nominal (R409). -/
def addendLow : Nat := 3577349844
def addendSpan : Nat := 3579139

/-- A correction by `off`, the time base's lead over its source: more than 1 µs steps the time base, less adjusts ADDEND only,
by an amount the manual does not give (R410, log entry 42). -/
def State.correct (s : State) (off : Int) : State :=
  let s := s.noteOffset off
  if (nsUnits 1000).natAbs < off.natAbs then s.stepTime (timeMove s.now (-off))
  else if off = 0 then s
  else ({ s with freeCtr := s.freeCtr + 1 } : State).put CK_TIME_ADDEND.ADDEND 0
    (addendLow + Config.addendTrim s.freeCtr % addendSpan)

/-! ## PPS (R411, R426) -/

def srcPps : Nat := 1
def srcPort : Nat := 2

/-- An edge within an accepted edge's filter window: 50 ns high and 50 ns low. -/
def State.inPpsWindow (s : State) : Bool :=
  match s.tb.lastPps with
  | some t => (timeDiff s.now t).natAbs < (nsUnits 100).natAbs
  | none => false

/-- A later edge is accepted only 1 s ± 10 µs after the last accepted one (R411). -/
def State.acceptsPps (s : State) : Bool :=
  match s.tb.lastPps with
  | some t => (timeDiff s.now t - nsUnits 1000000000).natAbs ≤ (nsUnits 10000).natAbs
  | none => true

/-- An accepted edge: the time base goes to the start of the next second, whose number CK_TIME_SEC_NEXT gives where it was
written since the last edge. -/
def State.ppsAccepted (s : State) : State :=
  let prev := if s.tb.lastPps.isSome then s.tb.ppsSec else s.tb.sec
  let sec := if s.tb.secNextNew then s.get CK_TIME_SEC_NEXT.SEC else (prev + 1) % 281474976710656
  let s := s.correct (timeDiff s.now ⟨sec, 0, 0⟩)
  ({ s with tb := { s.tb with lastPps := some s.now, ppsSec := sec, secNextNew := false } } : State).put CK_TIME_STATUS.HOLDOVER 0 0

/-- PPS_EDGE: a rising edge that passes its filter, with PPS as the source (R411, R426). -/
def execPpsEdge (highNs lowNs : Nat) (s : State) : Host.Outcome State Fault Refusal :=
  .next (whenUp s fun s =>
    if highNs < 50 || lowNs < 50 || s.get CK_TIME_CFG.SRC != srcPps || s.inPpsWindow then s
    else if s.acceptsPps then s.ppsAccepted
    else s.bump CK_TIME_STATUS.PPS_REJECT 0 1)

/-- PPS_HOLDOVER: three seconds without an accepted edge; ADDEND is held (R411). -/
def execPpsHoldover (s : State) : Host.Outcome State Fault Refusal :=
  .next (whenUp s fun s =>
    let quiet := match s.tb.lastPps with
      | some t => decide (nsUnits 3000000000 ≤ timeDiff s.now t)
      | none => true
    if s.get CK_TIME_CFG.SRC == srcPps && quiet then (s.put CK_TIME_STATUS.HOLDOVER 0 1).put CK_TIME_STATUS.LOCKED 0 0 else s)

/-! ## An Enxis port as source (R412, Table 17.4) -/

/-- The port is the time source. -/
def State.follows (s : State) (port : Nat) : Bool :=
  s.get CK_TIME_CFG.SRC == srcPort && s.get CK_TIME_CFG.SRC_PORT == port && s.portUp port

/-- A TIME frame leaves on a port, or waits for gate 7 behind those that wait there (R347). -/
def State.sendTime (s : State) (port typ seq : Nat) (t : TimeStamp) : State :=
  ({ s with tm := { s.tm with times := s.tm.times ++ [⟨port, typ, seq, t⟩] } } : State).releaseTimes port

/-- TIME_SYNC: t1 and t2 are kept; with the link delay of the last exchange they give the offset, by which the follower
corrects its time base (R410, R412). -/
def execTimeSync (port : Nat) (p : TimePayload) (arrival : TimeStamp) (s : State) : Host.Outcome State Fault Refusal :=
  .next (whenUp s fun s => s.reservedOk port p.rsv fun s =>
    if p.typ ≠ 0 ∨ s.follows port = false then s
    else
      let s := { s with tb := { s.tb with syncTimes := some (p.time, arrival) } }
      match s.tb.linkDelay with
      | some d => s.correct (timeDiff arrival p.time - d)
      | none => s)

/-- SYNC_SEND: with SYNC_OUT, SYNC goes out on every SWITCH port that is up (R412, Table 17.14). -/
def execSyncSend (s : State) : Host.Outcome State Fault Refusal :=
  .next (whenUp s fun s =>
    if s.flag CK_TIME_CFG.SYNC_OUT then
      ((List.range 512).filter fun p => s.portUp p && s.get LK_PORT_CFG.ROLE p == 2).foldl
        (fun s p => s.sendTime p 0 0 s.now) s
    else s)

/-- DELAY_REQ is answered on every port with its arrival time (R412). -/
def execDelayReq (port : Nat) (p : TimePayload) (arrival : TimeStamp) (s : State) : Host.Outcome State Fault Refusal :=
  .next (whenUp s fun s => s.reservedOk port p.rsv fun s =>
    if p.typ = 1 ∧ port < 512 ∧ s.portUp port = true then s.sendTime port 2 (p.seq % 256) arrival else s)

/-- DELAY_REQ_SEND: once per second the follower asks its source (R412). -/
def execDelayReqSend (s : State) : Host.Outcome State Fault Refusal :=
  .next (whenUp s fun s =>
    let port := s.get CK_TIME_CFG.SRC_PORT
    if s.follows port then
      let seq := s.tb.delaySeq
      let s := { s with tb := { s.tb with delaySeq := (seq + 1) % 256, delayReq := none } }
      s.sendTime port 1 seq ⟨0, 0, 0⟩
    else s)

/-- DELAY_RSP: the offset is ((t2 − t1) − (t4 − t3)) ÷ 2, and the follower corrects its time base (R410, R412). -/
def execDelayRsp (port : Nat) (p : TimePayload) (s : State) : Host.Outcome State Fault Refusal :=
  .next (whenUp s fun s => s.reservedOk port p.rsv fun s =>
    match s.tb.delayReq, s.tb.syncTimes with
    | some (seq, t3), some (t1, t2) =>
      if p.typ ≠ 2 ∨ s.follows port = false ∨ p.seq ≠ seq then s
      else
        let out := timeDiff t2 t1
        let back := timeDiff p.time t3
        let s := { s with tb := { s.tb with linkDelay := some ((out + back) / 2), delayReq := none } }
        s.correct ((out - back) / 2)
    | _, _ => s)

end Sys2Proof.Machine
end

