-- ==== Sys2Proof/Machine/Health.lean ====
section
/-! DEFINITION. Containment (R372), the error-log ring in fabric-manager memory (R375, R376) and MSI-X vector 0 (R436). -/

namespace Sys2Proof.Machine

/-! ## Containment (R372) -/

/-- The entry of a cause of containment (Table 15.6). -/
def containEvent (p : Nat) : ContainCause → Event
  | .request => { cause := .containReq, part := some p }
  | .tallyLost pair addr => { cause := .tallyLost, part := some p, loc := pair, addr := addr }
  | .stateUE table => { cause := .partStateUe, part := some p, loc := table }

/-- The leases of a partition stop where they stand (R372 step 4). -/
def State.freezeLeases (s : State) (p : Nat) : State :=
  { s with pm := { s.pm with slots := s.pm.slots.map fun (e : Nat × Slot) =>
      if e.1 / 32768 = p then (e.1, { e.2 with frozenAt := some s.tb.hclk }) else e } }

/-- A LIVE partition is contained: its uncommitted commands complete CONTAINED; what asks its state sees it contained (R372). -/
def State.contain (s : State) (p : Nat) (c : ContainCause) : State :=
  if !s.live p then s
  else
    let e := containEvent p c
    let s := (s.put PT_PART_STATE.STATE p partContained).log e
    let s := ((s.put HS_PART_STATE.CONTAINED p 1).put HS_PART_STATE.CAUSE p (causeRow e.cause).1).freezeLeases p
    (s.stopAll ((s.fe.cmds.filter (·.part == p)).map (·.cid)) stContained 0).retryHeld

/-- CONTAIN (R372). -/
def execContain (part : Nat) (cause : ContainCause) (s : State) : Host.Outcome State Fault Refusal :=
  .next (whenUp s fun s => s.contain part cause)

/-! ## The log ring (R375) -/

/-- Entries of the ring. -/
def State.logSize (s : State) : Nat := 2 ^ s.get HS_LOG_CTRL.LOG2

/-- Where the ring lies. -/
def State.logBase (s : State) : Nat := s.get HS_LOG_BASE.BASE * 4096

/-- The log's registers respond and take writes: the hub works, or a FATAL error has stopped it (Table 19.3). -/
def State.logServed (s : State) : Bool := s.hubUp || s.failedReleased

/-- ENABLE goes from 0 to 1: the ring is zero-filled and starts at entry 0 with the phase of pass 0. -/
def State.logStart (s : State) : State :=
  if s.flag HS_LOG_CTRL.ENABLE then s
  else
    let s := match s.fmPort with
      | some u => s.emit (.fmZero u s.logBase (64 * s.logSize))
      | none => s
    let s := ((s.put HS_LOG_CTRL.ENABLE 0 1).put HS_LOG_CTRL.HEAD 0 0).put HS_LOG_STATUS.TAIL 0 0
    ({ s with hs := { s.hs with logPass := 0, unread := 0 } } : State).put HS_LOG_STATUS.FULL 0 0

/-- LOG_ENABLE (R375). -/
def execLogEnable (up : Nat) (s : State) : Host.Outcome State Fault Refusal :=
  .next (if 2 ≤ up ∨ s.logServed = false then s else (s.viaUp up).logStart)

/-- A HEAD write consumes entries; one past the last entry written is refused, one equal to HEAD consumes nothing (R375). -/
def State.logHead (s : State) (head : Nat) : State :=
  let n := (head + s.logSize - s.get HS_LOG_CTRL.HEAD) % s.logSize
  if s.logSize ≤ head ∨ s.hs.unread < n then s.put HS_LOG_CTRL.REFUSED 0 1
  else if n = 0 then s
  else
    ((({ s with hs := { s.hs with unread := s.hs.unread - n } } : State).put HS_LOG_CTRL.HEAD 0 head).put HS_LOG_STATUS.FULL 0 0)

/-- LOG_HEAD_WRITE (R375). -/
def execLogHeadWrite (up head : Nat) (s : State) : Host.Outcome State Fault Refusal :=
  .next (if 2 ≤ up ∨ s.logServed = false then s else (s.viaUp up).logHead head)

/-- MSI-X vector 0 is signalled through the port in use, or stays pending while its entry is masked (R376, R436; the entry's
layout is PCIe's, log entry 44). -/
def State.signalMsi (s : State) : State :=
  if s.mg.msixData.testBit 32 then { s with mg := { s.mg with msixPend := 1 } }
  else match s.fmPort with
    | some u => s.emit (.msi u)
    | none => s

/-- The entry to be written next: the queue in order, then the places kept for CONTAINED and FATAL entries. -/
def State.takeEntry (s : State) : Option (LogEntry × State) :=
  match s.hs.queue, s.hs.extra with
  | e :: q, _ => some (e, { s with hs := { s.hs with queue := q } })
  | [], e :: x => some (e, { s with hs := { s.hs with extra := x } })
  | [], [] => none

/-- The entry `e` goes whole into the ring at TAIL, and then its PHASE bit, in the last 8 bytes, is flipped (R375); MSI-X where it is due (R376). -/
def State.logWrite (s : State) (up : Nat) (e : LogEntry) : State :=
  let n := s.logSize
  let i := s.get HS_LOG_STATUS.TAIL
  let s := (s.emit (.fmWrite up (s.logBase + 64 * i) (logBytes e (s.hs.logPass % 2)))).emit
    (.fmWrite up (s.logBase + 64 * i + 56) (leBytes 8 (2 ^ 63 * (1 - s.hs.logPass % 2))))
  let unread := s.hs.unread + 1
  let s := { s with hs := { s.hs with unread := unread, logPass := if i + 1 = n then s.hs.logPass + 1 else s.hs.logPass } }
  let s := ((s.put HS_LOG_STATUS.TAIL 0 ((i + 1) % n)).put HS_LOG_STATUS.FULL 0 (if unread = n then 1 else 0)).syncQueued
  if s.flag HS_LOG_CTRL.MSI_EN && (sevDeferred ≤ e.sev || unread * 2 == n) then s.signalMsi else s

/-- LOG_ENTRY_WRITE: with ENABLE set, an upstream port trained and room in the ring, the next queued entry is written; also in
FAILED (R374 to R376, R428). -/
def execLogEntryWrite (s : State) : Host.Outcome State Fault Refusal :=
  .next (match s.fmPort, s.takeEntry with
    | some up, some (e, s') =>
      if s.logServed && s.flag HS_LOG_CTRL.ENABLE && s.hs.unread < s.logSize then s'.logWrite up e else s
    | _, _ => s)

end Sys2Proof.Machine
end

