-- ==== Sys2Proof/Machine/Losses.lean ====
section
/-! DEFINITION. What the stacks lose, and what follows from a loss of both copies of a mirrored pair (R182, R191, R372, R374); the rows
in which stacks report what they found; the end of a drain (R196). -/

namespace Sys2Proof.Machine

/-! ## Mirrored pairs (R191, Table 7.3) -/

/-- The TALLY slots that hold a mirrored granule, with their partitions; the number of the granule is that of its half-A byte address
divided by 256. -/
def State.pairUsers (s : State) (g : Nat) : List (Nat × Slot) :=
  s.heldSlots.filter fun e => e.2.kind == kindTally && e.2.owns (g * 256)

/-- Both copies of a granule are lost: of device metadata this is FATAL; of a tally berth every partition with lines in it is contained
(R191, R372, R374). -/
def State.pairLost (s : State) (g : Nat) : State :=
  let stack := (s.placeOf (g * 256)).1 / 32
  if g < 256 * 262144 then s.fatal (fatalEvent (.metadataLost stack)) 2
  else (s.pairUsers g).foldl (fun s e =>
    s.contain (e.1 / 32768) (.tallyLost stack (slotHandle (e.1 % 32768) e.2 * berthBytes + g % 262144 * 256))) s

/-- Losses of mirrored pairs are acted on, in rising order. -/
def State.settleLosses (s : State) : State :=
  s.pm.lostPairs.foldl State.pairLost { s with pm := { s.pm with lostPairs := [] } }

/-! ## Rows (R188 to R190, R201) -/

/-- LD: a load is served, with PSN on poisoned sectors, REVOKED or BAD_DESC; `events` are what the stacks found in the
sectors it reads (R188 to R190). -/
def execLd (f : Frame) (events : List SectorEvent) (s : State) : Host.Outcome State Fault Refusal :=
  .next (whenUp s fun s => ((s.sectorEvents events).serveFrame f false).settleLosses)

/-- ST_NP: a non-posted store is applied and answered once visible (R203). -/
def execStNp (f : Frame) (s : State) : Host.Outcome State Fault Refusal := .next (whenUp s fun s => s.serveFrame f false)

/-- ST: a posted store is applied in flow order, or discarded (R195, R203). -/
def execSt (f : Frame) (events : List SectorEvent) (s : State) : Host.Outcome State Fault Refusal :=
  .next (whenUp s fun s => ((s.sectorEvents events).serveFrame f false).settleLosses)

/-- PATROL_SCRUB: a patrol pass corrects and marks sectors. -/
def execPatrolScrub (events : List SectorEvent) (s : State) : Host.Outcome State Fault Refusal :=
  .next (whenUp s fun s => ((s.sectorEvents events).settleLosses).retryHeld)

/-- CHANNEL_FAIL (R201). -/
def execChannelFail (chan : Nat) (s : State) : Host.Outcome State Fault Refusal :=
  .next (whenUp s fun s =>
    if chan < 640 ∧ (s.get PM_CHAN_STATUS.STATE chan = 0 ∨ s.get PM_CHAN_STATUS.STATE chan = 1) then
      (s.failChannel chan).settleLosses else s)

/-! ## The end of a drain (R196, R197) -/

/-- A deck command whose leg runs holds a berth that its list names, until the leg's end (R194, R196). -/
def State.listHolds (s : State) (c : Cmd) (slot : Nat) : Bool :=
  s.hasLeg c.cid && (match (s.stepNeeds c.cid c.sec c.step).2 with
    | some x => x.1.any fun n => handleSlot n.src.handle == slot
    | none => false)

/-- No request to a draining berth is left and every engine has released it (R196). -/
def State.drained196 (s : State) (part slot : Nat) : Bool :=
  let sl := s.slot part slot
  let key := slotKey part slot
  sl.state == .draining && sl.expired && (s.engineCmds part (slotHandle slot sl)).isEmpty && s.quietWindow key
    && !(s.fe.cmds.any fun c => c.part == part && s.listHolds c slot)

/-- DRAIN_COMPLETE: the tier engine writes back what is DIRTY, and the slot enters SCRUBBING; its window loses its source
(R196, R197). -/
def execDrainComplete (part slot : Nat) (s : State) : Host.Outcome State Fault Refusal :=
  .next (whenUp s fun s =>
    if !s.drained196 part slot then s
    else
      let key := slotKey part slot
      let s := s.writeBackAll key
      if !s.cleaned key then s
      else
        let s := s.unbind key
        s.setSlot part slot { s.slot part slot with state := .scrubbing })

end Sys2Proof.Machine
end

