-- ==== Sys2Proof/Machine/Avail.lean ====
section
/-! DEFINITION. Progress accounting (R378, R379, Table 15.12), and what one idle HCLK cycle does. -/

namespace Sys2Proof.Machine

/-- The four kinds of time. -/
inductive TimeKind where
  | progress
  | deviceStall
  | ownWait
  | idle
  deriving DecidableEq, Repr

/-- Something of the partition ran in this microsecond: a leg, or work that was charged (log entry 97). -/
def State.ran (s : State) (p : Nat) : Bool :=
  s.pt.active.contains p || [DeckId.a, .b].any fun d => (s.deck d).leg.any (·.part == p)

/-- A command of the partition has been dispatched and is not finished. -/
def State.hasWork (s : State) (p : Nat) : Bool :=
  s.fe.cmds.any fun c => c.part == p && (c.stage == .dispatched || c.stage == .running || c.stage == .atHome)

/-- The partition is contained by a cause other than CONTAIN_REQ. -/
def State.stallContained (s : State) (p : Nat) : Bool :=
  s.contained p && s.get HS_PART_STATE.CAUSE p != (causeRow .containReq).1

/-- A device cause holds the partition's dispatched work: a re-execution wait, a channel's retirement, or a quiet deck. -/
def State.deviceHolds (s : State) (p : Nat) : Bool :=
  [DeckId.a, .b].any (fun d => (s.deck d).waitingLeg.any (·.part == p)) ||
    s.te.stalls.any (fun x => x.part == p && x.cause == .channelRetire) ||
    [DeckId.a, .b].any fun d => s.flag DK_FULL_SAVE.QUIESCE (deckNo d) &&
      s.fe.cmds.any fun c => c.part == p && deckOpcode c.opc && c.stage == .running && c.decks.contains d

/-- The kind of the microsecond that ends, the first of R378 that applies. -/
def State.timeKind (s : State) (p : Nat) : TimeKind :=
  if s.modState = modFailed then .deviceStall
  else if s.ran p then .progress
  else if s.stallContained p || (s.hasWork p && s.deviceHolds p) then .deviceStall
  else if s.hasWork p then .ownWait
  else .idle

/-- The microsecond of the time base. -/
def State.usNow (s : State) : Nat := s.tb.sec * 1000000 + s.tb.ns / 1000

/-- 30 days in microseconds. -/
def windowUs : Nat := 2592000000000

/-- DEVICE_STALL microseconds of intervals within the 30 days before microsecond `u`. -/
def stallIn (u : Nat) (l : List (Nat × Nat)) : Nat := (l.map fun r => r.1 + r.2 - max r.1 (u - windowUs)).sum

/-- WINDOW_STALL_US as it stands now. -/
def State.windowStall (s : State) (p : Nat) : Nat := stallIn s.usNow (Tab.get [] s.hs.stallRuns p)

/-- Microsecond `u` lengthens the interval it follows, or begins one. -/
def addRun (u : Nat) : List (Nat × Nat) → List (Nat × Nat)
  | [] => [(u, 1)]
  | [r] => if r.1 + r.2 = u then [(r.1, r.2 + 1)] else [r, (u, 1)]
  | r :: t => r :: addRun u t

/-- Microsecond `u` was DEVICE_STALL for a partition. -/
def State.addStall (s : State) (p u : Nat) : State :=
  let runs := (addRun u (Tab.get [] s.hs.stallRuns p)).filter fun r => u < r.1 + r.2 + windowUs
  let longest := max (s.get HS_PART_AVAIL.LONGEST_US p) ((runs.getLast?.map (·.2)).getD 1)
  (({ s with hs := { s.hs with stallRuns := Tab.put s.hs.stallRuns p runs } } : State).bump HS_PART_AVAIL.STALL_US p 1).put
    HS_PART_AVAIL.LONGEST_US p longest

/-- Microsecond `u` is recorded for every partition. -/
def State.account (s : State) (u : Nat) : State :=
  let t := s.partitions.foldl (fun t p =>
    match s.timeKind p with
    | .progress => t.bump HS_PART_AVAIL.PROGRESS_US p 1
    | .deviceStall => t.addStall p u
    | _ => t) s
  { t with pt := { t.pt with active := [] } }

/-- One idle HCLK cycle: the time base advances, and a microsecond that ends is recorded (R378, R409; log entry 1). -/
def State.idle (s : State) : State :=
  let t := s.tick
  if t.usNow = s.usNow then t else t.account s.usNow

end Sys2Proof.Machine
end

