-- ==== Sys2Proof/Machine/Landing.lean ====
section
/-! DEFINITION. The landing stage's tables and epochs (chapter 12), fences, and the module as the source of flows that fail
(R302, R303, R318 to R325). -/

namespace Sys2Proof.Machine

/-! ## Flows that fail (R302, R303, R321) -/

/-- A frame the module originated is given up: its owner learns the status, or for a snoop the home (R31, R220, R303, R321). -/
def State.frameFailed (s : State) (x : Sent) (status : Nat) : State :=
  match x.owner with
  | none =>
    if x.frame.cls.toNat = vcFwd then
      match s.frameLine x.frame with
      | some ln => s.snoopLost ln x.frame.dst.toNat
      | none => s
    else s
  | some (.cmd cid) => s.stopAny cid status 0
  | some (.record ctx) => s.ringFailure ctx (if status = stEpochRetired then 7 else 6) (lostTags x.frame)
  | some (.notify _) => s
  | some (.read rid) =>
    match s.fe.reads.find? (·.rid == rid) with
    | some r => s.readFailed r status
    | none => s
  | some (.seq g q) => s.parentLost g q

/-- A flow's unacknowledged frames are abandoned and its next frame carries SYNC; a CHILD module behind it is unreachable
(R303, Table 6.6). -/
def State.abandonFlow (s : State) (id : FlowId) (status : Nat) : State :=
  match s.lk.out.find? (·.id == id) with
  | none => s
  | some fl =>
    let s := (s.setFlowOut { fl with unacked := [], syncNext := true }).launchWaiting s.lk.waiting.length
    ((fl.unacked.foldl (fun s x => s.frameFailed x status) s).childLost id.dst).retryHeld

/-- All path indices of a flow are exhausted (R303). -/
def State.pathFatal (s : State) (id : FlowId) : State := (s.bump LK_E2E_STAT.PATH_FATAL 0 1).abandonFlow id stPathFatal

/-- Changes a retained frame of a flow. -/
def State.setSent (s : State) (fl : FlowOut) (seq : Nat) (x : Sent) : State :=
  s.setFlowOut { fl with unacked := replaceFirst (·.frame.seq.toNat == seq) (fun _ => x) fl.unacked }

/-- RETX_TIMER: RETX_US after its last sending the frame is resent; after MAX_RETX retransmissions on one path it moves to the next path index, and after the
eighth the flow is PATH_FATAL (R302, R303). -/
def execRetxTimer (flow : FlowId) (seq : Nat) (s : State) : Host.Outcome State Fault Refusal :=
  .next (whenUp s fun s =>
    match s.lk.out.find? (·.id == flow) with
    | none => s
    | some fl =>
      match fl.unacked.find? (·.frame.seq.toNat == seq) with
      | none => s
      | some x =>
        if s.tb.hclk < x.sentAt + usCycles (s.get LK_E2E_CFG.RETX_US) then s
        else if x.resends < s.get LK_E2E_CFG.MAX_RETX then
          let y := { x with resends := x.resends + 1, sentAt := s.tb.hclk }
          (s.setSent fl seq y).resend y
        else if x.path + 1 < 8 then
          let y := { x with resends := 0, path := x.path + 1, sentAt := s.tb.hclk }
          ((s.bump LK_E2E_STAT.FAILOVER 0 1).setSent fl seq y).resend y
        else s.pathFatal flow)

/-- ST_RSP for a frame of the module: EPOCH_RETIRED fails a ring access, and else is a NACK while the destination still maps;
PATH_FATAL is path exhaustion (R31, R321, R323). The frame is the retained one with its SEQ and TAG (log entry 37). -/
def State.stRsp (s : State) (f : Frame) : State :=
  let status := f.ctx.toNat % 256
  let hit (x : Sent) : Bool :=
    x.frame.seq == f.seq && x.frame.tag == f.tag && x.frame.part == f.part &&
      (x.frame.cls.toNat == vcBulk || x.frame.cls.toNat == vcCup || x.frame.cls.toNat == vcCdn)
  match s.lk.out.find? fun fl => fl.unacked.any hit with
  | none => s
  | some fl =>
    if status = stPathFatal then s.pathFatal fl.id
    else if status = stEpochRetired then
      match (fl.unacked.find? hit).map fun x : Sent => (x.owner, lostTags x.frame) with
      | some (some (.record ctx), lost) => (s.ringFailure ctx 7 lost).disown (.record ctx)
      | _ =>
        if (s.rankOf f.part.toNat slotCurrent fl.id.dst).isSome then s.nacked fl.id f.seq.toNat
        else s.abandonFlow fl.id stEpochRetired
    else s

/-- ST_RSP (R321). -/
def execStRsp (f : Frame) (s : State) : Host.Outcome State Fault Refusal := .next (whenUp s fun s => s.stRsp f)

/-! ## Fences (R323) -/

/-- Every port that carries an endpoint ID is fenced. -/
def State.endpointFenced (s : State) (ep : Nat) : Bool :=
  (s.enabledPorts.filter fun p => s.get LK_PORT_CFG.ROLE p == 0 && s.get LP_PORT_CFG.EP_ID p == ep).all fun p =>
    s.flag LP_PORT_CFG.FENCE p

/-- A frame dropped at a fenced egress: a transit request is answered PATH_FATAL, the module's own flow is exhausted. -/
def State.fencedOut (s : State) (f : Frame) : State :=
  if f.src.toNat = s.modId then (s.bump LP_PART_STAT.FENCED f.part.toNat 1).pathFatal (flowOf f) else s.fenceDrop f

/-- PORT_FENCE: the port's queued frames are dropped; once every port of the endpoint is fenced its REDUCE members are missing
or excluded and snoops to it count as MISS (R173, R174, R220, R323). -/
def State.fencePort (s : State) (port : Nat) : State :=
  let s := s.put LP_PORT_CFG.FENCE port 1
  let fs := (s.sc.frames.filter fun b => b.egress.contains port).map (·.frame) ++
    (s.sc.staged.filter fun x => x.egress.contains port).map (·.frame)
  let s := s.releaseEgress port fun b => b.egress.contains port
  let staged := s.sc.staged.filterMap fun x =>
    if x.egress.contains port then
      let eg := x.egress.filter (· != port)
      if eg.isEmpty then none else some { x with egress := eg }
    else some x
  let s := ({ s with sc := { s.sc with staged := staged } } : State).returnCredits s.sc.staged
  let s := fs.foldl (fun s f => s.fencedOut f) s
  let ep := s.get LP_PORT_CFG.EP_ID port
  if s.get LK_PORT_CFG.ROLE port == 0 && validId ep && s.endpointFenced ep then
    ((s.collectFenced (fun p r => s.rankId p r == ep) stPathFatal).snoopsLost ep).retryHeld
  else s

/-- PORT_FENCE (R323). -/
def execPortFence (port : Nat) (s : State) : Host.Outcome State Fault Refusal :=
  .next (whenUp s fun s => if 512 ≤ port || s.flag LP_PORT_CFG.FENCE port then s else s.fencePort port)

/-! ## Routes and maps (R315, R325) -/

/-- A write of LP_ROUTE_SEL: OP replaces the whole entry by NPATH and the ports of LP_ROUTE_DATA (R315). -/
def State.routeSelWrite (s : State) (value : Word) : State :=
  let id := (value.extractLsb' 0 16).toNat
  let s := s.put LP_ROUTE_SEL.ID 0 id
  if value.getLsbD 16 then
    let ps := (List.range (s.get LP_ROUTE_DATA.NPATH)).map fun i => s.get LP_ROUTE_DATA.PORT i
    { s with lp := { s.lp with routes := Tab.set [] s.lp.routes id ps } }
  else s

/-- ROUTE_WRITE (R315). -/
def execRouteWrite (up : Nat) (value : Word) (s : State) : Host.Outcome State Fault Refusal :=
  .next (barWrite up 0x500008 s fun s => s.routeSelWrite value)

/-- A write of LP_MAP_SEL: OP writes a STAGED entry, and is refused for any other slot; without OP the selected entry shows in
LP_MAP_DATA (R325). SLOT 3 is out of range, and the field keeps its value (R12, Table 12.9). -/
def State.mapSelWrite (s : State) (value : Word) : State :=
  let rank := (value.extractLsb' 0 12).toNat
  let part := (value.extractLsb' 12 6).toNat
  let named := (value.extractLsb' 18 2).toNat
  let slot := if named = 3 then s.get LP_MAP_SEL.SLOT else named
  let s := ((s.put LP_MAP_SEL.RANK 0 rank).put LP_MAP_SEL.PART 0 part).put LP_MAP_SEL.SLOT 0 slot
  if value.getLsbD 20 then
    if named ≠ slotStaged then s.put LP_EPOCH.REFUSED part 1
    else
      let id := if s.flag LP_MAP_DATA.VALID then s.get LP_MAP_DATA.EP_ID else 0
      { s with lp := { s.lp with maps := Tab.set 0 s.lp.maps (mapKey part slotStaged rank) id } }
  else
    let id := s.mapped part slot rank
    (s.put LP_MAP_DATA.VALID 0 (if id = 0 then 0 else 1)).put LP_MAP_DATA.EP_ID 0 id

/-- MAP_WRITE (R325). -/
def execMapWrite (up : Nat) (value : Word) (s : State) : Host.Outcome State Fault Refusal :=
  .next (barWrite up 0x500020 s fun s => s.mapSelWrite value)

/-! ## Epochs (R318 to R322) -/

/-- The epoch after `e`: 255 wraps to 1. -/
def epochNext (e : Nat) : Nat := if 255 ≤ e then 1 else e + 1

/-- Map slots of a partition after activation: STAGED becomes CURRENT, CURRENT becomes PREVIOUS (R318). -/
def rotateMaps (p : Nat) (m : Tab Nat) : Tab Nat :=
  let of_ (slot : Nat) : List (Nat × Nat) := (m.filter fun e => e.1 / 4096 == p * 3 + slot).map fun e => (e.1 % 4096, e.2)
  let rest := m.filter fun e => e.1 / 4096 / 3 != p
  let cur := (of_ slotStaged).map fun e => (mapKey p slotCurrent e.1, e.2)
  let prev := (of_ slotCurrent).map fun e => (mapKey p slotPrevious e.1, e.2)
  rest.filter (fun e => e.1 / 4096 / 3 < p) ++ cur ++ prev ++ rest.filter (fun e => p < e.1 / 4096 / 3)

/-- Ranks whose entries differ between PREVIOUS and CURRENT (R322). -/
def State.remapped (s : State) (p : Nat) : List Nat :=
  (List.range 4096).filter fun r => s.mapped p slotCurrent r != s.mapped p slotPrevious r

/-- The EPOCH_NOTICE payload (Table 12.3). -/
def State.epochNotice (s : State) (p : Nat) (remap : List Nat) : List Byte :=
  leBytes 8 (1 + 256 * s.get LP_EPOCH.CUR p + 65536 * s.get LP_EPOCH.PREV p) ++ leBytes 56 0 ++ maskBytes remap

/-- Every endpoint ID of a map slot, each once. -/
def State.mapIds (s : State) (p slot : Nat) : List Nat :=
  ((s.lp.maps.filter fun e => e.1 / 4096 == p * 3 + slot).map (·.2)).eraseDups

/-- EPOCH_ACTIVATE: refused while PREVIOUS is not retired, or with a STAGED_EPOCH other than CURRENT + 1; else the slots rotate
in one cycle, every endpoint of the new map is told, and the module's own flows toward remapped ranks start again
(R318, R322). -/
def State.activateEpoch (s : State) (p : Nat) : State :=
  let cur := s.get LP_EPOCH.CUR p
  let next := s.get LP_EPOCH.STAGED_EPOCH p
  if 64 ≤ p then s
  else if s.flag LP_EPOCH.RETIRED p = false ∨ next ≠ epochNext cur then s.put LP_EPOCH.REFUSED p 1
  else
    let s := { s with lp := { s.lp with maps := rotateMaps p s.lp.maps } }
    let s := (((s.put LP_EPOCH.PREV p cur).put LP_EPOCH.CUR p next).put LP_EPOCH.STAGED_EPOCH p (epochNext next)).put
      LP_EPOCH.RETIRED p 0
    let remap := s.remapped p
    let notice := s.epochNotice p remap
    let ids := (s.mapIds p slotCurrent).filter (· != s.modId)
    let s := ids.foldl (fun s id => s.originate (s.mkFrame opMgmt vcMgmt p id 0 0 0 576 0 0 notice) none) s
    let gone := (remap.map fun r => s.mapped p slotPrevious r).filter (· != 0)
    let flows := (s.lk.out.filter fun fl => gone.contains fl.id.dst && fl.unacked.any fun x => x.frame.part.toNat == p
      && x.frame.epoch.toNat != next).map (·.id)
    let s := flows.foldl (fun s id => s.abandonFlow id stEpochRetired) s
    let again (fl : FlowOut) : FlowOut := if gone.contains fl.id.dst && fl.unacked.isEmpty then { fl with syncNext := true } else fl
    let out := s.lk.out.map again
    { s with lk := { s.lk with out := out } }

/-- EPOCH_ACTIVATE (R318). -/
def execEpochActivate (part : Nat) (s : State) : Host.Outcome State Fault Refusal := .next (whenUp s fun s => s.activateEpoch part)

/-- EPOCH_RETIRE: PREVIOUS retires when its in-flight count is zero or RETIRE_US has expired; members whose rank went with it are
excluded (R174, R320). -/
def execEpochRetire (part : Nat) (expired : Bool) (s : State) : Host.Outcome State Fault Refusal :=
  .next (whenUp s fun s =>
    if 64 ≤ part || s.flag LP_EPOCH.RETIRED part || !(expired || s.prevInflight part == 0) then s
    else
      let e := s.get LP_EPOCH.PREV part
      let lp := { s.lp with
        maps := s.lp.maps.filter fun x => x.1 / 4096 != part * 3 + slotPrevious,
        stamped := s.lp.stamped.filter fun x => !(x.part == part && x.epoch == e) }
      let s := (({ s with lp := lp } : State).put LP_EPOCH.PREV part 0).put LP_EPOCH.RETIRED part 1
      s.collectFenced (fun p r => p == part && s.rankId p r == 0) stEpochRetired)

/-- A write of STAGED_EPOCH: only CURRENT + 1 is taken (R318, Table 12.10). -/
def State.writeStagedEpoch (s : State) (p v : Nat) : State :=
  if v = s.get LP_EPOCH.STAGED_EPOCH p then s
  else if v = epochNext (s.get LP_EPOCH.CUR p) then s.put LP_EPOCH.STAGED_EPOCH p v
  else s.put LP_EPOCH.REFUSED p 1

end Sys2Proof.Machine
end

