-- ==== Sys2Proof/Machine/Purser.lean ====
section
/-! DEFINITION. The purser: secure boot and images, SVN, creating and destroying partitions, sealed ranges and debug unlock
(chapter 16, R449). -/

namespace Sys2Proof.Machine

/-! ## Secure boot (R383, R384, R388) -/

/-- Bytes of a wide number, lowest first. -/
def wideBytes {w : Nat} (n : Nat) (v : BitVec w) : List Byte := leBytes n v.toNat

/-- The checks of R383, by the CAUSE of the first that fails (Table 16.9); an empty slot is a read error. -/
def Purser.check (x : Purser) : Option Image → Nat
  | none => 1
  | some i =>
    if i.pubHash ≠ x.keyHash.getD i.keyIdx 0 ∨ 4 ≤ i.keyIdx then 2
    else if x.keyRevoke.getLsbD i.keyIdx then 3
    else if !Config.ecdsaVerify i.pubHash (Config.sha384 i.bytes) i.sig then 4
    else if i.svn < x.svnCount then 5
    else if i.major ≠ 1 then 6
    else 0

/-- The image in a slot: 0 A, 1 B. -/
def Purser.slot (x : Purser) (n : Nat) : Option Image := if n = 0 then x.slotA else x.slotB

/-- The DeviceID key, derived from DEVICE_SECRET alone, the same at every boot (R388; log entry 12). -/
def deviceKey : BitVec 384 := Config.deriveKey Config.deviceSecret 0

/-- The Alias certificate, by its digest: it binds the Alias key to the image digest, VERSION, SVN and debug state and is signed with
the DeviceID key (R388). -/
def aliasCertOf (key digest : BitVec 384) (i : Image) (debug : DebugState) : BitVec 384 :=
  let d := match debug with | .locked => 0 | .unlocked => 1 | .disabled => 2
  let body := wideBytes 48 key ++ wideBytes 48 digest ++ leBytes 4 (i.minor % 256 + 256 * (i.major % 256) + 65536 * (i.svn % 64)
    + 4194304 * d)
  Config.sha384 (body ++ wideBytes 96 (Config.ecdsaSign deviceKey (Config.sha384 body)))

/-- The purser runs an image: its identity registers, keys and a first unlock challenge; a signed revocation in its header blows
KEY_REVOKE fuses (R383, R387, R388, R390). -/
def State.runImage (s : State) (n : Nat) (fallback : Bool) (i : Image) : State :=
  let digest := Config.sha384 i.bytes
  let key := Config.deriveKey Config.deviceSecret digest
  let r := s.drawRandom
  let s := { r.2 with ps := { r.2.ps with running := some i, keyRevoke := r.2.ps.keyRevoke ||| i.revoke, aliasKey := key,
                                          aliasCert := aliasCertOf key digest i r.2.ps.debug, challenge := r.1 } }
  ((((s.put PS_ID.FW_MINOR 0 i.minor).put PS_ID.FW_MAJOR 0 i.major).put PS_ID.SVN 0 i.svn).put PS_ID.SLOT 0 n).put
    PS_ID.FALLBACK 0 (if fallback then 1 else 0)

/-- The boot ROM: the preferred slot, else the other one with FALLBACK; with neither the module is FAILED and no hub logic is
released (R383, R384). -/
def State.boot (s : State) : State :=
  let n := s.get PS_BOOT_CFG.PREFER_B
  let c := s.ps.check (s.ps.slot n)
  match c, s.ps.slot n with
  | 0, some i => s.runImage n false i
  | _, _ =>
    let d := s.ps.check (s.ps.slot (1 - n))
    match d, s.ps.slot (1 - n) with
    | 0, some i => s.runImage (1 - n) true i
    | _, _ =>
      let s := ((s.put PS_BOOT_STATUS.CAUSE 0 d).put HS_STATE.CAUSE 0 1).enter modFailed
      { s with pwr := { s.pwr with faultLow := true } }

/-- BOOT_ROM: from reset, unless RESET_N holds the module at step 2 (R383, R426). -/
def execBootRom (s : State) : Host.Outcome State Fault Refusal :=
  .next (if s.modState ≠ modStandby ∨ s.ps.running.isSome = true ∨ s.pwr.resetHeld = true then s else s.boot)

/-! ## SVN and images (R385, R386) -/

/-- PS_ writes of Table 19.3 are taken: in every state but OFF. -/
def State.psServed (s : State) : Bool := s.modState != modOff

/-- COMMIT_SVN: the fused count rises to the running image's SVN, never falls (R385). -/
def State.commitSvn (s : State) : State :=
  match s.ps.running with
  | some i => { s with ps := { s.ps with svnCount := max s.ps.svnCount (min i.svn 63) } }
  | none => s

/-- COMMIT_SVN. -/
def execCommitSvn (up : Nat) (s : State) : Host.Outcome State Fault Refusal :=
  .next (if 2 ≤ up ∨ s.psServed = false then s else (s.viaUp up).commitSvn)

/-- The slot an update is written to: the one the purser did not boot from; with no image running, the one not preferred
(R386; log entry 45). -/
def State.updateSlot (s : State) : Nat :=
  match s.ps.running with
  | some _ => 1 - s.get PS_ID.SLOT
  | none => 1 - s.get PS_BOOT_CFG.PREFER_B

/-- OP = WRITE: the purser starts to read the image over PCIe; a write while BUSY is discarded and counted (R386, R445). -/
def State.updateStart (s : State) (up : Nat) : State :=
  if s.flag PS_UPD_CMD.BUSY then s.countAccess accBusy up 0x28
  else
    let s := s.put PS_UPD_CMD.BUSY 0 1
    match s.fmPort with
    | some u => s.emit (.fmRead u (s.get PS_UPD_ADDR.ADDR) (s.get PS_UPD_LEN.LEN))
    | none => s

/-- IMAGE_UPDATE (R386). -/
def execImageUpdate (up : Nat) (s : State) : Host.Outcome State Fault Refusal :=
  .next (if 2 ≤ up ∨ s.psServed = false then s else (s.viaUp up).updateStart up)

/-- An image goes into a slot. -/
def State.putImage (s : State) (n : Nat) (i : Option Image) : State :=
  if n = 0 then { s with ps := { s.ps with slotA := i } } else { s with ps := { s.ps with slotB := i } }

/-- The end of an update: RESULT 8 where the read failed, 2 to 6 for a failed check with both slots unchanged, 7 where the slot
does not read back, 0 with the slot preferred (R386, Table 16.10). -/
def State.updateEnd (s : State) (img : Option Image) (readBackOk : Bool) : State :=
  let s := s.put PS_UPD_CMD.BUSY 0 0
  let n := s.updateSlot
  match img with
  | none => s.put PS_UPD_CMD.RESULT 0 8
  | some i =>
    let c := s.ps.check (some i)
    if c ≠ 0 then s.put PS_UPD_CMD.RESULT 0 c
    else if !readBackOk then (s.putImage n none).put PS_UPD_CMD.RESULT 0 7
    else ((s.putImage n (some i)).put PS_BOOT_CFG.PREFER_B 0 n).put PS_UPD_CMD.RESULT 0 0

/-- IMAGE_UPDATE_DONE (R386). -/
def execImageUpdateDone (img : Option Image) (readBackOk : Bool) (s : State) : Host.Outcome State Fault Refusal :=
  .next (if s.flag PS_UPD_CMD.BUSY then s.updateEnd img readBackOk else s)

/-! ## Register entries return to reset (R397, R449) -/

/-- Every field of one entry of a register at its Reset value. -/
def State.clearEntry (s : State) (r : Reg) (i : Nat) : State :=
  match allRegs.find? (·.reg == r) with
  | none => s
  | some d => d.fields.foldl (fun s f => (List.range f.per).foldl (fun s k =>
      let e := i * f.total + f.base + k
      s.put f.f e (resetValue f.f.reset e)) s) s

/-- Registers with one entry per partition that teardown resets (R397 step 7, R449). -/
def partRegs : List Reg :=
  [.PT_PART_CFG, .PT_GROUP_SHARE, .PT_FARE, .PT_PART_USED, .DK_PART_CFG, .DK_PART_LEGS, .GU_PART_CFG, .GU_PART_FEED,
   .GU_PART_SHIP, .FU_PART_CFG, .FU_PART_COUNT, .RU_PART_CFG, .CH_PART_CFG, .CH_PART_STAT, .CH_PART_DIR, .TE_PART_CFG,
   .TE_PART_STALL, .SC_PART_BUF, .SC_PART_OCC, .SC_PART_DROP, .TM_PART_CFG, .LK_PART_POOL, .LP_EPOCH, .LP_PART_STAT,
   .CF_PART_QUOTA, .CF_DB_REJECT, .PM_PART_ERR, .HS_PART_STATE, .HS_PART_AVAIL]

/-- Registers of a context's 64-byte block, its group and its subscriber entry (R449). -/
def ctxRegs : List Reg :=
  [.CF_CTX_CTRL, .CF_CTX_SQ, .CF_CTX_CQ, .CF_CTX_LIMITS, .CF_CTX_NOTIFY, .CF_CTX_STATE, .CF_CTX_IDX, .PT_CTX_GROUP, .TM_SUB_SHAPE]

/-- Contexts bound to a partition. -/
def State.ctxsOf (s : State) (p : Nat) : List Nat :=
  (Sys2Proof.Machine.State.touched s CF_CTX_CTRL.PART).filter fun c => s.ctxPart c == p

/-- Ports of the ENDPOINT role that belong to a partition. -/
def State.endpointPorts (s : State) (p : Nat) : List Nat :=
  (List.range 512).filter fun q => s.get LK_PORT_CFG.ROLE q == 0 && s.get LP_PORT_CFG.PART q == p
    && (s.flag LK_PORT_CFG.ENABLE q || s.portState q != portDisabled)

/-- Group entries that name a partition. -/
def State.groupsOf (s : State) (p : Nat) : List Nat :=
  (Sys2Proof.Machine.State.touched s RU_GRP_CFG.PART).filter fun g => s.groupPart g == p

/-- Slots of a partition that are not EMPTY, by slot number. -/
def State.slotsOf (s : State) (p : Nat) : List Nat :=
  (s.heldSlots.filter fun e => e.1 / 32768 == p).map fun e => e.1 % 32768

/-! ## Creating and destroying partitions (R396 to R398) -/

/-- Steps 1 to 3 of teardown: ports fenced, contexts disabled, groups DRAINING, multicast entries invalid, every slot revoked,
directory entries of its tally berths U and its replies discarded (R397). -/
def State.teardownStart (s : State) (p : Nat) : State :=
  let s := s.put PT_PART_STATE.STATE p partTeardown
  let s := (s.endpointPorts p).foldl State.fencePort s
  let s := (s.ctxsOf p).foldl State.contextDisable s
  let s := (s.groupsOf p).foldl State.groupDrain s
  let s := { s with sc := { s.sc with groups := s.sc.groups.filter fun e => e.2.part != p } }
  let s := (s.slotsOf p).foldl (fun s n => s.revokeSlot p n) s
  let tallies := (s.slotsOf p).filterMap fun n => let sl := s.slot p n; if sl.kind = kindTally then some sl.physA else none
  let lines := s.ho.lines.map fun e =>
    if tallies.contains (e.1 * 128 / berthBytes) then
      (e.1, { e.2 with dir := { e.2.dir with st := .u, ovf := false, f := none, ptrs := [] } })
    else e
  ({ s with ho := { s.ho with lines := lines, replies := s.ho.replies.filter (·.part != p) } } : State).retryHeld

/-- What steps 4 to 8 wait for: every slot EMPTY, every context DISABLED, every group FREE, no command left (R397). -/
def State.drainedPart (s : State) (p : Nat) : Bool :=
  (s.slotsOf p).isEmpty && (s.ctxsOf p).all (fun c => s.ctxState c == ctxDisabled)
    && (s.groupsOf p).all (fun g => s.get RU_GRP_CFG.STATE g == grpFree) && s.fe.cmds.all (·.part != p)

/-- Windows, tray berths and flash berths of a partition are given up (step 4). -/
def State.releaseTiers (s : State) (p : Nat) : State :=
  let s := (s.te.windows.filter fun e => e.1 / 32768 == p).foldl (fun s e => s.unbind e.1) s
  let s := { s with te := { s.te with manifests := s.te.manifests.filter (·.part != p) } }
  let s := (s.ty.berths.filter fun e => e.2.part == p && e.2.state != tbFree).foldl (fun s e =>
    let s := (s.te.fills.filter fun f => f.rebuildOf == some e.1).foldl (fun s f => s.dropFill f.fid) s
    let s := e.2.places.foldl (fun s x => s.givePages x.1 x.2) s
    s.setTrayBerth e.1 { e.2 with state := tbFree, bound := false, places := [], lost := [], target := none, rebuild := [] }) s
  { s with fl := { s.fl with berths := s.fl.berths.filter fun e => e.2.part != p } }

/-- Map slots of a partition are cleared, its ports disabled and then no longer fenced (step 6). -/
def State.releasePorts (s : State) (p : Nat) : State :=
  let s := { s with lp := { s.lp with maps := s.lp.maps.filter fun e => e.1 / 4096 / 3 != p,
                                      stamped := s.lp.stamped.filter (·.part != p) } }
  (s.endpointPorts p).foldl (fun s q => (s.portDisable q).put LP_PORT_CFG.FENCE q 0) s

/-- Registers, counters, fares and deck bookkeeping of a partition return to reset (steps 5 and 7, R449). -/
def State.resetPart (s : State) (p : Nat) : State :=
  let ctxs := s.ctxsOf p
  let groups := s.groupsOf p
  let s := partRegs.foldl (fun s r => s.clearEntry r p) s
  let s := (List.range 8).foldl (fun s k => (s.clearEntry .TM_SVC_SHAPE (8 * p + k)).clearEntry .TM_SVC_HWM (8 * p + k)) s
  let s := ctxs.foldl (fun s c => ctxRegs.foldl (fun s r => s.clearEntry r c) s) s
  let s := groups.foldl (fun s g => ((s.clearEntry .RU_GRP_CFG g).clearEntry .RU_GRP_PARENT g).clearEntry .RU_GRP_STAT g) s
  let s := [DeckId.a, DeckId.b].foldl (fun s d => s.updDeck d fun k =>
    { k with holder := Tab.erase k.holder p, slice := k.slice.filter fun e => !ctxs.contains e.1 }) s
  let keep8 (k : Nat) : Bool := k / 8 != p
  { s with fe := { s.fe with ctxs := s.fe.ctxs.filter fun e => !ctxs.contains e.1, turn := Tab.erase s.fe.turn p },
           co := { s.co with members := s.co.members.filter fun e => !groups.contains (e.1 / 512),
                             gone := s.co.gone.filter fun x => !groups.contains x.1 },
           pt := { s.pt with force := s.pt.force.filter fun e => keep8 e.1, used := s.pt.used.filter fun e => keep8 e.1,
                             balance := s.pt.balance.filter fun e => keep8 (e.1 / 8), hold := s.pt.hold.filter fun e => e.1 / 2 != p,
                             written := s.pt.written.filter fun e => e.1 / 4 != p, kcount := s.pt.kcount.filter fun e => e.1 / 2 != p,
                             slices := Tab.erase s.pt.slices p, shares := Tab.erase s.pt.shares p,
                             active := s.pt.active.filter (· != p), lending := s.pt.lending.filter (· != p) },
           hs := { s.hs with stallRuns := Tab.erase s.hs.stallRuns p } }

/-- Steps 4 to 8: the partition is FREE; the command, where one started it, is done (R397). -/
def State.teardownEnd (s : State) (p : Nat) : State :=
  let s := (((s.releaseTiers p).releasePorts p).resetPart p).put PT_PART_STATE.STATE p partFree
  if s.ps.unlocking then s else (s.put PT_PART_CMD.BUSY 0 0).put PT_PART_CMD.RESULT 0 0

/-- CREATE of a FREE partition: LIVE, CREATE_SEQ counted, every table at its reset value; the first locks FARE_EN (R396, R447). -/
def State.createPart (s : State) (p : Nat) : State :=
  if s.partState p ≠ partFree then s.put PT_PART_CMD.RESULT 0 1
  else
    (((s.put PT_PART_STATE.STATE p partLive).put PT_PART_STATE.CREATE_SEQ p (s.get PT_PART_STATE.CREATE_SEQ p + 1)).put
      PS_LOCK_STATUS.FARE_LOCKED 0 1).put PT_PART_CMD.RESULT 0 0

/-- DESTROY of a LIVE or CONTAINED partition starts its teardown (R373, R397). -/
def State.destroyPart (s : State) (p : Nat) : State :=
  if s.partState p ≠ partLive ∧ s.partState p ≠ partContained then s.put PT_PART_CMD.RESULT 0 1
  else (s.put PT_PART_CMD.BUSY 0 1).teardownStart p

/-- A write of PT_PART_CMD: PART is set; OP 0 starts nothing, one written while BUSY is refused, as is any that names partition
0 and the reserved one (R396, R398, Table 16.11). -/
def State.partCmd (s : State) (p op : Nat) : State :=
  let s := s.put PT_PART_CMD.PART 0 p
  let p := p % 64
  if op = 0 then s
  else if s.flag PT_PART_CMD.BUSY then s.put PT_PART_CMD.RESULT 0 3
  else if p = 0 then s.put PT_PART_CMD.RESULT 0 2
  else if op = 1 then s.createPart p
  else if op = 2 then s.destroyPart p
  else s.put PT_PART_CMD.RESULT 0 4

/-- CREATE (R396). -/
def execCreate (up part : Nat) (s : State) : Host.Outcome State Fault Refusal :=
  .next (barWrite up 0x100008 s fun s => s.partCmd part 1)

/-- DESTROY (R397). -/
def execDestroy (up part : Nat) (s : State) : Host.Outcome State Fault Refusal :=
  .next (barWrite up 0x100008 s fun s => s.partCmd part 2)

/-- TEARDOWN_CONTINUE (R397, R449). -/
def execTeardownContinue (part : Nat) (s : State) : Host.Outcome State Fault Refusal :=
  .next (whenUp s fun s =>
    if part = 0 ∨ 64 ≤ part ∨ s.partState part ≠ partTeardown ∨ s.drainedPart part = false then s else s.teardownEnd part)

/-! ## Sealed ranges (R394, R395, Table 16.5) -/

def Seal.reset : Seal :=
  { live := false, busy := false, part := 0, kind := 0, handle := 0, offset := 0, length := 0, result := 0, refused := 0, digest := 0 }

/-- Entry `n` of PS_DIGEST_DATA. -/
def State.sealEntry (s : State) (n : Nat) : Seal := Tab.get Seal.reset s.ps.seals n

def State.setSeal (s : State) (n : Nat) (x : Seal) : State :=
  { s with ps := { s.ps with seals := Tab.set Seal.reset s.ps.seals n x } }

/-- A live or sealing range overlaps the entry's (RESULT 2). -/
def State.sealOverlaps (s : State) (x : Seal) : Bool := (s.sealOn x.part x.handle (x.offset * 4096) (x.length * 4096)).isSome

/-- SEAL of the selected entry: new writes to the range are refused from here on (R394); an out-of-range LENGTH starts nothing
(R12). -/
def State.sealOp (s : State) (n : Nat) : State :=
  let x := s.sealEntry n
  let sl := s.slot x.part (handleSlot x.handle)
  if x.length = 0 ∨ 16384 < x.offset + x.length then s
  else if sl.state = .draining ∧ slotHandle (handleSlot x.handle) sl = x.handle then s.setSeal n { x with result := 3 }
  else if (s.heldSlot x.part x.handle).isNone then s.setSeal n { x with result := 1 }
  else if s.sealOverlaps x then s.setSeal n { x with result := 2 }
  else s.setSeal n { x with busy := true }

/-- UNSEAL of the selected entry (R395). -/
def State.unsealOp (s : State) (n : Nat) : State := s.setSeal n { s.sealEntry n with live := false, result := 0 }

/-- OP written to the selected entry; while it is BUSY the write is discarded and counted (R402, R445). -/
def State.digestOp (s : State) (up op : Nat) : State :=
  let n := s.get PS_DIGEST_SEL.ENTRY
  if (s.sealEntry n).busy then s.countAccess accBusy up 0x48
  else if op = 1 then s.sealOp n
  else if op = 2 then s.unsealOp n
  else s

/-- SEAL (R394). -/
def execSeal (up : Nat) (s : State) : Host.Outcome State Fault Refusal := .next (barWrite up 0x48 s fun s => s.digestOp up 1)

/-- UNSEAL (R395). -/
def execUnseal (up : Nat) (s : State) : Host.Outcome State Fault Refusal := .next (barWrite up 0x48 s fun s => s.digestOp up 2)

/-- A store accepted earlier for the berth is still held (R394 step 2). -/
def State.writesHeld (s : State) (x : Seal) : Bool :=
  s.te.held.any fun h => h.frame.part.toNat == x.part && h.frame.addr.toNat / berthBytes % 16777216 == x.handle && h.accepted

/-- SEAL_HASH_DONE: every earlier write is applied; the range is hashed and the entry LIVE (R394). -/
def execSealHashDone (entry : Nat) (s : State) : Host.Outcome State Fault Refusal :=
  .next (whenUp s fun s =>
    let x := s.sealEntry entry
    match x.busy && !s.writesHeld x, s.heldSlot x.part x.handle with
    | true, some sl =>
      s.setSeal entry { x with live := true, busy := false, result := 0,
                               digest := Config.sha384 (s.readSlot sl (x.offset * 4096) (x.length * 4096)).bytes }
    | _, _ => s)

/-! ## Debug unlock (R389, R390) -/

/-- A fresh challenge. -/
def State.newChallenge (s : State) : State :=
  let r := s.drawRandom
  { r.2 with ps := { r.2.ps with challenge := r.1 } }

/-- The token names this module and the current challenge and is signed with the key at KEY_HASH3. -/
def Purser.tokenOk (x : Purser) (t : UnlockToken) : Bool :=
  t.uid == x.uid && t.challenge == x.challenge
    && Config.ecdsaVerify (x.keyHash.getD 3 0) (Config.sha384 (wideBytes 8 t.uid ++ wideBytes 48 t.challenge)) t.sig

/-- An accepted token: every partition other than 0 is contained and torn down (R390 step 1). -/
def State.unlockStart (s : State) : State :=
  let s := { s with ps := { s.ps with unlocking := true } }
  let s := s.put PT_PART_CMD.BUSY 0 1
  let ps := (List.range 64).filter fun p => p != 0 && (s.partState p == partLive || s.partState p == partContained)
  ps.foldl (fun s p => (s.contain p .request).teardownStart p) s

/-- DEBUG_UNLOCK: refused once DISABLED; a wrong token is refused and a new challenge issued (R389, R390). -/
def execDebugUnlock (token : UnlockToken) (s : State) : Host.Outcome State Fault Refusal :=
  .next (whenUp s fun s =>
    if s.ps.debug ≠ .locked ∨ s.ps.unlocking = true then s
    else if s.ps.tokenOk token then s.unlockStart
    else s.newChallenge)

/-- Steps 2 to 4 of R390: near memory zero, decks, buffer, directory and reply cache clear, every tray berth free and every flash
definition gone; partition 0 keeps its contexts only. -/
def State.unlockScrub (s : State) : State :=
  let s := s.releaseTiers 0
  let s := (s.groupsOf 0).foldl (fun s g => ((s.clearEntry .RU_GRP_CFG g).clearEntry .RU_GRP_PARENT g).clearEntry .RU_GRP_STAT g) s
  let s := s.put RU_PART_CFG.SLOT_HELD 0 0
  let s := [DeckId.a, DeckId.b].foldl (fun s d => s.updDeck d fun k => { k with scratch := [], saveArea := none }) s
  let s := s.dropFrames (fun _ => true) fun _ => true
  let s := { s with fe := { s.fe with cmds := s.fe.cmds.map fun (c : Cmd) => { c with acc := [], accCopy := [] } },
                    pm := { s.pm with near := { cells := [], poison := [] },
                                      slots := s.pm.slots.map fun (e : Nat × Slot) =>
                                        (e.1, if e.2.state = SlotState.empty then e.2 else { e.2 with state := .empty, gen := (e.2.gen + 1) % 512 }) },
                    te := { s.te with held := [] }, ho := { s.ho with lines := [], replies := [] }, sc := { s.sc with groups := [] },
                    ps := { s.ps with seals := [] },
                    co := { seqs := [], members := [], gone := [] }, fl := { s.fl with berths := [] } }
  s.syncFree

/-- UNLOCK_ZERO_FILL_DONE: once every other partition is FREE the scrub ends and the module enters UNLOCKED (R389, R390). -/
def execUnlockZeroFillDone (s : State) : Host.Outcome State Fault Refusal :=
  .next (whenUp s fun s =>
    if s.ps.unlocking = false ∨ ((List.range 64).any fun p => p != 0 && s.partState p != partFree) = true then s
    else
      let s := s.unlockScrub
      ({ s with ps := { s.ps with unlocking := false, debug := .unlocked } } : State).put PT_PART_CMD.BUSY 0 0)

end Sys2Proof.Machine
end

