-- ==== Sys2Proof/Machine/Mgmt.lean ====
section
/-! DEFINITION. The management endpoint: SPDM attestation (R392, R393), MCTP and PLDM (R431), I3C (R430) and JTAG (R389, R391,
R432). Requests and answers are records of their contents; codes of the named standards are log entry 43. -/

namespace Sys2Proof.Machine

/-- The purser answers: it runs a verified image (R382, R384). -/
def State.purserUp (s : State) : Bool := s.modState != modOff && s.ps.running.isSome

/-- What the configuration space of each upstream port reports: Device ID, class code and Revision ID (R437). -/
def State.configIds (s : State) : Nat × Nat × Nat := (0x7820, 0x058000, s.ps.stepping.toNat)

/-- Answers one request while the purser runs. -/
def answer (s : State) (f : State → Out) : Host.Outcome State Fault Refusal := .next (if s.purserUp then s.emit (f s) else s)

/-! ## SPDM (R388, R392, R393) -/

/-- An SPDM answer without digests or signature. -/
def spdmPlain (msg : String) (fields : List Nat) : Out := .spdm msg fields [] none

/-- ERROR: the request is not supported for that slot. -/
def spdmError : Out := spdmPlain "ERROR" []

/-- GET_VERSION reports 1.3 only; it is answered without a bootable image too (R384, R392). -/
def execGetVersion (s : State) : Host.Outcome State Fault Refusal :=
  .next (if s.purserUp || (s.modState == modFailed && s.get HS_STATE.CAUSE == 1) then s.emit (spdmPlain "VERSION" [1, 3]) else s)

/-- GET_CAPABILITIES: CERT_CAP, CHAL_CAP and MEAS_CAP with signatures. -/
def execGetCapabilities (s : State) : Host.Outcome State Fault Refusal := answer s fun _ => spdmPlain "CAPABILITIES" [1, 1, 2]

/-- NEGOTIATE_ALGORITHMS: ECDSA P-384, and SHA-384 for hashes and measurements. -/
def execNegotiateAlgorithms (s : State) : Host.Outcome State Fault Refusal := answer s fun _ => spdmPlain "ALGORITHMS" [384, 384, 384]

/-- The digest of the chain of slot 0: root, intermediate, DeviceID and Alias certificates (R388). -/
def State.chainDigest (s : State) : BitVec 384 := Config.sha384 (Config.deviceChain ++ wideBytes 48 s.ps.aliasCert)

/-- GET_DIGESTS: slot 0 only. -/
def execGetDigests (slot : Nat) (s : State) : Host.Outcome State Fault Refusal :=
  answer s fun s => if slot = 0 then .spdm "DIGESTS" [1] [s.chainDigest] none else spdmError

/-- GET_CERTIFICATE: the Alias chain of slot 0. -/
def execGetCertificate (slot : Nat) (s : State) : Host.Outcome State Fault Refusal :=
  answer s fun s => if slot = 0 then .spdm "CERTIFICATE" [slot] [s.chainDigest, s.ps.aliasCert] none else spdmError

/-- A debug state as Table 16.9 and Table 16.3 give it. -/
def debugCode : DebugState → Nat
  | .locked => 0
  | .unlocked => 1
  | .disabled => 2

/-- Held slots of a partition of one kind. -/
def State.slotCount (s : State) (p kind : Nat) : Nat := ((s.slotsOf p).filter fun n => (s.slot p n).kind == kind).length

/-- The words of a PT_FARE entry as they read: the derived fares, or for EXPERT the held and committed values (Table 10.8, R442,
R444). -/
def State.fareWord (s : State) (p w : Nat) : Nat :=
  let f (k : Nat) : Nat :=
    if s.get PT_PART_CFG.PROFILE p = 0 then s.get PT_FARE.RES (8 * p + k)
    else s.derivedFare (s.capacities.getD k 0) p
  let own : Nat := match w with
    | 0 => f 0 + 2 ^ 22 * f 1 + 2 ^ 44 * f 2
    | 1 => f 3 + 2 ^ 17 * f 4 + 2 ^ 38 * f 5
    | 2 => f 6 + 2 ^ 22 * f 7
    | _ => 0
  if s.get PT_PART_CFG.PROFILE p = 0 then
    match (if w < 2 then Tab.find s.pt.hold (2 * p + w) else none), Tab.find s.pt.written (4 * p + w) with
    | some v, _ => v.toNat
    | none, some v => v.toNat
    | none, none => own
  else own

/-- A partition layout entry (Table 16.4). -/
def State.layoutEntry (s : State) (p : Nat) : List Byte :=
  let st := s.partState p
  if st = partFree then leBytes 8 p ++ List.replicate 120 0
  else
    let n (k : Nat) : Nat := s.slotCount p k
    let trays := (s.ty.berths.filter fun e => e.2.part == p && e.2.state != tbFree).length
    let flash := (s.fl.berths.filter fun e => e.2.part == p && e.2.valid).length
    let ports := (List.range 512).foldl (fun m q =>
      if s.get LK_PORT_CFG.ROLE q == 0 && s.get LP_PORT_CFG.PART q == p then m + 2 ^ q else m) 0
    let ctxs := if p = 0 then 4096 - ((Sys2Proof.Machine.State.touched s CF_CTX_CTRL.PART).length) else (s.ctxsOf p).length
    leBytes 8 (p + 64 * st + 256 * s.get PT_PART_STATE.CREATE_SEQ p)
      ++ leBytes 8 (n kindDeckA + 2 ^ 16 * n kindDeckB + 2 ^ 32 * n kindLashed + 2 ^ 48 * n kindTally)
      ++ leBytes 8 (ctxs + 2 ^ 13 * trays + 2 ^ 38 * flash) ++ leBytes 8 0
      ++ (List.range 4).flatMap (fun w => leBytes 8 (s.fareWord p w)) ++ leBytes 64 ports

/-- The 128 bytes of a sealed-range entry (Table 16.5). -/
def State.sealBytes (s : State) (n : Nat) : List Byte :=
  let x := s.sealEntry n
  leBytes 8 ((if x.live then 1 else 0) + (if x.busy then 2 else 0) + 4 * x.part + 2 ^ 8 * x.kind + 2 ^ 12 * x.handle + 2 ^ 36 * x.offset)
    ++ leBytes 8 (x.length + 2 ^ 18 * x.result + 2 ^ 48 * x.refused) ++ wideBytes 48 x.digest ++ List.replicate 64 0

/-- A measurement (Table 16.3); none for an index that has none, or a sealed range that is not live. -/
def State.measurement (s : State) (i : Nat) : Option (List Byte) :=
  match i with
  | 1 => some (wideBytes 48 Config.bootRomDigest)
  | 2 => s.ps.running.map fun x => wideBytes 48 (Config.sha384 x.bytes)
  | 3 => s.ps.running.map fun x => leBytes 8 (x.minor % 256 + 2 ^ 8 * (x.major % 256) + 2 ^ 16 * (x.svn % 64)
      + 2 ^ 22 * s.get PS_ID.SLOT + 2 ^ 23 * s.get PS_ID.FALLBACK)
  | 4 => some (leBytes 8 (s.ps.stepping.toNat + 2 ^ 8 * s.ps.svnCount + 2 ^ 14 * s.ps.keyRevoke.toNat + 2 ^ 18 * debugCode s.ps.debug
      + 2 ^ 20 * s.get PT_CFG.FARE_EN + 2 ^ 21 * s.get PS_LOCK_STATUS.FARE_LOCKED) ++ wideBytes 8 s.ps.uid)
  | 5 => some ((List.range 64).flatMap s.layoutEntry)
  | _ =>
    if 16 ≤ i ∧ i < 32 then
      let x := s.sealEntry (i - 16)
      if x.live then some (s.sealBytes (i - 16)) else none
    else none

/-- Every index that has a measurement. -/
def State.measured (s : State) : List Nat := (List.range 32).filter fun i => (s.measurement i).isSome

/-- The measurement block a request names: one index, or with 255 every one, each behind its index (R393). -/
def State.measurements (s : State) (i : Nat) : List Byte :=
  if i = 255 then s.measured.flatMap fun k => leBytes 1 k ++ (s.measurement k).getD []
  else (s.measurement i).getD []

/-- CHALLENGE: signed with the Alias key (R392). -/
def execChallenge (slot : Nat) (nonce : BitVec 256) (s : State) : Host.Outcome State Fault Refusal :=
  answer s fun s =>
    if slot = 0 then
      .spdm "CHALLENGE_AUTH" [slot] [s.chainDigest]
        (some (Config.ecdsaSign s.ps.aliasKey (Config.sha384 (wideBytes 32 nonce ++ wideBytes 48 s.chainDigest ++ s.measurements 255))))
    else spdmError

/-- GET_MEASUREMENTS: index 0 asks how many there are; one snapshot, signed with the Alias key (R392, R393). -/
def execGetMeasurements (index : Nat) (nonce : BitVec 256) (s : State) : Host.Outcome State Fault Refusal :=
  answer s fun s =>
    let block := if index = 0 then leBytes 1 s.measured.length else s.measurements index
    if index ≠ 0 ∧ block.isEmpty = true then spdmError
    else .spdm "MEASUREMENTS" (index :: block.map (·.toNat)) []
      (some (Config.ecdsaSign s.ps.aliasKey (Config.sha384 (wideBytes 32 nonce ++ block))))

/-! ## MCTP control (R431) -/

def mctpTypes : List Nat := [0, 1, 5]

/-- Set Endpoint ID from the bus owner; 0 and 255 are no endpoint IDs. -/
def execSetEndpointId (eid : Nat) (s : State) : Host.Outcome State Fault Refusal :=
  .next (if !s.purserUp then s
    else if eid = 0 ∨ 255 ≤ eid then s.emit (.mctp "SetEndpointID" [1, s.mg.eid])
    else ({ s with mg := { s.mg with eid := eid } } : State).emit (.mctp "SetEndpointID" [0, eid]))

/-- Get Endpoint ID. -/
def execGetEndpointId (s : State) : Host.Outcome State Fault Refusal := answer s fun s => .mctp "GetEndpointID" [0, s.mg.eid]

/-- Get MCTP Version Support, for the message types the module carries. -/
def execGetMctpVersionSupport (msgType : Nat) (s : State) : Host.Outcome State Fault Refusal :=
  answer s fun _ => if mctpTypes.contains msgType then .mctp "GetMCTPVersionSupport" [0, Config.standardField msgType]
    else .mctp "GetMCTPVersionSupport" [0x80]

/-- Get Message Type Support: PLDM and SPDM beside MCTP control. -/
def execGetMessageTypeSupport (s : State) : Host.Outcome State Fault Refusal :=
  answer s fun _ => .mctp "GetMessageTypeSupport" (0 :: mctpTypes)

/-! ## PLDM (R431, Table 18.7) -/

/-- GetTID. -/
def execGettid (s : State) : Host.Outcome State Fault Refusal := answer s fun _ => .mctp "GetTID" [0, Config.standardField 256]

/-- GetPLDMVersion of type 0 or 2. -/
def execGetpldmversion (typ : Nat) (s : State) : Host.Outcome State Fault Refusal :=
  answer s fun _ => if typ = 0 ∨ typ = 2 then .mctp "GetPLDMVersion" [0, Config.standardField (512 + typ)]
    else .mctp "GetPLDMVersion" [0x83]

/-- GetPLDMTypes: types 0 and 2. -/
def execGetpldmtypes (s : State) : Host.Outcome State Fault Refusal := answer s fun _ => .mctp "GetPLDMTypes" [0, 0, 2]

/-- GetPLDMCommands of type 0 or 2, by their codes. -/
def execGetpldmcommands (typ : Nat) (s : State) : Host.Outcome State Fault Refusal :=
  answer s fun _ =>
    if typ = 0 then .mctp "GetPLDMCommands" [0, 0x02, 0x03, 0x04, 0x05]
    else if typ = 2 then .mctp "GetPLDMCommands" [0, 0x04, 0x0A, 0x11, 0x21, 0x51]
    else .mctp "GetPLDMCommands" [0x83]

/-- The thresholds of a sensor: low warning and critical, then high warning, critical and fatal, where it has them. -/
def State.sensorLimits (s : State) (id : Nat) : List Nat :=
  match id with
  | 1 => [400, 380, 600, 720]
  | 2 => [360]
  | 3 => [s.get HS_PWR_CFG.CAP_W, 1450]
  | 4 => [1, 7]
  | 32 => []
  | _ => [528, 540, 600]

/-- GetPDR: one record per sensor of Table 18.7; record 0 asks for the first. -/
def execGetpdr (record : Nat) (s : State) : Host.Outcome State Fault Refusal :=
  answer s fun s =>
    let r := if record = 0 then 1 else record
    if r ≤ 32 then .mctp "GetPDR" (0 :: r :: s.sensorLimits r) else .mctp "GetPDR" [0x82]

/-- The latest value of a sensor's source register (Table 18.7). -/
def State.sensorValue (s : State) (id : Nat) : Nat :=
  match id with
  | 1 => s.get HS_PWR_STATUS.VIN_DV
  | 2 => s.get HS_PWR_STATUS.IIN_DA
  | 3 => s.get HS_PWR_STATUS.POWER_W
  | 4 => s.get HS_PWR_STATUS.LEVEL
  | _ => s.pwr.dieTemps.getD (id - 5) 0

/-- GetSensorReading of sensors 1 to 31. -/
def execGetsensorreading (sensor : Nat) (s : State) : Host.Outcome State Fault Refusal :=
  answer s fun s => if 1 ≤ sensor ∧ sensor ≤ 31 then .mctp "GetSensorReading" [0, s.sensorValue sensor]
    else .mctp "GetSensorReading" [0x80]

/-- GetStateSensorReadings: sensor 32 is the module state. -/
def execGetstatesensorreadings (sensor : Nat) (s : State) : Host.Outcome State Fault Refusal :=
  answer s fun s => if sensor = 32 then .mctp "GetStateSensorReadings" [0, s.modState] else .mctp "GetStateSensorReadings" [0x80]

/-- SetEventReceiver: PlatformEventMessages go to this endpoint from now on. -/
def execSeteventreceiver (eid : Nat) (s : State) : Host.Outcome State Fault Refusal :=
  .next (if s.purserUp then ({ s with mg := { s.mg with eventEid := some eid } } : State).emit (.mctp "SetEventReceiver" [0]) else s)

/-! ## I3C (R430) -/

/-- SETDASA: the static address 0x30 + SLOT_ID takes the dynamic address. -/
def execSetdasa (static dynamic : Nat) (s : State) : Host.Outcome State Fault Refusal :=
  .next (if s.modState ≠ modOff ∧ static = 0x30 + s.get HS_STRAP_STATUS.SLOT_ID then
      { s with mg := { s.mg with i3cAddr := dynamic } }
    else s)

/-- ENTDAA: a target without a dynamic address gives its provisioned ID and takes one. -/
def execEntdaa (dynamic : Nat) (s : State) : Host.Outcome State Fault Refusal :=
  .next (if s.modState ≠ modOff ∧ s.mg.i3cAddr = 0 then
      ({ s with mg := { s.mg with i3cAddr := dynamic } } : State).emit
        (.i3c [Config.manufacturerCode.toNat, 0x7820, (s.ps.uid.extractLsb' 0 16).toNat])
    else s)

/-! ## JTAG (R389 to R391, R432) -/

/-- IDCODE: version 1, part number 0x7820, the manufacturer code and a one. -/
def idcode : Nat := 2 ^ 28 + 2 ^ 12 * 0x7820 + 2 * Config.manufacturerCode.toNat + 1

/-- EXTEST, CLAMP and HIGHZ act only while the module is STANDBY or FAILED (R391). -/
def State.pinsFree (s : State) : Bool := s.modState == modStandby || s.modState == modFailed

/-- The instruction in force, and what TDO gives: a register's bits and its value; the boundary register's captured bits are not
listed. -/
def State.jtagActs (s : State) (ins : JtagIns) (bits value : Nat) : State :=
  ({ s with mg := { s.mg with jtag := ins } } : State).emit (.jtag bits value)

/-- BYPASS: one bit, zero. -/
def State.jtagBypass (s : State) : State := s.jtagActs .bypass 1 0

/-- JTAG_INSTRUCTION: a die-internal one acts in UNLOCKED only, on state the manual does not describe; it is refused there and is
BYPASS elsewhere. With the rails off nothing answers. -/
def execJtagInstruction (ins : JtagIns) (s : State) : Host.Outcome State Fault Refusal :=
  if s.modState = modOff then .next s
  else match ins with
    | .bypass => .next s.jtagBypass
    | .idcode => .next (s.jtagActs .idcode 32 idcode)
    | .samplePreload => .next (s.jtagActs .samplePreload 0 0)
    | .extest => .next (if s.pinsFree then s.jtagActs .extest 0 0 else s.jtagBypass)
    | .clamp => .next (if s.pinsFree then s.jtagActs .clamp 1 0 else s.jtagBypass)
    | .highz => .next (if s.pinsFree then s.jtagActs .highz 1 0 else s.jtagBypass)
    | .readChallenge => .next (s.jtagActs .readChallenge 384 s.ps.challenge.toNat)
    | .dieInternal _ => if s.ps.debug = .unlocked then .refused .jtagDieInternal else .next s.jtagBypass

end Sys2Proof.Machine
end

