-- ==== Sys2Proof/Machine/Bar0.lean ====
section
/-! DEFINITION. Reads and writes of BAR0 (chapter 19): the access forms, access codes, ranges, state rules, sums, locks and
guards, the routing of a written word to the operation its chapter gives it, and the commit of fares. -/

namespace Sys2Proof.Machine

/-! ## Places -/

/-- Entry number of part `k` of a field in entry `i` of its register. -/
def FieldPos.entry (f : FieldPos) (i k : Nat) : Nat := i * f.total + f.base + k

/-- Part `k` of a field in a word. -/
def FieldPos.value (f : FieldPos) (v k : Nat) : Nat := v / 2 ^ (f.lsb + f.gap * k) % 2 ^ f.width

/-- The register, entry and word at an offset; `none` where no register lies (R435, R439). -/
def regAt (off : Nat) : Option (RegDesc × Nat × Nat) :=
  allRegs.findSome? fun d =>
    if d.off ≤ off ∧ off < d.off + d.count * d.stride ∧ (off - d.off) % d.stride < 8 * d.words then
      some (d, (off - d.off) / d.stride, (off - d.off) % d.stride / 8)
    else none

/-- A register's description. -/
def descOfReg (r : Reg) : Option RegDesc := allRegs.find? (·.reg == r)

/-- The block of the MSI-X table and pending-bit array (Table 19.1). -/
def inMsix (off : Nat) : Bool := 0x1F00000 ≤ off && off < 0x2000000

/-! ## Which registers respond (R446, Table 19.3) -/

/-- Registers that take writes before hub release and after a failure. -/
def earlyWrites : List Reg := [.PS_BOOT_CFG, .PS_UPD_ADDR, .PS_UPD_LEN, .PS_UPD_CMD, .HS_STATE, .HS_RESET]

/-- Registers that are read before hub release, beside every PS_ register. -/
def earlyReads : List Reg := [.HS_STATE, .HS_RESET, .HS_RESET_CAUSE, .HS_STRAP_STATUS]

/-- The module state lets a write of the register take effect. -/
def State.takesWrite (s : State) (r : Reg) : Bool :=
  s.hubUp || (s.modState != modOff && (earlyWrites.contains r ||
    (s.failedReleased && (r == .HS_LOG_BASE || r == .HS_LOG_CTRL))))

/-- The register responds to a read; PS_ lies in the first MiB. -/
def State.responds (s : State) (d : RegDesc) : Bool :=
  s.released || (s.modState != modOff && (Decidable.decide (d.off < 0x100000) || earlyReads.contains d.reg))

/-! ## Guards (R445), teardown (R398) and locks (R447) -/

/-- The BUSY bit that guards the register, or the busy entry for the sealed ranges. -/
def State.busyGuard (s : State) (r : Reg) : Bool :=
  match r with
  | .PM_BERTH_SEL | .PM_BERTH_DATA | .PM_BERTH_LEASE | .PM_BERTH_CMD => s.flag PM_BERTH_CMD.BUSY
  | .TY_TB_SEL | .TY_TB_DATA | .TY_TB_CMD => s.flag TY_TB_CMD.BUSY
  | .PS_UPD_ADDR | .PS_UPD_LEN | .PS_UPD_CMD => s.flag PS_UPD_CMD.BUSY
  | .PS_DIGEST_SEL | .PS_DIGEST_DATA => (s.sealEntry (s.get PS_DIGEST_SEL.ENTRY)).busy
  | _ => false

/-- The partition whose register an entry is: its own entries, its contexts' blocks, its services' and its groups'. -/
def State.regOwner (s : State) (r : Reg) (i : Nat) : Option Nat :=
  if partRegs.contains r then some i
  else if r == .TM_SUB_SHAPE then (if i < 4096 then some (s.ctxPart i) else none)
  else if ctxRegs.contains r then some (s.ctxPart i)
  else match r with
    | .TM_SVC_SHAPE | .TM_SVC_HWM => some (i / 8)
    | .RU_GRP_CFG | .RU_GRP_PARENT => if s.get RU_GRP_CFG.STATE i = grpFree then none else some (s.groupPart i)
    | .RU_MEMB_DATA =>
      let g := s.get RU_MEMB_SEL.GROUP
      if s.get RU_GRP_CFG.STATE g = grpFree then none else some (s.groupPart g)
    | _ => none

/-- The register belongs to a partition in TEARDOWN: a write is refused (R398). -/
def State.tearing (s : State) (r : Reg) (i : Nat) : Bool :=
  match s.regOwner r i with
  | some p => p < 64 && s.partState p == partTeardown
  | none => false

/-- A locked field (Table 19.4). -/
def State.locked (s : State) (f : RegField) : Bool :=
  (f == PM_CFG.HASH_SALT && s.pm.saltLocked) || (f == PT_CFG.FARE_EN && s.flag PS_LOCK_STATUS.FARE_LOCKED)

/-! ## Refusals (R12) -/

/-- Where a refused write to a register shows: its own REFUSED, or the one its chapter names. -/
def State.setRefused (s : State) (r : Reg) (i : Nat) : State :=
  match r with
  | .CF_CTX_CTRL | .CF_CTX_SQ | .CF_CTX_CQ | .CF_CTX_LIMITS | .CF_CTX_NOTIFY | .PT_CTX_GROUP => s.put CF_CTX_STATE.REFUSED i 1
  | .PT_FARE | .PT_GROUP_SHARE => s.put PT_PART_CFG.REFUSED i 1
  | .RU_GRP_PARENT => s.put RU_GRP_CFG.REFUSED i 1
  | .RU_MEMB_DATA => s.put RU_GRP_CFG.REFUSED (s.get RU_MEMB_SEL.GROUP) 1
  | .TM_GCL_DATA => s.put TM_GCL_CTRL.REFUSED (s.get TM_GCL_SEL.PORT) 1
  | .TY_TB_DATA => s.put TY_CFG.REFUSED 0 1
  | _ =>
    match (descOfReg r).bind fun d => d.fields.find? (·.acc == .w1c) with
    | some f => s.put f.f i 1
    | none => s

/-- A port is DISABLED: ENABLE clear and STATE reads DISABLED (R278). -/
def State.portIdle (s : State) (p : Nat) : Bool := !s.flag LK_PORT_CFG.ENABLE p && s.portState p == portDisabled

/-- The state rules and the ranges that depend on state: `new` may be placed in field `f` of entry `i`. -/
def State.mayPlace (s : State) (r : Reg) (i : Nat) (f : RegField) (new : Nat) : Bool :=
  match r with
  | .CF_CTX_CTRL | .CF_CTX_SQ | .CF_CTX_CQ => s.ctxState i == ctxDisabled && !s.flag CF_CTX_CTRL.ENABLE i
  | .CF_CTX_NOTIFY => f != CF_CTX_NOTIFY.NOTIFY_ADDR || new % 8 == 0
  | .LK_PORT_CFG =>
    if f == LK_PORT_CFG.ROLE then s.portIdle i
    else if f == LK_PORT_CFG.WIDTH then s.portIdle i && placed i new && s.noOverlap i new
    else true
  | .LP_PORT_CFG => s.portIdle i
  | .HS_LOG_CTRL => f != HS_LOG_CTRL.LOG2 || !s.flag HS_LOG_CTRL.ENABLE
  | .RU_GRP_CFG =>
    if f == RU_GRP_CFG.PART then s.get RU_GRP_CFG.STATE i == grpFree || s.get RU_GRP_CFG.STATE i == grpDefining
    else s.get RU_GRP_CFG.STATE i == grpDefining
  | .RU_GRP_PARENT => s.get RU_GRP_CFG.STATE i == grpDefining
  | .RU_MEMB_SEL => s.get RU_GRP_CFG.STATE (if f == RU_MEMB_SEL.GROUP then new else s.get RU_MEMB_SEL.GROUP) == grpDefining
  | .PT_PART_CFG | .PT_GROUP_SHARE => s.partState i != partFree
  | .PT_CTX_GROUP => s.ctxState i == ctxDisabled
  | .SC_PART_BUF =>
    if f == SC_PART_BUF.PROFILE then i < 64
    else if f == SC_PART_BUF.BUF_MAX then 34 ≤ new && new ≤ s.sharedCells
    else true
  | .CK_TIME_ADDEND => addendLow ≤ new && new < addendLow + addendSpan
  | .PS_UPD_ADDR => new % 4096 == 0
  | .RU_PART_CFG => f != RU_PART_CFG.SLOT_RES || s.get RU_PART_CFG.SLOT_HELD i ≤ new
  | _ => true

/-! ## Fares (R264, R444, Table 10.8) -/

/-- Word, place and width of a resource in a PT_FARE entry, and the least fare that is not 0. -/
def farePlace : Res → Nat × Nat × Nat × Nat
  | .nearA => (0, 0, 22, 16)
  | .nearB => (0, 22, 22, 16)
  | .deckA => (0, 44, 17, 2056)
  | .deckB => (1, 0, 17, 2056)
  | .engine => (1, 17, 21, 2458)
  | .tray => (1, 38, 22, 16)
  | .link => (2, 0, 22, 17)
  | .flash => (2, 22, 16, 0)

/-- A resource's field in the words of an entry. -/
def fareIn (r : Res) (word : Nat → Nat) : Nat :=
  let x := farePlace r
  word x.1 / 2 ^ x.2.1 % 2 ^ x.2.2.1

/-- The most a fare may be: the capacity, 98,304 cycles of a deck, FLASH_CAP. -/
def State.fareTop (s : State) (r : Res) : Nat :=
  match r with
  | .deckA | .deckB => 98304
  | .flash => s.get PT_CFG.FLASH_CAP
  | _ => s.capacity r

/-- The EXPERT fare a partition has committed, in force or waiting for the edge. -/
def State.committedFare (s : State) (p : Nat) (r : Res) : Nat :=
  match Tab.find s.pt.written (4 * p + (farePlace r).1) with
  | some w => fareIn r fun _ => w.toNat
  | none => s.get PT_FARE.RES (8 * p + resIdx r)

/-- Both sums of R264 hold. -/
def State.faresFit (s : State) : Bool :=
  let shared := s.partitions.filter fun p => s.get PT_PART_CFG.PROFILE p != 0
  Decidable.decide ((shared.foldl (fun n p => n + s.get PT_PART_CFG.SHARE p) 0) ≤ 256) &&
    allRes.all fun r =>
      Decidable.decide ((s.partitions.foldl (fun n p => n + (if s.get PT_PART_CFG.PROFILE p = 0 then s.committedFare p r
        else s.derivedFare (s.capacity r) p)) 0) ≤ s.capacity r)

/-- A written word of an entry: each changed field takes the value if it is 0 or from its minimum to the capacity; else it keeps
the old one, and the flag tells so (R12). -/
def State.fareMerge (s : State) (old new word : Nat) : Nat × Bool :=
  allRes.foldl (fun x r =>
    let y := farePlace r
    if y.1 ≠ word then x
    else
      let a := fareIn r fun _ => old
      let b := fareIn r fun _ => new
      if a = b ∨ b = 0 ∨ (y.2.2.2 ≤ b ∧ b ≤ s.fareTop r) then (x.1 + b * 2 ^ y.2.1, x.2) else (x.1 + a * 2 ^ y.2.1, true)) (0, false)

/-- Fares are written only in an EXPERT partition that exists and is not in TEARDOWN (R261, R398, Table 10.8). -/
def State.fareOpen (s : State) (p : Nat) : Bool :=
  p < 64 && s.partState p != partFree && s.partState p != partTeardown && s.get PT_PART_CFG.PROFILE p == 0

/-- A write of word +0x00 or +0x08 is held (R444). -/
def State.fareHold (s : State) (p w v : Nat) : State :=
  if s.fareOpen p then
    let x := s.fareMerge (s.fareWord p w) v w
    let s := { s with pt := { s.pt with hold := Tab.put s.pt.hold (2 * p + w) (BitVec.ofNat 64 x.1) } }
    if x.2 then s.put PT_PART_CFG.REFUSED p 1 else s
  else if p < 64 then s.put PT_PART_CFG.REFUSED p 1
  else s

/-- The words of an entry as a commit would leave them: held ones, then written ones, then those in force. -/
def State.fareWritten (s : State) (p : Nat) (w : Nat → Nat) : State :=
  let put (t : Tab Word) (k : Nat) : Tab Word := Tab.put t (4 * p + k) (BitVec.ofNat 64 (w k))
  { s with pt := { s.pt with written := put (put (put s.pt.written 0) 1) 2, hold := s.pt.hold.filter fun e => e.1 / 2 != p } }

/-- A write of word +0x10 commits the entry, or discards the held words and sets REFUSED where a sum would break (R444). -/
def State.fareCommit (s : State) (p v : Nat) : State :=
  if s.fareOpen p then
    let x := s.fareMerge (s.fareWord p 2) v 2
    let t := s.fareWritten p fun w => if w = 2 then x.1 else s.fareWord p w
    if t.faresFit then (if x.2 then t.put PT_PART_CFG.REFUSED p 1 else t)
    else ({ s with pt := { s.pt with hold := s.pt.hold.filter fun e => e.1 / 2 != p } } : State).put PT_PART_CFG.REFUSED p 1
  else if p < 64 then s.put PT_PART_CFG.REFUSED p 1
  else s

/-- FARE_COMMIT (R444). -/
def execFareCommit (up part : Nat) (value : Word) (s : State) : Host.Outcome State Fault Refusal :=
  .next (barWrite up (0x102010 + 32 * part) s fun s => s.fareCommit part value.toNat)

/-! ## Sums over entries -/

/-- The sum of a field over the 64 partitions. -/
def sum64 (f : Nat → Nat) : Nat := (List.range 64).foldl (fun n p => n + f p) 0

/-- The fields whose values together are bounded: a write that breaks the bound leaves all of them. -/
def boundCells (r : Reg) (i : Nat) : List (RegField × Nat) :=
  match r with
  | .CF_PART_QUOTA => [(CF_PART_QUOTA.SLOT_QUOTA, i)]
  | .CH_PART_CFG => [(CH_PART_CFG.PROFILE, i), (CH_PART_CFG.DIR_UNITS, i)]
  | .LK_PART_POOL => [(LK_PART_POOL.POOL, i)]
  | .LK_E2E_CFG => [(LK_E2E_CFG.RETX_US, i), (LK_E2E_CFG.NACK_US, i)]
  | .LK_PORT_CFG => [(LK_PORT_CFG.SPARE_SEL, i), (LK_PORT_CFG.SPARE_BOUND, i)]
  | .PT_PART_CFG => [(PT_PART_CFG.PROFILE, i), (PT_PART_CFG.SHARE, i)]
  | .PT_GROUP_SHARE => (List.range 8).map fun k => (PT_GROUP_SHARE.SHARE, 8 * i + k)
  | .RU_PART_CFG => [(RU_PART_CFG.SLOT_RES, i)]
  | .SC_PART_BUF => [(SC_PART_BUF.PROFILE, i), (SC_PART_BUF.BUF_MIN, i)]
  | .TM_PART_CFG => [(TM_PART_CFG.FQ_MAX, i)]
  | _ => []

/-- The bound holds (R48, R152, R233, R264, R267, R290, R297, R330, R342; NACK_US below RETX_US). -/
def State.boundHolds (s : State) (r : Reg) (i : Nat) : Bool :=
  match r with
  | .CF_PART_QUOTA => sum64 (fun p => s.get CF_PART_QUOTA.SLOT_QUOTA p) ≤ 16384
  | .CH_PART_CFG => sum64 s.dirUnits ≤ 256
  | .LK_PART_POOL => sum64 (fun p => s.get LK_PART_POOL.POOL p) ≤ 1784
  | .LK_E2E_CFG => s.get LK_E2E_CFG.NACK_US < s.get LK_E2E_CFG.RETX_US
  | .LK_PORT_CFG => !s.flag LK_PORT_CFG.SPARE_BOUND i ||
      ((List.range 128).map (· + i / 128 * 128)).all fun q => q == i || !s.flag LK_PORT_CFG.SPARE_BOUND q ||
        s.get LK_PORT_CFG.SPARE_SEL q != s.get LK_PORT_CFG.SPARE_SEL i
  | .PT_PART_CFG => s.faresFit
  | .PT_GROUP_SHARE => (List.range 8).foldl (fun n k => n + s.get PT_GROUP_SHARE.SHARE (8 * i + k)) 0 ≤ 64
  | .RU_PART_CFG => sum64 (fun p => s.get RU_PART_CFG.SLOT_RES p) ≤ 512
  | .SC_PART_BUF => s.bufMinSum ≤ s.sharedCells
  | .TM_PART_CFG => sum64 (fun p => s.get TM_PART_CFG.FQ_MAX p) ≤ 32768
  | _ => true

/-! ## Fields of one word (R440, R442, Table 19.2) -/

/-- Fields whose write is an event of its own: `afterFields` gives them their effect. -/
def actingFields : List RegField :=
  [CF_CTX_CTRL.ENABLE, CF_CTX_CTRL.PAUSE, LK_PORT_CFG.ENABLE, LP_PORT_CFG.FENCE, HS_LOG_CTRL.ENABLE, HS_LOG_CTRL.HEAD,
   LP_EPOCH.STAGED_EPOCH, RU_GRP_CFG.ACTIVATE, DK_FULL_SAVE.QUIESCE]

/-- Part `k` of a field takes its part of the word by its access code; the flag tells a refusal. -/
def State.writeField (s : State) (up off : Nat) (r : Reg) (i v : Nat) (f : FieldPos) (k : Nat) : State × Bool :=
  let e := f.entry i k
  let new := f.value v k
  match f.acc with
  | .w1c => (if new = 1 then s.put f.f e 0 else s, false)
  | .rw | .rwl =>
    if actingFields.contains f.f || new == s.get f.f e then (s, false)
    else if s.locked f.f then (s.countAccess accLocked up off, true)
    else if f.lo ≤ new && new ≤ f.hi && s.mayPlace r i f.f new then (s.put f.f e new, false)
    else (s, true)
  | _ => (s, false)

/-- Every field of a word. -/
def State.writeFields (s : State) (up off : Nat) (d : RegDesc) (i w v : Nat) : State × Bool :=
  let parts := (d.fields.filter (·.word == w)).flatMap fun f => (List.range f.per).map fun k => (f, k)
  parts.foldl (fun x p =>
    let y := x.1.writeField up off d.reg i v p.1 p.2
    (y.1, x.2 || y.2)) (s, false)

/-- A word is written: its fields, then the bound over them; a refusal shows (R12). -/
def State.writeWord (s : State) (up off : Nat) (d : RegDesc) (i w v : Nat) : State :=
  let x := s.writeFields up off d i w v
  let cells := boundCells d.reg i
  let broken := cells.any (fun c => x.1.get c.1 c.2 != s.get c.1 c.2) && !x.1.boundHolds d.reg i
  let t := if broken then cells.foldl (fun t c => t.put c.1 c.2 (s.get c.1 c.2)) x.1 else x.1
  if broken || x.2 then t.setRefused d.reg i else t

/-! ## What a written word starts -/

/-- A bit of a written word. -/
def bitAt (v n : Nat) : Bool := v.testBit n

/-- CF_CTX_CTRL: PAUSE, then ENABLE (Table 2.1, R30). -/
def State.contextControl (s : State) (c v : Nat) : State :=
  let s := if bitAt v 1 == s.flag CF_CTX_CTRL.PAUSE c then s else if bitAt v 1 then s.contextPause c else s.contextResume c
  let on := s.flag CF_CTX_CTRL.ENABLE c
  if bitAt v 0 then
    if s.ctxState c = ctxDraining ∨ s.ctxState c = ctxError then s.put CF_CTX_STATE.REFUSED c 1
    else if on then s else s.contextEnable c
  else if on || s.ctxState c == ctxError then s.contextDisable c
  else s

/-- HS_LOG_CTRL: ENABLE starts the ring, HEAD consumes entries (R375). -/
def State.logControl (s : State) (v : Nat) : State :=
  let on := s.flag HS_LOG_CTRL.ENABLE
  if bitAt v 0 && !on then s.logStart
  else
    let s := if v / 65536 % 65536 = s.get HS_LOG_CTRL.HEAD then s else s.logHead (v / 65536 % 65536)
    if bitAt v 0 then s else s.put HS_LOG_CTRL.ENABLE 0 0

/-- RU_GRP_CFG: PART written in FREE makes the entry DEFINING; ACTIVATE acts on the state the write met (Table 6.3). -/
def State.groupControl (s : State) (before g v : Nat) : State :=
  if before = grpFree then
    let s := s.put RU_GRP_CFG.STATE g grpDefining
    if bitAt v 0 then s.put RU_GRP_CFG.REFUSED g 1 else s
  else if bitAt v 0 then (if before = grpDefining then s.groupActivate g else s)
  else if s.flag RU_GRP_CFG.ACTIVATE g then s.groupDrain g
  else s

/-- DK_FULL_SAVE: an OP written while BUSY is discarded and counted (R445); QUIESCE; OP 1 and 2 (R276). -/
def State.deckControl (s : State) (up off : Nat) (d : DeckId) (v : Nat) : State :=
  let i := deckNo d
  let q := s.flag DK_FULL_SAVE.QUIESCE i
  let s := if bitAt v 0 == q then s else if bitAt v 0 then s.setQuiesce d else s.clearQuiesce d
  let op := v / 4 % 4
  if op = 0 then s
  else if s.flag DK_FULL_SAVE.BUSY i then s.countAccess accBusy up off
  else if op = 3 then s
  else s.fullSave d op

/-- LP_EPOCH: STAGED_EPOCH, then ACTIVATE (R318). -/
def State.epochControl (s : State) (p v : Nat) : State :=
  let s := s.writeStagedEpoch p (v / 65536 % 256)
  if bitAt v 24 then s.activateEpoch p else s

/-- LP_PORT_CFG.FENCE (R323). -/
def State.fenceControl (s : State) (p v : Nat) : State :=
  if bitAt v 23 == s.flag LP_PORT_CFG.FENCE p then s
  else if bitAt v 23 then s.fencePort p else s.put LP_PORT_CFG.FENCE p 0

/-- LK_PORT_CFG.ENABLE (R278, R285). -/
def State.portControl (s : State) (p v : Nat) : State :=
  if bitAt v 0 == s.flag LK_PORT_CFG.ENABLE p then s
  else if bitAt v 0 then s.portEnable p else s.portDisable p

/-- The effect of a written word beyond its fields; `before` is the state the write met. -/
def State.afterFields (s before : State) (up off : Nat) (r : Reg) (i v : Nat) : State :=
  match r with
  | .CF_CTX_CTRL => s.contextControl i v
  | .LK_PORT_CFG => s.portControl i v
  | .LP_PORT_CFG => s.fenceControl i v
  | .HS_LOG_CTRL => s.logControl v
  | .LP_EPOCH => s.epochControl i v
  | .RU_GRP_CFG => s.groupControl (before.get RU_GRP_CFG.STATE i) i v
  | .DK_FULL_SAVE => s.deckControl up off (if i = 0 then .a else .b) v
  | .PS_BOOT_CFG => if bitAt v 0 then s.commitSvn else s
  | .CK_TIME_SEC_NEXT => { s with tb := { s.tb with secNextNew := true } }
  | .HS_PART_STATE => if bitAt v 9 then s.contain i .request else s
  | .PM_RAS_CFG => s.retireChannel (v / 2 ^ 32 % 1024)
  | .TM_GCL_CTRL => if bitAt v 38 then s.gclCommit i else s
  | .TM_SVC_SHAPE => { s with tm := { s.tm with svcBucket := Tab.erase s.tm.svcBucket i } }
  | .TM_SUB_SHAPE => { s with tm := { s.tm with subBucket := Tab.erase s.tm.subBucket i } }
  | _ => s

/-- TM_GCL_DATA: the selected entry of the selected port's PENDING list; a DURATION of 0 is refused (R351, R359). -/
def State.writeGate (s : State) (v : Nat) : State :=
  let k := s.get TM_GCL_SEL.PORT * 256 + s.get TM_GCL_SEL.ENTRY
  let old := Tab.get 0 s.tm.pendData k
  let dur := v / 256 % 2 ^ 24
  let keep := dur == 0 && old / 256 != 0
  let s := { s with tm := { s.tm with pendData := Tab.set 0 s.tm.pendData k (v % 256 + 256 * (if keep then old / 256 else dur)) } }
  if keep then s.setRefused .TM_GCL_DATA 0 else s

/-- RU_MEMB_DATA: a member of the selected group, only while it is DEFINING (Table 6.3). -/
def State.writeMember (s : State) (v : Nat) : State :=
  let g := s.get RU_MEMB_SEL.GROUP
  let m := s.get RU_MEMB_SEL.MEMBER
  let new : Word := BitVec.ofNat 64 (v % 4 + v / 2 ^ 16 % 2 ^ 40 * 2 ^ 16)
  if new = s.memberWord g m then s
  else if s.get RU_GRP_CFG.STATE g = grpDefining then
    { s with co := { s.co with members := Tab.set 0 s.co.members (g * 512 + m) new } }
  else s.setRefused .RU_MEMB_DATA 0

/-- PS_DIGEST_DATA: the fields of the selected entry, which keeps them while LIVE, and a value out of its range (R12, Table 16.5);
then OP (R394, R443). -/
def State.writeSeal (s : State) (up w v : Nat) : State :=
  let n := s.get PS_DIGEST_SEL.ENTRY
  let x := s.sealEntry n
  if w = 0 then
    let off := v / 2 ^ 36 % 2 ^ 14
    if x.live then s
    else s.setSeal n { x with part := v / 4 % 64, kind := v / 256 % 16, handle := v / 2 ^ 12 % 2 ^ 24,
                              offset := if off + x.length ≤ 16384 then off else x.offset }
  else if w = 1 then
    let len := v % 32768
    let s := if x.live || len == 0 || 16384 < x.offset + len then s else s.setSeal n { x with length := len }
    s.digestOp up (v / 65536 % 4)
  else s

/-- TY_TB_CMD.OP (R237, R239). -/
def State.trayCommand (s : State) (v : Nat) : State :=
  match v % 4 with
  | 1 => s.allocTray
  | 2 => s.freeTray
  | 3 => s.rebuildTray (v / 128 % 64)
  | _ => s

/-- TY_TB_DATA (R237). -/
def State.trayData (s : State) (v : Nat) : State :=
  let x := s.writeTrayData v
  if x.2 then x.1.setRefused .TY_TB_DATA 0 else x.1

/-- A word is written to register `r`: windows and commands have writes of their own, every other register its fields and what
they start. -/
def State.writeRegister (s : State) (up off : Nat) (d : RegDesc) (i w v : Nat) : State :=
  match d.reg with
  | .HS_RESET => s.resetWrite (BitVec.ofNat 64 v)
  | .CK_TIME_SET => s.setSeconds (BitVec.ofNat 64 v)
  | .PT_PART_CMD => s.partCmd (v % 64) (v / 64 % 4)
  | .PT_FARE => if w < 2 then s.fareHold i w v else if w = 2 then s.fareCommit i v else s
  | .PM_BERTH_DATA => s.writeBerthData v
  | .PM_BERTH_LEASE => s.writeBerthLease v
  | .PM_BERTH_CMD => s.berthOp (v % 8)
  | .LP_ROUTE_SEL => s.routeSelWrite (BitVec.ofNat 64 v)
  | .LP_MAP_SEL => s.mapSelWrite (BitVec.ofNat 64 v)
  | .SC_MC_SEL => s.mcSelWrite (BitVec.ofNat 64 v)
  | .LK_LANE_RETIRE => s.laneRetireWrite (BitVec.ofNat 64 v)
  | .SC_BANK_RETIRE => s.bankRetireWrite (v % 1024)
  | .TY_TB_DATA => s.trayData v
  | .TY_TB_CMD => s.trayCommand v
  | .FL_FB_DATA => s.writeFlashData v
  | .RU_MEMB_DATA => s.writeMember v
  | .TM_GCL_DATA => s.writeGate v
  | .PS_DIGEST_DATA => s.writeSeal up w v
  | .PS_UPD_CMD => if bitAt v 0 then s.updateStart up else s
  | r => (s.writeWord up off d i w v).afterFields s up off r i v

/-! ## A write (R438, R439, R445, R446) -/

/-- One 8-byte register write. -/
def State.writeAt (s : State) (up off v : Nat) : State :=
  match regAt off with
  | none => s.countAccess accUnmapped up off
  | some (d, i, w) =>
    if !s.takesWrite d.reg then s.countAccess accState up off
    else if s.busyGuard d.reg then s.countAccess accBusy up off
    else if s.tearing d.reg i then s.setRefused d.reg i
    else s.writeRegister up off d i w v

/-- The form R438 asks of a write. -/
def writeForm (off len : Nat) (allEnabled : Bool) : Bool :=
  allEnabled && 8 ≤ len && len ≤ 64 && len % 8 == 0 && off % 8 == 0 && off / 64 == (off + len - 1) / 64

/-- The 16-byte entry of the MSI-X table as one number: address, then data and vector control. -/
def State.msixEntry (s : State) : Nat := s.mg.msixAddr + 2 ^ 64 * s.mg.msixData

/-- A write in the MSI-X table: whole aligned doublewords. Unmasking the vector sends the message that waits (R436). -/
def State.msixWrite (s : State) (off : Nat) (data : List Byte) (allEnabled : Bool) : State :=
  let o := off - 0x1F00000
  if allEnabled && o + data.length ≤ 16 && o % 4 == 0 && data.length % 4 == 0 then
    let bs := leBytes 16 s.msixEntry
    let e := leNat (bs.take o ++ data ++ bs.drop (o + data.length))
    let s := { s with mg := { s.mg with msixAddr := e % 2 ^ 64 / 4 * 4, msixData := e / 2 ^ 64 % 2 ^ 33 } }
    if s.mg.msixPend = 1 && !s.mg.msixData.testBit 32 then ({ s with mg := { s.mg with msixPend := 0 } } : State).signalMsi
    else s
  else s

/-- A write of BAR0. -/
def State.barWriteData (s : State) (up off : Nat) (data : List Byte) (allEnabled : Bool) : State :=
  if inMsix off then (if s.released then s.msixWrite off data allEnabled else s)
  else if writeForm off data.length allEnabled then
    (List.range (data.length / 8)).foldl (fun s j => s.writeAt up (off + 8 * j) (leNat ((data.drop (8 * j)).take 8))) s
  else s.countAccess accBadSize up off

/-- BAR0 answers: two ports, a module that is not OFF, 32 MiB (R435). -/
def State.barOpen (s : State) (up off : Nat) : Bool := up < 2 && s.modState != modOff && off < 0x2000000

/-- REGISTER_WRITE (R440). -/
def execRegisterWrite (up offset : Nat) (data : List Byte) (allEnabled : Bool) (s : State) : Host.Outcome State Fault Refusal :=
  .next (if s.barOpen up offset then (s.viaUp up).barWriteData up offset data allEnabled else s)

/-! ## A read (R438 to R442) -/

/-- Granule reads in flight of a gather unit, numbered as GU_UNIT_STATUS does: of its deck's tiles, those not arrived (Table 5.14). -/
def State.unitInflight (s : State) (i : Nat) : Nat :=
  let d := if i < 9 then s.deckA else s.deckB
  min 4096 ((d.scratch.filter fun t => t.unit == i % 9).map fun t => t.need - t.got).sum

/-- The value of a field as it stands now: those that count over 24 hours or 30 days, and those that other state holds (Tables 5.14,
5.17, 7.15, 13.13 and 15.12). -/
def State.liveField (s : State) (f : RegField) (e : Nat) : Nat :=
  if f == PM_CHAN_STATUS.CE_24H || f == SC_BANK_STATUS.CE_24H || f == DK_COL_STATUS.MISMATCH_24H || f == DK_COL_STATUS.RESIDUE_24H then
    s.dayCount f e
  else if f == PM_CHAN_STATUS.MIG_PCT && s.get PM_CHAN_STATUS.STATE e == 1 then s.migPct e
  else if f == GU_UNIT_STATUS.INFLIGHT then s.unitInflight e
  else if f == FU_UNIT_STATUS.BUSY then if s.heldUnits.any (·.1 == e) then 1 else 0
  else if f == FU_UNIT_STATUS.PART then ((s.heldUnits.find? (·.1 == e)).map (·.2)).getD 0
  else if f == SC_STATUS.OVERCOMMIT then if s.minsScaled then 1 else 0
  else if f == HS_PART_AVAIL.WINDOW_STALL_US then s.windowStall e
  else s.get f e

/-- A word from its fields; WO fields read zero. -/
def State.storedWord (s : State) (d : RegDesc) (i w : Nat) : Nat :=
  (d.fields.filter fun f => f.word == w && f.acc != .wo).foldl (fun n f =>
    (List.range f.per).foldl (fun n k => n + s.liveField f.f (f.entry i k) * 2 ^ (f.lsb + f.gap * k)) n) 0

/-- A word as it reads: the fields that other state holds, and the windows onto what a selector names. -/
def State.readWord (s : State) (d : RegDesc) (i w : Nat) : Nat :=
  match d.reg with
  | .CK_TIME_SEC => s.tb.sec
  | .LP_EPOCH => s.storedWord d i w + 2 ^ 32 * (s.prevInflight i % 2 ^ 32)
  | .PS_ID => s.storedWord d i w / 256 * 256 + s.ps.stepping.toNat + 2 ^ 32 * (s.ps.uid.toNat % 2 ^ 32)
  | .PS_UID => s.ps.uid.toNat
  | .PS_BOOT_STATUS => s.storedWord d i w + 16 * (s.ps.svnCount % 64) + 1024 * debugCode s.ps.debug
  | .PS_LOCK_STATUS => s.storedWord d i w + (if s.pm.saltLocked then 1 else 0)
  | .PS_DIGEST_DATA => leNat (((s.sealBytes (s.get PS_DIGEST_SEL.ENTRY)).drop (8 * w)).take 8)
  | .PT_FARE => s.fareWord i w
  | .PT_CAP => s.capWord w
  | .PM_BERTH_DATA => s.berthDataWord
  | .PM_BERTH_LEASE => s.berthLeaseWord
  | .TY_TB_DATA => s.trayDataWord
  | .FL_FB_DATA => s.flashDataWord
  | .RU_MEMB_DATA => (s.memberWord (s.get RU_MEMB_SEL.GROUP) (s.get RU_MEMB_SEL.MEMBER)).toNat
  | .TM_GCL_DATA => Tab.get 0 s.tm.pendData (s.get TM_GCL_SEL.PORT * 256 + s.get TM_GCL_SEL.ENTRY)
  | _ => s.storedWord d i w

/-- The bytes `lo` to `hi` (exclusive) of BAR0 cover part `k` of a field of the word at `off` whole (R441). -/
def FieldPos.covered (f : FieldPos) (k off lo hi : Nat) : Bool :=
  let b := f.lsb + f.gap * k
  lo ≤ off + b / 8 && off + (b + f.width - 1) / 8 < hi

/-- An RC field is cleared by a read that covers it whole. -/
def State.clearRead (s : State) (d : RegDesc) (i w off lo hi : Nat) : State :=
  (d.fields.filter fun f => f.word == w && f.acc == .rc).foldl (fun s f =>
    (List.range f.per).foldl (fun s k =>
      if f.covered k off lo hi then
        if f.f == PS_DIGEST_DATA.REFUSED_WR then
          let n := s.get PS_DIGEST_SEL.ENTRY
          s.setSeal n { s.sealEntry n with refused := 0 }
        else s.put f.f (f.entry i k) 0
      else s) s) s

/-- One 8-byte register read: its value, and the state after it. A read of CK_TIME_SEC latches CK_TIME_NS (R410). -/
def State.readAt (s : State) (up off lo hi : Nat) : Nat × State :=
  match regAt off with
  | none => (0, s.countAccess accUnmapped up off)
  | some (d, i, w) =>
    if !s.responds d then (0, s)
    else
      let v := s.readWord d i w
      let s := if d.reg = .CK_TIME_SEC then s.latchNs else s
      (v, s.clearRead d i w off lo hi)

/-- The words of a read in ascending order. -/
def State.readWords (s : State) (up off len : Nat) : List Byte × State :=
  let first := off / 8 * 8
  (List.range ((off + len + 7) / 8 - off / 8)).foldl (fun x j =>
    let y := x.2.readAt up (first + 8 * j) off (off + len)
    (x.1 ++ leBytes 8 y.1, y.2)) ([], s)

/-- The bytes a read of the MSI-X block returns (R436). -/
def State.msixRead (s : State) (off len : Nat) : List Byte :=
  (List.range len).map fun i =>
    let o := off + i - 0x1F00000
    if o < 16 then (leBytes 16 s.msixEntry).getD o 0#8 else if o = 0x1000 then BitVec.ofNat 8 s.mg.msixPend else 0#8

/-- A read of BAR0: the bytes it returns, and the state after it. -/
def State.barReadData (s : State) (up off len : Nat) : List Byte × State :=
  let n := min len 4096
  if inMsix off then (if s.released then s.msixRead off n else List.replicate n 0#8, s)
  else if 1 ≤ len ∧ len ≤ 64 ∧ off / 64 = (off + len - 1) / 64 then
    let x := s.readWords up off len
    ((x.1.drop (off % 8)).take len, x.2)
  else (List.replicate n 0#8, s.countAccess accBadSize up off)

/-- RC_REGISTER_READ (R441). -/
def execRcRegisterRead (up offset len : Nat) (s : State) : Host.Outcome State Fault Refusal :=
  .next (if s.barOpen up offset then
      let x := (s.viaUp up).barReadData up offset len
      x.2.emit (.readData up x.1)
    else s)

end Sys2Proof.Machine
end

