-- ==== Sys2Proof/Machine/Dispatch.lean ====
section
/-! DEFINITION. The command dispatch: one arm per constructor of `Instr`, in the opcode table's order. -/

namespace Sys2Proof.Machine

/-- A command's effect on everything but the queue. -/
def exec (i : Instr) (s : State) : Host.Outcome State Fault Refusal :=
  match i with
  | .powerGood s0 s1 s2 => Sys2Proof.Machine.execPowerGood s0 s1 s2 s
  | .bootRom => Sys2Proof.Machine.execBootRom s
  | .hubRelease => Sys2Proof.Machine.execHubRelease s
  | .stackTrainingDone failed => Sys2Proof.Machine.execStackTrainingDone failed s
  | .zeroFillDone => Sys2Proof.Machine.execZeroFillDone s
  | .deckSelfTest failing => Sys2Proof.Machine.execDeckSelfTest failing s
  | .refclkCheck present ppm10 => Sys2Proof.Machine.execRefclkCheck present ppm10 s
  | .clockLoss pll => Sys2Proof.Machine.execClockLoss pll s
  | .railCheck bad => Sys2Proof.Machine.execRailCheck bad s
  | .inputVoltageChange deciVolt heldUs => Sys2Proof.Machine.execInputVoltageChange deciVolt heldUs s
  | .powerFail => Sys2Proof.Machine.execPowerFail s
  | .powerSample watts deciAmps => Sys2Proof.Machine.execPowerSample watts deciAmps s
  | .tideEdge => Sys2Proof.Machine.execTideEdge s
  | .thermalSample readings => Sys2Proof.Machine.execThermalSample readings s
  | .thermalLevelUpdate => Sys2Proof.Machine.execThermalLevelUpdate s
  | .fatalError cause => Sys2Proof.Machine.execFatalError cause s
  | .d2dLaneRepair link repaired => Sys2Proof.Machine.execD2dLaneRepair link repaired s
  | .purserFail => Sys2Proof.Machine.execPurserFail s
  | .resetN lowNs => Sys2Proof.Machine.execResetN lowNs s
  | .moduleReset cause => Sys2Proof.Machine.execModuleReset cause s
  | .hsReset up value => Sys2Proof.Machine.execHsReset up value s
  | .perstN up kind => Sys2Proof.Machine.execPerstN up kind s
  | .enableN high heldUs => Sys2Proof.Machine.execEnableN high heldUs s
  | .cblPrsntN die group present stableMs => Sys2Proof.Machine.execCblPrsntN die group present stableMs s
  | .sprPrsntN die present stableMs => Sys2Proof.Machine.execSprPrsntN die present stableMs s
  | .fprsntN drive present stableMs => Sys2Proof.Machine.execFprsntN drive present stableMs s
  | .ppsEdge highNs lowNs => Sys2Proof.Machine.execPpsEdge highNs lowNs s
  | .ppsHoldover => Sys2Proof.Machine.execPpsHoldover s
  | .ckTimeSet up value => Sys2Proof.Machine.execCkTimeSet up value s
  | .ckTimeSecRead up => Sys2Proof.Machine.execCkTimeSecRead up s
  | .timeSync port p arrival => Sys2Proof.Machine.execTimeSync port p arrival s
  | .syncSend => Sys2Proof.Machine.execSyncSend s
  | .delayReq port p arrival => Sys2Proof.Machine.execDelayReq port p arrival s
  | .delayReqSend => Sys2Proof.Machine.execDelayReqSend s
  | .delayRsp port p => Sys2Proof.Machine.execDelayRsp port p s
  | .registerWrite up offset data allEnabled => Sys2Proof.Machine.execRegisterWrite up offset data allEnabled s
  | .fareCommit up part value => Sys2Proof.Machine.execFareCommit up part value s
  | .contextEnable ctx => Sys2Proof.Machine.execContextEnable ctx s
  | .contextDisable ctx => Sys2Proof.Machine.execContextDisable ctx s
  | .contextPause ctx => Sys2Proof.Machine.execContextPause ctx s
  | .contextResume ctx => Sys2Proof.Machine.execContextResume ctx s
  | .contextDrainComplete ctx => Sys2Proof.Machine.execContextDrainComplete ctx s
  | .db f => Sys2Proof.Machine.execDb f s
  | .completionHeadDoorbell f => Sys2Proof.Machine.execCompletionHeadDoorbell f s
  | .descriptorFetch ctx => Sys2Proof.Machine.execDescriptorFetch ctx s
  | .commandDispatch cid => Sys2Proof.Machine.execCommandDispatch cid s
  | .recordCommit cid => Sys2Proof.Machine.execRecordCommit cid s
  | .commandTimeout cid => Sys2Proof.Machine.execCommandTimeout cid s
  | .nop cid => Sys2Proof.Machine.execNop cid s
  | .abort cid => Sys2Proof.Machine.execAbort cid s
  | .cross cid => Sys2Proof.Machine.execCross cid s
  | .score cid => Sys2Proof.Machine.execScore cid s
  | .matmul cid => Sys2Proof.Machine.execMatmul cid s
  | .search cid => Sys2Proof.Machine.execSearch cid s
  | .select cid => Sys2Proof.Machine.execSelect cid s
  | .gather cid => Sys2Proof.Machine.execGather cid s
  | .filter cid => Sys2Proof.Machine.execFilter cid s
  | .append cid => Sys2Proof.Machine.execAppend cid s
  | .merge cid => Sys2Proof.Machine.execMerge cid s
  | .reduce cid => Sys2Proof.Machine.execReduce cid s
  | .copy cid => Sys2Proof.Machine.execCopy cid s
  | .manifestStart cid => Sys2Proof.Machine.execManifestStart cid s
  | .manifestStop cid => Sys2Proof.Machine.execManifestStop cid s
  | .fill cid => Sys2Proof.Machine.execFill cid s
  | .bind cid => Sys2Proof.Machine.execBind cid s
  | .clean cid => Sys2Proof.Machine.execClean cid s
  | .evict cid => Sys2Proof.Machine.execEvict cid s
  | .acquire cid => Sys2Proof.Machine.execAcquire cid s
  | .publishUpdate cid => Sys2Proof.Machine.execPublishUpdate cid s
  | .publishInit cid => Sys2Proof.Machine.execPublishInit cid s
  | .publishXfer cid => Sys2Proof.Machine.execPublishXfer cid s
  | .publishFree cid => Sys2Proof.Machine.execPublishFree cid s
  | .fence cid => Sys2Proof.Machine.execFence cid s
  | .flushComplete cid => Sys2Proof.Machine.execFlushComplete cid s
  | .atomicAdd cid => Sys2Proof.Machine.execAtomicAdd cid s
  | .atomicOr cid => Sys2Proof.Machine.execAtomicOr cid s
  | .atomicAnd cid => Sys2Proof.Machine.execAtomicAnd cid s
  | .atomicMax cid => Sys2Proof.Machine.execAtomicMax cid s
  | .atomicMin cid => Sys2Proof.Machine.execAtomicMin cid s
  | .atomicSwap cid => Sys2Proof.Machine.execAtomicSwap cid s
  | .atomicCas cid => Sys2Proof.Machine.execAtomicCas cid s
  | .semInit cid => Sys2Proof.Machine.execSemInit cid s
  | .semGive cid => Sys2Proof.Machine.execSemGive cid s
  | .semFree cid => Sys2Proof.Machine.execSemFree cid s
  | .wait cid => Sys2Proof.Machine.execWait cid s
  | .handoffCreate cid => Sys2Proof.Machine.execHandoffCreate cid s
  | .handoffOffer cid => Sys2Proof.Machine.execHandoffOffer cid s
  | .handoffConfirm cid => Sys2Proof.Machine.execHandoffConfirm cid s
  | .handoffQuery cid => Sys2Proof.Machine.execHandoffQuery cid s
  | .handoffRelease cid => Sys2Proof.Machine.execHandoffRelease cid s
  | .handoffDeadline line => Sys2Proof.Machine.execHandoffDeadline line s
  | .homeAnswer cid => Sys2Proof.Machine.execHomeAnswer cid s
  | .acquireTimeout cid => Sys2Proof.Machine.execAcquireTimeout cid s
  | .waitTimeout cid => Sys2Proof.Machine.execWaitTimeout cid s
  | .semLeaseExpiry line ctx => Sys2Proof.Machine.execSemLeaseExpiry line ctx s
  | .homeNextRequest line => Sys2Proof.Machine.execHomeNextRequest line s
  | .homeBatchApply line => Sys2Proof.Machine.execHomeBatchApply line s
  | .rdS f => Sys2Proof.Machine.execRdS f s
  | .rdO f => Sys2Proof.Machine.execRdO f s
  | .upg f => Sys2Proof.Machine.execUpg f s
  | .rdU f => Sys2Proof.Machine.execRdU f s
  | .wrU f => Sys2Proof.Machine.execWrU f s
  | .atomicFrame f => Sys2Proof.Machine.execAtomicFrame f s
  | .tallySt f => Sys2Proof.Machine.execTallySt f s
  | .wb f => Sys2Proof.Machine.execWb f s
  | .snpAck f miss dirty wbPending => Sys2Proof.Machine.execSnpAck f miss dirty wbPending s
  | .snoopTargetLost line target => Sys2Proof.Machine.execSnoopTargetLost line target s
  | .replyCacheExpiry src tag => Sys2Proof.Machine.execReplyCacheExpiry src tag s
  | .ld f events => Sys2Proof.Machine.execLd f events s
  | .stNp f => Sys2Proof.Machine.execStNp f s
  | .st f events => Sys2Proof.Machine.execSt f events s
  | .ldData rid status p => Sys2Proof.Machine.execLdData rid status p s
  | .stRsp f => Sys2Proof.Machine.execStRsp f s
  | .contrib f => Sys2Proof.Machine.execContrib f s
  | .result f => Sys2Proof.Machine.execResult f s
  | .doneFrame f => Sys2Proof.Machine.execDoneFrame f s
  | .contribTimeout group seq => Sys2Proof.Machine.execContribTimeout group seq s
  | .reduceChunkComplete job => Sys2Proof.Machine.execReduceChunkComplete job s
  | .groupActivate group => Sys2Proof.Machine.execGroupActivate group s
  | .groupDrain group => Sys2Proof.Machine.execGroupDrain group s
  | .groupDrainComplete group => Sys2Proof.Machine.execGroupDrainComplete group s
  | .ack f => Sys2Proof.Machine.execAck f s
  | .ackTimer flow => Sys2Proof.Machine.execAckTimer flow s
  | .nack f => Sys2Proof.Machine.execNack f s
  | .gapNackTimer flow => Sys2Proof.Machine.execGapNackTimer flow s
  | .retxTimer flow seq => Sys2Proof.Machine.execRetxTimer flow seq s
  | .credit port p => Sys2Proof.Machine.execCredit port p s
  | .creditSend port => Sys2Proof.Machine.execCreditSend port s
  | .lparam port p => Sys2Proof.Machine.execLparam port p s
  | .laneCtl port lane a => Sys2Proof.Machine.execLaneCtl port lane a s
  | .codewordUncorrectable port lane => Sys2Proof.Machine.execCodewordUncorrectable port lane s
  | .frameForward port f => Sys2Proof.Machine.execFrameForward port f s
  | .bufferAdmission index => Sys2Proof.Machine.execBufferAdmission index s
  | .frameSelect egress bankWord => Sys2Proof.Machine.execFrameSelect egress bankWord s
  | .reseqGapTimeout point flow => Sys2Proof.Machine.execReseqGapTimeout point flow s
  | .reseqFlowEvict port flow => Sys2Proof.Machine.execReseqFlowEvict port flow s
  | .frameAgeOut fid => Sys2Proof.Machine.execFrameAgeOut fid s
  | .tokenBucketRefill => Sys2Proof.Machine.execTokenBucketRefill s
  | .gateEntryBoundary port => Sys2Proof.Machine.execGateEntryBoundary port s
  | .gclCommit port => Sys2Proof.Machine.execGclCommit port s
  | .gclActivate port => Sys2Proof.Machine.execGclActivate port s
  | .leakAuditPass unmarked doubles mismatch => Sys2Proof.Machine.execLeakAuditPass unmarked doubles mismatch s
  | .bankRetire bank => Sys2Proof.Machine.execBankRetire bank s
  | .mcWrite up value => Sys2Proof.Machine.execMcWrite up value s
  | .portEnable port => Sys2Proof.Machine.execPortEnable port s
  | .portDisable port => Sys2Proof.Machine.execPortDisable port s
  | .trainingStepDone port => Sys2Proof.Machine.execTrainingStepDone port s
  | .trainingStepTimeout port failedLanes => Sys2Proof.Machine.execTrainingStepTimeout port failedLanes s
  | .trainingRetry port => Sys2Proof.Machine.execTrainingRetry port s
  | .linkLost port => Sys2Proof.Machine.execLinkLost port s
  | .laneFailure die lane => Sys2Proof.Machine.execLaneFailure die lane s
  | .lkLaneRetire up value => Sys2Proof.Machine.execLkLaneRetire up value s
  | .portFence port => Sys2Proof.Machine.execPortFence port s
  | .routeWrite up value => Sys2Proof.Machine.execRouteWrite up value s
  | .mapWrite up value => Sys2Proof.Machine.execMapWrite up value s
  | .epochActivate part => Sys2Proof.Machine.execEpochActivate part s
  | .epochRetire part expired => Sys2Proof.Machine.execEpochRetire part expired s
  | .grant up => Sys2Proof.Machine.execGrant up s
  | .moor up => Sys2Proof.Machine.execMoor up s
  | .renew up => Sys2Proof.Machine.execRenew up s
  | .unmoor up => Sys2Proof.Machine.execUnmoor up s
  | .revoke up => Sys2Proof.Machine.execRevoke up s
  | .leaseEnd part slot => Sys2Proof.Machine.execLeaseEnd part slot s
  | .graceEnd part slot => Sys2Proof.Machine.execGraceEnd part slot s
  | .drainUsExpiry part slot => Sys2Proof.Machine.execDrainUsExpiry part slot s
  | .drainComplete part slot => Sys2Proof.Machine.execDrainComplete part slot s
  | .scrubComplete part slot => Sys2Proof.Machine.execScrubComplete part slot s
  | .patrolScrub events => Sys2Proof.Machine.execPatrolScrub events s
  | .rowRepair chan row => Sys2Proof.Machine.execRowRepair chan row s
  | .channelRetireRequest chan => Sys2Proof.Machine.execChannelRetireRequest chan s
  | .migrationComplete chan => Sys2Proof.Machine.execMigrationComplete chan s
  | .channelFail chan => Sys2Proof.Machine.execChannelFail chan s
  | .granuleReadReturn cid sec ent isV granules => Sys2Proof.Machine.execGranuleReadReturn cid sec ent isV granules s
  | .gatherUnitError unit retire => Sys2Proof.Machine.execGatherUnitError unit retire s
  | .filterUnitError unit retire => Sys2Proof.Machine.execFilterUnitError unit retire s
  | .reduceUnitError unit retire => Sys2Proof.Machine.execReduceUnitError unit retire s
  | .filterTransferBoundary cid => Sys2Proof.Machine.execFilterTransferBoundary cid s
  | .legBoundary deck => Sys2Proof.Machine.execLegBoundary deck s
  | .passStep deck residueFail => Sys2Proof.Machine.execPassStep deck residueFail s
  | .legEnd deck audit => Sys2Proof.Machine.execLegEnd deck audit s
  | .legReexecution deck fails => Sys2Proof.Machine.execLegReexecution deck fails s
  | .suspectExpiry deck col => Sys2Proof.Machine.execSuspectExpiry deck col s
  | .quiesce deck => Sys2Proof.Machine.execQuiesce deck s
  | .save deck => Sys2Proof.Machine.execSave deck s
  | .restore deck => Sys2Proof.Machine.execRestore deck s
  | .fullSaveComplete deck uncorrectable => Sys2Proof.Machine.execFullSaveComplete deck uncorrectable s
  | .writeBackAge part slot block => Sys2Proof.Machine.execWriteBackAge part slot block s
  | .tierWaitExpiry cid => Sys2Proof.Machine.execTierWaitExpiry cid s
  | .nvmeCompletion drive nid ok p => Sys2Proof.Machine.execNvmeCompletion drive nid ok p s
  | .nvmeTimeout drive nid => Sys2Proof.Machine.execNvmeTimeout drive nid s
  | .driveDiscovery drive info => Sys2Proof.Machine.execDriveDiscovery drive info s
  | .getLogPagePoll => Sys2Proof.Machine.execGetLogPagePoll s
  | .trayFailure tray => Sys2Proof.Machine.execTrayFailure tray s
  | .trayRequestTimeout rid => Sys2Proof.Machine.execTrayRequestTimeout rid s
  | .alloc up => Sys2Proof.Machine.execAlloc up s
  | .trayBerthFree up => Sys2Proof.Machine.execTrayBerthFree up s
  | .rebuild up spare => Sys2Proof.Machine.execRebuild up spare s
  | .rebuildComplete tbn => Sys2Proof.Machine.execRebuildComplete tbn s
  | .create up part => Sys2Proof.Machine.execCreate up part s
  | .destroy up part => Sys2Proof.Machine.execDestroy up part s
  | .teardownContinue part => Sys2Proof.Machine.execTeardownContinue part s
  | .contain part cause => Sys2Proof.Machine.execContain part cause s
  | .logEnable up => Sys2Proof.Machine.execLogEnable up s
  | .logHeadWrite up head => Sys2Proof.Machine.execLogHeadWrite up head s
  | .logEntryWrite => Sys2Proof.Machine.execLogEntryWrite s
  | .commitSvn up => Sys2Proof.Machine.execCommitSvn up s
  | .imageUpdate up => Sys2Proof.Machine.execImageUpdate up s
  | .sealData up => Sys2Proof.Machine.execSeal up s
  | .sealHashDone entry => Sys2Proof.Machine.execSealHashDone entry s
  | .unsealData up => Sys2Proof.Machine.execUnseal up s
  | .debugUnlock token => Sys2Proof.Machine.execDebugUnlock token s
  | .jtagInstruction ins => Sys2Proof.Machine.execJtagInstruction ins s
  | .getVersion => Sys2Proof.Machine.execGetVersion s
  | .getCapabilities => Sys2Proof.Machine.execGetCapabilities s
  | .negotiateAlgorithms => Sys2Proof.Machine.execNegotiateAlgorithms s
  | .getDigests slot => Sys2Proof.Machine.execGetDigests slot s
  | .getCertificate slot => Sys2Proof.Machine.execGetCertificate slot s
  | .challenge slot nonce => Sys2Proof.Machine.execChallenge slot nonce s
  | .getMeasurements index nonce => Sys2Proof.Machine.execGetMeasurements index nonce s
  | .setEndpointId eid => Sys2Proof.Machine.execSetEndpointId eid s
  | .getEndpointId => Sys2Proof.Machine.execGetEndpointId s
  | .getMctpVersionSupport msgType => Sys2Proof.Machine.execGetMctpVersionSupport msgType s
  | .getMessageTypeSupport => Sys2Proof.Machine.execGetMessageTypeSupport s
  | .gettid => Sys2Proof.Machine.execGettid s
  | .getpldmversion typ => Sys2Proof.Machine.execGetpldmversion typ s
  | .getpldmtypes => Sys2Proof.Machine.execGetpldmtypes s
  | .getpldmcommands typ => Sys2Proof.Machine.execGetpldmcommands typ s
  | .getpdr record => Sys2Proof.Machine.execGetpdr record s
  | .getsensorreading sensor => Sys2Proof.Machine.execGetsensorreading sensor s
  | .getstatesensorreadings sensor => Sys2Proof.Machine.execGetstatesensorreadings sensor s
  | .seteventreceiver eid => Sys2Proof.Machine.execSeteventreceiver eid s
  | .setdasa static dynamic => Sys2Proof.Machine.execSetdasa static dynamic s
  | .entdaa dynamic => Sys2Proof.Machine.execEntdaa dynamic s
  | .laneCtlTimeout port => Sys2Proof.Machine.execLaneCtlTimeout port s
  | .imageUpdateDone img readBackOk => Sys2Proof.Machine.execImageUpdateDone img readBackOk s
  | .unlockZeroFillDone => Sys2Proof.Machine.execUnlockZeroFillDone s
  | .selfTestDone bistPassed => Sys2Proof.Machine.execSelfTestDone bistPassed s
  | .rcRegisterRead up offset len => Sys2Proof.Machine.execRcRegisterRead up offset len s
  | .fperstNRelease drive => Sys2Proof.Machine.execFperstNRelease drive s
  | .resetNRelease => Sys2Proof.Machine.execResetNRelease s

end Sys2Proof.Machine
end

