-- ==== Sys2Proof/WellFormed.lean ====
section
/-! DEFINITION. Which commands are well formed: every operand names something the RW-7820 has. Operand widths fixed by a
bit vector need no check here, and the checks the module itself makes on a well-formed command are in its meaning. -/

namespace Sys2Proof

/-- Tally lines of both halves of near memory: 2 × 15,360 berths of 64 MiB in lines of 128 bytes (R180, R213). -/
def lineCount : Nat := 16106127360

/-- 64-byte sectors of both halves of near memory. -/
def sectorCount : Nat := 32212254720

/-- A patrol event names a sector that exists. -/
def eventOk : SectorEvent → Bool
  | .corrected sector => sector < sectorCount
  | .uncorrectable sector => sector < sectorCount

/-- Poisoned sectors of a payload lie within it. -/
def payloadOk (p : Payload) : Bool := p.poisoned.all (· * 64 < p.bytes.length)

/-- Endpoint IDs have 16 bits and there are eight virtual channels. -/
def flowOk (x : FlowId) : Bool := x.src < 65536 && x.dst < 65536 && x.cls < 8

/-- A point of the time base: 48 bits of seconds, nanoseconds below 10^9, 32 bits of fraction (R409). -/
def timeOk (t : TimeStamp) : Bool := t.sec < 281474976710656 && t.ns < 1000000000 && t.frac < 4294967296

/-- A FATAL cause names a link, a pair, a sensor or a PLL there is. -/
def fatalCauseOk : FatalCause → Bool
  | .d2dFail link => link < 64
  | .metadataLost pair => pair < 20
  | .thermalTrip sensor temp => sensor < 256 && temp < 65536
  | .clockLoss pll => pll < 4
  | .purserFail => true

/-- What contains a partition names a pair or a table there is. -/
def containCauseOk : ContainCause → Bool
  | .request => true
  | .tallyLost pair _ => pair < 20
  | .stateUE table => table < 65536

/-- A reduce job names a command slot or a group. -/
def reduceJobOk : ReduceJob → Bool
  | .merge cid => cid < 16384
  | .seq group seq => group < 1024 && seq < 65536

/-- Every operand names something the module has. -/
def Instr.wellFormed : Instr → Bool
  | .powerGood s0 s1 s2 => s0.slotId < 16 && s1.slotId < 16 && s2.slotId < 16
  | .bootRom => true
  | .hubRelease => true
  | .stackTrainingDone failed => failed.all (· < 640)
  | .zeroFillDone => true
  | .deckSelfTest failing => failing.all (· < 68)
  | .refclkCheck _ _ => true
  | .clockLoss pll => pll < 4
  | .railCheck _ => true
  | .inputVoltageChange _ _ => true
  | .powerFail => true
  | .powerSample _ _ => true
  | .tideEdge => true
  | .thermalSample readings => readings.all (· < 65536)
  | .thermalLevelUpdate => true
  | .fatalError cause => fatalCauseOk cause
  | .d2dLaneRepair link _ => link < 64
  | .purserFail => true
  | .resetN _ => true
  | .moduleReset cause => cause == 1 || cause == 2
  | .hsReset up _ => up < 2
  | .perstN up _ => up < 2
  | .enableN _ _ => true
  | .cblPrsntN die group _ _ => die < 4 && group < 32
  | .sprPrsntN die _ _ => die < 4
  | .fprsntN drive _ _ => drive < 16
  | .ppsEdge _ _ => true
  | .ppsHoldover => true
  | .ckTimeSet up _ => up < 2
  | .ckTimeSecRead up => up < 2
  | .timeSync port p arrival => port < 512 && timeOk p.time && timeOk arrival
  | .syncSend => true
  | .delayReq port p arrival => port < 512 && timeOk p.time && timeOk arrival
  | .delayReqSend => true
  | .delayRsp port p => port < 512 && timeOk p.time
  | .registerWrite up offset data _ => up < 2 && offset < 33554432 && data.length ≤ 4096
  | .fareCommit up part _ => up < 2 && part < 64
  | .contextEnable ctx => ctx < 4096
  | .contextDisable ctx => ctx < 4096
  | .contextPause ctx => ctx < 4096
  | .contextResume ctx => ctx < 4096
  | .contextDrainComplete ctx => ctx < 4096
  | .db _ => true
  | .completionHeadDoorbell _ => true
  | .descriptorFetch ctx => ctx < 4096
  | .commandDispatch cid => cid < 16384
  | .recordCommit cid => cid < 16384
  | .commandTimeout cid => cid < 16384
  | .nop cid => cid < 16384
  | .abort cid => cid < 16384
  | .cross cid => cid < 16384
  | .score cid => cid < 16384
  | .matmul cid => cid < 16384
  | .search cid => cid < 16384
  | .select cid => cid < 16384
  | .gather cid => cid < 16384
  | .filter cid => cid < 16384
  | .append cid => cid < 16384
  | .merge cid => cid < 16384
  | .reduce cid => cid < 16384
  | .copy cid => cid < 16384
  | .manifestStart cid => cid < 16384
  | .manifestStop cid => cid < 16384
  | .fill cid => cid < 16384
  | .bind cid => cid < 16384
  | .clean cid => cid < 16384
  | .evict cid => cid < 16384
  | .acquire cid => cid < 16384
  | .publishUpdate cid => cid < 16384
  | .publishInit cid => cid < 16384
  | .publishXfer cid => cid < 16384
  | .publishFree cid => cid < 16384
  | .fence cid => cid < 16384
  | .flushComplete cid => cid < 16384
  | .atomicAdd cid => cid < 16384
  | .atomicOr cid => cid < 16384
  | .atomicAnd cid => cid < 16384
  | .atomicMax cid => cid < 16384
  | .atomicMin cid => cid < 16384
  | .atomicSwap cid => cid < 16384
  | .atomicCas cid => cid < 16384
  | .semInit cid => cid < 16384
  | .semGive cid => cid < 16384
  | .semFree cid => cid < 16384
  | .wait cid => cid < 16384
  | .handoffCreate cid => cid < 16384
  | .handoffOffer cid => cid < 16384
  | .handoffConfirm cid => cid < 16384
  | .handoffQuery cid => cid < 16384
  | .handoffRelease cid => cid < 16384
  | .handoffDeadline line => line < lineCount
  | .homeAnswer cid => cid < 16384
  | .acquireTimeout cid => cid < 16384
  | .waitTimeout cid => cid < 16384
  | .semLeaseExpiry line ctx => line < lineCount && ctx < 4096
  | .homeNextRequest line => line < lineCount
  | .homeBatchApply line => line < lineCount
  | .rdS _ => true
  | .rdO _ => true
  | .upg _ => true
  | .rdU _ => true
  | .wrU _ => true
  | .atomicFrame _ => true
  | .tallySt _ => true
  | .wb _ => true
  | .snpAck _ _ _ _ => true
  | .snoopTargetLost line target => line < lineCount && target < 65536
  | .replyCacheExpiry src tag => src < 65536 && tag < 1048576
  | .ld _ events => events.all eventOk
  | .stNp _ => true
  | .st _ events => events.all eventOk
  | .ldData _ _ p => payloadOk p
  | .stRsp _ => true
  | .contrib _ => true
  | .result _ => true
  | .doneFrame _ => true
  | .contribTimeout group seq => group < 1024 && seq < 65536
  | .reduceChunkComplete job => reduceJobOk job
  | .groupActivate group => group < 1024
  | .groupDrain group => group < 1024
  | .groupDrainComplete group => group < 1024
  | .ack _ => true
  | .ackTimer flow => flowOk flow
  | .nack _ => true
  | .gapNackTimer flow => flowOk flow
  | .retxTimer flow seq => flowOk flow && seq < 16777216
  | .credit port p => port < 512 && p.counts.length == 8 && p.counts.all (· < 65536)
  | .creditSend port => port < 512
  | .lparam port p => port < 512 && p.rcred.length == 8
  | .laneCtl port lane _ => port < 512 && lane < 132
  | .codewordUncorrectable port lane => port < 512 && lane < 132
  | .frameForward port _ => port < 512
  | .bufferAdmission _ => true
  | .frameSelect egress bankWord => egress < 518 && (match bankWord with | some w => decide (w.1 < 522) | none => true)
  | .reseqGapTimeout point flow => (match point with | .egress port => decide (port < 512) | .delivery => true) && flowOk flow
  | .reseqFlowEvict port flow => port < 512 && flowOk flow
  | .frameAgeOut _ => true
  | .tokenBucketRefill => true
  | .gateEntryBoundary port => port < 512
  | .gclCommit port => port < 512
  | .gclActivate port => port < 512
  | .leakAuditPass unmarked doubles _ => unmarked.all (· < 524288) && doubles.all (· < 524288)
  | .bankRetire bank => bank < 522
  | .mcWrite up _ => up < 2
  | .portEnable port => port < 512
  | .portDisable port => port < 512
  | .trainingStepDone port => port < 512
  | .trainingStepTimeout port failedLanes => port < 512 && failedLanes.all (· < 132)
  | .trainingRetry port => port < 512
  | .linkLost port => port < 512
  | .laneFailure die lane => die < 4 && lane < 132
  | .lkLaneRetire up _ => up < 2
  | .portFence port => port < 512
  | .routeWrite up _ => up < 2
  | .mapWrite up _ => up < 2
  | .epochActivate part => part < 64
  | .epochRetire part _ => part < 64
  | .grant up => up < 2
  | .moor up => up < 2
  | .renew up => up < 2
  | .unmoor up => up < 2
  | .revoke up => up < 2
  | .leaseEnd part slot => part < 64 && slot < 32768
  | .graceEnd part slot => part < 64 && slot < 32768
  | .drainUsExpiry part slot => part < 64 && slot < 32768
  | .drainComplete part slot => part < 64 && slot < 32768
  | .scrubComplete part slot => part < 64 && slot < 32768
  | .patrolScrub events => events.all eventOk
  | .rowRepair chan row => chan < 640 && row < 12582912
  | .channelRetireRequest chan => chan < 640
  | .migrationComplete chan => chan < 640
  | .channelFail chan => chan < 640
  | .granuleReadReturn cid _ _ _ granules => cid < 16384 && granules ≤ 4096
  | .gatherUnitError unit _ => unit < 18
  | .filterUnitError unit _ => unit < 9
  | .reduceUnitError unit _ => unit < 9
  | .filterTransferBoundary cid => cid < 16384
  | .legBoundary _ => true
  | .passStep _ residueFail => (match residueFail with | some col => decide (col < 34) | none => true)
  | .legEnd _ audit => (match audit with | some a => decide (a.1 < 34) | none => true)
  | .legReexecution _ _ => true
  | .suspectExpiry _ col => col < 34
  | .quiesce _ => true
  | .save _ => true
  | .restore _ => true
  | .fullSaveComplete _ _ => true
  | .writeBackAge part slot block => part < 64 && slot < 32768 && block < 16384
  | .tierWaitExpiry cid => cid < 16384
  | .nvmeCompletion drive _ _ p => drive < 16 && payloadOk p
  | .nvmeTimeout drive _ => drive < 16
  | .driveDiscovery drive _ => drive < 16
  | .getLogPagePoll => true
  | .trayFailure tray => tray < 64
  | .trayRequestTimeout _ => true
  | .alloc up => up < 2
  | .trayBerthFree up => up < 2
  | .rebuild up spare => up < 2 && spare < 64
  | .rebuildComplete tbn => tbn < 33554432
  | .create up part => up < 2 && part < 64
  | .destroy up part => up < 2 && part < 64
  | .teardownContinue part => part < 64
  | .contain part cause => part < 64 && containCauseOk cause
  | .logEnable up => up < 2
  | .logHeadWrite up head => up < 2 && head < 1048576
  | .logEntryWrite => true
  | .commitSvn up => up < 2
  | .imageUpdate up => up < 2
  | .sealData up => up < 2
  | .sealHashDone entry => entry < 16
  | .unsealData up => up < 2
  | .debugUnlock _ => true
  | .jtagInstruction _ => true
  | .getVersion => true
  | .getCapabilities => true
  | .negotiateAlgorithms => true
  | .getDigests slot => slot < 8
  | .getCertificate slot => slot < 8
  | .challenge slot _ => slot < 8
  | .getMeasurements index _ => index < 256
  | .setEndpointId eid => eid < 256
  | .getEndpointId => true
  | .getMctpVersionSupport msgType => msgType < 256
  | .getMessageTypeSupport => true
  | .gettid => true
  | .getpldmversion typ => typ < 256
  | .getpldmtypes => true
  | .getpldmcommands typ => typ < 256
  | .getpdr _ => true
  | .getsensorreading sensor => sensor < 256
  | .getstatesensorreadings sensor => sensor < 256
  | .seteventreceiver eid => eid < 256
  | .setdasa static dynamic => static < 128 && dynamic < 128
  | .entdaa dynamic => dynamic < 128
  | .laneCtlTimeout port => port < 512
  | .imageUpdateDone _ _ => true
  | .unlockZeroFillDone => true
  | .selfTestDone _ => true
  | .rcRegisterRead up offset len => up < 2 && offset < 33554432 && len ≤ 4096
  | .fperstNRelease drive => drive < 16
  | .resetNRelease => true

end Sys2Proof
end

