-- ==== Sys2Proof/Safety.lean ====
section
/-! DEFINITION. What a state of the module keeps over every step, and what a row leaves alone, in the terms the statements
use. -/

namespace Sys2Proof.Safety

open Sys2Proof.Machine

/-- The two sparse parts of the state that every row may write stay in their one canonical form: the register fields by rising
key, and near memory by rising address with no listed zero and its poisoned sectors rising. -/
def canonical (s : State) : Prop := s.regs.rises = true ∧ s.pm.near.wf = true

/-- Fuses, boot flash and identity, which survive every reset (Table 17.5). -/
def fusesKept (s t : State) : Prop :=
  t.ps.uid = s.ps.uid ∧ t.ps.stepping = s.ps.stepping ∧ t.ps.keyHash = s.ps.keyHash ∧ t.ps.keyRevoke = s.ps.keyRevoke
    ∧ t.ps.svnCount = s.ps.svnCount ∧ t.ps.debugDisable = s.ps.debugDisable ∧ t.ps.slotA = s.ps.slotA ∧ t.ps.slotB = s.ps.slotB

/-- Everything below the input stage and the purser's fuses is as right after a reset. -/
def cleared (t : State) : Prop :=
  t.tb = .reset ∧ t.fe = .reset ∧ t.deckA = .reset ∧ t.deckB = .reset ∧ t.pt = .reset ∧ t.co = State.reset.co ∧ t.pm = .reset
    ∧ t.ho = .reset ∧ t.te = .reset ∧ t.ty = .reset ∧ t.fl = .reset ∧ t.lp = .reset ∧ t.lk = .reset ∧ t.sc = .reset
    ∧ t.tm = .reset ∧ t.hs = .reset ∧ t.mg = .reset

/-- Near memory, its berth tables and the tally lines over it are unchanged: bytes, poison, slots, directory. -/
def memoryKept (s t : State) : Prop := t.pm = s.pm ∧ t.ho.lines = s.ho.lines

/-- Two states agree in every register field but those of the list. -/
def regsKeptBut (l : List RegField) (s t : State) : Prop :=
  ∀ (F : RegField) (i : Nat), (∀ G ∈ l, F.id ≠ G.id) → t.get F i = s.get F i

/-- The parts of the module's state. -/
inductive Part where
  | regs | tb | pwr | ps | fe | deckA | deckB | pt | co | pm | ho | te | ty | fl | lp | lk | sc | tm | hs | mg | out | freeCtr | pending
  deriving DecidableEq, Repr

/-- Two states agree in a part. -/
def samePart (s t : State) : Part → Prop
  | .regs => t.regs = s.regs
  | .tb => t.tb = s.tb
  | .pwr => t.pwr = s.pwr
  | .ps => t.ps = s.ps
  | .fe => t.fe = s.fe
  | .deckA => t.deckA = s.deckA
  | .deckB => t.deckB = s.deckB
  | .pt => t.pt = s.pt
  | .co => t.co = s.co
  | .pm => t.pm = s.pm
  | .ho => t.ho = s.ho
  | .te => t.te = s.te
  | .ty => t.ty = s.ty
  | .fl => t.fl = s.fl
  | .lp => t.lp = s.lp
  | .lk => t.lk = s.lk
  | .sc => t.sc = s.sc
  | .tm => t.tm = s.tm
  | .hs => t.hs = s.hs
  | .mg => t.mg = s.mg
  | .out => t.out = s.out
  | .freeCtr => t.freeCtr = s.freeCtr
  | .pending => t.pending = s.pending

/-- A row's next state differs from the state it met in no part but those of the list. -/
def changesOnly (l : List Part) (c : Instr) : Prop :=
  ∀ s t : State, exec c s = .next t → ∀ p : Part, p ∉ l → samePart s t p

/-- The module can originate a frame at once: a valid MOD_ID, no frame waiting, fewer than 65,536 unacknowledged (R298, R306). -/
def canSend (s : State) : Prop := validId s.modId = true ∧ s.unackedCount < 65536 ∧ s.lk.waiting = []

/-- The youngest frame the module has sent to an endpoint in a class and retains for its acknowledgement (R298, R303). -/
def lastSent (t : State) (dst cls : Nat) : Option Frame := (t.flowOut ⟨t.modId, dst, cls⟩).unacked.getLast?.map (·.frame)

/-- Nothing waits at the home or in the tier engine. -/
def quiet (s : State) : Prop := s.ho = .reset ∧ s.te = .reset

/-- A handle of a partition is held and its slot is not DRAINING (R184). -/
def heldBerth (s : State) (p h : Nat) : Prop := ∃ sl, s.handle p h = .held sl

/-- The module has answered a request: the youngest response to its source carries opcode, TAG, STATUS and data (Table 11.8). -/
def answers (t : State) (f : Frame) (opc : BitVec 8) (status : Nat) (data : List Byte) : Prop :=
  ∃ r, lastSent t f.src.toNat vcRsp = some r ∧ r.opc = opc ∧ r.tag = f.tag ∧ r.part = f.part
    ∧ r.ctx.toNat % 256 = status ∧ r.data = data

/-- No other request waits on a tally line, no cached copy of it exists and nobody is parked on it. -/
def freeLine (s : State) (ln : Nat) : Prop :=
  (s.line ln).dir.st = .u ∧ (s.line ln).txn = none ∧ (s.line ln).queue = [] ∧ ∀ w ∈ s.ho.waiters, w.line ≠ ln

/-- A command stands at the home before its tally line: its berth is not lost, the line is free, and its balance covers the
access (R194, R217, R263). -/
def atFreeLine (s : State) (c : Cmd) (ln : Nat) : Prop :=
  s.hubUp = true ∧ s.cmd c.cid = some c ∧ c.stage = .atHome ∧ c.flushTo = none ∧ s.homeLost c = false
    ∧ s.tallyLine c.part (homeAddr c) = some ln ∧ freeLine s ln ∧ (∀ w ∈ s.ho.waiters, w.cid ≠ c.cid)
    ∧ s.homeAffords ln (.cmd c.cid) = true

/-- A request frame names a free tally line of a held handle of a partition that is not contained; nothing is held back, its
balance covers the access and the answer can leave at once. -/
def frameAtLine (s : State) (f : Frame) (ln : Nat) : Prop :=
  s.hubUp = true ∧ canSend s ∧ s.contained f.part.toNat = false ∧ f.addr.extractLsb' 50 2 = 0#2 ∧ s.te.held = []
    ∧ (∃ sl, s.handle f.part.toNat (f.addr.toNat / berthBytes) = .held sl ∧ sl.kind = kindTally
        ∧ s.slotByte sl (f.addr.toNat % berthBytes) / 128 = ln) ∧ freeLine s ln ∧ s.homeAffords ln (.frame f) = true

/-- The home has answered a command OK with a value (R59). -/
def answeredOk (t : State) (c : Cmd) (value : Nat) : Prop :=
  t.cmd c.cid = some { c with stage := .answered, value := value, flushTo := none }

/-- The home has answered a command with a status. -/
def answeredWith (t : State) (c : Cmd) (status detail value : Nat) : Prop :=
  t.cmd c.cid = some { c with stage := .answered, value := value, flushTo := none, causes := c.causes ++ [(status, detail)] }

/-- Of the pool, only bytes `lo` to `hi - 1` of near memory may differ; poison and berth tables do not. -/
def bytesOnly (s t : State) (lo hi : Nat) : Prop :=
  t.pm = { s.pm with near := { s.pm.near with cells := t.pm.near.cells } } ∧
    ∀ a, a < lo ∨ hi ≤ a → t.pm.near.byte a = s.pm.near.byte a

/-- A command at the home changed only its own entry, its fares, the count of directory misses and the line: of memory bytes `lo`
to `hi - 1`, of the home this line's entry, and on a SEMA line its leases. -/
def homeOnly (s t : State) (ln lo hi : Nat) : Prop :=
  t = { s with regs := t.regs, fe := t.fe, pt := t.pt, pm := t.pm, ho := t.ho } ∧ regsKeptBut [CH_PART_DIR.DIR_MISS] s t
    ∧ bytesOnly s t lo hi ∧ t.ho = { s.ho with lines := t.ho.lines, leases := t.ho.leases }
    ∧ (s.lineKind ln ≠ .sema → t.ho.leases = s.ho.leases) ∧ ∀ l, l ≠ ln → t.line l = s.line l

end Sys2Proof.Safety
end

