-- ==== Sys2Proof/Certificates/Slice0/Obligations.lean ====
section
/-! DEFINITION. The statements about the module, for the provers. -/

section

open Sys2Proof Sys2Proof.Machine

/-! ## The queue -/

/-- A step runs the command at the front of the queue on the state with the queue's rest. -/
def Obligations.StepRunsFrontCommand : Prop :=
  ∀ (c : Instr) (rest : List Instr) (s : State),
    step { s with pending := c :: rest } = exec c { s with pending := rest }

/-- What 108 rows leave alone: of the 23 parts of the state each changes at most the ones listed with it (in every state, whether
it has its effect or not), and no row at all touches the queue it came from. -/
def Obligations.RowsChangeOnlyTheirParts : Prop :=
  (∀ (c : Instr) (s t : State), exec c s = .next t → t.pending = s.pending) ∧
  (∀ die present stableMs, Safety.changesOnly [.regs] (.sprPrsntN die present stableMs)) ∧
  Safety.changesOnly [.regs] .ppsHoldover ∧ (∀ ctx, Safety.changesOnly [.regs] (.contextPause ctx)) ∧
  (∀ ctx, Safety.changesOnly [.regs] (.contextResume ctx)) ∧ (∀ group, Safety.changesOnly [.regs] (.groupActivate group)) ∧
  (∀ group, Safety.changesOnly [.regs] (.groupDrain group)) ∧
  (∀ deck col, Safety.changesOnly [.regs] (.suspectExpiry deck col)) ∧ Safety.changesOnly [.pwr] .resetNRelease ∧
  (∀ entry, Safety.changesOnly [.ps] (.sealHashDone entry)) ∧ (∀ cid, Safety.changesOnly [.fe] (.homeAnswer cid)) ∧
  (∀ part slot, Safety.changesOnly [.pm] (.leaseEnd part slot)) ∧
  (∀ src tag, Safety.changesOnly [.ho] (.replyCacheExpiry src tag)) ∧
  (∀ port flow, Safety.changesOnly [.sc] (.reseqFlowEvict port flow)) ∧ Safety.changesOnly [.tm] .tokenBucketRefill ∧
  (∀ up kind, Safety.changesOnly [.mg] (.perstN up kind)) ∧
  (∀ static dynamic, Safety.changesOnly [.mg] (.setdasa static dynamic)) ∧
  (∀ port, Safety.changesOnly [.out] (.creditSend port)) ∧ Safety.changesOnly [.out] .getVersion ∧
  Safety.changesOnly [.out] .getCapabilities ∧ Safety.changesOnly [.out] .negotiateAlgorithms ∧
  (∀ slot, Safety.changesOnly [.out] (.getDigests slot)) ∧ (∀ slot, Safety.changesOnly [.out] (.getCertificate slot)) ∧
  (∀ slot nonce, Safety.changesOnly [.out] (.challenge slot nonce)) ∧
  (∀ index nonce, Safety.changesOnly [.out] (.getMeasurements index nonce)) ∧ Safety.changesOnly [.out] .getEndpointId ∧
  (∀ msgType, Safety.changesOnly [.out] (.getMctpVersionSupport msgType)) ∧ Safety.changesOnly [.out] .getMessageTypeSupport ∧
  Safety.changesOnly [.out] .gettid ∧ (∀ typ, Safety.changesOnly [.out] (.getpldmversion typ)) ∧
  Safety.changesOnly [.out] .getpldmtypes ∧ (∀ typ, Safety.changesOnly [.out] (.getpldmcommands typ)) ∧
  (∀ record, Safety.changesOnly [.out] (.getpdr record)) ∧ (∀ sensor, Safety.changesOnly [.out] (.getsensorreading sensor)) ∧
  (∀ sensor, Safety.changesOnly [.out] (.getstatesensorreadings sensor)) ∧ Safety.changesOnly [.regs, .pwr] .thermalLevelUpdate ∧
  (∀ img readBackOk, Safety.changesOnly [.regs, .ps] (.imageUpdateDone img readBackOk)) ∧
  (∀ cid, Safety.changesOnly [.regs, .fe] (.nop cid)) ∧ (∀ f, Safety.changesOnly [.regs, .fe] (.completionHeadDoorbell f)) ∧
  (∀ group, Safety.changesOnly [.regs, .co] (.groupDrainComplete group)) ∧
  (∀ drive, Safety.changesOnly [.regs, .fl] (.fperstNRelease drive)) ∧
  (∀ port p, Safety.changesOnly [.regs, .lk] (.credit port p)) ∧
  (∀ port, Safety.changesOnly [.regs, .lk] (.portEnable port)) ∧
  (∀ port, Safety.changesOnly [.regs, .lk] (.trainingRetry port)) ∧
  (∀ flow, Safety.changesOnly [.regs, .sc] (.gapNackTimer flow)) ∧ (∀ port, Safety.changesOnly [.regs, .tm] (.gclCommit port)) ∧
  (∀ bistPassed, Safety.changesOnly [.regs, .out] (.selfTestDone bistPassed)) ∧
  (∀ up, Safety.changesOnly [.ps, .mg] (.commitSvn up)) ∧ Safety.changesOnly [.fl, .out] .getLogPagePoll ∧
  (∀ ins, Safety.changesOnly [.mg, .out] (.jtagInstruction ins)) ∧ (∀ eid, Safety.changesOnly [.mg, .out] (.setEndpointId eid)) ∧
  (∀ eid, Safety.changesOnly [.mg, .out] (.seteventreceiver eid)) ∧
  (∀ dynamic, Safety.changesOnly [.mg, .out] (.entdaa dynamic)) ∧ (∀ up, Safety.changesOnly [.regs, .ps, .mg] (.sealData up)) ∧
  (∀ up, Safety.changesOnly [.regs, .ps, .mg] (.unsealData up)) ∧
  (∀ cid, Safety.changesOnly [.regs, .fe, .ho] (.acquireTimeout cid)) ∧
  (∀ cid, Safety.changesOnly [.regs, .fe, .ho] (.waitTimeout cid)) ∧
  (∀ deck uncorrectable, Safety.changesOnly [.regs, .deckA, .deckB] (.fullSaveComplete deck uncorrectable)) ∧
  (∀ part slot, Safety.changesOnly [.regs, .pm, .ho] (.scrubComplete part slot)) ∧
  (∀ chan, Safety.changesOnly [.regs, .pm, .out] (.channelRetireRequest chan)) ∧
  (∀ up value, Safety.changesOnly [.regs, .lp, .mg] (.mapWrite up value)) ∧
  (∀ up value, Safety.changesOnly [.regs, .lp, .mg] (.routeWrite up value)) ∧
  (∀ flow, Safety.changesOnly [.regs, .lk, .sc] (.ackTimer flow)) ∧ (∀ f, Safety.changesOnly [.regs, .lk, .sc] (.nack f)) ∧
  (∀ f, Safety.changesOnly [.regs, .lk, .sc] (.db f)) ∧ (∀ f, Safety.changesOnly [.regs, .lk, .sc] (.ack f)) ∧
  (∀ port failedLanes, Safety.changesOnly [.regs, .lk, .hs] (.trainingStepTimeout port failedLanes)) ∧
  (∀ port p, Safety.changesOnly [.regs, .lk, .out] (.lparam port p)) ∧
  (∀ up value, Safety.changesOnly [.regs, .sc, .mg] (.mcWrite up value)) ∧
  (∀ up head, Safety.changesOnly [.regs, .hs, .mg] (.logHeadWrite up head)) ∧
  (∀ bank, Safety.changesOnly [.regs, .hs, .out] (.bankRetire bank)) ∧
  (∀ chan, Safety.changesOnly [.regs, .hs, .out] (.migrationComplete chan)) ∧
  (∀ up, Safety.changesOnly [.regs, .mg, .out] (.ckTimeSecRead up)) ∧
  (∀ up, Safety.changesOnly [.regs, .mg, .out] (.imageUpdate up)) ∧ Safety.changesOnly [.tb, .tm, .out] .syncSend ∧
  Safety.changesOnly [.tb, .tm, .out] .delayReqSend ∧
  (∀ port p arrival, Safety.changesOnly [.regs, .tb, .tm, .out] (.delayReq port p arrival)) ∧
  (∀ port, Safety.changesOnly [.regs, .tb, .tm, .out] (.gateEntryBoundary port)) ∧
  (∀ port, Safety.changesOnly [.regs, .tb, .tm, .out] (.gclActivate port)) ∧
  (∀ deck, Safety.changesOnly [.regs, .fe, .deckA, .deckB] (.save deck)) ∧
  (∀ deck, Safety.changesOnly [.regs, .fe, .deckA, .deckB] (.restore deck)) ∧
  (∀ ctx, Safety.changesOnly [.regs, .fe, .lk, .sc] (.contextEnable ctx)) ∧
  (∀ deck, Safety.changesOnly [.regs, .deckA, .deckB, .pt] (.quiesce deck)) ∧
  (∀ chan row, Safety.changesOnly [.regs, .pm, .hs, .freeCtr] (.rowRepair chan row)) ∧
  (∀ port, Safety.changesOnly [.regs, .ty, .lk, .out] (.trainingStepDone port)) ∧
  (∀ up, Safety.changesOnly [.regs, .ty, .mg, .out] (.alloc up)) ∧
  (∀ fid, Safety.changesOnly [.regs, .sc, .tm, .out] (.frameAgeOut fid)) ∧
  (∀ up, Safety.changesOnly [.regs, .hs, .mg, .out] (.logEnable up)) ∧
  Safety.changesOnly [.regs, .hs, .mg, .out] .logEntryWrite ∧
  (∀ point flow, Safety.changesOnly [.regs, .lk, .sc, .tm, .out] (.reseqGapTimeout point flow)) ∧
  (∀ index, Safety.changesOnly [.regs, .lk, .sc, .tm, .out] (.bufferAdmission index)) ∧
  (∀ failing, Safety.changesOnly [.regs, .pwr, .deckA, .deckB, .hs, .out] (.deckSelfTest failing)) ∧
  (∀ unit retire, Safety.changesOnly [.regs, .fe, .deckA, .deckB, .hs, .out] (.gatherUnitError unit retire)) ∧
  (∀ unit retire, Safety.changesOnly [.regs, .fe, .deckA, .deckB, .hs, .out] (.filterUnitError unit retire)) ∧
  (∀ unit retire, Safety.changesOnly [.regs, .fe, .deckA, .deckB, .hs, .out] (.reduceUnitError unit retire)) ∧
  (∀ up, Safety.changesOnly [.regs, .fe, .te, .ty, .fl, .mg] (.trayBerthFree up)) ∧
  (∀ drive info, Safety.changesOnly [.regs, .fe, .te, .fl, .hs, .out] (.driveDiscovery drive info)) ∧
  (∀ die group present stableMs, Safety.changesOnly [.regs, .ty, .lk, .sc, .tm, .out] (.cblPrsntN die group present stableMs)) ∧
  (∀ port, Safety.changesOnly [.regs, .ty, .lk, .sc, .tm, .out] (.portDisable port)) ∧
  (∀ port, Safety.changesOnly [.regs, .ty, .lk, .sc, .tm, .out] (.linkLost port)) ∧
  (∀ port, Safety.changesOnly [.regs, .ty, .lk, .sc, .tm, .out] (.laneCtlTimeout port)) ∧
  (∀ unmarked doubles mismatch, Safety.changesOnly [.regs, .lk, .sc, .tm, .hs, .out] (.leakAuditPass unmarked doubles mismatch)) ∧
  (∀ port lane, Safety.changesOnly [.regs, .ty, .lk, .sc, .tm, .hs, .out] (.codewordUncorrectable port lane)) ∧
  (∀ port lane a, Safety.changesOnly [.regs, .ty, .lk, .sc, .tm, .hs, .out] (.laneCtl port lane a)) ∧
  (∀ die lane, Safety.changesOnly [.regs, .ty, .lk, .sc, .tm, .hs, .out] (.laneFailure die lane)) ∧
  (∀ ctx, Safety.changesOnly [.regs, .fe, .pt, .pm, .ho, .te, .lk, .sc, .freeCtr] (.contextDrainComplete ctx)) ∧
  (∀ cid, Safety.changesOnly [.regs, .fe, .pt, .co, .pm, .ho, .te, .lk, .sc, .out, .freeCtr] (.commandDispatch cid)) ∧
  (∀ line, Safety.changesOnly [.regs, .ps, .fe, .pt, .pm, .ho, .te, .fl, .lk, .sc, .out, .freeCtr] (.handoffDeadline line)) ∧
  (∀ line ctx, Safety.changesOnly [.regs, .ps, .fe, .pt, .pm, .ho, .te, .fl, .lk, .sc, .out, .freeCtr] (.semLeaseExpiry line ctx))

/-! ## Resets, supply, start-up and time (chapter 17) -/

/-- A module reset from the row, from HS_RESET written with KEY, or from RESET_N low for 1 µs: STANDBY, everything below fuses
and boot flash cleared, the source in HS_RESET_CAUSE, debug LOCKED or DISABLED (Table 17.5, R413, R418, R426).

A power-fail, the row or ENABLE_N going high, ends in OFF with all state but fuses and boot flash lost and FAULT_N low; 48 V
good starts again in STANDBY with the straps sampled, a strap whose samples disagree reading 0 (R405, R414, R422, R426).

PERST#, a hot reset and link-down act on that upstream port's link and on nothing else (R448, Table 17.5). -/
def Obligations.ResetsAndSupplyClearTheModule : Prop :=
  (∀ s : State, s.modState ≠ modOff →
     let cleanReset (t : State) (cause : Nat) : Prop :=
       Safety.cleared t ∧ Safety.fusesKept s t ∧ t.modState = modStandby ∧ t.get HS_RESET_CAUSE.CAUSE = cause
         ∧ t.ps.debug = (if s.ps.debugDisable then .disabled else .locked) ∧ t.ps.running = none ∧ t.out = s.out
         ∧ t.pending = s.pending
     (∀ cause, cause = 1 ∨ cause = 2 → ∃ t, exec (.moduleReset cause) s = .next t ∧ cleanReset t cause) ∧
     (∀ up value, up < 2 → value.getLsbD 0 = true → value.extractLsb' 8 8 = 0x5A#8 →
       ∃ t, exec (.hsReset up value) s = .next t ∧ cleanReset t 2) ∧
     (∀ up value, up < 2 → (value.getLsbD 0 = false ∨ value.extractLsb' 8 8 ≠ 0x5A#8) →
       exec (.hsReset up value) s = .next (s.viaUp up)) ∧
     (∀ lowNs, 1000 ≤ lowNs → ∃ t, exec (.resetN lowNs) s = .next t ∧ cleanReset t 1 ∧ t.pwr.resetHeld = true) ∧
     exec .resetNRelease s = .next { s with pwr := { s.pwr with resetHeld := false } }) ∧
  ((∀ s : State, s.modState ≠ modOff →
     let off (t : State) : Prop :=
       Safety.cleared t ∧ Safety.fusesKept s t ∧ t.modState = modOff ∧ t.pwr.railsOn = false ∧ t.pwr.faultLow = true ∧ t.out = s.out
     (∃ t, exec .powerFail s = .next t ∧ off t) ∧
     (∀ heldUs, ∃ t, exec (.enableN true heldUs) s = .next t ∧ off t ∧ t.pwr.enableLow = false)) ∧
   (∀ (s : State) (heldUs : Nat), 5000 ≤ heldUs →
     exec (.enableN false heldUs) s = .next { s with pwr := { s.pwr with enableLow := true } }) ∧
   (∀ (s : State) (a b c : StrapSample), s.modState = modOff → s.pwr.enableLow = true →
     a.slotId < 16 →
     ∃ t, exec (.powerGood a b c) s = .next t ∧ Safety.cleared t ∧ Safety.fusesKept s t ∧ t.modState = modStandby
       ∧ t.pwr.railsOn = true ∧ t.pwr.inputGood = true ∧ t.get HS_RESET_CAUSE.CAUSE = 0
       ∧ t.get HS_STATE.HOLD = t.get HS_STRAP_STATUS.START_HOLD
       ∧ (a = b → b = c → t.get HS_STRAP_STATUS.UNSTABLE = 0
           ∧ t.get HS_STRAP_STATUS.START_HOLD = (if a.startHold then 1 else 0)
           ∧ t.get HS_STRAP_STATUS.BIST_EN = (if a.bistEn then 1 else 0) ∧ t.get HS_STRAP_STATUS.SLOT_ID = a.slotId)
       ∧ (a.startHold ≠ b.startHold ∨ b.startHold ≠ c.startHold →
           t.get HS_STRAP_STATUS.START_HOLD = 0 ∧ t.get HS_STRAP_STATUS.UNSTABLE = 1))) ∧
  (∀ (s : State) (kind : UpReset), (∀ n, kind = .perst n → 1000 ≤ n) →
     exec (.perstN 0 kind) s = .next { s with mg := { s.mg with up0 := false } } ∧
     exec (.perstN 1 kind) s = .next { s with mg := { s.mg with up1 := false } })

/-- Boot, hub release and the steps of Table 17.7 up to READY or DEGRADED (R383, R384, R409, R413 to R415). The hub is released
with nothing in the tier engine, as a reset leaves it. -/
def Obligations.StartUpRowsCompleteInOrder : Prop :=
  (∀ (s : State) (i j : Image), s.modState = modStandby → s.ps.running = none → s.pwr.resetHeld = false →
    let n := s.get PS_BOOT_CFG.PREFER_B
    n < 2 → s.ps.slot n = some i → s.ps.slot (1 - n) = some j →
    let runs (t : State) (x : Image) (slot fallback : Nat) : Prop := t.ps.running = some x ∧ t.modState = modStandby
      ∧ t.get PS_ID.FALLBACK = fallback ∧ t.get PS_ID.SVN = x.svn % 64 ∧ t.get PS_ID.SLOT = slot ∧ t.get PS_ID.FW_MAJOR = x.major % 256
      ∧ t.get PS_ID.FW_MINOR = x.minor % 256
    ∃ t, exec .bootRom s = .next t ∧ (s.ps.check (some i) = 0 → runs t i n 0)
      ∧ (s.ps.check (some i) ≠ 0 → s.ps.check (some j) = 0 → runs t j (1 - n) 1)
      ∧ (s.ps.check (some i) ≠ 0 → s.ps.check (some j) ≠ 0 → t.modState = modFailed ∧ t.get HS_STATE.CAUSE = 1 ∧ t.ps = s.ps
          ∧ t.get PS_BOOT_STATUS.CAUSE = s.ps.check (some j))) ∧
  (∀ s : State, s.modState = modStandby → s.ps.running = none → s.pwr.resetHeld = false → s.ps.slotA = none → s.ps.slotB = none →
    ∃ t, exec .bootRom s = .next t ∧ t.modState = modFailed ∧ t.get HS_STATE.CAUSE = 1 ∧ t.pwr.faultLow = true
      ∧ t.ps = s.ps) ∧
  (∀ s : State, s.mayRelease = true → s.te = .reset → s.ty = .reset →
    ∃ t, exec .hubRelease s = .next t ∧ t.modState = modInit ∧ t.tb.running = true ∧ t.tb.sec = 0 ∧ t.tb.ns = 0 ∧ t.tb.frac = 0
      ∧ t.get CK_CLK_STATUS.PLL_LOCK = 15) ∧
  (∀ s : State, s.modState = modInit → s.pwr.startStep = 0 →
    exec (.stackTrainingDone []) s = .next { s with pwr := { s.pwr with startStep := 2 } }) ∧
  (∀ (s : State) (c : Nat), s.modState = modInit → s.pwr.startStep = 0 → c < 640 →
    ∃ t, exec (.stackTrainingDone [c]) s = .next t ∧ t.get PM_CHAN_STATUS.STATE c = 2 ∧ t.pwr.startStep = 2 ∧ t.modState = modInit) ∧
  (∀ s : State, s.modState = modInit → s.pwr.startStep = 2 →
    ∃ t, exec .zeroFillDone s = .next t ∧ t.pm.near = { cells := [], poison := [] } ∧ t.ho.lines = [] ∧ t.ho.replies = []
      ∧ t.ty.berths = [] ∧ t.fl.berths = [] ∧ t.deckA.scratch = [] ∧ t.deckB.scratch = [] ∧ t.pwr.startStep = 3 ∧ t.regs = s.regs) ∧
  (∀ s : State, s.modState = modInit → s.pwr.startStep = 3 →
    exec (.deckSelfTest []) s = .next { s with pwr := { s.pwr with startStep := 4 } }
    ∧ ∀ i, i < 68 → 32 ≤ i % 34 → ∃ t, exec (.deckSelfTest [i]) s = .next t ∧ t.get DK_COL_STATUS.STATE i = 2 ∧ t.pwr.startStep = 4
        ∧ t.modState = modInit ∧ t.pm = s.pm) ∧
  (∀ (s : State) (passed : Bool), s.modState = modInit → s.pwr.startStep = 4 →
    ∃ t, exec (.selfTestDone passed) s = .next t ∧ t.modState = (if s.exhausted then modDegraded else modReady)
      ∧ t.get HS_STATE.BIST_RAN = (if s.flag HS_STRAP_STATUS.BIST_EN && passed then 1 else s.get HS_STATE.BIST_RAN)
      ∧ Safety.memoryKept s t ∧ t.fe = s.fe)

/-- A FATAL error while the hub works: the module is FAILED with CAUSE 2 and FAULT_N low; a repaired die-to-die lane is only
counted and logged (R16, R374, R382, R408).

What the input, rail, reference and power monitors do at their thresholds (R403, R404, R407, R408). -/
def Obligations.MonitorsActAtTheirThresholds : Prop :=
  (∀ s : State, s.hubUp = true →
     let failed (t : State) : Prop := t.modState = modFailed ∧ t.get HS_STATE.CAUSE = 2 ∧ t.pwr.faultLow = true
     (∀ cause, ∃ t, exec (.fatalError cause) s = .next t ∧ failed t) ∧
     (∃ t, exec .purserFail s = .next t ∧ failed t) ∧
     (∀ link, ∃ t, exec (.d2dLaneRepair link false) s = .next t ∧ failed t) ∧
     (∀ pll, pll < 4 → s.pwr.railsOn = true → ∃ t, exec (.clockLoss pll) s = .next t ∧ failed t) ∧
     (∀ ppm10, s.pwr.railsOn = true → 3000 < ppm10.natAbs → ∃ t, exec (.refclkCheck true ppm10) s = .next t ∧ failed t) ∧
     (∀ link, s.hs.queue.length < 1024 →
       ∃ t e, exec (.d2dLaneRepair link true) s = .next t ∧ t.hs.queue = s.hs.queue ++ [e] ∧ e.cause = 0x60 ∧ e.sev = 0
         ∧ e.loc = link ∧ t.modState = s.modState)) ∧
  (∀ s : State, s.pwr.railsOn = true → s.modState ≠ modOff →
     (∀ v us, 400 ≤ v → v ≤ 600 → ∃ t, exec (.inputVoltageChange v us) s = .next t ∧ t.get HS_PWR_STATUS.VIN_DV = v
       ∧ t.get HS_PWR_STATUS.LOW_VIN = 0 ∧ t.get HS_PWR_STATUS.HIGH_VIN = 0 ∧ t.get HS_PWR_STATUS.LEVEL = s.get HS_PWR_STATUS.LEVEL) ∧
     (∀ v us, 380 ≤ v → v < 400 → ∃ t, exec (.inputVoltageChange v us) s = .next t ∧ t.get HS_PWR_STATUS.LEVEL = 7
       ∧ t.get HS_PWR_STATUS.LOW_VIN = 1 ∧ t.modState = s.modState) ∧
     (∀ v us, 600 < v → v ≤ 720 → ∃ t, exec (.inputVoltageChange v us) s = .next t ∧ t.get HS_PWR_STATUS.HIGH_VIN = 1
       ∧ t.modState = s.modState) ∧
     (∀ v us, (v < 380 ∧ 100 ≤ us) ∨ (720 < v ∧ 10 ≤ us) →
       ∃ t, exec (.inputVoltageChange v us) s = .next t ∧ t.modState = modOff ∧ t.pwr.railsOn = false) ∧
     (∀ bad r, r ∈ bad → s.railWatched r = true → r ∈ s.pwr.railsBad → exec (.railCheck bad) s = exec .powerFail s) ∧
     (∀ bad, (∀ r ∈ bad, s.railWatched r = true ∧ r ∉ s.pwr.railsBad) →
       exec (.railCheck bad) s = .next { s with pwr := { s.pwr with railsBad := bad } }) ∧
     (∀ w a, 1450 < w → a ≤ 360 → s.pwr.overSample = false → ∃ t, exec (.powerSample w a) s = .next t
       ∧ t.get HS_PWR_STATUS.LEVEL = 7 ∧ t.pwr.decksHalted = true ∧ t.pwr.overSample = true
       ∧ t.get HS_PWR_STATUS.FAST = min (s.get HS_PWR_STATUS.FAST + 1) 65535) ∧
     (∀ w a, w ≤ 1450 → a ≤ 360 → ∃ t, exec (.powerSample w a) s = .next t ∧ t.get HS_PWR_STATUS.IIN_DA = a
       ∧ t.pwr.sumWatts = s.pwr.sumWatts + w ∧ t.pwr.samples = s.pwr.samples + 1
       ∧ t.get HS_PWR_STATUS.LEVEL = s.get HS_PWR_STATUS.LEVEL) ∧
     (∀ ppm10, s.modState = modStandby → ppm10.natAbs ≤ 3000 → ∃ t, exec (.refclkCheck true ppm10) s = .next t
       ∧ t.get CK_CLK_STATUS.REF_OK = 1 ∧ t.pwr.refBad = 0 ∧ (t.get CK_CLK_STATUS.PLL_LOCK).testBit 0 = true
       ∧ t.modState = modStandby))

/-- The thermal level rises by 1, up to 7, with any die at or above 95 °C, and falls by 1 after 10 ms with every die at or below
92 °C; nothing else changes (R417).

A reading of every sensor is shown in HS_THERM_STATUS, capped at the field, with MAX following; the die temperatures are
renewed (R416). No sensor was at or above 110 °C in the reading before. -/
def Obligations.ThermalSensorsSetTheLevel : Prop :=
  (∀ s : State, s.pwr.railsOn = true →
     let l := s.get HS_PWR_STATUS.THERM_LEVEL
     (s.pwr.dieTemps.any (540 ≤ ·) = true →
       exec .thermalLevelUpdate s
         = .next (({ s with pwr := { s.pwr with coolMs := 0 } } : State).put HS_PWR_STATUS.THERM_LEVEL 0 (min 7 (l + 1)))) ∧
     (s.pwr.dieTemps.any (540 ≤ ·) = false → s.pwr.dieTemps.all (· ≤ 528) = true → s.pwr.coolMs < 9 →
       exec .thermalLevelUpdate s = .next { s with pwr := { s.pwr with coolMs := s.pwr.coolMs + 1 } }) ∧
     (s.pwr.dieTemps.any (540 ≤ ·) = false → s.pwr.dieTemps.all (· ≤ 528) = true → 9 ≤ s.pwr.coolMs →
       exec .thermalLevelUpdate s
         = .next (({ s with pwr := { s.pwr with coolMs := 0 } } : State).put HS_PWR_STATUS.THERM_LEVEL 0 (l - 1))) ∧
     (s.pwr.dieTemps.any (540 ≤ ·) = false → s.pwr.dieTemps.all (· ≤ 528) = false →
       exec .thermalLevelUpdate s = .next { s with pwr := { s.pwr with coolMs := 0 } })) ∧
  (∀ (s : State) (readings : List Nat), s.pwr.railsOn = true → s.pwr.tripping = [] →
     (∀ i, i < 64 → s.get HS_THERM_STATUS.MAX i < 1024) →
     ∃ t, exec (.thermalSample readings) s = .next t ∧ t.pwr.dieTemps.length = 27 ∧
       ∀ i, i < 64 → t.get HS_THERM_STATUS.TEMP i = min (readings.getD i 0) 1023
         ∧ t.get HS_THERM_STATUS.MAX i = max (min (readings.getD i 0) 1023) (s.get HS_THERM_STATUS.MAX i)
         ∧ (760 < readings.getD i 0 → t.get HS_THERM_STATUS.FAILED i = 1))

/-- With no command waiting, the step is one HCLK cycle: a running time base gains ADDEND and carries nanoseconds into 48-bit
seconds at 10^9 (R409; that an empty queue is one cycle is the model's choice, log entry 1). A cycle that ends no microsecond
changes nothing else; one that ends a microsecond counts it for every partition as the first kind of R378 that applies: PROGRESS
in PROGRESS_US, DEVICE_STALL in STALL_US, OWN_WAIT and IDLE in neither (R378, R379, Table 15.12).

CK_TIME_SET steps the time base to SEC and 0 ns; with no TIME frame held back, a step that passes no tide edge changes nothing
else but STEPS, the gate lists' entries and the follower's own notes of time. A CK_TIME_SEC read answers the seconds and latches
CK_TIME_NS (R410, R443).

The first PPS edge puts the time base at the start of the next second and ends holdover; an edge more than 10 µs away from 1
s after the last accepted one is counted and discarded; one shorter than its filter, or with another source, is no edge;
three seconds without an accepted edge set HOLDOVER and clear LOCKED, and before them nothing happens (R411, R426). -/
def Obligations.TimeBaseCountsAndSteps : Prop :=
  (∀ s : State, s.pending = [] →
     (s.tb.running = false → step s = .next s) ∧
     (s.tb.running = true → s.tb.ns < 1000000000 → s.tb.frac < 4294967296 → s.tb.sec < 281474976710656 →
       ∃ t, step s = .next t ∧ t = { s with tb := t.tb, regs := t.regs, pt := t.pt, hs := t.hs } ∧ t.tb.hclk = s.tb.hclk + 1
         ∧ t.tb.ns < 1000000000 ∧ t.tb.frac < 4294967296
         ∧ ((t.tb.sec * 1000000000 + t.tb.ns) * 4294967296 + t.tb.frac)
             % (281474976710656 * 1000000000 * 4294967296)
           = ((s.tb.sec * 1000000000 + s.tb.ns) * 4294967296 + s.tb.frac + s.get CK_TIME_ADDEND.ADDEND)
             % (281474976710656 * 1000000000 * 4294967296)
         ∧ (t.tb.sec * 1000000 + t.tb.ns / 1000 = s.tb.sec * 1000000 + s.tb.ns / 1000 → t = { s with tb := t.tb })
         ∧ (t.tb.sec * 1000000 + t.tb.ns / 1000 ≠ s.tb.sec * 1000000 + s.tb.ns / 1000 → t.pt = { s.pt with active := [] }
             ∧ ∀ p, p < 64 →
                 t.get HS_PART_AVAIL.PROGRESS_US p = (if s.partState p ≠ partFree ∧ s.timeKind p = .progress then
                     min (s.get HS_PART_AVAIL.PROGRESS_US p + 1) (2 ^ HS_PART_AVAIL.PROGRESS_US.width - 1)
                   else s.get HS_PART_AVAIL.PROGRESS_US p)
                 ∧ t.get HS_PART_AVAIL.STALL_US p = (if s.partState p ≠ partFree ∧ s.timeKind p = .deviceStall then
                     min (s.get HS_PART_AVAIL.STALL_US p + 1) (2 ^ HS_PART_AVAIL.STALL_US.width - 1)
                   else s.get HS_PART_AVAIL.STALL_US p)))) ∧
  (∀ (s : State) (up : Nat) (value : Word), s.hubUp = true → up < 2 →
     let set : TimeStamp := ⟨(value.extractLsb' 0 48).toNat, 0, 0⟩
     (∃ t, exec (.ckTimeSet up value) s = .next t ∧ t.tb.sec = set.sec ∧ t.tb.ns = 0 ∧ t.tb.frac = 0
       ∧ (tideOf set ≤ tideOf s.now → s.tm.times = [] →
           t = { (s.viaUp up).bump CK_TIME_STATUS.STEPS 0 1 with tb := t.tb, tm := { s.tm with entry := [] } })) ∧
     exec (.ckTimeSecRead up) s
       = .next (((s.viaUp up).put CK_TIME_NS.NS 0 s.tb.ns).emit (.readData up (leBytes 8 s.tb.sec)))) ∧
  (∀ (s : State) (high low : Nat), s.hubUp = true →
    (s.get CK_TIME_CFG.SRC = 1 → 50 ≤ high → 50 ≤ low → s.tb.lastPps = none → s.tb.secNextNew = false →
      s.tb.sec < 281474976710655 → s.tb.ns < 999998999 → s.tb.frac < 4294967296 →
      ∃ t, exec (.ppsEdge high low) s = .next t ∧ t.tb.sec = s.tb.sec + 1 ∧ t.tb.ns = 0 ∧ t.tb.frac = 0
        ∧ t.tb.lastPps = some ⟨s.tb.sec + 1, 0, 0⟩ ∧ t.get CK_TIME_STATUS.HOLDOVER = 0) ∧
    (∀ last, s.get CK_TIME_CFG.SRC = 1 → 50 ≤ high → 50 ≤ low → s.tb.lastPps = some last →
      (timeUnits s.now : Int) - timeUnits last > 1000010000 * 4294967296 →
      exec (.ppsEdge high low) s = .next (s.bump CK_TIME_STATUS.PPS_REJECT 0 1)) ∧
    (high < 50 ∨ low < 50 ∨ s.get CK_TIME_CFG.SRC ≠ 1 → exec (.ppsEdge high low) s = .next s) ∧
    (s.get CK_TIME_CFG.SRC = 1 →
      (s.tb.lastPps = none →
        exec .ppsHoldover s = .next ((s.put CK_TIME_STATUS.HOLDOVER 0 1).put CK_TIME_STATUS.LOCKED 0 0)) ∧
      (∀ last, s.tb.lastPps = some last →
        (3000000000 * 4294967296 ≤ (timeUnits s.now : Int) - timeUnits last →
          exec .ppsHoldover s = .next ((s.put CK_TIME_STATUS.HOLDOVER 0 1).put CK_TIME_STATUS.LOCKED 0 0)) ∧
        ((timeUnits s.now : Int) - timeUnits last < 3000000000 * 4294967296 → exec .ppsHoldover s = .next s))) ∧
    (s.get CK_TIME_CFG.SRC ≠ 1 → exec .ppsHoldover s = .next s))

/-- What TIME frames do: SYNC goes out on every SWITCH port that is up, a DELAY_REQ is answered with its arrival time on its
port, a follower asks its source once a second and keeps the instant at which its question leaves, keeps the two times of a
SYNC, and after a DELAY_RSP leads its source by ((t2 − t1) − (t4 − t3)) ÷ 2, which the correction takes away: a step beyond 1 µs,
only ADDEND below. A TIME frame waits while gate 7 of its port is shut, and one with a reserved bit set is counted and discarded
(R10, R347, R410, R412). -/
def Obligations.TimeFramesExchangeTimes : Prop :=
  ∀ (s : State) (port : Nat) (p : TimePayload) (arrival : TimeStamp), s.hubUp = true →
    (s.flag CK_TIME_CFG.SYNC_OUT = true → s.tm.times = [] → (∀ q, q < 512 → s.timeGate q = true) →
      exec .syncSend s = .next { s with out := s.out ++ ((List.range 512).filter fun q =>
        s.portUp q && s.get LK_PORT_CFG.ROLE q == 2).map (fun q => .link q 0x64 [0, 0, s.tb.sec, s.tb.ns, s.tb.frac]) }) ∧
    (p.typ = 1 → p.rsv = 0 → port < 512 → s.portUp port = true →
      (s.tm.times = [] → s.timeGate port = true → exec (.delayReq port p arrival) s
        = .next (s.emit (.link port 0x64 [2, p.seq % 256, arrival.sec, arrival.ns, arrival.frac]))) ∧
      (s.timeGate port = false → exec (.delayReq port p arrival) s
        = .next { s with tm := { s.tm with times := s.tm.times ++ [⟨port, 2, p.seq % 256, arrival⟩] } })) ∧
    (p.rsv ≠ 0 → exec (.delayReq port p arrival) s = .next (s.bump LK_PORT_ERR.PROTO port 1)
      ∧ exec (.timeSync port p arrival) s = .next (s.bump LK_PORT_ERR.PROTO port 1)
      ∧ exec (.delayRsp port p) s = .next (s.bump LK_PORT_ERR.PROTO port 1)) ∧
    (s.follows (s.get CK_TIME_CFG.SRC_PORT) = true → s.tm.times = [] → s.timeGate (s.get CK_TIME_CFG.SRC_PORT) = true →
      exec .delayReqSend s = .next (({ s with
          tb := { s.tb with delaySeq := (s.tb.delaySeq + 1) % 256, delayReq := some (s.tb.delaySeq, s.now) } } : State).emit
            (.link (s.get CK_TIME_CFG.SRC_PORT) 0x64 [1, s.tb.delaySeq, 0, 0, 0]))) ∧
    (s.follows port = true → p.typ = 0 → p.rsv = 0 → s.tb.linkDelay = none →
      exec (.timeSync port p arrival) s = .next { s with tb := { s.tb with syncTimes := some (p.time, arrival) } }) ∧
    (s.follows port = false → p.rsv = 0 → exec (.timeSync port p arrival) s = .next s) ∧
    (∀ t1 t2 t3, s.follows port = true → p.typ = 2 → p.rsv = 0 → s.tb.delayReq = some (p.seq, t3) → s.tb.syncTimes = some (t1, t2) →
      let off : Int := (timeDiff t2 t1 - timeDiff p.time t3) / 2
      ∃ t, exec (.delayRsp port p) s = .next t ∧ t.tb.delayReq = none
        ∧ t.tb.linkDelay = some ((timeDiff t2 t1 + timeDiff p.time t3) / 2)
        ∧ (off.natAbs ≤ 1000 * 4294967296 → t.now = s.now ∧ t.get CK_TIME_STATUS.LOCKED = 1
            ∧ t.get CK_TIME_STATUS.STEPS = s.get CK_TIME_STATUS.STEPS)
        ∧ (1000 * 4294967296 < off.natAbs → t.now = timeMove s.now (-off)))

/-! ## Fares, health and the purser (chapters 10, 15, 16 and 18) -/

/-- At a tide edge the groups of a partition receive its whole fare, whatever they had before, the tide's number rises by 1, use
starts at zero and the decks may start pass steps again (R262, R267, R407). The tier engine and the tray table have nothing
to do, and every group's share but group 0's stays within 64 64ths.

Charging a unit of work that the balances cover takes its whole cost from the groups it may draw on, no more, in their order,
and counts the use; with FARE_EN clear the balances stay (R263, R266, R267). -/
def Obligations.FaresAreDealtAndCharged : Prop :=
  (∀ s : State, s.hubUp = true → s.te = .reset → s.ty = .reset →
     ∃ t, exec .tideEdge s = .next t ∧ t.get PT_CFG.TIDE_SEQ = (s.get PT_CFG.TIDE_SEQ + 1) % 2 ^ PT_CFG.TIDE_SEQ.width
       ∧ t.pt.used = [] ∧ t.pt.written = [] ∧ t.pwr.decksHalted = false ∧ t.pwr.overSample = false
       ∧ t.deckA.reserveUsed = 0 ∧ t.deckB.reserveUsed = 0 ∧ t.fe = s.fe ∧ Safety.memoryKept s t ∧ t.tb = s.tb
       ∧ ∀ p r, s.partState p ≠ partFree → p < 64 →
           ((List.range 7).map fun k => s.get PT_GROUP_SHARE.SHARE (8 * p + k + 1)).sum ≤ 64 →
           ((List.range 8).map fun g => t.balance p g r).sum = t.fare p r) ∧
  (∀ (s : State) (p g : Nat) (r : Res) (n : Nat), p < 64 → g < 8 → s.covers p g r n = true →
     let t := s.charge p g r n
     t.usedNow p r = s.usedNow p r + n
       ∧ (s.faresBind = true → t.drawable p g r + n = s.drawable p g r
           ∧ ∀ h, h < 8 → h ∉ s.lenders p g → t.balance p h r = s.balance p h r)
       ∧ (s.faresBind = false → t.pt.balance = s.pt.balance)
       ∧ ∀ q h r', h < 8 → q ≠ p ∨ r' ≠ r → t.balance q h r' = s.balance q h r')

/-- Containment of a LIVE partition: CONTAINED, its cause in HS_PART_STATE and one entry of severity CONTAINED in the log; a
command of it that has not started completes CONTAINED, a running one stops at its next boundary (R372). Its leases stand
still; memory is otherwise unchanged. No store waits for a block.

The log ring: enabling it zero-fills it and starts at entry 0; a write goes to TAIL, last its phase bit, while an upstream
port is up and the ring has room; a HEAD write consumes what was written and is refused beyond it (R375, R376, R428). -/
def Obligations.ContainmentAndTheLogRing : Prop :=
  (∀ (s : State) (p : Nat) (cause : ContainCause), s.hubUp = true → s.live p = true → s.hs.queue.length < 1024 → s.te.held = [] →
     let code := match cause with | .tallyLost _ _ => 0x48 | .stateUE _ => 0x50 | .request => 0x51
     let marked (t : State) : Prop := t.partState p = partContained ∧ t.get HS_PART_STATE.CONTAINED p = 1
       ∧ t.get HS_PART_STATE.CAUSE p = code ∧ Safety.memoryKept (s.freezeLeases p) t
       ∧ ∃ e, t.hs.queue = s.hs.queue ++ [e] ∧ e.cause = code ∧ e.sev = 2 ∧ e.part = some p ∧ e.seq = s.hs.nextSeq % 4294967296
     (s.fe.cmds.all (·.part != p) = true → ∃ t, exec (.contain p cause) s = .next t ∧ marked t ∧ t.fe = s.fe) ∧
     (∀ c : Cmd, s.fe.cmds = [c] → c.part = p → c.stage = .waiting ∨ c.stage = .held →
       ∃ t, exec (.contain p cause) s = .next t ∧ marked t
         ∧ t.fe.cmds = [{ c with causes := c.causes ++ [(stContained, 0)], stage := .finished }]) ∧
     (∀ c : Cmd, s.fe.cmds = [c] → c.part = p → c.stage = .running → c.opc ≠ ocReduce →
       ∃ t, exec (.contain p cause) s = .next t ∧ marked t
         ∧ t.fe.cmds = [{ c with causes := c.causes ++ [(stContained, 0)], stop := some (stContained, 0) }])) ∧
  (∀ s : State, s.hubUp = true →
     (∀ up, up < 2 → s.flag HS_LOG_CTRL.ENABLE = false →
       ∃ t, exec (.logEnable up) s = .next t ∧ t.get HS_LOG_CTRL.ENABLE = 1 ∧ t.get HS_LOG_CTRL.HEAD = 0
         ∧ t.get HS_LOG_STATUS.TAIL = 0 ∧ t.get HS_LOG_STATUS.FULL = 0 ∧ t.hs.unread = 0 ∧ t.hs.logPass = 0
         ∧ t.out = s.out ++ [.fmZero (if (s.viaUp up).mg.up0 then 0 else 1) s.logBase (64 * s.logSize)]) ∧
     (∀ up, up < 2 → s.flag HS_LOG_CTRL.ENABLE = true → exec (.logEnable up) s = .next (s.viaUp up)) ∧
     (∀ e q, s.hs.queue = e :: q → s.mg.up0 = true → s.flag HS_LOG_CTRL.ENABLE = true → s.flag HS_LOG_CTRL.MSI_EN = false →
       s.hs.unread < s.logSize →
       ∃ t, exec .logEntryWrite s = .next t ∧ t.hs.queue = q ∧ t.hs.unread = s.hs.unread + 1
         ∧ t.get HS_LOG_STATUS.TAIL = (s.get HS_LOG_STATUS.TAIL + 1) % s.logSize % 65536
         ∧ t.get HS_LOG_STATUS.FULL = (if s.hs.unread + 1 = s.logSize then 1 else 0)
         ∧ ∃ bytes, bytes.length = 64
           ∧ t.out = s.out ++ [.fmWrite 0 (s.logBase + 64 * s.get HS_LOG_STATUS.TAIL) bytes,
               .fmWrite 0 (s.logBase + 64 * s.get HS_LOG_STATUS.TAIL + 56) (leBytes 8 (2 ^ 63 * (1 - s.hs.logPass % 2)))]) ∧
     (s.hs.queue = [] → s.hs.extra = [] → exec .logEntryWrite s = .next s) ∧
     (∀ up head, up < 2 → head < s.logSize → s.get HS_LOG_CTRL.HEAD < s.logSize →
       let n := (head + s.logSize - s.get HS_LOG_CTRL.HEAD) % s.logSize
       (s.hs.unread < n → exec (.logHeadWrite up head) s = .next ((s.viaUp up).put HS_LOG_CTRL.REFUSED 0 1)) ∧
       (0 < n → n ≤ s.hs.unread → ∃ t, exec (.logHeadWrite up head) s = .next t ∧ t.get HS_LOG_CTRL.HEAD = head % 65536
         ∧ t.get HS_LOG_STATUS.FULL = 0 ∧ t.hs = { s.hs with unread := s.hs.unread - n }) ∧
       (n = 0 → exec (.logHeadWrite up head) s = .next (s.viaUp up))))

/-- COMMIT_SVN raises the fused count to the running image's SVN and never lowers it; an update asks for the image, and its end
writes the slot the purser did not boot from and prefers it, or leaves both slots and says which check failed (R385, R386).

A debug token is refused with a new challenge, or starts the scrub of every partition but 0; only after the scrub is the
module UNLOCKED, with near memory zero, no berth held and no sealed range (R389, R390). -/
def Obligations.ImagesAndDebugUnlock : Prop :=
  (∀ (s : State) (up : Nat) (run : Image), up < 2 → s.modState ≠ modOff → s.ps.running = some run →
     exec (.commitSvn up) s
       = .next { s.viaUp up with ps := { s.ps with svnCount := max s.ps.svnCount (min run.svn 63) } } ∧
     (s.flag PS_UPD_CMD.BUSY = false → ∃ t, exec (.imageUpdate up) s = .next t ∧ t.get PS_UPD_CMD.BUSY = 1 ∧ t.ps = s.ps
       ∧ t.out = s.out ++ [.fmRead (if (s.viaUp up).mg.up0 then 0 else 1) (s.get PS_UPD_ADDR.ADDR) (s.get PS_UPD_LEN.LEN)]) ∧
     (s.flag PS_UPD_CMD.BUSY = true →
       (∃ t, exec (.imageUpdateDone none true) s = .next t ∧ t.get PS_UPD_CMD.RESULT = 8 ∧ t.get PS_UPD_CMD.BUSY = 0 ∧ t.ps = s.ps) ∧
       ∀ i, ∃ t, exec (.imageUpdateDone (some i) true) s = .next t ∧ t.get PS_UPD_CMD.BUSY = 0
         ∧ (s.ps.check (some i) = 0 → t.get PS_UPD_CMD.RESULT = 0 ∧ t.ps.slot (1 - s.get PS_ID.SLOT) = some i
             ∧ t.get PS_BOOT_CFG.PREFER_B = 1 - s.get PS_ID.SLOT
             ∧ (s.get PS_ID.SLOT ≤ 1 → t.ps.slot (s.get PS_ID.SLOT) = s.ps.slot (s.get PS_ID.SLOT)))
         ∧ (s.ps.check (some i) ≠ 0 → t.get PS_UPD_CMD.RESULT = s.ps.check (some i) ∧ t.ps = s.ps))) ∧
  (∀ s : State, s.hubUp = true →
     (∀ token, s.ps.debug = .locked → s.ps.unlocking = false → s.partitions = [0] → ∃ t, exec (.debugUnlock token) s = .next t
       ∧ (s.ps.tokenOk token = false → t = { s with ps := { s.ps with challenge := Config.freeRandom s.freeCtr }, freeCtr := s.freeCtr + 1 })
       ∧ (s.ps.tokenOk token = true → t = ({ s with ps := { s.ps with unlocking := true } } : State).put PT_PART_CMD.BUSY 0 1)) ∧
     (∀ token, s.ps.debug ≠ .locked → exec (.debugUnlock token) s = .next s) ∧
     (s.ps.unlocking = true → s.partitions = [0] →
       ∃ t, exec .unlockZeroFillDone s = .next t ∧ t.ps.debug = .unlocked ∧ t.ps.unlocking = false
         ∧ t.pm.near = { cells := [], poison := [] } ∧ t.heldSlots = [] ∧ t.ho.lines = [] ∧ t.ho.replies = [] ∧ t.ps.seals = []
         ∧ t.fl.berths = [] ∧ t.deckA.scratch = [] ∧ t.deckB.scratch = [] ∧ t.get PT_PART_CMD.BUSY = 0
         ∧ t.ps.svnCount = s.ps.svnCount ∧ t.ps.uid = s.ps.uid ∧ t.ps.slotA = s.ps.slotA ∧ t.ps.slotB = s.ps.slotB))

/-- CREATE of a FREE partition leaves it LIVE, counted in CREATE_SEQ, with FARE_EN locked; of any other it is refused. DESTROY of
a LIVE or CONTAINED one starts its teardown, of any other it is refused; commands that name partition 0 or come while BUSY
are refused (R396 to R398, R447). Nothing is bound to the partition that DESTROY names here. -/
def Obligations.PartitionsAreCreatedAndDestroyed : Prop :=
  ∀ (s : State) (up p : Nat), s.hubUp = true → up < 2 → 0 < p → p < 64 →
    (s.flag PT_PART_CMD.BUSY = false → s.partState p = partFree →
      ∃ t, exec (.create up p) s = .next t ∧ t.partState p = partLive ∧ t.get PT_PART_CMD.RESULT = 0
        ∧ t.get PT_PART_STATE.CREATE_SEQ p = (s.get PT_PART_STATE.CREATE_SEQ p + 1) % 4294967296
        ∧ t.get PS_LOCK_STATUS.FARE_LOCKED = 1 ∧ (∀ q, q ≠ p → t.partState q = s.partState q)
        ∧ Safety.memoryKept s t ∧ t.fe = s.fe) ∧
    (s.flag PT_PART_CMD.BUSY = false → s.partState p ≠ partFree →
      exec (.create up p) s = .next (((s.viaUp up).put PT_PART_CMD.PART 0 p).put PT_PART_CMD.RESULT 0 1)) ∧
    (s.flag PT_PART_CMD.BUSY = false → s.partState p = partFree ∨ s.partState p = partTeardown →
      exec (.destroy up p) s = .next (((s.viaUp up).put PT_PART_CMD.PART 0 p).put PT_PART_CMD.RESULT 0 1)) ∧
    (s.flag PT_PART_CMD.BUSY = true →
      exec (.destroy up p) s = .next (((s.viaUp up).put PT_PART_CMD.PART 0 p).put PT_PART_CMD.RESULT 0 3)) ∧
    (s.flag PT_PART_CMD.BUSY = false →
      exec (.create up 0) s = .next (((s.viaUp up).put PT_PART_CMD.PART 0 0).put PT_PART_CMD.RESULT 0 2)) ∧
    (s.flag PT_PART_CMD.BUSY = false → s.partState p = partLive ∨ s.partState p = partContained →
      s.endpointPorts p = [] → s.ctxsOf p = [] → s.groupsOf p = [] → s.slotsOf p = [] → s.te.held = [] → s.ho = .reset →
      ∃ t, exec (.destroy up p) s = .next t ∧ t.partState p = partTeardown ∧ t.get PT_PART_CMD.BUSY = 1 ∧ t.fe = s.fe
        ∧ t.pm = s.pm ∧ ∀ k e, (k, e) ∈ t.sc.groups → e.part ≠ p) ∧
    (s.partState p = partTeardown → s.drainedPart p = true → s.ps.unlocking = false →
      ∃ t, exec (.teardownContinue p) s = .next t ∧ t.partState p = partFree ∧ t.get PT_PART_CMD.BUSY = 0
        ∧ t.get PT_PART_CMD.RESULT = 0 ∧ (∀ k e, (k, e) ∈ t.fl.berths → e.part ≠ p))

/-- SEAL of a held range makes its entry busy, and the end of its hashing makes it LIVE with the digest of the bytes in near
memory, which stay; a handle that is not held, or a range that overlaps a sealed one, is refused; UNSEAL clears LIVE (R394,
R395). -/
def Obligations.SealsCoverTheirRanges : Prop :=
  ∀ (s : State) (up n : Nat), s.hubUp = true → up < 2 → s.get PS_DIGEST_SEL.ENTRY = n → n < 16 →
    let x := s.sealEntry n
    x.busy = false →
    (x.length ≠ 0 → x.offset + x.length ≤ 16384 → (s.slot x.part (handleSlot x.handle)).state ≠ .draining →
      (s.heldSlot x.part x.handle = none → exec (.sealData up) s = .next ((s.viaUp up).setSeal n { x with result := 1 })) ∧
      (s.heldSlot x.part x.handle ≠ none → s.sealOverlaps x = true →
        exec (.sealData up) s = .next ((s.viaUp up).setSeal n { x with result := 2 })) ∧
      (s.heldSlot x.part x.handle ≠ none → s.sealOverlaps x = false →
        exec (.sealData up) s = .next ((s.viaUp up).setSeal n { x with busy := true }))) ∧
    exec (.unsealData up) s = .next ((s.viaUp up).setSeal n { x with live := false, result := 0 }) ∧
    ∀ (m : Nat) (sl : Slot), (s.sealEntry m).busy = true → s.te.held = [] →
      s.heldSlot (s.sealEntry m).part (s.sealEntry m).handle = some sl →
      exec (.sealHashDone m) s = .next (s.setSeal m { s.sealEntry m with
        live := true, busy := false, result := 0,
        digest := Config.sha384 (s.readSlot sl ((s.sealEntry m).offset * 4096) ((s.sealEntry m).length * 4096)).bytes })

/-- The SPDM answers of a purser that runs an image: version 1.3, ECDSA P-384 and SHA-384 only, slot 0 only, and signatures with
the Alias key over the request's nonce (R388, R392, R393). The answers' fields follow the standard (log entry 43).

MCTP and PLDM requests are answered from the module's state, SETDASA acts on the static address 0x30 + SLOT_ID, and ENTDAA on
a target without an address (R430, R431, Table 18.7). Completion codes are the standards' (log entry 43).

JTAG: IDCODE and the challenge are read in every debug state, the pin instructions act in STANDBY and FAILED only, die-
internal ones are BYPASS outside UNLOCKED; inside UNLOCKED they act on what the manual does not describe and are refused by
name (R389 to R391, R432). -/
def Obligations.ManagementPortsAnswer : Prop :=
  (∀ (s : State) (nonce : BitVec 256), s.purserUp = true →
     exec .getVersion s = .next (s.emit (.spdm "VERSION" [1, 3] [] none)) ∧
     exec .getCapabilities s = .next (s.emit (.spdm "CAPABILITIES" [1, 1, 2] [] none)) ∧
     exec .negotiateAlgorithms s = .next (s.emit (.spdm "ALGORITHMS" [384, 384, 384] [] none)) ∧
     exec (.getDigests 0) s = .next (s.emit (.spdm "DIGESTS" [1] [s.chainDigest] none)) ∧
     exec (.getCertificate 0) s = .next (s.emit (.spdm "CERTIFICATE" [0] [s.chainDigest, s.ps.aliasCert] none)) ∧
     exec (.challenge 0 nonce) s = .next (s.emit (.spdm "CHALLENGE_AUTH" [0] [s.chainDigest] (some (Config.ecdsaSign s.ps.aliasKey
       (Config.sha384 (wideBytes 32 nonce ++ wideBytes 48 s.chainDigest ++ s.measurements 255)))))) ∧
     (∀ slot, slot ≠ 0 → exec (.getDigests slot) s = .next (s.emit spdmError) ∧ exec (.getCertificate slot) s = .next (s.emit spdmError)
       ∧ exec (.challenge slot nonce) s = .next (s.emit spdmError)) ∧
     exec (.getMeasurements 1 nonce) s = .next (s.emit (.spdm "MEASUREMENTS" (1 :: (wideBytes 48 Config.bootRomDigest).map (·.toNat)) []
       (some (Config.ecdsaSign s.ps.aliasKey (Config.sha384 (wideBytes 32 nonce ++ wideBytes 48 Config.bootRomDigest)))))) ∧
     (∀ i, 5 < i → i ≠ 255 → s.measurement i = none → exec (.getMeasurements i nonce) s = .next (s.emit spdmError))) ∧
  (∀ s : State, s.purserUp = true →
     (∀ eid, 0 < eid → eid < 255 → exec (.setEndpointId eid) s
       = .next (({ s with mg := { s.mg with eid := eid } } : State).emit (.mctp "SetEndpointID" [0, eid]))) ∧
     exec (.setEndpointId 0) s = .next (s.emit (.mctp "SetEndpointID" [1, s.mg.eid])) ∧
     exec .getEndpointId s = .next (s.emit (.mctp "GetEndpointID" [0, s.mg.eid])) ∧
     (∀ m, m = 0 ∨ m = 1 ∨ m = 5 → exec (.getMctpVersionSupport m) s
       = .next (s.emit (.mctp "GetMCTPVersionSupport" [0, Config.standardField m]))) ∧
     exec .getMessageTypeSupport s = .next (s.emit (.mctp "GetMessageTypeSupport" [0, 0, 1, 5])) ∧
     exec .gettid s = .next (s.emit (.mctp "GetTID" [0, Config.standardField 256])) ∧
     (∀ typ, typ = 0 ∨ typ = 2 → exec (.getpldmversion typ) s
       = .next (s.emit (.mctp "GetPLDMVersion" [0, Config.standardField (512 + typ)]))) ∧
     exec .getpldmtypes s = .next (s.emit (.mctp "GetPLDMTypes" [0, 0, 2])) ∧
     exec (.getpldmcommands 0) s = .next (s.emit (.mctp "GetPLDMCommands" [0, 2, 3, 4, 5])) ∧
     exec (.getpldmcommands 2) s = .next (s.emit (.mctp "GetPLDMCommands" [0, 4, 10, 17, 33, 81])) ∧
     exec (.getpdr 1) s = .next (s.emit (.mctp "GetPDR" [0, 1, 400, 380, 600, 720])) ∧
     exec (.getsensorreading 1) s = .next (s.emit (.mctp "GetSensorReading" [0, s.get HS_PWR_STATUS.VIN_DV])) ∧
     exec (.getsensorreading 4) s = .next (s.emit (.mctp "GetSensorReading" [0, s.get HS_PWR_STATUS.LEVEL])) ∧
     exec (.getstatesensorreadings 32) s = .next (s.emit (.mctp "GetStateSensorReadings" [0, s.modState])) ∧
     (∀ eid, exec (.seteventreceiver eid) s
       = .next (({ s with mg := { s.mg with eventEid := some eid } } : State).emit (.mctp "SetEventReceiver" [0]))) ∧
     (∀ dyn, exec (.setdasa (48 + s.get HS_STRAP_STATUS.SLOT_ID) dyn) s = .next { s with mg := { s.mg with i3cAddr := dyn } }) ∧
     (∀ dyn, s.mg.i3cAddr = 0 → exec (.entdaa dyn) s = .next (({ s with mg := { s.mg with i3cAddr := dyn } } : State).emit
       (.i3c [Config.manufacturerCode.toNat, 0x7820, (s.ps.uid.extractLsb' 0 16).toNat]))) ∧
     (∀ dyn, s.mg.i3cAddr ≠ 0 → exec (.entdaa dyn) s = .next s) ∧
     s.configIds = (0x7820, 0x058000, s.ps.stepping.toNat)) ∧
  (∀ s : State, s.modState ≠ modOff →
     let acts (ins : JtagIns) (n v : Nat) : State := ({ s with mg := { s.mg with jtag := ins } } : State).emit (.jtag n v)
     exec (.jtagInstruction .bypass) s = .next (acts .bypass 1 0) ∧
     exec (.jtagInstruction .idcode) s
       = .next (acts .idcode 32 (2 ^ 28 + 4096 * 0x7820 + 2 * Config.manufacturerCode.toNat + 1)) ∧
     exec (.jtagInstruction .samplePreload) s = .next (acts .samplePreload 0 0) ∧
     exec (.jtagInstruction .readChallenge) s = .next (acts .readChallenge 384 s.ps.challenge.toNat) ∧
     (∀ ins, ins = .extest ∨ ins = .clamp ∨ ins = .highz →
       (s.modState ≠ modStandby → s.modState ≠ modFailed → exec (.jtagInstruction ins) s = .next (acts .bypass 1 0)) ∧
       (s.modState = modStandby ∨ s.modState = modFailed → ∃ n, exec (.jtagInstruction ins) s = .next (acts ins n 0))) ∧
     (∀ code, (s.ps.debug ≠ .unlocked → exec (.jtagInstruction (.dieInternal code)) s = .next (acts .bypass 1 0)) ∧
       (s.ps.debug = .unlocked → exec (.jtagInstruction (.dieInternal code)) s = .refused .jtagDieInternal)))

/-- Over every step, resets included, the fuses that manufacture programs stay, and the others change only in one direction: the
security version never falls, a revoked key stays revoked, the debug fuse once blown stays blown (R387, Table 16.2). -/
def Obligations.FusesAreOnlyEverBlown : Prop :=
  ∀ s t : State, step s = .next t → t.ps.uid = s.ps.uid ∧ t.ps.stepping = s.ps.stepping ∧ t.ps.keyHash = s.ps.keyHash
    ∧ s.ps.svnCount ≤ t.ps.svnCount ∧ (∀ k, s.ps.keyRevoke.getLsbD k = true → t.ps.keyRevoke.getLsbD k = true)
    ∧ (s.ps.debugDisable = true → t.ps.debugDisable = true)

/-! ## The command front end (chapter 2) -/

/-- CONTEXT_ENABLE makes the checks of R30 in order and shows the first that fails; with all passed the completion ring is zero-
filled first, and once that is acknowledged the context is ENABLED, or PAUSED, with its indices at zero. A row answers each
half (log entry 33).

The other edges of Table 2.1: DISABLE drains an ENABLED context and returns one in ERROR to DISABLED, PAUSE and RESUME move
between ENABLED and PAUSED, and a drained context is DISABLED (R61). No semaphore entry is held at the home. -/
def Obligations.ContextsChangeState : Prop :=
  (∀ (s : State) (c : Nat), s.hubUp = true → c < 4096 → s.ctxState c = ctxDisabled →
     let sq := s.get CF_CTX_SQ.BASE c
     let cq := s.get CF_CTX_CQ.BASE c
     let l1 := s.get CF_CTX_SQ.LOG2 c
     let l2 := s.get CF_CTX_CQ.LOG2 c
     let fails (cause : Nat) : Prop := exec (.contextEnable c) s
       = .next ((s.put CF_CTX_STATE.REFUSED c 1).put CF_CTX_STATE.ERR_CAUSE c cause)
     let based : Prop := sq % 4096 = 0 ∧ cq % 4096 = 0
     let sized : Prop := 4 ≤ l1 ∧ l1 ≤ 16 ∧ 4 ≤ l2 ∧ l2 ≤ 16
     let ranked : Prop := s.rankId (s.ctxPart c) (s.ctxRank c) ≠ 0
     let quota : Prop := s.get CF_PART_QUOTA.SLOT_QUOTA (s.ctxPart c) ≠ 0
     (s.flag CF_CTX_CTRL.ENABLE c = false →
       (¬ based → fails 1) ∧ (based → ¬ sized → fails 2) ∧ (based → sized → ¬ ranked → fails 3)
         ∧ (based → sized → ranked → ¬ quota → fails 4)
         ∧ (based → sized → ranked → quota → Safety.canSend s →
             ∃ t, exec (.contextEnable c) s = .next t ∧ t.get CF_CTX_CTRL.ENABLE c = 1 ∧ t.ctxState c = ctxDisabled
               ∧ t.ownerUnacked (.record c) = true ∧ Safety.memoryKept s t ∧ t.fe = s.fe)) ∧
     (s.flag CF_CTX_CTRL.ENABLE c = true → s.ownerUnacked (.record c) = true → exec (.contextEnable c) s = .next s) ∧
     (s.flag CF_CTX_CTRL.ENABLE c = true → s.ownerUnacked (.record c) = false →
       ∃ t, exec (.contextEnable c) s = .next t
         ∧ t.ctxState c = (if s.flag CF_CTX_CTRL.PAUSE c then ctxPaused else ctxEnabled)
         ∧ t.get CF_CTX_STATE.SQ_HEAD c = 0 ∧ t.get CF_CTX_IDX.SQ_TAIL c = 0 ∧ t.get CF_CTX_IDX.CQ_HEAD c = 0
         ∧ t.get CF_CTX_STATE.CQ_NEXT c = 0 ∧ t.ctx c = Ctx.reset
         ∧ (∀ d, d ≠ c → t.ctxState d = s.ctxState d ∧ t.ctx d = s.ctx d))) ∧
  (∀ (s : State) (c : Nat), s.hubUp = true → c < 4096 → s.ho = .reset →
     (s.ctxState c = ctxDraining ∨ s.ctxState c = ctxError → exec (.contextEnable c) s = .next (s.put CF_CTX_STATE.REFUSED c 1)) ∧
     (s.ctxState c = ctxEnabled ∨ s.ctxState c = ctxPaused → s.ctxCmds c = [] → s.co.seqs = [] →
       exec (.contextDisable c) s
         = .next ((s.put CF_CTX_CTRL.ENABLE c 0).put CF_CTX_STATE.STATE c ctxDraining)) ∧
     (s.ctxState c = ctxError →
       exec (.contextDisable c) s
         = .next ((s.put CF_CTX_CTRL.ENABLE c 0).put CF_CTX_STATE.STATE c ctxDisabled)) ∧
     (s.ctxState c = ctxEnabled →
       exec (.contextPause c) s = .next ((s.put CF_CTX_CTRL.PAUSE c 1).put CF_CTX_STATE.STATE c ctxPaused)) ∧
     (s.ctxState c = ctxPaused →
       exec (.contextResume c) s = .next ((s.put CF_CTX_CTRL.PAUSE c 0).put CF_CTX_STATE.STATE c ctxEnabled)) ∧
     (s.ctxState c = ctxDraining → s.inflight c = 0 →
       exec (.contextDrainComplete c) s = .next (s.put CF_CTX_STATE.STATE c ctxDisabled)) ∧
     (s.ctxState c = ctxDraining → s.inflight c ≠ 0 → exec (.contextDrainComplete c) s = .next s))

/-- A doorbell from the owner that passes Table 2.5 sets SQ_TAIL and is answered OK, or RING_FULL where it fills the ring; one that
repeats the current tail changes no register of the ring and is answered OK; one from anybody else changes no ring, is counted
and answered NOT_OWNER. The posted completion doorbell frees what it names, and is discarded and counted where it names more
than was written (R37 to R41). -/
def Obligations.DoorbellsMoveTheRings : Prop :=
  ∀ (s : State) (f : Frame), s.hubUp = true → Safety.canSend s → apertureOk f = true →
    let c := slotContext f
    let n := s.sqSize c
    let idx := doorbellValue f % 65536
    let head := s.get CF_CTX_STATE.SQ_HEAD c
    let answered (t : State) (st : Nat) : Prop := ∃ r, Safety.lastSent t f.src.toNat vcRsp = some r ∧ r.opc = 0x22#8 ∧ r.tag = f.tag
      ∧ r.data.head? = some (BitVec.ofNat 8 st) ∧ r.data.length = 64
    (inAperture f = true → slotOffset6 f = 0 → s.doorbellOwner f = true → s.partState (s.ctxPart c) ≠ partTeardown →
      s.doorbellReason f n = 0 → idx = s.get CF_CTX_IDX.SQ_TAIL c →
      ∃ t, exec (.db f) s = .next t ∧ Safety.regsKeptBut [LP_PART_STAT.NOROUTE] s t ∧ answered t stOk ∧ t.fe = s.fe ∧ Safety.memoryKept s t) ∧
    (inAperture f = true → slotOffset6 f = 0 → s.doorbellOwner f = true → s.partState (s.ctxPart c) ≠ partTeardown →
      s.doorbellReason f n = 0 → idx ≠ s.get CF_CTX_IDX.SQ_TAIL c → (s.get CF_CTX_IDX.SQ_TAIL c + n - head) % n ≤ (idx + n - head) % n →
      ∃ t, exec (.db f) s = .next t ∧ t.get CF_CTX_IDX.SQ_TAIL c = idx ∧ t.get CF_CTX_STATE.SQ_HEAD c = head
        ∧ answered t (if (idx + n - head) % n = n - 1 then stRingFull else stOk) ∧ t.fe = s.fe ∧ Safety.memoryKept s t) ∧
    (inAperture f = true → slotOffset6 f = 0 → s.doorbellOwner f = false → s.ctxPart c < 64 →
      ∃ t, exec (.db f) s = .next t ∧ t.get CF_CTX_IDX.SQ_TAIL c = s.get CF_CTX_IDX.SQ_TAIL c
        ∧ t.get CF_DB_REJECT.NOT_OWNER (s.ctxPart c) = min (s.get CF_DB_REJECT.NOT_OWNER (s.ctxPart c) + 1) 4294967295
        ∧ answered t stNotOwner) ∧
    (slotOffset6 f = 8 → s.doorbellOwner f = true → s.doorbellReason f (s.cqSize c) = 0 →
      let k := (idx + s.cqSize c - s.get CF_CTX_IDX.CQ_HEAD c) % s.cqSize c
      (k ≤ (s.ctx c).unconsumed → exec (.completionHeadDoorbell f) s
        = .next ((s.setCtx c { s.ctx c with unconsumed := (s.ctx c).unconsumed - k }).put CF_CTX_IDX.CQ_HEAD c idx)) ∧
      ((s.ctx c).unconsumed < k → exec (.completionHeadDoorbell f) s
        = .next (s.bump CF_DB_REJECT.DISCARDED (s.ctxPart c) 1)))

/-- A fetch sends one LD for the next descriptors of an ENABLED context and holds their command slots; when the data is there the
head moves on and a NOP descriptor is a command that waits for its dispatch, one with an opcode of no row ends at once with
BAD_DESC 0x10; data read for a command goes to that command (R36, R47, R63, R294). The module holds no other command. -/
def Obligations.DescriptorsAreFetchedAndChecked : Prop :=
  ∀ (s : State) (c : Nat), s.hubUp = true → c < 4096 →
    (s.fetchTurn c = false → exec (.descriptorFetch c) s = .next s) ∧
    (Safety.canSend s → s.ctxState c = ctxEnabled → s.live (s.ctxPart c) = true → (s.ctx c).reserved = 0 → s.fetchable c ≠ 0 →
      s.fetchTurn c = true → s.rankId (s.ctxPart c) (s.ctxRank c) ≠ 0 → s.rankId (s.ctxPart c) (s.ctxRank c) < 65536 →
      ∃ t f, exec (.descriptorFetch c) s = .next t ∧ (t.ctx c).reserved = s.fetchable c ∧ t.fe.nextRid = s.fe.nextRid + 1
        ∧ Safety.lastSent t (s.rankId (s.ctxPart c) (s.ctxRank c)) vcReq = some f ∧ f.opc = 0x01#8
        ∧ f.tag = BitVec.ofNat 20 s.fe.nextRid
        ∧ f.addr = BitVec.ofNat 52 (s.get CF_CTX_SQ.BASE c + 64 * s.get CF_CTX_STATE.SQ_HEAD c)
        ∧ f.len = BitVec.ofNat 13 (64 * s.fetchable c) ∧ t.fe.cmds = s.fe.cmds
        ∧ t.fe.turn = Tab.set 0 s.fe.turn (s.ctxPart c) (c + 1)) ∧
    (∀ (r : ReadReq) (first : Nat) (d : Payload), s.fe.reads = [r] → r.use = .descriptors c first 1 → s.fe.cmds = [] →
      s.pm.slots = [] → s.ctxState c = ctxEnabled → s.live (s.ctxPart c) = true → d.poisoned = [] → d.bytes.length = 64 →
      (d.bytes = List.replicate 64 0#8 →
        ∃ t, exec (.ldData r.rid stOk d) s = .next t ∧ t.fe.reads = [] ∧ (t.ctx c).reserved = 0
          ∧ t.get CF_CTX_STATE.SQ_HEAD c = (first + 1) % s.sqSize c % 65536
          ∧ t.fe.cmds = [newCmd 0 c (s.ctxPart c) 0 ocNop 0 r.issued]) ∧
      (∀ b rest, d.bytes = b :: rest → 0x13 < b.toNat →
        ∃ t x, exec (.ldData r.rid stOk d) s = .next t ∧ t.fe.cmds = [x] ∧ x.stage = .finished ∧ x.bad = true
          ∧ x.causes = [(stBadDesc, 0x10)] ∧ x.ctx = c)) ∧
    (∀ (r : ReadReq) (cid i : Nat) (d : Payload), s.fe.reads = [r] → r.use = .input cid i →
      exec (.ldData r.rid stOk d) s = .next (({ s with fe := { s.fe with reads := [] } } : State).updCmd cid fun x =>
        { x with inputs := Tab.put x.inputs i d }))

/-- A waiting command whose dependencies are met is dispatched, one whose CHAIN failed ends ABORTED; a NOP ends OK; an ABORT ends
an earlier waiting command and is too late for a HANDOFF and for one it does not find; a running command that times out stops at
its next boundary, and one that waits at the home ends TIMEOUT, unless it is an ACQUIRE or a WAIT (R43 to R45, R49, R58, R59, R230). -/
def Obligations.CommandsAreDispatchedAbortedTimedOut : Prop :=
  ∀ (s : State) (c : Cmd), s.hubUp = true → s.cmd c.cid = some c →
    (c.stage = .waiting → c.depsMet = true → c.berths = [] → deckOpcode c.opc = false → c.opc ≠ ocReduce → c.place = none →
      s.zeroFare c.part (s.neededOf c.ctx c.part c.desc) = false →
      ∃ t, exec (.commandDispatch c.cid) s = .next t ∧ t.fe.dispatches = s.fe.dispatches + 1
        ∧ t.cmd c.cid = some { c with order := s.fe.dispatches, ahead := s.feedAhead c.part, maxUnits := s.maxUnits c.part c.opc,
                                      stage := if homeOpcode c.opc then .atHome else .dispatched }
        ∧ t.regs = s.regs ∧ Safety.memoryKept s t) ∧
    (c.stage = .waiting → c.chainFailed = true → c.opc ≠ ocReduce →
      exec (.commandDispatch c.cid) s = .next (s.finishWith c.cid stAborted 0x02)) ∧
    (c.opc = ocNop → c.stage = .waiting ∨ c.stage = .dispatched → c.depsMet = true →
      exec (.nop c.cid) s = .next (s.updCmd c.cid fun x => { x with stage := .finished })) ∧
    (∀ x : Cmd, s.fe.cmds = [x, c] → c.opc = ocAbort → c.stage = .waiting → c.depsMet = true → x.ctx = c.ctx →
      x.cid ≠ c.cid → x.tag = abortTarget c.desc → x.tag ≠ noTag → x.lost = false → x.stage = .waiting →
      (x.opc ≠ ocReduce → x.opc ≠ ocHandoff → ∃ t, exec (.abort c.cid) s = .next t
        ∧ t.fe.cmds = [{ x with causes := x.causes ++ [(stAborted, 1)], stage := .finished }, { c with stage := .finished }]) ∧
      (x.opc = ocHandoff → ∃ t, exec (.abort c.cid) s = .next t
        ∧ t.fe.cmds = [x, { c with causes := c.causes ++ [(stAbortTooLate, 0)], value := 1, stage := .finished }])) ∧
    (c.opc = ocAbort → c.stage = .waiting → c.depsMet = true → s.fe.cmds = [c] → (s.ctx c.ctx).history = [] →
      ∃ t, exec (.abort c.cid) s = .next t
        ∧ t.fe.cmds = [{ c with causes := c.causes ++ [(stAbortTooLate, 0)], value := 0, stage := .finished }]) ∧
    (c.stage = .running → c.opc ≠ ocReduce →
      exec (.commandTimeout c.cid) s = .next (s.updCmd c.cid fun x =>
        { x with causes := x.causes ++ [(stTimeout, 0)], stop := some (stTimeout, 0) })) ∧
    (c.stage = .atHome → (c.opc = ocAcquire ∨ c.opc = ocWait → exec (.commandTimeout c.cid) s = .next s) ∧
      (c.opc ≠ ocAcquire → c.opc ≠ ocWait → ∃ t, exec (.commandTimeout c.cid) s = .next t ∧ Safety.answeredWith t c stTimeout 0 0
        ∧ t.pm = s.pm ∧ t.regs = s.regs ∧ ∀ e ∈ t.ho.lines, HomeReq.cmd c.cid ∉ e.2.queue))

/-- The record of a finished command: 32 bytes with the status of R62, its phase and its VALUE at the next completion entry,
after which the command is gone, the entry is unconsumed and its tag and status are remembered (R52, R53, R44, Table 2.8).

Of several causes a record shows the first in the order of R62: the one shown is one of them, and none of them comes before
it in that order; with none the status is OK. -/
def Obligations.RecordsShowTheTopCause : Prop :=
  (∀ (s : State) (c : Cmd), s.hubUp = true → s.cmd c.cid = some c → c.stage = .finished → c.opc ≠ ocReduce → c.notify = false →
     c.ctx < 4096 → c.tag < noTag → Safety.canSend s → Safety.quiet s → s.ownerUnacked (.cmd c.cid) = false →
     s.ownerUnacked (.record c.ctx) = false → s.get CF_CTX_CQ.BASE c.ctx % 64 = 0 →
     let ep := s.rankId c.part (s.ctxRank c.ctx)
     let n := s.cqSize c.ctx
     let i := s.get CF_CTX_STATE.CQ_NEXT c.ctx
     let at_ := s.get CF_CTX_CQ.BASE c.ctx + 32 * i
     let status := if c.bad then c.causes.headD (stOk, 0) else topCause c.causes
     ep ≠ 0 → ep < 65536 →
     ∃ t f, exec (.recordCommit c.cid) s = .next t ∧ t.cmd c.cid = none ∧ Safety.lastSent t ep vcBulk = some f
       ∧ f.opc = 0x10#8 ∧ f.addr = BitVec.ofNat 52 at_
       ∧ (f.data.drop (at_ % 64)).take 32 = recordBytes status.1 c.nan c.audited status.2 (1 - (s.ctx c.ctx).pass % 2) c.tag c.opc
           (s.get CF_CTX_STATE.SQ_HEAD c.ctx) c.ctx c.value s.tb.ns c.legs
       ∧ t.get CF_CTX_STATE.CQ_NEXT c.ctx = (i + 1) % n % 65536
       ∧ (t.ctx c.ctx).unconsumed = (s.ctx c.ctx).unconsumed + 1
       ∧ (t.ctx c.ctx).history.head? = some (c.tag, status.1) ∧ Safety.memoryKept s t) ∧
  (let order := [stBadDesc, stNotOwner, stContained, stRevoked, stPathFatal, stAborted, stTimeout, stTierFail, stPoison,
     stEpochRetired, stBudget, stStalePublish, stPartial, stAbortTooLate, stOk]
   topCause [] = (stOk, 0) ∧
   ∀ l : List (Nat × Nat), l ≠ [] → (∀ c ∈ l, c.1 ∈ order) →
     topCause l ∈ l ∧ ∀ c ∈ l, order.idxOf (topCause l).1 ≤ order.idxOf c.1)

/-! ## The coherence home (chapter 8) -/

/-- The seven arithmetic ATOMICs on a NORMAL line: the word takes the value of Table 8.15, the command is answered with the old
word, no other byte changes; on a poisoned sector the word stays and the answer is POISON (R221, R222). -/
def Obligations.AtomicsReturnOldWord : Prop :=
  ∀ (s : State) (c : Cmd) (ln : Nat), Safety.atFreeLine s c ln → s.lineKind ln = .normal → c.opc = ocAtomic →
    let b := atomicBody c.desc
    let i := (ref50 b.addr).off % 128 / 8
    let w := s.lineWord ln i
    let lo := ln * 128 + 8 * i
    let below (x y : Nat) : Prop := if b.signed then (BitVec.ofNat 64 x).toInt < (BitVec.ofNat 64 y).toInt else x < y
    let leaves (ins : Instr) (v : Nat → Prop) : Prop :=
      (s.linePoison ln (i / 8) = false → ∃ t, exec ins s = .next t ∧ v (t.lineWord ln i) ∧ Safety.answeredOk t c w
        ∧ Safety.homeOnly s t ln lo (lo + 8) ∧ t.lineKind ln = .normal) ∧
      (s.linePoison ln (i / 8) = true → ∃ t, exec ins s = .next t ∧ t.pm = s.pm ∧ Safety.answeredWith t c stPoison 0 0)
    (b.kind = 0 → leaves (.atomicAdd c.cid) (· = (w + b.operand) % 2 ^ 64)) ∧
    (b.kind = 1 → leaves (.atomicOr c.cid) (· = w ||| b.operand)) ∧
    (b.kind = 2 → leaves (.atomicAnd c.cid) (· = w &&& b.operand)) ∧
    (b.kind = 3 → leaves (.atomicMax c.cid) fun v => (below w b.operand → v = b.operand) ∧ (¬ below w b.operand → v = w)) ∧
    (b.kind = 4 → leaves (.atomicMin c.cid) fun v => (below w b.operand → v = w) ∧ (¬ below w b.operand → v = b.operand)) ∧
    (b.kind = 5 → leaves (.atomicSwap c.cid) (· = b.operand)) ∧
    (b.kind = 6 → leaves (.atomicCas c.cid) fun v => (w = b.compare → v = b.operand) ∧ (w ≠ b.compare → v = w))

/-- SEM_INIT, GIVE, FREE, a TAKE and the end of a holder's lease on a SEMA line: HELD counts the valid entries, GIVE and lease
end free the caller's entry, FREE needs HELD 0, and a GIVE without an entry answers NOT_OWNER (R225 to R227, Table 8.18).

WAIT and ACQUIRE answer at once where the condition holds, with the word or the version; else they park, or end TIMEOUT with
a TIMEOUT_MS of 0; a parked one whose time passes ends TIMEOUT with the word at expiry. Memory does not change (R210, R225). -/
def Obligations.SemaphoresAndWaiters : Prop :=
  (∀ (s : State) (c : Cmd) (ln : Nat), Safety.atFreeLine s c ln → s.linePoison ln 0 = false → s.linePoison ln 1 = false →
     let b := atomicBody c.desc
     let w := s.lineWord ln 0
     let line := ln * 128
     (c.opc = ocAtomic → b.kind = 7 → s.lineKind ln = .normal → ∃ t, exec (.semInit c.cid) s = .next t ∧ t.lineKind ln = .sema
       ∧ t.lineWord ln 0 = b.limit ∧ (∀ i, 0 < i → i < 16 → t.lineWord ln i = 0) ∧ Safety.answeredOk t c 0
       ∧ Safety.homeOnly s t ln line (line + 128)) ∧
     (c.opc = ocAtomic → b.kind = 8 → s.lineKind ln = .sema → ∀ i, s.semEntry ln c.ctx = some i →
       ∃ t, exec (.semGive c.cid) s = .next t ∧ t.lineWord ln (i + 1) = 0
         ∧ t.lineWord ln 0 = semLimit w + 16 * (semHeld w - 1) ∧ Safety.answeredOk t c (semHeld w - 1)
         ∧ Safety.homeOnly s t ln line (line + 128) ∧ ∀ j, j ≠ 0 → j ≠ i + 1 → j < 16 → t.lineWord ln j = s.lineWord ln j) ∧
     (c.opc = ocAtomic → b.kind = 8 → s.lineKind ln = .sema → s.semEntry ln c.ctx = none → c.part < 64 →
       ∃ t, exec (.semGive c.cid) s = .next t ∧ t.pm = s.pm ∧ Safety.answeredWith t c stNotOwner 0 0
         ∧ t.get CH_PART_STAT.NOT_OWNER c.part = min (s.get CH_PART_STAT.NOT_OWNER c.part + 1) 65535) ∧
     (c.opc = ocAtomic → b.kind = 9 → s.lineKind ln = .sema → semHeld w = 0 →
       ∃ t, exec (.semFree c.cid) s = .next t ∧ t.lineKind ln = .normal ∧ (∀ i, i < 16 → t.lineWord ln i = 0)
         ∧ Safety.answeredOk t c 0 ∧ Safety.homeOnly s t ln line (line + 128)) ∧
     (c.opc = ocAtomic → b.kind = 9 → s.lineKind ln = .sema → semHeld w ≠ 0 →
       ∃ t, exec (.semFree c.cid) s = .next t ∧ t.pm = s.pm ∧ t.lineKind ln = .sema ∧ Safety.answeredWith t c stBadDesc 0x23 0) ∧
     (c.opc = ocWait → (waitBody c.desc).cond = 4 → (waitBody c.desc).take = true → waitWord (waitBody c.desc) = 0 →
       s.lineKind ln = .sema → s.semEntry ln c.ctx = none → semHeld w < semLimit w → ∀ i, s.semFreeEntry ln = some i →
       ∃ t, exec (.wait c.cid) s = .next t ∧ t.lineWord ln (i + 1) = c.ctx % 4096 + 4096
         ∧ t.lineWord ln 0 = semLimit w + 16 * (semHeld w + 1) ∧ Safety.answeredOk t c (semLimit w + 16 * (semHeld w + 1))
         ∧ Safety.homeOnly s t ln line (line + 128) ∧ ∀ j, j ≠ 0 → j ≠ i + 1 → j < 16 → t.lineWord ln j = s.lineWord ln j) ∧
     (s.lineKind ln = .sema → s.contained (s.linePart ln) = false → ∀ ctx i, s.semEntry ln ctx = some i → s.linePart ln < 64 →
       (s.semExpired ln ctx = true → s.te.held = [] → s.homeAffords ln (.leaseEnd ctx) = true →
         ∃ t, exec (.semLeaseExpiry ln ctx) s = .next t ∧ t.lineWord ln (i + 1) = 0
           ∧ t.lineWord ln 0 = semLimit w + 16 * (semHeld w - 1) ∧ Safety.bytesOnly s t line (line + 128) ∧ t.fe = s.fe
           ∧ t.get CH_PART_STAT.SEM_EXPIRED (s.linePart ln) = min (s.get CH_PART_STAT.SEM_EXPIRED (s.linePart ln) + 1) 65535) ∧
       (s.semExpired ln ctx = false → exec (.semLeaseExpiry ln ctx) s = .next s))) ∧
  (∀ (s : State) (c : Cmd) (ln : Nat), Safety.atFreeLine s c ln → s.linePoison ln 0 = false → s.linePoison ln 1 = false →
     let v := s.waiterValue ln c
     let holds : Prop := if c.opc = ocAcquire then acquireHolds (acquireBody c.desc) v = true else waitHolds (waitBody c.desc) v = true
     let tmo := if c.opc = ocAcquire then (acquireBody c.desc).timeout else (waitBody c.desc).timeout
     let asked (ins : Instr) : Prop :=
       (holds → ∃ t, exec ins s = .next t ∧ t.pm = s.pm ∧ Safety.answeredOk t c v ∧ t.ho.waiters = s.ho.waiters) ∧
       (¬ holds → tmo = 0 → ∃ t, exec ins s = .next t ∧ t.pm = s.pm ∧ Safety.answeredWith t c stTimeout 0 v) ∧
       (¬ holds → tmo ≠ 0 → ∃ t, exec ins s = .next t ∧ t.pm = s.pm ∧ t.cmd c.cid = some c
         ∧ t.ho.waiters = s.ho.waiters ++ [{ cid := c.cid, line := ln }]
         ∧ t.get CH_STATUS.WATCHES = (s.ho.waiters.length + 1) % 32768)
     (c.opc = ocWait → (waitBody c.desc).cond < 4 → asked (.wait c.cid)) ∧
     (c.opc = ocAcquire → s.lineKind ln = .record → asked (.acquire c.cid)) ∧
     (c.opc = ocAcquire → s.lineKind ln ≠ .record →
       ∃ t, exec (.acquire c.cid) s = .next t ∧ t.pm = s.pm ∧ Safety.answeredWith t c stBadDesc 0x23 0) ∧
     (∀ u : State, u.hubUp = true → u.cmd c.cid = some c → u.ho.waiters = [{ cid := c.cid, line := ln }] → u.lineWord ln = s.lineWord ln →
       (c.opc = ocWait → ∃ t, exec (.waitTimeout c.cid) u = .next t ∧ t.ho.waiters = [] ∧ t.pm = u.pm
         ∧ Safety.answeredWith t c stTimeout 0 v ∧ t.get CH_STATUS.WATCHES = 0) ∧
       (c.opc = ocAcquire → ∃ t, exec (.acquireTimeout c.cid) u = .next t ∧ t.ho.waiters = [] ∧ t.pm = u.pm
         ∧ Safety.answeredWith t c stTimeout 0 v ∧ t.get CH_STATUS.WATCHES = 0)))

/-- The four PUBLISH actions, their flush over: the owner's publish with the expected version installs the new one, INIT makes a
RECORD of a NORMAL line, XFER moves OWNER, FREE keeps only VERSION; another version answers STALE_PUBLISH with the version
found, another owner NOT_OWNER, and both leave the record (R205 to R207). No ticket is linked. -/
def Obligations.PublishInstallsVersions : Prop :=
  ∀ (s : State) (c : Cmd) (ln : Nat), Safety.atFreeLine s c ln → s.linePoison ln 0 = false → s.linePoison ln 1 = false →
    c.opc = ocPublish → c.part < 64 →
    s.ticketInTransit c.part (s.lineWord ln 3) = false →
    let b := publishBody c.desc
    let v := s.lineWord ln 0
    let line := ln * 128
    let owned : Prop := s.lineKind ln = .record
      ∧ (s.lineWord ln 1 % 4096 = 0xFFF ∨ s.lineWord ln 1 % 4096 = s.ctxRank c.ctx)
    let done (ins : Instr) (hi : Nat) (k : LineKind) (q : State → Prop) : Prop :=
      ∃ t, exec ins s = .next t ∧ t.lineWord ln 0 = b.new ∧ t.lineKind ln = k ∧ Safety.answeredOk t c b.new
        ∧ Safety.homeOnly s t ln line (line + hi) ∧ q t
    (b.action = 0 → owned → v = b.expect → done (.publishUpdate c.cid) 8 .record fun _ => True) ∧
    (b.action = 1 → s.lineKind ln = .normal → v = b.expect → done (.publishInit c.cid) 128 .record fun t =>
      t.lineWord ln 1 = s.ctxRank c.ctx % 2 ^ 64 ∧ t.lineWord ln 2 = b.rHandle + 2 ^ 24 * b.rFirst + 2 ^ 34 * b.rCount
        ∧ ∀ i, 3 ≤ i → i < 16 → t.lineWord ln i = 0) ∧
    (b.action = 2 → owned → v = b.expect → done (.publishXfer c.cid) 16 .record fun t => t.lineWord ln 1 = b.newOwner) ∧
    (b.action = 3 → owned → v = b.expect → done (.publishFree c.cid) 128 .normal fun t =>
      ∀ i, 1 ≤ i → i < 16 → t.lineWord ln i = 0) ∧
    (∀ ins, ins = Instr.publishUpdate c.cid ∧ b.action = 0 ∨ ins = .publishXfer c.cid ∧ b.action = 2
        ∨ ins = .publishFree c.cid ∧ b.action = 3 →
      (owned → v ≠ b.expect → ∃ t, exec ins s = .next t ∧ t.pm = s.pm ∧ Safety.answeredWith t c stStalePublish 0 v
        ∧ t.get CH_PART_STAT.STALE_PUB c.part = min (s.get CH_PART_STAT.STALE_PUB c.part + 1) 65535) ∧
      (¬ owned → ∃ t, exec ins s = .next t ∧ t.pm = s.pm ∧ Safety.answeredWith t c stNotOwner 0 0
        ∧ t.get CH_PART_STAT.NOT_OWNER c.part = min (s.get CH_PART_STAT.NOT_OWNER c.part + 1) 65535))

/-- The life of a ticket without a linked record: CREATE, OFFER by the owning side, CONFIRM by the target, QUERY, RELEASE by the
owner, and the return of an unconfirmed ticket at its deadline; a caller with another COOKIE changes nothing and answers
NOT_OWNER (R228 to R231, Table 8.20).

A batch of two ATOMIC ADDs on one word gives what the two give in their order (R223). -/
def Obligations.TicketsAndBatches : Prop :=
  (∀ (s : State) (c : Cmd) (ln : Nat), Safety.atFreeLine s c ln → s.linePoison ln 0 = false → s.linePoison ln 1 = false →
     c.opc = ocHandoff → s.ctxRank c.ctx < 4096 →
     let b := handoffBody c.desc
     let rank := s.ctxRank c.ctx
     let w := s.lineWord ln 0
     let st := w % 4
     let dir := w / 4 % 2
     let pre := w / 65536 % 4096
     let dec := w / 2 ^ 32 % 4096
     let word (st dir pre dec : Nat) : Nat := st + 4 * dir + 65536 * pre + 2 ^ 32 * dec
     let line := ln * 128
     let mine : Prop := s.lineKind ln = .ticket ∧ s.lineWord ln 1 = b.cookie ∧ s.lineWord ln 2 = 0
     let owner : Prop := (st = 0 ∧ rank = pre) ∨ (st = 2 ∧ rank = dec)
     let done (ins : Instr) (v hi : Nat) (q : State → Prop) : Prop :=
       ∃ t, exec ins s = .next t ∧ t.lineWord ln 0 = v ∧ Safety.answeredOk t c v ∧ Safety.homeOnly s t ln line (line + hi) ∧ q t
     (b.op = 0 → s.lineKind ln = .normal → b.recAddr = 0 → done (.handoffCreate c.cid)
       (if b.side = 0 then word 0 0 rank b.peer else word 2 0 b.peer rank) 128 fun t =>
         t.lineKind ln = .ticket ∧ t.lineWord ln 1 = b.cookie ∧ ∀ i, 2 ≤ i → i < 16 → t.lineWord ln i = 0) ∧
     (b.op = 1 → mine → owner → done (.handoffOffer c.cid) (word 1 (if st = 0 then 0 else 1) pre dec) 8 fun t =>
       t.lineKind ln = .ticket) ∧
     (b.op = 2 → mine → st = 1 → rank = (if dir = 0 then dec else pre) →
       done (.handoffConfirm c.cid) (word (if dir = 0 then 2 else 0) 0 pre dec) 32 fun t =>
         t.lineWord ln 3 = (s.lineWord ln 3 + 1) % 2 ^ 32 ∧ t.lineKind ln = .ticket) ∧
     (b.op = 3 → mine → rank = pre ∨ rank = dec → done (.handoffQuery c.cid) w 0 fun t => t.pm = s.pm) ∧
     (b.op = 4 → mine → owner → ∃ t, exec (.handoffRelease c.cid) s = .next t ∧ t.lineKind ln = .normal
       ∧ (∀ i, i < 16 → t.lineWord ln i = 0) ∧ Safety.answeredOk t c 0 ∧ Safety.homeOnly s t ln line (line + 128)) ∧
     (∀ ins, ins = Instr.handoffOffer c.cid ∧ b.op = 1 ∨ ins = .handoffConfirm c.cid ∧ b.op = 2
         ∨ ins = .handoffQuery c.cid ∧ b.op = 3 ∨ ins = .handoffRelease c.cid ∧ b.op = 4 →
       s.lineWord ln 1 ≠ b.cookie → ∃ t, exec ins s = .next t ∧ t.pm = s.pm ∧ Safety.answeredWith t c stNotOwner 0 w) ∧
     (s.lineKind ln = .ticket → st = 1 → s.linePart ln < 64 → s.te.held = [] →
       s.homeAffords ln (.deadline (s.lineWord ln 3 % 2 ^ 32)) = true → ∃ t, exec (.handoffDeadline ln) s = .next t
       ∧ t.lineWord ln 0 = w / 65536 * 65536 + (if dir = 0 then 0 else 2) ∧ Safety.bytesOnly s t line (line + 8) ∧ t.fe = s.fe
       ∧ t.get CH_PART_STAT.REVERTS (s.linePart ln) = min (s.get CH_PART_STAT.REVERTS (s.linePart ln) + 1) 65535)) ∧
  (∀ (s : State) (c d : Cmd) (ln : Nat), s.hubUp = true → s.te.held = [] → s.cmd c.cid = some c → s.cmd d.cid = some d →
     c.cid ≠ d.cid → c.opc = ocAtomic → d.opc = ocAtomic → (atomicBody c.desc).kind = 0 → (atomicBody d.desc).kind = 0 →
     (ref50 (atomicBody d.desc).addr).off % 128 / 8 = (ref50 (atomicBody c.desc).addr).off % 128 / 8 →
     s.lineKind ln = .normal → (s.line ln).dir.st = .u → (s.line ln).txn = none →
     (s.line ln).queue = [.cmd c.cid, .cmd d.cid] → (∀ w ∈ s.ho.waiters, w.line ≠ ln) → 2 ≤ s.get CH_CFG.BATCH_MAX →
     let i := (ref50 (atomicBody c.desc).addr).off % 128 / 8
     let w := s.lineWord ln i
     s.linePoison ln (i / 8) = false → c.flushTo = none → d.flushTo = none → c.stage = .atHome → d.stage = .atHome →
     s.homeAffords ln (.cmd c.cid) = true → (s.chargeHome ln (.cmd c.cid) (1, 1)).homeAffords ln (.cmd d.cid) = true →
     ∃ t, exec (.homeBatchApply ln) s = .next t
       ∧ t.lineWord ln i = (w + (atomicBody c.desc).operand + (atomicBody d.desc).operand) % 2 ^ 64
       ∧ Safety.answeredOk t c w ∧ Safety.answeredOk t d ((w + (atomicBody c.desc).operand) % 2 ^ 64)
       ∧ (t.line ln).queue = [] ∧ Safety.bytesOnly s t (ln * 128 + 8 * i) (ln * 128 + 8 * i + 8))

/-- Requests to a NORMAL line that nobody caches: RD_S and RD_O hand the line to the requester, UPG too, RD_U gives data alone,
WR_U and the posted store write it, an atomic frame is applied once and its reply repeated; a protected line refuses what
would own or write it (R213, R215, R217, R221, Table 8.13). The whole line is clean.

A line another endpoint owns: RD_U snoops the owner; its dirty answer goes to memory and then to the requester, and the owner
keeps the line shared; an owner that cannot be reached leaves the line poisoned; its write-back frees the line; a queued
request is taken when the line is free (R215, R217, R219, R220). -/
def Obligations.LinesChangeHands : Prop :=
  (∀ (s : State) (f : Frame) (ln : Nat), Safety.frameAtLine s f ln → s.linePoison ln 0 = false → s.linePoison ln 1 = false →
     let line := (s.lineData ln).bytes
     let lo := ln * 128
     let owned (t : State) : Prop := (t.line ln).dir.st = .ow ∧ (t.line ln).dir.ptrs = [f.src.toNat] ∧ (t.line ln).dir.kind = .normal
     let data (t : State) : Prop := Safety.answers t f 0x4B#8 stOk line ∧ t.pm = s.pm ∧ (t.line ln).txn = none
     (s.lineKind ln = .normal → f.opc = 0x40#8 → ∃ t, exec (.rdS f) s = .next t ∧ data t ∧ owned t) ∧
     (s.lineKind ln = .normal → f.opc = 0x41#8 → ∃ t, exec (.rdO f) s = .next t ∧ data t ∧ owned t) ∧
     (s.lineKind ln = .normal → f.opc = 0x42#8 → ∃ t, exec (.upg f) s = .next t ∧ data t ∧ owned t) ∧
     (f.opc = 0x43#8 → ∃ t, exec (.rdU f) s = .next t ∧ data t ∧ (t.line ln).dir = (s.line ln).dir) ∧
     (s.lineKind ln = .normal → f.opc = 0x44#8 → f.data.length = 128 → f.addr.toNat % 128 = 0 → attrSub f = false →
       hasFlag f flagPsn = false → ∃ t, exec (.wrU f) s = .next t ∧ Safety.answers t f 0x4E#8 stOk []
         ∧ (t.lineData ln).bytes = f.data ∧ Safety.bytesOnly s t lo (lo + 128) ∧ (t.line ln).dir.st = .u) ∧
     (s.lineKind ln = .normal → f.opc = 0x46#8 → f.cls = 1#3 → f.data.length = 128 → f.addr.toNat % 128 = 0 → attrSub f = false →
       hasFlag f flagPsn = false → s.storesPending f.src.toNat (fun q => seqLe q f.seq.toNat) = false →
       s.bulk f.src.toNat = none →
       ∃ t, exec (.tallySt f) s = .next t ∧ (t.lineData ln).bytes = f.data ∧ Safety.bytesOnly s t lo (lo + 128) ∧ t.lk = s.lk
         ∧ (t.bulk f.src.toNat).map (·.applied) = some f.seq.toNat) ∧
     (s.lineKind ln = .normal → f.opc = 0x45#8 → f.cls = 0#3 → atOk f = true → s.cachedReply f = none →
       let i := f.addr.toNat % 128 / 8
       let w := s.lineWord ln i
       let k := (f.data.getD 16 0).toNat
       ∃ t x, exec (.atomicFrame f) s = .next t
         ∧ t.lineWord ln i = atomicNew (k % 16) (k / 16 % 2 == 1) w (leNat (f.data.take 8)) (leNat ((f.data.drop 8).take 8))
         ∧ Safety.bytesOnly s t (lo + 8 * i) (lo + 8 * i + 8)
         ∧ Safety.answers t f 0x4E#8 stOk (leBytes 8 w ++ List.replicate 56 0#8) ∧ t.cachedReply f = some x ∧ x.value.toNat = w) ∧
     (∀ x, s.cachedReply f = some x → ∃ t, exec (.atomicFrame f) s = .next t ∧ t.pm = s.pm ∧ t.ho = s.ho
       ∧ Safety.answers t f 0x4E#8 (x.status % 256) (leBytes 8 x.value.toNat ++ List.replicate 56 0#8)
       ∧ t.get CH_STATUS.REPLAYS = min (s.get CH_STATUS.REPLAYS + 1) 4294967295) ∧
     (s.lineKind ln ≠ .normal → f.cls = 0#3 → ∀ ins, ins = Instr.rdO f ∧ f.opc = 0x41#8 ∨ ins = .upg f ∧ f.opc = 0x42#8
         ∨ ins = .wrU f ∧ f.opc = 0x44#8 ∧ f.data.length = 128 ∧ f.addr.toNat % 128 = 0 →
       ∃ t, exec ins s = .next t ∧ t.pm = s.pm ∧ t.ho = s.ho ∧ Safety.answers t f (if f.opc = 0x41#8 then 0x4B#8 else
           if f.opc = 0x42#8 then 0x4C#8 else 0x4E#8) stNotOwner []) ∧
     (∀ src tag, ∃ t, exec (.replyCacheExpiry src tag) s = .next t
       ∧ t = { s with ho := { s.ho with replies := t.ho.replies } }
       ∧ ∀ r, r ∈ t.ho.replies ↔ r ∈ s.ho.replies ∧ ¬ (r.src = src ∧ r.tag = tag))) ∧
  (∀ (s : State) (ln o : Nat), s.hubUp = true → Safety.canSend s → s.te.held = [] → (∀ w ∈ s.ho.waiters, w.line ≠ ln) →
     (s.line ln).dir.st = .ow → (s.line ln).dir.ptrs = [o] → (s.line ln).queue = [] → o < 65536 →
     (∀ f : Frame, f.opc = 0x43#8 → s.contained f.part.toNat = false → f.addr.extractLsb' 50 2 = 0#2 → (s.line ln).txn = none →
       (∃ sl, s.handle f.part.toNat (f.addr.toNat / berthBytes) = .held sl ∧ sl.kind = kindTally
         ∧ s.slotByte sl (f.addr.toNat % berthBytes) / 128 = ln) → s.homeAffords ln (.frame f) = true →
       ∃ t r, exec (.rdU f) s = .next t ∧ t.pm = s.pm ∧ Safety.lastSent t o vcFwd = some r ∧ r.opc = 0x48#8
         ∧ (t.line ln).txn = some { req := .frame f, awaiting := [o], wbFrom := none, needData := false, record := none }) ∧
     (∀ f g : Frame, g.opc = 0x43#8 → f.src.toNat = o → s.tallyLine f.part.toNat f.addr.toNat = some ln → f.data.length = 128 →
       (s.line ln).txn = some { req := .frame g, awaiting := [o], wbFrom := none, needData := false, record := none } →
       hasFlag f flagPsn = false →
       ∃ t, exec (.snpAck f false true false) s = .next t ∧ (t.lineData ln).bytes = f.data ∧ t.linePoison ln 0 = false
         ∧ Safety.answers t g 0x4B#8 stOk f.data ∧ (t.line ln).txn = none ∧ (t.line ln).dir.st = .sh ∧ (t.line ln).dir.ptrs = [o]
         ∧ ∀ a, a / 128 ≠ ln → t.pm.near.byte a = s.pm.near.byte a) ∧
     (∀ g : Frame, g.opc = 0x43#8 → (s.line ln).txn = some { req := .frame g, awaiting := [o], wbFrom := none, needData := false, record := none } →
       ∃ t, exec (.snoopTargetLost ln o) s = .next t ∧ t.linePoison ln 0 = true ∧ t.linePoison ln 1 = true
         ∧ (t.line ln).txn = none ∧ t.pm.near.cells = s.pm.near.cells) ∧
     (∀ f : Frame, f.src.toNat = o → s.tallyLine f.part.toNat f.addr.toNat = some ln → f.data.length = 128 →
       (s.line ln).txn = none → hasFlag f flagPsn = false →
       ∃ t, exec (.wb f) s = .next t ∧ (t.lineData ln).bytes = f.data ∧ (t.line ln).dir.st = .u ∧ (t.line ln).dir.ptrs = []
         ∧ Safety.answers t f 0x4E#8 stOk [] ∧ ∀ a, a / 128 ≠ ln → t.pm.near.byte a = s.pm.near.byte a) ∧
     (∀ f : Frame, f.src.toNat ≠ o → s.tallyLine f.part.toNat f.addr.toNat = some ln →
       ∃ t, exec (.wb f) s = .next t ∧ t.pm = s.pm ∧ t.ho = { s.ho with bulk := t.ho.bulk } ∧ Safety.answers t f 0x4E#8 stOk []
         ∧ t.get CH_STATUS.PROTO_ERR = min (s.get CH_STATUS.PROTO_ERR + 1) 65535) ∧
     (∀ (u : State) (l : Nat) (g : Frame) (rest : List HomeReq), u.hubUp = true → Safety.canSend u → u.te.held = [] →
       (u.line l).dir.st = .u → (u.line l).txn = none → (u.line l).queue = .frame g :: rest → g.opc = 0x43#8 →
       u.linePoison l 0 = false → u.linePoison l 1 = false → u.homeAffords l (.frame g) = true →
       ∃ t, exec (.homeNextRequest l) u = .next t ∧ (t.line l).queue = rest ∧ (t.line l).txn = none ∧ t.pm = u.pm
         ∧ Safety.answers t g 0x4B#8 stOk (u.lineData l).bytes))

/-! ## Near memory (chapter 7) -/

/-- A FENCE whose flush is over answers OK with the highest applied BULK SEQ of its owner; one that covers a store still held
waits unchanged; a covered store that was lost ends it REVOKED and is reported once; the answer then reaches the front end
(R208, R211, R59).

Loads and stores of a held berth with no window over it: a load is answered with the bytes its handle's address hash names,
in order, and changes none; a store changes exactly the bytes it carries, answered where it is non-posted; one with PSN
poisons its sector; a handle that is not held answers BAD_DESC or discards and counts the store (R184, R186, R189, R190,
R195, R203). -/
def Obligations.FencesLoadsAndStores : Prop :=
  (∀ (s : State) (c : Cmd), s.hubUp = true → s.cmd c.cid = some c → c.stage = .atHome → c.opc = ocFence →
     let ep := s.rankId c.part (s.ctxRank c.ctx)
     (c.flushTo = none → ∃ t, exec (.fence c.cid) s = .next t ∧ t = { s with fe := t.fe }
       ∧ Safety.answeredOk t c (((s.bulk ep).bind (·.high)).getD 0)) ∧
     (∀ q b, c.flushTo = some q → s.bulk ep = some b → b.lost.any (fun l => seqLe l q) = false →
       s.storesPending b.src (fun x => seqLe b.start x && seqLe x q) = true →
         exec (.fence c.cid) s = .next s ∧ exec (.flushComplete c.cid) s = .next s) ∧
     (∀ q b, c.flushTo = some q → s.bulk ep = some b → b.lost.any (fun l => seqLe l q) = false →
       s.storesPending b.src (fun x => seqLe b.start x && seqLe x q) = false → seqLe q b.applied = true →
         ∃ t, exec (.flushComplete c.cid) s = .next t ∧ t = { s with fe := t.fe } ∧ Safety.answeredOk t c (b.high.getD 0)) ∧
     (∀ q b, c.flushTo = some q → s.bulk ep = some b → b.lost.any (fun l => seqLe l q) = true →
       ∃ t, exec (.flushComplete c.cid) s = .next t ∧ Safety.answeredWith t c stRevoked 0 0 ∧ t.pm = s.pm
         ∧ ∀ b', t.bulk ep = some b' → b'.applied = b.applied ∧ b'.lost = b.lost.filter fun l => !seqLe l q) ∧
     (∀ u : State, u.hubUp = true → ∀ d : Cmd, u.cmd d.cid = some d → d.stage = .answered →
       exec (.homeAnswer d.cid) u = .next (u.updCmd d.cid fun x => { x with stage := .finished }))) ∧
  (∀ (s : State) (f : Frame), s.hubUp = true → Safety.canSend s → Safety.quiet s → s.contained f.part.toNat = false →
     f.addr.extractLsb' 50 2 = 0#2 → f.part.toNat < 64 → s.ps.seals = [] →
     let p := f.part.toNat
     let off := f.addr.toNat % berthBytes
     (∀ sl, s.handle p (f.addr.toNat / berthBytes) = .held sl → sl.kind ≠ kindTally → sl.physA < 15360 → sl.physB < 15360 →
       sl.lhalf < 2 → s.pm.near.poison = [] → s.pm.dead = [] →
       (f.opc = 0x01#8 → f.cls = 0#3 → lenOk f = true → f.addr.toNat % 64 = 0 → off + f.len.toNat ≤ berthBytes →
         s.coversNear p 0 (s.granules sl off f.len.toNat false) = true →
         ∃ t data, exec (.ld f []) s = .next t ∧ Safety.answers t f 0x20#8 stOk data ∧ data.length = f.len.toNat
           ∧ (∀ i, i < f.len.toNat → data.getD i 0 = s.pm.near.byte (s.slotByte sl (off + i))) ∧ t.pm = s.pm) ∧
       (let d := storeData f
        let n := d.2.bytes.length
        let wrote (t : State) : Prop :=
          (∀ i, i < n → t.pm.near.byte (s.slotByte sl (off + i)) = d.2.bytes.getD i 0)
            ∧ (∀ a, (∀ i, i < n → a ≠ s.slotByte sl (off + i)) → t.pm.near.byte a = s.pm.near.byte a)
            ∧ t.pm.near.poison = [] ∧ t.pm = { s.pm with near := t.pm.near } ∧ t.ps = s.ps
        off + n ≤ berthBytes → s.coversNear p 0 (s.granules sl off n true) = true →
        (hasFlag f flagPsn = false →
          (f.opc = 0x02#8 → f.cls = 0#3 → ∃ t, exec (.stNp f) s = .next t ∧ wrote t ∧ Safety.answers t f 0x21#8 stOk []) ∧
          (f.opc = 0x10#8 → f.cls = 1#3 → ∃ t, exec (.st f []) s = .next t ∧ wrote t ∧ t.lk = s.lk
            ∧ (t.bulk f.src.toNat).map (·.applied) = some f.seq.toNat)) ∧
        (hasFlag f flagPsn = true → f.opc = 0x10#8 → f.cls = 1#3 → attrSub f = true → 0 < n →
          ∃ t, exec (.st f []) s = .next t ∧ t.pm.near.cells = s.pm.near.cells
            ∧ t.pm.near.poison = [s.slotByte sl (off / 64 * 64) / 64]))) ∧
     (s.handle p (f.addr.toNat / berthBytes) = .notHeld →
       (f.opc = 0x01#8 → f.cls = 0#3 → ∃ t, exec (.ld f []) s = .next t ∧ t.pm = s.pm ∧ Safety.answers t f 0x20#8 stBadDesc []) ∧
       (f.opc = 0x02#8 → f.cls = 0#3 → ∃ t, exec (.stNp f) s = .next t ∧ t.pm = s.pm ∧ Safety.answers t f 0x21#8 stBadDesc []) ∧
       (f.opc = 0x10#8 → f.cls = 1#3 → ∃ t, exec (.st f []) s = .next t ∧ t.pm = s.pm ∧ t.lk = s.lk
         ∧ t.get PM_PART_ERR.DROPPED_ST p = min (s.get PM_PART_ERR.DROPPED_ST p + 1) (2 ^ PM_PART_ERR.DROPPED_ST.width - 1))))

/-- The five operations of PM_BERTH_CMD on the selected slot of a LIVE partition: each moves a slot in its state of Table 7.4 and
shows RESULT 0, in any other state it shows RESULT 1 and leaves every slot; no byte of memory and no other slot changes
(R185, R193, R198, R202). REVOKE of a lashed handle revokes the other handle of its pair with it. No descriptor is held at
check 8 and no manifest runs.

From the end of a lease to an empty slot: a lease ends in GRACE, an unrenewed GRACE in DRAINING, DRAIN_US marks the drain
over and stops a command that names the berth, a drained slot that no engine and no leg's list holds is scrubbed, and the scrub
leaves zero bytes, no poison and the next GEN, after a REVOKE in the whole of a lashed pair; a contained partition's and a
pinned mooring's lease do not end (R192 to R198, R372). -/
def Obligations.BerthsFromGrantToScrub : Prop :=
  (∀ (s : State) (up : Nat), s.hubUp = true → up < 2 → s.te = .reset → (∀ c ∈ s.fe.cmds, c.stage ≠ .held) →
     let p := s.get PM_BERTH_SEL.PART
     let n := s.get PM_BERTH_SEL.SLOT
     let sl := s.slot p n
     let moves (ins : Instr) (x : Slot) : Prop := ∃ t, exec ins s = .next t ∧ t.slot p n = x ∧ t.get PM_BERTH_CMD.RESULT = 0
       ∧ t.pm.near = s.pm.near ∧ t.fe = s.fe ∧ ∀ p' n', slotKey p' n' ≠ slotKey p n → t.slot p' n' = s.slot p' n'
     let refused (ins : Instr) (r : Nat) : Prop := exec ins s = .next ((s.viaUp up).put PM_BERTH_CMD.RESULT 0 r)
     n ≠ 0 → n < 32768 → p < 64 → s.partState p = partLive →
       (sl.state = .empty → (sl.kind = kindLashed ∨ sl.lhalf ≠ 1) → sl.inRegion = true → s.berthsOk p sl = true →
         moves (.grant up) { sl with state := .granted, mooring := .ended, expired := false, revoke := false }) ∧
       (sl.state = .empty → (sl.kind = kindLashed ∨ sl.lhalf ≠ 1) → (sl.inRegion = false ∨ s.berthsOk p sl = false) →
         refused (.grant up) 2) ∧
       (sl.state = .empty → sl.kind ≠ kindLashed → sl.lhalf = 1 → refused (.grant up) 4) ∧
       (sl.state = .granted → s.ctxPart sl.mctx = p →
         moves (.moor up) { sl with state := .moored, mooring := .active, renewed := s.tb.hclk, frozenAt := none, graceAt := 0, expired := false,
                                    revoke := false }) ∧
       (sl.state = .granted → s.ctxPart sl.mctx ≠ p → refused (.moor up) 3) ∧
       (sl.state = .moored → moves (.renew up) { sl with mooring := .active, renewed := s.tb.hclk }) ∧
       (sl.state = .moored → moves (.unmoor up) { sl with state := .draining, mooring := .ended, expired := false, revoke := false }) ∧
       (sl.state = .granted → s.pairOf (slotKey p n) sl = none → moves (.revoke up) { sl with state := .empty }) ∧
       (sl.state = .moored → s.pairOf (slotKey p n) sl = none →
         moves (.revoke up) { sl with state := .draining, mooring := .ended, expired := false, revoke := true }) ∧
       (sl.state = .draining ∨ sl.state = .scrubbing → s.pairOf (slotKey p n) sl = none →
         moves (.revoke up) { sl with revoke := true }) ∧
       (∀ k, s.pairOf (slotKey p n) sl = some k → sl.state ≠ .empty →
         let revoked (x : Slot) : Slot := match x.state with
           | .empty => x
           | .granted => { x with state := .empty }
           | .moored => { x with state := .draining, mooring := .ended, expired := false, revoke := true }
           | _ => { x with revoke := true }
         ∃ t, exec (.revoke up) s = .next t ∧ t.slot p n = revoked sl
           ∧ t.slot (k / 32768) (k % 32768) = revoked (s.slot (k / 32768) (k % 32768)) ∧ t.get PM_BERTH_CMD.RESULT = 0
           ∧ t.pm.near = s.pm.near ∧ t.fe = s.fe
           ∧ ∀ p' n', slotKey p' n' ≠ slotKey p n → slotKey p' n' ≠ k → t.slot p' n' = s.slot p' n') ∧
       (sl.state ≠ .empty → refused (.grant up) 1) ∧ (sl.state ≠ .granted → refused (.moor up) 1) ∧
       (sl.state ≠ .moored → refused (.renew up) 1 ∧ refused (.unmoor up) 1) ∧ (sl.state = .empty → refused (.revoke up) 1)) ∧
  (∀ (s : State) (p n : Nat), s.hubUp = true → p < 64 → n < 32768 → s.te = .reset →
     let sl := s.slot p n
     (sl.state = .moored → sl.mooring = .active → sl.lease.isSome = true → s.contained p = false →
       exec (.leaseEnd p n) s = .next (s.setSlot p n { sl with mooring := .grace, graceAt := s.tb.hclk })) ∧
     (sl.lease = none ∨ s.contained p = true → exec (.leaseEnd p n) s = .next s) ∧
     (sl.state = .moored → sl.mooring = .grace → s.contained p = false → (∀ c ∈ s.fe.cmds, c.stage ≠ .held) →
       ∃ t, exec (.graceEnd p n) s = .next t ∧ t.pm.near = s.pm.near
         ∧ t.slot p n = { sl with state := .draining, mooring := .ended, expired := false, revoke := false }
         ∧ ∀ p' n', slotKey p' n' ≠ slotKey p n → t.slot p' n' = s.slot p' n') ∧
     (sl.state = .draining → sl.expired = false → s.ho = .reset → s.fe.cmds = [] →
       exec (.drainUsExpiry p n) s = .next (s.setSlot p n { sl with expired := true })) ∧
     (∀ c : Cmd, sl.state = .draining → sl.expired = false → s.ho = .reset → s.fe.cmds = [c] → c.part = p → c.stage = .running →
       c.opc ≠ ocReduce → slotHandle n sl ∈ c.berths →
       ∃ t, exec (.drainUsExpiry p n) s = .next t ∧ t.slot p n = { sl with expired := true } ∧ t.pm.near = s.pm.near
         ∧ t.cmd c.cid = some { c with stop := some (stRevoked, 0), causes := c.causes ++ [(stRevoked, 0)] }) ∧
     (sl.state = .draining → sl.expired = true → s.engineCmds p (slotHandle n sl) = [] →
       (∀ c ∈ s.fe.cmds, c.part = p → s.listHolds c n = false) →
       exec (.drainComplete p n) s = .next (s.setSlot p n { sl with state := .scrubbing })) ∧
     (sl.state ≠ .draining ∨ sl.expired = false ∨ s.engineCmds p (slotHandle n sl) ≠ []
         ∨ (∃ c ∈ s.fe.cmds, c.part = p ∧ s.listHolds c n = true) → exec (.drainComplete p n) s = .next s) ∧
     (sl.state = .scrubbing → ∃ t, exec (.scrubComplete p n) s = .next t
       ∧ t.slot p n = { sl with state := if sl.revoke then .empty else .granted, gen := (sl.gen + 1) % 512, expired := false,
                                revoke := false }
       ∧ (∀ a, sl.owns (a / 64 * 64) = true ∨ (sl.revoke = true ∧ sl.kind = kindLashed ∧ s.pairOf (slotKey p n) sl = none
             ∧ ({ sl with lhalf := 1 - sl.lhalf } : Slot).owns (a / 64 * 64) = true) →
           t.pm.near.byte a = 0 ∧ t.pm.near.poisoned (a / 64) = false)
       ∧ (∀ a, sl.owns (a / 64 * 64) = false → sl.revoke = false ∨ sl.kind ≠ kindLashed
             ∨ ({ sl with lhalf := 1 - sl.lhalf } : Slot).owns (a / 64 * 64) = false →
           t.pm.near.byte a = s.pm.near.byte a ∧ t.pm.near.poisoned (a / 64) = s.pm.near.poisoned (a / 64))
       ∧ ∀ p' n', slotKey p' n' ≠ slotKey p n → t.slot p' n' = s.slot p' n'))

/-- Sectors, rows and channels: a corrected sector is counted against its row and its channel's last 24 hours and changes no byte, an
uncorrectable bulk sector is poisoned, a row at ROW_CE starts again at zero with its contents kept, a channel goes ACTIVE,
MIGRATING, RETIRED with its reserve taken, and a failed channel poisons the granules a DECK_A berth has on it (R188, R189, R199
to R201, R370). No loss of both copies of a mirrored pair waits to be acted on. -/
def Obligations.SectorsRowsAndChannelsFail : Prop :=
  ∀ s : State, s.hubUp = true → s.te = .reset → s.pm.lostPairs = [] →
    (∀ k, let pl := s.placeOf (k * 64)
      pl.1 < 640 → ∃ t, exec (.patrolScrub [.corrected k]) s = .next t ∧ t.pm.near = s.pm.near
      ∧ t.pm.slots = s.pm.slots ∧ t.rowCount (pl.1 * 12582912 + pl.2) = s.rowCount (pl.1 * 12582912 + pl.2) + 1
      ∧ t.get PM_CHAN_STATUS.CE_24H pl.1 = min (s.recentCount (PM_CHAN_STATUS.CE_24H.id + 1024 * pl.1) dayCycles + 1) 65535) ∧
    (∀ k, (s.placeOf (k * 64)).1 < 640 → critical (k * 64) = false → s.pm.near.poisoned k = false →
      ∃ t, exec (.patrolScrub [.uncorrectable k]) s = .next t ∧ t.pm.near.cells = s.pm.near.cells
        ∧ t.pm.near.poisoned k = true ∧ (∀ j, j ≠ k → t.pm.near.poisoned j = s.pm.near.poisoned j)
        ∧ t.get PM_CHAN_STATUS.UE (s.placeOf (k * 64)).1 = min (s.get PM_CHAN_STATUS.UE (s.placeOf (k * 64)).1 + 1) 65535) ∧
    (∀ chan row, let k := chan * 12582912 + row
      (s.get HS_RAS_CFG.ROW_CE ≤ s.rowCount k → s.hs.queue.length < 1024 →
        ∃ t e, exec (.rowRepair chan row) s = .next t ∧ t.rowCount k = 0 ∧ t.pm.near = s.pm.near
          ∧ t.hs.queue = s.hs.queue ++ [e] ∧ e.cause = 0x03 ∧ e.sev = 0 ∧ e.loc % 65536 = chan / 32 % 65536) ∧
      (s.rowCount k < s.get HS_RAS_CFG.ROW_CE → exec (.rowRepair chan row) s = .next s)) ∧
    (∀ chan, chan < 640 →
      (s.get PM_CHAN_STATUS.STATE chan = 0 → s.reserveUsed (chan / 320) < 8 →
        ∃ t, exec (.channelRetireRequest chan) s = .next t ∧ t.get PM_CHAN_STATUS.STATE chan = 1
          ∧ t.get PM_CHAN_STATUS.MIG_PCT chan = 0 ∧ t.pm.placed.head?.map (·.chan) = some chan ∧ t.pm.near = s.pm.near
          ∧ (8 ≤ t.reserveUsed (chan / 320) → t.get PM_HALF_STATUS.EXHAUSTED (chan / 320) = 1)) ∧
      (s.get PM_CHAN_STATUS.STATE chan ≠ 0 ∨ 8 ≤ s.reserveUsed (chan / 320) →
        exec (.channelRetireRequest chan) s = .next (s.put PM_RAS_CFG.REFUSED 0 1)) ∧
      (s.get PM_CHAN_STATUS.STATE chan = 1 → s.get PM_HALF_STATUS.RETIRED (chan / 320) < 8 →
        ∃ t, exec (.migrationComplete chan) s = .next t ∧ t.get PM_CHAN_STATUS.STATE chan = 2
          ∧ t.get PM_CHAN_STATUS.MIG_PCT chan = 100
          ∧ t.get PM_HALF_STATUS.RETIRED (chan / 320) = s.get PM_HALF_STATUS.RETIRED (chan / 320) + 1
          ∧ (t.get PM_HALF_STATUS.EXHAUSTED (chan / 320) = 1 ∨ s.get PM_HALF_STATUS.RETIRED (chan / 320) < 7)
          ∧ t.pm.near = s.pm.near) ∧
      (s.get PM_CHAN_STATUS.STATE chan = 0 → chan < 320 → s.reserveUsed 0 < 8 → s.metadataOn chan = false →
        ∀ key sl, s.heldSlots = [(key, sl)] → sl.kind = kindDeckA → bulkBerth sl.physA = true →
        ∃ t, exec (.channelFail chan) s = .next t ∧ t.get PM_CHAN_STATUS.STATE chan = 3
          ∧ t.get PM_HALF_STATUS.RETIRED 0 = s.get PM_HALF_STATUS.RETIRED 0 + 1 ∧ t.pm.near.cells = s.pm.near.cells
          ∧ ∀ a ∈ s.slotGranulesOn sl chan, ∀ i, i < 4 → t.pm.near.poisoned (a / 64 + i) = true))

/-! ## Tiers, trays and flash (chapter 9) -/

/-- Windows and their blocks: BIND gives a window its source with every block ABSENT, or takes it away; CLEAN and WRITE_BACK_AGE
write a DIRTY block to its trays once the near and tray fares cover it, after which it is RESIDENT; a CLEAN or EVICT with a zero
tray fare ends BUDGET; EVICT makes RESIDENT blocks ABSENT; FILL starts the fill of an ABSENT block and ends when its blocks are
there, with the number it filled; a tile waited for too long ends its command TIER_FAIL at the next boundary. Near bytes stay
(R234, R235, R245, R249, R256, R257, R451). One window, no fill and no held request at the start. -/
def Obligations.WindowsFillAndClean : Prop :=
  ∀ (s : State) (c : Cmd), s.hubUp = true → s.cmd c.cid = some c → c.stage = .dispatched → s.boundaryStop c = none →
    s.te.fills = [] → s.te.held = [] → s.te.manifests = [] →
    let b := prefetchBody c.desc
    let key := slotKey c.part (handleSlot b.window)
    let done (t : State) (x : Cmd) : Prop := t.cmd c.cid = some { x with stage := .finished } ∧ t.pm = s.pm
    (∀ src, c.opc = ocPrefetch → b.op = 3 → s.window key = none → s.backed c.part b.window = true → bindSource b = some src →
      s.sourceOk c.part src = true → s.boundElsewhere src key = false →
      ∃ t, exec (.bind c.cid) s = .next t ∧ done t c ∧ t.window key = some { src := src, through := b.mode, blocks := [] }
        ∧ ∀ k, k ≠ key → t.window k = s.window k) ∧
    (∀ w, c.opc = ocPrefetch → b.op = 3 → s.te.windows = [(key, w)] → w.blocks = [] → s.backed c.part b.window = true →
      bindSource b = none → ∃ t, exec (.bind c.cid) s = .next t ∧ done t c ∧ t.te.windows = []) ∧
    (∀ tr k, s.te.windows = [(key, { src := .tray tr, through := false, blocks := [(k, .dirty)] })] → key / 32768 < 64 →
      (s.trayBerth tr).state ≠ tbLost →
      (c.opc = ocPrefetch → s.zeroFare c.part [.tray] = true →
        (b.op = 4 → ∃ t, exec (.clean c.cid) s = .next t ∧ t.te = s.te ∧ done t { c with causes := c.causes ++ [(stBudget, 0)] }) ∧
        (b.op = 5 → ∃ t, exec (.evict c.cid) s = .next t ∧ t.te = s.te ∧ done t { c with causes := c.causes ++ [(stBudget, 0)] })) ∧
      (s.zeroFare c.part [.tray] = false → s.covers (key / 32768) 0 .tray (s.trayUnits tr k) = true →
      s.coversNear (key / 32768) 0 (s.granules (s.keySlot key) (k * 4096) 4096 false) = true →
      let data := s.readSlot (s.keySlot key) (k * 4096) 4096
      let sent (t : State) : Prop := t.blockState key k = .resident
        ∧ t.get TE_PART_STALL.WRITTEN_BACK (key / 32768)
            = min (s.get TE_PART_STALL.WRITTEN_BACK (key / 32768) + 1) (2 ^ TE_PART_STALL.WRITTEN_BACK.width - 1)
        ∧ (∀ ep, Safety.canSend s → s.unackedCount < 65535 → (s.trayBerth tr).policy = 0 → (s.trayBerth tr).lost = [] →
            (s.trayBerth tr).places.length = 2 → data.poisoned = [] → s.trayEp ((s.trayBerth tr).byteOf k 1).1 = some ep → ep < 65536 →
            ∃ f, Safety.lastSent t ep vcBulk = some f ∧ f.opc = 0x10#8 ∧ f.data = data.bytes
              ∧ f.addr = BitVec.ofNat 52 ((s.trayBerth tr).byteOf k 1).2)
      (c.opc = ocPrefetch → b.op = 4 → ∃ t, exec (.clean c.cid) s = .next t ∧ sent t ∧ done t { c with value := c.value + 1 }) ∧
      (c.opc = ocPrefetch → b.op = 5 → ∃ t, exec (.evict c.cid) s = .next t ∧ t.blockState key k = .absent
        ∧ done t { c with value := c.value + 1 }) ∧
      (∃ t, exec (.writeBackAge (key / 32768) (key % 32768) k) s = .next t ∧ sent t ∧ t.pm = s.pm ∧ t.fe = s.fe))) ∧
    (∀ k tr, let len := 16 * b.nent * b.nsec
      let bs := s.listBlocks c.part b.addr b.nent b.nsec none
      c.opc = ocPrefetch → b.op = 2 → s.view c.part b.addr len = .ready → s.pm.dead = [] →
      (s.spend c (s.nearCost c.part b.addr len false)).2 = true → s.fillBad c b = none →
      (s.readSpan c.part b.addr len).poisoned = [] →
      s.te.windows = [(k, { src := .tray tr, through := false, blocks := [] })] → bs ≠ [] → c.step = 0 →
      (∀ x ∈ bs, ∃ rs, (s.trayBerth tr).reads x.2 = some rs ∧ ∀ r ∈ rs, (s.trayEp r.2.1).isSome = true) →
      ∃ t, exec (.fill c.cid) s = .next t ∧ t.pm = s.pm
        ∧ (∀ x ∈ bs, t.blockState x.1 x.2 = .filling ∧ ∃ f ∈ t.te.fills, f.key = x.1 ∧ f.block = x.2)
        ∧ t.cmd c.cid = some { c with stage := .running, step := 1, value := 0, marked := bs.eraseDups.map blockNumber,
                                      poisonRows := 0, paid := [] }) ∧
    (c.opc = ocPrefetch → b.op = 2 → s.view c.part b.addr (16 * b.nent * b.nsec) = .ready → s.pm.dead = [] → c.step = 1 →
      c.poisonRows = 0 →
      (∀ x ∈ s.listBlocks c.part b.addr b.nent b.nsec none, s.blockState x.1 x.2 = .resident) →
      ∃ t, exec (.fill c.cid) s = .next t ∧ t.te = s.te ∧ done t { c with value := (c.marked.filter fun x =>
        s.blockState (x / 16384) (x % 16384) == .resident || s.blockState (x / 16384) (x % 16384) == .dirty).length }) ∧
    (∀ u : State, ∀ d : Cmd, u.hubUp = true → u.cmd d.cid = some d → d.stage = .running → d.opc ≠ ocReduce →
      exec (.tierWaitExpiry d.cid) u = .next (u.updCmd d.cid fun x =>
        { x with causes := x.causes ++ [(stTierFail, 0)], stop := some (stTierFail, 0) }))

/-- MANIFEST_START reads a manifest once, accepts it in place of the context's own and ends with VALUE 0, a START beyond it or a
malformed one BAD_DESC 0x23, a poisoned one POISON (R190; log entry 93); MANIFEST_STOP ends the manifest and, with none of its
fills in flight, its command (R252, R254, R256). No window has a source and nothing waits at the home. -/
def Obligations.ManifestsStartAndStop : Prop :=
  ∀ (s : State) (c : Cmd), s.hubUp = true → s.cmd c.cid = some c → c.stage = .dispatched → s.boundaryStop c = none →
    c.opc = ocPrefetch → s.te.windows = [] → s.te.fills = [] → s.ho = .reset →
    let b := prefetchBody c.desc
    (b.op = 0 → inBerth b.addr.off (64 + 64 * s.manifestLayers c.part b.addr) = true →
      (∀ m, s.manifestBytes c.part b.addr = some m → b.start < m.1 → s.pm.near.poison = [] → s.pm.dead = [] →
        (s.spend c ((manifestSpans b.addr m.2.2).flatMap fun x => s.nearCost c.part x.1 x.2 false)).2 = true →
        ∃ t x, exec (.manifestStart c.cid) s = .next t ∧ t.cmd c.cid = some { c with stage := .finished, value := 0, paid := [] }
          ∧ t.te.manifests.filter (·.ctx == c.ctx) = [x] ∧ x.ctx = c.ctx ∧ x.part = c.part ∧ x.cyclic = m.2.1
          ∧ x.depth = (if b.depth = 0 then s.defaultDepth c.part else b.depth) ∧ x.layers = m.2.2.map (s.layerOf c.part)
          ∧ t.pm.near = s.pm.near) ∧
      (s.manifestPoisoned c.part b.addr = true → ∃ t, exec (.manifestStart c.cid) s = .next t ∧ t.te = s.te
        ∧ t.cmd c.cid = some { c with stage := .finished, causes := c.causes ++ [(stPoison, 0)] }) ∧
      (s.manifestPoisoned c.part b.addr = false → (∀ m, s.manifestBytes c.part b.addr = some m → m.1 ≤ b.start) →
        ∃ t, exec (.manifestStart c.cid) s = .next t ∧ t.te = s.te
          ∧ t.cmd c.cid = some { c with stage := .finished, causes := c.causes ++ [(stBadDesc, 0x23)] })) ∧
    (b.op = 1 → ∃ t, exec (.manifestStop c.cid) s = .next t ∧ t.cmd c.cid = some { c with stage := .finished }
      ∧ t.te = { s.te with manifests := s.te.manifests.filter (·.ctx != c.ctx) } ∧ t.pm = s.pm)

/-- ALLOC takes the pages of its policy from the trays of the group that have them, FREE returns them, a tray that fails leaves
its berths DEGRADED, or LOST when their policy cannot bear it, REBUILD moves the lost position to a spare tray and ends
ALLOCATED; a read no tray answers fails its fill (R236 to R240, R304). The tier engine works on nothing else. -/
def Obligations.TrayBerthsLiveAndFail : Prop :=
  ∀ (s : State) (up : Nat), s.hubUp = true → up < 2 →
    let n := s.get TY_TB_SEL.TBN
    let t := s.trayBerth n
    let pages := policyPages t.policy
    let picked := ((s.groupTrays t.group).filter fun x => pages ≤ s.get TY_TRAY_STATUS.FREE_PAGES x).take (policyTrays t.policy)
    let refused (ins : Instr) (r : Nat) : Prop := exec ins s = .next ((s.viaUp up).put TY_TB_CMD.RESULT 0 r)
    (t.state ≠ tbFree → refused (.alloc up) 1) ∧
    (t.state = tbFree → picked.length < policyTrays t.policy → refused (.alloc up) 2) ∧
    (t.state = tbFree → picked.length = policyTrays t.policy → ∃ u, exec (.alloc up) s = .next u ∧ u.get TY_TB_CMD.RESULT = 0
      ∧ (u.trayBerth n).state = tbAllocated ∧ (u.trayBerth n).places.map (·.1) = picked ∧ (u.trayBerth n).lost = []
      ∧ (∀ x ∈ (u.trayBerth n).places, x.2.length = pages ∧ ∀ pg ∈ x.2, pg ∉ s.trayPagesUsed x.1 ∧ pg ∈ u.trayPagesUsed x.1)
      ∧ (∀ m, m ≠ n → u.trayBerth m = s.trayBerth m) ∧ u.pm = s.pm) ∧
    (t.state = tbFree → refused (.trayBerthFree up) 1) ∧ (t.state ≠ tbFree → t.bound = true → refused (.trayBerthFree up) 3) ∧
    (t.state ≠ tbFree → t.bound = false → s.te.fills = [] → ∃ u, exec (.trayBerthFree up) s = .next u
      ∧ u.get TY_TB_CMD.RESULT = 0 ∧ (u.trayBerth n).state = tbFree ∧ (u.trayBerth n).places = []
      ∧ (∀ x ∈ t.places, ∀ pg ∈ x.2, pg ∉ u.trayPagesUsed x.1) ∧ ∀ m, m ≠ n → u.trayBerth m = s.trayBerth m) ∧
    (∀ spare, s.ty.berths = [(n, t)] → t.state ≠ tbDegraded → refused (.rebuild up spare) 1) ∧
    (∀ spare pos, spare < 64 → s.ty.berths = [(n, t)] → t.state = tbDegraded → t.lost = [pos] → pos < t.places.length →
      t.places.any (·.1 == spare) = false → s.te = .reset → s.get TY_GROUP.TRAYS t.group / 2 ^ spare % 2 = 1 →
      s.get TY_TRAY_STATUS.STATE spare = 1 → pages ≤ s.get TY_TRAY_STATUS.FREE_PAGES spare →
      ∃ u, exec (.rebuild up spare) s = .next u ∧ (u.trayBerth n).state = tbRebuilding ∧ (u.trayBerth n).target = some pos
        ∧ ((u.trayBerth n).places.getD pos (0, [])).1 = spare ∧ (u.trayBerth n).rebuild = List.range 16384) ∧
    (∀ m pos, (s.trayBerth m).state = tbRebuilding → (s.trayBerth m).rebuild = [] → (s.trayBerth m).target = some pos →
      let x := s.trayBerth m
      let lost := x.lost.filter (· != pos)
      exec (.rebuildComplete m) s = .next (s.setTrayBerth m
        { x with lost := lost, target := none, state := if lost.isEmpty then tbAllocated else tbDegraded })) ∧
    (∀ tray, tray < 64 → s.get TY_TRAY_STATUS.STATE tray = 1 → s.ty.berths = [(n, t)] → t.state = tbAllocated → t.lost = [] →
      s.te = .reset → t.places.map (·.1) = tray :: (t.places.map (·.1)).tail → tray ∉ (t.places.map (·.1)).tail →
      ∃ u, exec (.trayFailure tray) s = .next u ∧ u.get TY_TRAY_STATUS.STATE tray = 2 ∧ (u.trayBerth n).lost = [0]
        ∧ (u.trayBerth n).state = tbDegraded ∧ (u.trayBerth n).places = t.places) ∧
    (∀ (r : ReadReq) (f : Fill) (w : Window) (shard tray : Nat), s.fe.reads = [r] → r.use = .trayShard f.fid shard → s.te.fills = [f] →
      f.rebuildOf = none → s.window f.key = some w → s.readTray r = some tray → tray < 64 → s.te.held = [] → s.te.manifests = [] →
      ∃ u, exec (.trayRequestTimeout r.rid) s = .next u ∧ u.blockState f.key f.block = .failed ∧ u.te.fills = [] ∧ u.fe.reads = []
        ∧ u.get TY_TRAY_STATUS.ERRORS tray = min (s.get TY_TRAY_STATUS.ERRORS tray + 1) (2 ^ TY_TRAY_STATUS.ERRORS.width - 1))

/-- The 8+2 code brings back a block from any eight of its ten shards: with two data shards lost from P and Q, with one lost from
P or from Q (R236). -/
def Obligations.EightPlusTwoRecovers : Prop :=
  ∀ ds : List (List Byte), ds.length = 8 → (∀ d ∈ ds, d.length = 512) →
    let have_ (lost : List Nat) : List (Nat × List Byte) :=
      ((List.range 8).filter fun j => !lost.contains j).map fun j => (j, ds.getD j [])
    (∀ x y, x < 8 → y < 8 → x ≠ y → recoverShards (have_ [x, y] ++ [(8, parityP ds), (9, parityQ ds)]) = ds) ∧
    (∀ x, x < 8 → recoverShards (have_ [x] ++ [(8, parityP ds)]) = ds ∧ recoverShards (have_ [x] ++ [(9, parityQ ds)]) = ds) ∧
    recoverShards (have_ []) = ds

/-- Drives and their commands: an inserted drive is clocked, then released, then identified and given its queue pairs, or left
FAILED; a read that completes makes its block RESIDENT with the bytes read, an error fails it; a late command is counted and
issued once more on a new queue pair, when its fare covers it, and fails the second time; an admin command that completes is
over and one that is late fails the drive; a removed drive is ABSENT (R241, R243, R254, R258, R429). -/
def Obligations.DrivesServeFills : Prop :=
  ∀ (s : State) (d : Nat), s.hubUp = true → d < 16 → s.te.held = [] → s.te.manifests = [] →
    (∀ ms, 10 ≤ ms → (s.drive d).present = false →
      exec (.fprsntN d true ms) s = .next (s.setDrive d { s.drive d with present := true, refclk := true })) ∧
    (∀ ms, 10 ≤ ms → (s.drive d).present = true → s.fl.cmds = [] →
      ∃ t, exec (.fprsntN d false ms) s = .next t ∧ t.drive d = Drive.reset ∧ t.get FL_DRIVE_STATUS.STATE d = 0
        ∧ t.get FL_DRIVE_STATUS.QPAIRS d = 0 ∧ t.pm = s.pm) ∧
    (∀ ms p, ms < 10 → exec (.fprsntN d p ms) s = .next s) ∧
    ((s.drive d).refclk = true → (s.drive d).perstLow = true →
      exec (.fperstNRelease d) s
        = .next ((s.setDrive d { s.drive d with perstLow := false }).put FL_DRIVE_STATUS.STATE d 1)) ∧
    (∀ info : DriveInfo, (s.drive d).present = true → (s.drive d).perstLow = false → s.get FL_DRIVE_STATUS.STATE d ≠ 2 →
      (info.flitMode = true → info.adminOk = true → info.lba4096 = true →
        ∃ t, exec (.driveDiscovery d info) s = .next t ∧ t.get FL_DRIVE_STATUS.STATE d = 2
          ∧ t.get FL_DRIVE_STATUS.QPAIRS d = min 64 info.queues % 2 ^ FL_DRIVE_STATUS.QPAIRS.width ∧ t.pm = s.pm ∧ t.te = s.te) ∧
      (info.flitMode = false ∨ info.adminOk = false ∨ info.lba4096 = false → s.fl.cmds = [] →
        ∃ t, exec (.driveDiscovery d info) s = .next t ∧ t.get FL_DRIVE_STATUS.STATE d = 3 ∧ t.get FL_DRIVE_STATUS.QPAIRS d = 0)) ∧
    (∃ t, exec .getLogPagePoll s = .next t
      ∧ t = { s with out := t.out, fl := { s.fl with cmds := t.fl.cmds, nextNid := t.fl.nextNid } }
      ∧ t.out.length = s.out.length + ((List.range 16).filter fun k => s.get FL_DRIVE_STATUS.STATE k == 2).length
      ∧ (t.fl.cmds.drop s.fl.cmds.length).map (fun x => (x.drive, x.qpair))
          = ((List.range 16).filter fun k => s.get FL_DRIVE_STATUS.STATE k == 2).map fun k => (k, 0)) ∧
    (∀ (x : Nvme) (ok : Bool) (p : Payload), s.fl.cmds = [x] → x.drive = d → x.qpair = 0 → x.fill = none → x.copyCid = none →
      exec (.nvmeCompletion d x.nid ok p) s = .next { s with fl := { s.fl with cmds := [] } }
      ∧ ∃ t, exec (.nvmeTimeout d x.nid) s = .next t ∧ t.get FL_DRIVE_STATUS.STATE d = 3 ∧ t.get FL_DRIVE_STATUS.QPAIRS d = 0
        ∧ t.fl.cmds = [] ∧ t.get FL_DRIVE_STATUS.TIMEOUTS d
            = min (s.get FL_DRIVE_STATUS.TIMEOUTS d + 1) (2 ^ FL_DRIVE_STATUS.TIMEOUTS.width - 1)) ∧
    (∀ (x : Nvme) (f : Fill) (w : Window) (fb : Nat) (p : Payload), s.fl.cmds = [x] → x.drive = d → x.qpair ≠ 0 → x.fill = some f.fid → x.blocks = 1 →
      s.te.fills = [f] → s.window f.key = some w → w.src = .flash fb → s.blockState f.key f.block = .filling → f.rebuildOf = none →
      f.feed = false → f.need = [0] → f.got = [] → p.bytes.length = 4096 → p.poisoned = [] → s.pm.dead = [] →
      (s.keySlot f.key).kind = kindDeckA →
      (∃ t, exec (.nvmeCompletion d x.nid true p) s = .next t ∧ t.blockState f.key f.block = .resident ∧ t.fl.cmds = []
        ∧ t.te.fills = [] ∧ (∀ i, i < 4096 → t.pm.near.byte (s.slotByte (s.keySlot f.key) (f.block * 4096 + i)) = p.bytes.getD i 0)
        ∧ ∀ a, (∀ i, i < 4096 → a ≠ s.slotByte (s.keySlot f.key) (f.block * 4096 + i)) → t.pm.near.byte a = s.pm.near.byte a) ∧
      (∃ t, exec (.nvmeCompletion d x.nid false p) s = .next t ∧ t.blockState f.key f.block = .failed ∧ t.fl.cmds = []
        ∧ t.get FL_DRIVE_STATUS.MEDIA_ERR d
            = min (s.get FL_DRIVE_STATUS.MEDIA_ERR d + 1) (2 ^ FL_DRIVE_STATUS.MEDIA_ERR.width - 1) ∧ t.pm = s.pm) ∧
      ((s.drive d).recreates = [] →
        (x.retried = false → ∃ t, exec (.nvmeTimeout d x.nid) s = .next t
          ∧ t.fl.cmds.filter (·.qpair != 0) = [{ x with retried := true, due := !s.covers (f.key / 32768) 0 .flash 1 }]
          ∧ t.te = s.te ∧ t.get FL_DRIVE_STATUS.RECREATES d
              = min (s.get FL_DRIVE_STATUS.RECREATES d + 1) (2 ^ FL_DRIVE_STATUS.RECREATES.width - 1)) ∧
        (x.retried = true → ∃ t, exec (.nvmeTimeout d x.nid) s = .next t ∧ t.fl.cmds.filter (·.qpair != 0) = []
          ∧ t.blockState f.key f.block = .failed)))

/-- A COPY of one transfer between berths of near memory: the destination takes the bytes the source had, no other byte changes,
and the command ends OK with the byte count as its VALUE (R255). -/
def Obligations.CopyMovesBytes : Prop :=
  ∀ (s : State) (c : Cmd) (x y : Slot), s.hubUp = true → s.cmd c.cid = some c → c.stage = .dispatched → c.opc = ocCopy →
    c.stop = none → s.boundaryStop c = none → s.te = .reset → s.pm.near.poison = [] → s.pm.dead = [] → s.ps.seals = [] →
    c.step = 0 → c.count = 0 → c.value = 0 → c.poisonRows = 0 → c.causes = [] →
    let b := copyBody c.desc
    let from_ := ref50 b.src
    let to_ := ref50 b.dst
    b.srcKind = 1 → b.dstKind = 1 → b.len ≤ 262144 → from_.off + b.len ≤ berthBytes → to_.off + b.len ≤ berthBytes →
    s.handle c.part from_.handle = .held x → s.handle c.part to_.handle = .held y → c.part < 64 →
    y.physA < 15360 → y.physB < 15360 → y.lhalf < 2 → x.kind ≠ kindTally → y.kind ≠ kindTally →
    (s.spend c (s.copyCost c b 0 b.len)).2 = true →
    ∃ t, exec (.copy c.cid) s = .next t ∧ t.regs = s.regs
      ∧ t.cmd c.cid = some { c with stage := .finished, step := 1, count := 1, value := b.len, inputs := [], paid := [] }
      ∧ (∀ i, i < b.len → t.pm.near.byte (s.slotByte y (to_.off + i)) = s.pm.near.byte (s.slotByte x (from_.off + i)))
      ∧ (∀ a, (∀ i, i < b.len → a ≠ s.slotByte y (to_.off + i)) → t.pm.near.byte a = s.pm.near.byte a)
      ∧ t.pm.near.poison = []

/-! ## Collectives (chapter 6) -/

/-- A group entry moves through Table 6.3: activation checks the members and the slot memory, takes it and starts at sequence 0,
or sets REFUSED; clearing ACTIVATE drains it; the last sequence over, the slot memory returns and the entry is FREE (R153,
R158, R159). -/
def Obligations.GroupEntriesFollowTable63 : Prop :=
  ∀ (s : State) (g : Nat), s.hubUp = true → g < 1024 → s.groupPart g < 64 →
    let p := s.groupPart g
    let u := slotUnits (s.get RU_GRP_CFG.NMEMB g)
    let held := s.get RU_PART_CFG.SLOT_HELD p
    let st := s.get RU_GRP_CFG.STATE g
    let others (t : State) : Prop := (∀ h, h ≠ g → t.get RU_GRP_CFG.STATE h = s.get RU_GRP_CFG.STATE h) ∧ t.co = s.co ∧ t.pm = s.pm
    (st = grpDefining → s.membersOk g = true → held + u ≤ s.get RU_PART_CFG.SLOT_RES p → held + u < 2 ^ RU_PART_CFG.SLOT_HELD.width →
      ∃ t, exec (.groupActivate g) s = .next t ∧ t.get RU_GRP_CFG.STATE g = grpActive ∧ t.get RU_GRP_CFG.ACTIVATE g = 1
        ∧ t.get RU_PART_CFG.SLOT_HELD p = held + u ∧ t.get RU_GRP_STAT.DONE_SEQ g = 65535 ∧ others t) ∧
    (st = grpDefining → s.membersOk g = false ∨ s.get RU_PART_CFG.SLOT_RES p < held + u →
      exec (.groupActivate g) s = .next (s.put RU_GRP_CFG.REFUSED g 1)) ∧
    (st ≠ grpDefining → exec (.groupActivate g) s = .next s) ∧
    (st = grpActive → ∃ t, exec (.groupDrain g) s = .next t ∧ t.get RU_GRP_CFG.STATE g = grpDraining
      ∧ t.get RU_GRP_CFG.ACTIVATE g = 0 ∧ others t) ∧
    (st = grpDraining → s.co.seqs.any (·.group == g) = false → held < 2 ^ RU_PART_CFG.SLOT_HELD.width →
      ∃ t, exec (.groupDrainComplete g) s = .next t ∧ t.get RU_GRP_CFG.STATE g = grpFree
        ∧ t.get RU_PART_CFG.SLOT_HELD p = held - u ∧ others t) ∧
    (st = grpDraining → s.co.seqs.any (·.group == g) = true → exec (.groupDrainComplete g) s = .next s)

/-- The tree of R154: the root of a list is the combination of the root of its first 2^k leaves with the root of the rest, in
that order; an absent half passes the other up (R154, R172). -/
def Obligations.TreeSplitsAtPowersOfTwo : Prop :=
  ∀ {α : Type} (f : α → α → α) (k : Nat) (l r : List (Option α)), l.length = 2 ^ k → r ≠ [] → r.length ≤ 2 ^ k →
    treeOf f (k + 1) (l ++ r) =
      match treeOf f k l, treeOf f k r with
      | some a, some b => some (f a b)
      | some a, none => some a
      | none, y => y

/-- A collective sequence on one module: a REDUCE joins its sequence and reads the first chunk of its contribution, or is refused
beyond the gate; a child's chunk is kept; at the TOP a chunk that every member has brought is reduced, and the last one reaches a
LOCAL member's berth and completes its command, as RESULT and DONE do at a RELAY; a member that is late is missing and ends
TIMEOUT; a frame of no open group is counted LATE, one with a reserved bit set is dropped (R10, R151, R160, R162, R163, R166 to
R170, R173).

A MERGE reads its table, and a bad entry stops it; it then merges each row of its inputs by the tree in table order and writes the
rows of R105 to its output; with one chunk of work it ends with the second row (R154, R157). Nothing waits at the home. -/
def Obligations.SequencesAndMergesRun : Prop :=
  (∀ (s : State) (g q : Nat) (c : Cmd), s.hubUp = true → g < 1024 → s.te = .reset → s.ho = .reset → s.sc.groups = [] →
     s.pm.near.poison = [] → s.pm.dead = [] → s.ps.seals = [] → s.cmd c.cid = some c → c.opc = ocReduce → c.stop = none →
     let b := reduceBody c.desc
     b.group = g → b.seq = q → s.groupPart g = c.part → b.maskEn = false → c.part < 64 →
     let glo := (s.member g b.member).glo
     let lands (y : Slot) (off : Nat) (data : List Byte) (t : State) : Prop :=
       (∀ i, i < data.length → t.pm.near.byte (s.slotByte y ((ref50 b.dst).off + off + i)) = data.getD i 0)
         ∧ ∀ a, (∀ i, i < data.length → a ≠ s.slotByte y ((ref50 b.dst).off + off + i)) → t.pm.near.byte a = s.pm.near.byte a
     let target (y : Slot) (n : Nat) : Prop := b.dstLoc = true ∧ b.receives glo = true ∧ b.dst ≠ 0
       ∧ s.handle c.part (ref50 b.dst).handle = .held y ∧ y.kind ≠ kindTally ∧ y.physA < 15360 ∧ y.physB < 15360 ∧ y.lhalf < 2
       ∧ (ref50 b.dst).off + n ≤ berthBytes ∧ (ref50 b.dst).off % 64 = 0
     (c.stage = .dispatched → s.boundaryStop c = none → s.get RU_GRP_CFG.STATE g = grpActive → s.co.seqs = [] → s.co.gone = [] →
       s.seqDistance g q ≤ 3 → b.member < s.get RU_GRP_CFG.NMEMB g → b.srcLoc = true →
       Safety.heldBerth s c.part (ref50 b.src).handle →
       (b.dstLoc = true → b.receives glo = true → b.dst ≠ 0 → Safety.heldBerth s c.part (ref50 b.dst).handle
         ∧ ∀ n, s.writeBarred c.part ((ref50 b.dst).handle, (ref50 b.dst).off, n) = false) →
       let p := paramsOf b
       let span (x : Nat × Nat) : NearRef × Nat := ({ ref50 b.src with off := (ref50 b.src).off + x.1 }, x.2)
       let read (x : Nat × Nat) : Payload := if x.2 = 0 then ⟨[], []⟩ else s.readSpan c.part (span x).1 x.2
       let joined (t : State) (m : MemberSeq) : Prop := ∃ x, t.co.seqs = [x] ∧ x.group = g ∧ x.seq = q ∧ x.params = some p
         ∧ x.outcome = none ∧ x.members.length = s.get RU_GRP_CFG.NMEMB g ∧ m ∈ x.members ∧ m.index = b.member
         ∧ m.cid = some c.cid ∧ t.pm = s.pm
       (b.gives glo = false ∨ p.chunks = 0 → ∃ t m, exec (.reduce c.cid) s = .next t ∧ joined t m ∧ m.complete = true
         ∧ m.chunks = [] ∧ t.cmd c.cid = some { c with stage := .running, inputs := [] }) ∧
       (b.gives glo = true → p.chunks ≠ 0 →
         (s.spend c ((([span (p.spans 0).1, span (p.spans 0).2].filter (0 < ·.2)).flatMap fun y =>
           s.nearCost c.part y.1 y.2 false))).2 = true →
         ∃ t m, exec (.reduce c.cid) s = .next t ∧ joined t m ∧ m.complete = decide (p.chunks = 1) ∧ m.read = 1
           ∧ m.chunks = [(0, read (p.spans 0).1), (1, read (p.spans 0).2)]
           ∧ t.cmd c.cid = some { c with stage := .running, paid := [],
                                         inputs := if p.chunks = 1 then [] else c.inputs.filter fun e => sideBase 0 + 1 < e.1 })) ∧
     (c.stage = .dispatched → s.boundaryStop c = none → s.get RU_GRP_CFG.STATE g = grpActive → s.co.seqs = [] →
       3 < s.seqDistance g q →
       ∃ t, exec (.reduce c.cid) s = .next t ∧ t.co = s.co
         ∧ t.cmd c.cid = some { c with stage := .finished, causes := c.causes ++ [(stBadDesc, 0x27)] }) ∧
     (∀ (x : Seq) (m : MemberSeq), s.co.seqs = [x] → x.group = g → x.seq = q → x.members = [m] → x.outcome = none → s.groupOpen g = true →
       c.stage = .running → m.index = b.member →
       (∀ f : Frame, collClean f = true → frameGroup f = g → frameSeq f = q → frameMember f = m.index → f.part.toNat = c.part →
         frameSummary f = false → (s.member g m.index).valid = true → (s.member g m.index).child = true →
         (s.member g m.index).id = f.src.toNat → m.index < s.get RU_GRP_CFG.NMEMB g → m.settled = false → m.expected = none →
         ∃ t, exec (.contrib f) s = .next t ∧ t.co.seqs = [{ x with members :=
           [{ m with chunks := m.chunks ++ [(frameChunk f, framePayload f)] }] }] ∧ t.pm = s.pm) ∧
       (∀ (p : SeqParams) (y : Slot) (main side : Marked) (bytes : List (Nat × Nat)),
         x.params = some p → p.kind = 0 → s.isTop g = true → x.up = false → x.step = 0 → x.sent = 0 → p.chunks = 1 →
         x.out = ⟨[], []⟩ → x.tail = ⟨[], []⟩ → m.complete = true → m.missing = false → m.absent = false → m.excluded = false →
         m.mask = [] → m.cid = some c.cid → s.reduceWork x p 0 = .chunk main side bytes → main.bad = [] → side.bad = [] →
         let data := main.bytes ++ (if side.bytes.isEmpty then [] else padSector side.bytes)
         0 < data.length → data.length ≤ 4096 → data.length ≤ p.outBytes (s.nglobal g) → target y data.length →
         c.poisonRows = 0 → (s.reduceUnit (s.maxUnits c.part ocReduce) 0).isSome = true →
         (chunkCycles bytes).all (fun k => s.covers c.part k.1 .engine k.2) = true →
         ∃ t z d, exec (.reduceChunkComplete (.seq g q)) s = .next t ∧ lands y 0 data t ∧ t.cmd c.cid = some z
           ∧ z.stage = .finished ∧ z.causes = c.causes ∧ (t.seqOf g q).bind (·.outcome) = some d ∧ d.status = stOk ∧ d.chunks = 1) ∧
       (∀ (f : Frame) (p : SeqParams) (y : Slot), collClean f = true → frameGroup f = g → frameSeq f = q → f.part.toNat = c.part →
         s.isTop g = false → x.params = some p → p.kind = 0 → x.up = false → m.missing = false → m.excluded = false →
         m.cid = some c.cid → hasFlag f flagPsn = false →
         let off := if x.got / 4096 = frameChunk f then x.got else 4096 * frameChunk f
         off + f.data.length ≤ p.outBytes (s.nglobal g) → target y (off + f.data.length) →
         ∃ t, exec (.result f) s = .next t ∧ lands y off f.data t ∧ (t.cmd c.cid).map (·.stage) = some .running) ∧
       (∀ f : Frame, collClean f = true → doneClean f.data = true → frameGroup f = g → frameSeq f = q → f.part.toNat = c.part →
         s.isTop g = false → m.cid = some c.cid → m.missing = false → m.excluded = false → c.poisonRows = 0 →
         let d := doneOf f.data
         ∃ t, exec (.doneFrame f) s = .next t ∧ (t.seqOf g q).bind (·.outcome) = some d
           ∧ (d.status = stOk ∨ d.status = stPartial ∨ (x.sent = 0 ∧ x.got = 0) → t.pm = s.pm)
           ∧ (d.status = stOk → t.cmd c.cid = some { c with stage := .finished, value := valueReduce d.excluded d.missing 0 })
           ∧ (d.status ≠ stOk → ∃ z, t.cmd c.cid = some z ∧ z.stage = .finished ∧ z.causes = c.causes ++ [(d.status, d.detail)]
               ∧ z.value = valueReduce d.excluded d.missing 0)) ∧
       (x.up = false → m.settled = false → m.cid = some c.cid → s.excludes g = true →
         ∃ t, exec (.contribTimeout g q) s = .next t ∧ t.co.seqs = [{ x with members := [{ m with missing := true }] }]
           ∧ t.cmd c.cid = some { c with stage := .finished, causes := c.causes ++ [(stTimeout, 0)], stop := some (stTimeout, 0),
                                         inputs := [] }
           ∧ t.get RU_GRP_STAT.MISSING g = min (s.get RU_GRP_STAT.MISSING g + 1) (2 ^ RU_GRP_STAT.MISSING.width - 1))) ∧
     (∀ (f : Frame) (ins : Instr), frameGroup f = g → ins = .contrib f ∧ frameSummary f = false ∨ ins = .result f
         ∨ ins = .doneFrame f ∧ doneClean f.data = true →
       (collClean f = true → s.groupOpen g = false → exec ins s = .next (s.bump RU_GRP_STAT.LATE g 1)) ∧
       (collClean f = false → exec ins s = .next s))) ∧
  (∀ (s : State) (c : Cmd), s.hubUp = true → s.te = .reset → s.ho = .reset → s.ps.seals = [] → s.cmd c.cid = some c →
     c.opc = ocMerge → c.stop = none → s.boundaryStop c = none → s.pm.near.poison = [] → s.pm.dead = [] →
     let b := mergeBody c.desc
     let w := 32 * b.dvw
     (c.stage = .dispatched → Safety.heldBerth s c.part b.inList.handle →
       (s.spend c (s.nearCost c.part b.inList (8 * b.nin) false)).2 = true →
       let t0 := s.readSpan c.part b.inList (8 * b.nin)
       let bad := (mergeInputs b t0).findSome? fun a => a.bind (s.mergeBad c.part b)
       let read : Cmd := { c with stage := .running, inputs := [(0, t0)], paid := [] }
       ∃ t, exec (.merge c.cid) s = .next t ∧ t.pm = s.pm ∧ (bad = none → t.cmd c.cid = some read)
         ∧ ∀ x, bad = some x → t.cmd c.cid = some { read with causes := c.causes ++ [x], stop := some x }) ∧
     (∀ (y : Slot) (t0 : Payload), c.stage = .running → c.step = 0 → c.rows = [] → c.inputs = [(0, t0)] → 0 < mergeInBytes b →
       mergeInBytes b ≤ 4096 →
       let ins := mergeInputs b t0
       let rows := treeRows b.nrow (ins.map fun a => some (s.mergeInput c.part b (List.range b.nrow) a))
       let out := if b.norm then rows.map normRow else rows
       let d := rowsOut b.ofmt w out
       let spans := ins.flatMap fun a => match a with
         | some a => mergeSpans b (mergeRows b 0) a
         | none => []
       let costs := spans.flatMap (fun x => s.nearCost c.part x.1 x.2 false) ++ [(.engine, unitCycles (spans.map (·.2)).sum)]
       (∀ a, some a ∈ ins → Safety.heldBerth s c.part (ref50 a).handle) →
       (∀ r ∈ rows, r.poison = false) → d.poisoned = [] → b.outLoc = true → s.handle c.part (ref50 b.oAddr).handle = .held y →
       y.kind ≠ kindTally → y.physA < 15360 → y.physB < 15360 → y.lhalf < 2 → (ref50 b.oAddr).off + d.bytes.length ≤ berthBytes →
       (s.reduceUnit c.maxUnits 0).isSome = true → (s.spend c costs).2 = true →
       ((s.spend c costs).1.spend { c with paid := [] } (s.nearCost c.part (ref50 b.oAddr) (rowsBytes b.ofmt b.nrow w) true)).2 = true →
       ∃ t z, exec (.reduceChunkComplete (.merge c.cid)) s = .next t ∧ t.cmd c.cid = some z ∧ z.stage = .finished
         ∧ z.causes = c.causes ∧ z.rows = rows ∧ z.value = valueDeck (nanCount out) 0 0 false 0
         ∧ (∀ i, i < d.bytes.length → t.pm.near.byte (s.slotByte y ((ref50 b.oAddr).off + i)) = d.bytes.getD i 0)
         ∧ ∀ a, (∀ i, i < d.bytes.length → a ≠ s.slotByte y ((ref50 b.oAddr).off + i)) → t.pm.near.byte a = s.pm.near.byte a))

/-! ## Links, routes and the switch core (chapters 11 to 14) -/

/-- A flow the module is the source of: an ACK frees what it covers and nothing else; a NACK or an EPOCH_RETIRED return while the
rank is mapped, NACK_US after the last sending, and the retransmission timer, RETX_US after it, resend the frame with RETX and
count it; after MAX_RETX the frame moves to the next path, and after the eighth the flow is PATH_FATAL and starts again with
SYNC; before their times nothing happens (R298, R300 to R303, R321). One path leads to the destination.

A flow the module is the destination of: the ACK timer sends one ACK naming the last frame passed on and clears what was
owed; a gap that lasts names the first missing SEQ in a NACK and changes no flow; a resequencer's gap passes the held frames
on at an egress and discards them at local delivery, and an idle flow leaves the passed points (R300, R301, R335, R336). -/
def Obligations.FlowsDeliverInOrder : Prop :=
  (∀ (s : State) (fl : FlowOut) (x : Sent) (p : Nat), s.hubUp = true → s.lk.out = [fl] → fl.unacked = [x] → s.lk.waiting = [] →
     fl.id = flowOf x.frame → s.pathSet x.frame.dst.toNat none = [p] → x.frame.dst.toNat ≠ s.modId → attrMc x.frame = false →
     s.te.held = [] → s.co.seqs = [] → x.owner = none → x.frame.cls.toNat ≠ vcFwd →
     let q := x.frame.seq.toNat
     let counted (t : State) (F : RegField) : Prop := t.get F 0 = min (s.get F 0 + 1) (2 ^ F.width - 1)
     let resent (t : State) : Prop := counted t LK_E2E_STAT.RETX
       ∧ ∃ g, t.sc.staged = s.sc.staged ++ [g] ∧ hasFlag g.frame flagRetx = true ∧ g.frame.seq = x.frame.seq
           ∧ g.frame.data = x.frame.data ∧ g.frame.dst = x.frame.dst ∧ g.frame.hcrc = hcrcOf g.frame ∧ g.egress = [p]
     let fatal (t : State) : Prop := counted t LK_E2E_STAT.PATH_FATAL ∧ t.lk.out = [{ fl with unacked := [], syncNext := true }]
     let again : Prop := x.sentAt + usCycles (s.get LK_E2E_CFG.NACK_US) ≤ s.tb.hclk
     let late : Prop := x.sentAt + usCycles (s.get LK_E2E_CFG.RETX_US) ≤ s.tb.hclk
     (∀ f : Frame, f.dst.toNat = fl.id.src → f.src.toNat = fl.id.dst → f.cls.toNat = fl.id.cls →
       exec (.ack f) s = .next (s.setFlowOut { fl with unacked := if seqLe q f.seq.toNat then [] else [x] }) ∧
       (f.seq.toNat = q → again → ∃ t, exec (.nack f) s = .next t ∧ resent t
         ∧ t.lk.out = [{ fl with unacked := [{ x with resends := x.resends + 1, sentAt := s.tb.hclk }] }]) ∧
       (f.seq.toNat ≠ q ∨ ¬ again → exec (.nack f) s = .next s)) ∧
     (late → x.resends < s.get LK_E2E_CFG.MAX_RETX → ∃ t, exec (.retxTimer fl.id q) s = .next t ∧ resent t
       ∧ t.lk.out = [{ fl with unacked := [{ x with resends := x.resends + 1, sentAt := s.tb.hclk }] }]) ∧
     (late → s.get LK_E2E_CFG.MAX_RETX ≤ x.resends → x.path < 7 → ∃ t, exec (.retxTimer fl.id q) s = .next t
       ∧ counted t LK_E2E_STAT.FAILOVER
       ∧ t.lk.out = [{ fl with unacked := [{ x with resends := 0, path := x.path + 1, sentAt := s.tb.hclk }] }]) ∧
     (late → s.get LK_E2E_CFG.MAX_RETX ≤ x.resends → 7 ≤ x.path → ∃ t, exec (.retxTimer fl.id q) s = .next t ∧ fatal t) ∧
     (¬ late → exec (.retxTimer fl.id q) s = .next s) ∧
     (∀ f : Frame, f.seq = x.frame.seq → f.tag = x.frame.tag → f.part = x.frame.part → x.frame.cls.toNat = vcBulk →
       (f.ctx.toNat % 256 = stEpochRetired → again → (s.rankOf f.part.toNat slotCurrent fl.id.dst).isSome = true →
         ∃ t, exec (.stRsp f) s = .next t ∧ resent t) ∧
       (f.ctx.toNat % 256 = stPathFatal → ∃ t, exec (.stRsp f) s = .next t ∧ fatal t) ∧
       (f.ctx.toNat % 256 = stOk → exec (.stRsp f) s = .next s))) ∧
  ((∀ (s : State) (fl : FlowIn) (p : Nat), s.hubUp = true → s.flowIn fl.id = some fl → s.pathSet fl.id.src none = [p] →
     fl.id.src ≠ s.modId → fl.id.src < 65536 → fl.id.cls < 8 →
     (fl.start.isSome = true → 0 < fl.sinceAck ∨ fl.owes = true →
       ∃ t g, exec (.ackTimer fl.id) s = .next t ∧ t.sc.staged = s.sc.staged ++ [g] ∧ g.frame.opc = 0x60#8 ∧ g.frame.vc = 7#3
         ∧ g.frame.cls.toNat = fl.id.cls ∧ g.frame.dst.toNat = fl.id.src ∧ g.frame.seq = BitVec.ofNat 24 fl.passed ∧ g.egress = [p]
         ∧ t.flowIn fl.id = some { fl with sinceAck := 0, owes := false, maxCe := 0 }) ∧
     (fl.start.isSome = true → fl.sinceAck = 0 → fl.owes = false → exec (.ackTimer fl.id) s = .next s) ∧
     (s.heldSeqs .delivery fl.id ≠ [] →
       ∃ t g, exec (.gapNackTimer fl.id) s = .next t ∧ t.sc.staged = s.sc.staged ++ [g] ∧ g.frame.opc = 0x61#8
         ∧ g.frame.seq = BitVec.ofNat 24 (seqNext fl.passed) ∧ g.frame.dst.toNat = fl.id.src ∧ t.lk = s.lk) ∧
     (s.heldSeqs .delivery fl.id = [] → exec (.gapNackTimer fl.id) s = .next s)) ∧
   (∀ (s : State) (flow : FlowId) (port : Nat), s.hubUp = true →
     (s.heldSeqs (.egress port) flow ≠ [] → ∃ t, exec (.reseqGapTimeout (.egress port) flow) s = .next t
       ∧ t.heldSeqs (.egress port) flow = [] ∧ t.sc.staged.map (·.frame) = s.sc.staged.map (·.frame)
       ∧ t.sc.frames.map (·.frame) = s.sc.frames.map (·.frame)) ∧
     (s.heldSeqs .delivery flow ≠ [] → ∃ t, exec (.reseqGapTimeout .delivery flow) s = .next t
       ∧ t.heldSeqs .delivery flow = [] ∧ t.sc.staged = s.sc.staged.filter fun x => !(x.held == some .delivery && flowOf x.frame == flow)) ∧
     (∃ t, exec (.reseqFlowEvict port flow) s = .next t ∧ t = { s with sc := { s.sc with passed := t.sc.passed } }
       ∧ ∀ x, x ∈ t.sc.passed ↔ x ∈ s.sc.passed ∧ ¬ (x.port = port ∧ x.flow = flow))))

/-- An arriving frame: a broken header and a broken rule are counted and go no further, and the credits of a frame whose header
holds return to its peer; an ENDPOINT may not name partition, epoch or source; an unmapped rank is counted; a mapped one is
stamped with the port's partition, the current epoch, the port's and the rank's endpoint IDs, and staged toward its route with
one more hop. Behind a frame the port's receiver goes on, and behind a broken header it skips to the next FSTART (R284, R292,
R295, R296, R305, R309, R313). -/
def Obligations.ForwardedFramesAreStamped : Prop :=
  ∀ (s : State) (port : Nat) (f : Frame), s.hubUp = true → s.portUp port = true → port < 512 →
    let p := s.get LP_PORT_CFG.PART port
    let found := s.pcsFound port (f.hcrc == hcrcOf f && f.ver == 1#4)
    let counted (F : RegField) (i : Nat) : Prop := exec (.frameForward port f) s = .next ((found.bump F i 1).freeCredits (some port) f)
    let own : Prop := f.part = 0 ∧ f.epoch = 0 ∧ f.src = 0 ∧ f.dst.toNat < 4096 ∧ attrMc f = false
    (f.hcrc ≠ hcrcOf f → exec (.frameForward port f) s = .next (found.bump LK_PORT_ERR.HCRC port 1)) ∧
    (f.hcrc = hcrcOf f → s.protoOk port f = false → f.cls.toNat ≠ vcTime ∨ isAckNack f = true → counted LK_PORT_ERR.PROTO port) ∧
    (f.hcrc = hcrcOf f → s.protoOk port f = false → f.cls.toNat = vcTime → isAckNack f = false →
      exec (.frameForward port f) s = .next (found.bump LK_PORT_ERR.PROTO port 1)) ∧
    (f.hcrc = hcrcOf f → s.protoOk port f = true → f.cls.toNat ≠ vcTime → f.cls.toNat ≠ vcMgmt → isAckNack f = false →
      s.get LK_PORT_CFG.ROLE port = 0 → s.flag LP_PORT_CFG.FENCE port = false →
      (¬ own → counted LP_PART_STAT.STAMP p) ∧
      (own → s.mapped p slotCurrent f.dst.toNat = 0 → isNonPosted f = false → counted LP_PART_STAT.UNMAPPED p) ∧
      (∀ eg, let id := s.mapped p slotCurrent f.dst.toNat
        own → id ≠ 0 → id < 65536 → p < 64 → id ≠ s.modId → s.pathSet id (some port) = [eg] → s.get LK_PORT_CFG.ROLE eg = 2 →
        s.flag LP_PORT_CFG.FENCE eg = false → attrPin f = false →
        ∃ t g, exec (.frameForward port f) s = .next t ∧ t.sc.staged = s.sc.staged ++ [g] ∧ t.regs = s.regs
          ∧ g.frame.part = BitVec.ofNat 6 p ∧ g.frame.epoch = BitVec.ofNat 8 (s.get LP_EPOCH.CUR p) ∧ g.frame.dst = BitVec.ofNat 16 id
          ∧ g.frame.src = BitVec.ofNat 16 (s.get LP_PORT_CFG.EP_ID port) ∧ g.frame.hops = f.hops + 1 ∧ g.frame.data = f.data
          ∧ g.frame.hcrc = hcrcOf g.frame ∧ g.egress = [eg] ∧ g.ingress = some port))

/-- The landing stage's tables: ROUTE_WRITE and MAP_WRITE replace one entry, a map write outside STAGED is refused;
EPOCH_ACTIVATE rotates the three map slots in one step and starts the next epoch, or is refused; EPOCH_RETIRE empties
PREVIOUS; PORT_FENCE fences a port and drops and counts what waits for it (R305, R315, R318, R320, R323, R325). The module
sends nothing of its own and no collective sequence is open. -/
def Obligations.MapsRoutesAndEpochs : Prop :=
  ∀ s : State, s.hubUp = true → s.lk.out = [] → s.lk.waiting = [] → s.fe.cmds = [] → s.ho = .reset → s.te = .reset →
    s.co.seqs = [] →
    (∀ up (value : Word), up < 2 → let id := (value.extractLsb' 0 16).toNat
      (value.getLsbD 16 = true → ∃ t, exec (.routeWrite up value) s = .next t
        ∧ Tab.get [] t.lp.routes id = (List.range (s.get LP_ROUTE_DATA.NPATH)).map (fun i => s.get LP_ROUTE_DATA.PORT i)
        ∧ (∀ k, k ≠ id → Tab.get [] t.lp.routes k = Tab.get [] s.lp.routes k) ∧ t.lp.maps = s.lp.maps) ∧
      (value.getLsbD 16 = false → ∃ t, exec (.routeWrite up value) s = .next t ∧ t.lp = s.lp ∧ t.get LP_ROUTE_SEL.ID = id)) ∧
    (∀ up (value : Word), up < 2 → value.getLsbD 20 = true →
      let rank := (value.extractLsb' 0 12).toNat
      let part := (value.extractLsb' 12 6).toNat
      (value.extractLsb' 18 2 = 0#2 → ∃ t, exec (.mapWrite up value) s = .next t
        ∧ t.mapped part slotStaged rank = (if s.flag LP_MAP_DATA.VALID then s.get LP_MAP_DATA.EP_ID else 0)
        ∧ ∀ k, k ≠ mapKey part slotStaged rank → Tab.get 0 t.lp.maps k = Tab.get 0 s.lp.maps k) ∧
      (value.extractLsb' 18 2 ≠ 0#2 → ∃ t, exec (.mapWrite up value) s = .next t ∧ t.lp = s.lp ∧ t.get LP_EPOCH.REFUSED part = 1)) ∧
    (∀ p, p < 64 → let cur := s.get LP_EPOCH.CUR p
      let next := s.get LP_EPOCH.STAGED_EPOCH p
      (s.flag LP_EPOCH.RETIRED p = true → next = epochNext cur → cur < 256 → ∃ t, exec (.epochActivate p) s = .next t
        ∧ t.get LP_EPOCH.CUR p = next ∧ t.get LP_EPOCH.PREV p = cur ∧ t.get LP_EPOCH.RETIRED p = 0
        ∧ t.get LP_EPOCH.STAGED_EPOCH p = epochNext next
        ∧ (∀ r, r < 4096 → t.mapped p slotCurrent r = s.mapped p slotStaged r ∧ t.mapped p slotPrevious r = s.mapped p slotCurrent r)
        ∧ ∀ p' sl r, p' ≠ p → sl < 3 → r < 4096 → t.mapped p' sl r = s.mapped p' sl r) ∧
      (s.flag LP_EPOCH.RETIRED p = false ∨ next ≠ epochNext cur →
        exec (.epochActivate p) s = .next (s.put LP_EPOCH.REFUSED p 1)) ∧
      (s.flag LP_EPOCH.RETIRED p = false → ∀ expired, expired = true ∨ s.prevInflight p = 0 → ∃ t, exec (.epochRetire p expired) s = .next t
        ∧ t.get LP_EPOCH.PREV p = 0 ∧ t.get LP_EPOCH.RETIRED p = 1
        ∧ (∀ r, r < 4096 → t.mapped p slotPrevious r = 0 ∧ t.mapped p slotCurrent r = s.mapped p slotCurrent r)) ∧
      (s.flag LP_EPOCH.RETIRED p = true ∨ s.prevInflight p ≠ 0 → exec (.epochRetire p false) s = .next s)) ∧
    (∀ port, port < 512 → s.flag LP_PORT_CFG.FENCE port = false →
      (s.sc.frames = [] → s.sc.staged = [] → ∃ t, exec (.portFence port) s = .next t ∧ t.flag LP_PORT_CFG.FENCE port = true
        ∧ t.lp = s.lp ∧ t.lk = s.lk) ∧
      (∀ b : BufFrame, s.sc.frames = [b] → s.sc.staged = [] → b.egress = [port] → b.frame.src.toNat ≠ s.modId → isNonPosted b.frame = false →
        ∃ t, exec (.portFence port) s = .next t ∧ t.flag LP_PORT_CFG.FENCE port = true ∧ t.sc.frames = []
          ∧ t.get LP_PART_STAT.FENCED b.frame.part.toNat = min (s.get LP_PART_STAT.FENCED b.frame.part.toNat + 1)
              (2 ^ LP_PART_STAT.FENCED.width - 1)))

/-- A port trains in six steps: PORT_ENABLE on a DISABLED port starts DETECT where the width fits its place and overlaps no
enabled port, and is refused otherwise; each finished step starts the next, LOCK's end sends the module's LPARAM, PARAM takes
the peer's parameters or fails with its cause and sends the module's own until three messages running agree, and PARAM's end
brings the port UP, or DOWNSHIFTED at a smaller width. A step that times out spares its one failed lane, trains the largest
smaller width whose lanes passed, or fails the attempt; the third failure is FAILED, and the retry timer starts DETECT again
(R278, R285 to R287, Tables 11.3 and 11.4). -/
def Obligations.PortsTrainInSixSteps : Prop :=
  ∀ (s : State) (p : Nat), s.hubUp = true → p < 512 →
    let x := s.port p
    let st := s.get LK_PORT_STATUS.STATE p
    let w := s.get LK_PORT_CFG.WIDTH p
    let up := s.get LK_PORT_STATUS.WIDTH_UP p
    let portsOnly (t : State) : Prop := t = { s with regs := t.regs, lk := t.lk } ∧ t.lk.out = s.lk.out ∧ t.lk.waiting = s.lk.waiting
      ∧ ∀ q, q ≠ p → t.port q = s.port q
    let stands (t : State) (st step attempts : Nat) : Prop :=
      t.get LK_PORT_STATUS.STATE p = st ∧ (t.port p).step = step ∧ (t.port p).attempts = attempts
    let attemptFails (c : Instr) (cause : Nat) : Prop := ∃ t, exec c s = .next t ∧ portsOnly t
      ∧ stands t (if 2 ≤ x.attempts then portFailed else portTraining) 0 (x.attempts + 1)
      ∧ t.get LK_PORT_STATUS.FAIL_CAUSE p = cause ∧ t.get LK_PORT_STATUS.FAILS p = min (s.get LK_PORT_STATUS.FAILS p + 1) 65535
    (st = portDisabled → s.flag LK_PORT_CFG.ENABLE p = false → w < 4 →
      (p % 128 % 2 ^ w = 0 → s.noOverlap p w = true → ∃ t, exec (.portEnable p) s = .next t ∧ portsOnly t
        ∧ stands t portTraining (if s.cabled p then 1 else 0) 0 ∧ t.flag LK_PORT_CFG.ENABLE p = true
        ∧ t.get LK_PORT_STATUS.WIDTH_UP p = w ∧ ∀ l ∈ portLanes p w, t.get LK_LANE_STATUS.PORT l = p) ∧
      (p % 128 % 2 ^ w ≠ 0 ∨ s.noOverlap p w = false → exec (.portEnable p) s = .next (s.put LK_PORT_CFG.REFUSED p 1))) ∧
    (st = portTraining →
      (0 < x.step → x.step < 4 → exec (.trainingStepDone p) s = .next (s.setPort p { x with step := x.step + 1 })) ∧
      (x.step = 4 → exec (.trainingStepDone p) s = .next ((s.setPort p { x with step := 5 }).emit
        (.link p 0x63 [1, 2, up, s.get LK_PORT_CFG.SPARE_BOUND p, 1784, 32, 33, 0, s.ps.uid.toNat]))) ∧
      (x.step = 5 → paramDone x = false → exec (.trainingStepDone p) s = .next s) ∧
      (x.step = 5 → paramDone x = true → ∃ t, exec (.trainingStepDone p) s = .next t
        ∧ stands t (if up = w then portUpState else portDownshifted) 0 0 ∧ (t.port p).resv = x.resv
        ∧ (up ≠ w → s.modState = modReady → t.modState = modDegraded) ∧ (up = w → t.modState = s.modState)) ∧
      (0 < x.step → (∀ l : Nat, l < 128 → x.step ≤ 3 → s.spareUsable p = true → s.get LK_PORT_CFG.SPARE_SEL p < 4 →
        ∃ t, exec (.trainingStepTimeout p [l]) s = .next t ∧ stands t portTraining (x.step + 1) x.attempts
          ∧ t.flag LK_PORT_STATUS.SPARED p = true ∧ t.get LK_LANE_STATUS.STATE (p / 128 * 132 + l) = 2
          ∧ t.get LK_LANE_STATUS.PORT (s.spareLane p) = p ∧ t.get LK_PORT_STATUS.WIDTH_UP p = up)) ∧
      (∀ failed : List Nat, 0 < x.step → x.step ≤ 3 → failed ≠ [] → failed.length ≠ 1 ∨ s.spareUsable p = false → s.downshiftOn p = true →
        let passes (v : Nat) : Prop := ∀ l ∈ failed, p / 128 * 132 + l ∉ portLanes p v
        (∀ v, v < up → v < 4 → passes v → (∀ u, v < u → u < up → ¬ passes u) →
          exec (.trainingStepTimeout p failed) s =
            .next ((s.put LK_PORT_STATUS.WIDTH_UP p v).setPort p { x with step := x.step + 1 })) ∧
        ((∀ v, v < up → ¬ passes v) → attemptFails (.trainingStepTimeout p failed) x.step)) ∧
      (∀ failed : List Nat, 0 < x.step → x.step < 8 →
        failed = [] ∨ 3 < x.step ∨ ((failed.length ≠ 1 ∨ s.spareUsable p = false) ∧ s.downshiftOn p = false) →
        attemptFails (.trainingStepTimeout p failed) x.step) ∧
      (∀ q : LParam, x.step = 5 → let role := s.get LK_PORT_CFG.ROLE p
        let known : Prop := q.typ = role ∧ (role = 2 → q.stage ≠ s.get LP_CFG.STAGE)
        let fits : Prop := q.rcred.length = 8 ∧ (∀ n ∈ q.rcred, 32 ≤ n) ∧ 33 ≤ q.floor
          ∧ (role = 1 → 1 ≤ q.pages ∧ q.pages ≤ 3145728) ∧ (role ≠ 1 → q.pages = 0)
        let n := if 0 < x.agreed ∧ sameParams x q = true then x.agreed + 1 else 1
        (q.rsv = 0 → q.ver = 1 → q.width = up → known → fits → ∃ t, exec (.lparam p q) s = .next t ∧ stands t portTraining 5 x.attempts
          ∧ t = { s with regs := t.regs, lk := t.lk, out := t.out } ∧ t.lk.out = s.lk.out ∧ (∀ k, k ≠ p → t.port k = s.port k)
          ∧ t.out = s.out ++ (if n < 3 then
              [.link p 0x63 [1, 2, up, s.get LK_PORT_CFG.SPARE_BOUND p, 1784, 32, 33, 0, s.ps.uid.toNat]] else [])
          ∧ t.get LK_PORT_STATUS.PEER_TYPE p = role % 4 ∧ (t.port p).uid = q.uid ∧ (t.port p).agreed = n ∧ (t.port p).resv = q.rcred
          ∧ (t.port p).floor = List.replicate 8 q.floor ∧ (t.port p).pool = q.pool ∧ (t.port p).pages = q.pages) ∧
        (q.rsv = 0 → q.ver ≠ 1 → attemptFails (.lparam p q) 7) ∧ (q.rsv = 0 → q.ver = 1 → q.width ≠ up → attemptFails (.lparam p q) 5) ∧
        (q.rsv = 0 → q.ver = 1 → q.width = up → ¬ known → attemptFails (.lparam p q) 6) ∧
        (q.rsv = 0 → q.ver = 1 → q.width = up → known → ¬ fits → attemptFails (.lparam p q) 5))) ∧
    (∀ q : LParam, q.rsv ≠ 0 → exec (.lparam p q) s = .next (s.bump LK_PORT_ERR.PROTO p 1)) ∧
    (s.flag LK_PORT_CFG.ENABLE p = true → (st = portTraining ∧ x.step = 0) ∨ st = portFailed → ∃ t, exec (.trainingRetry p) s = .next t
      ∧ portsOnly t ∧ stands t portTraining (if s.cabled p then 1 else 0) x.attempts)

/-- A port that loses its link, its lane without remedy, its peer's answer or its cables returns to TRAINING with fresh credits,
and disabling ends it; in each case every frame queued for it or staged from it is gone. A retired lane is swapped for the
bound spare where the peer can, else the width halves at the first lane; a lane that fails during the repair waits for its end
(R288 to R291, R421, R426).

Credits are cumulative counts: CREDIT_SEND sends the port's own, and the peer's return a frame's credits to the pots they
came from; a codeword that cannot be corrected is counted at its port and lane, discards the frame in progress, and at
UCW_RETIRE of them within a second retires the lane; a message with a reserved bit set is dropped and counted (R10, R284, R289,
R296, R347).

The PCS: a frame's bytes fill 640-byte codewords, codeword n on lane n mod w with CWSEQ n mod 4,096 and the first frame start in
FSTART; a receiver finds the frame in its words again, passes idle words over, and after damage goes on at the next FSTART; DESKEW
bears lanes up to four codewords apart, in any place, and no more (R281 to R284). -/
def Obligations.LanesAndCreditsReturn : Prop :=
  (∀ (s : State) (p : Nat), s.hubUp = true → p < 512 → s.get LK_PORT_STATUS.WIDTH_UP p < 4 → s.get LK_PORT_CFG.SPARE_SEL p < 4 →
     let x := s.port p
     let st := s.get LK_PORT_STATUS.STATE p
     let up := s.get LK_PORT_STATUS.WIDTH_UP p
     let noFrames (t : State) : Prop := (∀ b ∈ t.sc.frames, p ∉ b.egress) ∧ ∀ y ∈ t.sc.staged, p ∉ y.egress ∧ y.ingress ≠ some p
     let retrains (t : State) : Prop := t.get LK_PORT_STATUS.STATE p = portTraining ∧ noFrames t
       ∧ t.port p = { Port.reset with step := if s.cabled p then 1 else 0 } ∧ ∀ q, q ≠ p → t.port q = s.port q
     let asks (c : Instr) (lane action : Nat) : Prop :=
       exec c s = .next (((s.put LK_PORT_STATUS.STATE p portRepair).setPort p { x with repair := some (lane, action) }).emit
         (.link p 0x65 [lane, action]))
     let swapped (t : State) (lane : Nat) : Prop := t.flag LK_PORT_STATUS.SPARED p = true
       ∧ t.get LK_LANE_STATUS.STATE (p / 128 * 132 + lane) = 2 ∧ t.get LK_LANE_STATUS.STATE (s.spareLane p) = 0
       ∧ t.get LK_LANE_STATUS.PORT (s.spareLane p) = p ∧ t.get LK_PORT_STATUS.WIDTH_UP p = up ∧ (t.port p).repair = none
       ∧ t.get LK_PORT_STATUS.STATE p = (if up = s.get LK_PORT_CFG.WIDTH p then portUpState else portDownshifted)
     let halved (t : State) (lane : Nat) : Prop := t.get LK_PORT_STATUS.WIDTH_UP p = up - 1
       ∧ t.get LK_LANE_STATUS.STATE (p / 128 * 132 + lane) = 2 ∧ (t.port p).repair = none
       ∧ t.get LK_PORT_STATUS.STATE p = (if up - 1 = s.get LK_PORT_CFG.WIDTH p then portUpState else portDownshifted)
       ∧ (s.modState = modReady → t.modState = modDegraded)
     x.waiting = [] →
     ((s.portUp p = true ∨ st = portRepair → ∃ t, exec (.linkLost p) s = .next t ∧ retrains t) ∧
       (s.portUp p = false → st ≠ portRepair → exec (.linkLost p) s = .next s)) ∧
     (∃ t, exec (.portDisable p) s = .next t ∧ t.flag LK_PORT_CFG.ENABLE p = false ∧ t.get LK_PORT_STATUS.STATE p = portDisabled
       ∧ noFrames t ∧ t.port p = Port.reset ∧ ∀ q, q ≠ p → t.port q = s.port q) ∧
     (∀ die lane, die < 4 → lane < 132 → s.portOfLane (die * 132 + lane) = some p → s.portUp p = true → let c : Instr := .laneFailure die lane
       let present := s.laneCabled (die * 132 + lane)
       let spare := s.spareUsable p && x.peerSpare
       let narrower := s.downshiftOn p && decide (0 < up)
       (present = false → exec c s = .next s) ∧ (present = true → spare = true → asks c lane 0) ∧
       (present = true → spare = false → narrower = true → asks c lane 1) ∧
       (present = true → spare = false → narrower = false →
         ∃ t, exec c s = .next t ∧ retrains t ∧ t.get LK_LANE_STATUS.STATE (die * 132 + lane) = 2)) ∧
     (∀ u (value : Word), u < 2 → let die := (value.extractLsb' 0 2).toNat
       let lane := (value.extractLsb' 2 8).toNat
       (lane < 128 → s.get LK_LANE_STATUS.STATE (die * 132 + lane) = 0 → s.portOfLane (die * 132 + lane) = some p →
         exec (.lkLaneRetire u value) s = exec (.laneFailure die lane) (s.viaUp u)) ∧
       (128 ≤ lane ∨ s.get LK_LANE_STATUS.STATE (die * 132 + lane) ≠ 0 ∨ s.portOfLane (die * 132 + lane) = none →
         exec (.lkLaneRetire u value) s = .next (s.viaUp u))) ∧
     (∀ lane, lane < 128 → s.portUp p = true →
       (s.spareUsable p = true → ∃ t, exec (.laneCtl p lane ⟨0, 0⟩) s = .next t ∧ swapped t lane ∧ t.out.getLast? = some (.link p 0x65 [lane, 2])) ∧
       (0 < up → ∃ t, exec (.laneCtl p lane ⟨1, 0⟩) s = .next t ∧ halved t lane ∧ t.out.getLast? = some (.link p 0x65 [lane, 2])) ∧
       exec (.laneCtl p lane ⟨2, 0⟩) s = .next s) ∧
     (∀ lane action rsv, rsv ≠ 0 → exec (.laneCtl p lane ⟨action, rsv⟩) s = .next (s.bump LK_PORT_ERR.PROTO p 1)) ∧
     (∀ lane k action, lane < 128 → st = portRepair →
       (x.repair = some (lane, 0) → (∃ t, exec (.laneCtl p k ⟨2, 0⟩) s = .next t ∧ swapped t lane)
         ∧ ∃ t, exec (.laneCtl p lane ⟨0, 0⟩) s = .next t ∧ swapped t lane ∧ t.out.getLast? = some (.link p 0x65 [lane, 2])) ∧
       (x.repair = some (lane, 1) → 0 < up → ∃ t, exec (.laneCtl p k ⟨2, 0⟩) s = .next t ∧ halved t lane) ∧
       (x.repair = some (lane, action) → (∃ t, exec (.laneCtlTimeout p) s = .next t ∧ retrains t)
         ∧ ∀ l, l < 132 → l ≠ lane → s.portOfLane (p / 128 * 132 + l) = some p → s.laneCabled (p / 128 * 132 + l) = true →
             exec (.laneFailure (p / 128) l) s = .next (s.setPort p { x with waiting := [p / 128 * 132 + l] }))) ∧
     (∀ die group present ms, die < 4 → group < 32 →
       (ms < 10 → exec (.cblPrsntN die group present ms) s = .next s ∧ exec (.sprPrsntN die present ms) s = .next s) ∧
       (10 ≤ ms → exec (.sprPrsntN die present ms) s = .next (s.put LK_CBL_STATUS.SPARE_PRSNT die (if present then 1 else 0)) ∧
         ∃ t, exec (.cblPrsntN die group present ms) s = .next t
           ∧ (∀ k, k < 32 → (t.get LK_CBL_STATUS.GROUP_PRSNT die).testBit k =
               if k = group then present else (s.get LK_CBL_STATUS.GROUP_PRSNT die).testBit k)
           ∧ (∀ l, l ∈ portLanes p (s.get LK_PORT_CFG.WIDTH p) → l / 132 = die → l % 132 / 4 = group → s.enabledPorts = [p] →
               (present = false → s.portUp p = true ∨ st = portRepair → t.get LK_PORT_STATUS.STATE p = portTraining ∧ (t.port p).step = 0 ∧ noFrames t) ∧
               (present = true → st = portTraining → x.step = 0 → x.attempts = 0 → t.cabled p = true →
                 t.get LK_PORT_STATUS.STATE p = portTraining ∧ (t.port p).step = 1))))) ∧
  (∀ (s : State) (p : Nat), s.hubUp = true → p < 512 →
     let x := s.port p
     (s.portUp p = true →
       exec (.creditSend p) s = .next (s.emit (.link p 0x62 x.freed)) ∧
       (∀ lane, lane < 132 → let key := LK_LANE_STATUS.UCW.id + 1024 * (p / 128 * 132 + lane)
         let u := ((((s.bump LK_PORT_ERR.UCW p 1).bump LK_LANE_STATUS.UCW (p / 128 * 132 + lane) 1).setPort p
           { x with rx := { skip := true, frame := [] } }).noteEvent key secondCycles)
         (u.recentCount key secondCycles < s.get LK_E2E_CFG.UCW_RETIRE → exec (.codewordUncorrectable p lane) s = .next u) ∧
         (s.get LK_E2E_CFG.UCW_RETIRE ≤ u.recentCount key secondCycles →
           exec (.codewordUncorrectable p lane) s = exec (.laneFailure (p / 128) lane) (u.forgetEvents key))) ∧
       (∀ (counts : List Nat), (∀ v, v < 8 → counts.getD v 0 % 65536 = x.counts.getD v 0 % 65536) → ∃ t, exec (.credit p ⟨counts, 0⟩) s = .next t
         ∧ t = s.setPort p { x with counts := (List.range 8).map fun v => counts.getD v 0 % 65536 }) ∧
       (∀ (counts : List Nat) (k : CreditTake), x.taken = [k] → k.vc < 8 → 0 < k.resv + k.pool + k.floor → k.resv + k.pool + k.floor < 65536 →
         x.resv.length = 8 → x.floor.length = 8 →
         (∀ v, v < 8 → counts.getD v 0 % 65536 = (x.counts.getD v 0 + if v = k.vc then k.resv + k.pool + k.floor else 0) % 65536) →
         ∃ t, exec (.credit p ⟨counts, 0⟩) s = .next t ∧ t = s.setPort p (t.port p) ∧ (t.port p).taken = [] ∧ (t.port p).pool = x.pool + k.pool
           ∧ (∀ v, v < 8 → (t.port p).resv.getD v 0 = x.resv.getD v 0 + (if v = k.vc then k.resv else 0)
               ∧ (t.port p).floor.getD v 0 = x.floor.getD v 0 + (if v = k.vc then k.floor else 0))
           ∧ ∀ q, Tab.get 0 (t.port p).poolUse q = Tab.get 0 x.poolUse q - (if q = k.part then k.pool else 0))) ∧
     (∀ counts rsv, rsv ≠ 0 → exec (.credit p ⟨counts, rsv⟩) s = .next (s.bump LK_PORT_ERR.PROTO p 1)) ∧
     (s.portUp p = false → exec (.creditSend p) s = .next s ∧ (∀ counts, exec (.credit p ⟨counts, 0⟩) s = .next s)
       ∧ ∀ lane, exec (.codewordUncorrectable p lane) s = .next s)) ∧
  ((∀ (w : Nat) (t : PcsTx) (f : Frame), 0 < w → t.bytes.length < 640 →
     let r := t.send w f
     r.1.flatMap (·.2.data) ++ r.2.bytes = t.bytes ++ frameBytes f ∧ r.2.bytes.length < 640 ∧ r.2.number = t.number + r.1.length
       ∧ (∀ c, r.1.head? = some c → c.2.start = some (t.start.getD (t.bytes.length / 8)))
       ∧ ∀ i c, r.1[i]? = some c → c.1 = (t.number + i) % w ∧ c.2.cwseq = (t.number + i) % 4096 ∧ c.2.data.length = 640) ∧
   (∀ (f : Frame) (l : List (List Byte)), f.ver = 1#4 → f.hcrc = hcrcOf f → f.data.length % 8 = 0 →
     f.data.length = (if f.opc = 0x01#8 then 0 else f.len.toNat) →
     (wordsOf (frameBytes f)).foldl PcsRx.word (⟨false, []⟩, l) = (⟨false, []⟩, l ++ [frameBytes f])) ∧
   (∀ (l : List (List Byte)) (word : List Byte),
     (wordVer word = 0 → PcsRx.word (⟨false, []⟩, l) word = (⟨false, []⟩, l)) ∧
     (1 < wordVer word → PcsRx.word (⟨false, []⟩, l) word = (⟨true, []⟩, l))) ∧
   (∀ (x : PcsRx) (c : Codeword), x.take none = (⟨true, []⟩, []) ∧
     (x.skip = true → c.start = none → x.take (some c) = (x, [])) ∧
     (∀ k, x.skip = true → c.start = some k → x.take (some c) = ((wordsOf c.data).drop k).foldl PcsRx.word (⟨false, []⟩, []))) ∧
   (∀ (w n : Nat) (d : Nat → Nat) (seqs : List Nat), w = 1 ∨ w = 2 ∨ w = 4 ∨ w = 8 →
     seqs.Perm ((List.range w).map fun l => (w * (n + d l) + l) % 4096) →
     ((∀ l, l < w → d l ≤ 4) → deskewOk w seqs = true) ∧
     ((∀ l, l < w → d l ≤ 5) → (∃ l, l < w ∧ d l = 0) → (∃ l, l < w ∧ d l = 5) → deskewOk w seqs = false)))

/-- BUFFER_ADMISSION: the oldest staged frame of its account and VC takes shared cells within BUF_MAX and the others' unused
minimums, else cells of the VC's reserve of 34, else waits; a frame with nowhere to go or no LINK fare is dropped, and one whose
egress was fenced is counted; its credits return to its port's peer either way. FRAME_AGE_OUT drops a frame of the buffer AGE_US
after its admission, counts it and frees its cells (R296, R323, R330 to R334, R342, R356). No bank drains. -/
def Obligations.FramesTakeAndReturnCells : Prop :=
  (∀ (s : State) (x : Staged), s.hubUp = true → s.sc.staged = [x] → x.acct < 65 → (∀ k, s.get SC_BANK_STATUS.STATE k ≠ 2) →
    let f := x.frame
    let n := frameCells f
    let eg := x.egress.filter (s.egressOpen (attrMc f))
    let room : Prop := n ≤ (s.allocate n).length
    let fenced : Prop := attrMc f = false ∧ ∃ e ∈ x.egress, s.flag LP_PORT_CFG.FENCE e = true
    let noFare : Prop := x.acct < 64 ∧ s.faresBind = true ∧ s.fare x.acct .link = 0 ∧ ∃ e ∈ eg, e < 512
    let bound : Prop := x.held.isSome = true ∨ s.queuesOk f x.sub eg = true
    let fits : Prop := s.sharedUse x.acct + n ≤ s.bufMax x.acct ∧ n + s.unusedMins x.acct ≤ s.get SC_STATUS.FREE_CELLS
    let reserve : Prop := n + s.reserveUse x.acct f.vc.toNat ≤ 34
    let congested : Prop := ∃ e ∈ eg, s.get TM_CFG.CE_KB * 1024 < s.serviceBytes e (serviceOf f)
    let credited (t : State) : Prop := ∀ p, x.ingress = some p →
      (t.port p).freed.getD f.vc.toNat 0 = ((s.port p).freed.getD f.vc.toNat 0 + frameCredits f) % 65536
    let dropped (t : State) : Prop := t.sc.staged = [] ∧ t.sc.frames = s.sc.frames ∧ t.out = s.out ∧ credited t
    let admitted (sh : Bool) : Prop := ∃ t b, exec (.bufferAdmission 0) s = .next t ∧ t.sc.staged = [] ∧ t.sc.frames = s.sc.frames ++ [b]
      ∧ b.acct = x.acct ∧ b.chain = s.allocate n ∧ b.cells = n ∧ b.egress = eg ∧ b.shared = sh ∧ b.held = x.held ∧ b.admitted = s.tb.hclk
      ∧ (¬ congested → b.frame = f) ∧ (congested → b.frame = { f with ce := if f.ce = 15#4 then 15#4 else f.ce + 1 })
      ∧ t.get SC_PART_OCC.USED x.acct = (s.get SC_PART_OCC.USED x.acct + n) % 1048576
      ∧ (t.get SC_STATUS.FREE_CELLS = if sh then (s.get SC_STATUS.FREE_CELLS - n) % 1048576 else s.get SC_STATUS.FREE_CELLS)
      ∧ t.out = s.out ∧ t.pt = s.pt ∧ credited t
    (eg = [] → ¬ fenced → ∃ t, exec (.bufferAdmission 0) s = .next t ∧ dropped t) ∧
    (eg = [] → fenced → ∃ t, exec (.bufferAdmission 0) s = .next t ∧ t.sc.frames = s.sc.frames ∧ credited t
      ∧ t.get LP_PART_STAT.FENCED f.part.toNat = min (s.get LP_PART_STAT.FENCED f.part.toNat + 1) (2 ^ LP_PART_STAT.FENCED.width - 1)
      ∧ (isNonPosted f = false → dropped t)) ∧
    (noFare → ∃ t, exec (.bufferAdmission 0) s = .next t ∧ dropped t
      ∧ t.get SC_PART_DROP.NOFARE x.acct = min (s.get SC_PART_DROP.NOFARE x.acct + 1) 65535) ∧
    (eg ≠ [] → ¬ noFare → bound → (fits → room → admitted true) ∧ (¬ fits → reserve → room → admitted false)
      ∧ ((¬ fits ∧ ¬ reserve) ∨ ¬ room → exec (.bufferAdmission 0) s = .next s)) ∧
    (eg ≠ [] → ¬ noFare → ¬ bound → exec (.bufferAdmission 0) s = .next s) ∧
    (∀ i, 0 < i → exec (.bufferAdmission i) s = .next s)) ∧
  (∀ (s : State) (x y : Staged), s.hubUp = true → s.sc.staged = [y, x] → y.acct = x.acct → y.frame.vc = x.frame.vc →
    exec (.bufferAdmission 1) s = .next s) ∧
  (∀ (s : State) (fid : Nat), s.hubUp = true → (∀ k, s.get SC_BANK_STATUS.STATE k ≠ 2) →
    (∀ b, s.sc.frames.find? (fun c => c.fid == fid) = some b → s.tb.hclk < b.admitted + usCycles (s.get SC_CFG.AGE_US) →
      exec (.frameAgeOut fid) s = .next s) ∧
    (∀ b, s.sc.frames.find? (fun c => c.fid == fid) = some b → b.admitted + usCycles (s.get SC_CFG.AGE_US) ≤ s.tb.hclk →
      b.acct < 65 → ∃ t, exec (.frameAgeOut fid) s = .next t
      ∧ t.sc.frames = s.sc.frames.filter (fun c => c.fid != fid) ∧ t.sc.staged = s.sc.staged ∧ t.out = s.out
      ∧ t.get SC_PART_DROP.AGED b.acct = min (s.get SC_PART_DROP.AGED b.acct + 1) 65535
      ∧ t.get SC_PART_OCC.USED b.acct = (s.get SC_PART_OCC.USED b.acct - b.cells) % 1048576
      ∧ (b.shared = true → t.get SC_STATUS.FREE_CELLS = (s.get SC_STATUS.FREE_CELLS + s.openCells b.chain) % 1048576)) ∧
    ((∀ b ∈ s.sc.frames, b.fid ≠ fid) → exec (.frameAgeOut fid) s = .next s))

/-- The landing stage drops, at admission, a frame whose partition has a LINK fare of zero and whose egress is a port, and counts
the drop in SC_PART_DROP.NOFARE (R331). The frame is the oldest of its account and VC that waits, and fares bind (R266). -/
def Obligations.ZeroLinkFareFramesAreDropped : Prop :=
  ∀ (s : State) (i e : Nat) (x : Staged), s.hubUp = true → s.faresBind = true → s.sc.staged[i]? = some x →
    (∀ y ∈ s.sc.staged.take i, y.acct ≠ x.acct ∨ y.frame.vc ≠ x.frame.vc) → x.acct < 64 → s.fare x.acct .link = 0 →
    e ∈ x.egress → s.egressOpen (attrMc x.frame) e = true → e < 512 →
    ∃ t, exec (.bufferAdmission i) s = .next t ∧ t.sc = { s.sc with staged := s.sc.staged.eraseIdx i } ∧ t.out = s.out ∧ t.pt = s.pt
      ∧ t.get SC_PART_DROP.NOFARE x.acct = min (s.get SC_PART_DROP.NOFARE x.acct + 1) 65535
      ∧ Safety.regsKeptBut [SC_PART_DROP.NOFARE] s t

/-- FRAME_SELECT: an egress starts one eligible frame, which leaves the buffer, pays credits, tokens and fare, and returns its
cells; an uncorrectable bank word drops it instead; with no eligible frame nothing leaves. Of two services the one with the
smaller start tag goes first, ties to the lower index, and its tag advances by its length over its weight; at a port the frame
fills the codewords of the port's stream (R281, R328, R332, R343, R345, R348). No bank drains. -/
def Obligations.EgressesSelectByStartTag : Prop :=
  (∀ (s : State) (b : BufFrame) (e : Nat), s.hubUp = true → s.sc.frames = [b] → b.held = none → b.egress = [e] → b.acct < 65 →
    (∀ k, s.get SC_BANK_STATUS.STATE k ≠ 2) →
    let f := b.formAt e
    let svc := serviceOf f
    let len := frameLen f
    let part := f.part.toNat
    let gone (t : State) : Prop := t.sc.frames = [] ∧ t.sc.staged = s.sc.staged
      ∧ t.get SC_PART_OCC.USED b.acct = (s.get SC_PART_OCC.USED b.acct - b.cells) % 1048576
      ∧ (b.shared = true → t.get SC_STATUS.FREE_CELLS = (s.get SC_STATUS.FREE_CELLS + s.openCells b.chain) % 1048576)
    (s.eligible e b = true → 512 ≤ e → ∃ t, exec (.frameSelect e none) s = .next t ∧ gone t ∧ t.out = s.out ++ [.deliver e f]
      ∧ t.pt = s.pt ∧ t.lk = s.lk) ∧
    (s.eligible e b = true → e < 512 → let sent := (s.port e).tx.send (widthLanes (s.get LK_PORT_STATUS.WIDTH_UP e)) (s.wireForm e f)
      ∃ t, exec (.frameSelect e none) s = .next t ∧ gone t
      ∧ t.out = s.out ++ .frame e (s.wireForm e f) :: sent.1.map (fun c => .codeword e c.1 c.2) ∧ (t.port e).tx = sent.2
      ∧ t.svcTokens svc = (if s.get TM_SVC_SHAPE.RATE svc = 0 then s.svcTokens svc else s.svcTokens svc - len * 1000)
      ∧ t.usedNow part .link = s.usedNow part .link + (if b.acct = acctDev then 0 else (len + 255) / 256)
      ∧ ((s.port e).resv.length = 8 → frameCredits f ≤ (s.port e).resv.getD f.vc.toNat 0 →
          (t.port e).resv.getD f.vc.toNat 0 = (s.port e).resv.getD f.vc.toNat 0 - frameCredits f
            ∧ (t.port e).pool = (s.port e).pool)) ∧
    (∀ bank, s.eligible e b = true → bank < 522 → ∃ t, exec (.frameSelect e (some (bank, true))) s = .next t ∧ gone t ∧ t.pt = s.pt ∧ t.lk = s.lk
      ∧ t.get SC_PART_DROP.ECC b.acct = min (s.get SC_PART_DROP.ECC b.acct + 1) 65535
      ∧ t.get SC_BANK_STATUS.UE bank = min (s.get SC_BANK_STATUS.UE bank + 1) 65535) ∧
    (∀ w, s.eligible e b = false → ∃ t, exec (.frameSelect e w) s = .next t ∧ t.out = s.out ∧ t.pt = s.pt ∧ t.lk = s.lk
      ∧ t.sc.frames.map (·.frame) = [b.frame])) ∧
  (∀ (s : State) (a b : BufFrame) (e : Nat), s.hubUp = true → s.sc.frames = [a, b] ∨ s.sc.frames = [b, a] → a.fid ≠ b.fid →
    (∀ x ∈ [a, b], x.held = none ∧ x.egress = [e] ∧ s.eligible e x = true ∧ x.acct < 65) → serviceOf a.frame ≠ serviceOf b.frame →
    let start (x : BufFrame) : Nat :=
      (startTag (Tab.get Tag.reset s.tm.svcTag (svcKey e (serviceOf x.frame))) (Tab.get 0 s.tm.egressV e)).start
    start a < 2 ^ 64 → start b < 2 ^ 64 → (start a ≠ start b ∧ tagLe (start a) (start b) = true) ∨
      (start a = start b ∧ serviceOf a.frame < serviceOf b.frame) →
    ∃ t, exec (.frameSelect e none) s = .next t ∧ t.sc.frames = [b] ∧ Tab.get 0 t.tm.egressV e = start a
      ∧ Tab.get Tag.reset t.tm.svcTag (svcKey e (serviceOf a.frame)) =
          ⟨finishTag (start a) (frameLen (a.formAt e)) (s.svcWeight (serviceOf a.frame)), true⟩)

/-- TOKEN_BUCKET_REFILL credits every bucket for 8 ns up to BURST; GATE_ENTRY_BOUNDARY begins the entry that the time base names, a
list that is not in force waits for its cycle start, and at its end a list gives way to a scheduled one; COMMIT checks the
PENDING list and schedules it or gives its cause; GCL_ACTIVATE puts the scheduled list in force at its entry 0 at a start of its
cycle, where none is in force or that one is at its end (R350 to R353, Table 14.9). No TIME frame waits.

The leak audit takes what it finds unmarked off the free count, reclaims what two passes running found so, drops frames whose
cells are also free and counts all this; a retired bank's group leaves service, for ever with its 4,096 cells when no spare is
left, else until it is empty and the lowest spare takes the bank's place; SC_MC_SEL's OP replaces one multicast entry (R328,
R330, R337, R339). No other bank drains. -/
def Obligations.BucketsGatesAuditsAndBanks : Prop :=
  (∀ s : State, s.hubUp = true →
     (s.tm.svcBucket.rises = true → s.tm.subBucket.rises = true → ∃ t, exec .tokenBucketRefill s = .next t ∧ t.regs = s.regs
       ∧ t = { s with tm := { s.tm with svcBucket := t.tm.svcBucket, subBucket := t.tm.subBucket } }
       ∧ (∀ v, t.svcTokens v = min (bucketFull (s.get TM_SVC_SHAPE.BURST v)) (s.svcTokens v + 8 * s.get TM_SVC_SHAPE.RATE v))
       ∧ ∀ u, t.subTokens u = min (bucketFull (s.get TM_SUB_SHAPE.BURST u)) (s.subTokens u + 8 * s.get TM_SUB_SHAPE.RATE u)) ∧
     (∀ p, let n := Tab.get 0 s.tm.entry p
       (∀ l, Tab.find s.tm.active p = some l → s.tm.times = [] →
         let e := entryAt l.entries (s.cyclePos l / 8)
         let begins (k : Nat) : Prop := ∃ t, exec (.gateEntryBoundary p) s = .next t ∧ t = { s with tm := { s.tm with entry := t.tm.entry } }
           ∧ Tab.get 0 t.tm.entry p = k ∧ ∀ q, q ≠ p → Tab.get 0 t.tm.entry q = Tab.get 0 s.tm.entry q
         (Tab.find s.tm.pending p = none → n ≠ 0 ∨ e = 0 → begins (e + 1)) ∧
         (Tab.find s.tm.pending p = none → n = 0 → e ≠ 0 → exec (.gateEntryBoundary p) s = .next s) ∧
         (∀ l', Tab.find s.tm.pending p = some l' → (n = 0 → exec (.gateEntryBoundary p) s = .next s) ∧ (n ≠ 0 → e ≠ 0 → begins (e + 1)) ∧
           (n ≠ 0 → e = 0 → s.atCycleStart l' = false → begins 0) ∧
           (n ≠ 0 → e = 0 → s.atCycleStart l' = true → ∃ t, exec (.gateEntryBoundary p) s = .next t ∧ Tab.find t.tm.active p = some l'
             ∧ Tab.find t.tm.pending p = none ∧ Tab.get 0 t.tm.entry p = 1))) ∧
       (Tab.find s.tm.active p = none → exec (.gateEntryBoundary p) s = .next s)) ∧
     (∀ p, p < 512 → let l := s.pendingList p
       let cycle := gclCycle l
       let v (k : Nat) : Option Nat := longestClosed l k
       let refused (cause : Nat) : Prop := ∃ t, exec (.gclCommit p) s = .next t ∧ t = { s with regs := t.regs }
         ∧ t.get TM_GCL_CTRL.REFUSED p = 1 ∧ t.get TM_GCL_CTRL.CAUSE p = cause ∧ t.get TM_GCL_CTRL.PENDING p = s.get TM_GCL_CTRL.PENDING p
       let sized : Prop := 1 ≤ l.entries.length ∧ l.entries.length ≤ 256
       let divides : Prop := cycle ≠ 0 ∧ 125000000 % cycle = 0
       (¬ sized → refused 4) ∧ (sized → ¬ divides → refused 1) ∧ (sized → divides → cycle ≤ l.offset → refused 5) ∧
       (sized → divides → l.offset < cycle → (∃ k, k < 8 ∧ v k = none) → refused 2) ∧
       (sized → divides → l.offset < cycle → (∀ k, k < 8 → (v k).isSome = true) →
         ((∃ k, k < 8 ∧ ∃ m, v k = some m ∧ s.get SC_CFG.AGE_US * 125 ≤ m) → refused 3) ∧
         ((∀ k, k < 8 → ∀ m, v k = some m → m < s.get SC_CFG.AGE_US * 125) → ∃ t, exec (.gclCommit p) s = .next t
           ∧ t.get TM_GCL_CTRL.CAUSE p = 0 ∧ t.get TM_GCL_CTRL.PENDING p = 1 ∧ Tab.find t.tm.pending p = some l ∧ t.tm.active = s.tm.active))) ∧
     (∀ p, p < 512 → s.get TM_GCL_CTRL.BANK p < 2 →
       (∀ l, Tab.find s.tm.pending p = some l →
         (s.atCycleStart l = false ∨ (∃ k, s.gateEntry p = some k ∧ s.atCycleStart k.1 = false) → exec (.gclActivate p) s = .next s) ∧
         (s.tm.times = [] → s.atCycleStart l = true → (∀ k, s.gateEntry p = some k → s.atCycleStart k.1 = true) →
         ∃ t, exec (.gclActivate p) s = .next t ∧ Tab.find t.tm.active p = some l
         ∧ Tab.find t.tm.pending p = none ∧ Tab.get 0 t.tm.entry p = 1 ∧ t.get TM_GCL_CTRL.PENDING p = 0
         ∧ t.get TM_GCL_CTRL.BANK p = 1 - s.get TM_GCL_CTRL.BANK p ∧ ∀ q, q ≠ p → Tab.find t.tm.active q = Tab.find s.tm.active q)) ∧
       (Tab.find s.tm.pending p = none → exec (.gclActivate p) s = .next s))) ∧
  (∀ s : State, s.hubUp = true →
     (∀ (unmarked : List Nat) (mismatch : Bool), let seen := unmarked.filter fun c => s.sc.frames.all fun b => !b.chain.contains c
       let leaked := seen.filter fun c => s.sc.unmarked.contains c
       let left := seen.filter fun c => !s.sc.unmarked.contains c
       ∃ t, exec (.leakAuditPass unmarked [] mismatch) s = .next t ∧ t.get SC_AUDIT_STAT.PASSES = (s.get SC_AUDIT_STAT.PASSES + 1) % 2 ^ 32
         ∧ t.get SC_AUDIT_STAT.LEAKED = (if leaked = [] then s.get SC_AUDIT_STAT.LEAKED
             else min (s.get SC_AUDIT_STAT.LEAKED + leaked.length) 65535)
         ∧ t.get SC_STATUS.FREE_CELLS
             = (s.get SC_STATUS.FREE_CELLS + s.openCells s.sc.unmarked - s.openCells left) % 1048576
         ∧ t.get SC_AUDIT_STAT.MISMATCH = (if mismatch = true ∨ left ≠ [] then min (s.get SC_AUDIT_STAT.MISMATCH + 1) 255
             else s.get SC_AUDIT_STAT.MISMATCH)
         ∧ t.sc = { s.sc with unmarked := left }) ∧
     (∀ (doubles : List Nat) (mismatch : Bool), let both := doubles.filter fun c => s.sc.frames.any fun b => b.chain.contains c
       both ≠ [] → (s.sc.frames.map (·.fid)).Nodup → ∃ t, exec (.leakAuditPass [] doubles mismatch) s = .next t
       ∧ t.get SC_AUDIT_STAT.DOUBLE = min (s.get SC_AUDIT_STAT.DOUBLE + both.length) 255
       ∧ t.sc.frames = (s.sc.frames.filter fun b => !b.chain.any doubles.contains) ∧ t.sc.staged = s.sc.staged) ∧
     (∀ bank, bank < 522 → let grp := s.get SC_BANK_STATUS.GROUP bank
       let free := s.get SC_STATUS.FREE_CELLS
       (s.get SC_BANK_STATUS.STATE bank = 0 → (bank < 512 → grp = bank / 4) → s.groupBanks grp = 4 →
         (∀ k, s.get SC_BANK_STATUS.STATE k ≠ 2) →
         (s.groupHolds grp = true → ∃ t, exec (.bankRetire bank) s = .next t ∧ t.get SC_BANK_STATUS.STATE bank = 2
           ∧ t.groupClosed grp = true ∧ t.sc = s.sc ∧ t.get SC_STATUS.FREE_CELLS
             = free - (4096 - (((s.sc.frames.filter (·.shared)).flatMap (·.chain)).filter fun c => c / 4096 == grp).length)) ∧
         (s.groupHolds grp = false → 4096 ≤ free →
           (∀ sp, s.spareBank = some sp → ∃ t, exec (.bankRetire bank) s = .next t
             ∧ t.get SC_BANK_STATUS.STATE bank = 3 ∧ t.get SC_BANK_STATUS.STATE sp = 0
             ∧ t.get SC_BANK_STATUS.GROUP sp = grp % 128 ∧ t.get SC_STATUS.FREE_CELLS = free ∧ t.groupClosed grp = false
             ∧ t.modState = s.modState) ∧
           (s.spareBank = none → ∃ t, exec (.bankRetire bank) s = .next t ∧ t.get SC_BANK_STATUS.STATE bank = 3
             ∧ grp ∈ t.closedGroups ∧ t.get SC_STATUS.GROUPS_OUT = t.closedGroups.length % 128
             ∧ t.get SC_STATUS.FREE_CELLS = free - 4096 ∧ (s.modState = modReady → t.modState = modDegraded)))) ∧
       (s.get SC_BANK_STATUS.STATE bank ≠ 0 → exec (.bankRetire bank) s = .next s)) ∧
     (∀ up (value : Word), up < 2 → let g := (value.extractLsb' 0 13).toNat
       (value.getLsbD 13 = true → ∃ t, exec (.mcWrite up value) s = .next t ∧ t.get SC_MC_SEL.GROUP = g
         ∧ Tab.find t.sc.groups g = (if s.flag SC_MC_DATA.VALID then
             some ⟨s.get SC_MC_DATA.PART, (List.range 512).filter fun q => s.get SC_MC_DATA.PORTS (q / 64) / 2 ^ (q % 64) % 2 == 1⟩ else none)
         ∧ (∀ h, h ≠ g → Tab.find t.sc.groups h = Tab.find s.sc.groups h) ∧ t.sc.frames = s.sc.frames) ∧
       (value.getLsbD 13 = false → ∃ t, exec (.mcWrite up value) s = .next t ∧ t.sc = s.sc ∧ t.get SC_MC_SEL.GROUP = g)))

/-! ## APPEND, SELECT, FILTER and GATHER (chapters 3 and 5) -/

/-- APPEND writes one head: the bytes outside its spans stay; the converted rows, the summary of a closed block and the entry
stand in its berths; STEP and VALUE advance, and the last head ends the command (R76, R77, R88 to R91). No fare, block, barred
span or stop holds it back. -/
def Obligations.AppendWritesRowsSummaryAndEntry : Prop :=
  ∀ (s : State) (c : Cmd), s.hubUp = true → s.te = .reset → s.pm.near.poison = [] → s.pm.dead = [] → s.cmd c.cid = some c →
    c.opc = ocAppend → c.stage = .dispatched ∨ c.stage = .running → s.boundaryStop c = none → c.poisonRows = 0 →
    let b := appendBody c.desc
    let h := c.step
    let p := inputPayload c 0 b.src (appendSource b)
    let row (t w : Nat) : List Byte × List Byte := appendConvert b ((p.bytes.drop (b.sourceRow t h w)).take (appendRow b))
    let place (r : NearRef) (i : Nat) : Nat := s.slotByte (s.slot c.part (handleSlot r.handle)) (r.off + i)
    let places (l : List (NearRef × Nat)) : List Nat := l.flatMap fun w => (List.range w.2).map (place w.1)
    let tile (w : Nat) : NearRef := if w = 0 then b.kTile h else b.vTile h
    h < b.nhead → inputReady c 0 b.src (appendSource b) = true → p.poisoned = [] →
    (∀ t w, t < b.ntok → w < 2 → (row t w).1.length = rowBytes b.dfmt b.d ∧ (isScaled b.dfmt = true → (row t w).2.length = b.dw)) →
    (∀ x ∈ (appendChecks c.desc).handles, Safety.heldBerth s c.part x) →
    (∀ w ∈ b.spans h, ∃ y, s.handle c.part w.1.handle = .held y ∧ y.kind ≠ kindTally) →
    (∀ w ∈ b.spans h, s.writeBarred c.part (w.1.handle, w.1.off, w.2) = false) →
    (s.spend c ((b.spans h).flatMap (fun w => s.nearCost c.part w.1 w.2 true)
      ++ (b.kSpans h).flatMap (fun w => s.nearCost c.part w.1 w.2 false))).2 = true →
    ∃ t z, exec (.append c.cid) s = .next t ∧ t.cmd c.cid = some z ∧ z.step = h + 1 ∧ z.causes = c.causes
      ∧ z.value = c.value + (if b.sums = true ∧ b.listEn = true then 1 else 0)
      ∧ z.stage = (if h + 1 = b.nhead then .finished else .running)
      ∧ t = { s with fe := t.fe, pt := t.pt, pm := t.pm } ∧ t.pm = { s.pm with near := t.pm.near } ∧ t.pm.near.poison = []
      ∧ (∀ a, a ∉ places (b.spans h) → t.pm.near.byte a = s.pm.near.byte a)
      ∧ (b.listEn = true → ∀ i, i < 16 → t.pm.near.byte (place (b.entryOf h) i) =
          (entryBytes (b.kTile h) (b.vTile h) b.dfmt b.filled b.sums b.docTag).getD i 0)
      ∧ ((places (b.spans h)).Nodup → ∀ t' w, t' < b.ntok → w < (if b.shared then 1 else 2) →
          (∀ i, i < rowBytes b.dfmt b.d → t.pm.near.byte (place (tile w) ((b.row0 + t') * rowBytes b.dfmt b.d + i)) = (row t' w).1.getD i 0)
          ∧ (isScaled b.dfmt = true → ∀ i, i < b.dw →
              t.pm.near.byte (place (tile w) (scalePlane b.dfmt b.d + (b.row0 + t') * b.dw + i)) = (row t' w).2.getD i 0))
      ∧ (b.sums = true → (places (b.kSpans h ++ [(b.sumOf h, summaryBytes b.d)] ++ if b.listEn then [(b.entryOf h, 16)] else [])).Nodup →
          ∀ i, i < (summaryPlane b.d (summaryValues b.d (t.tileRows c.part (b.kTile h) b.dfmt b.d b.filled).1)).length →
            i < summaryBytes b.d → t.pm.near.byte (place (b.sumOf h) i) =
              (summaryPlane b.d (summaryValues b.d (t.tileRows c.part (b.kTile h) b.dfmt b.d b.filled).1)).getD i 0)

/-- The choice of SELECT: of a section's entries it keeps exactly K, among them every forced one, and of the others the ones with
the highest scores, equal scores in index order; a forced set of more than K keeps none and ends with its DETAIL (R141,
R143). -/
def Obligations.SelectKeepsTheBest : Prop :=
  ∀ (b : SelectBody) (xs : List Ranked), xs.map (·.index) = List.range xs.length → b.k ≤ xs.length →
    ((xs.filter (forcedEntry b)).length > b.k → selectSection b xs = .inl 0x25) ∧
    (∀ kept, selectSection b xs = .inr kept → kept.length = b.k ∧ kept.Sublist xs ∧ (∀ x ∈ xs, forcedEntry b x = true → x ∈ kept)
      ∧ ∀ x ∈ kept, ∀ y ∈ xs, y ∉ kept → forcedEntry b x = false →
          scoreRank y.score < scoreRank x.score ∨ (scoreRank y.score = scoreRank x.score ∧ x.index < y.index))

/-- SELECT starts once a filter unit is free, and takes at most MAX_UNITS of them. Of a section of one transfer unit it reads
entries and scores once, writes the kept entries as they were read, in index order, and counts them in VALUE; the last section
ends it, and a section that keeps none ends it with BAD_DESC (R138 to R144). -/
def Obligations.SelectWritesTheKeptEntries : Prop :=
  ∀ (s : State) (c : Cmd) (ins : Instr) (y : Slot), s.hubUp = true → s.te = .reset → s.pm.near.poison = [] → s.pm.dead = [] →
    s.hs.retiring = [] → s.cmd c.cid = some c → c.opc = ocSelect → s.boundaryStop c = none → c.stop = none → c.step = 0 →
    c.inputs = [] → c.poisonRows = 0 →
    let b := selectBody c.desc
    (c.stage = .dispatched → s.holdUnits c b.nsec = none → exec (.select c.cid) s = .next s) ∧
    ((ins = .select c.cid ∧ c.stage = .dispatched ∧ (s.holdUnits c b.nsec).isSome = true)
      ∨ (ins = .filterTransferBoundary c.cid ∧ c.stage = .running) →
    let u := b.unitOf c.sec 0
    let out : NearRef := { b.out with off := b.out.off + 16 * b.k * c.sec }
    let es := s.readSpan c.part u.1.1 u.1.2
    let xs := (b.sectionOf { c with inputs := [(0, es), (1, s.readSpan c.part u.2.1 u.2.2)] } c.sec).1
    let place (i : Nat) : Nat := s.slotByte y (out.off + i)
    let cost := s.spanCosts c.part [u.1, u.2] ++ [(.engine, (3 * b.nent + 4) / 5)]
    0 < b.nent → b.nent ≤ 4096 → Safety.heldBerth s c.part b.list.handle → Safety.heldBerth s c.part b.score.handle →
    s.viewAll c.part [u.1, u.2] = .ready →
    s.handle c.part b.out.handle = .held y → y.kind ≠ kindTally → y.physA < 15360 → y.physB < 15360 → y.lhalf < 2 →
    out.off + 16 * b.k ≤ berthBytes → s.writeBarred c.part (out.handle, out.off, 16 * b.k) = false →
    (∀ x ∈ itemsOf es u.1.1.off 16 b.nent, s.entryBad c.part none (entryOfBytes x.1) = false) →
    (s.spend c cost).2 = true → ((s.spend c cost).1.spend { c with paid := [] } (s.nearCost c.part out (16 * b.k) true)).2 = true →
    (∀ kept, selectSection b xs = .inr kept → ∃ t z, exec ins s = .next t ∧ t.cmd c.cid = some z ∧ z.sec = c.sec + 1
      ∧ z.count = c.count + b.k ∧ z.value = valueSelect z.count 0 z.nanRows ∧ z.causes = c.causes
      ∧ z.stage = (if c.sec + 1 < b.nsec then .running else .finished)
      ∧ (c.stage = .dispatched → z.held ≠ [] ∧ z.held.length ≤ max 1 c.maxUnits)
      ∧ (∀ i, i < (kept.flatMap (·.bytes)).length → i < 16 * b.k → t.pm.near.byte (place i) = (kept.flatMap (·.bytes)).getD i 0)
      ∧ ∀ a, (∀ i, i < (kept.flatMap (·.bytes)).length → a ≠ place i) → t.pm.near.byte a = s.pm.near.byte a) ∧
    (∀ d, selectSection b xs = .inl d → ∃ t z, exec ins s = .next t ∧ t.cmd c.cid = some z ∧ z.stage = .finished
      ∧ z.causes = c.causes ++ [(stBadDesc, d)]))

/-- FILTER starts once a filter unit is free: it reads its predicate set, and in ROWS mode its segment list, and judges them. Each
of the units it holds has one run of the keys, as long as the others' but the last; each transfer unit of a run sets one bit
for each key or entry that matches, in order, and VALUE counts them; the last unit of the last section ends it (R138, R139, R145
to R147). -/
def Obligations.FilterMarksWhatMatches : Prop :=
  ∀ (s : State) (c : Cmd), s.hubUp = true → s.te = .reset → s.pm.near.poison = [] → s.pm.dead = [] → s.hs.retiring = [] →
    s.cmd c.cid = some c → c.opc = ocFilter → s.boundaryStop c = none → c.stop = none → c.poisonRows = 0 →
    let b := filterBody c.desc
    let rowsMode : Prop := b.mode = 0
    (c.stage = .dispatched →
      let n := (predicateHead (s.readSpan c.part b.pred 32).bytes).1
      let spans := (b.pred, predicateBytes n) :: if b.mode = 0 then [(b.src, 8 * b.count)] else []
      let pred := s.readSpan c.part b.pred (predicateBytes n)
      let segs := if b.mode = 0 then s.readSpan c.part b.src (8 * b.count) else ⟨[], []⟩
      let list := segsOf segs.bytes b.count
      let pieces := (b.total + transferUnit - 1) / transferUnit
      (s.holdUnits c pieces = none → exec (.filter c.cid) s = .next s) ∧
      (n ≤ 64 → inBerth b.pred.off (predicateBytes n) = true → (rowsMode → inBerth b.src.off (8 * b.count) = true) →
        (s.holdUnits c pieces).isSome = true → (∀ x ∈ spans, Safety.heldBerth s c.part x.1.handle) →
        s.viewAll c.part [(b.pred, 32)] = .ready → s.viewAll c.part spans = .ready → (s.spend c (s.spanCosts c.part spans)).2 = true →
        (b.judgeRead pred = none → (rowsMode → segsFill list b.nrows = true ∧ ∀ x ∈ list, Safety.heldBerth s c.part x.at_.handle) →
          ∃ t z, exec (.filter c.cid) s = .next t ∧ t.pm = s.pm ∧ t.cmd c.cid = some z ∧ z.causes = c.causes
            ∧ z.inputs = [(0, pred), (1, segs)] ∧ z.held ≠ [] ∧ z.held.length ≤ max 1 (min c.maxUnits pieces)
            ∧ z.stage = (if b.total = 0 then .finished else .running)) ∧
        (∀ x, b.judgeRead pred = some x → ∃ t z, exec (.filter c.cid) s = .next t ∧ t.pm = s.pm ∧ t.cmd c.cid = some z
          ∧ z.stage = .finished ∧ z.causes = c.causes ++ [x]))) ∧
    (∀ (y : Slot) (pred segs : Payload), c.stage = .running → c.inputs = [(0, pred), (1, segs)] → pred.poisoned = [] → segs.poisoned = [] →
      let cuts := b.cuts c.held.length
      let cut := cuts.getD c.step (0, 0)
      let n := cut.2
      let out : NearRef := { b.out with off := b.out.off + (if b.mode = 0 then 0 else c.sec * entryMaskBytes b.count) + cut.1 / 8 }
      let srcs := b.sources (segsOf segs.bytes b.count) c.sec cut.1 n
      let spans := srcs.filterMap id
      let keys := spans.flatMap fun x => b.judge (filterTerms c).1 x (s.readSpan c.part x.1 x.2)
      let place (i : Nat) : Nat := s.slotByte y (out.off + i)
      let len := roundup ((n + 7) / 8) 64
      (∀ x ∈ srcs, x.isSome = true) → (∀ x ∈ spans, Safety.heldBerth s c.part x.1.handle) → s.viewAll c.part spans = .ready →
      s.handle c.part b.out.handle = .held y → y.kind ≠ kindTally → y.physA < 15360 → y.physB < 15360 → y.lhalf < 2 →
      s.writeBarred c.part (out.handle, out.off, len) = false → out.off + roundup ((keys.length + 7) / 8) 64 ≤ berthBytes →
      (s.spend c (s.spanCosts c.part spans ++ s.nearCost c.part out len true ++ [(.engine, (3 * n + 31) / 32)])).2 = true →
      (¬ rowsMode → ∀ x ∈ spans, ∀ i ∈ itemsOf (s.readSpan c.part x.1 x.2) x.1.off 16 n, s.entryBad c.part none (entryOfBytes i.1) = false) →
      ∃ t z, exec (.filterTransferBoundary c.cid) s = .next t ∧ t.cmd c.cid = some z ∧ z.causes = c.causes
        ∧ z.count = c.count + (keys.filter (· == some true)).length ∧ z.value = valueShip z.count 0
        ∧ (c.step + 1 ≠ cuts.length → z.step = c.step + 1 ∧ z.sec = c.sec) ∧ (c.step + 1 = cuts.length → z.step = 0 ∧ z.sec = c.sec + 1)
        ∧ z.stage = (if z.sec < b.sections then .running else .finished)
        ∧ (∀ i, i < keys.length → (t.pm.near.byte (place (i / 8))).getLsbD (i % 8) = (keys[i]? == some (some true)))
        ∧ ∀ a, (∀ i, i < roundup ((keys.length + 7) / 8) 64 → a ≠ place i) → t.pm.near.byte a = s.pm.near.byte a) ∧
    (∀ u, 0 < u → (b.cuts u).flatMap (fun x => (List.range x.2).map (x.1 + ·)) = List.range b.total)

/-- GATHER, turn by turn: it reads one list granule of entries and judges them; then it reads one burst of their tiles after the
other, on a gather unit of the entry's deck; with the last burst the entries' tiles, whole footprints one after the other in
list order, and the entries after them where asked for, stand in the destination, and VALUE counts them; the last granule ends
it (R83, R133 to R137). Shown with no mask and a destination in near memory. -/
def Obligations.GatherShipsTilesAndEntries : Prop :=
  ∀ (s : State) (c : Cmd), s.hubUp = true → s.te = .reset → s.pm.near.poison = [] → s.pm.dead = [] → s.cmd c.cid = some c →
    c.opc = ocGather → c.stage = .dispatched ∨ c.stage = .running → s.boundaryStop c = none → c.stop = none →
    let b := gatherBody c.desc
    let d := 32 * b.dw
    let n := b.group c.step
    let run : Cmd := { c with stage := .running, paid := [] }
    b.maskEn = false → b.outLoc = true → c.step < b.nent * b.nsec → 0 < n → b.dst < 2 ^ 50 →
    (c.inputs = [] → let list : NearRef := { b.list with off := b.list.off + 16 * c.step }
      let es := s.readSpan c.part list (16 * n)
      let lots := b.lots { c with inputs := [(0, es)] }
      Safety.heldBerth s c.part b.list.handle → s.viewAll c.part [(list, 16 * n)] = .ready →
      (s.spend c (s.nearCost c.part list (16 * n) false)).2 = true →
      ((∀ l ∈ lots, s.entryBad c.part (some d) (entryOfBytes l.bytes) = false) → ∃ t, exec (.gather c.cid) s = .next t ∧ t.pm = s.pm
        ∧ t.cmd c.cid = some { run with inputs := [(0, es)] }) ∧
      ((∃ l ∈ lots, s.entryBad c.part (some d) (entryOfBytes l.bytes) = true) → ∃ t z, exec (.gather c.cid) s = .next t
        ∧ t.cmd c.cid = some z ∧ z.stage = .finished ∧ z.causes = c.causes ++ [(stBadDesc, 0x7F)])) ∧
    (∀ (l : Lot) (x : NearRef × Nat), c.inputs ≠ [] → (∀ e ∈ c.inputs, e.2.poisoned = []) → c.poisonRows = 0 → c.marked = [] →
      let lots := b.lots c
      let bursts := gatherBursts d lots
      let k := burstsRead c
      let data := s.readSpan c.part x.1 x.2
      let read : Cmd := { run with inputs := Tab.put c.inputs (burstPiece k) data }
      bursts[k]? = some (l, x) → Tab.find c.inputs (burstPiece k) = none → Safety.heldBerth s c.part x.1.handle →
      s.gatherUnits (s.gatherDeck c.part b l) ≠ [] → s.viewAll c.part [x] = .ready → (s.spend c (s.spanCosts c.part [x])).2 = true →
      x.2 ≤ 4096 ∧ (k + 1 < bursts.length → ∃ t, exec (.gather c.cid) s = .next t ∧ t.pm = s.pm ∧ t.cmd c.cid = some read) ∧
      (∀ y : Slot, k + 1 = bursts.length →
        let body := joinPayloads (shipLots b read lots 0)
        let lst := lots.flatMap (·.bytes)
        let dst := ref50 b.dst
        let ta := dst.off + gatherTiles b + c.sec
        let la := dst.off + 16 * c.count
        let place (i : Nat) : Nat := s.slotByte y i
        let cost := s.nearCost c.part { dst with off := ta } body.bytes.length true
          ++ if b.withList then s.nearCost c.part { dst with off := la } lst.length true else []
        s.handle c.part dst.handle = .held y → y.kind ≠ kindTally → y.physA < 15360 → y.physB < 15360 → y.lhalf < 2 →
        ta + body.bytes.length ≤ berthBytes → (b.withList = true → la + lst.length ≤ dst.off + gatherTiles b) →
        s.writeBarred c.part (dst.handle, ta, body.bytes.length) = false →
        (b.withList = true → s.writeBarred c.part (dst.handle, la, lst.length) = false) →
        ((s.spend c (s.spanCosts c.part [x])).1.spend { c with paid := [] } cost).2 = true →
        ∃ t z, exec (.gather c.cid) s = .next t ∧ t.cmd c.cid = some z ∧ z.causes = c.causes ∧ z.step = c.step + n ∧ z.count = c.count + n
          ∧ z.sec = c.sec + body.bytes.length ∧ z.value = valueShip z.count 0 ∧ z.inputs = []
          ∧ z.stage = (if c.step + n < b.nent * b.nsec then .running else .finished)
          ∧ (∀ i, i < body.bytes.length → t.pm.near.byte (place (ta + i)) = body.bytes.getD i 0)
          ∧ (b.withList = true → ∀ i, i < lst.length → t.pm.near.byte (place (la + i)) = lst.getD i 0)
          ∧ ∀ a, (∀ i, i < body.bytes.length → a ≠ place (ta + i)) → (b.withList = true → ∀ i, i < lst.length → a ≠ place (la + i)) →
              t.pm.near.byte a = s.pm.near.byte a))

/-! ## The decks (chapters 4 and 10) -/

/-- A deck command whose row operand is at hand launches on the decks it is given: SCORE, MATMUL and a placed CROSS on theirs, an
unplaced CROSS on the deck of its first entry's K tile, SEARCH on the deck of its first segment; it starts at section 0 with
its fold and empty partials in every stripe. Without room for one more live queue it goes back to wait for that deck (R96 to
R98, R104, R106, R114, R116, R117, R274). -/
def Obligations.DeckCommandsLaunch : Prop :=
  ∀ (s : State) (c : Cmd), s.hubUp = true → s.te = .reset → s.pm.near.poison = [] → s.pm.dead = [] → s.cmd c.cid = some c →
    c.stage = .dispatched → s.boundaryStop c = none → c.stop = none → inputReady c 0 c.operand.1 c.operand.2 = true → c.work.units ≠ 0 →
    let launches (ins : Instr) (p : Nat) : Prop := ∃ t z, exec ins s = .next t ∧ t.cmd c.cid = some z ∧ z.stage = .running
      ∧ z.place = some p ∧ z.sec = 0 ∧ z.step = 0 ∧ z.rows = [] ∧ z.causes = c.causes
      ∧ z.fold = foldOf c.work.foldRaw c.work.rows c.work.units z.decks.length
      ∧ z.acc = List.replicate z.stripes (List.replicate c.work.rows (Partial.neutral c.work.width)) ∧ t.pm = s.pm
      ∧ t = { s with fe := t.fe, pt := t.pt }
    let waits (ins : Instr) (p : Nat) : Prop := ∃ t z, exec ins s = .next t ∧ t.cmd c.cid = some z ∧ z.stage = .waiting
      ∧ z.place = some p ∧ z.causes = c.causes ∧ t.pm = s.pm
    let fared (p : Nat) : Prop := (s.placeNamed c).isSome = true ∨ s.zeroFare c.part (if p = 1 then [.deckB, .nearB] else [.deckA, .nearA]) = false
    (∀ p, c.place = some p → fared p → (c.opc = ocScore → launches (.score c.cid) p) ∧ (c.opc = ocMatmul → launches (.matmul c.cid) p)
      ∧ (c.opc = ocCross → launches (.cross c.cid) p)) ∧
    (c.opc = ocCross → c.place = none → let b := crossBody c.desc
      let g : NearRef := { b.list with off := b.list.off / 256 * 256 }
      let e := entryOfBytes ((s.readSpan c.part g 256).bytes.drop (b.list.off % 256))
      0 < b.nent → 0 < b.nsec → Tab.find c.inputs (listPiece (b.list.off / 256)) = none → Safety.heldBerth s c.part b.list.handle →
      s.view c.part g 256 = .ready → s.payNear c g 256 ≠ none → s.entryBad c.part (some b.wk) e = false →
      ∀ k, s.kindOf c.part e.k.handle = some k →
        (k < 2 → s.liveRoom c.ctx (some k) = true → fared k → launches (.cross c.cid) k) ∧
        (k < 2 → s.liveRoom c.ctx (some k) = false → waits (.cross c.cid) k) ∧
        (2 ≤ k → ∃ t z, exec (.cross c.cid) s = .next t ∧ t.cmd c.cid = some z ∧ z.stage = .finished
          ∧ z.causes = c.causes ++ [(stBadDesc, 0x2B)])) ∧
    (c.opc = ocSearch → let b := searchBody c.desc
      let segs := segsOf (s.readSpan c.part b.seg (8 * b.nseg)).bytes b.nseg
      Safety.heldBerth s c.part b.seg.handle → s.view c.part b.seg (8 * b.nseg) = .ready → s.payNear c b.seg (8 * b.nseg) ≠ none →
      segsFill segs b.nrows = true → (∀ x ∈ segs, (s.heldSlot c.part x.at_.handle).isSome = true ∧ b.segIn x = true) →
      ∀ k, (∀ x ∈ segs, s.kindOf c.part x.at_.handle = some k) → segs ≠ [] →
        (c.place = some k ∨ (c.place = none ∧ k < 2 ∧ s.liveRoom c.ctx (some k) = true) → fared k → launches (.search c.cid) k) ∧
        (c.place = none → k < 2 → s.liveRoom c.ctx (some k) = false → waits (.search c.cid) k))

/-- GRANULE_READ_RETURN puts a burst of at most 16 granules of a tile that a near step needs into the scratchpad of its deck; with
the last granule the tile is delivered whole, with the bytes its berth holds, and its tag is valid; the feed is charged and
counted. A tile is begun only in its gather unit's turn, with room for all of it (R127 to R131). -/
def Obligations.GranulesFeedTheScratchpad : Prop :=
  ∀ (s : State) (c : Cmd) (h ent k unit : Nat) (isV : Bool) (ns : List Need) (xs : List Reached) (n : Need) (before : List (Nat × Need)),
    s.hubUp = true → s.te = .reset → s.cmd c.cid = some c → deckOpcode c.opc = true → c.stage = .running → c.stop = none →
    let u := if c.opc = ocCross ∨ c.opc = ocSearch then ent / 2 else if c.opc = ocScore then ent / 128 else ent
    let d := c.deckOf n.unit
    let old := (s.deck d).scratch.find? (tileIs c h n)
    let got := (old.map (·.got)).getD 0
    let now := min (min k 16) (n.granules - got)
    let src : NearRef := { n.src with off := n.src.off / 256 * 256 + 256 * got }
    let turn : Bool := s.feedTurn c unit (before ++ (ns.takeWhile fun m => !(m.ent == ent && m.isV == isV)).map fun m => (h, m))
    h < c.work.sections → u < c.work.units → c.sec ≤ h → c.sec * c.steps + c.step ≤ h * c.steps + u / c.stripes →
    c.stepsAhead h u ≤ c.ahead → s.earlierNeeds c.cid h (u / c.stripes) = (s, before) →
    s.stepNeeds c.cid h (u / c.stripes) = (s, some (ns, xs)) →
    (ns.find? fun m => m.ent == ent && m.isV == isV) = some n → s.tileValid c h n = false → 0 < now →
    (match old with
      | some o => o.unit = unit
      | none => s.gatherUnit c h n.unit = some unit ∧ windowBytes (s.deck d) + 256 * n.granules ≤ 33554432
          ∧ inflightReads (s.deck d) unit + n.granules ≤ 4096) →
    (old = none → turn = false → exec (.granuleReadReturn c.cid h ent isV k) s = .next s) ∧
    (old.isSome = true ∨ turn = true → s.nearZero c n.src = false → Safety.heldBerth s c.part n.src.handle →
      s.view c.part n.src n.len = .ready → s.payNear c src (256 * now) ≠ none → c.part < 64 →
      ∃ t, exec (.granuleReadReturn c.cid h ent isV k) s = .next t ∧ t.pm = s.pm ∧ t.fe = s.fe ∧ t.deck (otherDeck d) = s.deck (otherDeck d)
        ∧ t.get GU_PART_FEED.BYTES c.part = min (s.get GU_PART_FEED.BYTES c.part + 256 * now) (2 ^ GU_PART_FEED.BYTES.width - 1)
        ∧ t.deck d = { s.deck d with scratch := ((s.deck d).scratch.filter fun x => !tileIs c h n x) ++
            [{ cid := c.cid, sec := h, ent := n.ent, isV := n.isV, unit := unit, need := n.granules, got := got + now,
               valid := got + now == n.granules, data := if got + now = n.granules then s.readSpan c.part n.src n.len else ⟨[], []⟩ }] })

/-- Legs: LEG_BOUNDARY starts one for a ready command on all its decks, with its bound, or reserves the deck of a lashed command
whose other deck is busy; of two partitions the one that has used the smaller share of its fare goes first. PASS_STEP runs a
step that the bound and the fares allow and whose tiles are valid; a leg that had room for a step without its tiles ends short,
and a residue failure marks it. LEG_END frees its decks and counts it; a marked leg waits, and LEG_REEXECUTION runs it in the
reserve up to three times (R99 to R103, R132, R268, R270, R360 to R363, R406). -/
def Obligations.LegsStartRunAndEnd : Prop :=
  ∀ (s : State) (d : DeckId), s.hubUp = true → s.te = .reset → s.hs.retiring = [] →
    let o := otherDeck d
    let idle : Prop := (s.deck d).leg = none ∧ (s.deck d).reserved = none ∧ (s.deck o).reserved = none ∧ s.retireColumns d = s
      ∧ s.boundaryStops d = s ∧ s.flag DK_FULL_SAVE.QUIESCE (deckNo d) = false ∧ s.pwr.decksHalted = false ∧ reexecutes (s.deck d) = false
    let ready (c : Cmd) : Prop := s.cmd c.cid = some c ∧
      s.readyOn c.cid d (if c.lashed then boundLeft (s.deck o) else 0) = (s, true)
    let starts (c : Cmd) : Prop := ∃ t l, exec (.legBoundary d) s = .next t ∧ l.cid = c.cid ∧ l.part = c.part ∧ l.bound = s.legBound c
      ∧ l.cycles = 0 ∧ l.busy = 0 ∧ l.steps = 0 ∧ l.lashed = c.lashed ∧ l.marked = false ∧ l.short = false
      ∧ ∀ e ∈ c.decks, (t.deck e).leg = some l ∧ t.get DK_DECK_STATUS.BUSY (deckNo e) = 1
        ∧ t.get DK_DECK_STATUS.LEG_SEQ (deckNo e) = (s.get DK_DECK_STATUS.LEG_SEQ (deckNo e) + 1) % 4294967296
    let open_ : Prop := s.flag DK_FULL_SAVE.QUIESCE (deckNo o) = false
    let otherFree : Prop := (s.deck o).leg = none ∧ reexecutes (s.deck o) = false
    (∀ c, idle → s.fe.cmds = [c] → ready c → c.decks = [d] ∨ (c.lashed = true ∧ open_ ∧ otherFree ∧ s.lashedChoice .a = some c) → starts c) ∧
    (∀ c, idle → s.fe.cmds = [c] → ready c → c.lashed = true → open_ → ¬ otherFree → ∃ t, exec (.legBoundary d) s = .next t
      ∧ (t.deck d).reserved = some c.cid ∧ (t.deck d).leg = none ∧ (t.deck d).reservedAt = s.tb.hclk ∧ t.pt = s.pt) ∧
    (∀ a b, idle → s.fe.cmds = [a, b] ∨ s.fe.cmds = [b, a] → ready a → ready b → a.decks = [d] → b.decks = [d] → a.part ≠ b.part →
      a.cid ≠ b.cid → s.partBefore (deckRes d) a.part b.part = true → starts a) ∧
    (∀ (leg : Leg) (c : Cmd) (ns : List Need) (xs : List Reached), (s.deck d).leg = some leg →
      s.pwr.decksHalted = false → leg.short = false → leg.marked = false → s.cmd leg.cid = some c → s.nextStep leg.cid = (s, some (ns, xs)) →
      let cost := s.stepCycles c xs
      let idleBefore := s.idleCycles leg cost
      let valid : Prop := ∀ n ∈ ns, s.tileValid c c.sec n = true
      let room : Prop := leg.cycles + idleBefore + cost ≤ leg.bound
      let fared : Prop := s.coversStep c cost d 0 = true
      (¬ room → fared → exec (.passStep d none) s = .next s) ∧
      (¬ fared → ∃ t, exec (.passStep d none) s = .next t ∧ t = { s with te := t.te }
        ∧ t.te.stalls = [⟨some c.cid, c.part, .budget, 0, 0, 0, s.tb.hclk⟩]) ∧
      (room → fared → ¬ valid → ∃ t, exec (.passStep d none) s = .next t ∧ (t.deck d).leg = some { leg with short := true }
        ∧ t.fe = s.fe ∧ t.pt = s.pt) ∧
      (room → fared → valid → s.readMask c = (s, true) → leg.audit = none → (∀ e, s.suspects e = []) → c.stage = .running →
        let after : Leg := { leg with cycles := leg.cycles + idleBefore + cost, busy := leg.busy + cost, steps := leg.steps + 1 }
        (∃ t, exec (.passStep d none) s = .next t ∧ t.cmd leg.cid = some (s.stepWork c xs) ∧ t.pm = s.pm ∧ t.regs = s.regs
          ∧ (t.deck d).leg = some after ∧ t.usedNow c.part (deckRes d) = s.usedNow c.part (deckRes d) + cost) ∧
        (∀ cell, cell / 64 < 34 → s.colState d (cell / 64) = 0 →
          let seen := s.recentCount (DK_COL_STATUS.RESIDUE_24H.id + 1024 * colIdx d (cell / 64)) dayCycles
          ∃ t, exec (.passStep d (some cell)) s = .next t ∧ (t.deck d).leg = some { after with marked := true }
            ∧ t.get DK_COL_STATUS.RESIDUE_24H (colIdx d (cell / 64)) = min (seen + 1) (2 ^ DK_COL_STATUS.RESIDUE_24H.width - 1)))) ∧
    (∀ (leg : Leg) (c : Cmd), (s.deck d).leg = some leg → leg.lashed = false → s.cmd leg.cid = some c → c.rows = [] → c.opc ≠ ocSearch →
      c.sec < c.work.sections → s.boundaryStop c = none → c.lost = false → leg.part < 64 → ∃ t, exec (.legEnd d none) s = .next t
        ∧ (t.deck d).leg = none ∧ t.get DK_DECK_STATUS.BUSY (deckNo d) = 0
        ∧ t.cmd leg.cid = some { c with legs := c.legs + 1, audited := c.audited || leg.marked }
        ∧ t.get DK_PART_LEGS.LEGS leg.part = min (s.get DK_PART_LEGS.LEGS leg.part + 1) (2 ^ DK_PART_LEGS.LEGS.width - 1)
        ∧ (t.deck d).waitingLeg = (if leg.marked then some { leg with fails := leg.fails + 1, left := leg.steps } else (s.deck d).waitingLeg)) ∧
    (∀ (w : Leg) (c : Cmd), (s.deck d).leg = none → s.flag DK_FULL_SAVE.QUIESCE (deckNo d) = false → (s.deck d).waitingLeg = some w →
      w.lashed = false → 0 < w.steps → s.cmd w.cid = some c → c.rows = [] → c.opc ≠ ocSearch → c.sec < c.work.sections →
      s.boundaryStop c = none → c.lost = false →
      let per := (w.busy + w.steps - 1) / w.steps
      let n := (4096 - (s.deck d).reserveUsed + per - 1) / per
      (n < w.left → ∀ fails, ∃ t, exec (.legReexecution d fails) s = .next t ∧ (t.deck d).waitingLeg = some { w with left := w.left - n }
        ∧ (t.deck d).reserveUsed = (s.deck d).reserveUsed + n * per ∧ t.fe = s.fe) ∧
      (w.left ≤ n →
        (∃ t, exec (.legReexecution d false) s = .next t ∧ (t.deck d).waitingLeg = none ∧ t.cmd w.cid = some { c with legs := c.legs + 1 }
          ∧ (t.deck d).reserveUsed = (s.deck d).reserveUsed + w.left * per) ∧
        (w.fails < 2 → ∃ t, exec (.legReexecution d true) s = .next t
          ∧ (t.deck d).waitingLeg = some { w with fails := w.fails + 1, left := w.steps }) ∧
        (2 ≤ w.fails → ∃ t z, exec (.legReexecution d true) s = .next t ∧ (t.deck d).waitingLeg = none ∧ t.cmd w.cid = some z
          ∧ z.acc = c.acc.map (List.map fun p => { p with poison := true, nan := false }))))

/-- A deck is QUIESCED once it runs no leg, and keeps no reservation; SAVE and RESTORE then copy its full state, scratchpad and
accumulators, out and back, and end with RESULT; a column's SUSPECT mark expires unless it mismatched within ESC_S seconds; a
failing unit is counted, or retired for its spare, or the module is DEGRADED when none is left. A gather unit waits with that for
its deck's leg to end, a filter unit for the end of the piece it works on (R148, R178, R276, R366, R371, Table 10.11). -/
def Obligations.DecksQuiesceAndUnitsRetire : Prop :=
  (∀ (s : State) (d : DeckId), s.hubUp = true →
    let i := deckNo d
    (∀ col, col < 34 → exec (.suspectExpiry d col) s =
      .next (if s.mismatched d col then s else s.put DK_COL_STATUS.SUSPECT (colIdx d col) 0)) ∧
    ((s.deck d).leg.isSome = true → exec (.quiesce d) s = .next (s.put DK_FULL_SAVE.QUIESCE i 1)) ∧
    ((s.deck d).leg = none → ∃ t, exec (.quiesce d) s = .next t ∧ t.flag DK_FULL_SAVE.QUIESCE i = true
      ∧ t.flag DK_FULL_SAVE.QUIESCED i = true ∧ t.deck d = { s.deck d with reserved := none }
      ∧ (∀ cid c, (s.deck d).reserved = some cid → s.cmd cid = some c → t.usedNow c.part (deckRes d)
          = s.usedNow c.part (deckRes d) + ((s.tb.hclk - (s.deck d).reservedAt) * 4 + 2) / 3)) ∧
    (s.flag DK_FULL_SAVE.BUSY i = false →
      (s.flag DK_FULL_SAVE.QUIESCED i = false → exec (.save d) s = .next (s.put DK_FULL_SAVE.RESULT i 1)
        ∧ exec (.restore d) s = .next (s.put DK_FULL_SAVE.RESULT i 1)) ∧
      (s.flag DK_FULL_SAVE.QUIESCED i = true →
        (∃ t, exec (.save d) s = .next t ∧ t.flag DK_FULL_SAVE.BUSY i = true ∧ t.deck d = { s.deck d with saveOp := 1, saveArea := some (s.deckImage d) }
          ∧ t.fe = s.fe ∧ t.pm = s.pm) ∧
        (∀ img, (s.deck d).saveArea = some img → (img.accs.map (·.1)).Nodup → ∃ t, exec (.restore d) s = .next t
          ∧ t.flag DK_FULL_SAVE.BUSY i = true ∧ t.deck d = { s.deck d with saveOp := 2, scratch := img.scratch } ∧ t.pm = s.pm
          ∧ (∀ a ∈ img.accs, ∀ c, s.cmd a.1 = some c → c.stage = .running → t.cmd a.1 = some { c with acc := a.2 })
          ∧ (∀ k, (∀ a ∈ img.accs, a.1 ≠ k) → t.cmd k = s.cmd k)) ∧
        ((s.deck d).saveArea = none → ∃ t, exec (.restore d) s = .next t ∧ t.flag DK_FULL_SAVE.BUSY i = true
          ∧ t.deck d = { s.deck d with saveOp := 2, scratch := [] } ∧ t.fe = s.fe)) ∧
      ∀ bad, exec (.fullSaveComplete d bad) s = .next s) ∧
    (s.flag DK_FULL_SAVE.BUSY i = true → exec (.save d) s = .next s ∧ exec (.restore d) s = .next s ∧
      ∀ bad, ∃ t, exec (.fullSaveComplete d bad) s = .next t ∧ t.flag DK_FULL_SAVE.BUSY i = false
        ∧ t.get DK_FULL_SAVE.RESULT i = (if bad then 2 else 0) ∧ t.deck d = { s.deck d with saveOp := 0 })) ∧
  (∀ (s : State) (unit : Nat), s.hubUp = true →
    let swaps (ins : Instr) (active spare retired : RegField) (spares : List Nat) : Prop :=
      unit < active.count → s.get retired unit = 0 → s.get active unit = 1 →
        (∀ u ∈ spares, u ≠ unit → s.get spare u = 1 → (∀ v ∈ spares, v < u → s.get spare v ≠ 1) → ∃ t, exec ins s = .next t
          ∧ t.get retired unit = 1 ∧ t.get active unit = 0 ∧ t.get active u = 1 ∧ t.get spare u = 0 ∧ t.modState = s.modState) ∧
        ((∀ u ∈ spares, s.get spare u ≠ 1) → ∃ t, exec ins s = .next t ∧ t.get retired unit = 1 ∧ t.get active unit = 0
          ∧ t.modState = if s.modState = modReady then modDegraded else s.modState)
    let waits (ins : Instr) (key : Nat) : Prop := ∃ t, exec ins s = .next t ∧ t.regs = s.regs ∧ key ∈ t.hs.retiring
    exec (.gatherUnitError unit false) s = .next (s.bump GU_UNIT_STATUS.CORRECTED unit 1) ∧
    exec (.filterUnitError unit false) s = .next (s.bump FU_UNIT_STATUS.CORRECTED unit 1) ∧
    exec (.reduceUnitError unit false) s = .next (s.bump RU_UNIT_STATUS.CORRECTED unit 1) ∧
    ((s.deck (if unit < 9 then .a else .b)).leg = none → swaps (.gatherUnitError unit true) GU_UNIT_STATUS.ACTIVE
      GU_UNIT_STATUS.SPARE GU_UNIT_STATUS.RETIRED ((List.range 9).map (· + unit / 9 * 9))) ∧
    (unit < 18 → (s.deck (if unit < 9 then .a else .b)).leg.isSome = true → waits (.gatherUnitError unit true) unit) ∧
    (s.hs.retiring = [] → (∀ c ∈ s.fe.cmds, c.midPiece ≠ some unit) → swaps (.filterUnitError unit true) FU_UNIT_STATUS.ACTIVE
      FU_UNIT_STATUS.SPARE FU_UNIT_STATUS.RETIRED (List.range 9)) ∧
    (s.hs.retiring = [] → unit < 9 → (∃ c ∈ s.fe.cmds, c.midPiece = some unit) → waits (.filterUnitError unit true) (32 + unit)) ∧
    swaps (.reduceUnitError unit true) RU_UNIT_STATUS.ACTIVE RU_UNIT_STATUS.SPARE RU_UNIT_STATUS.RETIRED (List.range 9))

/-! ## BAR0 (chapter 19) -/

/-- Reads and writes of BAR0: an access of another form is counted and changes nothing else; a written field takes a value of its
range and keeps its old one otherwise, which REFUSED shows; W1C fields clear where a 1 is written; a read returns the fields,
and clears an RC field only where it covers it whole (R12, R438 to R442; shown on SC_CFG and LK_PORT_ERR). -/
def Obligations.RegisterAccessesFollowTheirCodes : Prop :=
  ∀ (s : State) (up off : Nat), s.hubUp = true → up < 2 → off < 0x1F00000 →
    let v := s.viaUp up
    let counts (F : RegField) (kind : Nat) (t : State) : Prop := t.get F = (min (s.get F + 1) (2 ^ F.width - 1) : Nat)
      ∧ t.get HS_ACC_ADDR.OFFSET = off ∧ t.get HS_ACC_ADDR.KIND = kind ∧ t.get HS_ACC_ADDR.PORT = up
      ∧ t = { v with regs := t.regs, out := t.out }
      ∧ Safety.regsKeptBut [F, HS_ACC_ADDR.OFFSET, HS_ACC_ADDR.KIND, HS_ACC_ADDR.PORT] s t
    (∀ (data : List Byte) (all : Bool), writeForm off data.length all = false → ∃ t, exec (.registerWrite up off data all) s = .next t
      ∧ t.out = s.out ∧ counts HS_ACC_STATUS.BAD_SIZE 1 t) ∧
    (∀ data : List Byte, data.length = 8 → ∃ t, exec (.registerWrite up 0x700000 data true) s = .next t ∧
      let w := leNat data
      let ok (F : RegField) (lsb lo hi : Nat) : Prop := let new := w / 2 ^ lsb % 2 ^ F.width
        new = s.get F ∨ (lo ≤ new ∧ new ≤ hi)
      let takes (F : RegField) (lsb lo hi : Nat) : Prop := (ok F lsb lo hi → t.get F = w / 2 ^ lsb % 2 ^ F.width)
        ∧ (¬ ok F lsb lo hi → t.get F = s.get F)
      let allOk : Prop := ok SC_CFG.AGE_US 0 100 10000 ∧ ok SC_CFG.RESEQ_US 14 16 200 ∧ ok SC_CFG.HOLD_WIN 22 16 256
        ∧ ok SC_CFG.BANK_RETIRE 31 8 65535
      takes SC_CFG.AGE_US 0 100 10000 ∧ takes SC_CFG.RESEQ_US 14 16 200 ∧ takes SC_CFG.HOLD_WIN 22 16 256
        ∧ takes SC_CFG.BANK_RETIRE 31 8 65535 ∧ (¬ allOk → t.get SC_CFG.REFUSED = 1)
        ∧ (allOk → t.get SC_CFG.REFUSED = if w.testBit 63 then 0 else s.get SC_CFG.REFUSED) ∧ t = { v with regs := t.regs }
        ∧ Safety.regsKeptBut [SC_CFG.AGE_US, SC_CFG.RESEQ_US, SC_CFG.HOLD_WIN, SC_CFG.BANK_RETIRE, SC_CFG.REFUSED] s t) ∧
    (∀ p, p < 512 → let u := s.get LK_PORT_ERR.UCW p
      let fields : List RegField := [LK_PORT_ERR.UCW, LK_PORT_ERR.HCRC, LK_PORT_ERR.PROTO, LK_PORT_ERR.ECRC]
      (∀ F ∈ fields, s.get F p < 65536) →
      (∃ t, exec (.rcRegisterRead up (0x603000 + 8 * p) 8) s = .next t ∧ t.out = s.out ++ [.readData up (leBytes 8
          (u + s.get LK_PORT_ERR.HCRC p * 2 ^ 16 + s.get LK_PORT_ERR.PROTO p * 2 ^ 32 + s.get LK_PORT_ERR.ECRC p * 2 ^ 48))]
        ∧ (∀ F ∈ fields, t.get F p = 0) ∧ t = { v with regs := t.regs, out := t.out }) ∧
      ∃ t, exec (.rcRegisterRead up (0x603000 + 8 * p) 2) s = .next t ∧ t.out = s.out ++ [.readData up (leBytes 2 u)]
        ∧ t.get LK_PORT_ERR.UCW p = 0 ∧ ∀ F ∈ fields, F.id ≠ LK_PORT_ERR.UCW.id → t.get F p = s.get F p)

/-- The write of a fare entry's last word commits the whole entry, held words first, when both sums of R264 hold; it discards the
held words and sets REFUSED where a sum would break, and it is refused outside an EXPERT partition that may be written (R264,
R444). -/
def Obligations.FareCommitTakesTheWholeEntry : Prop :=
  ∀ (s : State) (up p : Nat) (value : Word), s.hubUp = true → up < 2 → p < 64 →
    let x := s.fareMerge (s.fareWord p 2) value.toNat 2
    let taken := s.fareWritten p fun w => if w = 2 then x.1 else s.fareWord p w
    (s.fareOpen p = false → exec (.fareCommit up p value) s = .next ((s.viaUp up).put PT_PART_CFG.REFUSED p 1)) ∧
    (s.fareOpen p = true → taken.faresFit = true → ∃ t, exec (.fareCommit up p value) s = .next t
      ∧ Tab.find t.pt.written (4 * p) = some (BitVec.ofNat 64 (s.fareWord p 0))
      ∧ Tab.find t.pt.written (4 * p + 1) = some (BitVec.ofNat 64 (s.fareWord p 1))
      ∧ Tab.find t.pt.written (4 * p + 2) = some (BitVec.ofNat 64 x.1)
      ∧ (∀ k, k / 4 ≠ p → Tab.find t.pt.written k = Tab.find s.pt.written k) ∧ (∀ e ∈ t.pt.hold, e.1 / 2 ≠ p)
      ∧ t.pt.force = s.pt.force ∧ t.get PT_PART_CFG.REFUSED p = (if x.2 then 1 else s.get PT_PART_CFG.REFUSED p)) ∧
    (s.fareOpen p = true → taken.faresFit = false → ∃ t, exec (.fareCommit up p value) s = .next t
      ∧ t.pt = { s.pt with hold := s.pt.hold.filter fun e => e.1 / 2 != p } ∧ t.get PT_PART_CFG.REFUSED p = 1)

/-- An offset that no register occupies reads as zero, and writes to it are ignored; both are counted in UNMAPPED and their place
is kept; the request completes either way (R439). The access lies in one 8-byte word. -/
def Obligations.UnmappedOffsetsReadAsZero : Prop :=
  ∀ (s : State) (up off len : Nat) (data : List Byte), s.released = true → up < 2 → off < 0x2000000 → inMsix off = false →
    regAt (off / 8 * 8) = none → 1 ≤ len → off % 8 + len ≤ 8 →
    let counted (t : State) (at_ : Nat) : Prop := t.get HS_ACC_STATUS.UNMAPPED = min (s.get HS_ACC_STATUS.UNMAPPED + 1) 65535
      ∧ t.get HS_ACC_ADDR.OFFSET = at_ ∧ t.get HS_ACC_ADDR.KIND = 2 ∧ t.get HS_ACC_ADDR.PORT = up
      ∧ t = { s.viaUp up with regs := t.regs, out := t.out }
      ∧ Safety.regsKeptBut [HS_ACC_STATUS.UNMAPPED, HS_ACC_ADDR.OFFSET, HS_ACC_ADDR.KIND, HS_ACC_ADDR.PORT] s t
    (∃ t, exec (.rcRegisterRead up off len) s = .next t ∧ t.out = s.out ++ [.readData up (List.replicate len 0)]
      ∧ counted t (off / 8 * 8)) ∧
    (off % 8 = 0 → data.length = 8 → ∃ t, exec (.registerWrite up off data true) s = .next t ∧ t.out = s.out ∧ counted t off)

/-! ## The whole machine -/

/-- Every step keeps the sparse state in its canonical form: register fields and near memory by rising key, no listed zero,
poison rising. The form is the model's. -/
def Obligations.StepKeepsCanonicalForm : Prop :=
  ∀ s t : State, Safety.canonical s → step s = .next t → Safety.canonical t

/-- The state after reset is in canonical form, has an empty queue, lists no byte of memory, and is STANDBY: the hub is held in
reset, so a frame that arrives does nothing (Table 17.6). -/
def Obligations.ResetIsCanonical : Prop :=
  Safety.canonical State.reset ∧ State.reset.pending = [] ∧ State.reset.pm.near.cells = [] ∧ State.reset.modState = modStandby ∧
    State.reset.hubUp = false ∧ ∀ port f, exec (.frameForward port f) State.reset = .next State.reset

end
end

