-- ==== Sys2Proof/Laws/Tab.lean ====
section
/-! SUPPORT. Laws of the sparse tables: a read after a write, and the canonical form every write keeps. -/

namespace Sys2Proof.Machine

variable {α : Type}

theorem Tab.get_erase_same (d : α) (t : Tab α) (k : Nat) : Tab.get d (Tab.erase t k) k = d := by
  induction t with
  | nil => rfl
  | cons e t ih =>
    obtain ⟨k', v⟩ := e
    by_cases h : k' = k
    · simp [Tab.erase, h, ih]
    · simp [Tab.erase, Tab.get, h, ih]

theorem Tab.get_erase_other (d : α) (t : Tab α) {k j : Nat} (hj : j ≠ k) : Tab.get d (Tab.erase t k) j = Tab.get d t j := by
  induction t with
  | nil => rfl
  | cons e t ih =>
    obtain ⟨k', v⟩ := e
    by_cases h : k' = k
    · subst h
      simp [Tab.erase, Tab.get, ih, Ne.symm hj]
    · simp only [Tab.erase, h, if_false, Tab.get, ih]

theorem Tab.get_insert_other (d : α) (t : Tab α) {k j : Nat} (v : α) (hj : j ≠ k) :
    Tab.get d (Tab.insert t k v) j = Tab.get d t j := by
  induction t with
  | nil => simp [Tab.insert, Tab.get, Ne.symm hj]
  | cons e t ih =>
    obtain ⟨k', v'⟩ := e
    by_cases h : k < k'
    · simp [Tab.insert, Tab.get, h, Ne.symm hj]
    · simp [Tab.insert, Tab.get, h, ih]

theorem Tab.get_insert_erase_same (d : α) (t : Tab α) (k : Nat) (v : α) :
    Tab.get d (Tab.insert (Tab.erase t k) k v) k = v := by
  induction t with
  | nil => simp [Tab.erase, Tab.insert, Tab.get]
  | cons e t ih =>
    obtain ⟨k', v'⟩ := e
    by_cases h : k' = k
    · simpa [Tab.erase, h] using ih
    · by_cases h' : k < k' <;> simp [Tab.erase, Tab.insert, Tab.get, h, h', ih]

/-- A read after a write of the same key gives the value written. -/
@[simp] theorem Tab.get_set_same [DecidableEq α] (d : α) (t : Tab α) (k : Nat) (v : α) : Tab.get d (Tab.set d t k v) k = v := by
  by_cases h : v = d
  · simp [Tab.set, h, Tab.get_erase_same]
  · simp [Tab.set, h, Tab.get_insert_erase_same]

/-- A write leaves every other key alone, whatever an unlisted key reads as. -/
theorem Tab.get_set_other [DecidableEq α] (d d' : α) (t : Tab α) {k j : Nat} (v : α) (hj : j ≠ k) :
    Tab.get d' (Tab.set d t k v) j = Tab.get d' t j := by
  by_cases h : v = d
  · simp [Tab.set, h, Tab.get_erase_other _ _ hj]
  · simp [Tab.set, h, Tab.get_insert_other _ _ _ hj, Tab.get_erase_other _ _ hj]

/-! ## The canonical form -/

theorem Tab.wfFrom_weaken [DecidableEq α] (d : α) (t : Tab α) {a b : Option Nat}
    (hab : ∀ n, b = some n → ∃ m, a = some m ∧ n ≤ m) (h : Tab.wfFrom d a t = true) : Tab.wfFrom d b t = true := by
  cases t with
  | nil => rfl
  | cons e t =>
    obtain ⟨k, v⟩ := e
    cases b with
    | none => cases a <;> simp_all [Tab.wfFrom]
    | some n =>
      obtain ⟨m, rfl, hle⟩ := hab n rfl
      simp only [Tab.wfFrom, Bool.and_eq_true, decide_eq_true_eq] at h ⊢
      exact ⟨⟨Nat.lt_of_le_of_lt hle h.1.1, h.1.2⟩, h.2⟩

theorem Tab.wfFrom_erase [DecidableEq α] (d : α) (t : Tab α) (lo : Option Nat) (k : Nat) (h : Tab.wfFrom d lo t = true) :
    Tab.wfFrom d lo (Tab.erase t k) = true := by
  induction t generalizing lo with
  | nil => rfl
  | cons e t ih =>
    obtain ⟨k', v⟩ := e
    simp only [Tab.wfFrom, Bool.and_eq_true, decide_eq_true_eq] at h
    by_cases hk : k' = k
    · simp only [Tab.erase, hk, if_true]
      refine Tab.wfFrom_weaken d _ ?_ (ih (some k') h.2)
      intro n hn
      subst hn
      exact ⟨k', rfl, Nat.le_of_lt (by simpa using h.1.1)⟩
    · simp only [Tab.erase, hk, if_false, Tab.wfFrom, Bool.and_eq_true, decide_eq_true_eq]
      exact ⟨h.1, ih (some k') h.2⟩

theorem Tab.wfFrom_insert [DecidableEq α] (d : α) (t : Tab α) (lo : Option Nat) (k : Nat) (v : α)
    (h : Tab.wfFrom d lo t = true) (hlo : ∀ n, lo = some n → n < k) (hv : v ≠ d) (hk : ∀ e ∈ t, e.1 ≠ k) :
    Tab.wfFrom d lo (Tab.insert t k v) = true := by
  induction t generalizing lo with
  | nil => cases lo <;> simp_all [Tab.insert, Tab.wfFrom]
  | cons e t ih =>
    obtain ⟨k', v'⟩ := e
    simp only [Tab.wfFrom, Bool.and_eq_true, decide_eq_true_eq] at h
    by_cases hlt : k < k'
    · simp only [Tab.insert, if_pos hlt, Tab.wfFrom, Bool.and_eq_true, decide_eq_true_eq]
      refine ⟨⟨?_, hv⟩, ⟨hlt, h.1.2⟩, h.2⟩
      cases lo with
      | none => trivial
      | some n => simpa using hlo n rfl
    · simp only [Tab.insert, hlt, if_false, Tab.wfFrom, Bool.and_eq_true, decide_eq_true_eq]
      refine ⟨h.1, ih (some k') h.2 ?_ fun e he => hk e (List.mem_cons_of_mem _ he)⟩
      intro n hn
      cases hn
      have := hk (k', v') (by simp)
      simp at this
      omega

theorem Tab.not_mem_erase (t : Tab α) (k : Nat) : ∀ e ∈ Tab.erase t k, e.1 ≠ k := by
  induction t with
  | nil => simp [Tab.erase]
  | cons e t ih =>
    obtain ⟨k', v⟩ := e
    by_cases h : k' = k
    · simpa [Tab.erase, h] using ih
    · intro e he
      simp only [Tab.erase, h, if_false, List.mem_cons] at he
      rcases he with rfl | he
      · exact h
      · exact ih e he

/-- A write keeps the canonical form. -/
theorem Tab.wf_set [DecidableEq α] (d : α) (t : Tab α) (k : Nat) (v : α) (h : Tab.wf d t = true) :
    Tab.wf d (Tab.set d t k v) = true := by
  unfold Tab.set
  split
  · exact Tab.wfFrom_erase d t none k h
  · rename_i hv
    exact Tab.wfFrom_insert d _ none k v (Tab.wfFrom_erase d t none k h) (by simp) hv (Tab.not_mem_erase t k)

/-- Leaving out entries keeps the canonical form. -/
theorem Tab.wfFrom_filter [DecidableEq α] (d : α) (t : Tab α) (lo : Option Nat) (p : Nat × α → Bool)
    (h : Tab.wfFrom d lo t = true) : Tab.wfFrom d lo (t.filter p) = true := by
  induction t generalizing lo with
  | nil => rfl
  | cons e t ih =>
    obtain ⟨k', v⟩ := e
    simp only [Tab.wfFrom, Bool.and_eq_true, decide_eq_true_eq] at h
    by_cases hp : p (k', v) = true
    · simp only [List.filter_cons, hp, if_true, Tab.wfFrom, Bool.and_eq_true, decide_eq_true_eq]
      exact ⟨h.1, ih (some k') h.2⟩
    · simp only [List.filter_cons, hp]
      refine Tab.wfFrom_weaken d _ ?_ (ih (some k') h.2)
      intro n hn
      subst hn
      exact ⟨k', rfl, Nat.le_of_lt (by simpa using h.1.1)⟩

theorem Tab.wf_filter [DecidableEq α] (d : α) (t : Tab α) (p : Nat × α → Bool) (h : Tab.wf d t = true) :
    Tab.wf d (t.filter p) = true := Tab.wfFrom_filter d t none p h

/-! ## Rising lists and rising keys -/

theorem rises_cons (a : Nat) (l : List Nat) : rises (a :: l) = true ↔ (∀ b ∈ l, a < b) ∧ rises l = true := by
  induction l generalizing a with
  | nil => simp [rises]
  | cons b l ih =>
    simp only [rises, Bool.and_eq_true, decide_eq_true_eq, List.mem_cons, forall_eq_or_imp]
    constructor
    · rintro ⟨h1, h2⟩
      refine ⟨⟨h1, fun c hc => ?_⟩, h2⟩
      have := ((ih b).mp h2).1 c hc
      omega
    · rintro ⟨⟨h1, _⟩, h2⟩
      exact ⟨h1, h2⟩

theorem rises_filter (l : List Nat) (p : Nat → Bool) (h : rises l = true) : rises (l.filter p) = true := by
  induction l with
  | nil => rfl
  | cons a l ih =>
    rw [rises_cons] at h
    by_cases hp : p a = true
    · simp only [List.filter_cons, hp, if_true]
      rw [rises_cons]
      exact ⟨fun b hb => h.1 b (List.mem_filter.mp hb).1, ih h.2⟩
    · simpa [List.filter_cons, hp] using ih h.2

theorem mem_addSorted (n : Nat) (l : List Nat) (m : Nat) : m ∈ addSorted n l ↔ m = n ∨ m ∈ l := by
  induction l with
  | nil => simp [addSorted]
  | cons a l ih =>
    unfold addSorted
    split
    · simp
    · split
      · rename_i h
        simp [h]
      · simp [ih, or_left_comm]

theorem rises_addSorted (n : Nat) (l : List Nat) (h : rises l = true) : rises (addSorted n l) = true := by
  induction l with
  | nil => rfl
  | cons a l ih =>
    have ha := (rises_cons a l).mp h
    unfold addSorted
    split
    · rename_i hlt
      rw [rises_cons]
      refine ⟨?_, h⟩
      intro b hb
      rcases List.mem_cons.mp hb with rfl | hb
      · exact hlt
      · exact Nat.lt_trans hlt (ha.1 b hb)
    · split
      · exact h
      · rw [rises_cons]
        refine ⟨?_, ih ha.2⟩
        intro b hb
        rcases (mem_addSorted n l b).mp hb with rfl | hb
        · omega
        · exact ha.1 b hb

theorem rises_keys_erase (t : Tab α) (k : Nat) (h : Tab.rises t = true) : Tab.rises (Tab.erase t k) = true := by
  induction t with
  | nil => rfl
  | cons e t ih =>
    obtain ⟨k', v⟩ := e
    unfold Tab.rises at h ih ⊢
    simp only [List.map_cons, rises_cons] at h
    by_cases hk : k' = k
    · simpa [Tab.erase, hk] using ih h.2
    · simp only [Tab.erase, hk, if_false, List.map_cons, rises_cons]
      refine ⟨fun b hb => ?_, ih h.2⟩
      apply h.1
      simp only [List.mem_map] at hb ⊢
      obtain ⟨e, he, rfl⟩ := hb
      refine ⟨e, ?_, rfl⟩
      clear ih h hk
      induction t with
      | nil => simp [Tab.erase] at he
      | cons e' t iht =>
        obtain ⟨k2, v2⟩ := e'
        by_cases h2 : k2 = k
        · simp only [Tab.erase, h2, if_true] at he
          exact List.mem_cons_of_mem _ (iht he)
        · simp only [Tab.erase, h2, if_false, List.mem_cons] at he
          rcases he with rfl | he
          · simp
          · exact List.mem_cons_of_mem _ (iht he)

theorem mem_keys_insert (t : Tab α) (k : Nat) (v : α) (b : Nat) :
    b ∈ (Tab.insert t k v).map (·.1) ↔ b = k ∨ b ∈ t.map (·.1) := by
  induction t with
  | nil => simp [Tab.insert]
  | cons e t ih =>
    obtain ⟨k', v'⟩ := e
    by_cases h : k < k'
    · simp [Tab.insert, h]
    · simp only [Tab.insert, h, if_false, List.map_cons, List.mem_cons, ih, or_left_comm]

theorem rises_keys_insert (t : Tab α) (k : Nat) (v : α) (h : Tab.rises t = true) (hk : ∀ e ∈ t, e.1 ≠ k) :
    Tab.rises (Tab.insert t k v) = true := by
  induction t with
  | nil => rfl
  | cons e t ih =>
    obtain ⟨k', v'⟩ := e
    unfold Tab.rises at h ih ⊢
    by_cases hlt : k < k'
    · simp only [Tab.insert, if_pos hlt, List.map_cons, rises_cons, List.mem_cons, forall_eq_or_imp] at h ⊢
      exact ⟨⟨hlt, fun b hb => Nat.lt_trans hlt (h.1 b hb)⟩, h⟩
    · simp only [List.map_cons, rises_cons] at h
      simp only [Tab.insert, hlt, if_false, List.map_cons, rises_cons]
      refine ⟨fun b hb => ?_, ih h.2 fun e he => hk e (List.mem_cons_of_mem _ he)⟩
      rcases (mem_keys_insert t k v b).mp hb with rfl | hb
      · have := hk (k', v') (by simp)
        simp at this
        omega
      · exact h.1 b hb

/-- A write keeps the keys rising. -/
theorem Tab.rises_set [DecidableEq α] (d : α) (t : Tab α) (k : Nat) (v : α) (h : Tab.rises t = true) :
    Tab.rises (Tab.set d t k v) = true := by
  unfold Tab.set
  split
  · exact rises_keys_erase t k h
  · exact rises_keys_insert _ k v (rises_keys_erase t k h) (Tab.not_mem_erase t k)

theorem Tab.rises_put (t : Tab α) (k : Nat) (v : α) (h : Tab.rises t = true) : Tab.rises (Tab.put t k v) = true :=
  rises_keys_insert _ k v (rises_keys_erase t k h) (Tab.not_mem_erase t k)

/-- The entry just listed is found. -/
@[simp] theorem Tab.find_put_same (t : Tab α) (k : Nat) (v : α) : Tab.find (Tab.put t k v) k = some v := by
  unfold Tab.put
  induction t with
  | nil => simp [Tab.erase, Tab.insert, Tab.find]
  | cons e t ih =>
    obtain ⟨k', v'⟩ := e
    by_cases h : k' = k
    · simpa [Tab.erase, h] using ih
    · by_cases h' : k < k' <;> simp [Tab.erase, Tab.insert, Tab.find, h, h', ih]

end Sys2Proof.Machine
end

