-- ==== Sys2Proof/Laws/Near.lean ====
section
/-! SUPPORT. Near memory: reads after writes, and the canonical form that every memory operation keeps. -/

namespace Sys2Proof.Machine

theorem Near.wf_iff (n : Near) : n.wf = true ↔ Memory.wf n.cells = true ∧ rises n.poison = true := by
  simp [Near.wf]

/-- The byte just written reads back. -/
@[simp] theorem Near.byte_setByte_same (n : Near) (a : Nat) (b : Byte) : (n.setByte a b).byte a = b := Tab.get_set_same ..

/-- A write leaves every other byte alone. -/
theorem Near.byte_setByte_other (n : Near) {a c : Nat} (b : Byte) (h : c ≠ a) : (n.setByte a b).byte c = n.byte c :=
  Tab.get_set_other _ _ _ _ h

theorem Near.setByte_wf (n : Near) (a : Nat) (b : Byte) (h : n.wf = true) : (n.setByte a b).wf = true := by
  rw [Near.wf_iff] at h ⊢
  exact ⟨Tab.wf_set _ _ _ _ h.1, h.2⟩

theorem Near.setRun_wf (bs : List Byte) : ∀ (n : Near) (a : Nat), n.wf = true → (n.setRun a bs).wf = true := by
  induction bs with
  | nil => exact fun n a h => h
  | cons b t ih => exact fun n a h => ih _ _ (Near.setByte_wf n a b h)

/-- Bytes outside a run keep their value. -/
theorem Near.byte_setRun_other (bs : List Byte) : ∀ (n : Near) (a c : Nat), c < a ∨ a + bs.length ≤ c →
    (n.setRun a bs).byte c = n.byte c := by
  induction bs with
  | nil => intro n a c _; rfl
  | cons b t ih =>
    intro n a c hc
    simp only [List.length_cons] at hc
    unfold Near.setRun
    rw [ih _ _ _ (by omega), Near.byte_setByte_other _ _ (by omega)]

/-- A run reads back what was written. -/
theorem Near.byte_setRun_same (bs : List Byte) : ∀ (n : Near) (a i : Nat) (h : i < bs.length),
    (n.setRun a bs).byte (a + i) = bs[i] := by
  induction bs with
  | nil => intro n a i h; exact absurd h (by simp)
  | cons b t ih =>
    intro n a i h
    unfold Near.setRun
    cases i with
    | zero =>
      rw [Near.byte_setRun_other t _ _ _ (by omega)]
      simp
    | succ i =>
      have := ih (n.setByte a b) (a + 1) i (by simpa using h)
      rw [show a + (i + 1) = a + 1 + i by omega, this]
      simp

theorem Near.mark_wf (n : Near) (k : Nat) (h : n.wf = true) : (n.mark k).wf = true := by
  rw [Near.wf_iff] at h ⊢
  exact ⟨h.1, rises_addSorted _ _ h.2⟩

theorem Near.clean_wf (n : Near) (k : Nat) (h : n.wf = true) : (n.clean k).wf = true := by
  rw [Near.wf_iff] at h ⊢
  exact ⟨h.1, rises_filter _ _ h.2⟩

theorem Near.writeSector_wf (n : Near) (k lo : Nat) (bs : List Byte) (psn : Bool) (h : n.wf = true) :
    (n.writeSector k lo bs psn).wf = true := by
  unfold Near.writeSector
  split
  · exact Near.mark_wf n k h
  · split
    · exact Near.setRun_wf _ _ _ (Near.clean_wf n k h)
    · split
      · exact h
      · exact Near.setRun_wf _ _ _ h

theorem Near.scrub_wf (n : Near) (p : Nat → Bool) (h : n.wf = true) : (n.scrub p).wf = true := by
  rw [Near.wf_iff] at h ⊢
  exact ⟨Tab.wf_filter _ _ _ h.1, rises_filter _ _ h.2⟩

theorem Near.foldl_wf {α β : Type} (f : Near × β → α → Near × β) (hf : ∀ x a, x.1.wf = true → (f x a).1.wf = true) (l : List α) :
    ∀ x : Near × β, x.1.wf = true → (l.foldl f x).1.wf = true := by
  induction l with
  | nil => exact fun _ h => h
  | cons a l ih => exact fun x h => ih _ (hf x a h)

theorem Near.foldl_wf' {α : Type} (f : Near → α → Near) (hf : ∀ x a, x.wf = true → (f x a).wf = true) (l : List α) :
    ∀ x : Near, x.wf = true → (l.foldl f x).wf = true := by
  induction l with
  | nil => exact fun _ h => h
  | cons a l ih => exact fun x h => ih _ (hf x a h)

end Sys2Proof.Machine
end

