-- ==== Sys2Proof/Laws/Keep.lean ====
section
/-! SUPPORT. Invariants of the whole machine, proved once: `Keep…` say which kinds of change a predicate on states survives,
and every operation of the model has one lemma that carries such a predicate over it. A lemma names only the kinds of change
its operation can make, so it is the operation's frame as well. -/

namespace Sys2Proof.Machine

/-- The predicate survives any change that leaves registers, near memory, time base, purser and queue alone. -/
structure KeepBase (P : State → Prop) : Prop where
  same : ∀ {s t : State}, t.regs = s.regs → t.pm.near = s.pm.near → t.tb = s.tb → t.ps = s.ps → t.pending = s.pending → P s → P t

/-- … any write of a register field, and their return to reset. -/
structure KeepRegs (P : State → Prop) : Prop where
  put : ∀ (s : State) (F : RegField) (i v : Nat), P s → P (s.put F i v)
  clear : ∀ {s t : State}, t.regs = [] → t.pm.near = s.pm.near → t.tb = s.tb → t.ps = s.ps → t.pending = s.pending → P s → P t

/-- … any change of near memory that keeps its form. -/
structure KeepNear (P : State → Prop) : Prop where
  near : ∀ {s t : State}, (s.pm.near.wf = true → t.pm.near.wf = true) → t.regs = s.regs → t.tb = s.tb → t.ps = s.ps →
    t.pending = s.pending → P s → P t

/-- … any change of the time base. -/
structure KeepTime (P : State → Prop) : Prop where
  time : ∀ {s t : State}, t.regs = s.regs → t.pm.near = s.pm.near → t.ps = s.ps → t.pending = s.pending → P s → P t

/-- Fuses are only ever blown: identity and key hashes stay, the SVN count never falls, a revoked key stays revoked. -/
def fusesOnlyBlown (a b : Purser) : Prop :=
  b.uid = a.uid ∧ b.stepping = a.stepping ∧ b.keyHash = a.keyHash ∧ b.debugDisable = a.debugDisable ∧ a.svnCount ≤ b.svnCount
    ∧ a.keyRevoke ||| b.keyRevoke = b.keyRevoke

/-- … any change of the purser that only blows fuses. -/
structure KeepPurser (P : State → Prop) : Prop where
  purser : ∀ {s t : State}, fusesOnlyBlown s.ps t.ps → t.regs = s.regs → t.pm.near = s.pm.near → t.tb = s.tb →
    t.pending = s.pending → P s → P t

variable {P : State → Prop}

theorem Keep.ite {c : Prop} [Decidable c] {a b : State} (ha : P a) (hb : P b) : P (if c then a else b) := by
  split
  · exact ha
  · exact hb

theorem Keep.cond {c : Bool} {a b : State} (ha : P a) (hb : P b) : P (bif c then a else b) := by
  cases c
  · exact hb
  · exact ha

theorem Keep.foldl {α : Type} (f : State → α → State) (hf : ∀ s a, P s → P (f s a)) (l : List α) :
    ∀ s, P s → P (l.foldl f s) := by
  induction l with
  | nil => exact fun _ h => h
  | cons a l ih => exact fun s h => ih _ (hf s a h)

theorem Keep.mapGetD {α : Type} {o : Option α} {f : α → State} {s : State} (hf : ∀ a, P (f a)) (h : P s) : P ((o.map f).getD s) := by
  cases o
  · exact h
  · exact hf _

theorem Keep.getD {o : Option State} {s : State} (ho : ∀ t, o = some t → P t) (h : P s) : P (o.getD s) := by
  cases o
  · exact h
  · exact ho _ rfl

theorem Keep.foldlProj {α β : Type} (g : β → State) (f : β → α → β) (hf : ∀ x a, P (g x) → P (g (f x a))) (l : List α) :
    ∀ x, P (g x) → P (g (l.foldl f x)) := by
  induction l with
  | nil => exact fun _ h => h
  | cons a l ih => exact fun x h => ih _ (hf x a h)

theorem Keep.foldlOpt {α : Type} (f : Option State → α → Option State)
    (hf : ∀ o a, (∀ t, o = some t → P t) → ∀ t, f o a = some t → P t) (l : List α) :
    ∀ o, (∀ t, o = some t → P t) → ∀ t, l.foldl f o = some t → P t := by
  induction l with
  | nil => exact fun _ h => h
  | cons a l ih => exact fun o h => ih _ (hf o a h)

theorem Keep.bind {o : Option State} {f : State → Option State} (ho : ∀ t, o = some t → P t)
    (hf : ∀ s, P s → ∀ t, f s = some t → P t) : ∀ t, o.bind f = some t → P t := by
  intro t ht
  cases o with
  | none => cases ht
  | some x => exact hf x (ho x rfl) t ht

theorem Keep.pair1 {α : Type} {q : State × α} {s : State} {a : α} (hq : q = (s, a)) (h : P q.1) : P s := by
  subst hq
  exact h

theorem Keep.pair2 {α : Type} {q : α × State} {s : State} {a : α} (hq : q = (a, s)) (h : P q.2) : P s := by
  subst hq
  exact h

theorem KeepBase.lit (b : KeepBase P) {s : State} {regs tb pwr ps fe deckA deckB pt co pm ho te ty fl lp lk sc tm hs mg out freeCtr
    pending} (h1 : regs = s.regs) (h2 : pm = s.pm) (h3 : tb = s.tb) (h4 : ps = s.ps)
    (h5 : pending = s.pending) (h : P s) : P ⟨regs, tb, pwr, ps, fe, deckA, deckB, pt, co, pm, ho, te, ty, fl, lp, lk, sc, tm, hs, mg, out, freeCtr, pending⟩ := by
  subst h2
  exact b.same h1 rfl h3 h4 h5 h

/-- … with fields of `pm` other than near memory replaced. -/
theorem KeepBase.litPool (b : KeepBase P) {s : State} {regs tb pwr ps fe deckA deckB pt co near slots rowCe dead placed reserveA reserveB lostPairs saltLocked ho te ty fl lp lk sc tm hs mg out freeCtr
    pending} (h1 : regs = s.regs) (h2 : near = s.pm.near) (h3 : tb = s.tb) (h4 : ps = s.ps)
    (h5 : pending = s.pending) (h : P s) : P ⟨regs, tb, pwr, ps, fe, deckA, deckB, pt, co, ⟨near, slots, rowCe, dead, placed, reserveA, reserveB, lostPairs, saltLocked⟩, ho, te, ty, fl, lp, lk, sc, tm, hs, mg, out, freeCtr, pending⟩ :=
  b.same h1 h2 h3 h4 h5 h

theorem KeepNear.lit (n : KeepNear P) {s : State} {regs tb pwr ps fe deckA deckB pt co near slots rowCe dead placed reserveA reserveB lostPairs saltLocked ho te ty fl lp lk sc tm hs mg out freeCtr
    pending} (h2 : s.pm.near.wf = true → near.wf = true) (h1 : regs = s.regs) (h3 : tb = s.tb) (h4 : ps = s.ps)
    (h5 : pending = s.pending) (h : P s) : P ⟨regs, tb, pwr, ps, fe, deckA, deckB, pt, co, ⟨near, slots, rowCe, dead, placed, reserveA, reserveB, lostPairs, saltLocked⟩, ho, te, ty, fl, lp, lk, sc, tm, hs, mg, out, freeCtr, pending⟩ :=
  n.near h2 h1 h3 h4 h5 h

/-- … with `pm` left alone. -/
theorem KeepNear.litSame (n : KeepNear P) {s : State} {regs tb pwr ps fe deckA deckB pt co pm ho te ty fl lp lk sc tm hs mg out freeCtr
    pending} (h2 : pm = s.pm) (h1 : regs = s.regs) (h3 : tb = s.tb) (h4 : ps = s.ps)
    (h5 : pending = s.pending) (h : P s) : P ⟨regs, tb, pwr, ps, fe, deckA, deckB, pt, co, pm, ho, te, ty, fl, lp, lk, sc, tm, hs, mg, out, freeCtr, pending⟩ := by
  subst h2
  exact n.near (s := s) id h1 h3 h4 h5 h

theorem KeepTime.lit (t : KeepTime P) {s : State} {regs tb pwr ps fe deckA deckB pt co pm ho te ty fl lp lk sc tm hs mg out freeCtr
    pending} (h1 : regs = s.regs) (h2 : pm = s.pm) (h4 : ps = s.ps) (h5 : pending = s.pending) (h : P s) :
    P ⟨regs, tb, pwr, ps, fe, deckA, deckB, pt, co, pm, ho, te, ty, fl, lp, lk, sc, tm, hs, mg, out, freeCtr, pending⟩ := by
  subst h2
  exact t.time h1 rfl h4 h5 h

theorem KeepPurser.lit (p : KeepPurser P) {s : State} {regs tb pwr uid stepping keyHash keyRevoke svnCount debugDisable slotA slotB running debug challenge unlocking aliasKey aliasCert seals fe deckA deckB pt co pm ho te ty fl lp lk sc tm hs mg out freeCtr
    pending} (a1 : uid = s.ps.uid) (a2 : stepping = s.ps.stepping) (a3 : keyHash = s.ps.keyHash)
    (a4 : debugDisable = s.ps.debugDisable) (a5 : s.ps.svnCount ≤ svnCount) (a6 : s.ps.keyRevoke ||| keyRevoke = keyRevoke)
    (h1 : regs = s.regs) (h2 : pm = s.pm) (h3 : tb = s.tb) (h5 : pending = s.pending) (h : P s) :
    P ⟨regs, tb, pwr, ⟨uid, stepping, keyHash, keyRevoke, svnCount, debugDisable, slotA, slotB, running, debug, challenge, unlocking, aliasKey, aliasCert, seals⟩, fe, deckA, deckB, pt, co, pm, ho, te, ty, fl, lp, lk, sc, tm, hs, mg, out, freeCtr, pending⟩ := by
  subst h2
  exact p.purser ⟨a1, a2, a3, a4, a5, a6⟩ h1 rfl h3 h5 h

/-- … with the purser left alone. -/
theorem KeepPurser.litSame (p : KeepPurser P) {s : State} {regs tb pwr ps fe deckA deckB pt co pm ho te ty fl lp lk sc tm hs mg out freeCtr
    pending} (h4 : ps = s.ps) (h1 : regs = s.regs) (h2 : pm = s.pm) (h3 : tb = s.tb)
    (h5 : pending = s.pending) (h : P s) : P ⟨regs, tb, pwr, ps, fe, deckA, deckB, pt, co, pm, ho, te, ty, fl, lp, lk, sc, tm, hs, mg, out, freeCtr, pending⟩ := by
  subst h2
  exact p.purser (by subst h4; exact ⟨rfl, rfl, rfl, rfl, Nat.le_refl _, BitVec.or_self⟩) h1 rfl h3 h5 h

end Sys2Proof.Machine
end

