-- ==== Sys2Proof/Laws/KeepRegs.lean ====
section
/-! SUPPORT. What each operation of Machine/Regs.lean keeps: a predicate that survives the named kinds of change survives it. -/

namespace Sys2Proof.Machine

variable {P : State → Prop}

theorem State.put_keep (r : KeepRegs P) (s x1 x2 x3) (h : P s) : P (State.put s x1 x2 x3) := r.put s x1 x2 x3 h

theorem State.bump_keep (r : KeepRegs P) (s x1 x2 x3) (h : P s) : P (State.bump s x1 x2 x3) := by
  unfold State.bump
  repeat' first
    | with_reducible assumption
    | (extract_lets +onlyGivenNames a; refine (?_ : P a → _) ?_ <;> first | (intro _; clear_value a) | subst a)
    | (extract_lets +onlyGivenNames a; refine (?_ : P a.1 → _) ?_ <;> first | (intro _; clear_value a) | subst a)
    | (extract_lets +onlyGivenNames a; refine (?_ : P a.2 → _) ?_ <;> first | (intro _; clear_value a) | subst a)
    | (extract_lets +onlyGivenNames a; subst a)
    | intro _
    | with_reducible apply State.put_keep r
    | with_reducible apply Keep.ite
    | with_reducible apply Keep.cond
    | with_reducible apply Keep.foldl
    | split

end Sys2Proof.Machine
end

