-- ==== Sys2Proof/Laws/KeepOps.lean ====
section
/-! SUPPORT. What each operation of Machine/Ops.lean keeps: a predicate that survives the named kinds of change survives it. -/

namespace Sys2Proof.Machine

variable {P : State → Prop}

theorem State.emit_keep (b : KeepBase P) (s x1) (h : P s) : P (State.emit s x1) := by
  unfold State.emit
  repeat' first
    | with_reducible assumption
    | (extract_lets +onlyGivenNames a; refine (?_ : P a → _) ?_ <;> first | (intro _; clear_value a) | subst a)
    | (extract_lets +onlyGivenNames a; refine (?_ : P a.1 → _) ?_ <;> first | (intro _; clear_value a) | subst a)
    | (extract_lets +onlyGivenNames a; refine (?_ : P a.2 → _) ?_ <;> first | (intro _; clear_value a) | subst a)
    | (extract_lets +onlyGivenNames a; subst a)
    | intro _
    | with_reducible apply Keep.ite
    | with_reducible apply Keep.cond
    | with_reducible apply Keep.foldl
    | split
    | with_reducible refine KeepBase.lit b rfl rfl rfl rfl rfl ?_
    | with_reducible refine KeepBase.litPool b rfl rfl rfl rfl rfl ?_

theorem State.emits_keep (b : KeepBase P) (s x1) (h : P s) : P (State.emits s x1) := by
  unfold State.emits
  repeat' first
    | with_reducible assumption
    | (extract_lets +onlyGivenNames a; refine (?_ : P a → _) ?_ <;> first | (intro _; clear_value a) | subst a)
    | (extract_lets +onlyGivenNames a; refine (?_ : P a.1 → _) ?_ <;> first | (intro _; clear_value a) | subst a)
    | (extract_lets +onlyGivenNames a; refine (?_ : P a.2 → _) ?_ <;> first | (intro _; clear_value a) | subst a)
    | (extract_lets +onlyGivenNames a; subst a)
    | intro _
    | with_reducible apply Keep.ite
    | with_reducible apply Keep.cond
    | with_reducible apply Keep.foldl
    | split
    | with_reducible refine KeepBase.lit b rfl rfl rfl rfl rfl ?_
    | with_reducible refine KeepBase.litPool b rfl rfl rfl rfl rfl ?_

theorem whenUp_keep (s) (f : State → State) (hf : ∀ s, P s → P (f s)) (h : P s) : P (whenUp s f) := by
  unfold whenUp
  split
  · exact hf s h
  · exact h

theorem State.platformEvent_keep (b : KeepBase P) (s x1 x2) (h : P s) : P (State.platformEvent s x1 x2) := by
  unfold State.platformEvent
  repeat' first
    | with_reducible assumption
    | (extract_lets +onlyGivenNames a; refine (?_ : P a → _) ?_ <;> first | (intro _; clear_value a) | subst a)
    | (extract_lets +onlyGivenNames a; refine (?_ : P a.1 → _) ?_ <;> first | (intro _; clear_value a) | subst a)
    | (extract_lets +onlyGivenNames a; refine (?_ : P a.2 → _) ?_ <;> first | (intro _; clear_value a) | subst a)
    | (extract_lets +onlyGivenNames a; subst a)
    | intro _
    | with_reducible apply State.emit_keep b
    | with_reducible apply Keep.ite
    | with_reducible apply Keep.cond
    | with_reducible apply Keep.foldl
    | split
    | with_reducible refine KeepBase.lit b rfl rfl rfl rfl rfl ?_
    | with_reducible refine KeepBase.litPool b rfl rfl rfl rfl rfl ?_

theorem State.enter_keep (b : KeepBase P) (r : KeepRegs P) (s x1) (h : P s) : P (State.enter s x1) := by
  unfold State.enter
  repeat' first
    | with_reducible assumption
    | (extract_lets +onlyGivenNames a; refine (?_ : P a → _) ?_ <;> first | (intro _; clear_value a) | subst a)
    | (extract_lets +onlyGivenNames a; refine (?_ : P a.1 → _) ?_ <;> first | (intro _; clear_value a) | subst a)
    | (extract_lets +onlyGivenNames a; refine (?_ : P a.2 → _) ?_ <;> first | (intro _; clear_value a) | subst a)
    | (extract_lets +onlyGivenNames a; subst a)
    | intro _
    | with_reducible apply State.platformEvent_keep b
    | with_reducible apply State.put_keep r
    | with_reducible apply Keep.ite
    | with_reducible apply Keep.cond
    | with_reducible apply Keep.foldl
    | split
    | with_reducible refine KeepBase.lit b rfl rfl rfl rfl rfl ?_
    | with_reducible refine KeepBase.litPool b rfl rfl rfl rfl rfl ?_

theorem State.degrade_keep (b : KeepBase P) (r : KeepRegs P) (s) (h : P s) : P (State.degrade s) := by
  unfold State.degrade
  repeat' first
    | with_reducible assumption
    | (extract_lets +onlyGivenNames a; refine (?_ : P a → _) ?_ <;> first | (intro _; clear_value a) | subst a)
    | (extract_lets +onlyGivenNames a; refine (?_ : P a.1 → _) ?_ <;> first | (intro _; clear_value a) | subst a)
    | (extract_lets +onlyGivenNames a; refine (?_ : P a.2 → _) ?_ <;> first | (intro _; clear_value a) | subst a)
    | (extract_lets +onlyGivenNames a; subst a)
    | intro _
    | with_reducible apply State.enter_keep b r
    | with_reducible apply Keep.ite
    | with_reducible apply Keep.cond
    | with_reducible apply Keep.foldl
    | split
    | with_reducible refine KeepBase.lit b rfl rfl rfl rfl rfl ?_
    | with_reducible refine KeepBase.litPool b rfl rfl rfl rfl rfl ?_

theorem State.noteEvent_keep (b : KeepBase P) (s x1 x2) (h : P s) : P (State.noteEvent s x1 x2) := by
  unfold State.noteEvent
  repeat' first
    | with_reducible assumption
    | (extract_lets +onlyGivenNames a; refine (?_ : P a → _) ?_ <;> first | (intro _; clear_value a) | subst a)
    | (extract_lets +onlyGivenNames a; refine (?_ : P a.1 → _) ?_ <;> first | (intro _; clear_value a) | subst a)
    | (extract_lets +onlyGivenNames a; refine (?_ : P a.2 → _) ?_ <;> first | (intro _; clear_value a) | subst a)
    | (extract_lets +onlyGivenNames a; subst a)
    | intro _
    | with_reducible apply Keep.ite
    | with_reducible apply Keep.cond
    | with_reducible apply Keep.foldl
    | split
    | with_reducible refine KeepBase.lit b rfl rfl rfl rfl rfl ?_
    | with_reducible refine KeepBase.litPool b rfl rfl rfl rfl rfl ?_

theorem State.forgetEvents_keep (b : KeepBase P) (s x1) (h : P s) : P (State.forgetEvents s x1) := by
  unfold State.forgetEvents
  repeat' first
    | with_reducible assumption
    | (extract_lets +onlyGivenNames a; refine (?_ : P a → _) ?_ <;> first | (intro _; clear_value a) | subst a)
    | (extract_lets +onlyGivenNames a; refine (?_ : P a.1 → _) ?_ <;> first | (intro _; clear_value a) | subst a)
    | (extract_lets +onlyGivenNames a; refine (?_ : P a.2 → _) ?_ <;> first | (intro _; clear_value a) | subst a)
    | (extract_lets +onlyGivenNames a; subst a)
    | intro _
    | with_reducible apply Keep.ite
    | with_reducible apply Keep.cond
    | with_reducible apply Keep.foldl
    | split
    | with_reducible refine KeepBase.lit b rfl rfl rfl rfl rfl ?_
    | with_reducible refine KeepBase.litPool b rfl rfl rfl rfl rfl ?_

theorem State.countDay_keep (b : KeepBase P) (r : KeepRegs P) (s x1 x2) (h : P s) : P (State.countDay s x1 x2) := by
  unfold State.countDay
  repeat' first
    | with_reducible assumption
    | (extract_lets +onlyGivenNames a; refine (?_ : P a → _) ?_ <;> first | (intro _; clear_value a) | subst a)
    | (extract_lets +onlyGivenNames a; refine (?_ : P a.1 → _) ?_ <;> first | (intro _; clear_value a) | subst a)
    | (extract_lets +onlyGivenNames a; refine (?_ : P a.2 → _) ?_ <;> first | (intro _; clear_value a) | subst a)
    | (extract_lets +onlyGivenNames a; subst a)
    | intro _
    | with_reducible apply State.noteEvent_keep b
    | with_reducible apply State.put_keep r
    | with_reducible apply Keep.ite
    | with_reducible apply Keep.cond
    | with_reducible apply Keep.foldl
    | split
    | with_reducible refine KeepBase.lit b rfl rfl rfl rfl rfl ?_
    | with_reducible refine KeepBase.litPool b rfl rfl rfl rfl rfl ?_

theorem State.viaUp_keep (b : KeepBase P) (s x1) (h : P s) : P (State.viaUp s x1) := by
  unfold State.viaUp
  repeat' first
    | with_reducible assumption
    | (extract_lets +onlyGivenNames a; refine (?_ : P a → _) ?_ <;> first | (intro _; clear_value a) | subst a)
    | (extract_lets +onlyGivenNames a; refine (?_ : P a.1 → _) ?_ <;> first | (intro _; clear_value a) | subst a)
    | (extract_lets +onlyGivenNames a; refine (?_ : P a.2 → _) ?_ <;> first | (intro _; clear_value a) | subst a)
    | (extract_lets +onlyGivenNames a; subst a)
    | intro _
    | with_reducible apply Keep.ite
    | with_reducible apply Keep.cond
    | with_reducible apply Keep.foldl
    | split
    | with_reducible refine KeepBase.lit b rfl rfl rfl rfl rfl ?_
    | with_reducible refine KeepBase.litPool b rfl rfl rfl rfl rfl ?_

theorem State.countAccess_keep (r : KeepRegs P) (s x1 x2 x3) (h : P s) : P (State.countAccess s x1 x2 x3) := by
  unfold State.countAccess
  repeat' first
    | with_reducible assumption
    | (extract_lets +onlyGivenNames a; refine (?_ : P a → _) ?_ <;> first | (intro _; clear_value a) | subst a)
    | (extract_lets +onlyGivenNames a; refine (?_ : P a.1 → _) ?_ <;> first | (intro _; clear_value a) | subst a)
    | (extract_lets +onlyGivenNames a; refine (?_ : P a.2 → _) ?_ <;> first | (intro _; clear_value a) | subst a)
    | (extract_lets +onlyGivenNames a; subst a)
    | intro _
    | with_reducible apply State.put_keep r
    | with_reducible apply State.bump_keep r
    | with_reducible apply Keep.ite
    | with_reducible apply Keep.cond
    | with_reducible apply Keep.foldl
    | split

theorem barWrite_keep (b : KeepBase P) (r : KeepRegs P) (up off s) (f : State → State) (hf : ∀ s, P s → P (f s)) (h : P s) :
    P (barWrite up off s f) := by
  unfold barWrite
  split
  · exact h
  · split
    · exact hf _ (State.viaUp_keep b s up h)
    · split
      · exact State.countAccess_keep r _ _ _ _ (State.viaUp_keep b s up h)
      · exact h

theorem State.setTime_keep (t : KeepTime P) (s x1) (h : P s) : P (State.setTime s x1) := by
  unfold State.setTime
  repeat' first
    | with_reducible assumption
    | (extract_lets +onlyGivenNames a; refine (?_ : P a → _) ?_ <;> first | (intro _; clear_value a) | subst a)
    | (extract_lets +onlyGivenNames a; refine (?_ : P a.1 → _) ?_ <;> first | (intro _; clear_value a) | subst a)
    | (extract_lets +onlyGivenNames a; refine (?_ : P a.2 → _) ?_ <;> first | (intro _; clear_value a) | subst a)
    | (extract_lets +onlyGivenNames a; subst a)
    | intro _
    | with_reducible apply Keep.ite
    | with_reducible apply Keep.cond
    | with_reducible apply Keep.foldl
    | split
    | with_reducible refine KeepTime.lit t rfl rfl rfl rfl ?_

theorem State.tick_keep (t : KeepTime P) (s) (h : P s) : P (State.tick s) := by
  unfold State.tick
  repeat' first
    | with_reducible assumption
    | (extract_lets +onlyGivenNames a; refine (?_ : P a → _) ?_ <;> first | (intro _; clear_value a) | subst a)
    | (extract_lets +onlyGivenNames a; refine (?_ : P a.1 → _) ?_ <;> first | (intro _; clear_value a) | subst a)
    | (extract_lets +onlyGivenNames a; refine (?_ : P a.2 → _) ?_ <;> first | (intro _; clear_value a) | subst a)
    | (extract_lets +onlyGivenNames a; subst a)
    | intro _
    | with_reducible apply Keep.ite
    | with_reducible apply Keep.cond
    | with_reducible apply Keep.foldl
    | split
    | with_reducible refine KeepTime.lit t rfl rfl rfl rfl ?_

theorem State.drawBytes_keep (b : KeepBase P) (s x1) (h : P s) : P (State.drawBytes s x1).2 := by
  unfold State.drawBytes
  repeat' first
    | with_reducible assumption
    | (extract_lets +onlyGivenNames a; refine (?_ : P a → _) ?_ <;> first | (intro _; clear_value a) | subst a)
    | (extract_lets +onlyGivenNames a; refine (?_ : P a.1 → _) ?_ <;> first | (intro _; clear_value a) | subst a)
    | (extract_lets +onlyGivenNames a; refine (?_ : P a.2 → _) ?_ <;> first | (intro _; clear_value a) | subst a)
    | (extract_lets +onlyGivenNames a; subst a)
    | intro _
    | with_reducible apply Keep.ite
    | with_reducible apply Keep.cond
    | with_reducible apply Keep.foldl
    | split
    | with_reducible refine KeepBase.lit b rfl rfl rfl rfl rfl ?_
    | with_reducible refine KeepBase.litPool b rfl rfl rfl rfl rfl ?_

theorem State.drawRandom_keep (b : KeepBase P) (s) (h : P s) : P (State.drawRandom s).2 := by
  unfold State.drawRandom
  repeat' first
    | with_reducible assumption
    | (extract_lets +onlyGivenNames a; refine (?_ : P a → _) ?_ <;> first | (intro _; clear_value a) | subst a)
    | (extract_lets +onlyGivenNames a; refine (?_ : P a.1 → _) ?_ <;> first | (intro _; clear_value a) | subst a)
    | (extract_lets +onlyGivenNames a; refine (?_ : P a.2 → _) ?_ <;> first | (intro _; clear_value a) | subst a)
    | (extract_lets +onlyGivenNames a; subst a)
    | intro _
    | with_reducible apply Keep.ite
    | with_reducible apply Keep.cond
    | with_reducible apply Keep.foldl
    | split
    | with_reducible refine KeepBase.lit b rfl rfl rfl rfl rfl ?_
    | with_reducible refine KeepBase.litPool b rfl rfl rfl rfl rfl ?_

theorem State.syncQueued_keep (r : KeepRegs P) (s) (h : P s) : P (State.syncQueued s) := by
  unfold State.syncQueued
  repeat' first
    | with_reducible assumption
    | (extract_lets +onlyGivenNames a; refine (?_ : P a → _) ?_ <;> first | (intro _; clear_value a) | subst a)
    | (extract_lets +onlyGivenNames a; refine (?_ : P a.1 → _) ?_ <;> first | (intro _; clear_value a) | subst a)
    | (extract_lets +onlyGivenNames a; refine (?_ : P a.2 → _) ?_ <;> first | (intro _; clear_value a) | subst a)
    | (extract_lets +onlyGivenNames a; subst a)
    | intro _
    | with_reducible apply State.put_keep r
    | with_reducible apply Keep.ite
    | with_reducible apply Keep.cond
    | with_reducible apply Keep.foldl
    | split

theorem State.enqueue_keep (b : KeepBase P) (r : KeepRegs P) (s x1) (h : P s) : P (State.enqueue s x1) := by
  unfold State.enqueue
  repeat' first
    | with_reducible assumption
    | (extract_lets +onlyGivenNames a; refine (?_ : P a → _) ?_ <;> first | (intro _; clear_value a) | subst a)
    | (extract_lets +onlyGivenNames a; refine (?_ : P a.1 → _) ?_ <;> first | (intro _; clear_value a) | subst a)
    | (extract_lets +onlyGivenNames a; refine (?_ : P a.2 → _) ?_ <;> first | (intro _; clear_value a) | subst a)
    | (extract_lets +onlyGivenNames a; subst a)
    | intro _
    | with_reducible apply State.bump_keep r
    | with_reducible apply State.syncQueued_keep r
    | with_reducible apply Keep.ite
    | with_reducible apply Keep.cond
    | with_reducible apply Keep.foldl
    | split
    | with_reducible refine KeepBase.lit b rfl rfl rfl rfl rfl ?_
    | with_reducible refine KeepBase.litPool b rfl rfl rfl rfl rfl ?_

theorem State.log_keep (b : KeepBase P) (r : KeepRegs P) (s x1) (h : P s) : P (State.log s x1) := by
  unfold State.log
  repeat' first
    | with_reducible assumption
    | (extract_lets +onlyGivenNames a; refine (?_ : P a → _) ?_ <;> first | (intro _; clear_value a) | subst a)
    | (extract_lets +onlyGivenNames a; refine (?_ : P a.1 → _) ?_ <;> first | (intro _; clear_value a) | subst a)
    | (extract_lets +onlyGivenNames a; refine (?_ : P a.2 → _) ?_ <;> first | (intro _; clear_value a) | subst a)
    | (extract_lets +onlyGivenNames a; subst a)
    | intro _
    | with_reducible apply State.enqueue_keep b r
    | with_reducible apply Keep.ite
    | with_reducible apply Keep.cond
    | with_reducible apply Keep.foldl
    | split
    | with_reducible refine KeepBase.lit b rfl rfl rfl rfl rfl ?_
    | with_reducible refine KeepBase.litPool b rfl rfl rfl rfl rfl ?_

theorem State.logAll_keep (b : KeepBase P) (r : KeepRegs P) (s x1) (h : P s) : P (State.logAll s x1) := by
  unfold State.logAll
  repeat' first
    | with_reducible assumption
    | (extract_lets +onlyGivenNames a; refine (?_ : P a → _) ?_ <;> first | (intro _; clear_value a) | subst a)
    | (extract_lets +onlyGivenNames a; refine (?_ : P a.1 → _) ?_ <;> first | (intro _; clear_value a) | subst a)
    | (extract_lets +onlyGivenNames a; refine (?_ : P a.2 → _) ?_ <;> first | (intro _; clear_value a) | subst a)
    | (extract_lets +onlyGivenNames a; subst a)
    | intro _
    | with_reducible apply State.log_keep b r
    | with_reducible apply Keep.ite
    | with_reducible apply Keep.cond
    | with_reducible apply Keep.foldl
    | split
    | with_reducible refine KeepBase.lit b rfl rfl rfl rfl rfl ?_
    | with_reducible refine KeepBase.litPool b rfl rfl rfl rfl rfl ?_

end Sys2Proof.Machine
end

