-- ==== Sys2Proof/Laws/KeepFares.lean ====
section
/-! SUPPORT. What each operation of Machine/Fares.lean keeps: a predicate that survives the named kinds of change survives it. -/

namespace Sys2Proof.Machine

variable {P : State → Prop}

theorem State.charge_keep (b : KeepBase P) (s x1 x2 x3 x4) (h : P s) : P (State.charge s x1 x2 x3 x4) := by
  unfold State.charge
  repeat' first
    | with_reducible assumption
    | (extract_lets +onlyGivenNames a; refine (?_ : P a → _) ?_ <;> first | (intro _; clear_value a) | subst a)
    | (extract_lets +onlyGivenNames a; refine (?_ : P a.1 → _) ?_ <;> first | (intro _; clear_value a) | subst a)
    | (extract_lets +onlyGivenNames a; refine (?_ : P a.2 → _) ?_ <;> first | (intro _; clear_value a) | subst a)
    | (extract_lets +onlyGivenNames a; subst a)
    | intro _
    | with_reducible apply Keep.ite
    | with_reducible apply Keep.cond
    | with_reducible apply Keep.foldl
    | split
    | with_reducible refine KeepBase.lit b rfl rfl rfl rfl rfl ?_
    | with_reducible refine KeepBase.litPool b rfl rfl rfl rfl rfl ?_

theorem State.endStalls_keep (b : KeepBase P) (r : KeepRegs P) (s x1) (h : P s) : P (State.endStalls s x1) := by
  unfold State.endStalls
  repeat' first
    | with_reducible assumption
    | (extract_lets +onlyGivenNames a; refine (?_ : P a → _) ?_ <;> first | (intro _; clear_value a) | subst a)
    | (extract_lets +onlyGivenNames a; refine (?_ : P a.1 → _) ?_ <;> first | (intro _; clear_value a) | subst a)
    | (extract_lets +onlyGivenNames a; refine (?_ : P a.2 → _) ?_ <;> first | (intro _; clear_value a) | subst a)
    | (extract_lets +onlyGivenNames a; subst a)
    | intro _
    | with_reducible apply State.bump_keep r
    | with_reducible apply Keep.ite
    | with_reducible apply Keep.cond
    | with_reducible apply Keep.foldl
    | split
    | with_reducible refine KeepBase.lit b rfl rfl rfl rfl rfl ?_
    | with_reducible refine KeepBase.litPool b rfl rfl rfl rfl rfl ?_

theorem State.stall_keep (b : KeepBase P) (r : KeepRegs P) (s x1 x2 x3 x4 x5 x6) (h : P s) : P (State.stall s x1 x2 x3 x4 x5 x6) := by
  unfold State.stall
  repeat' first
    | with_reducible assumption
    | (extract_lets +onlyGivenNames a; refine (?_ : P a → _) ?_ <;> first | (intro _; clear_value a) | subst a)
    | (extract_lets +onlyGivenNames a; refine (?_ : P a.1 → _) ?_ <;> first | (intro _; clear_value a) | subst a)
    | (extract_lets +onlyGivenNames a; refine (?_ : P a.2 → _) ?_ <;> first | (intro _; clear_value a) | subst a)
    | (extract_lets +onlyGivenNames a; subst a)
    | intro _
    | with_reducible apply State.endStalls_keep b r
    | with_reducible apply Keep.ite
    | with_reducible apply Keep.cond
    | with_reducible apply Keep.foldl
    | split
    | with_reducible refine KeepBase.lit b rfl rfl rfl rfl rfl ?_
    | with_reducible refine KeepBase.litPool b rfl rfl rfl rfl rfl ?_

theorem State.fareStall_keep (b : KeepBase P) (r : KeepRegs P) (s x1 x2) (h : P s) : P (State.fareStall s x1 x2) := by
  unfold State.fareStall
  repeat' first
    | with_reducible assumption
    | (extract_lets +onlyGivenNames a; refine (?_ : P a → _) ?_ <;> first | (intro _; clear_value a) | subst a)
    | (extract_lets +onlyGivenNames a; refine (?_ : P a.1 → _) ?_ <;> first | (intro _; clear_value a) | subst a)
    | (extract_lets +onlyGivenNames a; refine (?_ : P a.2 → _) ?_ <;> first | (intro _; clear_value a) | subst a)
    | (extract_lets +onlyGivenNames a; subst a)
    | intro _
    | with_reducible apply State.stall_keep b r
    | with_reducible apply Keep.ite
    | with_reducible apply Keep.cond
    | with_reducible apply Keep.foldl
    | split
    | with_reducible refine KeepBase.lit b rfl rfl rfl rfl rfl ?_
    | with_reducible refine KeepBase.litPool b rfl rfl rfl rfl rfl ?_

theorem State.endStall_keep (b : KeepBase P) (r : KeepRegs P) (s x1 x2) (h : P s) : P (State.endStall s x1 x2) := by
  unfold State.endStall
  repeat' first
    | with_reducible assumption
    | (extract_lets +onlyGivenNames a; refine (?_ : P a → _) ?_ <;> first | (intro _; clear_value a) | subst a)
    | (extract_lets +onlyGivenNames a; refine (?_ : P a.1 → _) ?_ <;> first | (intro _; clear_value a) | subst a)
    | (extract_lets +onlyGivenNames a; refine (?_ : P a.2 → _) ?_ <;> first | (intro _; clear_value a) | subst a)
    | (extract_lets +onlyGivenNames a; subst a)
    | intro _
    | with_reducible apply State.endStalls_keep b r
    | with_reducible apply Keep.ite
    | with_reducible apply Keep.cond
    | with_reducible apply Keep.foldl
    | split
    | with_reducible refine KeepBase.lit b rfl rfl rfl rfl rfl ?_
    | with_reducible refine KeepBase.litPool b rfl rfl rfl rfl rfl ?_

theorem State.endBudgetStalls_keep (b : KeepBase P) (r : KeepRegs P) (s) (h : P s) : P (State.endBudgetStalls s) := by
  unfold State.endBudgetStalls
  repeat' first
    | with_reducible assumption
    | (extract_lets +onlyGivenNames a; refine (?_ : P a → _) ?_ <;> first | (intro _; clear_value a) | subst a)
    | (extract_lets +onlyGivenNames a; refine (?_ : P a.1 → _) ?_ <;> first | (intro _; clear_value a) | subst a)
    | (extract_lets +onlyGivenNames a; refine (?_ : P a.2 → _) ?_ <;> first | (intro _; clear_value a) | subst a)
    | (extract_lets +onlyGivenNames a; subst a)
    | intro _
    | with_reducible apply State.endStalls_keep b r
    | with_reducible apply Keep.ite
    | with_reducible apply Keep.cond
    | with_reducible apply Keep.foldl
    | split
    | with_reducible refine KeepBase.lit b rfl rfl rfl rfl rfl ?_
    | with_reducible refine KeepBase.litPool b rfl rfl rfl rfl rfl ?_

theorem State.throttleUpdate_keep (b : KeepBase P) (r : KeepRegs P) (s) (h : P s) : P (State.throttleUpdate s) := by
  unfold State.throttleUpdate
  repeat' first
    | with_reducible assumption
    | (extract_lets +onlyGivenNames a; refine (?_ : P a → _) ?_ <;> first | (intro _; clear_value a) | subst a)
    | (extract_lets +onlyGivenNames a; refine (?_ : P a.1 → _) ?_ <;> first | (intro _; clear_value a) | subst a)
    | (extract_lets +onlyGivenNames a; refine (?_ : P a.2 → _) ?_ <;> first | (intro _; clear_value a) | subst a)
    | (extract_lets +onlyGivenNames a; subst a)
    | intro _
    | with_reducible apply State.put_keep r
    | with_reducible apply Keep.ite
    | with_reducible apply Keep.cond
    | with_reducible apply Keep.foldl
    | split
    | with_reducible refine KeepBase.lit b rfl rfl rfl rfl rfl ?_
    | with_reducible refine KeepBase.litPool b rfl rfl rfl rfl rfl ?_

theorem State.reportUsed_keep (r : KeepRegs P) (s) (h : P s) : P (State.reportUsed s) := by
  unfold State.reportUsed
  repeat' first
    | with_reducible assumption
    | (extract_lets +onlyGivenNames a; refine (?_ : P a → _) ?_ <;> first | (intro _; clear_value a) | subst a)
    | (extract_lets +onlyGivenNames a; refine (?_ : P a.1 → _) ?_ <;> first | (intro _; clear_value a) | subst a)
    | (extract_lets +onlyGivenNames a; refine (?_ : P a.2 → _) ?_ <;> first | (intro _; clear_value a) | subst a)
    | (extract_lets +onlyGivenNames a; subst a)
    | intro _
    | with_reducible apply State.put_keep r
    | with_reducible apply Keep.ite
    | with_reducible apply Keep.cond
    | with_reducible apply Keep.foldl
    | split

theorem State.tideEdge_keep (b : KeepBase P) (r : KeepRegs P) (s) (h : P s) : P (State.tideEdge s) := by
  unfold State.tideEdge
  repeat' first
    | with_reducible assumption
    | (extract_lets +onlyGivenNames a; refine (?_ : P a → _) ?_ <;> first | (intro _; clear_value a) | subst a)
    | (extract_lets +onlyGivenNames a; refine (?_ : P a.1 → _) ?_ <;> first | (intro _; clear_value a) | subst a)
    | (extract_lets +onlyGivenNames a; refine (?_ : P a.2 → _) ?_ <;> first | (intro _; clear_value a) | subst a)
    | (extract_lets +onlyGivenNames a; subst a)
    | intro _
    | with_reducible apply State.reportUsed_keep r
    | with_reducible apply State.put_keep r
    | with_reducible apply State.endBudgetStalls_keep b r
    | with_reducible apply Keep.ite
    | with_reducible apply Keep.cond
    | with_reducible apply Keep.foldl
    | split
    | with_reducible refine KeepBase.lit b rfl rfl rfl rfl rfl ?_
    | with_reducible refine KeepBase.litPool b rfl rfl rfl rfl rfl ?_

end Sys2Proof.Machine
end

