-- ==== Sys2Proof/Laws/KeepNear.lean ====
section
/-! SUPPORT. What each operation of Machine/Near.lean keeps: a predicate that survives the named kinds of change survives it. -/

namespace Sys2Proof.Machine

variable {P : State → Prop}

theorem State.setSlot_keep (b : KeepBase P) (s x1 x2 x3) (h : P s) : P (State.setSlot s x1 x2 x3) := by
  unfold State.setSlot
  repeat' first
    | with_reducible assumption
    | (extract_lets +onlyGivenNames a; refine (?_ : P a → _) ?_ <;> first | (intro _; clear_value a) | subst a)
    | (extract_lets +onlyGivenNames a; refine (?_ : P a.1 → _) ?_ <;> first | (intro _; clear_value a) | subst a)
    | (extract_lets +onlyGivenNames a; refine (?_ : P a.2 → _) ?_ <;> first | (intro _; clear_value a) | subst a)
    | (extract_lets +onlyGivenNames a; subst a)
    | intro _
    | with_reducible apply Keep.ite
    | with_reducible apply Keep.cond
    | with_reducible apply Keep.foldl
    | split
    | with_reducible refine KeepBase.lit b rfl rfl rfl rfl rfl ?_
    | with_reducible refine KeepBase.litPool b rfl rfl rfl rfl rfl ?_

theorem State.writeSlot_keep (n : KeepNear P) (s x1 x2 x3) (h : P s) : P (State.writeSlot s x1 x2 x3) := by
  unfold State.writeSlot
  refine KeepNear.lit n (fun h => Near.foldl_wf _ ?_ _ _ h) rfl rfl rfl rfl ?_
  · intro x a hx
    dsimp only
    split
    · exact hx
    · exact Near.writeSector_wf _ _ _ _ _ hx
  · exact h

theorem State.chargeNear_keep (b : KeepBase P) (s x1 x2 x3) (h : P s) : P (State.chargeNear s x1 x2 x3) := by
  unfold State.chargeNear
  repeat' first
    | with_reducible assumption
    | (extract_lets +onlyGivenNames a; refine (?_ : P a → _) ?_ <;> first | (intro _; clear_value a) | subst a)
    | (extract_lets +onlyGivenNames a; refine (?_ : P a.1 → _) ?_ <;> first | (intro _; clear_value a) | subst a)
    | (extract_lets +onlyGivenNames a; refine (?_ : P a.2 → _) ?_ <;> first | (intro _; clear_value a) | subst a)
    | (extract_lets +onlyGivenNames a; subst a)
    | intro _
    | with_reducible apply State.charge_keep b
    | with_reducible apply Keep.ite
    | with_reducible apply Keep.cond
    | with_reducible apply Keep.foldl
    | split
    | with_reducible refine KeepBase.lit b rfl rfl rfl rfl rfl ?_
    | with_reducible refine KeepBase.litPool b rfl rfl rfl rfl rfl ?_

theorem State.poisonSector_keep (r : KeepRegs P) (n : KeepNear P) (s x1) (h : P s) : P (State.poisonSector s x1) := by
  unfold State.poisonSector
  repeat' first
    | with_reducible assumption
    | (extract_lets +onlyGivenNames a; refine (?_ : P a → _) ?_ <;> first | (intro _; clear_value a) | subst a)
    | (extract_lets +onlyGivenNames a; refine (?_ : P a.1 → _) ?_ <;> first | (intro _; clear_value a) | subst a)
    | (extract_lets +onlyGivenNames a; refine (?_ : P a.2 → _) ?_ <;> first | (intro _; clear_value a) | subst a)
    | (extract_lets +onlyGivenNames a; subst a)
    | with_reducible exact id
    | exact Near.mark_wf _ _
    | exact Near.writeSector_wf _ _ _ _ _
    | exact Near.scrub_wf _ _
    | exact fun h => Near.mark_wf _ _ (Near.mark_wf _ _ h)
    | exact fun h => Near.writeSector_wf _ _ _ _ _ (Near.writeSector_wf _ _ _ _ _ h)
    | intro _
    | with_reducible apply State.bump_keep r
    | with_reducible apply Keep.ite
    | with_reducible apply Keep.cond
    | with_reducible apply Keep.foldl
    | split
    | with_reducible refine KeepNear.litSame n rfl rfl rfl rfl rfl ?_
    | with_reducible refine KeepNear.lit n ?_ rfl rfl rfl rfl ?_

theorem State.loseSector_keep (b : KeepBase P) (r : KeepRegs P) (n : KeepNear P) (s x1) (h : P s) : P (State.loseSector s x1) := by
  unfold State.loseSector
  repeat' first
    | with_reducible assumption
    | (extract_lets +onlyGivenNames a; refine (?_ : P a → _) ?_ <;> first | (intro _; clear_value a) | subst a)
    | (extract_lets +onlyGivenNames a; refine (?_ : P a.1 → _) ?_ <;> first | (intro _; clear_value a) | subst a)
    | (extract_lets +onlyGivenNames a; refine (?_ : P a.2 → _) ?_ <;> first | (intro _; clear_value a) | subst a)
    | (extract_lets +onlyGivenNames a; subst a)
    | intro _
    | with_reducible apply State.poisonSector_keep r n
    | with_reducible apply State.log_keep b r
    | with_reducible apply Keep.ite
    | with_reducible apply Keep.cond
    | with_reducible apply Keep.foldl
    | split
    | with_reducible refine KeepBase.lit b rfl rfl rfl rfl rfl ?_
    | with_reducible refine KeepBase.litPool b rfl rfl rfl rfl rfl ?_

theorem State.syncReserve_keep (r : KeepRegs P) (s x1) (h : P s) : P (State.syncReserve s x1) := by
  unfold State.syncReserve
  repeat' first
    | with_reducible assumption
    | (extract_lets +onlyGivenNames a; refine (?_ : P a → _) ?_ <;> first | (intro _; clear_value a) | subst a)
    | (extract_lets +onlyGivenNames a; refine (?_ : P a.1 → _) ?_ <;> first | (intro _; clear_value a) | subst a)
    | (extract_lets +onlyGivenNames a; refine (?_ : P a.2 → _) ?_ <;> first | (intro _; clear_value a) | subst a)
    | (extract_lets +onlyGivenNames a; subst a)
    | intro _
    | with_reducible apply State.put_keep r
    | with_reducible apply Keep.ite
    | with_reducible apply Keep.cond
    | with_reducible apply Keep.foldl
    | split

theorem State.mapRows_keep (b : KeepBase P) (r : KeepRegs P) (s x1) (h : P s) : P (State.mapRows s x1) := by
  unfold State.mapRows
  repeat' first
    | with_reducible assumption
    | (extract_lets +onlyGivenNames a; refine (?_ : P a → _) ?_ <;> first | (intro _; clear_value a) | subst a)
    | (extract_lets +onlyGivenNames a; refine (?_ : P a.1 → _) ?_ <;> first | (intro _; clear_value a) | subst a)
    | (extract_lets +onlyGivenNames a; refine (?_ : P a.2 → _) ?_ <;> first | (intro _; clear_value a) | subst a)
    | (extract_lets +onlyGivenNames a; subst a)
    | intro _
    | with_reducible apply State.syncReserve_keep r
    | with_reducible apply Keep.ite
    | with_reducible apply Keep.cond
    | with_reducible apply Keep.foldl
    | split
    | with_reducible refine KeepBase.lit b rfl rfl rfl rfl rfl ?_
    | with_reducible refine KeepBase.litPool b rfl rfl rfl rfl rfl ?_

theorem State.checkReserve_keep (b : KeepBase P) (r : KeepRegs P) (s x1) (h : P s) : P (State.checkReserve s x1) := by
  unfold State.checkReserve
  repeat' first
    | with_reducible assumption
    | (extract_lets +onlyGivenNames a; refine (?_ : P a → _) ?_ <;> first | (intro _; clear_value a) | subst a)
    | (extract_lets +onlyGivenNames a; refine (?_ : P a.1 → _) ?_ <;> first | (intro _; clear_value a) | subst a)
    | (extract_lets +onlyGivenNames a; refine (?_ : P a.2 → _) ?_ <;> first | (intro _; clear_value a) | subst a)
    | (extract_lets +onlyGivenNames a; subst a)
    | intro _
    | with_reducible apply State.degrade_keep b r
    | with_reducible apply State.put_keep r
    | with_reducible apply Keep.ite
    | with_reducible apply Keep.cond
    | with_reducible apply Keep.foldl
    | split
    | with_reducible refine KeepBase.lit b rfl rfl rfl rfl rfl ?_
    | with_reducible refine KeepBase.litPool b rfl rfl rfl rfl rfl ?_

theorem State.countRetired_keep (b : KeepBase P) (r : KeepRegs P) (s x1) (h : P s) : P (State.countRetired s x1) := by
  unfold State.countRetired
  repeat' first
    | with_reducible assumption
    | (extract_lets +onlyGivenNames a; refine (?_ : P a → _) ?_ <;> first | (intro _; clear_value a) | subst a)
    | (extract_lets +onlyGivenNames a; refine (?_ : P a.1 → _) ?_ <;> first | (intro _; clear_value a) | subst a)
    | (extract_lets +onlyGivenNames a; refine (?_ : P a.2 → _) ?_ <;> first | (intro _; clear_value a) | subst a)
    | (extract_lets +onlyGivenNames a; subst a)
    | intro _
    | with_reducible apply State.checkReserve_keep b r
    | with_reducible apply State.syncReserve_keep r
    | with_reducible apply State.put_keep r
    | with_reducible apply Keep.ite
    | with_reducible apply Keep.cond
    | with_reducible apply Keep.foldl
    | split
    | with_reducible refine KeepBase.lit b rfl rfl rfl rfl rfl ?_
    | with_reducible refine KeepBase.litPool b rfl rfl rfl rfl rfl ?_

theorem State.startMigration_keep (b : KeepBase P) (r : KeepRegs P) (s x1) (h : P s) : P (State.startMigration s x1) := by
  unfold State.startMigration
  repeat' first
    | with_reducible assumption
    | (extract_lets +onlyGivenNames a; refine (?_ : P a → _) ?_ <;> first | (intro _; clear_value a) | subst a)
    | (extract_lets +onlyGivenNames a; refine (?_ : P a.1 → _) ?_ <;> first | (intro _; clear_value a) | subst a)
    | (extract_lets +onlyGivenNames a; refine (?_ : P a.2 → _) ?_ <;> first | (intro _; clear_value a) | subst a)
    | (extract_lets +onlyGivenNames a; subst a)
    | intro _
    | with_reducible apply State.checkReserve_keep b r
    | with_reducible apply State.put_keep r
    | with_reducible apply State.mapRows_keep b r
    | with_reducible apply Keep.ite
    | with_reducible apply Keep.cond
    | with_reducible apply Keep.foldl
    | split
    | with_reducible refine KeepBase.lit b rfl rfl rfl rfl rfl ?_
    | with_reducible refine KeepBase.litPool b rfl rfl rfl rfl rfl ?_

theorem State.retireChannel_keep (b : KeepBase P) (r : KeepRegs P) (s x1) (h : P s) : P (State.retireChannel s x1) := by
  unfold State.retireChannel
  repeat' first
    | with_reducible assumption
    | (extract_lets +onlyGivenNames a; refine (?_ : P a → _) ?_ <;> first | (intro _; clear_value a) | subst a)
    | (extract_lets +onlyGivenNames a; refine (?_ : P a.1 → _) ?_ <;> first | (intro _; clear_value a) | subst a)
    | (extract_lets +onlyGivenNames a; refine (?_ : P a.2 → _) ?_ <;> first | (intro _; clear_value a) | subst a)
    | (extract_lets +onlyGivenNames a; subst a)
    | intro _
    | with_reducible apply State.put_keep r
    | with_reducible apply State.startMigration_keep b r
    | with_reducible apply Keep.ite
    | with_reducible apply Keep.cond
    | with_reducible apply Keep.foldl
    | split
    | with_reducible refine KeepBase.lit b rfl rfl rfl rfl rfl ?_
    | with_reducible refine KeepBase.litPool b rfl rfl rfl rfl rfl ?_

theorem State.autoRetire_keep (b : KeepBase P) (r : KeepRegs P) (s x1) (h : P s) : P (State.autoRetire s x1) := by
  unfold State.autoRetire
  repeat' first
    | with_reducible assumption
    | (extract_lets +onlyGivenNames a; refine (?_ : P a → _) ?_ <;> first | (intro _; clear_value a) | subst a)
    | (extract_lets +onlyGivenNames a; refine (?_ : P a.1 → _) ?_ <;> first | (intro _; clear_value a) | subst a)
    | (extract_lets +onlyGivenNames a; refine (?_ : P a.2 → _) ?_ <;> first | (intro _; clear_value a) | subst a)
    | (extract_lets +onlyGivenNames a; subst a)
    | intro _
    | with_reducible apply State.checkReserve_keep b r
    | with_reducible apply State.startMigration_keep b r
    | with_reducible apply Keep.ite
    | with_reducible apply Keep.cond
    | with_reducible apply Keep.foldl
    | split
    | with_reducible refine KeepBase.lit b rfl rfl rfl rfl rfl ?_
    | with_reducible refine KeepBase.litPool b rfl rfl rfl rfl rfl ?_

theorem State.noteRow_keep (b : KeepBase P) (s x1) (h : P s) : P (State.noteRow s x1) := by
  unfold State.noteRow
  repeat' first
    | with_reducible assumption
    | (extract_lets +onlyGivenNames a; refine (?_ : P a → _) ?_ <;> first | (intro _; clear_value a) | subst a)
    | (extract_lets +onlyGivenNames a; refine (?_ : P a.1 → _) ?_ <;> first | (intro _; clear_value a) | subst a)
    | (extract_lets +onlyGivenNames a; refine (?_ : P a.2 → _) ?_ <;> first | (intro _; clear_value a) | subst a)
    | (extract_lets +onlyGivenNames a; subst a)
    | intro _
    | with_reducible apply Keep.ite
    | with_reducible apply Keep.cond
    | with_reducible apply Keep.foldl
    | split
    | with_reducible refine KeepBase.lit b rfl rfl rfl rfl rfl ?_
    | with_reducible refine KeepBase.litPool b rfl rfl rfl rfl rfl ?_

theorem State.sectorEvent_keep (b : KeepBase P) (r : KeepRegs P) (n : KeepNear P) (s x1) (h : P s) : P (State.sectorEvent s x1) := by
  unfold State.sectorEvent
  repeat' first
    | with_reducible assumption
    | (extract_lets +onlyGivenNames a; refine (?_ : P a → _) ?_ <;> first | (intro _; clear_value a) | subst a)
    | (extract_lets +onlyGivenNames a; refine (?_ : P a.1 → _) ?_ <;> first | (intro _; clear_value a) | subst a)
    | (extract_lets +onlyGivenNames a; refine (?_ : P a.2 → _) ?_ <;> first | (intro _; clear_value a) | subst a)
    | (extract_lets +onlyGivenNames a; subst a)
    | intro _
    | with_reducible apply State.countDay_keep b r
    | with_reducible apply State.bump_keep r
    | with_reducible apply State.autoRetire_keep b r
    | with_reducible apply State.log_keep b r
    | with_reducible apply State.noteRow_keep b
    | with_reducible apply State.loseSector_keep b r n
    | with_reducible apply Keep.ite
    | with_reducible apply Keep.cond
    | with_reducible apply Keep.foldl
    | split
    | with_reducible refine KeepBase.lit b rfl rfl rfl rfl rfl ?_
    | with_reducible refine KeepBase.litPool b rfl rfl rfl rfl rfl ?_

theorem State.sectorEvents_keep (b : KeepBase P) (r : KeepRegs P) (n : KeepNear P) (s x1) (h : P s) : P (State.sectorEvents s x1) := by
  unfold State.sectorEvents
  repeat' first
    | with_reducible assumption
    | (extract_lets +onlyGivenNames a; refine (?_ : P a → _) ?_ <;> first | (intro _; clear_value a) | subst a)
    | (extract_lets +onlyGivenNames a; refine (?_ : P a.1 → _) ?_ <;> first | (intro _; clear_value a) | subst a)
    | (extract_lets +onlyGivenNames a; refine (?_ : P a.2 → _) ?_ <;> first | (intro _; clear_value a) | subst a)
    | (extract_lets +onlyGivenNames a; subst a)
    | intro _
    | with_reducible apply State.sectorEvent_keep b r n
    | with_reducible apply Keep.ite
    | with_reducible apply Keep.cond
    | with_reducible apply Keep.foldl
    | split
    | with_reducible refine KeepBase.lit b rfl rfl rfl rfl rfl ?_
    | with_reducible refine KeepBase.litPool b rfl rfl rfl rfl rfl ?_

end Sys2Proof.Machine
end

