-- ==== Sys2Proof/Laws/KeepFrames.lean ====
section
/-! SUPPORT. What each operation of Machine/Frames.lean keeps: a predicate that survives the named kinds of change survives it. -/

namespace Sys2Proof.Machine

variable {P : State → Prop}

theorem State.setFlowOut_keep (b : KeepBase P) (s x1) (h : P s) : P (State.setFlowOut s x1) := by
  unfold State.setFlowOut
  repeat' first
    | with_reducible assumption
    | (extract_lets +onlyGivenNames a; refine (?_ : P a → _) ?_ <;> first | (intro _; clear_value a) | subst a)
    | (extract_lets +onlyGivenNames a; refine (?_ : P a.1 → _) ?_ <;> first | (intro _; clear_value a) | subst a)
    | (extract_lets +onlyGivenNames a; refine (?_ : P a.2 → _) ?_ <;> first | (intro _; clear_value a) | subst a)
    | (extract_lets +onlyGivenNames a; subst a)
    | intro _
    | with_reducible apply Keep.ite
    | with_reducible apply Keep.cond
    | with_reducible apply Keep.foldl
    | split
    | with_reducible refine KeepBase.lit b rfl rfl rfl rfl rfl ?_
    | with_reducible refine KeepBase.litPool b rfl rfl rfl rfl rfl ?_

theorem State.noRoute_keep (r : KeepRegs P) (s x1) (h : P s) : P (State.noRoute s x1) := by
  unfold State.noRoute
  repeat' first
    | with_reducible assumption
    | (extract_lets +onlyGivenNames a; refine (?_ : P a → _) ?_ <;> first | (intro _; clear_value a) | subst a)
    | (extract_lets +onlyGivenNames a; refine (?_ : P a.1 → _) ?_ <;> first | (intro _; clear_value a) | subst a)
    | (extract_lets +onlyGivenNames a; refine (?_ : P a.2 → _) ?_ <;> first | (intro _; clear_value a) | subst a)
    | (extract_lets +onlyGivenNames a; subst a)
    | intro _
    | with_reducible apply State.bump_keep r
    | with_reducible apply Keep.ite
    | with_reducible apply Keep.cond
    | with_reducible apply Keep.foldl
    | split

theorem State.stage_keep (b : KeepBase P) (r : KeepRegs P) (s x1 x2 x3 x4) (h : P s) : P (State.stage s x1 x2 x3 x4) := by
  unfold State.stage
  repeat' first
    | with_reducible assumption
    | (extract_lets +onlyGivenNames a; refine (?_ : P a → _) ?_ <;> first | (intro _; clear_value a) | subst a)
    | (extract_lets +onlyGivenNames a; refine (?_ : P a.1 → _) ?_ <;> first | (intro _; clear_value a) | subst a)
    | (extract_lets +onlyGivenNames a; refine (?_ : P a.2 → _) ?_ <;> first | (intro _; clear_value a) | subst a)
    | (extract_lets +onlyGivenNames a; subst a)
    | intro _
    | with_reducible apply State.noRoute_keep r
    | with_reducible apply Keep.ite
    | with_reducible apply Keep.cond
    | with_reducible apply Keep.foldl
    | split
    | with_reducible refine KeepBase.lit b rfl rfl rfl rfl rfl ?_
    | with_reducible refine KeepBase.litPool b rfl rfl rfl rfl rfl ?_

theorem State.number_keep (b : KeepBase P) (s x1 x2) (h : P s) : P (State.number s x1 x2).1 := by
  unfold State.number
  repeat' first
    | with_reducible assumption
    | (extract_lets +onlyGivenNames a; refine (?_ : P a → _) ?_ <;> first | (intro _; clear_value a) | subst a)
    | (extract_lets +onlyGivenNames a; refine (?_ : P a.1 → _) ?_ <;> first | (intro _; clear_value a) | subst a)
    | (extract_lets +onlyGivenNames a; refine (?_ : P a.2 → _) ?_ <;> first | (intro _; clear_value a) | subst a)
    | (extract_lets +onlyGivenNames a; subst a)
    | intro _
    | with_reducible apply State.setFlowOut_keep b
    | with_reducible apply Keep.ite
    | with_reducible apply Keep.cond
    | with_reducible apply Keep.foldl
    | split
    | with_reducible refine KeepBase.lit b rfl rfl rfl rfl rfl ?_
    | with_reducible refine KeepBase.litPool b rfl rfl rfl rfl rfl ?_

theorem State.launch_keep (b : KeepBase P) (r : KeepRegs P) (s x1 x2 x3) (h : P s) : P (State.launch s x1 x2 x3) := by
  unfold State.launch
  repeat' first
    | with_reducible assumption
    | (extract_lets +onlyGivenNames a; refine (?_ : P a → _) ?_ <;> first | (intro _; clear_value a) | subst a)
    | (extract_lets +onlyGivenNames a; refine (?_ : P a.1 → _) ?_ <;> first | (intro _; clear_value a) | subst a)
    | (extract_lets +onlyGivenNames a; refine (?_ : P a.2 → _) ?_ <;> first | (intro _; clear_value a) | subst a)
    | (extract_lets +onlyGivenNames a; subst a)
    | intro _
    | with_reducible apply State.number_keep b
    | with_reducible apply State.stage_keep b r
    | with_reducible refine Keep.pair1 (q := State.number _ _ _) (by assumption) ?_
    | with_reducible apply Keep.ite
    | with_reducible apply Keep.cond
    | with_reducible apply Keep.foldl
    | split
    | with_reducible refine KeepBase.lit b rfl rfl rfl rfl rfl ?_
    | with_reducible refine KeepBase.litPool b rfl rfl rfl rfl rfl ?_

theorem State.originate_keep (b : KeepBase P) (r : KeepRegs P) (s x1 x2) (h : P s) : P (State.originate s x1 x2) := by
  unfold State.originate
  repeat' first
    | with_reducible assumption
    | (extract_lets +onlyGivenNames a; refine (?_ : P a → _) ?_ <;> first | (intro _; clear_value a) | subst a)
    | (extract_lets +onlyGivenNames a; refine (?_ : P a.1 → _) ?_ <;> first | (intro _; clear_value a) | subst a)
    | (extract_lets +onlyGivenNames a; refine (?_ : P a.2 → _) ?_ <;> first | (intro _; clear_value a) | subst a)
    | (extract_lets +onlyGivenNames a; subst a)
    | intro _
    | with_reducible apply State.launch_keep b r
    | with_reducible apply Keep.ite
    | with_reducible apply Keep.cond
    | with_reducible apply Keep.foldl
    | split
    | with_reducible refine KeepBase.lit b rfl rfl rfl rfl rfl ?_
    | with_reducible refine KeepBase.litPool b rfl rfl rfl rfl rfl ?_

theorem State.originateAll_keep (b : KeepBase P) (r : KeepRegs P) (s x1 x2) (h : P s) : P (State.originateAll s x1 x2) := by
  unfold State.originateAll
  repeat' first
    | with_reducible assumption
    | (extract_lets +onlyGivenNames a; refine (?_ : P a → _) ?_ <;> first | (intro _; clear_value a) | subst a)
    | (extract_lets +onlyGivenNames a; refine (?_ : P a.1 → _) ?_ <;> first | (intro _; clear_value a) | subst a)
    | (extract_lets +onlyGivenNames a; refine (?_ : P a.2 → _) ?_ <;> first | (intro _; clear_value a) | subst a)
    | (extract_lets +onlyGivenNames a; subst a)
    | intro _
    | with_reducible apply State.originate_keep b r
    | with_reducible apply Keep.ite
    | with_reducible apply Keep.cond
    | with_reducible apply Keep.foldl
    | split
    | with_reducible refine KeepBase.lit b rfl rfl rfl rfl rfl ?_
    | with_reducible refine KeepBase.litPool b rfl rfl rfl rfl rfl ?_

theorem State.launchWaiting_keep (b : KeepBase P) (r : KeepRegs P) (n : Nat) : ∀ s, P s → P (State.launchWaiting s n) := by
  induction n with
  | zero => exact fun _ h => h
  | succ n ih =>
    intro s h
    unfold State.launchWaiting
    split
    · exact h
    · split
      · exact h
      · exact ih _ (State.launch_keep b r _ _ _ _ (KeepBase.lit b rfl rfl rfl rfl rfl h))

theorem State.respond_keep (b : KeepBase P) (r : KeepRegs P) (s x1 x2 x3 x4 x5 x6) (h : P s) : P (State.respond s x1 x2 x3 x4 x5 x6) := by
  unfold State.respond
  repeat' first
    | with_reducible assumption
    | (extract_lets +onlyGivenNames a; refine (?_ : P a → _) ?_ <;> first | (intro _; clear_value a) | subst a)
    | (extract_lets +onlyGivenNames a; refine (?_ : P a.1 → _) ?_ <;> first | (intro _; clear_value a) | subst a)
    | (extract_lets +onlyGivenNames a; refine (?_ : P a.2 → _) ?_ <;> first | (intro _; clear_value a) | subst a)
    | (extract_lets +onlyGivenNames a; subst a)
    | intro _
    | with_reducible apply State.originate_keep b r
    | with_reducible apply Keep.ite
    | with_reducible apply Keep.cond
    | with_reducible apply Keep.foldl
    | split
    | with_reducible refine KeepBase.lit b rfl rfl rfl rfl rfl ?_
    | with_reducible refine KeepBase.litPool b rfl rfl rfl rfl rfl ?_

end Sys2Proof.Machine
end

