-- ==== Sys2Proof/Laws/KeepDelivery.lean ====
section
/-! SUPPORT. What each operation of Machine/Delivery.lean keeps: a predicate that survives the named kinds of change survives it. -/

namespace Sys2Proof.Machine

variable {P : State → Prop}

theorem State.setPort_keep (b : KeepBase P) (s x1 x2) (h : P s) : P (State.setPort s x1 x2) := by
  unfold State.setPort
  repeat' first
    | with_reducible assumption
    | (extract_lets +onlyGivenNames a; refine (?_ : P a → _) ?_ <;> first | (intro _; clear_value a) | subst a)
    | (extract_lets +onlyGivenNames a; refine (?_ : P a.1 → _) ?_ <;> first | (intro _; clear_value a) | subst a)
    | (extract_lets +onlyGivenNames a; refine (?_ : P a.2 → _) ?_ <;> first | (intro _; clear_value a) | subst a)
    | (extract_lets +onlyGivenNames a; subst a)
    | intro _
    | with_reducible apply Keep.ite
    | with_reducible apply Keep.cond
    | with_reducible apply Keep.foldl
    | split
    | with_reducible refine KeepBase.lit b rfl rfl rfl rfl rfl ?_
    | with_reducible refine KeepBase.litPool b rfl rfl rfl rfl rfl ?_

theorem State.addFreed_keep (b : KeepBase P) (s x1 x2) (h : P s) : P (State.addFreed s x1 x2) := by
  unfold State.addFreed
  repeat' first
    | with_reducible assumption
    | (extract_lets +onlyGivenNames a; refine (?_ : P a → _) ?_ <;> first | (intro _; clear_value a) | subst a)
    | (extract_lets +onlyGivenNames a; refine (?_ : P a.1 → _) ?_ <;> first | (intro _; clear_value a) | subst a)
    | (extract_lets +onlyGivenNames a; refine (?_ : P a.2 → _) ?_ <;> first | (intro _; clear_value a) | subst a)
    | (extract_lets +onlyGivenNames a; subst a)
    | intro _
    | with_reducible apply State.setPort_keep b
    | with_reducible apply Keep.ite
    | with_reducible apply Keep.cond
    | with_reducible apply Keep.foldl
    | split
    | with_reducible refine KeepBase.lit b rfl rfl rfl rfl rfl ?_
    | with_reducible refine KeepBase.litPool b rfl rfl rfl rfl rfl ?_

theorem State.freeCredits_keep (b : KeepBase P) (s x1 x2) (h : P s) : P (State.freeCredits s x1 x2) := by
  unfold State.freeCredits
  repeat' first
    | with_reducible assumption
    | (extract_lets +onlyGivenNames a; refine (?_ : P a → _) ?_ <;> first | (intro _; clear_value a) | subst a)
    | (extract_lets +onlyGivenNames a; refine (?_ : P a.1 → _) ?_ <;> first | (intro _; clear_value a) | subst a)
    | (extract_lets +onlyGivenNames a; refine (?_ : P a.2 → _) ?_ <;> first | (intro _; clear_value a) | subst a)
    | (extract_lets +onlyGivenNames a; subst a)
    | intro _
    | with_reducible apply State.addFreed_keep b
    | with_reducible apply Keep.ite
    | with_reducible apply Keep.cond
    | with_reducible apply Keep.foldl
    | split
    | with_reducible refine KeepBase.lit b rfl rfl rfl rfl rfl ?_
    | with_reducible refine KeepBase.litPool b rfl rfl rfl rfl rfl ?_

theorem State.returnCredits_keep (b : KeepBase P) (s x1) (h : P s) : P (State.returnCredits s x1) := by
  unfold State.returnCredits
  repeat' first
    | with_reducible assumption
    | (extract_lets +onlyGivenNames a; refine (?_ : P a → _) ?_ <;> first | (intro _; clear_value a) | subst a)
    | (extract_lets +onlyGivenNames a; refine (?_ : P a.1 → _) ?_ <;> first | (intro _; clear_value a) | subst a)
    | (extract_lets +onlyGivenNames a; refine (?_ : P a.2 → _) ?_ <;> first | (intro _; clear_value a) | subst a)
    | (extract_lets +onlyGivenNames a; subst a)
    | intro _
    | with_reducible apply State.addFreed_keep b
    | with_reducible apply Keep.ite
    | with_reducible apply Keep.cond
    | with_reducible apply Keep.foldl
    | split
    | with_reducible refine KeepBase.lit b rfl rfl rfl rfl rfl ?_
    | with_reducible refine KeepBase.litPool b rfl rfl rfl rfl rfl ?_

theorem State.sendAck_keep (b : KeepBase P) (r : KeepRegs P) (s x1) (h : P s) : P (State.sendAck s x1) := by
  unfold State.sendAck
  repeat' first
    | with_reducible assumption
    | (extract_lets +onlyGivenNames a; refine (?_ : P a → _) ?_ <;> first | (intro _; clear_value a) | subst a)
    | (extract_lets +onlyGivenNames a; refine (?_ : P a.1 → _) ?_ <;> first | (intro _; clear_value a) | subst a)
    | (extract_lets +onlyGivenNames a; refine (?_ : P a.2 → _) ?_ <;> first | (intro _; clear_value a) | subst a)
    | (extract_lets +onlyGivenNames a; subst a)
    | intro _
    | with_reducible apply State.stage_keep b r
    | with_reducible apply Keep.ite
    | with_reducible apply Keep.cond
    | with_reducible apply Keep.foldl
    | split
    | with_reducible refine KeepBase.lit b rfl rfl rfl rfl rfl ?_
    | with_reducible refine KeepBase.litPool b rfl rfl rfl rfl rfl ?_

theorem State.setFlowIn_keep (b : KeepBase P) (s x1) (h : P s) : P (State.setFlowIn s x1) := by
  unfold State.setFlowIn
  repeat' first
    | with_reducible assumption
    | (extract_lets +onlyGivenNames a; refine (?_ : P a → _) ?_ <;> first | (intro _; clear_value a) | subst a)
    | (extract_lets +onlyGivenNames a; refine (?_ : P a.1 → _) ?_ <;> first | (intro _; clear_value a) | subst a)
    | (extract_lets +onlyGivenNames a; refine (?_ : P a.2 → _) ?_ <;> first | (intro _; clear_value a) | subst a)
    | (extract_lets +onlyGivenNames a; subst a)
    | intro _
    | with_reducible apply Keep.ite
    | with_reducible apply Keep.cond
    | with_reducible apply Keep.foldl
    | split
    | with_reducible refine KeepBase.lit b rfl rfl rfl rfl rfl ?_
    | with_reducible refine KeepBase.litPool b rfl rfl rfl rfl rfl ?_

theorem State.ackNow_keep (b : KeepBase P) (r : KeepRegs P) (s x1) (h : P s) : P (State.ackNow s x1) := by
  unfold State.ackNow
  repeat' first
    | with_reducible assumption
    | (extract_lets +onlyGivenNames a; refine (?_ : P a → _) ?_ <;> first | (intro _; clear_value a) | subst a)
    | (extract_lets +onlyGivenNames a; refine (?_ : P a.1 → _) ?_ <;> first | (intro _; clear_value a) | subst a)
    | (extract_lets +onlyGivenNames a; refine (?_ : P a.2 → _) ?_ <;> first | (intro _; clear_value a) | subst a)
    | (extract_lets +onlyGivenNames a; subst a)
    | intro _
    | with_reducible apply State.setFlowIn_keep b
    | with_reducible apply State.sendAck_keep b r
    | with_reducible apply Keep.ite
    | with_reducible apply Keep.cond
    | with_reducible apply Keep.foldl
    | split
    | with_reducible refine KeepBase.lit b rfl rfl rfl rfl rfl ?_
    | with_reducible refine KeepBase.litPool b rfl rfl rfl rfl rfl ?_

theorem State.stageIn_keep (b : KeepBase P) (s x1 x2 x3 x4) (h : P s) : P (State.stageIn s x1 x2 x3 x4) := by
  unfold State.stageIn
  repeat' first
    | with_reducible assumption
    | (extract_lets +onlyGivenNames a; refine (?_ : P a → _) ?_ <;> first | (intro _; clear_value a) | subst a)
    | (extract_lets +onlyGivenNames a; refine (?_ : P a.1 → _) ?_ <;> first | (intro _; clear_value a) | subst a)
    | (extract_lets +onlyGivenNames a; refine (?_ : P a.2 → _) ?_ <;> first | (intro _; clear_value a) | subst a)
    | (extract_lets +onlyGivenNames a; subst a)
    | intro _
    | with_reducible apply Keep.ite
    | with_reducible apply Keep.cond
    | with_reducible apply Keep.foldl
    | split
    | with_reducible refine KeepBase.lit b rfl rfl rfl rfl rfl ?_
    | with_reducible refine KeepBase.litPool b rfl rfl rfl rfl rfl ?_

theorem State.releaseHeld_keep (b : KeepBase P) (s x1 x2 x3) (h : P s) : P (State.releaseHeld s x1 x2 x3) := by
  unfold State.releaseHeld
  repeat' first
    | with_reducible assumption
    | (extract_lets +onlyGivenNames a; refine (?_ : P a → _) ?_ <;> first | (intro _; clear_value a) | subst a)
    | (extract_lets +onlyGivenNames a; refine (?_ : P a.1 → _) ?_ <;> first | (intro _; clear_value a) | subst a)
    | (extract_lets +onlyGivenNames a; refine (?_ : P a.2 → _) ?_ <;> first | (intro _; clear_value a) | subst a)
    | (extract_lets +onlyGivenNames a; subst a)
    | intro _
    | with_reducible apply Keep.ite
    | with_reducible apply Keep.cond
    | with_reducible apply Keep.foldl
    | split
    | with_reducible refine KeepBase.lit b rfl rfl rfl rfl rfl ?_
    | with_reducible refine KeepBase.litPool b rfl rfl rfl rfl rfl ?_

theorem State.takeCells_keep (r : KeepRegs P) (s x1 x2 x3) (h : P s) : P (State.takeCells s x1 x2 x3) := by
  unfold State.takeCells
  repeat' first
    | with_reducible assumption
    | (extract_lets +onlyGivenNames a; refine (?_ : P a → _) ?_ <;> first | (intro _; clear_value a) | subst a)
    | (extract_lets +onlyGivenNames a; refine (?_ : P a.1 → _) ?_ <;> first | (intro _; clear_value a) | subst a)
    | (extract_lets +onlyGivenNames a; refine (?_ : P a.2 → _) ?_ <;> first | (intro _; clear_value a) | subst a)
    | (extract_lets +onlyGivenNames a; subst a)
    | intro _
    | with_reducible apply State.put_keep r
    | with_reducible apply Keep.ite
    | with_reducible apply Keep.cond
    | with_reducible apply Keep.foldl
    | split

theorem State.freeCells_keep (r : KeepRegs P) (s x1 x2 x3) (h : P s) : P (State.freeCells s x1 x2 x3) := by
  unfold State.freeCells
  repeat' first
    | with_reducible assumption
    | (extract_lets +onlyGivenNames a; refine (?_ : P a → _) ?_ <;> first | (intro _; clear_value a) | subst a)
    | (extract_lets +onlyGivenNames a; refine (?_ : P a.1 → _) ?_ <;> first | (intro _; clear_value a) | subst a)
    | (extract_lets +onlyGivenNames a; refine (?_ : P a.2 → _) ?_ <;> first | (intro _; clear_value a) | subst a)
    | (extract_lets +onlyGivenNames a; subst a)
    | intro _
    | with_reducible apply State.put_keep r
    | with_reducible apply Keep.ite
    | with_reducible apply Keep.cond
    | with_reducible apply Keep.foldl
    | split

theorem State.syncGroups_keep (r : KeepRegs P) (s) (h : P s) : P (State.syncGroups s) := by
  unfold State.syncGroups
  repeat' first
    | with_reducible assumption
    | (extract_lets +onlyGivenNames a; refine (?_ : P a → _) ?_ <;> first | (intro _; clear_value a) | subst a)
    | (extract_lets +onlyGivenNames a; refine (?_ : P a.1 → _) ?_ <;> first | (intro _; clear_value a) | subst a)
    | (extract_lets +onlyGivenNames a; refine (?_ : P a.2 → _) ?_ <;> first | (intro _; clear_value a) | subst a)
    | (extract_lets +onlyGivenNames a; subst a)
    | intro _
    | with_reducible apply State.put_keep r
    | with_reducible apply Keep.ite
    | with_reducible apply Keep.cond
    | with_reducible apply Keep.foldl
    | split

theorem State.bankDrained_keep (b : KeepBase P) (r : KeepRegs P) (s x1) (h : P s) : P (State.bankDrained s x1) := by
  unfold State.bankDrained
  repeat' first
    | with_reducible assumption
    | (extract_lets +onlyGivenNames a; refine (?_ : P a → _) ?_ <;> first | (intro _; clear_value a) | subst a)
    | (extract_lets +onlyGivenNames a; refine (?_ : P a.1 → _) ?_ <;> first | (intro _; clear_value a) | subst a)
    | (extract_lets +onlyGivenNames a; refine (?_ : P a.2 → _) ?_ <;> first | (intro _; clear_value a) | subst a)
    | (extract_lets +onlyGivenNames a; subst a)
    | intro _
    | with_reducible apply State.put_keep r
    | with_reducible apply State.syncGroups_keep r
    | with_reducible apply State.degrade_keep b r
    | with_reducible apply Keep.ite
    | with_reducible apply Keep.cond
    | with_reducible apply Keep.foldl
    | split
    | with_reducible refine KeepBase.lit b rfl rfl rfl rfl rfl ?_
    | with_reducible refine KeepBase.litPool b rfl rfl rfl rfl rfl ?_

theorem State.finishDrains_keep (b : KeepBase P) (r : KeepRegs P) (s) (h : P s) : P (State.finishDrains s) := by
  unfold State.finishDrains
  repeat' first
    | with_reducible assumption
    | (extract_lets +onlyGivenNames a; refine (?_ : P a → _) ?_ <;> first | (intro _; clear_value a) | subst a)
    | (extract_lets +onlyGivenNames a; refine (?_ : P a.1 → _) ?_ <;> first | (intro _; clear_value a) | subst a)
    | (extract_lets +onlyGivenNames a; refine (?_ : P a.2 → _) ?_ <;> first | (intro _; clear_value a) | subst a)
    | (extract_lets +onlyGivenNames a; subst a)
    | intro _
    | with_reducible apply State.bankDrained_keep b r
    | with_reducible apply Keep.ite
    | with_reducible apply Keep.cond
    | with_reducible apply Keep.foldl
    | split
    | with_reducible refine KeepBase.lit b rfl rfl rfl rfl rfl ?_
    | with_reducible refine KeepBase.litPool b rfl rfl rfl rfl rfl ?_

theorem State.retireBank_keep (b : KeepBase P) (r : KeepRegs P) (s x1) (h : P s) : P (State.retireBank s x1) := by
  unfold State.retireBank
  repeat' first
    | with_reducible assumption
    | (extract_lets +onlyGivenNames a; refine (?_ : P a → _) ?_ <;> first | (intro _; clear_value a) | subst a)
    | (extract_lets +onlyGivenNames a; refine (?_ : P a.1 → _) ?_ <;> first | (intro _; clear_value a) | subst a)
    | (extract_lets +onlyGivenNames a; refine (?_ : P a.2 → _) ?_ <;> first | (intro _; clear_value a) | subst a)
    | (extract_lets +onlyGivenNames a; subst a)
    | intro _
    | with_reducible apply State.log_keep b r
    | with_reducible apply State.put_keep r
    | with_reducible apply State.finishDrains_keep b r
    | with_reducible apply State.syncGroups_keep r
    | with_reducible apply Keep.ite
    | with_reducible apply Keep.cond
    | with_reducible apply Keep.foldl
    | split
    | with_reducible refine KeepBase.lit b rfl rfl rfl rfl rfl ?_
    | with_reducible refine KeepBase.litPool b rfl rfl rfl rfl rfl ?_

theorem State.markSojourn_keep (r : KeepRegs P) (s x1 x2) (h : P s) : P (State.markSojourn s x1 x2) := by
  unfold State.markSojourn
  repeat' first
    | with_reducible assumption
    | (extract_lets +onlyGivenNames a; refine (?_ : P a → _) ?_ <;> first | (intro _; clear_value a) | subst a)
    | (extract_lets +onlyGivenNames a; refine (?_ : P a.1 → _) ?_ <;> first | (intro _; clear_value a) | subst a)
    | (extract_lets +onlyGivenNames a; refine (?_ : P a.2 → _) ?_ <;> first | (intro _; clear_value a) | subst a)
    | (extract_lets +onlyGivenNames a; subst a)
    | intro _
    | with_reducible apply State.put_keep r
    | with_reducible apply Keep.ite
    | with_reducible apply Keep.cond
    | with_reducible apply Keep.foldl
    | split

theorem State.syncBuffer_keep (b : KeepBase P) (r : KeepRegs P) (s) (h : P s) : P (State.syncBuffer s) := by
  unfold State.syncBuffer
  repeat' first
    | with_reducible assumption
    | (extract_lets +onlyGivenNames a; refine (?_ : P a → _) ?_ <;> first | (intro _; clear_value a) | subst a)
    | (extract_lets +onlyGivenNames a; refine (?_ : P a.1 → _) ?_ <;> first | (intro _; clear_value a) | subst a)
    | (extract_lets +onlyGivenNames a; refine (?_ : P a.2 → _) ?_ <;> first | (intro _; clear_value a) | subst a)
    | (extract_lets +onlyGivenNames a; subst a)
    | intro _
    | with_reducible apply State.finishDrains_keep b r
    | with_reducible apply State.put_keep r
    | with_reducible apply Keep.ite
    | with_reducible apply Keep.cond
    | with_reducible apply Keep.foldl
    | split
    | with_reducible refine KeepBase.lit b rfl rfl rfl rfl rfl ?_
    | with_reducible refine KeepBase.litPool b rfl rfl rfl rfl rfl ?_

theorem State.dropFrame_keep (b : KeepBase P) (r : KeepRegs P) (s x1) (h : P s) : P (State.dropFrame s x1) := by
  unfold State.dropFrame
  repeat' first
    | with_reducible assumption
    | (extract_lets +onlyGivenNames a; refine (?_ : P a → _) ?_ <;> first | (intro _; clear_value a) | subst a)
    | (extract_lets +onlyGivenNames a; refine (?_ : P a.1 → _) ?_ <;> first | (intro _; clear_value a) | subst a)
    | (extract_lets +onlyGivenNames a; refine (?_ : P a.2 → _) ?_ <;> first | (intro _; clear_value a) | subst a)
    | (extract_lets +onlyGivenNames a; subst a)
    | intro _
    | with_reducible apply State.markSojourn_keep r
    | with_reducible apply State.freeCells_keep r
    | with_reducible apply Keep.ite
    | with_reducible apply Keep.cond
    | with_reducible apply Keep.foldl
    | split
    | with_reducible refine KeepBase.lit b rfl rfl rfl rfl rfl ?_
    | with_reducible refine KeepBase.litPool b rfl rfl rfl rfl rfl ?_

theorem State.dropFrames_keep (b : KeepBase P) (r : KeepRegs P) (s x1 x2) (h : P s) : P (State.dropFrames s x1 x2) := by
  unfold State.dropFrames
  repeat' first
    | with_reducible assumption
    | (extract_lets +onlyGivenNames a; refine (?_ : P a → _) ?_ <;> first | (intro _; clear_value a) | subst a)
    | (extract_lets +onlyGivenNames a; refine (?_ : P a.1 → _) ?_ <;> first | (intro _; clear_value a) | subst a)
    | (extract_lets +onlyGivenNames a; refine (?_ : P a.2 → _) ?_ <;> first | (intro _; clear_value a) | subst a)
    | (extract_lets +onlyGivenNames a; subst a)
    | intro _
    | with_reducible apply State.dropFrame_keep b r
    | with_reducible apply State.syncBuffer_keep b r
    | with_reducible apply State.returnCredits_keep b
    | with_reducible apply Keep.ite
    | with_reducible apply Keep.cond
    | with_reducible apply Keep.foldl
    | split
    | with_reducible refine KeepBase.lit b rfl rfl rfl rfl rfl ?_
    | with_reducible refine KeepBase.litPool b rfl rfl rfl rfl rfl ?_

theorem State.releaseEgress_keep (b : KeepBase P) (r : KeepRegs P) (s x1 x2) (h : P s) : P (State.releaseEgress s x1 x2) := by
  unfold State.releaseEgress
  repeat' first
    | with_reducible assumption
    | (extract_lets +onlyGivenNames a; refine (?_ : P a → _) ?_ <;> first | (intro _; clear_value a) | subst a)
    | (extract_lets +onlyGivenNames a; refine (?_ : P a.1 → _) ?_ <;> first | (intro _; clear_value a) | subst a)
    | (extract_lets +onlyGivenNames a; refine (?_ : P a.2 → _) ?_ <;> first | (intro _; clear_value a) | subst a)
    | (extract_lets +onlyGivenNames a; subst a)
    | intro _
    | with_reducible apply State.markSojourn_keep r
    | with_reducible apply State.syncBuffer_keep b r
    | with_reducible apply State.dropFrame_keep b r
    | with_reducible apply Keep.ite
    | with_reducible apply Keep.cond
    | with_reducible apply Keep.foldl
    | split
    | with_reducible refine KeepBase.lit b rfl rfl rfl rfl rfl ?_
    | with_reducible refine KeepBase.litPool b rfl rfl rfl rfl rfl ?_

theorem State.setPassed_keep (b : KeepBase P) (s x1 x2 x3) (h : P s) : P (State.setPassed s x1 x2 x3) := by
  unfold State.setPassed
  repeat' first
    | with_reducible assumption
    | (extract_lets +onlyGivenNames a; refine (?_ : P a → _) ?_ <;> first | (intro _; clear_value a) | subst a)
    | (extract_lets +onlyGivenNames a; refine (?_ : P a.1 → _) ?_ <;> first | (intro _; clear_value a) | subst a)
    | (extract_lets +onlyGivenNames a; refine (?_ : P a.2 → _) ?_ <;> first | (intro _; clear_value a) | subst a)
    | (extract_lets +onlyGivenNames a; subst a)
    | intro _
    | with_reducible apply Keep.ite
    | with_reducible apply Keep.cond
    | with_reducible apply Keep.foldl
    | split
    | with_reducible refine KeepBase.lit b rfl rfl rfl rfl rfl ?_
    | with_reducible refine KeepBase.litPool b rfl rfl rfl rfl rfl ?_

theorem State.discardHeld_keep (b : KeepBase P) (r : KeepRegs P) (s x1 x2) (h : P s) : P (State.discardHeld s x1 x2) := by
  unfold State.discardHeld
  repeat' first
    | with_reducible assumption
    | (extract_lets +onlyGivenNames a; refine (?_ : P a → _) ?_ <;> first | (intro _; clear_value a) | subst a)
    | (extract_lets +onlyGivenNames a; refine (?_ : P a.1 → _) ?_ <;> first | (intro _; clear_value a) | subst a)
    | (extract_lets +onlyGivenNames a; refine (?_ : P a.2 → _) ?_ <;> first | (intro _; clear_value a) | subst a)
    | (extract_lets +onlyGivenNames a; subst a)
    | intro _
    | with_reducible apply State.dropFrames_keep b r
    | with_reducible apply Keep.ite
    | with_reducible apply Keep.cond
    | with_reducible apply Keep.foldl
    | split
    | with_reducible refine KeepBase.lit b rfl rfl rfl rfl rfl ?_
    | with_reducible refine KeepBase.litPool b rfl rfl rfl rfl rfl ?_

theorem State.atEndpoint_keep (b : KeepBase P) (r : KeepRegs P) (s x1 x2 x3) (h : P s) : P (State.atEndpoint s x1 x2 x3) := by
  unfold State.atEndpoint
  repeat' first
    | with_reducible assumption
    | (extract_lets +onlyGivenNames a; refine (?_ : P a → _) ?_ <;> first | (intro _; clear_value a) | subst a)
    | (extract_lets +onlyGivenNames a; refine (?_ : P a.1 → _) ?_ <;> first | (intro _; clear_value a) | subst a)
    | (extract_lets +onlyGivenNames a; refine (?_ : P a.2 → _) ?_ <;> first | (intro _; clear_value a) | subst a)
    | (extract_lets +onlyGivenNames a; subst a)
    | intro _
    | with_reducible apply State.stageIn_keep b
    | with_reducible apply State.setPassed_keep b
    | with_reducible apply State.discardHeld_keep b r
    | with_reducible apply State.syncBuffer_keep b r
    | with_reducible apply State.releaseHeld_keep b
    | with_reducible apply State.bump_keep r
    | with_reducible apply Keep.ite
    | with_reducible apply Keep.cond
    | with_reducible apply Keep.foldl
    | split
    | with_reducible refine KeepBase.lit b rfl rfl rfl rfl rfl ?_
    | with_reducible refine KeepBase.litPool b rfl rfl rfl rfl rfl ?_

theorem State.deliverLocal_keep (b : KeepBase P) (r : KeepRegs P) (s x1 x2 x3) (h : P s) : P (State.deliverLocal s x1 x2 x3) := by
  unfold State.deliverLocal
  repeat' first
    | with_reducible assumption
    | (extract_lets +onlyGivenNames a; refine (?_ : P a → _) ?_ <;> first | (intro _; clear_value a) | subst a)
    | (extract_lets +onlyGivenNames a; refine (?_ : P a.1 → _) ?_ <;> first | (intro _; clear_value a) | subst a)
    | (extract_lets +onlyGivenNames a; refine (?_ : P a.2 → _) ?_ <;> first | (intro _; clear_value a) | subst a)
    | (extract_lets +onlyGivenNames a; subst a)
    | intro _
    | with_reducible apply State.stageIn_keep b
    | with_reducible apply State.releaseHeld_keep b
    | with_reducible apply State.ackNow_keep b r
    | with_reducible apply State.setFlowIn_keep b
    | with_reducible apply State.syncBuffer_keep b r
    | with_reducible apply Keep.ite
    | with_reducible apply Keep.cond
    | with_reducible apply Keep.foldl
    | split
    | with_reducible refine KeepBase.lit b rfl rfl rfl rfl rfl ?_
    | with_reducible refine KeepBase.litPool b rfl rfl rfl rfl rfl ?_

theorem State.atModule_keep (b : KeepBase P) (r : KeepRegs P) (s x1 x2) (h : P s) : P (State.atModule s x1 x2) := by
  unfold State.atModule
  repeat' first
    | with_reducible assumption
    | (extract_lets +onlyGivenNames a; refine (?_ : P a → _) ?_ <;> first | (intro _; clear_value a) | subst a)
    | (extract_lets +onlyGivenNames a; refine (?_ : P a.1 → _) ?_ <;> first | (intro _; clear_value a) | subst a)
    | (extract_lets +onlyGivenNames a; refine (?_ : P a.2 → _) ?_ <;> first | (intro _; clear_value a) | subst a)
    | (extract_lets +onlyGivenNames a; subst a)
    | intro _
    | with_reducible apply State.deliverLocal_keep b r
    | with_reducible apply State.discardHeld_keep b r
    | with_reducible apply State.setFlowIn_keep b
    | with_reducible apply State.syncBuffer_keep b r
    | with_reducible apply State.stageIn_keep b
    | with_reducible apply State.bump_keep r
    | with_reducible apply Keep.ite
    | with_reducible apply Keep.cond
    | with_reducible apply Keep.foldl
    | split
    | with_reducible refine KeepBase.lit b rfl rfl rfl rfl rfl ?_
    | with_reducible refine KeepBase.litPool b rfl rfl rfl rfl rfl ?_

theorem State.answerDropped_keep (b : KeepBase P) (r : KeepRegs P) (s x1 x2) (h : P s) : P (State.answerDropped s x1 x2) := by
  unfold State.answerDropped
  repeat' first
    | with_reducible assumption
    | (extract_lets +onlyGivenNames a; refine (?_ : P a → _) ?_ <;> first | (intro _; clear_value a) | subst a)
    | (extract_lets +onlyGivenNames a; refine (?_ : P a.1 → _) ?_ <;> first | (intro _; clear_value a) | subst a)
    | (extract_lets +onlyGivenNames a; refine (?_ : P a.2 → _) ?_ <;> first | (intro _; clear_value a) | subst a)
    | (extract_lets +onlyGivenNames a; subst a)
    | intro _
    | with_reducible apply State.stage_keep b r
    | with_reducible apply Keep.ite
    | with_reducible apply Keep.cond
    | with_reducible apply Keep.foldl
    | split
    | with_reducible refine KeepBase.lit b rfl rfl rfl rfl rfl ?_
    | with_reducible refine KeepBase.litPool b rfl rfl rfl rfl rfl ?_

theorem State.late_keep (b : KeepBase P) (r : KeepRegs P) (s x1) (h : P s) : P (State.late s x1) := by
  unfold State.late
  repeat' first
    | with_reducible assumption
    | (extract_lets +onlyGivenNames a; refine (?_ : P a → _) ?_ <;> first | (intro _; clear_value a) | subst a)
    | (extract_lets +onlyGivenNames a; refine (?_ : P a.1 → _) ?_ <;> first | (intro _; clear_value a) | subst a)
    | (extract_lets +onlyGivenNames a; refine (?_ : P a.2 → _) ?_ <;> first | (intro _; clear_value a) | subst a)
    | (extract_lets +onlyGivenNames a; subst a)
    | intro _
    | with_reducible apply State.bump_keep r
    | with_reducible apply State.answerDropped_keep b r
    | with_reducible apply Keep.ite
    | with_reducible apply Keep.cond
    | with_reducible apply Keep.foldl
    | split
    | with_reducible refine KeepBase.lit b rfl rfl rfl rfl rfl ?_
    | with_reducible refine KeepBase.litPool b rfl rfl rfl rfl rfl ?_

theorem State.noteStamped_keep (b : KeepBase P) (s x1) (h : P s) : P (State.noteStamped s x1) := by
  unfold State.noteStamped
  repeat' first
    | with_reducible assumption
    | (extract_lets +onlyGivenNames a; refine (?_ : P a → _) ?_ <;> first | (intro _; clear_value a) | subst a)
    | (extract_lets +onlyGivenNames a; refine (?_ : P a.1 → _) ?_ <;> first | (intro _; clear_value a) | subst a)
    | (extract_lets +onlyGivenNames a; refine (?_ : P a.2 → _) ?_ <;> first | (intro _; clear_value a) | subst a)
    | (extract_lets +onlyGivenNames a; subst a)
    | intro _
    | with_reducible apply Keep.ite
    | with_reducible apply Keep.cond
    | with_reducible apply Keep.foldl
    | split
    | with_reducible refine KeepBase.lit b rfl rfl rfl rfl rfl ?_
    | with_reducible refine KeepBase.litPool b rfl rfl rfl rfl rfl ?_

theorem State.ackPasses_keep (b : KeepBase P) (s x1) (h : P s) : P (State.ackPasses s x1) := by
  unfold State.ackPasses
  repeat' first
    | with_reducible assumption
    | (extract_lets +onlyGivenNames a; refine (?_ : P a → _) ?_ <;> first | (intro _; clear_value a) | subst a)
    | (extract_lets +onlyGivenNames a; refine (?_ : P a.1 → _) ?_ <;> first | (intro _; clear_value a) | subst a)
    | (extract_lets +onlyGivenNames a; refine (?_ : P a.2 → _) ?_ <;> first | (intro _; clear_value a) | subst a)
    | (extract_lets +onlyGivenNames a; subst a)
    | intro _
    | with_reducible apply Keep.ite
    | with_reducible apply Keep.cond
    | with_reducible apply Keep.foldl
    | split
    | with_reducible refine KeepBase.lit b rfl rfl rfl rfl rfl ?_
    | with_reducible refine KeepBase.litPool b rfl rfl rfl rfl rfl ?_

theorem State.fenceDrop_keep (b : KeepBase P) (r : KeepRegs P) (s x1) (h : P s) : P (State.fenceDrop s x1) := by
  unfold State.fenceDrop
  repeat' first
    | with_reducible assumption
    | (extract_lets +onlyGivenNames a; refine (?_ : P a → _) ?_ <;> first | (intro _; clear_value a) | subst a)
    | (extract_lets +onlyGivenNames a; refine (?_ : P a.1 → _) ?_ <;> first | (intro _; clear_value a) | subst a)
    | (extract_lets +onlyGivenNames a; refine (?_ : P a.2 → _) ?_ <;> first | (intro _; clear_value a) | subst a)
    | (extract_lets +onlyGivenNames a; subst a)
    | intro _
    | with_reducible apply State.bump_keep r
    | with_reducible apply State.answerDropped_keep b r
    | with_reducible apply Keep.ite
    | with_reducible apply Keep.cond
    | with_reducible apply Keep.foldl
    | split
    | with_reducible refine KeepBase.lit b rfl rfl rfl rfl rfl ?_
    | with_reducible refine KeepBase.litPool b rfl rfl rfl rfl rfl ?_

theorem State.toPort_keep (b : KeepBase P) (r : KeepRegs P) (s x1 x2 x3) (h : P s) : P (State.toPort s x1 x2 x3) := by
  unfold State.toPort
  repeat' first
    | with_reducible assumption
    | (extract_lets +onlyGivenNames a; refine (?_ : P a → _) ?_ <;> first | (intro _; clear_value a) | subst a)
    | (extract_lets +onlyGivenNames a; refine (?_ : P a.1 → _) ?_ <;> first | (intro _; clear_value a) | subst a)
    | (extract_lets +onlyGivenNames a; refine (?_ : P a.2 → _) ?_ <;> first | (intro _; clear_value a) | subst a)
    | (extract_lets +onlyGivenNames a; subst a)
    | intro _
    | with_reducible apply State.fenceDrop_keep b r
    | with_reducible apply State.stageIn_keep b
    | with_reducible apply State.late_keep b r
    | with_reducible apply State.bump_keep r
    | with_reducible apply State.ackPasses_keep b
    | with_reducible apply State.atEndpoint_keep b r
    | with_reducible apply Keep.ite
    | with_reducible apply Keep.cond
    | with_reducible apply Keep.foldl
    | split
    | with_reducible refine KeepBase.lit b rfl rfl rfl rfl rfl ?_
    | with_reducible refine KeepBase.litPool b rfl rfl rfl rfl rfl ?_

theorem State.routeFrame_keep (b : KeepBase P) (r : KeepRegs P) (s x1 x2) (h : P s) : P (State.routeFrame s x1 x2) := by
  unfold State.routeFrame
  repeat' first
    | with_reducible assumption
    | (extract_lets +onlyGivenNames a; refine (?_ : P a → _) ?_ <;> first | (intro _; clear_value a) | subst a)
    | (extract_lets +onlyGivenNames a; refine (?_ : P a.1 → _) ?_ <;> first | (intro _; clear_value a) | subst a)
    | (extract_lets +onlyGivenNames a; refine (?_ : P a.2 → _) ?_ <;> first | (intro _; clear_value a) | subst a)
    | (extract_lets +onlyGivenNames a; subst a)
    | intro _
    | with_reducible apply State.bump_keep r
    | with_reducible apply State.stageIn_keep b
    | with_reducible apply State.late_keep b r
    | with_reducible apply State.atModule_keep b r
    | with_reducible apply State.noRoute_keep r
    | with_reducible apply State.toPort_keep b r
    | with_reducible apply Keep.ite
    | with_reducible apply Keep.cond
    | with_reducible apply Keep.foldl
    | split
    | with_reducible refine KeepBase.lit b rfl rfl rfl rfl rfl ?_
    | with_reducible refine KeepBase.litPool b rfl rfl rfl rfl rfl ?_

theorem State.fromEndpoint_keep (b : KeepBase P) (r : KeepRegs P) (s x1 x2) (h : P s) : P (State.fromEndpoint s x1 x2) := by
  unfold State.fromEndpoint
  repeat' first
    | with_reducible assumption
    | (extract_lets +onlyGivenNames a; refine (?_ : P a → _) ?_ <;> first | (intro _; clear_value a) | subst a)
    | (extract_lets +onlyGivenNames a; refine (?_ : P a.1 → _) ?_ <;> first | (intro _; clear_value a) | subst a)
    | (extract_lets +onlyGivenNames a; refine (?_ : P a.2 → _) ?_ <;> first | (intro _; clear_value a) | subst a)
    | (extract_lets +onlyGivenNames a; subst a)
    | intro _
    | with_reducible apply State.fenceDrop_keep b r
    | with_reducible apply State.bump_keep r
    | with_reducible apply State.answerDropped_keep b r
    | with_reducible apply State.routeFrame_keep b r
    | with_reducible apply State.noteStamped_keep b
    | with_reducible apply Keep.ite
    | with_reducible apply Keep.cond
    | with_reducible apply Keep.foldl
    | split
    | with_reducible refine KeepBase.lit b rfl rfl rfl rfl rfl ?_
    | with_reducible refine KeepBase.litPool b rfl rfl rfl rfl rfl ?_

theorem State.pcsFound_keep (b : KeepBase P) (s x1 x2) (h : P s) : P (State.pcsFound s x1 x2) := by
  unfold State.pcsFound
  repeat' first
    | with_reducible assumption
    | (extract_lets +onlyGivenNames a; refine (?_ : P a → _) ?_ <;> first | (intro _; clear_value a) | subst a)
    | (extract_lets +onlyGivenNames a; refine (?_ : P a.1 → _) ?_ <;> first | (intro _; clear_value a) | subst a)
    | (extract_lets +onlyGivenNames a; refine (?_ : P a.2 → _) ?_ <;> first | (intro _; clear_value a) | subst a)
    | (extract_lets +onlyGivenNames a; subst a)
    | intro _
    | with_reducible apply Keep.ite
    | with_reducible apply Keep.cond
    | with_reducible apply Keep.foldl
    | split
    | with_reducible refine KeepBase.lit b rfl rfl rfl rfl rfl ?_
    | with_reducible refine KeepBase.litPool b rfl rfl rfl rfl rfl ?_

theorem State.takeFrame_keep (b : KeepBase P) (r : KeepRegs P) (s x1 x2) (h : P s) : P (State.takeFrame s x1 x2) := by
  unfold State.takeFrame
  repeat' first
    | with_reducible assumption
    | (extract_lets +onlyGivenNames a; refine (?_ : P a → _) ?_ <;> first | (intro _; clear_value a) | subst a)
    | (extract_lets +onlyGivenNames a; refine (?_ : P a.1 → _) ?_ <;> first | (intro _; clear_value a) | subst a)
    | (extract_lets +onlyGivenNames a; refine (?_ : P a.2 → _) ?_ <;> first | (intro _; clear_value a) | subst a)
    | (extract_lets +onlyGivenNames a; subst a)
    | intro _
    | with_reducible apply State.bump_keep r
    | with_reducible apply State.fromEndpoint_keep b r
    | with_reducible apply State.routeFrame_keep b r
    | with_reducible apply Keep.ite
    | with_reducible apply Keep.cond
    | with_reducible apply Keep.foldl
    | split
    | with_reducible refine KeepBase.lit b rfl rfl rfl rfl rfl ?_
    | with_reducible refine KeepBase.litPool b rfl rfl rfl rfl rfl ?_

theorem State.forward_keep (b : KeepBase P) (r : KeepRegs P) (s x1 x2) (h : P s) : P (State.forward s x1 x2) := by
  unfold State.forward
  repeat' first
    | with_reducible assumption
    | (extract_lets +onlyGivenNames a; refine (?_ : P a → _) ?_ <;> first | (intro _; clear_value a) | subst a)
    | (extract_lets +onlyGivenNames a; refine (?_ : P a.1 → _) ?_ <;> first | (intro _; clear_value a) | subst a)
    | (extract_lets +onlyGivenNames a; refine (?_ : P a.2 → _) ?_ <;> first | (intro _; clear_value a) | subst a)
    | (extract_lets +onlyGivenNames a; subst a)
    | intro _
    | with_reducible apply State.pcsFound_keep b
    | with_reducible apply State.bump_keep r
    | with_reducible apply State.returnCredits_keep b
    | with_reducible apply State.takeFrame_keep b r
    | with_reducible apply Keep.ite
    | with_reducible apply Keep.cond
    | with_reducible apply Keep.foldl
    | split
    | with_reducible refine KeepBase.lit b rfl rfl rfl rfl rfl ?_
    | with_reducible refine KeepBase.litPool b rfl rfl rfl rfl rfl ?_

theorem execFrameForward_keep (b : KeepBase P) (r : KeepRegs P) (x0 x1 s) (h : P s) : ∀ t, (execFrameForward x0 x1 s) = .next t → P t := by
  unfold execFrameForward
  intro t ht
  cases ht
  repeat' first
    | with_reducible assumption
    | (extract_lets +onlyGivenNames a; refine (?_ : P a → _) ?_ <;> first | (intro _; clear_value a) | subst a)
    | (extract_lets +onlyGivenNames a; refine (?_ : P a.1 → _) ?_ <;> first | (intro _; clear_value a) | subst a)
    | (extract_lets +onlyGivenNames a; refine (?_ : P a.2 → _) ?_ <;> first | (intro _; clear_value a) | subst a)
    | (extract_lets +onlyGivenNames a; subst a)
    | intro _
    | with_reducible apply whenUp_keep 
    | with_reducible apply State.forward_keep b r
    | with_reducible apply Keep.ite
    | with_reducible apply Keep.cond
    | with_reducible apply Keep.foldl
    | split
    | with_reducible refine KeepBase.lit b rfl rfl rfl rfl rfl ?_
    | with_reducible refine KeepBase.litPool b rfl rfl rfl rfl rfl ?_

theorem execReseqGapTimeout_keep (b : KeepBase P) (r : KeepRegs P) (x0 x1 s) (h : P s) : ∀ t, (execReseqGapTimeout x0 x1 s) = .next t → P t := by
  unfold execReseqGapTimeout
  intro t ht
  cases ht
  repeat' first
    | with_reducible assumption
    | (extract_lets +onlyGivenNames a; refine (?_ : P a → _) ?_ <;> first | (intro _; clear_value a) | subst a)
    | (extract_lets +onlyGivenNames a; refine (?_ : P a.1 → _) ?_ <;> first | (intro _; clear_value a) | subst a)
    | (extract_lets +onlyGivenNames a; refine (?_ : P a.2 → _) ?_ <;> first | (intro _; clear_value a) | subst a)
    | (extract_lets +onlyGivenNames a; subst a)
    | intro _
    | with_reducible apply whenUp_keep 
    | with_reducible apply State.syncBuffer_keep b r
    | with_reducible apply State.setPassed_keep b
    | with_reducible apply State.releaseHeld_keep b
    | with_reducible apply State.discardHeld_keep b r
    | with_reducible apply Keep.ite
    | with_reducible apply Keep.cond
    | with_reducible apply Keep.foldl
    | split
    | with_reducible refine KeepBase.lit b rfl rfl rfl rfl rfl ?_
    | with_reducible refine KeepBase.litPool b rfl rfl rfl rfl rfl ?_

theorem execReseqFlowEvict_keep (b : KeepBase P) (x0 x1 s) (h : P s) : ∀ t, (execReseqFlowEvict x0 x1 s) = .next t → P t := by
  unfold execReseqFlowEvict
  intro t ht
  cases ht
  repeat' first
    | with_reducible assumption
    | (extract_lets +onlyGivenNames a; refine (?_ : P a → _) ?_ <;> first | (intro _; clear_value a) | subst a)
    | (extract_lets +onlyGivenNames a; refine (?_ : P a.1 → _) ?_ <;> first | (intro _; clear_value a) | subst a)
    | (extract_lets +onlyGivenNames a; refine (?_ : P a.2 → _) ?_ <;> first | (intro _; clear_value a) | subst a)
    | (extract_lets +onlyGivenNames a; subst a)
    | intro _
    | with_reducible apply whenUp_keep 
    | with_reducible apply Keep.ite
    | with_reducible apply Keep.cond
    | with_reducible apply Keep.foldl
    | split
    | with_reducible refine KeepBase.lit b rfl rfl rfl rfl rfl ?_
    | with_reducible refine KeepBase.litPool b rfl rfl rfl rfl rfl ?_

theorem State.acked_keep (b : KeepBase P) (r : KeepRegs P) (s x1 x2) (h : P s) : P (State.acked s x1 x2) := by
  unfold State.acked
  repeat' first
    | with_reducible assumption
    | (extract_lets +onlyGivenNames a; refine (?_ : P a → _) ?_ <;> first | (intro _; clear_value a) | subst a)
    | (extract_lets +onlyGivenNames a; refine (?_ : P a.1 → _) ?_ <;> first | (intro _; clear_value a) | subst a)
    | (extract_lets +onlyGivenNames a; refine (?_ : P a.2 → _) ?_ <;> first | (intro _; clear_value a) | subst a)
    | (extract_lets +onlyGivenNames a; subst a)
    | intro _
    | with_reducible apply State.launchWaiting_keep b r
    | with_reducible apply State.setFlowOut_keep b
    | with_reducible apply Keep.ite
    | with_reducible apply Keep.cond
    | with_reducible apply Keep.foldl
    | split
    | with_reducible refine KeepBase.lit b rfl rfl rfl rfl rfl ?_
    | with_reducible refine KeepBase.litPool b rfl rfl rfl rfl rfl ?_

theorem State.resend_keep (b : KeepBase P) (r : KeepRegs P) (s x1) (h : P s) : P (State.resend s x1) := by
  unfold State.resend
  repeat' first
    | with_reducible assumption
    | (extract_lets +onlyGivenNames a; refine (?_ : P a → _) ?_ <;> first | (intro _; clear_value a) | subst a)
    | (extract_lets +onlyGivenNames a; refine (?_ : P a.1 → _) ?_ <;> first | (intro _; clear_value a) | subst a)
    | (extract_lets +onlyGivenNames a; refine (?_ : P a.2 → _) ?_ <;> first | (intro _; clear_value a) | subst a)
    | (extract_lets +onlyGivenNames a; subst a)
    | intro _
    | with_reducible apply State.stage_keep b r
    | with_reducible apply State.bump_keep r
    | with_reducible apply Keep.ite
    | with_reducible apply Keep.cond
    | with_reducible apply Keep.foldl
    | split
    | with_reducible refine KeepBase.lit b rfl rfl rfl rfl rfl ?_
    | with_reducible refine KeepBase.litPool b rfl rfl rfl rfl rfl ?_

theorem execAck_keep (b : KeepBase P) (r : KeepRegs P) (x0 s) (h : P s) : ∀ t, (execAck x0 s) = .next t → P t := by
  unfold execAck
  intro t ht
  cases ht
  repeat' first
    | with_reducible assumption
    | (extract_lets +onlyGivenNames a; refine (?_ : P a → _) ?_ <;> first | (intro _; clear_value a) | subst a)
    | (extract_lets +onlyGivenNames a; refine (?_ : P a.1 → _) ?_ <;> first | (intro _; clear_value a) | subst a)
    | (extract_lets +onlyGivenNames a; refine (?_ : P a.2 → _) ?_ <;> first | (intro _; clear_value a) | subst a)
    | (extract_lets +onlyGivenNames a; subst a)
    | intro _
    | with_reducible apply whenUp_keep 
    | with_reducible apply State.acked_keep b r
    | with_reducible apply Keep.ite
    | with_reducible apply Keep.cond
    | with_reducible apply Keep.foldl
    | split
    | with_reducible refine KeepBase.lit b rfl rfl rfl rfl rfl ?_
    | with_reducible refine KeepBase.litPool b rfl rfl rfl rfl rfl ?_

theorem State.nacked_keep (b : KeepBase P) (r : KeepRegs P) (s x1 x2) (h : P s) : P (State.nacked s x1 x2) := by
  unfold State.nacked
  repeat' first
    | with_reducible assumption
    | (extract_lets +onlyGivenNames a; refine (?_ : P a → _) ?_ <;> first | (intro _; clear_value a) | subst a)
    | (extract_lets +onlyGivenNames a; refine (?_ : P a.1 → _) ?_ <;> first | (intro _; clear_value a) | subst a)
    | (extract_lets +onlyGivenNames a; refine (?_ : P a.2 → _) ?_ <;> first | (intro _; clear_value a) | subst a)
    | (extract_lets +onlyGivenNames a; subst a)
    | intro _
    | with_reducible apply State.resend_keep b r
    | with_reducible apply State.setFlowOut_keep b
    | with_reducible apply Keep.ite
    | with_reducible apply Keep.cond
    | with_reducible apply Keep.foldl
    | split
    | with_reducible refine KeepBase.lit b rfl rfl rfl rfl rfl ?_
    | with_reducible refine KeepBase.litPool b rfl rfl rfl rfl rfl ?_

theorem execNack_keep (b : KeepBase P) (r : KeepRegs P) (x0 s) (h : P s) : ∀ t, (execNack x0 s) = .next t → P t := by
  unfold execNack
  intro t ht
  cases ht
  repeat' first
    | with_reducible assumption
    | (extract_lets +onlyGivenNames a; refine (?_ : P a → _) ?_ <;> first | (intro _; clear_value a) | subst a)
    | (extract_lets +onlyGivenNames a; refine (?_ : P a.1 → _) ?_ <;> first | (intro _; clear_value a) | subst a)
    | (extract_lets +onlyGivenNames a; refine (?_ : P a.2 → _) ?_ <;> first | (intro _; clear_value a) | subst a)
    | (extract_lets +onlyGivenNames a; subst a)
    | intro _
    | with_reducible apply whenUp_keep 
    | with_reducible apply State.nacked_keep b r
    | with_reducible apply Keep.ite
    | with_reducible apply Keep.cond
    | with_reducible apply Keep.foldl
    | split
    | with_reducible refine KeepBase.lit b rfl rfl rfl rfl rfl ?_
    | with_reducible refine KeepBase.litPool b rfl rfl rfl rfl rfl ?_

theorem execAckTimer_keep (b : KeepBase P) (r : KeepRegs P) (x0 s) (h : P s) : ∀ t, (execAckTimer x0 s) = .next t → P t := by
  unfold execAckTimer
  intro t ht
  cases ht
  repeat' first
    | with_reducible assumption
    | (extract_lets +onlyGivenNames a; refine (?_ : P a → _) ?_ <;> first | (intro _; clear_value a) | subst a)
    | (extract_lets +onlyGivenNames a; refine (?_ : P a.1 → _) ?_ <;> first | (intro _; clear_value a) | subst a)
    | (extract_lets +onlyGivenNames a; refine (?_ : P a.2 → _) ?_ <;> first | (intro _; clear_value a) | subst a)
    | (extract_lets +onlyGivenNames a; subst a)
    | intro _
    | with_reducible apply whenUp_keep 
    | with_reducible apply State.ackNow_keep b r
    | with_reducible apply Keep.ite
    | with_reducible apply Keep.cond
    | with_reducible apply Keep.foldl
    | split
    | with_reducible refine KeepBase.lit b rfl rfl rfl rfl rfl ?_
    | with_reducible refine KeepBase.litPool b rfl rfl rfl rfl rfl ?_

theorem execGapNackTimer_keep (b : KeepBase P) (r : KeepRegs P) (x0 s) (h : P s) : ∀ t, (execGapNackTimer x0 s) = .next t → P t := by
  unfold execGapNackTimer
  intro t ht
  cases ht
  repeat' first
    | with_reducible assumption
    | (extract_lets +onlyGivenNames a; refine (?_ : P a → _) ?_ <;> first | (intro _; clear_value a) | subst a)
    | (extract_lets +onlyGivenNames a; refine (?_ : P a.1 → _) ?_ <;> first | (intro _; clear_value a) | subst a)
    | (extract_lets +onlyGivenNames a; refine (?_ : P a.2 → _) ?_ <;> first | (intro _; clear_value a) | subst a)
    | (extract_lets +onlyGivenNames a; subst a)
    | intro _
    | with_reducible apply whenUp_keep 
    | with_reducible apply State.stage_keep b r
    | with_reducible apply Keep.ite
    | with_reducible apply Keep.cond
    | with_reducible apply Keep.foldl
    | split
    | with_reducible refine KeepBase.lit b rfl rfl rfl rfl rfl ?_
    | with_reducible refine KeepBase.litPool b rfl rfl rfl rfl rfl ?_

end Sys2Proof.Machine
end

