-- ==== Sys2Proof/Laws/KeepCollect.lean ====
section
/-! SUPPORT. What each operation of Machine/Collect.lean keeps: a predicate that survives the named kinds of change survives it. -/

namespace Sys2Proof.Machine

variable {P : State → Prop}

theorem State.memberComplete_keep (b : KeepBase P) (s x1) (h : P s) : P (State.memberComplete s x1) := by
  unfold State.memberComplete
  repeat' first
    | with_reducible assumption
    | (extract_lets +onlyGivenNames a; refine (?_ : P a → _) ?_ <;> first | (intro _; clear_value a) | subst a)
    | (extract_lets +onlyGivenNames a; refine (?_ : P a.1 → _) ?_ <;> first | (intro _; clear_value a) | subst a)
    | (extract_lets +onlyGivenNames a; refine (?_ : P a.2 → _) ?_ <;> first | (intro _; clear_value a) | subst a)
    | (extract_lets +onlyGivenNames a; subst a)
    | intro _
    | with_reducible apply State.updCmd_keep b
    | with_reducible apply State.updMember_keep b
    | with_reducible apply Keep.ite
    | with_reducible apply Keep.cond
    | with_reducible apply Keep.foldl
    | split
    | with_reducible refine KeepBase.lit b rfl rfl rfl rfl rfl ?_
    | with_reducible refine KeepBase.litPool b rfl rfl rfl rfl rfl ?_

theorem State.takeChunk_keep (b : KeepBase P) (s x1 x2 x3 x4 x5) (h : P s) : P (State.takeChunk s x1 x2 x3 x4 x5) := by
  unfold State.takeChunk
  repeat' first
    | with_reducible assumption
    | (extract_lets +onlyGivenNames a; refine (?_ : P a → _) ?_ <;> first | (intro _; clear_value a) | subst a)
    | (extract_lets +onlyGivenNames a; refine (?_ : P a.1 → _) ?_ <;> first | (intro _; clear_value a) | subst a)
    | (extract_lets +onlyGivenNames a; refine (?_ : P a.2 → _) ?_ <;> first | (intro _; clear_value a) | subst a)
    | (extract_lets +onlyGivenNames a; subst a)
    | intro _
    | with_reducible apply State.updMember_keep b
    | with_reducible apply State.memberComplete_keep b
    | with_reducible apply State.updCmd_keep b
    | with_reducible apply Keep.ite
    | with_reducible apply Keep.cond
    | with_reducible apply Keep.foldl
    | split
    | with_reducible refine KeepBase.lit b rfl rfl rfl rfl rfl ?_
    | with_reducible refine KeepBase.litPool b rfl rfl rfl rfl rfl ?_

theorem State.readContribution_keep (b : KeepBase P) (r : KeepRegs P) (n : KeepNear P) (s c d x m) (h : P s) : P (State.readContribution s c d x m) := by
  unfold State.readContribution
  extract_lets p2 ahead sp r2 spans0 spans at0 read1 ask ks
  have hm := fun k st dt => State.memberEnds_keep b r n s k st dt h
  have hask : ∀ (o : Option State) base y, (∀ t, o = some t → P t) → ∀ t, ask o base y = some t → P t := by
    intro o base y ho
    refine Keep.bind ho ?_
    intro s hs t ht
    split at ht
    · cases ht
      exact hs
    · exact State.askInput_keep b r _ _ _ _ _ _ hs _ ht
  clear_value ask sp spans p2 at0 read1
  split
  · exact State.memberComplete_keep b _ _ h
  · split
    · exact h
    · split
      · split
        · exact hm _ _ _
        · split
          · exact hm _ _ _
          · exact hm _ _ _
          · exact State.askAll_keep b r n _ _ _ h
          · split
            · exact Keep.pair1 (by assumption) (State.spend_keep b r _ _ _ h)
            · have h1 := Keep.pair1 (P := P) (by assumption) (State.spend_keep b r _ _ _ h)
              exact State.consumeAll_keep b _ _ _ (State.takeChunk_keep b _ _ _ _ _ _ h1)
      · split
        · exact State.takeChunk_keep b _ _ _ _ _ _ h
        · split
          · rename_i hh
            refine Keep.foldlOpt _ ?_ ks (some s) (by intro t ht; cases ht; exact h) _ hh
            intro o a ho
            exact hask _ _ _ (hask _ _ _ ho)
          · exact hm _ _ _

theorem State.lateMember_keep (b : KeepBase P) (r : KeepRegs P) (n : KeepNear P) (s x1 x2) (h : P s) : P (State.lateMember s x1 x2) := by
  unfold State.lateMember
  repeat' first
    | with_reducible assumption
    | (extract_lets +onlyGivenNames a; refine (?_ : P a → _) ?_ <;> first | (intro _; clear_value a) | subst a)
    | (extract_lets +onlyGivenNames a; refine (?_ : P a.1 → _) ?_ <;> first | (intro _; clear_value a) | subst a)
    | (extract_lets +onlyGivenNames a; refine (?_ : P a.2 → _) ?_ <;> first | (intro _; clear_value a) | subst a)
    | (extract_lets +onlyGivenNames a; subst a)
    | intro _
    | with_reducible apply State.finishWith_keep b r
    | with_reducible apply State.writeMask_keep b r n
    | with_reducible apply State.settleCmd_keep b r n
    | with_reducible apply State.updMember_keep b
    | with_reducible apply State.addCause_keep b r
    | with_reducible apply State.updCmd_keep b
    | with_reducible apply State.finish_keep b
    | with_reducible apply Keep.ite
    | with_reducible apply Keep.cond
    | with_reducible apply Keep.foldl
    | split
    | with_reducible refine KeepBase.lit b rfl rfl rfl rfl rfl ?_
    | with_reducible refine KeepBase.litPool b rfl rfl rfl rfl rfl ?_

theorem State.dstSupply_keep (b : KeepBase P) (r : KeepRegs P) (p : KeepPurser P) (s c d) (h : P s) :
    ∀ t, (State.dstSupply s c d = .wait t → P t) ∧ ∀ a e, State.dstSupply s c d = .stop t a e → P t := by
  unfold State.dstSupply
  intro t
  extract_lets m ng
  split
  · exact ⟨(fun h => by cases h), (fun _ _ h => by cases h)⟩
  · exact State.target_keep b r p _ _ _ _ h t

theorem State.reduceRow_keep (b : KeepBase P) (r : KeepRegs P) (n : KeepNear P) (p : KeepPurser P) (s x1) (h : P s) : P (State.reduceRow s x1) := by
  unfold State.reduceRow
  repeat' first
    | with_reducible assumption
    | (extract_lets +onlyGivenNames a; refine (?_ : P a → _) ?_ <;> first | (intro _; clear_value a) | subst a)
    | (extract_lets +onlyGivenNames a; refine (?_ : P a.1 → _) ?_ <;> first | (intro _; clear_value a) | subst a)
    | (extract_lets +onlyGivenNames a; refine (?_ : P a.2 → _) ?_ <;> first | (intro _; clear_value a) | subst a)
    | (extract_lets +onlyGivenNames a; subst a)
    | intro _
    | with_reducible apply State.finishWith_keep b r
    | with_reducible apply State.memberGone_keep b r n
    | with_reducible apply State.memberEnds_keep b r n
    | with_reducible apply State.enterSeq_keep b r n
    | with_reducible apply State.lateMember_keep b r n
    | with_reducible apply State.updCmd_keep b
    | with_reducible apply State.updMember_keep b
    | with_reducible apply State.failSeq_keep b r n
    | with_reducible apply State.updSeq_keep b
    | with_reducible apply State.readContribution_keep b r n
    | with_reducible refine (State.dstSupply_keep b r p _ _ _ ?_ _).1 (by assumption)
    | with_reducible refine (State.dstSupply_keep b r p _ _ _ ?_ _).2 _ _ (by assumption)
    | with_reducible apply Keep.ite
    | with_reducible apply Keep.cond
    | with_reducible apply Keep.foldl
    | split
    | with_reducible refine KeepBase.lit b rfl rfl rfl rfl rfl ?_
    | with_reducible refine KeepBase.litPool b rfl rfl rfl rfl rfl ?_

theorem execReduce_keep (b : KeepBase P) (r : KeepRegs P) (n : KeepNear P) (p : KeepPurser P) (x0 s) (h : P s) : ∀ t, (execReduce x0 s) = .next t → P t := by
  unfold execReduce
  intro t ht
  cases ht
  repeat' first
    | with_reducible assumption
    | (extract_lets +onlyGivenNames a; refine (?_ : P a → _) ?_ <;> first | (intro _; clear_value a) | subst a)
    | (extract_lets +onlyGivenNames a; refine (?_ : P a.1 → _) ?_ <;> first | (intro _; clear_value a) | subst a)
    | (extract_lets +onlyGivenNames a; refine (?_ : P a.2 → _) ?_ <;> first | (intro _; clear_value a) | subst a)
    | (extract_lets +onlyGivenNames a; subst a)
    | intro _
    | with_reducible apply whenUp_keep 
    | with_reducible apply State.retryHeld_keep b r n p
    | with_reducible apply State.reduceRow_keep b r n p
    | with_reducible apply Keep.ite
    | with_reducible apply Keep.cond
    | with_reducible apply Keep.foldl
    | split
    | with_reducible refine KeepBase.lit b rfl rfl rfl rfl rfl ?_
    | with_reducible refine KeepBase.litPool b rfl rfl rfl rfl rfl ?_

theorem State.lateFrame_keep (r : KeepRegs P) (s x1) (h : P s) : P (State.lateFrame s x1) := by
  unfold State.lateFrame
  repeat' first
    | with_reducible assumption
    | (extract_lets +onlyGivenNames a; refine (?_ : P a → _) ?_ <;> first | (intro _; clear_value a) | subst a)
    | (extract_lets +onlyGivenNames a; refine (?_ : P a.1 → _) ?_ <;> first | (intro _; clear_value a) | subst a)
    | (extract_lets +onlyGivenNames a; refine (?_ : P a.2 → _) ?_ <;> first | (intro _; clear_value a) | subst a)
    | (extract_lets +onlyGivenNames a; subst a)
    | intro _
    | with_reducible apply State.bump_keep r
    | with_reducible apply Keep.ite
    | with_reducible apply Keep.cond
    | with_reducible apply Keep.foldl
    | split

theorem State.childComplete_keep (b : KeepBase P) (s x1 x2 x3) (h : P s) : P (State.childComplete s x1 x2 x3) := by
  unfold State.childComplete
  repeat' first
    | with_reducible assumption
    | (extract_lets +onlyGivenNames a; refine (?_ : P a → _) ?_ <;> first | (intro _; clear_value a) | subst a)
    | (extract_lets +onlyGivenNames a; refine (?_ : P a.1 → _) ?_ <;> first | (intro _; clear_value a) | subst a)
    | (extract_lets +onlyGivenNames a; refine (?_ : P a.2 → _) ?_ <;> first | (intro _; clear_value a) | subst a)
    | (extract_lets +onlyGivenNames a; subst a)
    | intro _
    | with_reducible apply State.updMember_keep b
    | with_reducible apply Keep.ite
    | with_reducible apply Keep.cond
    | with_reducible apply Keep.foldl
    | split
    | with_reducible refine KeepBase.lit b rfl rfl rfl rfl rfl ?_
    | with_reducible refine KeepBase.litPool b rfl rfl rfl rfl rfl ?_

theorem State.takeSummary_keep (b : KeepBase P) (r : KeepRegs P) (n : KeepNear P) (s x1 x2 x3) (h : P s) : P (State.takeSummary s x1 x2 x3) := by
  unfold State.takeSummary
  repeat' first
    | with_reducible assumption
    | (extract_lets +onlyGivenNames a; refine (?_ : P a → _) ?_ <;> first | (intro _; clear_value a) | subst a)
    | (extract_lets +onlyGivenNames a; refine (?_ : P a.1 → _) ?_ <;> first | (intro _; clear_value a) | subst a)
    | (extract_lets +onlyGivenNames a; refine (?_ : P a.2 → _) ?_ <;> first | (intro _; clear_value a) | subst a)
    | (extract_lets +onlyGivenNames a; subst a)
    | intro _
    | with_reducible apply State.updMember_keep b
    | with_reducible apply State.failSeq_keep b r n
    | with_reducible apply State.childComplete_keep b
    | with_reducible apply State.updSeq_keep b
    | with_reducible apply Keep.ite
    | with_reducible apply Keep.cond
    | with_reducible apply Keep.foldl
    | split
    | with_reducible refine KeepBase.lit b rfl rfl rfl rfl rfl ?_
    | with_reducible refine KeepBase.litPool b rfl rfl rfl rfl rfl ?_

theorem State.contribFrame_keep (b : KeepBase P) (r : KeepRegs P) (n : KeepNear P) (s x1) (h : P s) : P (State.contribFrame s x1) := by
  unfold State.contribFrame
  repeat' first
    | with_reducible assumption
    | (extract_lets +onlyGivenNames a; refine (?_ : P a → _) ?_ <;> first | (intro _; clear_value a) | subst a)
    | (extract_lets +onlyGivenNames a; refine (?_ : P a.1 → _) ?_ <;> first | (intro _; clear_value a) | subst a)
    | (extract_lets +onlyGivenNames a; refine (?_ : P a.2 → _) ?_ <;> first | (intro _; clear_value a) | subst a)
    | (extract_lets +onlyGivenNames a; subst a)
    | intro _
    | with_reducible apply State.lateFrame_keep r
    | with_reducible apply State.enterSeq_keep b r n
    | with_reducible apply State.takeSummary_keep b r n
    | with_reducible apply State.childComplete_keep b
    | with_reducible apply State.updMember_keep b
    | with_reducible apply Keep.ite
    | with_reducible apply Keep.cond
    | with_reducible apply Keep.foldl
    | split
    | with_reducible refine KeepBase.lit b rfl rfl rfl rfl rfl ?_
    | with_reducible refine KeepBase.litPool b rfl rfl rfl rfl rfl ?_

theorem execContrib_keep (b : KeepBase P) (r : KeepRegs P) (n : KeepNear P) (x0 s) (h : P s) : ∀ t, (execContrib x0 s) = .next t → P t := by
  unfold execContrib
  intro t ht
  cases ht
  repeat' first
    | with_reducible assumption
    | (extract_lets +onlyGivenNames a; refine (?_ : P a → _) ?_ <;> first | (intro _; clear_value a) | subst a)
    | (extract_lets +onlyGivenNames a; refine (?_ : P a.1 → _) ?_ <;> first | (intro _; clear_value a) | subst a)
    | (extract_lets +onlyGivenNames a; refine (?_ : P a.2 → _) ?_ <;> first | (intro _; clear_value a) | subst a)
    | (extract_lets +onlyGivenNames a; subst a)
    | intro _
    | with_reducible apply whenUp_keep 
    | with_reducible apply State.contribFrame_keep b r n
    | with_reducible apply Keep.ite
    | with_reducible apply Keep.cond
    | with_reducible apply Keep.foldl
    | split
    | with_reducible refine KeepBase.lit b rfl rfl rfl rfl rfl ?_
    | with_reducible refine KeepBase.litPool b rfl rfl rfl rfl rfl ?_

theorem State.writePaid_keep (b : KeepBase P) (r : KeepRegs P) (n : KeepNear P) (s x1 x2 x3) (h : P s) : P (State.writePaid s x1 x2 x3) := by
  unfold State.writePaid
  repeat' first
    | with_reducible assumption
    | (extract_lets +onlyGivenNames a; refine (?_ : P a → _) ?_ <;> first | (intro _; clear_value a) | subst a)
    | (extract_lets +onlyGivenNames a; refine (?_ : P a.1 → _) ?_ <;> first | (intro _; clear_value a) | subst a)
    | (extract_lets +onlyGivenNames a; refine (?_ : P a.2 → _) ?_ <;> first | (intro _; clear_value a) | subst a)
    | (extract_lets +onlyGivenNames a; subst a)
    | intro _
    | with_reducible apply State.writeSpan_keep b r n
    | with_reducible apply State.charge_keep b
    | with_reducible apply Keep.ite
    | with_reducible apply Keep.cond
    | with_reducible apply Keep.foldl
    | split
    | with_reducible refine KeepBase.lit b rfl rfl rfl rfl rfl ?_
    | with_reducible refine KeepBase.litPool b rfl rfl rfl rfl rfl ?_

theorem State.deliverMember_keep (b : KeepBase P) (r : KeepRegs P) (n : KeepNear P) (p : KeepPurser P) (s x1 x2 x3 x4 x5) (h : P s) : P (State.deliverMember s x1 x2 x3 x4 x5).1 := by
  unfold State.deliverMember
  repeat' first
    | with_reducible assumption
    | (extract_lets +onlyGivenNames a; refine (?_ : P a → _) ?_ <;> first | (intro _; clear_value a) | subst a)
    | (extract_lets +onlyGivenNames a; refine (?_ : P a.1 → _) ?_ <;> first | (intro _; clear_value a) | subst a)
    | (extract_lets +onlyGivenNames a; refine (?_ : P a.2 → _) ?_ <;> first | (intro _; clear_value a) | subst a)
    | (extract_lets +onlyGivenNames a; subst a)
    | intro _
    | with_reducible apply State.memberEnds_keep b r n
    | with_reducible apply State.updCmd_keep b
    | with_reducible apply State.countSealed_keep p
    | with_reducible apply State.writePaid_keep b r n
    | with_reducible apply Keep.ite
    | with_reducible apply Keep.cond
    | with_reducible apply Keep.foldl
    | split
    | with_reducible refine KeepBase.lit b rfl rfl rfl rfl rfl ?_
    | with_reducible refine KeepBase.litPool b rfl rfl rfl rfl rfl ?_

theorem State.deliverAll_keep (b : KeepBase P) (r : KeepRegs P) (n : KeepNear P) (p : KeepPurser P) (s x q off d) (h : P s) : P (State.deliverAll s x q off d).1 := by
  unfold State.deliverAll
  refine Keep.foldlProj (fun x : State × List (Frame × Owner) => x.1) _ ?_ _ (s, []) h
  intro y a hy
  dsimp only
  split
  · exact State.deliverMember_keep b r n p _ _ _ _ _ _ hy
  · exact hy

theorem State.spreadChunk_keep (b : KeepBase P) (r : KeepRegs P) (n : KeepNear P) (p : KeepPurser P) (s x1 x2 x3 x4) (h : P s) : P (State.spreadChunk s x1 x2 x3 x4) := by
  unfold State.spreadChunk
  try dsimp only
  repeat' first
    | with_reducible assumption
    | intro _
    | with_reducible apply State.deliverAll_keep b r n p
    | with_reducible apply State.spread_keep b r
    | with_reducible refine Keep.pair1 (q := State.deliverAll _ _ _ _ _) (by assumption) ?_
    | with_reducible apply Keep.ite
    | with_reducible apply Keep.cond
    | with_reducible apply Keep.foldl
    | split
    | with_reducible refine KeepBase.lit b rfl rfl rfl rfl rfl ?_
    | with_reducible refine KeepBase.litPool b rfl rfl rfl rfl rfl ?_

theorem State.sendChunk_keep (b : KeepBase P) (r : KeepRegs P) (n : KeepNear P) (p : KeepPurser P) (s x1 x2 x3) (h : P s) : P (State.sendChunk s x1 x2 x3) := by
  unfold State.sendChunk
  repeat' first
    | with_reducible assumption
    | (extract_lets +onlyGivenNames a; refine (?_ : P a → _) ?_ <;> first | (intro _; clear_value a) | subst a)
    | (extract_lets +onlyGivenNames a; refine (?_ : P a.1 → _) ?_ <;> first | (intro _; clear_value a) | subst a)
    | (extract_lets +onlyGivenNames a; refine (?_ : P a.2 → _) ?_ <;> first | (intro _; clear_value a) | subst a)
    | (extract_lets +onlyGivenNames a; subst a)
    | intro _
    | with_reducible apply State.spreadChunk_keep b r n p
    | with_reducible apply State.sendUp_keep b r
    | with_reducible apply Keep.ite
    | with_reducible apply Keep.cond
    | with_reducible apply Keep.foldl
    | split
    | with_reducible refine KeepBase.lit b rfl rfl rfl rfl rfl ?_
    | with_reducible refine KeepBase.litPool b rfl rfl rfl rfl rfl ?_

theorem State.flushSeq_keep (b : KeepBase P) (r : KeepRegs P) (n : KeepNear P) (p : KeepPurser P) (g q last n2) : ∀ s, P s → P (State.flushSeq s g q last n2) := by
  induction n2 with
  | zero => exact fun _ h => h
  | succ k ih =>
    intro s h
    unfold State.flushSeq
    split
    · exact h
    · extract_lets d s1
      split
      · exact h
      · exact ih _ (State.sendChunk_keep b r n p _ _ _ _ (State.updSeq_keep b _ _ _ _ h))

theorem State.concludeSeq_keep (b : KeepBase P) (r : KeepRegs P) (n : KeepNear P) (p : KeepPurser P) (s x1 x2) (h : P s) : P (State.concludeSeq s x1 x2) := by
  unfold State.concludeSeq
  repeat' first
    | with_reducible assumption
    | (extract_lets +onlyGivenNames a; refine (?_ : P a → _) ?_ <;> first | (intro _; clear_value a) | subst a)
    | (extract_lets +onlyGivenNames a; refine (?_ : P a.1 → _) ?_ <;> first | (intro _; clear_value a) | subst a)
    | (extract_lets +onlyGivenNames a; refine (?_ : P a.2 → _) ?_ <;> first | (intro _; clear_value a) | subst a)
    | (extract_lets +onlyGivenNames a; subst a)
    | intro _
    | with_reducible apply State.updSeq_keep b
    | with_reducible apply State.flushSeq_keep b r n p
    | with_reducible apply State.decide_keep b r n
    | with_reducible apply State.sendSummary_keep b r
    | with_reducible apply Keep.ite
    | with_reducible apply Keep.cond
    | with_reducible apply Keep.foldl
    | split
    | with_reducible refine KeepBase.lit b rfl rfl rfl rfl rfl ?_
    | with_reducible refine KeepBase.litPool b rfl rfl rfl rfl rfl ?_

theorem State.seqEnd_keep (b : KeepBase P) (r : KeepRegs P) (n : KeepNear P) (p : KeepPurser P) (s x1 x2) (h : P s) : P (State.seqEnd s x1 x2) := by
  unfold State.seqEnd
  repeat' first
    | with_reducible assumption
    | (extract_lets +onlyGivenNames a; refine (?_ : P a → _) ?_ <;> first | (intro _; clear_value a) | subst a)
    | (extract_lets +onlyGivenNames a; refine (?_ : P a.1 → _) ?_ <;> first | (intro _; clear_value a) | subst a)
    | (extract_lets +onlyGivenNames a; refine (?_ : P a.2 → _) ?_ <;> first | (intro _; clear_value a) | subst a)
    | (extract_lets +onlyGivenNames a; subst a)
    | intro _
    | with_reducible apply State.concludeSeq_keep b r n p
    | with_reducible apply Keep.ite
    | with_reducible apply Keep.cond
    | with_reducible apply Keep.foldl
    | split
    | with_reducible refine KeepBase.lit b rfl rfl rfl rfl rfl ?_
    | with_reducible refine KeepBase.litPool b rfl rfl rfl rfl rfl ?_

theorem State.seqChunk_keep (b : KeepBase P) (r : KeepRegs P) (n : KeepNear P) (p : KeepPurser P) (s x1 x2) (h : P s) : P (State.seqChunk s x1 x2) := by
  unfold State.seqChunk
  repeat' first
    | with_reducible assumption
    | (extract_lets +onlyGivenNames a; refine (?_ : P a → _) ?_ <;> first | (intro _; clear_value a) | subst a)
    | (extract_lets +onlyGivenNames a; refine (?_ : P a.1 → _) ?_ <;> first | (intro _; clear_value a) | subst a)
    | (extract_lets +onlyGivenNames a; refine (?_ : P a.2 → _) ?_ <;> first | (intro _; clear_value a) | subst a)
    | (extract_lets +onlyGivenNames a; subst a)
    | intro _
    | with_reducible apply State.seqEnd_keep b r n p
    | with_reducible apply State.charge_keep b
    | with_reducible apply State.updSeq_keep b
    | with_reducible apply State.flushSeq_keep b r n p
    | with_reducible apply Keep.ite
    | with_reducible apply Keep.cond
    | with_reducible apply Keep.foldl
    | split
    | with_reducible refine KeepBase.lit b rfl rfl rfl rfl rfl ?_
    | with_reducible refine KeepBase.litPool b rfl rfl rfl rfl rfl ?_

theorem State.resultFrame_keep (b : KeepBase P) (r : KeepRegs P) (n : KeepNear P) (p : KeepPurser P) (s x1) (h : P s) : P (State.resultFrame s x1) := by
  unfold State.resultFrame
  repeat' first
    | with_reducible assumption
    | (extract_lets +onlyGivenNames a; refine (?_ : P a → _) ?_ <;> first | (intro _; clear_value a) | subst a)
    | (extract_lets +onlyGivenNames a; refine (?_ : P a.1 → _) ?_ <;> first | (intro _; clear_value a) | subst a)
    | (extract_lets +onlyGivenNames a; refine (?_ : P a.2 → _) ?_ <;> first | (intro _; clear_value a) | subst a)
    | (extract_lets +onlyGivenNames a; subst a)
    | intro _
    | with_reducible apply State.lateFrame_keep r
    | with_reducible apply State.spreadChunk_keep b r n p
    | with_reducible apply State.updSeq_keep b
    | with_reducible apply Keep.ite
    | with_reducible apply Keep.cond
    | with_reducible apply Keep.foldl
    | split
    | with_reducible refine KeepBase.lit b rfl rfl rfl rfl rfl ?_
    | with_reducible refine KeepBase.litPool b rfl rfl rfl rfl rfl ?_

theorem execResult_keep (b : KeepBase P) (r : KeepRegs P) (n : KeepNear P) (p : KeepPurser P) (x0 s) (h : P s) : ∀ t, (execResult x0 s) = .next t → P t := by
  unfold execResult
  intro t ht
  cases ht
  repeat' first
    | with_reducible assumption
    | (extract_lets +onlyGivenNames a; refine (?_ : P a → _) ?_ <;> first | (intro _; clear_value a) | subst a)
    | (extract_lets +onlyGivenNames a; refine (?_ : P a.1 → _) ?_ <;> first | (intro _; clear_value a) | subst a)
    | (extract_lets +onlyGivenNames a; refine (?_ : P a.2 → _) ?_ <;> first | (intro _; clear_value a) | subst a)
    | (extract_lets +onlyGivenNames a; subst a)
    | intro _
    | with_reducible apply whenUp_keep 
    | with_reducible apply State.resultFrame_keep b r n p
    | with_reducible apply Keep.ite
    | with_reducible apply Keep.cond
    | with_reducible apply Keep.foldl
    | split
    | with_reducible refine KeepBase.lit b rfl rfl rfl rfl rfl ?_
    | with_reducible refine KeepBase.litPool b rfl rfl rfl rfl rfl ?_

theorem State.doneFrame_keep (b : KeepBase P) (r : KeepRegs P) (n : KeepNear P) (s x1) (h : P s) : P (State.doneFrame s x1) := by
  unfold State.doneFrame
  repeat' first
    | with_reducible assumption
    | (extract_lets +onlyGivenNames a; refine (?_ : P a → _) ?_ <;> first | (intro _; clear_value a) | subst a)
    | (extract_lets +onlyGivenNames a; refine (?_ : P a.1 → _) ?_ <;> first | (intro _; clear_value a) | subst a)
    | (extract_lets +onlyGivenNames a; refine (?_ : P a.2 → _) ?_ <;> first | (intro _; clear_value a) | subst a)
    | (extract_lets +onlyGivenNames a; subst a)
    | intro _
    | with_reducible apply State.lateFrame_keep r
    | with_reducible apply State.settleSeq_keep b r n
    | with_reducible apply State.sendDone_keep b r
    | with_reducible apply Keep.ite
    | with_reducible apply Keep.cond
    | with_reducible apply Keep.foldl
    | split
    | with_reducible refine KeepBase.lit b rfl rfl rfl rfl rfl ?_
    | with_reducible refine KeepBase.litPool b rfl rfl rfl rfl rfl ?_

theorem execDoneFrame_keep (b : KeepBase P) (r : KeepRegs P) (n : KeepNear P) (x0 s) (h : P s) : ∀ t, (execDoneFrame x0 s) = .next t → P t := by
  unfold execDoneFrame
  intro t ht
  cases ht
  repeat' first
    | with_reducible assumption
    | (extract_lets +onlyGivenNames a; refine (?_ : P a → _) ?_ <;> first | (intro _; clear_value a) | subst a)
    | (extract_lets +onlyGivenNames a; refine (?_ : P a.1 → _) ?_ <;> first | (intro _; clear_value a) | subst a)
    | (extract_lets +onlyGivenNames a; refine (?_ : P a.2 → _) ?_ <;> first | (intro _; clear_value a) | subst a)
    | (extract_lets +onlyGivenNames a; subst a)
    | intro _
    | with_reducible apply whenUp_keep 
    | with_reducible apply State.doneFrame_keep b r n
    | with_reducible apply Keep.ite
    | with_reducible apply Keep.cond
    | with_reducible apply Keep.foldl
    | split
    | with_reducible refine KeepBase.lit b rfl rfl rfl rfl rfl ?_
    | with_reducible refine KeepBase.litPool b rfl rfl rfl rfl rfl ?_

theorem State.memberTimedOut_keep (b : KeepBase P) (r : KeepRegs P) (n : KeepNear P) (s x1 x2) (h : P s) : P (State.memberTimedOut s x1 x2) := by
  unfold State.memberTimedOut
  repeat' first
    | with_reducible assumption
    | (extract_lets +onlyGivenNames a; refine (?_ : P a → _) ?_ <;> first | (intro _; clear_value a) | subst a)
    | (extract_lets +onlyGivenNames a; refine (?_ : P a.1 → _) ?_ <;> first | (intro _; clear_value a) | subst a)
    | (extract_lets +onlyGivenNames a; refine (?_ : P a.2 → _) ?_ <;> first | (intro _; clear_value a) | subst a)
    | (extract_lets +onlyGivenNames a; subst a)
    | intro _
    | with_reducible apply State.undefineDst_keep b n
    | with_reducible apply State.updCmd_keep b
    | with_reducible apply State.addCause_keep b r
    | with_reducible apply State.finish_keep b
    | with_reducible apply Keep.ite
    | with_reducible apply Keep.cond
    | with_reducible apply Keep.foldl
    | split
    | with_reducible refine KeepBase.lit b rfl rfl rfl rfl rfl ?_
    | with_reducible refine KeepBase.litPool b rfl rfl rfl rfl rfl ?_

theorem State.contribTimeout_keep (b : KeepBase P) (r : KeepRegs P) (n : KeepNear P) (s x1 x2) (h : P s) : P (State.contribTimeout s x1 x2) := by
  unfold State.contribTimeout
  repeat' first
    | with_reducible assumption
    | (extract_lets +onlyGivenNames a; refine (?_ : P a → _) ?_ <;> first | (intro _; clear_value a) | subst a)
    | (extract_lets +onlyGivenNames a; refine (?_ : P a.1 → _) ?_ <;> first | (intro _; clear_value a) | subst a)
    | (extract_lets +onlyGivenNames a; refine (?_ : P a.2 → _) ?_ <;> first | (intro _; clear_value a) | subst a)
    | (extract_lets +onlyGivenNames a; subst a)
    | intro _
    | with_reducible apply State.bump_keep r
    | with_reducible apply State.updMember_keep b
    | with_reducible apply State.memberTimedOut_keep b r n
    | with_reducible apply State.readsLate_keep b
    | with_reducible apply State.failSeq_keep b r n
    | with_reducible apply Keep.ite
    | with_reducible apply Keep.cond
    | with_reducible apply Keep.foldl
    | split
    | with_reducible refine KeepBase.lit b rfl rfl rfl rfl rfl ?_
    | with_reducible refine KeepBase.litPool b rfl rfl rfl rfl rfl ?_

theorem execContribTimeout_keep (b : KeepBase P) (r : KeepRegs P) (n : KeepNear P) (x0 x1 s) (h : P s) : ∀ t, (execContribTimeout x0 x1 s) = .next t → P t := by
  unfold execContribTimeout
  intro t ht
  cases ht
  repeat' first
    | with_reducible assumption
    | (extract_lets +onlyGivenNames a; refine (?_ : P a → _) ?_ <;> first | (intro _; clear_value a) | subst a)
    | (extract_lets +onlyGivenNames a; refine (?_ : P a.1 → _) ?_ <;> first | (intro _; clear_value a) | subst a)
    | (extract_lets +onlyGivenNames a; refine (?_ : P a.2 → _) ?_ <;> first | (intro _; clear_value a) | subst a)
    | (extract_lets +onlyGivenNames a; subst a)
    | intro _
    | with_reducible apply whenUp_keep 
    | with_reducible apply State.contribTimeout_keep b r n
    | with_reducible apply Keep.ite
    | with_reducible apply Keep.cond
    | with_reducible apply Keep.foldl
    | split
    | with_reducible refine KeepBase.lit b rfl rfl rfl rfl rfl ?_
    | with_reducible refine KeepBase.litPool b rfl rfl rfl rfl rfl ?_

end Sys2Proof.Machine
end

