-- ==== Sys2Proof/Laws/KeepPrefetch.lean ====
section
/-! SUPPORT. What each operation of Machine/Prefetch.lean keeps: a predicate that survives the named kinds of change survives it. -/

namespace Sys2Proof.Machine

variable {P : State → Prop}

theorem State.askTray_keep (b : KeepBase P) (r : KeepRegs P) (s c dst tbn bs) (h : P s) : ∀ t, State.askTray s c dst tbn bs = some t → P t := by
  unfold State.askTray
  refine Keep.foldlOpt _ ?_ _ _ (by intro t ht; cases ht; exact h)
  intro o a ho
  refine Keep.bind ho ?_
  intro s hs t ht
  split at ht
  · cases ht
  · split at ht
    · cases ht
    · cases ht
      repeat' first
    | with_reducible assumption
    | intro _
    | with_reducible apply State.newRead_keep b
    | with_reducible apply State.sendLd_keep b r
    | with_reducible refine Keep.pair2 (q := State.newRead _ _ _ _) (by assumption) ?_
    | with_reducible apply Keep.ite
    | with_reducible apply Keep.cond
    | with_reducible apply Keep.foldl
    | split

theorem State.askFlash_keep (b : KeepBase P) (s c fbn off m) (h : P s) : ∀ t, State.askFlash s c fbn off m = some t → P t := by
  unfold State.askFlash
  refine Keep.foldlOpt _ ?_ _ _ (by intro t ht; cases ht; exact h)
  intro o a ho
  refine Keep.bind ho ?_
  intro s hs t ht
  split at ht
  · cases ht
    exact hs
  · exact State.nvmeRead_keep b _ _ _ _ _ _ hs t ht

theorem State.copySource_keep (b : KeepBase P) (r : KeepRegs P) (n : KeepNear P) (s x1 x2 x3 x4) (h : P s) : ∀ t, ((State.copySource s x1 x2 x3 x4) = .ready t → P t) ∧ ((State.copySource s x1 x2 x3 x4) = .wait t → P t) ∧ ∀ a, (State.copySource s x1 x2 x3 x4) = .fail t a → P t := by
  unfold State.copySource
  intro t
  dsimp only
  refine ⟨?_, ?_, ?_⟩ <;> intros <;> rename_i ht <;> (repeat' split at ht) <;> cases ht
  all_goals try dsimp only
  repeat' first
    | with_reducible assumption
    | (extract_lets +onlyGivenNames a; refine (?_ : P a → _) ?_ <;> first | (intro _; clear_value a) | subst a)
    | (extract_lets +onlyGivenNames a; refine (?_ : P a.1 → _) ?_ <;> first | (intro _; clear_value a) | subst a)
    | (extract_lets +onlyGivenNames a; refine (?_ : P a.2 → _) ?_ <;> first | (intro _; clear_value a) | subst a)
    | (extract_lets +onlyGivenNames a; subst a)
    | intro _
    | with_reducible apply State.ask_keep b r n
    | with_reducible refine State.askInput_keep b r _ _ _ _ _ _ ?_ _ (by assumption)
    | with_reducible refine State.askTray_keep b r _ _ _ _ _ ?_ _ (by assumption)
    | with_reducible refine State.askFlash_keep b _ _ _ _ _ ?_ _ (by assumption)
    | with_reducible apply Keep.ite
    | with_reducible apply Keep.cond
    | with_reducible apply Keep.foldl
    | split
    | with_reducible refine KeepBase.lit b rfl rfl rfl rfl rfl ?_
    | with_reducible refine KeepBase.litPool b rfl rfl rfl rfl rfl ?_

theorem State.copyTarget_keep (b : KeepBase P) (r : KeepRegs P) (p : KeepPurser P) (s x1 x2 x3 x4) (h : P s) : ∀ t, ((State.copyTarget s x1 x2 x3 x4) = .ready t → P t) ∧ ((State.copyTarget s x1 x2 x3 x4) = .wait t → P t) ∧ ∀ a, (State.copyTarget s x1 x2 x3 x4) = .fail t a → P t := by
  unfold State.copyTarget
  intro t
  dsimp only
  refine ⟨?_, ?_, ?_⟩ <;> intros <;> rename_i ht <;> (repeat' split at ht) <;> cases ht
  all_goals try dsimp only
  repeat' first
    | with_reducible assumption
    | (extract_lets +onlyGivenNames a; refine (?_ : P a → _) ?_ <;> first | (intro _; clear_value a) | subst a)
    | (extract_lets +onlyGivenNames a; refine (?_ : P a.1 → _) ?_ <;> first | (intro _; clear_value a) | subst a)
    | (extract_lets +onlyGivenNames a; refine (?_ : P a.2 → _) ?_ <;> first | (intro _; clear_value a) | subst a)
    | (extract_lets +onlyGivenNames a; subst a)
    | intro _
    | with_reducible apply State.countSealed_keep p
    | with_reducible apply State.askStore_keep b r
    | with_reducible refine State.askTray_keep b r _ _ _ _ _ ?_ _ (by assumption)
    | with_reducible apply Keep.ite
    | with_reducible apply Keep.cond
    | with_reducible apply Keep.foldl
    | split
    | with_reducible refine KeepBase.lit b rfl rfl rfl rfl rfl ?_
    | with_reducible refine KeepBase.litPool b rfl rfl rfl rfl rfl ?_

theorem State.writeTray_keep (b : KeepBase P) (r : KeepRegs P) (s x1 x2 x3 x4) (h : P s) : P (State.writeTray s x1 x2 x3 x4) := by
  unfold State.writeTray
  repeat' first
    | with_reducible assumption
    | (extract_lets +onlyGivenNames a; refine (?_ : P a → _) ?_ <;> first | (intro _; clear_value a) | subst a)
    | (extract_lets +onlyGivenNames a; refine (?_ : P a.1 → _) ?_ <;> first | (intro _; clear_value a) | subst a)
    | (extract_lets +onlyGivenNames a; refine (?_ : P a.2 → _) ?_ <;> first | (intro _; clear_value a) | subst a)
    | (extract_lets +onlyGivenNames a; subst a)
    | intro _
    | with_reducible apply State.storeTray_keep b r
    | with_reducible apply Keep.ite
    | with_reducible apply Keep.cond
    | with_reducible apply Keep.foldl
    | split
    | with_reducible refine KeepBase.lit b rfl rfl rfl rfl rfl ?_
    | with_reducible refine KeepBase.litPool b rfl rfl rfl rfl rfl ?_

theorem State.copyWrite_keep (b : KeepBase P) (r : KeepRegs P) (n : KeepNear P) (s c x off d) (h : P s) : P (State.copyWrite s c x off d) := by
  unfold State.copyWrite
  dsimp only
  split
  · exact State.writeTray_keep b r _ _ _ _ _ h
  · exact Keep.getD (State.storeResult_keep b r n _ _ _ _ _ h) h

theorem State.copyEnd_keep (b : KeepBase P) (r : KeepRegs P) (s x1) (h : P s) : P (State.copyEnd s x1) := by
  unfold State.copyEnd
  repeat' first
    | with_reducible assumption
    | (extract_lets +onlyGivenNames a; refine (?_ : P a → _) ?_ <;> first | (intro _; clear_value a) | subst a)
    | (extract_lets +onlyGivenNames a; refine (?_ : P a.1 → _) ?_ <;> first | (intro _; clear_value a) | subst a)
    | (extract_lets +onlyGivenNames a; refine (?_ : P a.2 → _) ?_ <;> first | (intro _; clear_value a) | subst a)
    | (extract_lets +onlyGivenNames a; subst a)
    | intro _
    | with_reducible apply State.finish_keep b
    | with_reducible apply State.finishWith_keep b r
    | with_reducible apply Keep.ite
    | with_reducible apply Keep.cond
    | with_reducible apply Keep.foldl
    | split
    | with_reducible refine KeepBase.lit b rfl rfl rfl rfl rfl ?_
    | with_reducible refine KeepBase.litPool b rfl rfl rfl rfl rfl ?_

theorem State.copyStop_keep (b : KeepBase P) (r : KeepRegs P) (n : KeepNear P) (s x1 x2) (h : P s) : P (State.copyStop s x1 x2) := by
  unfold State.copyStop
  repeat' first
    | with_reducible assumption
    | (extract_lets +onlyGivenNames a; refine (?_ : P a → _) ?_ <;> first | (intro _; clear_value a) | subst a)
    | (extract_lets +onlyGivenNames a; refine (?_ : P a.1 → _) ?_ <;> first | (intro _; clear_value a) | subst a)
    | (extract_lets +onlyGivenNames a; refine (?_ : P a.2 → _) ?_ <;> first | (intro _; clear_value a) | subst a)
    | (extract_lets +onlyGivenNames a; subst a)
    | intro _
    | with_reducible apply State.endStopped_keep b r
    | with_reducible apply State.undefineOutputs_keep b n
    | with_reducible apply Keep.ite
    | with_reducible apply Keep.cond
    | with_reducible apply Keep.foldl
    | split
    | with_reducible refine KeepBase.lit b rfl rfl rfl rfl rfl ?_
    | with_reducible refine KeepBase.litPool b rfl rfl rfl rfl rfl ?_

theorem State.copyRow_keep (b : KeepBase P) (r : KeepRegs P) (n : KeepNear P) (p : KeepPurser P) (s c) (h : P s) : P (State.copyRow s c) := by
  unfold State.copyRow
  extract_lets d off m idle
  clear_value d off m
  split
  · exact Keep.ite (State.endStopped_keep b r _ _ _ h) (State.copyStop_keep b r n _ _ _ h)
  · have hq : ∀ q : State × Bool, (if idle then s.spend c (s.copyCost c d off m) else (s, true)) = q → P q.1 := by
      rintro q rfl
      split
      · exact State.spend_keep b r _ _ _ h
      · exact h
    split
    · exact hq _ (by assumption)
    · have h1 := hq _ (by assumption)
      extract_lets s2 c2
      have h2 : P s2 := State.updCmd_keep b _ _ _ h1
      clear_value s2 c2
      split
      · exact State.copyStop_keep b r n _ _ _ ((State.copySource_keep b r n _ _ _ _ _ h2 _).2.2 _ (by assumption))
      · exact (State.copySource_keep b r n _ _ _ _ _ h2 _).2.1 (by assumption)
      · have h3 := (State.copySource_keep b r n _ _ _ _ _ h2 _).1 (by assumption)
        split
        · exact State.copyStop_keep b r n _ _ _ ((State.copyTarget_keep b r p _ _ _ _ _ h3 _).2.2 _ (by assumption))
        · exact (State.copyTarget_keep b r p _ _ _ _ _ h3 _).2.1 (by assumption)
        · have h4 := (State.copyTarget_keep b r p _ _ _ _ _ h3 _).1 (by assumption)
          extract_lets d2 s3 s4 s5 s6
          have h5 : P s3 := State.copyWrite_keep b r n _ _ _ _ _ h4
          clear_value s3
          have h6 : P s4 := Keep.ite (State.consume_keep b _ _ _ _ h5) h5
          clear_value s4
          have h7 : P s5 := State.updCmd_keep b _ _ _ h6
          clear_value s5
          exact State.retryHeld_keep b r n p _ (Keep.ite (State.copyEnd_keep b r _ _ h7) h7)

theorem execCopy_keep (b : KeepBase P) (r : KeepRegs P) (n : KeepNear P) (p : KeepPurser P) (cid s) (h : P s) : ∀ t, execCopy cid s = .next t → P t := by
  unfold execCopy
  intro t ht
  cases ht
  refine whenUp_keep _ _ (fun s h => ?_) h
  split
  · exact Keep.ite (State.copyRow_keep b r n p _ _ h) h
  · exact h

theorem State.runs_keep (b : KeepBase P) (s x1) (h : P s) : P (State.runs s x1) := by
  unfold State.runs
  repeat' first
    | with_reducible assumption
    | (extract_lets +onlyGivenNames a; refine (?_ : P a → _) ?_ <;> first | (intro _; clear_value a) | subst a)
    | (extract_lets +onlyGivenNames a; refine (?_ : P a.1 → _) ?_ <;> first | (intro _; clear_value a) | subst a)
    | (extract_lets +onlyGivenNames a; refine (?_ : P a.2 → _) ?_ <;> first | (intro _; clear_value a) | subst a)
    | (extract_lets +onlyGivenNames a; subst a)
    | intro _
    | with_reducible apply State.updCmd_keep b
    | with_reducible apply Keep.ite
    | with_reducible apply Keep.cond
    | with_reducible apply Keep.foldl
    | split
    | with_reducible refine KeepBase.lit b rfl rfl rfl rfl rfl ?_
    | with_reducible refine KeepBase.litPool b rfl rfl rfl rfl rfl ?_

theorem State.unlessStopped_keep (b : KeepBase P) (r : KeepRegs P) (s c) (f : State → State) (hf : ∀ s, P s → P (f s)) (h : P s) :
    P (State.unlessStopped s c f) := by
  unfold State.unlessStopped
  split
  · exact State.endStopped_keep b r _ _ _ h
  · exact hf _ (State.runs_keep b _ _ h)

theorem State.dropManifestFills_keep (b : KeepBase P) (s x1) (h : P s) : P (State.dropManifestFills s x1) := by
  unfold State.dropManifestFills
  repeat' first
    | with_reducible assumption
    | (extract_lets +onlyGivenNames a; refine (?_ : P a → _) ?_ <;> first | (intro _; clear_value a) | subst a)
    | (extract_lets +onlyGivenNames a; refine (?_ : P a.1 → _) ?_ <;> first | (intro _; clear_value a) | subst a)
    | (extract_lets +onlyGivenNames a; refine (?_ : P a.2 → _) ?_ <;> first | (intro _; clear_value a) | subst a)
    | (extract_lets +onlyGivenNames a; subst a)
    | intro _
    | with_reducible apply State.setBlock_keep b
    | with_reducible apply State.dropFill_keep b
    | with_reducible apply Keep.ite
    | with_reducible apply Keep.cond
    | with_reducible apply Keep.foldl
    | split
    | with_reducible refine KeepBase.lit b rfl rfl rfl rfl rfl ?_
    | with_reducible refine KeepBase.litPool b rfl rfl rfl rfl rfl ?_

theorem State.manifestStart_keep (b : KeepBase P) (r : KeepRegs P) (n : KeepNear P) (s x1) (h : P s) : P (State.manifestStart s x1) := by
  unfold State.manifestStart
  repeat' first
    | with_reducible assumption
    | (extract_lets +onlyGivenNames a; refine (?_ : P a → _) ?_ <;> first | (intro _; clear_value a) | subst a)
    | (extract_lets +onlyGivenNames a; refine (?_ : P a.1 → _) ?_ <;> first | (intro _; clear_value a) | subst a)
    | (extract_lets +onlyGivenNames a; refine (?_ : P a.2 → _) ?_ <;> first | (intro _; clear_value a) | subst a)
    | (extract_lets +onlyGivenNames a; subst a)
    | intro _
    | with_reducible apply State.finishWith_keep b r
    | with_reducible apply State.ask_keep b r n
    | with_reducible apply State.askAll_keep b r n
    | with_reducible apply State.spend_keep b r
    | with_reducible apply State.finishValue_keep b
    | with_reducible apply State.dropManifest_keep b
    | with_reducible apply State.dropManifestFills_keep b
    | with_reducible apply State.moveCursors_keep b r n
    | with_reducible refine Keep.pair1 (q := State.spend _ _ _) (by assumption) ?_
    | with_reducible apply Keep.ite
    | with_reducible apply Keep.cond
    | with_reducible apply Keep.foldl
    | split
    | with_reducible refine KeepBase.lit b rfl rfl rfl rfl rfl ?_
    | with_reducible refine KeepBase.litPool b rfl rfl rfl rfl rfl ?_

theorem execManifestStart_keep (b : KeepBase P) (r : KeepRegs P) (n : KeepNear P) (x0 s) (h : P s) : ∀ t, (execManifestStart x0 s) = .next t → P t := by
  unfold execManifestStart
  intro t ht
  cases ht
  repeat' first
    | with_reducible assumption
    | (extract_lets +onlyGivenNames a; refine (?_ : P a → _) ?_ <;> first | (intro _; clear_value a) | subst a)
    | (extract_lets +onlyGivenNames a; refine (?_ : P a.1 → _) ?_ <;> first | (intro _; clear_value a) | subst a)
    | (extract_lets +onlyGivenNames a; refine (?_ : P a.2 → _) ?_ <;> first | (intro _; clear_value a) | subst a)
    | (extract_lets +onlyGivenNames a; subst a)
    | intro _
    | with_reducible apply whenUp_keep 
    | with_reducible apply State.unlessStopped_keep b r
    | with_reducible apply State.manifestStart_keep b r n
    | with_reducible apply Keep.ite
    | with_reducible apply Keep.cond
    | with_reducible apply Keep.foldl
    | split
    | with_reducible refine KeepBase.lit b rfl rfl rfl rfl rfl ?_
    | with_reducible refine KeepBase.litPool b rfl rfl rfl rfl rfl ?_

theorem execManifestStop_keep (b : KeepBase P) (r : KeepRegs P) (x0 s) (h : P s) : ∀ t, (execManifestStop x0 s) = .next t → P t := by
  unfold execManifestStop
  intro t ht
  cases ht
  try dsimp only
  repeat' first
    | with_reducible assumption
    | intro _
    | with_reducible apply whenUp_keep 
    | with_reducible apply State.unlessStopped_keep b r
    | with_reducible apply State.dropManifestFills_keep b
    | with_reducible apply State.dropManifest_keep b
    | with_reducible apply State.finish_keep b
    | with_reducible apply Keep.ite
    | with_reducible apply Keep.cond
    | with_reducible apply Keep.foldl
    | split
    | with_reducible refine KeepBase.lit b rfl rfl rfl rfl rfl ?_
    | with_reducible refine KeepBase.litPool b rfl rfl rfl rfl rfl ?_

theorem State.countFilled_keep (b : KeepBase P) (s x1) (h : P s) : P (State.countFilled s x1) := by
  unfold State.countFilled
  repeat' first
    | with_reducible assumption
    | (extract_lets +onlyGivenNames a; refine (?_ : P a → _) ?_ <;> first | (intro _; clear_value a) | subst a)
    | (extract_lets +onlyGivenNames a; refine (?_ : P a.1 → _) ?_ <;> first | (intro _; clear_value a) | subst a)
    | (extract_lets +onlyGivenNames a; refine (?_ : P a.2 → _) ?_ <;> first | (intro _; clear_value a) | subst a)
    | (extract_lets +onlyGivenNames a; subst a)
    | intro _
    | with_reducible apply State.updCmd_keep b
    | with_reducible apply Keep.ite
    | with_reducible apply Keep.cond
    | with_reducible apply Keep.foldl
    | split
    | with_reducible refine KeepBase.lit b rfl rfl rfl rfl rfl ?_
    | with_reducible refine KeepBase.litPool b rfl rfl rfl rfl rfl ?_

theorem State.fillStart_keep (b : KeepBase P) (r : KeepRegs P) (s x1 x2 x3) (h : P s) : P (State.fillStart s x1 x2 x3) := by
  unfold State.fillStart
  repeat' first
    | with_reducible assumption
    | (extract_lets +onlyGivenNames a; refine (?_ : P a → _) ?_ <;> first | (intro _; clear_value a) | subst a)
    | (extract_lets +onlyGivenNames a; refine (?_ : P a.1 → _) ?_ <;> first | (intro _; clear_value a) | subst a)
    | (extract_lets +onlyGivenNames a; refine (?_ : P a.2 → _) ?_ <;> first | (intro _; clear_value a) | subst a)
    | (extract_lets +onlyGivenNames a; subst a)
    | intro _
    | with_reducible apply State.spend_keep b r
    | with_reducible apply State.finishWith_keep b r
    | with_reducible apply State.logBadList_keep b r
    | with_reducible apply State.updCmd_keep b
    | with_reducible apply State.fillBlocks_keep b r
    | with_reducible refine Keep.pair1 (q := State.spend _ _ _) (by assumption) ?_
    | with_reducible apply Keep.ite
    | with_reducible apply Keep.cond
    | with_reducible apply Keep.foldl
    | split
    | with_reducible refine KeepBase.lit b rfl rfl rfl rfl rfl ?_
    | with_reducible refine KeepBase.litPool b rfl rfl rfl rfl rfl ?_

theorem State.fillRow_keep (b : KeepBase P) (r : KeepRegs P) (n : KeepNear P) (s x1) (h : P s) : P (State.fillRow s x1) := by
  unfold State.fillRow
  repeat' first
    | with_reducible assumption
    | (extract_lets +onlyGivenNames a; refine (?_ : P a → _) ?_ <;> first | (intro _; clear_value a) | subst a)
    | (extract_lets +onlyGivenNames a; refine (?_ : P a.1 → _) ?_ <;> first | (intro _; clear_value a) | subst a)
    | (extract_lets +onlyGivenNames a; refine (?_ : P a.2 → _) ?_ <;> first | (intro _; clear_value a) | subst a)
    | (extract_lets +onlyGivenNames a; subst a)
    | intro _
    | with_reducible apply State.finishWith_keep b r
    | with_reducible apply State.ask_keep b r n
    | with_reducible apply State.fillStart_keep b r
    | with_reducible apply State.countFilled_keep b
    | with_reducible apply State.finish_keep b
    | with_reducible apply State.fillBlocks_keep b r
    | with_reducible apply Keep.ite
    | with_reducible apply Keep.cond
    | with_reducible apply Keep.foldl
    | split
    | with_reducible refine KeepBase.lit b rfl rfl rfl rfl rfl ?_
    | with_reducible refine KeepBase.litPool b rfl rfl rfl rfl rfl ?_

theorem execFill_keep (b : KeepBase P) (r : KeepRegs P) (n : KeepNear P) (p : KeepPurser P) (x0 s) (h : P s) : ∀ t, (execFill x0 s) = .next t → P t := by
  unfold execFill
  intro t ht
  cases ht
  repeat' first
    | with_reducible assumption
    | (extract_lets +onlyGivenNames a; refine (?_ : P a → _) ?_ <;> first | (intro _; clear_value a) | subst a)
    | (extract_lets +onlyGivenNames a; refine (?_ : P a.1 → _) ?_ <;> first | (intro _; clear_value a) | subst a)
    | (extract_lets +onlyGivenNames a; refine (?_ : P a.2 → _) ?_ <;> first | (intro _; clear_value a) | subst a)
    | (extract_lets +onlyGivenNames a; subst a)
    | intro _
    | with_reducible apply whenUp_keep 
    | with_reducible apply State.unlessStopped_keep b r
    | with_reducible apply State.countFilled_keep b
    | with_reducible apply State.retryHeld_keep b r n p
    | with_reducible apply State.fillRow_keep b r n
    | with_reducible apply Keep.ite
    | with_reducible apply Keep.cond
    | with_reducible apply Keep.foldl
    | split
    | with_reducible refine KeepBase.lit b rfl rfl rfl rfl rfl ?_
    | with_reducible refine KeepBase.litPool b rfl rfl rfl rfl rfl ?_

theorem State.writeBackFor_keep (b : KeepBase P) (r : KeepRegs P) (s x1) (h : P s) : P (State.writeBackFor s x1) := by
  unfold State.writeBackFor
  repeat' first
    | with_reducible assumption
    | (extract_lets +onlyGivenNames a; refine (?_ : P a → _) ?_ <;> first | (intro _; clear_value a) | subst a)
    | (extract_lets +onlyGivenNames a; refine (?_ : P a.1 → _) ?_ <;> first | (intro _; clear_value a) | subst a)
    | (extract_lets +onlyGivenNames a; refine (?_ : P a.2 → _) ?_ <;> first | (intro _; clear_value a) | subst a)
    | (extract_lets +onlyGivenNames a; subst a)
    | intro _
    | with_reducible apply State.finishWith_keep b r
    | with_reducible apply State.writeBackAll_keep b r
    | with_reducible apply State.updCmd_keep b
    | with_reducible apply Keep.ite
    | with_reducible apply Keep.cond
    | with_reducible apply Keep.foldl
    | split
    | with_reducible refine KeepBase.lit b rfl rfl rfl rfl rfl ?_
    | with_reducible refine KeepBase.litPool b rfl rfl rfl rfl rfl ?_

theorem State.bindRow_keep (b : KeepBase P) (r : KeepRegs P) (n : KeepNear P) (s x1) (h : P s) : P (State.bindRow s x1) := by
  unfold State.bindRow
  repeat' first
    | with_reducible assumption
    | (extract_lets +onlyGivenNames a; refine (?_ : P a → _) ?_ <;> first | (intro _; clear_value a) | subst a)
    | (extract_lets +onlyGivenNames a; refine (?_ : P a.1 → _) ?_ <;> first | (intro _; clear_value a) | subst a)
    | (extract_lets +onlyGivenNames a; refine (?_ : P a.2 → _) ?_ <;> first | (intro _; clear_value a) | subst a)
    | (extract_lets +onlyGivenNames a; subst a)
    | intro _
    | with_reducible apply State.finishWith_keep b r
    | with_reducible apply State.writeBackFor_keep b r
    | with_reducible apply State.moveCursors_keep b r n
    | with_reducible apply State.finish_keep b
    | with_reducible apply State.unbind_keep b
    | with_reducible apply State.bindTo_keep b
    | with_reducible apply Keep.ite
    | with_reducible apply Keep.cond
    | with_reducible apply Keep.foldl
    | split
    | with_reducible refine KeepBase.lit b rfl rfl rfl rfl rfl ?_
    | with_reducible refine KeepBase.litPool b rfl rfl rfl rfl rfl ?_

theorem execBind_keep (b : KeepBase P) (r : KeepRegs P) (n : KeepNear P) (p : KeepPurser P) (x0 s) (h : P s) : ∀ t, (execBind x0 s) = .next t → P t := by
  unfold execBind
  intro t ht
  cases ht
  repeat' first
    | with_reducible assumption
    | (extract_lets +onlyGivenNames a; refine (?_ : P a → _) ?_ <;> first | (intro _; clear_value a) | subst a)
    | (extract_lets +onlyGivenNames a; refine (?_ : P a.1 → _) ?_ <;> first | (intro _; clear_value a) | subst a)
    | (extract_lets +onlyGivenNames a; refine (?_ : P a.2 → _) ?_ <;> first | (intro _; clear_value a) | subst a)
    | (extract_lets +onlyGivenNames a; subst a)
    | intro _
    | with_reducible apply whenUp_keep 
    | with_reducible apply State.unlessStopped_keep b r
    | with_reducible apply State.retryHeld_keep b r n p
    | with_reducible apply State.bindRow_keep b r n
    | with_reducible apply Keep.ite
    | with_reducible apply Keep.cond
    | with_reducible apply Keep.foldl
    | split
    | with_reducible refine KeepBase.lit b rfl rfl rfl rfl rfl ?_
    | with_reducible refine KeepBase.litPool b rfl rfl rfl rfl rfl ?_

theorem execClean_keep (b : KeepBase P) (r : KeepRegs P) (x0 s) (h : P s) : ∀ t, (execClean x0 s) = .next t → P t := by
  unfold execClean
  intro t ht
  cases ht
  try dsimp only
  repeat' first
    | with_reducible assumption
    | intro _
    | with_reducible apply whenUp_keep 
    | with_reducible apply State.unlessStopped_keep b r
    | with_reducible apply State.writeBackFor_keep b r
    | with_reducible apply State.finish_keep b
    | with_reducible apply Keep.ite
    | with_reducible apply Keep.cond
    | with_reducible apply Keep.foldl
    | split
    | with_reducible refine KeepBase.lit b rfl rfl rfl rfl rfl ?_
    | with_reducible refine KeepBase.litPool b rfl rfl rfl rfl rfl ?_

theorem State.evictResident_keep (b : KeepBase P) (s x1) (h : P s) : P (State.evictResident s x1) := by
  unfold State.evictResident
  repeat' first
    | with_reducible assumption
    | (extract_lets +onlyGivenNames a; refine (?_ : P a → _) ?_ <;> first | (intro _; clear_value a) | subst a)
    | (extract_lets +onlyGivenNames a; refine (?_ : P a.1 → _) ?_ <;> first | (intro _; clear_value a) | subst a)
    | (extract_lets +onlyGivenNames a; refine (?_ : P a.2 → _) ?_ <;> first | (intro _; clear_value a) | subst a)
    | (extract_lets +onlyGivenNames a; subst a)
    | intro _
    | with_reducible apply State.setWindow_keep b
    | with_reducible apply Keep.ite
    | with_reducible apply Keep.cond
    | with_reducible apply Keep.foldl
    | split
    | with_reducible refine KeepBase.lit b rfl rfl rfl rfl rfl ?_
    | with_reducible refine KeepBase.litPool b rfl rfl rfl rfl rfl ?_

theorem execEvict_keep (b : KeepBase P) (r : KeepRegs P) (x0 s) (h : P s) : ∀ t, (execEvict x0 s) = .next t → P t := by
  unfold execEvict
  intro t ht
  cases ht
  try dsimp only
  repeat' first
    | with_reducible assumption
    | intro _
    | with_reducible apply whenUp_keep 
    | with_reducible apply State.unlessStopped_keep b r
    | with_reducible apply State.writeBackFor_keep b r
    | with_reducible apply State.finish_keep b
    | with_reducible apply State.evictResident_keep b
    | with_reducible apply Keep.ite
    | with_reducible apply Keep.cond
    | with_reducible apply Keep.foldl
    | split
    | with_reducible refine KeepBase.lit b rfl rfl rfl rfl rfl ?_
    | with_reducible refine KeepBase.litPool b rfl rfl rfl rfl rfl ?_

end Sys2Proof.Machine
end

