-- ==== Sys2Proof/Laws/KeepDeckRun.lean ====
section
/-! SUPPORT. What each operation of Machine/DeckRun.lean keeps: a predicate that survives the named kinds of change survives it. -/

namespace Sys2Proof.Machine

variable {P : State → Prop}

theorem State.writeSection_keep (b : KeepBase P) (r : KeepRegs P) (n : KeepNear P) (p : KeepPurser P) (s c h) (hs : P s) : P (State.writeSection s c h).1 := by
  unfold State.writeSection
  extract_lets ws near bad cost
  clear_value ws cost near
  have hbad : ∀ x, bad = some x → P x.1 := by
    intro x hx
    simp only [bad] at hx
    split at hx
    · obtain ⟨y, -, hy⟩ := List.exists_of_findSome?_eq_some hx
      split at hy
      · cases hy
      · cases hy
        exact (State.target_keep b r p _ _ _ _ hs _).1 (by assumption)
      · cases hy
        exact State.halt_keep b r _ _ _ _ ((State.target_keep b r p _ _ _ _ hs _).2 _ _ (by assumption))
    · cases hx
  clear_value bad
  split
  · exact hbad _ rfl
  · split
    · exact Keep.pair1 (by assumption) (State.spend_keep b r _ _ _ hs)
    · have h1 := Keep.pair1 (P := P) (by assumption) (State.spend_keep b r _ _ _ hs)
      split
      · apply State.updCmd_keep b
        rename_i hf
        refine Keep.foldlOpt _ ?_ _ _ (by intro t ht; cases ht; exact h1) _ hf
        intro o a ho
        exact Keep.bind ho fun s hs t ht => State.storeResult_keep b r n _ _ _ _ _ hs t ht
      · exact State.halt_keep b r _ _ _ _ h1

theorem State.deckStopped_keep (b : KeepBase P) (r : KeepRegs P) (n : KeepNear P) (s x1 x2) (h : P s) : P (State.deckStopped s x1 x2) := by
  unfold State.deckStopped
  repeat' first
    | with_reducible assumption
    | (extract_lets +onlyGivenNames a; refine (?_ : P a → _) ?_ <;> first | (intro _; clear_value a) | subst a)
    | (extract_lets +onlyGivenNames a; refine (?_ : P a.1 → _) ?_ <;> first | (intro _; clear_value a) | subst a)
    | (extract_lets +onlyGivenNames a; refine (?_ : P a.2 → _) ?_ <;> first | (intro _; clear_value a) | subst a)
    | (extract_lets +onlyGivenNames a; subst a)
    | intro _
    | with_reducible apply State.endStopped_keep b r
    | with_reducible apply State.undefineOutputs_keep b n
    | with_reducible apply State.updCmd_keep b
    | with_reducible apply State.dropCmd_keep b r
    | with_reducible apply State.purgeCmd_keep b r
    | with_reducible apply Keep.ite
    | with_reducible apply Keep.cond
    | with_reducible apply Keep.foldl
    | split
    | with_reducible refine KeepBase.lit b rfl rfl rfl rfl rfl ?_
    | with_reducible refine KeepBase.litPool b rfl rfl rfl rfl rfl ?_

theorem State.deckEnd_keep (b : KeepBase P) (r : KeepRegs P) (s x1) (h : P s) : P (State.deckEnd s x1) := by
  unfold State.deckEnd
  repeat' first
    | with_reducible assumption
    | (extract_lets +onlyGivenNames a; refine (?_ : P a → _) ?_ <;> first | (intro _; clear_value a) | subst a)
    | (extract_lets +onlyGivenNames a; refine (?_ : P a.1 → _) ?_ <;> first | (intro _; clear_value a) | subst a)
    | (extract_lets +onlyGivenNames a; refine (?_ : P a.2 → _) ?_ <;> first | (intro _; clear_value a) | subst a)
    | (extract_lets +onlyGivenNames a; subst a)
    | intro _
    | with_reducible apply State.updCmd_keep b
    | with_reducible apply State.finish_keep b
    | with_reducible apply State.finishWith_keep b r
    | with_reducible apply Keep.ite
    | with_reducible apply Keep.cond
    | with_reducible apply Keep.foldl
    | split
    | with_reducible refine KeepBase.lit b rfl rfl rfl rfl rfl ?_
    | with_reducible refine KeepBase.litPool b rfl rfl rfl rfl rfl ?_

theorem State.deckFlush_keep (b : KeepBase P) (r : KeepRegs P) (n : KeepNear P) (p : KeepPurser P) (cid n2) : ∀ s, P s → P (State.deckFlush s cid n2) := by
  induction n2 with
  | zero => exact fun _ h => h
  | succ k ih =>
    intro s h
    unfold State.deckFlush
    split
    · exact h
    · rename_i c hc
      have h1 := fun k => State.writeSection_keep b r n p s c k h
      split
      · exact State.deckStopped_keep b r n _ _ _ h
      · extract_lets due q
        clear_value due
        have hq : P q.1 := h1 _
        clear_value q
        split
        · exact Keep.ite (State.deckEnd_keep b r _ _ h) h
        · split
          · split
            · exact State.deckStopped_keep b r n _ _ _ hq
            · exact hq
          · exact Keep.ite (State.deckEnd_keep b r _ _ hq) (ih _ hq)

theorem State.launchAt_keep (b : KeepBase P) (s x1 x2 x3) (h : P s) : P (State.launchAt s x1 x2 x3) := by
  unfold State.launchAt
  repeat' first
    | with_reducible assumption
    | (extract_lets +onlyGivenNames a; refine (?_ : P a → _) ?_ <;> first | (intro _; clear_value a) | subst a)
    | (extract_lets +onlyGivenNames a; refine (?_ : P a.1 → _) ?_ <;> first | (intro _; clear_value a) | subst a)
    | (extract_lets +onlyGivenNames a; refine (?_ : P a.2 → _) ?_ <;> first | (intro _; clear_value a) | subst a)
    | (extract_lets +onlyGivenNames a; subst a)
    | intro _
    | with_reducible apply State.updCmd_keep b
    | with_reducible apply Keep.ite
    | with_reducible apply Keep.cond
    | with_reducible apply Keep.foldl
    | split
    | with_reducible refine KeepBase.lit b rfl rfl rfl rfl rfl ?_
    | with_reducible refine KeepBase.litPool b rfl rfl rfl rfl rfl ?_

theorem State.launched_keep (b : KeepBase P) (r : KeepRegs P) (n : KeepNear P) (p : KeepPurser P) (s cid) (h : P s) : P (State.launched s cid) := by
  unfold State.launched
  split
  · split
    · exact State.deckFlush_keep b r n p _ _ _ (State.updCmd_keep b _ _ _ h)
    · exact h
  · exact h

theorem State.launchOn_keep (b : KeepBase P) (r : KeepRegs P) (n : KeepNear P) (p : KeepPurser P) (s x1 x2 x3) (h : P s) : P (State.launchOn s x1 x2 x3) := by
  unfold State.launchOn
  repeat' first
    | with_reducible assumption
    | (extract_lets +onlyGivenNames a; refine (?_ : P a → _) ?_ <;> first | (intro _; clear_value a) | subst a)
    | (extract_lets +onlyGivenNames a; refine (?_ : P a.1 → _) ?_ <;> first | (intro _; clear_value a) | subst a)
    | (extract_lets +onlyGivenNames a; refine (?_ : P a.2 → _) ?_ <;> first | (intro _; clear_value a) | subst a)
    | (extract_lets +onlyGivenNames a; subst a)
    | intro _
    | with_reducible apply State.updCmd_keep b
    | with_reducible apply State.finishWith_keep b r
    | with_reducible apply State.launched_keep b r n p
    | with_reducible apply State.launchAt_keep b
    | with_reducible apply Keep.ite
    | with_reducible apply Keep.cond
    | with_reducible apply Keep.foldl
    | split
    | with_reducible refine KeepBase.lit b rfl rfl rfl rfl rfl ?_
    | with_reducible refine KeepBase.litPool b rfl rfl rfl rfl rfl ?_

theorem State.launchOperand_keep (b : KeepBase P) (r : KeepRegs P) (s c) (go : State → Cmd → State) (hf : ∀ s c, P s → P (go s c))
    (h : P s) : P (State.launchOperand s c go) := by
  unfold State.launchOperand
  split
  · exact State.endStopped_keep b r _ _ _ h
  · split
    · exact hf _ _ h
    · split
      · exact State.askInput_keep b r _ _ _ _ _ _ h _ (by assumption)
      · exact State.retired_keep b r _ _ h

theorem State.deckRow_keep (b : KeepBase P) (r : KeepRegs P) (n : KeepNear P) (p : KeepPurser P) (s cid opc) (launch : State → Cmd → State)
    (hf : ∀ s c, P s → P (launch s c)) (h : P s) : P (State.deckRow s cid opc launch) := by
  unfold State.deckRow
  split
  · exact h
  · split
    · exact h
    · split
      · exact State.retryHeld_keep b r n p _ (State.launchOperand_keep b r _ _ _ hf h)
      · split
        · exact State.retryHeld_keep b r n p _ (State.deckFlush_keep b r n p _ _ _ h)
        · exact h

theorem State.launchNamed_keep (b : KeepBase P) (r : KeepRegs P) (n : KeepNear P) (p : KeepPurser P) (s x1) (h : P s) : P (State.launchNamed s x1) := by
  unfold State.launchNamed
  repeat' first
    | with_reducible assumption
    | (extract_lets +onlyGivenNames a; refine (?_ : P a → _) ?_ <;> first | (intro _; clear_value a) | subst a)
    | (extract_lets +onlyGivenNames a; refine (?_ : P a.1 → _) ?_ <;> first | (intro _; clear_value a) | subst a)
    | (extract_lets +onlyGivenNames a; refine (?_ : P a.2 → _) ?_ <;> first | (intro _; clear_value a) | subst a)
    | (extract_lets +onlyGivenNames a; subst a)
    | intro _
    | with_reducible apply State.launchOn_keep b r n p
    | with_reducible apply Keep.ite
    | with_reducible apply Keep.cond
    | with_reducible apply Keep.foldl
    | split
    | with_reducible refine KeepBase.lit b rfl rfl rfl rfl rfl ?_
    | with_reducible refine KeepBase.litPool b rfl rfl rfl rfl rfl ?_

theorem State.launchStopped_keep (b : KeepBase P) (r : KeepRegs P) (n : KeepNear P) (s x1 x2) (h : P s) : P (State.launchStopped s x1 x2) := by
  unfold State.launchStopped
  repeat' first
    | with_reducible assumption
    | (extract_lets +onlyGivenNames a; refine (?_ : P a → _) ?_ <;> first | (intro _; clear_value a) | subst a)
    | (extract_lets +onlyGivenNames a; refine (?_ : P a.1 → _) ?_ <;> first | (intro _; clear_value a) | subst a)
    | (extract_lets +onlyGivenNames a; refine (?_ : P a.2 → _) ?_ <;> first | (intro _; clear_value a) | subst a)
    | (extract_lets +onlyGivenNames a; subst a)
    | intro _
    | with_reducible apply State.finishWith_keep b r
    | with_reducible apply State.undefineOutputs_keep b n
    | with_reducible apply Keep.ite
    | with_reducible apply Keep.cond
    | with_reducible apply Keep.foldl
    | split
    | with_reducible refine KeepBase.lit b rfl rfl rfl rfl rfl ?_
    | with_reducible refine KeepBase.litPool b rfl rfl rfl rfl rfl ?_

theorem State.launchCross_keep (b : KeepBase P) (r : KeepRegs P) (n : KeepNear P) (p : KeepPurser P) (s x1) (h : P s) : P (State.launchCross s x1) := by
  unfold State.launchCross
  repeat' first
    | with_reducible assumption
    | (extract_lets +onlyGivenNames a; refine (?_ : P a → _) ?_ <;> first | (intro _; clear_value a) | subst a)
    | (extract_lets +onlyGivenNames a; refine (?_ : P a.1 → _) ?_ <;> first | (intro _; clear_value a) | subst a)
    | (extract_lets +onlyGivenNames a; refine (?_ : P a.2 → _) ?_ <;> first | (intro _; clear_value a) | subst a)
    | (extract_lets +onlyGivenNames a; subst a)
    | intro _
    | with_reducible apply State.launchOn_keep b r n p
    | with_reducible apply State.readList_keep b r n
    | with_reducible apply State.endStopped_keep b r
    | with_reducible apply State.launchStopped_keep b r n
    | with_reducible apply State.logBadList_keep b r
    | with_reducible apply Keep.ite
    | with_reducible apply Keep.cond
    | with_reducible apply Keep.foldl
    | split
    | with_reducible refine KeepBase.lit b rfl rfl rfl rfl rfl ?_
    | with_reducible refine KeepBase.litPool b rfl rfl rfl rfl rfl ?_

theorem State.launchSearch_keep (b : KeepBase P) (r : KeepRegs P) (n : KeepNear P) (p : KeepPurser P) (s c) (h : P s) : P (State.launchSearch s c) := by
  unfold State.launchSearch
  extract_lets q len bad d2 segs place suits
  have hb : ∀ d, P (bad d) := fun d => State.launchStopped_keep b r n _ _ _ h
  clear_value bad place suits segs d2
  split
  · have h1 := State.lacks_keep b r n _ _ _ _ h _ (by assumption)
    split
    · split
      · exact State.endStopped_keep b r _ _ _ h1
      · exact h1
    · exact h1
  · split
    · exact h
    · have h1 := State.payNear_keep b _ _ _ _ h _ (by assumption)
      extract_lets t2 t3
      have h2 : P t2 := State.consume_keep b _ _ _ _ h1
      clear_value t2
      have h3 : P t3 := State.launchAt_keep b _ _ _ _ h2
      clear_value t3
      split
      · exact State.deckFlush_keep b r n p _ _ _ (State.updCmd_keep b _ _ _ h3)
      · repeat' first
          | exact hb _
          | split
        exact State.launchOn_keep b r n p _ _ _ _ h2

theorem execCross_keep (b : KeepBase P) (r : KeepRegs P) (n : KeepNear P) (p : KeepPurser P) (x0 s) (h : P s) : ∀ t, (execCross x0 s) = .next t → P t := by
  unfold execCross
  intro t ht
  cases ht
  repeat' first
    | with_reducible assumption
    | (extract_lets +onlyGivenNames a; refine (?_ : P a → _) ?_ <;> first | (intro _; clear_value a) | subst a)
    | (extract_lets +onlyGivenNames a; refine (?_ : P a.1 → _) ?_ <;> first | (intro _; clear_value a) | subst a)
    | (extract_lets +onlyGivenNames a; refine (?_ : P a.2 → _) ?_ <;> first | (intro _; clear_value a) | subst a)
    | (extract_lets +onlyGivenNames a; subst a)
    | intro _
    | with_reducible apply whenUp_keep 
    | with_reducible apply State.deckRow_keep b r n p
    | with_reducible apply State.launchCross_keep b r n p
    | with_reducible apply Keep.ite
    | with_reducible apply Keep.cond
    | with_reducible apply Keep.foldl
    | split
    | with_reducible refine KeepBase.lit b rfl rfl rfl rfl rfl ?_
    | with_reducible refine KeepBase.litPool b rfl rfl rfl rfl rfl ?_

theorem execScore_keep (b : KeepBase P) (r : KeepRegs P) (n : KeepNear P) (p : KeepPurser P) (x0 s) (h : P s) : ∀ t, (execScore x0 s) = .next t → P t := by
  unfold execScore
  intro t ht
  cases ht
  repeat' first
    | with_reducible assumption
    | (extract_lets +onlyGivenNames a; refine (?_ : P a → _) ?_ <;> first | (intro _; clear_value a) | subst a)
    | (extract_lets +onlyGivenNames a; refine (?_ : P a.1 → _) ?_ <;> first | (intro _; clear_value a) | subst a)
    | (extract_lets +onlyGivenNames a; refine (?_ : P a.2 → _) ?_ <;> first | (intro _; clear_value a) | subst a)
    | (extract_lets +onlyGivenNames a; subst a)
    | intro _
    | with_reducible apply whenUp_keep 
    | with_reducible apply State.deckRow_keep b r n p
    | with_reducible apply State.launchNamed_keep b r n p
    | with_reducible apply Keep.ite
    | with_reducible apply Keep.cond
    | with_reducible apply Keep.foldl
    | split
    | with_reducible refine KeepBase.lit b rfl rfl rfl rfl rfl ?_
    | with_reducible refine KeepBase.litPool b rfl rfl rfl rfl rfl ?_

theorem execMatmul_keep (b : KeepBase P) (r : KeepRegs P) (n : KeepNear P) (p : KeepPurser P) (x0 s) (h : P s) : ∀ t, (execMatmul x0 s) = .next t → P t := by
  unfold execMatmul
  intro t ht
  cases ht
  repeat' first
    | with_reducible assumption
    | (extract_lets +onlyGivenNames a; refine (?_ : P a → _) ?_ <;> first | (intro _; clear_value a) | subst a)
    | (extract_lets +onlyGivenNames a; refine (?_ : P a.1 → _) ?_ <;> first | (intro _; clear_value a) | subst a)
    | (extract_lets +onlyGivenNames a; refine (?_ : P a.2 → _) ?_ <;> first | (intro _; clear_value a) | subst a)
    | (extract_lets +onlyGivenNames a; subst a)
    | intro _
    | with_reducible apply whenUp_keep 
    | with_reducible apply State.deckRow_keep b r n p
    | with_reducible apply State.launchNamed_keep b r n p
    | with_reducible apply Keep.ite
    | with_reducible apply Keep.cond
    | with_reducible apply Keep.foldl
    | split
    | with_reducible refine KeepBase.lit b rfl rfl rfl rfl rfl ?_
    | with_reducible refine KeepBase.litPool b rfl rfl rfl rfl rfl ?_

theorem execSearch_keep (b : KeepBase P) (r : KeepRegs P) (n : KeepNear P) (p : KeepPurser P) (x0 s) (h : P s) : ∀ t, (execSearch x0 s) = .next t → P t := by
  unfold execSearch
  intro t ht
  cases ht
  repeat' first
    | with_reducible assumption
    | (extract_lets +onlyGivenNames a; refine (?_ : P a → _) ?_ <;> first | (intro _; clear_value a) | subst a)
    | (extract_lets +onlyGivenNames a; refine (?_ : P a.1 → _) ?_ <;> first | (intro _; clear_value a) | subst a)
    | (extract_lets +onlyGivenNames a; refine (?_ : P a.2 → _) ?_ <;> first | (intro _; clear_value a) | subst a)
    | (extract_lets +onlyGivenNames a; subst a)
    | intro _
    | with_reducible apply whenUp_keep 
    | with_reducible apply State.deckRow_keep b r n p
    | with_reducible apply State.launchSearch_keep b r n p
    | with_reducible apply Keep.ite
    | with_reducible apply Keep.cond
    | with_reducible apply Keep.foldl
    | split
    | with_reducible refine KeepBase.lit b rfl rfl rfl rfl rfl ?_
    | with_reducible refine KeepBase.litPool b rfl rfl rfl rfl rfl ?_

end Sys2Proof.Machine
end

