-- ==== Sys2Proof/Laws/KeepTimeBase.lean ====
section
/-! SUPPORT. What each operation of Machine/TimeBase.lean keeps: a predicate that survives the named kinds of change survives it. -/

namespace Sys2Proof.Machine

variable {P : State → Prop}

theorem State.stepTime_keep (b : KeepBase P) (r : KeepRegs P) (n : KeepNear P) (t : KeepTime P) (p : KeepPurser P) (s x1) (h : P s) : P (State.stepTime s x1) := by
  unfold State.stepTime
  repeat' first
    | with_reducible assumption
    | (extract_lets +onlyGivenNames a; refine (?_ : P a → _) ?_ <;> first | (intro _; clear_value a) | subst a)
    | (extract_lets +onlyGivenNames a; refine (?_ : P a.1 → _) ?_ <;> first | (intro _; clear_value a) | subst a)
    | (extract_lets +onlyGivenNames a; refine (?_ : P a.2 → _) ?_ <;> first | (intro _; clear_value a) | subst a)
    | (extract_lets +onlyGivenNames a; subst a)
    | intro _
    | with_reducible apply State.bump_keep r
    | with_reducible apply State.setTime_keep t
    | with_reducible apply State.gatesStepped_keep b t
    | with_reducible apply State.newTide_keep b r n p
    | with_reducible apply Keep.ite
    | with_reducible apply Keep.cond
    | with_reducible apply Keep.foldl
    | split
    | with_reducible refine KeepTime.lit t rfl rfl rfl rfl ?_

theorem State.setSeconds_keep (b : KeepBase P) (r : KeepRegs P) (n : KeepNear P) (t : KeepTime P) (p : KeepPurser P) (s x1) (h : P s) : P (State.setSeconds s x1) := by
  unfold State.setSeconds
  repeat' first
    | with_reducible assumption
    | (extract_lets +onlyGivenNames a; refine (?_ : P a → _) ?_ <;> first | (intro _; clear_value a) | subst a)
    | (extract_lets +onlyGivenNames a; refine (?_ : P a.1 → _) ?_ <;> first | (intro _; clear_value a) | subst a)
    | (extract_lets +onlyGivenNames a; refine (?_ : P a.2 → _) ?_ <;> first | (intro _; clear_value a) | subst a)
    | (extract_lets +onlyGivenNames a; subst a)
    | intro _
    | with_reducible apply State.stepTime_keep b r n t p
    | with_reducible apply Keep.ite
    | with_reducible apply Keep.cond
    | with_reducible apply Keep.foldl
    | split
    | with_reducible refine KeepBase.lit b rfl rfl rfl rfl rfl ?_
    | with_reducible refine KeepBase.litPool b rfl rfl rfl rfl rfl ?_

theorem execCkTimeSet_keep (b : KeepBase P) (r : KeepRegs P) (n : KeepNear P) (t : KeepTime P) (p : KeepPurser P) (x0 x1 s) (h : P s) : ∀ t, (execCkTimeSet x0 x1 s) = .next t → P t := by
  unfold execCkTimeSet
  intro t ht
  cases ht
  repeat' first
    | with_reducible assumption
    | (extract_lets +onlyGivenNames a; refine (?_ : P a → _) ?_ <;> first | (intro _; clear_value a) | subst a)
    | (extract_lets +onlyGivenNames a; refine (?_ : P a.1 → _) ?_ <;> first | (intro _; clear_value a) | subst a)
    | (extract_lets +onlyGivenNames a; refine (?_ : P a.2 → _) ?_ <;> first | (intro _; clear_value a) | subst a)
    | (extract_lets +onlyGivenNames a; subst a)
    | intro _
    | with_reducible apply barWrite_keep b r
    | with_reducible apply State.setSeconds_keep b r n t p
    | with_reducible apply Keep.ite
    | with_reducible apply Keep.cond
    | with_reducible apply Keep.foldl
    | split
    | with_reducible refine KeepBase.lit b rfl rfl rfl rfl rfl ?_
    | with_reducible refine KeepBase.litPool b rfl rfl rfl rfl rfl ?_

theorem State.latchNs_keep (r : KeepRegs P) (s) (h : P s) : P (State.latchNs s) := by
  unfold State.latchNs
  repeat' first
    | with_reducible assumption
    | (extract_lets +onlyGivenNames a; refine (?_ : P a → _) ?_ <;> first | (intro _; clear_value a) | subst a)
    | (extract_lets +onlyGivenNames a; refine (?_ : P a.1 → _) ?_ <;> first | (intro _; clear_value a) | subst a)
    | (extract_lets +onlyGivenNames a; refine (?_ : P a.2 → _) ?_ <;> first | (intro _; clear_value a) | subst a)
    | (extract_lets +onlyGivenNames a; subst a)
    | intro _
    | with_reducible apply State.put_keep r
    | with_reducible apply Keep.ite
    | with_reducible apply Keep.cond
    | with_reducible apply Keep.foldl
    | split

theorem execCkTimeSecRead_keep (b : KeepBase P) (r : KeepRegs P) (x0 s) (h : P s) : ∀ t, (execCkTimeSecRead x0 s) = .next t → P t := by
  unfold execCkTimeSecRead
  intro t ht
  cases ht
  repeat' first
    | with_reducible assumption
    | (extract_lets +onlyGivenNames a; refine (?_ : P a → _) ?_ <;> first | (intro _; clear_value a) | subst a)
    | (extract_lets +onlyGivenNames a; refine (?_ : P a.1 → _) ?_ <;> first | (intro _; clear_value a) | subst a)
    | (extract_lets +onlyGivenNames a; refine (?_ : P a.2 → _) ?_ <;> first | (intro _; clear_value a) | subst a)
    | (extract_lets +onlyGivenNames a; subst a)
    | intro _
    | with_reducible apply State.emit_keep b
    | with_reducible apply State.latchNs_keep r
    | with_reducible apply State.viaUp_keep b
    | with_reducible apply Keep.ite
    | with_reducible apply Keep.cond
    | with_reducible apply Keep.foldl
    | split
    | with_reducible refine KeepBase.lit b rfl rfl rfl rfl rfl ?_
    | with_reducible refine KeepBase.litPool b rfl rfl rfl rfl rfl ?_

theorem State.noteOffset_keep (r : KeepRegs P) (s x1) (h : P s) : P (State.noteOffset s x1) := by
  unfold State.noteOffset
  repeat' first
    | with_reducible assumption
    | (extract_lets +onlyGivenNames a; refine (?_ : P a → _) ?_ <;> first | (intro _; clear_value a) | subst a)
    | (extract_lets +onlyGivenNames a; refine (?_ : P a.1 → _) ?_ <;> first | (intro _; clear_value a) | subst a)
    | (extract_lets +onlyGivenNames a; refine (?_ : P a.2 → _) ?_ <;> first | (intro _; clear_value a) | subst a)
    | (extract_lets +onlyGivenNames a; subst a)
    | intro _
    | with_reducible apply State.put_keep r
    | with_reducible apply Keep.ite
    | with_reducible apply Keep.cond
    | with_reducible apply Keep.foldl
    | split

theorem State.correct_keep (b : KeepBase P) (r : KeepRegs P) (n : KeepNear P) (t : KeepTime P) (p : KeepPurser P) (s x1) (h : P s) : P (State.correct s x1) := by
  unfold State.correct
  repeat' first
    | with_reducible assumption
    | (extract_lets +onlyGivenNames a; refine (?_ : P a → _) ?_ <;> first | (intro _; clear_value a) | subst a)
    | (extract_lets +onlyGivenNames a; refine (?_ : P a.1 → _) ?_ <;> first | (intro _; clear_value a) | subst a)
    | (extract_lets +onlyGivenNames a; refine (?_ : P a.2 → _) ?_ <;> first | (intro _; clear_value a) | subst a)
    | (extract_lets +onlyGivenNames a; subst a)
    | intro _
    | with_reducible apply State.noteOffset_keep r
    | with_reducible apply State.stepTime_keep b r n t p
    | with_reducible apply State.put_keep r
    | with_reducible apply Keep.ite
    | with_reducible apply Keep.cond
    | with_reducible apply Keep.foldl
    | split
    | with_reducible refine KeepBase.lit b rfl rfl rfl rfl rfl ?_
    | with_reducible refine KeepBase.litPool b rfl rfl rfl rfl rfl ?_

theorem State.ppsAccepted_keep (b : KeepBase P) (r : KeepRegs P) (n : KeepNear P) (t : KeepTime P) (p : KeepPurser P) (s) (h : P s) : P (State.ppsAccepted s) := by
  unfold State.ppsAccepted
  repeat' first
    | with_reducible assumption
    | (extract_lets +onlyGivenNames a; refine (?_ : P a → _) ?_ <;> first | (intro _; clear_value a) | subst a)
    | (extract_lets +onlyGivenNames a; refine (?_ : P a.1 → _) ?_ <;> first | (intro _; clear_value a) | subst a)
    | (extract_lets +onlyGivenNames a; refine (?_ : P a.2 → _) ?_ <;> first | (intro _; clear_value a) | subst a)
    | (extract_lets +onlyGivenNames a; subst a)
    | intro _
    | with_reducible apply State.correct_keep b r n t p
    | with_reducible apply State.put_keep r
    | with_reducible apply Keep.ite
    | with_reducible apply Keep.cond
    | with_reducible apply Keep.foldl
    | split
    | with_reducible refine KeepTime.lit t rfl rfl rfl rfl ?_

theorem execPpsEdge_keep (b : KeepBase P) (r : KeepRegs P) (n : KeepNear P) (t : KeepTime P) (p : KeepPurser P) (x0 x1 s) (h : P s) : ∀ t, (execPpsEdge x0 x1 s) = .next t → P t := by
  unfold execPpsEdge
  intro t ht
  cases ht
  repeat' first
    | with_reducible assumption
    | (extract_lets +onlyGivenNames a; refine (?_ : P a → _) ?_ <;> first | (intro _; clear_value a) | subst a)
    | (extract_lets +onlyGivenNames a; refine (?_ : P a.1 → _) ?_ <;> first | (intro _; clear_value a) | subst a)
    | (extract_lets +onlyGivenNames a; refine (?_ : P a.2 → _) ?_ <;> first | (intro _; clear_value a) | subst a)
    | (extract_lets +onlyGivenNames a; subst a)
    | intro _
    | with_reducible apply whenUp_keep 
    | with_reducible apply State.ppsAccepted_keep b r n t p
    | with_reducible apply State.bump_keep r
    | with_reducible apply Keep.ite
    | with_reducible apply Keep.cond
    | with_reducible apply Keep.foldl
    | split
    | with_reducible refine KeepBase.lit b rfl rfl rfl rfl rfl ?_
    | with_reducible refine KeepBase.litPool b rfl rfl rfl rfl rfl ?_

theorem execPpsHoldover_keep (r : KeepRegs P) (s) (h : P s) : ∀ t, (execPpsHoldover s) = .next t → P t := by
  unfold execPpsHoldover
  intro t ht
  cases ht
  repeat' first
    | with_reducible assumption
    | (extract_lets +onlyGivenNames a; refine (?_ : P a → _) ?_ <;> first | (intro _; clear_value a) | subst a)
    | (extract_lets +onlyGivenNames a; refine (?_ : P a.1 → _) ?_ <;> first | (intro _; clear_value a) | subst a)
    | (extract_lets +onlyGivenNames a; refine (?_ : P a.2 → _) ?_ <;> first | (intro _; clear_value a) | subst a)
    | (extract_lets +onlyGivenNames a; subst a)
    | intro _
    | with_reducible apply whenUp_keep 
    | with_reducible apply State.put_keep r
    | with_reducible apply Keep.ite
    | with_reducible apply Keep.cond
    | with_reducible apply Keep.foldl
    | split

theorem State.sendTime_keep (b : KeepBase P) (t : KeepTime P) (s x1 x2 x3 x4) (h : P s) : P (State.sendTime s x1 x2 x3 x4) := by
  unfold State.sendTime
  repeat' first
    | with_reducible assumption
    | (extract_lets +onlyGivenNames a; refine (?_ : P a → _) ?_ <;> first | (intro _; clear_value a) | subst a)
    | (extract_lets +onlyGivenNames a; refine (?_ : P a.1 → _) ?_ <;> first | (intro _; clear_value a) | subst a)
    | (extract_lets +onlyGivenNames a; refine (?_ : P a.2 → _) ?_ <;> first | (intro _; clear_value a) | subst a)
    | (extract_lets +onlyGivenNames a; subst a)
    | intro _
    | with_reducible apply State.releaseTimes_keep b t
    | with_reducible apply Keep.ite
    | with_reducible apply Keep.cond
    | with_reducible apply Keep.foldl
    | split
    | with_reducible refine KeepBase.lit b rfl rfl rfl rfl rfl ?_
    | with_reducible refine KeepBase.litPool b rfl rfl rfl rfl rfl ?_

theorem execTimeSync_keep (b : KeepBase P) (r : KeepRegs P) (n : KeepNear P) (t : KeepTime P) (p : KeepPurser P) (port x a s) (h : P s) : ∀ t, execTimeSync port x a s = .next t → P t := by
  unfold execTimeSync
  intro u hu
  cases hu
  refine whenUp_keep _ _ (fun s h => State.reservedOk_keep r _ _ _ _ (fun s h => ?_) h) h
  dsimp only
  split
  · exact h
  · have h1 : P { s with tb := { s.tb with syncTimes := some (x.time, a) } } := t.time (s := s) rfl rfl rfl rfl h
    split
    · exact State.correct_keep b r n t p _ _ h1
    · exact h1

theorem execSyncSend_keep (b : KeepBase P) (t : KeepTime P) (s) (h : P s) : ∀ t, (execSyncSend s) = .next t → P t := by
  unfold execSyncSend
  intro t ht
  cases ht
  repeat' first
    | with_reducible assumption
    | (extract_lets +onlyGivenNames a; refine (?_ : P a → _) ?_ <;> first | (intro _; clear_value a) | subst a)
    | (extract_lets +onlyGivenNames a; refine (?_ : P a.1 → _) ?_ <;> first | (intro _; clear_value a) | subst a)
    | (extract_lets +onlyGivenNames a; refine (?_ : P a.2 → _) ?_ <;> first | (intro _; clear_value a) | subst a)
    | (extract_lets +onlyGivenNames a; subst a)
    | intro _
    | with_reducible apply whenUp_keep 
    | with_reducible apply State.sendTime_keep b t
    | with_reducible apply Keep.ite
    | with_reducible apply Keep.cond
    | with_reducible apply Keep.foldl
    | split
    | with_reducible refine KeepBase.lit b rfl rfl rfl rfl rfl ?_
    | with_reducible refine KeepBase.litPool b rfl rfl rfl rfl rfl ?_

theorem execDelayReq_keep (b : KeepBase P) (r : KeepRegs P) (t : KeepTime P) (port x a s) (h : P s) : ∀ t, execDelayReq port x a s = .next t → P t := by
  unfold execDelayReq
  intro u hu
  cases hu
  exact whenUp_keep _ _ (fun s h => State.reservedOk_keep r _ _ _ _
    (fun s h => Keep.ite (State.sendTime_keep b t _ _ _ _ _ h) h) h) h

theorem execDelayReqSend_keep (b : KeepBase P) (t : KeepTime P) (s) (h : P s) : ∀ t, (execDelayReqSend s) = .next t → P t := by
  unfold execDelayReqSend
  intro t ht
  cases ht
  try dsimp only
  repeat' first
    | with_reducible assumption
    | intro _
    | with_reducible apply whenUp_keep 
    | with_reducible apply State.sendTime_keep b t
    | with_reducible apply Keep.ite
    | with_reducible apply Keep.cond
    | with_reducible apply Keep.foldl
    | split
    | with_reducible refine KeepTime.lit t rfl rfl rfl rfl ?_

theorem execDelayRsp_keep (b : KeepBase P) (r : KeepRegs P) (n : KeepNear P) (t : KeepTime P) (p : KeepPurser P) (port x s) (h : P s) : ∀ t, execDelayRsp port x s = .next t → P t := by
  unfold execDelayRsp
  intro u hu
  cases hu
  refine whenUp_keep _ _ (fun s h => State.reservedOk_keep r _ _ _ _ (fun s h => ?_) h) h
  dsimp only
  split
  · split
    · exact h
    · exact State.correct_keep b r n t p _ _ (t.time (s := s) rfl rfl rfl rfl h)
  · exact h

end Sys2Proof.Machine
end

