-- ==== Sys2Proof/Laws/KeepMgmt.lean ====
section
/-! SUPPORT. What each operation of Machine/Mgmt.lean keeps: a predicate that survives the named kinds of change survives it. -/

namespace Sys2Proof.Machine

variable {P : State → Prop}

theorem answer_keep (b : KeepBase P) (s) (f : State → Out) (h : P s) : ∀ t, answer s f = .next t → P t := by
  unfold answer
  intro t ht
  cases ht
  split
  · exact State.emit_keep b _ _ h
  · exact h

theorem execGetVersion_keep (b : KeepBase P) (s) (h : P s) : ∀ t, (execGetVersion s) = .next t → P t := by
  unfold execGetVersion
  intro t ht
  cases ht
  repeat' first
    | with_reducible assumption
    | (extract_lets +onlyGivenNames a; refine (?_ : P a → _) ?_ <;> first | (intro _; clear_value a) | subst a)
    | (extract_lets +onlyGivenNames a; refine (?_ : P a.1 → _) ?_ <;> first | (intro _; clear_value a) | subst a)
    | (extract_lets +onlyGivenNames a; refine (?_ : P a.2 → _) ?_ <;> first | (intro _; clear_value a) | subst a)
    | (extract_lets +onlyGivenNames a; subst a)
    | intro _
    | with_reducible apply State.emit_keep b
    | with_reducible apply Keep.ite
    | with_reducible apply Keep.cond
    | with_reducible apply Keep.foldl
    | split
    | with_reducible refine KeepBase.lit b rfl rfl rfl rfl rfl ?_
    | with_reducible refine KeepBase.litPool b rfl rfl rfl rfl rfl ?_

theorem execGetCapabilities_keep (b : KeepBase P) (s) (h : P s) : ∀ t, (execGetCapabilities s) = .next t → P t := by
  unfold execGetCapabilities
  exact answer_keep b _ _ h


theorem execNegotiateAlgorithms_keep (b : KeepBase P) (s) (h : P s) : ∀ t, (execNegotiateAlgorithms s) = .next t → P t := by
  unfold execNegotiateAlgorithms
  exact answer_keep b _ _ h


theorem execGetDigests_keep (b : KeepBase P) (x0 s) (h : P s) : ∀ t, (execGetDigests x0 s) = .next t → P t := by
  unfold execGetDigests
  exact answer_keep b _ _ h


theorem execGetCertificate_keep (b : KeepBase P) (x0 s) (h : P s) : ∀ t, (execGetCertificate x0 s) = .next t → P t := by
  unfold execGetCertificate
  exact answer_keep b _ _ h


theorem execChallenge_keep (b : KeepBase P) (x0 x1 s) (h : P s) : ∀ t, (execChallenge x0 x1 s) = .next t → P t := by
  unfold execChallenge
  exact answer_keep b _ _ h


theorem execGetMeasurements_keep (b : KeepBase P) (x0 x1 s) (h : P s) : ∀ t, (execGetMeasurements x0 x1 s) = .next t → P t := by
  unfold execGetMeasurements
  exact answer_keep b _ _ h


theorem execSetEndpointId_keep (b : KeepBase P) (x0 s) (h : P s) : ∀ t, (execSetEndpointId x0 s) = .next t → P t := by
  unfold execSetEndpointId
  intro t ht
  cases ht
  repeat' first
    | with_reducible assumption
    | (extract_lets +onlyGivenNames a; refine (?_ : P a → _) ?_ <;> first | (intro _; clear_value a) | subst a)
    | (extract_lets +onlyGivenNames a; refine (?_ : P a.1 → _) ?_ <;> first | (intro _; clear_value a) | subst a)
    | (extract_lets +onlyGivenNames a; refine (?_ : P a.2 → _) ?_ <;> first | (intro _; clear_value a) | subst a)
    | (extract_lets +onlyGivenNames a; subst a)
    | intro _
    | with_reducible apply State.emit_keep b
    | with_reducible apply Keep.ite
    | with_reducible apply Keep.cond
    | with_reducible apply Keep.foldl
    | split
    | with_reducible refine KeepBase.lit b rfl rfl rfl rfl rfl ?_
    | with_reducible refine KeepBase.litPool b rfl rfl rfl rfl rfl ?_

theorem execGetEndpointId_keep (b : KeepBase P) (s) (h : P s) : ∀ t, (execGetEndpointId s) = .next t → P t := by
  unfold execGetEndpointId
  exact answer_keep b _ _ h


theorem execGetMctpVersionSupport_keep (b : KeepBase P) (x0 s) (h : P s) : ∀ t, (execGetMctpVersionSupport x0 s) = .next t → P t := by
  unfold execGetMctpVersionSupport
  exact answer_keep b _ _ h


theorem execGetMessageTypeSupport_keep (b : KeepBase P) (s) (h : P s) : ∀ t, (execGetMessageTypeSupport s) = .next t → P t := by
  unfold execGetMessageTypeSupport
  exact answer_keep b _ _ h


theorem execGettid_keep (b : KeepBase P) (s) (h : P s) : ∀ t, (execGettid s) = .next t → P t := by
  unfold execGettid
  exact answer_keep b _ _ h


theorem execGetpldmversion_keep (b : KeepBase P) (x0 s) (h : P s) : ∀ t, (execGetpldmversion x0 s) = .next t → P t := by
  unfold execGetpldmversion
  exact answer_keep b _ _ h


theorem execGetpldmtypes_keep (b : KeepBase P) (s) (h : P s) : ∀ t, (execGetpldmtypes s) = .next t → P t := by
  unfold execGetpldmtypes
  exact answer_keep b _ _ h


theorem execGetpldmcommands_keep (b : KeepBase P) (x0 s) (h : P s) : ∀ t, (execGetpldmcommands x0 s) = .next t → P t := by
  unfold execGetpldmcommands
  exact answer_keep b _ _ h


theorem execGetpdr_keep (b : KeepBase P) (x0 s) (h : P s) : ∀ t, (execGetpdr x0 s) = .next t → P t := by
  unfold execGetpdr
  exact answer_keep b _ _ h


theorem execGetsensorreading_keep (b : KeepBase P) (x0 s) (h : P s) : ∀ t, (execGetsensorreading x0 s) = .next t → P t := by
  unfold execGetsensorreading
  exact answer_keep b _ _ h


theorem execGetstatesensorreadings_keep (b : KeepBase P) (x0 s) (h : P s) : ∀ t, (execGetstatesensorreadings x0 s) = .next t → P t := by
  unfold execGetstatesensorreadings
  exact answer_keep b _ _ h


theorem execSeteventreceiver_keep (b : KeepBase P) (x0 s) (h : P s) : ∀ t, (execSeteventreceiver x0 s) = .next t → P t := by
  unfold execSeteventreceiver
  intro t ht
  cases ht
  repeat' first
    | with_reducible assumption
    | (extract_lets +onlyGivenNames a; refine (?_ : P a → _) ?_ <;> first | (intro _; clear_value a) | subst a)
    | (extract_lets +onlyGivenNames a; refine (?_ : P a.1 → _) ?_ <;> first | (intro _; clear_value a) | subst a)
    | (extract_lets +onlyGivenNames a; refine (?_ : P a.2 → _) ?_ <;> first | (intro _; clear_value a) | subst a)
    | (extract_lets +onlyGivenNames a; subst a)
    | intro _
    | with_reducible apply State.emit_keep b
    | with_reducible apply Keep.ite
    | with_reducible apply Keep.cond
    | with_reducible apply Keep.foldl
    | split
    | with_reducible refine KeepBase.lit b rfl rfl rfl rfl rfl ?_
    | with_reducible refine KeepBase.litPool b rfl rfl rfl rfl rfl ?_

theorem execSetdasa_keep (b : KeepBase P) (x0 x1 s) (h : P s) : ∀ t, (execSetdasa x0 x1 s) = .next t → P t := by
  unfold execSetdasa
  intro t ht
  cases ht
  repeat' first
    | with_reducible assumption
    | (extract_lets +onlyGivenNames a; refine (?_ : P a → _) ?_ <;> first | (intro _; clear_value a) | subst a)
    | (extract_lets +onlyGivenNames a; refine (?_ : P a.1 → _) ?_ <;> first | (intro _; clear_value a) | subst a)
    | (extract_lets +onlyGivenNames a; refine (?_ : P a.2 → _) ?_ <;> first | (intro _; clear_value a) | subst a)
    | (extract_lets +onlyGivenNames a; subst a)
    | intro _
    | with_reducible apply Keep.ite
    | with_reducible apply Keep.cond
    | with_reducible apply Keep.foldl
    | split
    | with_reducible refine KeepBase.lit b rfl rfl rfl rfl rfl ?_
    | with_reducible refine KeepBase.litPool b rfl rfl rfl rfl rfl ?_

theorem execEntdaa_keep (b : KeepBase P) (x0 s) (h : P s) : ∀ t, (execEntdaa x0 s) = .next t → P t := by
  unfold execEntdaa
  intro t ht
  cases ht
  repeat' first
    | with_reducible assumption
    | (extract_lets +onlyGivenNames a; refine (?_ : P a → _) ?_ <;> first | (intro _; clear_value a) | subst a)
    | (extract_lets +onlyGivenNames a; refine (?_ : P a.1 → _) ?_ <;> first | (intro _; clear_value a) | subst a)
    | (extract_lets +onlyGivenNames a; refine (?_ : P a.2 → _) ?_ <;> first | (intro _; clear_value a) | subst a)
    | (extract_lets +onlyGivenNames a; subst a)
    | intro _
    | with_reducible apply State.emit_keep b
    | with_reducible apply Keep.ite
    | with_reducible apply Keep.cond
    | with_reducible apply Keep.foldl
    | split
    | with_reducible refine KeepBase.lit b rfl rfl rfl rfl rfl ?_
    | with_reducible refine KeepBase.litPool b rfl rfl rfl rfl rfl ?_

theorem State.jtagActs_keep (b : KeepBase P) (s x1 x2 x3) (h : P s) : P (State.jtagActs s x1 x2 x3) := by
  unfold State.jtagActs
  repeat' first
    | with_reducible assumption
    | (extract_lets +onlyGivenNames a; refine (?_ : P a → _) ?_ <;> first | (intro _; clear_value a) | subst a)
    | (extract_lets +onlyGivenNames a; refine (?_ : P a.1 → _) ?_ <;> first | (intro _; clear_value a) | subst a)
    | (extract_lets +onlyGivenNames a; refine (?_ : P a.2 → _) ?_ <;> first | (intro _; clear_value a) | subst a)
    | (extract_lets +onlyGivenNames a; subst a)
    | intro _
    | with_reducible apply State.emit_keep b
    | with_reducible apply Keep.ite
    | with_reducible apply Keep.cond
    | with_reducible apply Keep.foldl
    | split
    | with_reducible refine KeepBase.lit b rfl rfl rfl rfl rfl ?_
    | with_reducible refine KeepBase.litPool b rfl rfl rfl rfl rfl ?_

theorem State.jtagBypass_keep (b : KeepBase P) (s) (h : P s) : P (State.jtagBypass s) := by
  unfold State.jtagBypass
  repeat' first
    | with_reducible assumption
    | (extract_lets +onlyGivenNames a; refine (?_ : P a → _) ?_ <;> first | (intro _; clear_value a) | subst a)
    | (extract_lets +onlyGivenNames a; refine (?_ : P a.1 → _) ?_ <;> first | (intro _; clear_value a) | subst a)
    | (extract_lets +onlyGivenNames a; refine (?_ : P a.2 → _) ?_ <;> first | (intro _; clear_value a) | subst a)
    | (extract_lets +onlyGivenNames a; subst a)
    | intro _
    | with_reducible apply State.jtagActs_keep b
    | with_reducible apply Keep.ite
    | with_reducible apply Keep.cond
    | with_reducible apply Keep.foldl
    | split
    | with_reducible refine KeepBase.lit b rfl rfl rfl rfl rfl ?_
    | with_reducible refine KeepBase.litPool b rfl rfl rfl rfl rfl ?_

theorem execJtagInstruction_keep (b : KeepBase P) (x0 s) (h : P s) : ∀ t, execJtagInstruction x0 s = .next t → P t := by
  intro t ht
  have key : P s.jtagBypass ∧ ∀ i n v, P (s.jtagActs i n v) :=
    ⟨State.jtagBypass_keep b _ h, fun i n v => State.jtagActs_keep b _ _ _ _ h⟩
  unfold execJtagInstruction at ht
  split at ht
  · cases ht
    exact h
  · split at ht
    case _ => cases ht; exact key.1
    case _ => cases ht; exact key.2 _ _ _
    case _ => cases ht; exact key.2 _ _ _
    case _ => cases ht; exact Keep.ite (key.2 _ _ _) key.1
    case _ => cases ht; exact Keep.ite (key.2 _ _ _) key.1
    case _ => cases ht; exact Keep.ite (key.2 _ _ _) key.1
    case _ => cases ht; exact key.2 _ _ _
    case _ =>
      split at ht
      · cases ht
      · cases ht
        exact key.1

end Sys2Proof.Machine
end

