-- ==== Sys2Proof/Laws/KeepDispatch.lean ====
section
/-! SUPPORT. What each operation of Machine/Dispatch.lean keeps: a predicate that survives the named kinds of change survives it. -/

namespace Sys2Proof.Machine

variable {P : State → Prop}

theorem exec_keep (b : KeepBase P) (r : KeepRegs P) (n : KeepNear P) (t : KeepTime P) (p : KeepPurser P) (i : Instr) (s : State) (h : P s) :
    ∀ u, exec i s = .next u → P u := by
  cases i with
  | powerGood x0 x1 x2 => exact execPowerGood_keep b r n t p _ _ _ s h
  | bootRom => exact execBootRom_keep b r p s h
  | hubRelease => exact execHubRelease_keep b r n t p s h
  | stackTrainingDone x0 => exact execStackTrainingDone_keep b r _ s h
  | zeroFillDone => exact execZeroFillDone_keep b n s h
  | deckSelfTest x0 => exact execDeckSelfTest_keep b r _ s h
  | refclkCheck x0 x1 => exact execRefclkCheck_keep b r _ _ s h
  | clockLoss x0 => exact execClockLoss_keep b r _ s h
  | railCheck x0 => exact execRailCheck_keep b r n t p _ s h
  | inputVoltageChange x0 x1 => exact execInputVoltageChange_keep b r n t p _ _ s h
  | powerFail => exact execPowerFail_keep b r n t p s h
  | powerSample x0 x1 => exact execPowerSample_keep b r n t p _ _ s h
  | tideEdge => exact execTideEdge_keep b r n p s h
  | thermalSample x0 => exact execThermalSample_keep b r _ s h
  | thermalLevelUpdate => exact execThermalLevelUpdate_keep b r s h
  | fatalError x0 => exact execFatalError_keep b r _ s h
  | d2dLaneRepair x0 x1 => exact execD2dLaneRepair_keep b r _ _ s h
  | purserFail => exact execPurserFail_keep b r s h
  | resetN x0 => exact execResetN_keep b r n t p _ s h
  | moduleReset x0 => exact execModuleReset_keep r n t p _ s h
  | hsReset x0 x1 => exact execHsReset_keep b r n t p _ _ s h
  | perstN x0 x1 => exact execPerstN_keep b _ _ s h
  | enableN x0 x1 => exact execEnableN_keep b r n t p _ _ s h
  | cblPrsntN x0 x1 x2 x3 => exact execCblPrsntN_keep b r _ _ _ _ s h
  | sprPrsntN x0 x1 x2 => exact execSprPrsntN_keep r _ _ _ s h
  | fprsntN x0 x1 x2 => exact execFprsntN_keep b r n p _ _ _ s h
  | ppsEdge x0 x1 => exact execPpsEdge_keep b r n t p _ _ s h
  | ppsHoldover => exact execPpsHoldover_keep r s h
  | ckTimeSet x0 x1 => exact execCkTimeSet_keep b r n t p _ _ s h
  | ckTimeSecRead x0 => exact execCkTimeSecRead_keep b r _ s h
  | timeSync x0 x1 x2 => exact execTimeSync_keep b r n t p _ _ _ s h
  | syncSend => exact execSyncSend_keep b t s h
  | delayReq x0 x1 x2 => exact execDelayReq_keep b r t _ _ _ s h
  | delayReqSend => exact execDelayReqSend_keep b t s h
  | delayRsp x0 x1 => exact execDelayRsp_keep b r n t p _ _ s h
  | registerWrite x0 x1 x2 x3 => exact execRegisterWrite_keep b r n t p _ _ _ _ s h
  | fareCommit x0 x1 x2 => exact execFareCommit_keep b r _ _ _ s h
  | contextEnable x0 => exact execContextEnable_keep b r _ s h
  | contextDisable x0 => exact execContextDisable_keep b r n _ s h
  | contextPause x0 => exact execContextPause_keep r _ s h
  | contextResume x0 => exact execContextResume_keep r _ s h
  | contextDrainComplete x0 => exact execContextDrainComplete_keep b r n _ s h
  | db x0 => exact execDb_keep b r _ s h
  | completionHeadDoorbell x0 => exact execCompletionHeadDoorbell_keep b r _ s h
  | descriptorFetch x0 => exact execDescriptorFetch_keep b r n _ s h
  | commandDispatch x0 => exact execCommandDispatch_keep b r n _ s h
  | recordCommit x0 => exact execRecordCommit_keep b r n _ s h
  | commandTimeout x0 => exact execCommandTimeout_keep b r n _ s h
  | nop x0 => exact execNop_keep b r _ s h
  | abort x0 => exact execAbort_keep b r n _ s h
  | cross x0 => exact execCross_keep b r n p _ s h
  | score x0 => exact execScore_keep b r n p _ s h
  | matmul x0 => exact execMatmul_keep b r n p _ s h
  | search x0 => exact execSearch_keep b r n p _ s h
  | select x0 => exact execSelect_keep b r n p _ s h
  | gather x0 => exact execGather_keep b r n p _ s h
  | filter x0 => exact execFilter_keep b r n p _ s h
  | append x0 => exact execAppend_keep b r n p _ s h
  | merge x0 => exact execMerge_keep b r n p _ s h
  | reduce x0 => exact execReduce_keep b r n p _ s h
  | copy x0 => exact execCopy_keep b r n p _ s h
  | manifestStart x0 => exact execManifestStart_keep b r n _ s h
  | manifestStop x0 => exact execManifestStop_keep b r _ s h
  | fill x0 => exact execFill_keep b r n p _ s h
  | bind x0 => exact execBind_keep b r n p _ s h
  | clean x0 => exact execClean_keep b r _ s h
  | evict x0 => exact execEvict_keep b r _ s h
  | acquire x0 => exact execAcquire_keep b r n _ s h
  | publishUpdate x0 => exact execPublishUpdate_keep b r n _ s h
  | publishInit x0 => exact execPublishInit_keep b r n _ s h
  | publishXfer x0 => exact execPublishXfer_keep b r n _ s h
  | publishFree x0 => exact execPublishFree_keep b r n _ s h
  | fence x0 => exact execFence_keep b r n _ s h
  | flushComplete x0 => exact execFlushComplete_keep b r n _ s h
  | atomicAdd x0 => exact execAtomicAdd_keep b r n _ s h
  | atomicOr x0 => exact execAtomicOr_keep b r n _ s h
  | atomicAnd x0 => exact execAtomicAnd_keep b r n _ s h
  | atomicMax x0 => exact execAtomicMax_keep b r n _ s h
  | atomicMin x0 => exact execAtomicMin_keep b r n _ s h
  | atomicSwap x0 => exact execAtomicSwap_keep b r n _ s h
  | atomicCas x0 => exact execAtomicCas_keep b r n _ s h
  | semInit x0 => exact execSemInit_keep b r n _ s h
  | semGive x0 => exact execSemGive_keep b r n _ s h
  | semFree x0 => exact execSemFree_keep b r n _ s h
  | wait x0 => exact execWait_keep b r n _ s h
  | handoffCreate x0 => exact execHandoffCreate_keep b r n _ s h
  | handoffOffer x0 => exact execHandoffOffer_keep b r n _ s h
  | handoffConfirm x0 => exact execHandoffConfirm_keep b r n _ s h
  | handoffQuery x0 => exact execHandoffQuery_keep b r n _ s h
  | handoffRelease x0 => exact execHandoffRelease_keep b r n _ s h
  | handoffDeadline x0 => exact execHandoffDeadline_keep b r n p _ s h
  | homeAnswer x0 => exact execHomeAnswer_keep b _ s h
  | acquireTimeout x0 => exact execAcquireTimeout_keep b r _ s h
  | waitTimeout x0 => exact execWaitTimeout_keep b r _ s h
  | semLeaseExpiry x0 x1 => exact execSemLeaseExpiry_keep b r n p _ _ s h
  | homeNextRequest x0 => exact execHomeNextRequest_keep b r n p _ s h
  | homeBatchApply x0 => exact execHomeBatchApply_keep b r n p _ s h
  | rdS x0 => exact execRdS_keep b r n p _ s h
  | rdO x0 => exact execRdO_keep b r n p _ s h
  | upg x0 => exact execUpg_keep b r n p _ s h
  | rdU x0 => exact execRdU_keep b r n p _ s h
  | wrU x0 => exact execWrU_keep b r n p _ s h
  | atomicFrame x0 => exact execAtomicFrame_keep b r n p _ s h
  | tallySt x0 => exact execTallySt_keep b r n p _ s h
  | wb x0 => exact execWb_keep b r n p _ s h
  | snpAck x0 x1 x2 x3 => exact execSnpAck_keep b r n p _ _ _ _ s h
  | snoopTargetLost x0 x1 => exact execSnoopTargetLost_keep b r n p _ _ s h
  | replyCacheExpiry x0 x1 => exact execReplyCacheExpiry_keep b _ _ s h
  | ld x0 x1 => exact execLd_keep b r n p _ _ s h
  | stNp x0 => exact execStNp_keep b r n p _ s h
  | st x0 x1 => exact execSt_keep b r n p _ _ s h
  | ldData x0 x1 x2 => exact execLdData_keep b r n p _ _ _ s h
  | stRsp x0 => exact execStRsp_keep b r n p _ s h
  | contrib x0 => exact execContrib_keep b r n _ s h
  | result x0 => exact execResult_keep b r n p _ s h
  | doneFrame x0 => exact execDoneFrame_keep b r n _ s h
  | contribTimeout x0 x1 => exact execContribTimeout_keep b r n _ _ s h
  | reduceChunkComplete x0 => exact execReduceChunkComplete_keep b r n p _ s h
  | groupActivate x0 => exact execGroupActivate_keep r _ s h
  | groupDrain x0 => exact execGroupDrain_keep r _ s h
  | groupDrainComplete x0 => exact execGroupDrainComplete_keep b r _ s h
  | ack x0 => exact execAck_keep b r _ s h
  | ackTimer x0 => exact execAckTimer_keep b r _ s h
  | nack x0 => exact execNack_keep b r _ s h
  | gapNackTimer x0 => exact execGapNackTimer_keep b r _ s h
  | retxTimer x0 x1 => exact execRetxTimer_keep b r n p _ _ s h
  | credit x0 x1 => exact execCredit_keep b r _ _ s h
  | creditSend x0 => exact execCreditSend_keep b _ s h
  | lparam x0 x1 => exact execLparam_keep b r _ _ s h
  | laneCtl x0 x1 x2 => exact execLaneCtl_keep b r _ _ _ s h
  | codewordUncorrectable x0 x1 => exact execCodewordUncorrectable_keep b r _ _ s h
  | frameForward x0 x1 => exact execFrameForward_keep b r _ _ s h
  | bufferAdmission x0 => exact execBufferAdmission_keep b r _ s h
  | frameSelect x0 x1 => exact execFrameSelect_keep b r _ _ s h
  | reseqGapTimeout x0 x1 => exact execReseqGapTimeout_keep b r _ _ s h
  | reseqFlowEvict x0 x1 => exact execReseqFlowEvict_keep b _ _ s h
  | frameAgeOut x0 => exact execFrameAgeOut_keep b r _ s h
  | tokenBucketRefill => exact execTokenBucketRefill_keep b s h
  | gateEntryBoundary x0 => exact execGateEntryBoundary_keep b r t _ s h
  | gclCommit x0 => exact execGclCommit_keep b r _ s h
  | gclActivate x0 => exact execGclActivate_keep b r t _ s h
  | leakAuditPass x0 x1 x2 => exact execLeakAuditPass_keep b r _ _ _ s h
  | bankRetire x0 => exact execBankRetire_keep b r _ s h
  | mcWrite x0 x1 => exact execMcWrite_keep b r _ _ s h
  | portEnable x0 => exact execPortEnable_keep b r _ s h
  | portDisable x0 => exact execPortDisable_keep b r _ s h
  | trainingStepDone x0 => exact execTrainingStepDone_keep b r _ s h
  | trainingStepTimeout x0 x1 => exact execTrainingStepTimeout_keep b r _ _ s h
  | trainingRetry x0 => exact execTrainingRetry_keep b r _ s h
  | linkLost x0 => exact execLinkLost_keep b r _ s h
  | laneFailure x0 x1 => exact execLaneFailure_keep b r _ _ s h
  | lkLaneRetire x0 x1 => exact execLkLaneRetire_keep b r _ _ s h
  | portFence x0 => exact execPortFence_keep b r n p _ s h
  | routeWrite x0 x1 => exact execRouteWrite_keep b r _ _ s h
  | mapWrite x0 x1 => exact execMapWrite_keep b r _ _ s h
  | epochActivate x0 => exact execEpochActivate_keep b r n p _ s h
  | epochRetire x0 x1 => exact execEpochRetire_keep b r n _ _ s h
  | grant x0 => exact execGrant_keep b r n p _ s h
  | moor x0 => exact execMoor_keep b r n p _ s h
  | renew x0 => exact execRenew_keep b r n p _ s h
  | unmoor x0 => exact execUnmoor_keep b r n p _ s h
  | revoke x0 => exact execRevoke_keep b r n p _ s h
  | leaseEnd x0 x1 => exact execLeaseEnd_keep b _ _ s h
  | graceEnd x0 x1 => exact execGraceEnd_keep b r n p _ _ s h
  | drainUsExpiry x0 x1 => exact execDrainUsExpiry_keep b r n p _ _ s h
  | drainComplete x0 x1 => exact execDrainComplete_keep b r _ _ s h
  | scrubComplete x0 x1 => exact execScrubComplete_keep b r n _ _ s h
  | patrolScrub x0 => exact execPatrolScrub_keep b r n p _ s h
  | rowRepair x0 x1 => exact execRowRepair_keep b r _ _ s h
  | channelRetireRequest x0 => exact execChannelRetireRequest_keep b r _ s h
  | migrationComplete x0 => exact execMigrationComplete_keep b r _ s h
  | channelFail x0 => exact execChannelFail_keep b r n p _ s h
  | granuleReadReturn x0 x1 x2 x3 x4 => exact execGranuleReadReturn_keep b r n p _ _ _ _ _ s h
  | gatherUnitError x0 x1 => exact execGatherUnitError_keep b r _ _ s h
  | filterUnitError x0 x1 => exact execFilterUnitError_keep b r _ _ s h
  | reduceUnitError x0 x1 => exact execReduceUnitError_keep b r _ _ s h
  | filterTransferBoundary x0 => exact execFilterTransferBoundary_keep b r n p _ s h
  | legBoundary x0 => exact execLegBoundary_keep b r n p _ s h
  | passStep x0 x1 => exact execPassStep_keep b r n _ _ s h
  | legEnd x0 x1 => exact execLegEnd_keep b r n p _ _ s h
  | legReexecution x0 x1 => exact execLegReexecution_keep b r n p _ _ s h
  | suspectExpiry x0 x1 => exact execSuspectExpiry_keep r _ _ s h
  | quiesce x0 => exact execQuiesce_keep b r _ s h
  | save x0 => exact execSave_keep b r _ s h
  | restore x0 => exact execRestore_keep b r _ s h
  | fullSaveComplete x0 x1 => exact execFullSaveComplete_keep b r _ _ s h
  | writeBackAge x0 x1 x2 => exact execWriteBackAge_keep b r _ _ _ s h
  | tierWaitExpiry x0 => exact execTierWaitExpiry_keep b r n _ s h
  | nvmeCompletion x0 x1 x2 x3 => exact execNvmeCompletion_keep b r n p _ _ _ _ s h
  | nvmeTimeout x0 x1 => exact execNvmeTimeout_keep b r n p _ _ s h
  | driveDiscovery x0 x1 => exact execDriveDiscovery_keep b r _ _ s h
  | getLogPagePoll => exact execGetLogPagePoll_keep b s h
  | trayFailure x0 => exact execTrayFailure_keep b r n p _ s h
  | trayRequestTimeout x0 => exact execTrayRequestTimeout_keep b r n p _ s h
  | alloc x0 => exact execAlloc_keep b r _ s h
  | trayBerthFree x0 => exact execTrayBerthFree_keep b r _ s h
  | rebuild x0 x1 => exact execRebuild_keep b r _ _ s h
  | rebuildComplete x0 => exact execRebuildComplete_keep b _ s h
  | create x0 x1 => exact execCreate_keep b r n p _ _ s h
  | destroy x0 x1 => exact execDestroy_keep b r n p _ _ s h
  | teardownContinue x0 => exact execTeardownContinue_keep b r _ s h
  | contain x0 x1 => exact execContain_keep b r n p _ _ s h
  | logEnable x0 => exact execLogEnable_keep b r _ s h
  | logHeadWrite x0 x1 => exact execLogHeadWrite_keep b r _ _ s h
  | logEntryWrite => exact execLogEntryWrite_keep b r s h
  | commitSvn x0 => exact execCommitSvn_keep b p _ s h
  | imageUpdate x0 => exact execImageUpdate_keep b r _ s h
  | sealData x0 => exact execSeal_keep b r p _ s h
  | sealHashDone x0 => exact execSealHashDone_keep b p _ s h
  | unsealData x0 => exact execUnseal_keep b r p _ s h
  | debugUnlock x0 => exact execDebugUnlock_keep b r n p _ s h
  | jtagInstruction x0 => exact execJtagInstruction_keep b _ s h
  | getVersion => exact execGetVersion_keep b s h
  | getCapabilities => exact execGetCapabilities_keep b s h
  | negotiateAlgorithms => exact execNegotiateAlgorithms_keep b s h
  | getDigests x0 => exact execGetDigests_keep b _ s h
  | getCertificate x0 => exact execGetCertificate_keep b _ s h
  | challenge x0 x1 => exact execChallenge_keep b _ _ s h
  | getMeasurements x0 x1 => exact execGetMeasurements_keep b _ _ s h
  | setEndpointId x0 => exact execSetEndpointId_keep b _ s h
  | getEndpointId => exact execGetEndpointId_keep b s h
  | getMctpVersionSupport x0 => exact execGetMctpVersionSupport_keep b _ s h
  | getMessageTypeSupport => exact execGetMessageTypeSupport_keep b s h
  | gettid => exact execGettid_keep b s h
  | getpldmversion x0 => exact execGetpldmversion_keep b _ s h
  | getpldmtypes => exact execGetpldmtypes_keep b s h
  | getpldmcommands x0 => exact execGetpldmcommands_keep b _ s h
  | getpdr x0 => exact execGetpdr_keep b _ s h
  | getsensorreading x0 => exact execGetsensorreading_keep b _ s h
  | getstatesensorreadings x0 => exact execGetstatesensorreadings_keep b _ s h
  | seteventreceiver x0 => exact execSeteventreceiver_keep b _ s h
  | setdasa x0 x1 => exact execSetdasa_keep b _ _ s h
  | entdaa x0 => exact execEntdaa_keep b _ s h
  | laneCtlTimeout x0 => exact execLaneCtlTimeout_keep b r _ s h
  | imageUpdateDone x0 x1 => exact execImageUpdateDone_keep r p _ _ s h
  | unlockZeroFillDone => exact execUnlockZeroFillDone_keep b r n p s h
  | selfTestDone x0 => exact execSelfTestDone_keep b r _ s h
  | rcRegisterRead x0 x1 x2 => exact execRcRegisterRead_keep b r p _ _ _ s h
  | fperstNRelease x0 => exact execFperstNRelease_keep b r _ s h
  | resetNRelease => exact execResetNRelease_keep b s h

end Sys2Proof.Machine
end

