-- ==== Sys2Proof/Laws/KeepStep.lean ====
section
/-! SUPPORT. What each operation of Machine/Step.lean keeps: a predicate that survives the named kinds of change survives it. -/

namespace Sys2Proof.Machine

variable {P : State → Prop}

theorem step_keep (b : KeepBase P) (r : KeepRegs P) (n : KeepNear P) (t : KeepTime P) (p : KeepPurser P)
    (q : ∀ (s : State) (l : List Instr), P s → P { s with pending := l }) (s : State) (h : P s) :
    ∀ u, step s = .next u → P u := by
  unfold step
  intro u hu
  split at hu
  · cases hu
    exact State.idle_keep b r t _ h
  · exact exec_keep b r n t p _ _ (q _ _ h) _ hu

-- nothing

end Sys2Proof.Machine
end

