-- ==== Sys2Proof/Laws/State.lean ====
section
/-! SUPPORT. Each update of State field by field, so that no proof unfolds a record update, and reads of registers after
writes. -/

namespace Sys2Proof.Machine

@[simp] theorem State.put_tb (s : State) (F : RegField) (i v : Nat) : (s.put F i v).tb = s.tb := by unfold State.put; split <;> rfl
@[simp] theorem State.put_pwr (s : State) (F : RegField) (i v : Nat) : (s.put F i v).pwr = s.pwr := by unfold State.put; split <;> rfl
@[simp] theorem State.put_ps (s : State) (F : RegField) (i v : Nat) : (s.put F i v).ps = s.ps := by unfold State.put; split <;> rfl
@[simp] theorem State.put_fe (s : State) (F : RegField) (i v : Nat) : (s.put F i v).fe = s.fe := by unfold State.put; split <;> rfl
@[simp] theorem State.put_deckA (s : State) (F : RegField) (i v : Nat) : (s.put F i v).deckA = s.deckA := by unfold State.put; split <;> rfl
@[simp] theorem State.put_deckB (s : State) (F : RegField) (i v : Nat) : (s.put F i v).deckB = s.deckB := by unfold State.put; split <;> rfl
@[simp] theorem State.put_pt (s : State) (F : RegField) (i v : Nat) : (s.put F i v).pt = s.pt := by unfold State.put; split <;> rfl
@[simp] theorem State.put_co (s : State) (F : RegField) (i v : Nat) : (s.put F i v).co = s.co := by unfold State.put; split <;> rfl
@[simp] theorem State.put_pm (s : State) (F : RegField) (i v : Nat) : (s.put F i v).pm = s.pm := by unfold State.put; split <;> rfl
@[simp] theorem State.put_ho (s : State) (F : RegField) (i v : Nat) : (s.put F i v).ho = s.ho := by unfold State.put; split <;> rfl
@[simp] theorem State.put_te (s : State) (F : RegField) (i v : Nat) : (s.put F i v).te = s.te := by unfold State.put; split <;> rfl
@[simp] theorem State.put_ty (s : State) (F : RegField) (i v : Nat) : (s.put F i v).ty = s.ty := by unfold State.put; split <;> rfl
@[simp] theorem State.put_fl (s : State) (F : RegField) (i v : Nat) : (s.put F i v).fl = s.fl := by unfold State.put; split <;> rfl
@[simp] theorem State.put_lp (s : State) (F : RegField) (i v : Nat) : (s.put F i v).lp = s.lp := by unfold State.put; split <;> rfl
@[simp] theorem State.put_lk (s : State) (F : RegField) (i v : Nat) : (s.put F i v).lk = s.lk := by unfold State.put; split <;> rfl
@[simp] theorem State.put_sc (s : State) (F : RegField) (i v : Nat) : (s.put F i v).sc = s.sc := by unfold State.put; split <;> rfl
@[simp] theorem State.put_tm (s : State) (F : RegField) (i v : Nat) : (s.put F i v).tm = s.tm := by unfold State.put; split <;> rfl
@[simp] theorem State.put_hs (s : State) (F : RegField) (i v : Nat) : (s.put F i v).hs = s.hs := by unfold State.put; split <;> rfl
@[simp] theorem State.put_mg (s : State) (F : RegField) (i v : Nat) : (s.put F i v).mg = s.mg := by unfold State.put; split <;> rfl
@[simp] theorem State.put_out (s : State) (F : RegField) (i v : Nat) : (s.put F i v).out = s.out := by unfold State.put; split <;> rfl
@[simp] theorem State.put_freeCtr (s : State) (F : RegField) (i v : Nat) : (s.put F i v).freeCtr = s.freeCtr := by unfold State.put; split <;> rfl
@[simp] theorem State.put_pending (s : State) (F : RegField) (i v : Nat) : (s.put F i v).pending = s.pending := by unfold State.put; split <;> rfl

@[simp] theorem State.bump_tb (s : State) (F : RegField) (i n : Nat) : (s.bump F i n).tb = s.tb := State.put_tb ..
@[simp] theorem State.bump_pwr (s : State) (F : RegField) (i n : Nat) : (s.bump F i n).pwr = s.pwr := State.put_pwr ..
@[simp] theorem State.bump_ps (s : State) (F : RegField) (i n : Nat) : (s.bump F i n).ps = s.ps := State.put_ps ..
@[simp] theorem State.bump_fe (s : State) (F : RegField) (i n : Nat) : (s.bump F i n).fe = s.fe := State.put_fe ..
@[simp] theorem State.bump_deckA (s : State) (F : RegField) (i n : Nat) : (s.bump F i n).deckA = s.deckA := State.put_deckA ..
@[simp] theorem State.bump_deckB (s : State) (F : RegField) (i n : Nat) : (s.bump F i n).deckB = s.deckB := State.put_deckB ..
@[simp] theorem State.bump_pt (s : State) (F : RegField) (i n : Nat) : (s.bump F i n).pt = s.pt := State.put_pt ..
@[simp] theorem State.bump_co (s : State) (F : RegField) (i n : Nat) : (s.bump F i n).co = s.co := State.put_co ..
@[simp] theorem State.bump_pm (s : State) (F : RegField) (i n : Nat) : (s.bump F i n).pm = s.pm := State.put_pm ..
@[simp] theorem State.bump_ho (s : State) (F : RegField) (i n : Nat) : (s.bump F i n).ho = s.ho := State.put_ho ..
@[simp] theorem State.bump_te (s : State) (F : RegField) (i n : Nat) : (s.bump F i n).te = s.te := State.put_te ..
@[simp] theorem State.bump_ty (s : State) (F : RegField) (i n : Nat) : (s.bump F i n).ty = s.ty := State.put_ty ..
@[simp] theorem State.bump_fl (s : State) (F : RegField) (i n : Nat) : (s.bump F i n).fl = s.fl := State.put_fl ..
@[simp] theorem State.bump_lp (s : State) (F : RegField) (i n : Nat) : (s.bump F i n).lp = s.lp := State.put_lp ..
@[simp] theorem State.bump_lk (s : State) (F : RegField) (i n : Nat) : (s.bump F i n).lk = s.lk := State.put_lk ..
@[simp] theorem State.bump_sc (s : State) (F : RegField) (i n : Nat) : (s.bump F i n).sc = s.sc := State.put_sc ..
@[simp] theorem State.bump_tm (s : State) (F : RegField) (i n : Nat) : (s.bump F i n).tm = s.tm := State.put_tm ..
@[simp] theorem State.bump_hs (s : State) (F : RegField) (i n : Nat) : (s.bump F i n).hs = s.hs := State.put_hs ..
@[simp] theorem State.bump_mg (s : State) (F : RegField) (i n : Nat) : (s.bump F i n).mg = s.mg := State.put_mg ..
@[simp] theorem State.bump_out (s : State) (F : RegField) (i n : Nat) : (s.bump F i n).out = s.out := State.put_out ..
@[simp] theorem State.bump_freeCtr (s : State) (F : RegField) (i n : Nat) : (s.bump F i n).freeCtr = s.freeCtr := State.put_freeCtr ..
@[simp] theorem State.bump_pending (s : State) (F : RegField) (i n : Nat) : (s.bump F i n).pending = s.pending := State.put_pending ..

@[simp] theorem State.emit_regs (s : State) (o : Out) : (s.emit o).regs = s.regs := rfl
@[simp] theorem State.emit_tb (s : State) (o : Out) : (s.emit o).tb = s.tb := rfl
@[simp] theorem State.emit_pwr (s : State) (o : Out) : (s.emit o).pwr = s.pwr := rfl
@[simp] theorem State.emit_ps (s : State) (o : Out) : (s.emit o).ps = s.ps := rfl
@[simp] theorem State.emit_fe (s : State) (o : Out) : (s.emit o).fe = s.fe := rfl
@[simp] theorem State.emit_deckA (s : State) (o : Out) : (s.emit o).deckA = s.deckA := rfl
@[simp] theorem State.emit_deckB (s : State) (o : Out) : (s.emit o).deckB = s.deckB := rfl
@[simp] theorem State.emit_pt (s : State) (o : Out) : (s.emit o).pt = s.pt := rfl
@[simp] theorem State.emit_co (s : State) (o : Out) : (s.emit o).co = s.co := rfl
@[simp] theorem State.emit_pm (s : State) (o : Out) : (s.emit o).pm = s.pm := rfl
@[simp] theorem State.emit_ho (s : State) (o : Out) : (s.emit o).ho = s.ho := rfl
@[simp] theorem State.emit_te (s : State) (o : Out) : (s.emit o).te = s.te := rfl
@[simp] theorem State.emit_ty (s : State) (o : Out) : (s.emit o).ty = s.ty := rfl
@[simp] theorem State.emit_fl (s : State) (o : Out) : (s.emit o).fl = s.fl := rfl
@[simp] theorem State.emit_lp (s : State) (o : Out) : (s.emit o).lp = s.lp := rfl
@[simp] theorem State.emit_lk (s : State) (o : Out) : (s.emit o).lk = s.lk := rfl
@[simp] theorem State.emit_sc (s : State) (o : Out) : (s.emit o).sc = s.sc := rfl
@[simp] theorem State.emit_tm (s : State) (o : Out) : (s.emit o).tm = s.tm := rfl
@[simp] theorem State.emit_hs (s : State) (o : Out) : (s.emit o).hs = s.hs := rfl
@[simp] theorem State.emit_mg (s : State) (o : Out) : (s.emit o).mg = s.mg := rfl
@[simp] theorem State.emit_freeCtr (s : State) (o : Out) : (s.emit o).freeCtr = s.freeCtr := rfl
@[simp] theorem State.emit_pending (s : State) (o : Out) : (s.emit o).pending = s.pending := rfl
@[simp] theorem State.emit_get (s : State) (o : Out) (G : RegField) (j : Nat) : (s.emit o).get G j = s.get G j := rfl
@[simp] theorem State.emit_flag (s : State) (o : Out) (G : RegField) (j : Nat) : (s.emit o).flag G j = s.flag G j := rfl
@[simp] theorem State.emit_modState (s : State) (o : Out) : (s.emit o).modState = s.modState := rfl
@[simp] theorem State.emit_hubUp (s : State) (o : Out) : (s.emit o).hubUp = s.hubUp := rfl

@[simp] theorem State.emits_regs (s : State) (os : List Out) : (s.emits os).regs = s.regs := rfl
@[simp] theorem State.emits_tb (s : State) (os : List Out) : (s.emits os).tb = s.tb := rfl
@[simp] theorem State.emits_pwr (s : State) (os : List Out) : (s.emits os).pwr = s.pwr := rfl
@[simp] theorem State.emits_ps (s : State) (os : List Out) : (s.emits os).ps = s.ps := rfl
@[simp] theorem State.emits_fe (s : State) (os : List Out) : (s.emits os).fe = s.fe := rfl
@[simp] theorem State.emits_deckA (s : State) (os : List Out) : (s.emits os).deckA = s.deckA := rfl
@[simp] theorem State.emits_deckB (s : State) (os : List Out) : (s.emits os).deckB = s.deckB := rfl
@[simp] theorem State.emits_pt (s : State) (os : List Out) : (s.emits os).pt = s.pt := rfl
@[simp] theorem State.emits_co (s : State) (os : List Out) : (s.emits os).co = s.co := rfl
@[simp] theorem State.emits_pm (s : State) (os : List Out) : (s.emits os).pm = s.pm := rfl
@[simp] theorem State.emits_ho (s : State) (os : List Out) : (s.emits os).ho = s.ho := rfl
@[simp] theorem State.emits_te (s : State) (os : List Out) : (s.emits os).te = s.te := rfl
@[simp] theorem State.emits_ty (s : State) (os : List Out) : (s.emits os).ty = s.ty := rfl
@[simp] theorem State.emits_fl (s : State) (os : List Out) : (s.emits os).fl = s.fl := rfl
@[simp] theorem State.emits_lp (s : State) (os : List Out) : (s.emits os).lp = s.lp := rfl
@[simp] theorem State.emits_lk (s : State) (os : List Out) : (s.emits os).lk = s.lk := rfl
@[simp] theorem State.emits_sc (s : State) (os : List Out) : (s.emits os).sc = s.sc := rfl
@[simp] theorem State.emits_tm (s : State) (os : List Out) : (s.emits os).tm = s.tm := rfl
@[simp] theorem State.emits_hs (s : State) (os : List Out) : (s.emits os).hs = s.hs := rfl
@[simp] theorem State.emits_mg (s : State) (os : List Out) : (s.emits os).mg = s.mg := rfl
@[simp] theorem State.emits_freeCtr (s : State) (os : List Out) : (s.emits os).freeCtr = s.freeCtr := rfl
@[simp] theorem State.emits_pending (s : State) (os : List Out) : (s.emits os).pending = s.pending := rfl
@[simp] theorem State.emits_get (s : State) (os : List Out) (G : RegField) (j : Nat) : (s.emits os).get G j = s.get G j := rfl
@[simp] theorem State.emits_flag (s : State) (os : List Out) (G : RegField) (j : Nat) : (s.emits os).flag G j = s.flag G j := rfl
@[simp] theorem State.emits_modState (s : State) (os : List Out) : (s.emits os).modState = s.modState := rfl
@[simp] theorem State.emits_hubUp (s : State) (os : List Out) : (s.emits os).hubUp = s.hubUp := rfl

@[simp] theorem State.setTime_regs (s : State) (x : TimeStamp) : (s.setTime x).regs = s.regs := rfl
@[simp] theorem State.setTime_pwr (s : State) (x : TimeStamp) : (s.setTime x).pwr = s.pwr := rfl
@[simp] theorem State.setTime_ps (s : State) (x : TimeStamp) : (s.setTime x).ps = s.ps := rfl
@[simp] theorem State.setTime_fe (s : State) (x : TimeStamp) : (s.setTime x).fe = s.fe := rfl
@[simp] theorem State.setTime_deckA (s : State) (x : TimeStamp) : (s.setTime x).deckA = s.deckA := rfl
@[simp] theorem State.setTime_deckB (s : State) (x : TimeStamp) : (s.setTime x).deckB = s.deckB := rfl
@[simp] theorem State.setTime_pt (s : State) (x : TimeStamp) : (s.setTime x).pt = s.pt := rfl
@[simp] theorem State.setTime_co (s : State) (x : TimeStamp) : (s.setTime x).co = s.co := rfl
@[simp] theorem State.setTime_pm (s : State) (x : TimeStamp) : (s.setTime x).pm = s.pm := rfl
@[simp] theorem State.setTime_ho (s : State) (x : TimeStamp) : (s.setTime x).ho = s.ho := rfl
@[simp] theorem State.setTime_te (s : State) (x : TimeStamp) : (s.setTime x).te = s.te := rfl
@[simp] theorem State.setTime_ty (s : State) (x : TimeStamp) : (s.setTime x).ty = s.ty := rfl
@[simp] theorem State.setTime_fl (s : State) (x : TimeStamp) : (s.setTime x).fl = s.fl := rfl
@[simp] theorem State.setTime_lp (s : State) (x : TimeStamp) : (s.setTime x).lp = s.lp := rfl
@[simp] theorem State.setTime_lk (s : State) (x : TimeStamp) : (s.setTime x).lk = s.lk := rfl
@[simp] theorem State.setTime_sc (s : State) (x : TimeStamp) : (s.setTime x).sc = s.sc := rfl
@[simp] theorem State.setTime_tm (s : State) (x : TimeStamp) : (s.setTime x).tm = s.tm := rfl
@[simp] theorem State.setTime_hs (s : State) (x : TimeStamp) : (s.setTime x).hs = s.hs := rfl
@[simp] theorem State.setTime_mg (s : State) (x : TimeStamp) : (s.setTime x).mg = s.mg := rfl
@[simp] theorem State.setTime_out (s : State) (x : TimeStamp) : (s.setTime x).out = s.out := rfl
@[simp] theorem State.setTime_freeCtr (s : State) (x : TimeStamp) : (s.setTime x).freeCtr = s.freeCtr := rfl
@[simp] theorem State.setTime_pending (s : State) (x : TimeStamp) : (s.setTime x).pending = s.pending := rfl
@[simp] theorem State.setTime_get (s : State) (x : TimeStamp) (G : RegField) (j : Nat) : (s.setTime x).get G j = s.get G j := rfl
@[simp] theorem State.setTime_flag (s : State) (x : TimeStamp) (G : RegField) (j : Nat) : (s.setTime x).flag G j = s.flag G j := rfl
@[simp] theorem State.setTime_modState (s : State) (x : TimeStamp) : (s.setTime x).modState = s.modState := rfl
@[simp] theorem State.setTime_hubUp (s : State) (x : TimeStamp) : (s.setTime x).hubUp = s.hubUp := rfl

@[simp] theorem State.setCtx_regs (s : State) (c : Nat) (x : Ctx) : (s.setCtx c x).regs = s.regs := rfl
@[simp] theorem State.setCtx_tb (s : State) (c : Nat) (x : Ctx) : (s.setCtx c x).tb = s.tb := rfl
@[simp] theorem State.setCtx_pwr (s : State) (c : Nat) (x : Ctx) : (s.setCtx c x).pwr = s.pwr := rfl
@[simp] theorem State.setCtx_ps (s : State) (c : Nat) (x : Ctx) : (s.setCtx c x).ps = s.ps := rfl
@[simp] theorem State.setCtx_deckA (s : State) (c : Nat) (x : Ctx) : (s.setCtx c x).deckA = s.deckA := rfl
@[simp] theorem State.setCtx_deckB (s : State) (c : Nat) (x : Ctx) : (s.setCtx c x).deckB = s.deckB := rfl
@[simp] theorem State.setCtx_pt (s : State) (c : Nat) (x : Ctx) : (s.setCtx c x).pt = s.pt := rfl
@[simp] theorem State.setCtx_co (s : State) (c : Nat) (x : Ctx) : (s.setCtx c x).co = s.co := rfl
@[simp] theorem State.setCtx_pm (s : State) (c : Nat) (x : Ctx) : (s.setCtx c x).pm = s.pm := rfl
@[simp] theorem State.setCtx_ho (s : State) (c : Nat) (x : Ctx) : (s.setCtx c x).ho = s.ho := rfl
@[simp] theorem State.setCtx_te (s : State) (c : Nat) (x : Ctx) : (s.setCtx c x).te = s.te := rfl
@[simp] theorem State.setCtx_ty (s : State) (c : Nat) (x : Ctx) : (s.setCtx c x).ty = s.ty := rfl
@[simp] theorem State.setCtx_fl (s : State) (c : Nat) (x : Ctx) : (s.setCtx c x).fl = s.fl := rfl
@[simp] theorem State.setCtx_lp (s : State) (c : Nat) (x : Ctx) : (s.setCtx c x).lp = s.lp := rfl
@[simp] theorem State.setCtx_lk (s : State) (c : Nat) (x : Ctx) : (s.setCtx c x).lk = s.lk := rfl
@[simp] theorem State.setCtx_sc (s : State) (c : Nat) (x : Ctx) : (s.setCtx c x).sc = s.sc := rfl
@[simp] theorem State.setCtx_tm (s : State) (c : Nat) (x : Ctx) : (s.setCtx c x).tm = s.tm := rfl
@[simp] theorem State.setCtx_hs (s : State) (c : Nat) (x : Ctx) : (s.setCtx c x).hs = s.hs := rfl
@[simp] theorem State.setCtx_mg (s : State) (c : Nat) (x : Ctx) : (s.setCtx c x).mg = s.mg := rfl
@[simp] theorem State.setCtx_out (s : State) (c : Nat) (x : Ctx) : (s.setCtx c x).out = s.out := rfl
@[simp] theorem State.setCtx_freeCtr (s : State) (c : Nat) (x : Ctx) : (s.setCtx c x).freeCtr = s.freeCtr := rfl
@[simp] theorem State.setCtx_pending (s : State) (c : Nat) (x : Ctx) : (s.setCtx c x).pending = s.pending := rfl
@[simp] theorem State.setCtx_get (s : State) (c : Nat) (x : Ctx) (G : RegField) (j : Nat) : (s.setCtx c x).get G j = s.get G j := rfl
@[simp] theorem State.setCtx_flag (s : State) (c : Nat) (x : Ctx) (G : RegField) (j : Nat) : (s.setCtx c x).flag G j = s.flag G j := rfl
@[simp] theorem State.setCtx_modState (s : State) (c : Nat) (x : Ctx) : (s.setCtx c x).modState = s.modState := rfl
@[simp] theorem State.setCtx_hubUp (s : State) (c : Nat) (x : Ctx) : (s.setCtx c x).hubUp = s.hubUp := rfl

@[simp] theorem State.updCmd_regs (s : State) (cid : Nat) (f : Cmd → Cmd) : (s.updCmd cid f).regs = s.regs := rfl
@[simp] theorem State.updCmd_tb (s : State) (cid : Nat) (f : Cmd → Cmd) : (s.updCmd cid f).tb = s.tb := rfl
@[simp] theorem State.updCmd_pwr (s : State) (cid : Nat) (f : Cmd → Cmd) : (s.updCmd cid f).pwr = s.pwr := rfl
@[simp] theorem State.updCmd_ps (s : State) (cid : Nat) (f : Cmd → Cmd) : (s.updCmd cid f).ps = s.ps := rfl
@[simp] theorem State.updCmd_deckA (s : State) (cid : Nat) (f : Cmd → Cmd) : (s.updCmd cid f).deckA = s.deckA := rfl
@[simp] theorem State.updCmd_deckB (s : State) (cid : Nat) (f : Cmd → Cmd) : (s.updCmd cid f).deckB = s.deckB := rfl
@[simp] theorem State.updCmd_pt (s : State) (cid : Nat) (f : Cmd → Cmd) : (s.updCmd cid f).pt = s.pt := rfl
@[simp] theorem State.updCmd_co (s : State) (cid : Nat) (f : Cmd → Cmd) : (s.updCmd cid f).co = s.co := rfl
@[simp] theorem State.updCmd_pm (s : State) (cid : Nat) (f : Cmd → Cmd) : (s.updCmd cid f).pm = s.pm := rfl
@[simp] theorem State.updCmd_ho (s : State) (cid : Nat) (f : Cmd → Cmd) : (s.updCmd cid f).ho = s.ho := rfl
@[simp] theorem State.updCmd_te (s : State) (cid : Nat) (f : Cmd → Cmd) : (s.updCmd cid f).te = s.te := rfl
@[simp] theorem State.updCmd_ty (s : State) (cid : Nat) (f : Cmd → Cmd) : (s.updCmd cid f).ty = s.ty := rfl
@[simp] theorem State.updCmd_fl (s : State) (cid : Nat) (f : Cmd → Cmd) : (s.updCmd cid f).fl = s.fl := rfl
@[simp] theorem State.updCmd_lp (s : State) (cid : Nat) (f : Cmd → Cmd) : (s.updCmd cid f).lp = s.lp := rfl
@[simp] theorem State.updCmd_lk (s : State) (cid : Nat) (f : Cmd → Cmd) : (s.updCmd cid f).lk = s.lk := rfl
@[simp] theorem State.updCmd_sc (s : State) (cid : Nat) (f : Cmd → Cmd) : (s.updCmd cid f).sc = s.sc := rfl
@[simp] theorem State.updCmd_tm (s : State) (cid : Nat) (f : Cmd → Cmd) : (s.updCmd cid f).tm = s.tm := rfl
@[simp] theorem State.updCmd_hs (s : State) (cid : Nat) (f : Cmd → Cmd) : (s.updCmd cid f).hs = s.hs := rfl
@[simp] theorem State.updCmd_mg (s : State) (cid : Nat) (f : Cmd → Cmd) : (s.updCmd cid f).mg = s.mg := rfl
@[simp] theorem State.updCmd_out (s : State) (cid : Nat) (f : Cmd → Cmd) : (s.updCmd cid f).out = s.out := rfl
@[simp] theorem State.updCmd_freeCtr (s : State) (cid : Nat) (f : Cmd → Cmd) : (s.updCmd cid f).freeCtr = s.freeCtr := rfl
@[simp] theorem State.updCmd_pending (s : State) (cid : Nat) (f : Cmd → Cmd) : (s.updCmd cid f).pending = s.pending := rfl
@[simp] theorem State.updCmd_get (s : State) (cid : Nat) (f : Cmd → Cmd) (G : RegField) (j : Nat) : (s.updCmd cid f).get G j = s.get G j := rfl
@[simp] theorem State.updCmd_flag (s : State) (cid : Nat) (f : Cmd → Cmd) (G : RegField) (j : Nat) : (s.updCmd cid f).flag G j = s.flag G j := rfl
@[simp] theorem State.updCmd_modState (s : State) (cid : Nat) (f : Cmd → Cmd) : (s.updCmd cid f).modState = s.modState := rfl
@[simp] theorem State.updCmd_hubUp (s : State) (cid : Nat) (f : Cmd → Cmd) : (s.updCmd cid f).hubUp = s.hubUp := rfl

@[simp] theorem State.setSlot_regs (s : State) (p n : Nat) (x : Slot) : (s.setSlot p n x).regs = s.regs := rfl
@[simp] theorem State.setSlot_tb (s : State) (p n : Nat) (x : Slot) : (s.setSlot p n x).tb = s.tb := rfl
@[simp] theorem State.setSlot_pwr (s : State) (p n : Nat) (x : Slot) : (s.setSlot p n x).pwr = s.pwr := rfl
@[simp] theorem State.setSlot_ps (s : State) (p n : Nat) (x : Slot) : (s.setSlot p n x).ps = s.ps := rfl
@[simp] theorem State.setSlot_fe (s : State) (p n : Nat) (x : Slot) : (s.setSlot p n x).fe = s.fe := rfl
@[simp] theorem State.setSlot_deckA (s : State) (p n : Nat) (x : Slot) : (s.setSlot p n x).deckA = s.deckA := rfl
@[simp] theorem State.setSlot_deckB (s : State) (p n : Nat) (x : Slot) : (s.setSlot p n x).deckB = s.deckB := rfl
@[simp] theorem State.setSlot_pt (s : State) (p n : Nat) (x : Slot) : (s.setSlot p n x).pt = s.pt := rfl
@[simp] theorem State.setSlot_co (s : State) (p n : Nat) (x : Slot) : (s.setSlot p n x).co = s.co := rfl
@[simp] theorem State.setSlot_ho (s : State) (p n : Nat) (x : Slot) : (s.setSlot p n x).ho = s.ho := rfl
@[simp] theorem State.setSlot_te (s : State) (p n : Nat) (x : Slot) : (s.setSlot p n x).te = s.te := rfl
@[simp] theorem State.setSlot_ty (s : State) (p n : Nat) (x : Slot) : (s.setSlot p n x).ty = s.ty := rfl
@[simp] theorem State.setSlot_fl (s : State) (p n : Nat) (x : Slot) : (s.setSlot p n x).fl = s.fl := rfl
@[simp] theorem State.setSlot_lp (s : State) (p n : Nat) (x : Slot) : (s.setSlot p n x).lp = s.lp := rfl
@[simp] theorem State.setSlot_lk (s : State) (p n : Nat) (x : Slot) : (s.setSlot p n x).lk = s.lk := rfl
@[simp] theorem State.setSlot_sc (s : State) (p n : Nat) (x : Slot) : (s.setSlot p n x).sc = s.sc := rfl
@[simp] theorem State.setSlot_tm (s : State) (p n : Nat) (x : Slot) : (s.setSlot p n x).tm = s.tm := rfl
@[simp] theorem State.setSlot_hs (s : State) (p n : Nat) (x : Slot) : (s.setSlot p n x).hs = s.hs := rfl
@[simp] theorem State.setSlot_mg (s : State) (p n : Nat) (x : Slot) : (s.setSlot p n x).mg = s.mg := rfl
@[simp] theorem State.setSlot_out (s : State) (p n : Nat) (x : Slot) : (s.setSlot p n x).out = s.out := rfl
@[simp] theorem State.setSlot_freeCtr (s : State) (p n : Nat) (x : Slot) : (s.setSlot p n x).freeCtr = s.freeCtr := rfl
@[simp] theorem State.setSlot_pending (s : State) (p n : Nat) (x : Slot) : (s.setSlot p n x).pending = s.pending := rfl
@[simp] theorem State.setSlot_get (s : State) (p n : Nat) (x : Slot) (G : RegField) (j : Nat) : (s.setSlot p n x).get G j = s.get G j := rfl
@[simp] theorem State.setSlot_flag (s : State) (p n : Nat) (x : Slot) (G : RegField) (j : Nat) : (s.setSlot p n x).flag G j = s.flag G j := rfl
@[simp] theorem State.setSlot_modState (s : State) (p n : Nat) (x : Slot) : (s.setSlot p n x).modState = s.modState := rfl
@[simp] theorem State.setSlot_hubUp (s : State) (p n : Nat) (x : Slot) : (s.setSlot p n x).hubUp = s.hubUp := rfl

@[simp] theorem State.setLine_regs (s : State) (ln : Nat) (x : Line) : (s.setLine ln x).regs = s.regs := rfl
@[simp] theorem State.setLine_tb (s : State) (ln : Nat) (x : Line) : (s.setLine ln x).tb = s.tb := rfl
@[simp] theorem State.setLine_pwr (s : State) (ln : Nat) (x : Line) : (s.setLine ln x).pwr = s.pwr := rfl
@[simp] theorem State.setLine_ps (s : State) (ln : Nat) (x : Line) : (s.setLine ln x).ps = s.ps := rfl
@[simp] theorem State.setLine_fe (s : State) (ln : Nat) (x : Line) : (s.setLine ln x).fe = s.fe := rfl
@[simp] theorem State.setLine_deckA (s : State) (ln : Nat) (x : Line) : (s.setLine ln x).deckA = s.deckA := rfl
@[simp] theorem State.setLine_deckB (s : State) (ln : Nat) (x : Line) : (s.setLine ln x).deckB = s.deckB := rfl
@[simp] theorem State.setLine_pt (s : State) (ln : Nat) (x : Line) : (s.setLine ln x).pt = s.pt := rfl
@[simp] theorem State.setLine_co (s : State) (ln : Nat) (x : Line) : (s.setLine ln x).co = s.co := rfl
@[simp] theorem State.setLine_pm (s : State) (ln : Nat) (x : Line) : (s.setLine ln x).pm = s.pm := rfl
@[simp] theorem State.setLine_te (s : State) (ln : Nat) (x : Line) : (s.setLine ln x).te = s.te := rfl
@[simp] theorem State.setLine_ty (s : State) (ln : Nat) (x : Line) : (s.setLine ln x).ty = s.ty := rfl
@[simp] theorem State.setLine_fl (s : State) (ln : Nat) (x : Line) : (s.setLine ln x).fl = s.fl := rfl
@[simp] theorem State.setLine_lp (s : State) (ln : Nat) (x : Line) : (s.setLine ln x).lp = s.lp := rfl
@[simp] theorem State.setLine_lk (s : State) (ln : Nat) (x : Line) : (s.setLine ln x).lk = s.lk := rfl
@[simp] theorem State.setLine_sc (s : State) (ln : Nat) (x : Line) : (s.setLine ln x).sc = s.sc := rfl
@[simp] theorem State.setLine_tm (s : State) (ln : Nat) (x : Line) : (s.setLine ln x).tm = s.tm := rfl
@[simp] theorem State.setLine_hs (s : State) (ln : Nat) (x : Line) : (s.setLine ln x).hs = s.hs := rfl
@[simp] theorem State.setLine_mg (s : State) (ln : Nat) (x : Line) : (s.setLine ln x).mg = s.mg := rfl
@[simp] theorem State.setLine_out (s : State) (ln : Nat) (x : Line) : (s.setLine ln x).out = s.out := rfl
@[simp] theorem State.setLine_freeCtr (s : State) (ln : Nat) (x : Line) : (s.setLine ln x).freeCtr = s.freeCtr := rfl
@[simp] theorem State.setLine_pending (s : State) (ln : Nat) (x : Line) : (s.setLine ln x).pending = s.pending := rfl
@[simp] theorem State.setLine_get (s : State) (ln : Nat) (x : Line) (G : RegField) (j : Nat) : (s.setLine ln x).get G j = s.get G j := rfl
@[simp] theorem State.setLine_flag (s : State) (ln : Nat) (x : Line) (G : RegField) (j : Nat) : (s.setLine ln x).flag G j = s.flag G j := rfl
@[simp] theorem State.setLine_modState (s : State) (ln : Nat) (x : Line) : (s.setLine ln x).modState = s.modState := rfl
@[simp] theorem State.setLine_hubUp (s : State) (ln : Nat) (x : Line) : (s.setLine ln x).hubUp = s.hubUp := rfl

@[simp] theorem State.setSector_regs (s : State) (k lo : Nat) (bs : List Byte) (psn : Bool) : (s.setSector k lo bs psn).regs = s.regs := by unfold State.setSector; split <;> rfl
@[simp] theorem State.setSector_tb (s : State) (k lo : Nat) (bs : List Byte) (psn : Bool) : (s.setSector k lo bs psn).tb = s.tb := by unfold State.setSector; split <;> rfl
@[simp] theorem State.setSector_pwr (s : State) (k lo : Nat) (bs : List Byte) (psn : Bool) : (s.setSector k lo bs psn).pwr = s.pwr := by unfold State.setSector; split <;> rfl
@[simp] theorem State.setSector_ps (s : State) (k lo : Nat) (bs : List Byte) (psn : Bool) : (s.setSector k lo bs psn).ps = s.ps := by unfold State.setSector; split <;> rfl
@[simp] theorem State.setSector_fe (s : State) (k lo : Nat) (bs : List Byte) (psn : Bool) : (s.setSector k lo bs psn).fe = s.fe := by unfold State.setSector; split <;> rfl
@[simp] theorem State.setSector_deckA (s : State) (k lo : Nat) (bs : List Byte) (psn : Bool) : (s.setSector k lo bs psn).deckA = s.deckA := by unfold State.setSector; split <;> rfl
@[simp] theorem State.setSector_deckB (s : State) (k lo : Nat) (bs : List Byte) (psn : Bool) : (s.setSector k lo bs psn).deckB = s.deckB := by unfold State.setSector; split <;> rfl
@[simp] theorem State.setSector_pt (s : State) (k lo : Nat) (bs : List Byte) (psn : Bool) : (s.setSector k lo bs psn).pt = s.pt := by unfold State.setSector; split <;> rfl
@[simp] theorem State.setSector_co (s : State) (k lo : Nat) (bs : List Byte) (psn : Bool) : (s.setSector k lo bs psn).co = s.co := by unfold State.setSector; split <;> rfl
@[simp] theorem State.setSector_ho (s : State) (k lo : Nat) (bs : List Byte) (psn : Bool) : (s.setSector k lo bs psn).ho = s.ho := by unfold State.setSector; split <;> rfl
@[simp] theorem State.setSector_te (s : State) (k lo : Nat) (bs : List Byte) (psn : Bool) : (s.setSector k lo bs psn).te = s.te := by unfold State.setSector; split <;> rfl
@[simp] theorem State.setSector_ty (s : State) (k lo : Nat) (bs : List Byte) (psn : Bool) : (s.setSector k lo bs psn).ty = s.ty := by unfold State.setSector; split <;> rfl
@[simp] theorem State.setSector_fl (s : State) (k lo : Nat) (bs : List Byte) (psn : Bool) : (s.setSector k lo bs psn).fl = s.fl := by unfold State.setSector; split <;> rfl
@[simp] theorem State.setSector_lp (s : State) (k lo : Nat) (bs : List Byte) (psn : Bool) : (s.setSector k lo bs psn).lp = s.lp := by unfold State.setSector; split <;> rfl
@[simp] theorem State.setSector_lk (s : State) (k lo : Nat) (bs : List Byte) (psn : Bool) : (s.setSector k lo bs psn).lk = s.lk := by unfold State.setSector; split <;> rfl
@[simp] theorem State.setSector_sc (s : State) (k lo : Nat) (bs : List Byte) (psn : Bool) : (s.setSector k lo bs psn).sc = s.sc := by unfold State.setSector; split <;> rfl
@[simp] theorem State.setSector_tm (s : State) (k lo : Nat) (bs : List Byte) (psn : Bool) : (s.setSector k lo bs psn).tm = s.tm := by unfold State.setSector; split <;> rfl
@[simp] theorem State.setSector_hs (s : State) (k lo : Nat) (bs : List Byte) (psn : Bool) : (s.setSector k lo bs psn).hs = s.hs := by unfold State.setSector; split <;> rfl
@[simp] theorem State.setSector_mg (s : State) (k lo : Nat) (bs : List Byte) (psn : Bool) : (s.setSector k lo bs psn).mg = s.mg := by unfold State.setSector; split <;> rfl
@[simp] theorem State.setSector_out (s : State) (k lo : Nat) (bs : List Byte) (psn : Bool) : (s.setSector k lo bs psn).out = s.out := by unfold State.setSector; split <;> rfl
@[simp] theorem State.setSector_freeCtr (s : State) (k lo : Nat) (bs : List Byte) (psn : Bool) : (s.setSector k lo bs psn).freeCtr = s.freeCtr := by unfold State.setSector; split <;> rfl
@[simp] theorem State.setSector_pending (s : State) (k lo : Nat) (bs : List Byte) (psn : Bool) : (s.setSector k lo bs psn).pending = s.pending := by unfold State.setSector; split <;> rfl
@[simp] theorem State.setSector_get (s : State) (k lo : Nat) (bs : List Byte) (psn : Bool) (G : RegField) (j : Nat) : (s.setSector k lo bs psn).get G j = s.get G j := by unfold State.setSector; split <;> rfl
@[simp] theorem State.setSector_flag (s : State) (k lo : Nat) (bs : List Byte) (psn : Bool) (G : RegField) (j : Nat) : (s.setSector k lo bs psn).flag G j = s.flag G j := by unfold State.setSector; split <;> rfl
@[simp] theorem State.setSector_modState (s : State) (k lo : Nat) (bs : List Byte) (psn : Bool) : (s.setSector k lo bs psn).modState = s.modState := by unfold State.setSector; split <;> rfl
@[simp] theorem State.setSector_hubUp (s : State) (k lo : Nat) (bs : List Byte) (psn : Bool) : (s.setSector k lo bs psn).hubUp = s.hubUp := by unfold State.setSector; split <;> rfl

@[simp] theorem State.setWord_regs (s : State) (ln w v : Nat) : (s.setWord ln w v).regs = s.regs := State.setSector_regs ..
@[simp] theorem State.setWord_tb (s : State) (ln w v : Nat) : (s.setWord ln w v).tb = s.tb := State.setSector_tb ..
@[simp] theorem State.setWord_pwr (s : State) (ln w v : Nat) : (s.setWord ln w v).pwr = s.pwr := State.setSector_pwr ..
@[simp] theorem State.setWord_ps (s : State) (ln w v : Nat) : (s.setWord ln w v).ps = s.ps := State.setSector_ps ..
@[simp] theorem State.setWord_fe (s : State) (ln w v : Nat) : (s.setWord ln w v).fe = s.fe := State.setSector_fe ..
@[simp] theorem State.setWord_deckA (s : State) (ln w v : Nat) : (s.setWord ln w v).deckA = s.deckA := State.setSector_deckA ..
@[simp] theorem State.setWord_deckB (s : State) (ln w v : Nat) : (s.setWord ln w v).deckB = s.deckB := State.setSector_deckB ..
@[simp] theorem State.setWord_pt (s : State) (ln w v : Nat) : (s.setWord ln w v).pt = s.pt := State.setSector_pt ..
@[simp] theorem State.setWord_co (s : State) (ln w v : Nat) : (s.setWord ln w v).co = s.co := State.setSector_co ..
@[simp] theorem State.setWord_ho (s : State) (ln w v : Nat) : (s.setWord ln w v).ho = s.ho := State.setSector_ho ..
@[simp] theorem State.setWord_te (s : State) (ln w v : Nat) : (s.setWord ln w v).te = s.te := State.setSector_te ..
@[simp] theorem State.setWord_ty (s : State) (ln w v : Nat) : (s.setWord ln w v).ty = s.ty := State.setSector_ty ..
@[simp] theorem State.setWord_fl (s : State) (ln w v : Nat) : (s.setWord ln w v).fl = s.fl := State.setSector_fl ..
@[simp] theorem State.setWord_lp (s : State) (ln w v : Nat) : (s.setWord ln w v).lp = s.lp := State.setSector_lp ..
@[simp] theorem State.setWord_lk (s : State) (ln w v : Nat) : (s.setWord ln w v).lk = s.lk := State.setSector_lk ..
@[simp] theorem State.setWord_sc (s : State) (ln w v : Nat) : (s.setWord ln w v).sc = s.sc := State.setSector_sc ..
@[simp] theorem State.setWord_tm (s : State) (ln w v : Nat) : (s.setWord ln w v).tm = s.tm := State.setSector_tm ..
@[simp] theorem State.setWord_hs (s : State) (ln w v : Nat) : (s.setWord ln w v).hs = s.hs := State.setSector_hs ..
@[simp] theorem State.setWord_mg (s : State) (ln w v : Nat) : (s.setWord ln w v).mg = s.mg := State.setSector_mg ..
@[simp] theorem State.setWord_out (s : State) (ln w v : Nat) : (s.setWord ln w v).out = s.out := State.setSector_out ..
@[simp] theorem State.setWord_freeCtr (s : State) (ln w v : Nat) : (s.setWord ln w v).freeCtr = s.freeCtr := State.setSector_freeCtr ..
@[simp] theorem State.setWord_pending (s : State) (ln w v : Nat) : (s.setWord ln w v).pending = s.pending := State.setSector_pending ..
@[simp] theorem State.setWord_get (s : State) (ln w v : Nat) (G : RegField) (j : Nat) : (s.setWord ln w v).get G j = s.get G j := State.setSector_get ..
@[simp] theorem State.setWord_flag (s : State) (ln w v : Nat) (G : RegField) (j : Nat) : (s.setWord ln w v).flag G j = s.flag G j := State.setSector_flag ..
@[simp] theorem State.setWord_modState (s : State) (ln w v : Nat) : (s.setWord ln w v).modState = s.modState := State.setSector_modState ..
@[simp] theorem State.setWord_hubUp (s : State) (ln w v : Nat) : (s.setWord ln w v).hubUp = s.hubUp := State.setSector_hubUp ..

@[simp] theorem State.setLineBytes_regs (s : State) (ln : Nat) (bs : List Byte) : (s.setLineBytes ln bs).regs = s.regs := (State.setSector_regs ..).trans (State.setSector_regs ..)
@[simp] theorem State.setLineBytes_tb (s : State) (ln : Nat) (bs : List Byte) : (s.setLineBytes ln bs).tb = s.tb := (State.setSector_tb ..).trans (State.setSector_tb ..)
@[simp] theorem State.setLineBytes_pwr (s : State) (ln : Nat) (bs : List Byte) : (s.setLineBytes ln bs).pwr = s.pwr := (State.setSector_pwr ..).trans (State.setSector_pwr ..)
@[simp] theorem State.setLineBytes_ps (s : State) (ln : Nat) (bs : List Byte) : (s.setLineBytes ln bs).ps = s.ps := (State.setSector_ps ..).trans (State.setSector_ps ..)
@[simp] theorem State.setLineBytes_fe (s : State) (ln : Nat) (bs : List Byte) : (s.setLineBytes ln bs).fe = s.fe := (State.setSector_fe ..).trans (State.setSector_fe ..)
@[simp] theorem State.setLineBytes_deckA (s : State) (ln : Nat) (bs : List Byte) : (s.setLineBytes ln bs).deckA = s.deckA := (State.setSector_deckA ..).trans (State.setSector_deckA ..)
@[simp] theorem State.setLineBytes_deckB (s : State) (ln : Nat) (bs : List Byte) : (s.setLineBytes ln bs).deckB = s.deckB := (State.setSector_deckB ..).trans (State.setSector_deckB ..)
@[simp] theorem State.setLineBytes_pt (s : State) (ln : Nat) (bs : List Byte) : (s.setLineBytes ln bs).pt = s.pt := (State.setSector_pt ..).trans (State.setSector_pt ..)
@[simp] theorem State.setLineBytes_co (s : State) (ln : Nat) (bs : List Byte) : (s.setLineBytes ln bs).co = s.co := (State.setSector_co ..).trans (State.setSector_co ..)
@[simp] theorem State.setLineBytes_ho (s : State) (ln : Nat) (bs : List Byte) : (s.setLineBytes ln bs).ho = s.ho := (State.setSector_ho ..).trans (State.setSector_ho ..)
@[simp] theorem State.setLineBytes_te (s : State) (ln : Nat) (bs : List Byte) : (s.setLineBytes ln bs).te = s.te := (State.setSector_te ..).trans (State.setSector_te ..)
@[simp] theorem State.setLineBytes_ty (s : State) (ln : Nat) (bs : List Byte) : (s.setLineBytes ln bs).ty = s.ty := (State.setSector_ty ..).trans (State.setSector_ty ..)
@[simp] theorem State.setLineBytes_fl (s : State) (ln : Nat) (bs : List Byte) : (s.setLineBytes ln bs).fl = s.fl := (State.setSector_fl ..).trans (State.setSector_fl ..)
@[simp] theorem State.setLineBytes_lp (s : State) (ln : Nat) (bs : List Byte) : (s.setLineBytes ln bs).lp = s.lp := (State.setSector_lp ..).trans (State.setSector_lp ..)
@[simp] theorem State.setLineBytes_lk (s : State) (ln : Nat) (bs : List Byte) : (s.setLineBytes ln bs).lk = s.lk := (State.setSector_lk ..).trans (State.setSector_lk ..)
@[simp] theorem State.setLineBytes_sc (s : State) (ln : Nat) (bs : List Byte) : (s.setLineBytes ln bs).sc = s.sc := (State.setSector_sc ..).trans (State.setSector_sc ..)
@[simp] theorem State.setLineBytes_tm (s : State) (ln : Nat) (bs : List Byte) : (s.setLineBytes ln bs).tm = s.tm := (State.setSector_tm ..).trans (State.setSector_tm ..)
@[simp] theorem State.setLineBytes_hs (s : State) (ln : Nat) (bs : List Byte) : (s.setLineBytes ln bs).hs = s.hs := (State.setSector_hs ..).trans (State.setSector_hs ..)
@[simp] theorem State.setLineBytes_mg (s : State) (ln : Nat) (bs : List Byte) : (s.setLineBytes ln bs).mg = s.mg := (State.setSector_mg ..).trans (State.setSector_mg ..)
@[simp] theorem State.setLineBytes_out (s : State) (ln : Nat) (bs : List Byte) : (s.setLineBytes ln bs).out = s.out := (State.setSector_out ..).trans (State.setSector_out ..)
@[simp] theorem State.setLineBytes_freeCtr (s : State) (ln : Nat) (bs : List Byte) : (s.setLineBytes ln bs).freeCtr = s.freeCtr := (State.setSector_freeCtr ..).trans (State.setSector_freeCtr ..)
@[simp] theorem State.setLineBytes_pending (s : State) (ln : Nat) (bs : List Byte) : (s.setLineBytes ln bs).pending = s.pending := (State.setSector_pending ..).trans (State.setSector_pending ..)
@[simp] theorem State.setLineBytes_get (s : State) (ln : Nat) (bs : List Byte) (G : RegField) (j : Nat) : (s.setLineBytes ln bs).get G j = s.get G j := (State.setSector_get ..).trans (State.setSector_get ..)
@[simp] theorem State.setLineBytes_flag (s : State) (ln : Nat) (bs : List Byte) (G : RegField) (j : Nat) : (s.setLineBytes ln bs).flag G j = s.flag G j := (State.setSector_flag ..).trans (State.setSector_flag ..)
@[simp] theorem State.setLineBytes_modState (s : State) (ln : Nat) (bs : List Byte) : (s.setLineBytes ln bs).modState = s.modState := (State.setSector_modState ..).trans (State.setSector_modState ..)
@[simp] theorem State.setLineBytes_hubUp (s : State) (ln : Nat) (bs : List Byte) : (s.setLineBytes ln bs).hubUp = s.hubUp := (State.setSector_hubUp ..).trans (State.setSector_hubUp ..)

@[simp] theorem State.poisonLine_regs (s : State) (ln : Nat) : (s.poisonLine ln).regs = s.regs := rfl
@[simp] theorem State.poisonLine_tb (s : State) (ln : Nat) : (s.poisonLine ln).tb = s.tb := rfl
@[simp] theorem State.poisonLine_pwr (s : State) (ln : Nat) : (s.poisonLine ln).pwr = s.pwr := rfl
@[simp] theorem State.poisonLine_ps (s : State) (ln : Nat) : (s.poisonLine ln).ps = s.ps := rfl
@[simp] theorem State.poisonLine_fe (s : State) (ln : Nat) : (s.poisonLine ln).fe = s.fe := rfl
@[simp] theorem State.poisonLine_deckA (s : State) (ln : Nat) : (s.poisonLine ln).deckA = s.deckA := rfl
@[simp] theorem State.poisonLine_deckB (s : State) (ln : Nat) : (s.poisonLine ln).deckB = s.deckB := rfl
@[simp] theorem State.poisonLine_pt (s : State) (ln : Nat) : (s.poisonLine ln).pt = s.pt := rfl
@[simp] theorem State.poisonLine_co (s : State) (ln : Nat) : (s.poisonLine ln).co = s.co := rfl
@[simp] theorem State.poisonLine_ho (s : State) (ln : Nat) : (s.poisonLine ln).ho = s.ho := rfl
@[simp] theorem State.poisonLine_te (s : State) (ln : Nat) : (s.poisonLine ln).te = s.te := rfl
@[simp] theorem State.poisonLine_ty (s : State) (ln : Nat) : (s.poisonLine ln).ty = s.ty := rfl
@[simp] theorem State.poisonLine_fl (s : State) (ln : Nat) : (s.poisonLine ln).fl = s.fl := rfl
@[simp] theorem State.poisonLine_lp (s : State) (ln : Nat) : (s.poisonLine ln).lp = s.lp := rfl
@[simp] theorem State.poisonLine_lk (s : State) (ln : Nat) : (s.poisonLine ln).lk = s.lk := rfl
@[simp] theorem State.poisonLine_sc (s : State) (ln : Nat) : (s.poisonLine ln).sc = s.sc := rfl
@[simp] theorem State.poisonLine_tm (s : State) (ln : Nat) : (s.poisonLine ln).tm = s.tm := rfl
@[simp] theorem State.poisonLine_hs (s : State) (ln : Nat) : (s.poisonLine ln).hs = s.hs := rfl
@[simp] theorem State.poisonLine_mg (s : State) (ln : Nat) : (s.poisonLine ln).mg = s.mg := rfl
@[simp] theorem State.poisonLine_out (s : State) (ln : Nat) : (s.poisonLine ln).out = s.out := rfl
@[simp] theorem State.poisonLine_freeCtr (s : State) (ln : Nat) : (s.poisonLine ln).freeCtr = s.freeCtr := rfl
@[simp] theorem State.poisonLine_pending (s : State) (ln : Nat) : (s.poisonLine ln).pending = s.pending := rfl
@[simp] theorem State.poisonLine_get (s : State) (ln : Nat) (G : RegField) (j : Nat) : (s.poisonLine ln).get G j = s.get G j := rfl
@[simp] theorem State.poisonLine_flag (s : State) (ln : Nat) (G : RegField) (j : Nat) : (s.poisonLine ln).flag G j = s.flag G j := rfl
@[simp] theorem State.poisonLine_modState (s : State) (ln : Nat) : (s.poisonLine ln).modState = s.modState := rfl
@[simp] theorem State.poisonLine_hubUp (s : State) (ln : Nat) : (s.poisonLine ln).hubUp = s.hubUp := rfl

@[simp] theorem State.setWindow_regs (s : State) (k : Nat) (x : Window) : (s.setWindow k x).regs = s.regs := rfl
@[simp] theorem State.setWindow_tb (s : State) (k : Nat) (x : Window) : (s.setWindow k x).tb = s.tb := rfl
@[simp] theorem State.setWindow_pwr (s : State) (k : Nat) (x : Window) : (s.setWindow k x).pwr = s.pwr := rfl
@[simp] theorem State.setWindow_ps (s : State) (k : Nat) (x : Window) : (s.setWindow k x).ps = s.ps := rfl
@[simp] theorem State.setWindow_fe (s : State) (k : Nat) (x : Window) : (s.setWindow k x).fe = s.fe := rfl
@[simp] theorem State.setWindow_deckA (s : State) (k : Nat) (x : Window) : (s.setWindow k x).deckA = s.deckA := rfl
@[simp] theorem State.setWindow_deckB (s : State) (k : Nat) (x : Window) : (s.setWindow k x).deckB = s.deckB := rfl
@[simp] theorem State.setWindow_pt (s : State) (k : Nat) (x : Window) : (s.setWindow k x).pt = s.pt := rfl
@[simp] theorem State.setWindow_co (s : State) (k : Nat) (x : Window) : (s.setWindow k x).co = s.co := rfl
@[simp] theorem State.setWindow_pm (s : State) (k : Nat) (x : Window) : (s.setWindow k x).pm = s.pm := rfl
@[simp] theorem State.setWindow_ho (s : State) (k : Nat) (x : Window) : (s.setWindow k x).ho = s.ho := rfl
@[simp] theorem State.setWindow_ty (s : State) (k : Nat) (x : Window) : (s.setWindow k x).ty = s.ty := rfl
@[simp] theorem State.setWindow_fl (s : State) (k : Nat) (x : Window) : (s.setWindow k x).fl = s.fl := rfl
@[simp] theorem State.setWindow_lp (s : State) (k : Nat) (x : Window) : (s.setWindow k x).lp = s.lp := rfl
@[simp] theorem State.setWindow_lk (s : State) (k : Nat) (x : Window) : (s.setWindow k x).lk = s.lk := rfl
@[simp] theorem State.setWindow_sc (s : State) (k : Nat) (x : Window) : (s.setWindow k x).sc = s.sc := rfl
@[simp] theorem State.setWindow_tm (s : State) (k : Nat) (x : Window) : (s.setWindow k x).tm = s.tm := rfl
@[simp] theorem State.setWindow_hs (s : State) (k : Nat) (x : Window) : (s.setWindow k x).hs = s.hs := rfl
@[simp] theorem State.setWindow_mg (s : State) (k : Nat) (x : Window) : (s.setWindow k x).mg = s.mg := rfl
@[simp] theorem State.setWindow_out (s : State) (k : Nat) (x : Window) : (s.setWindow k x).out = s.out := rfl
@[simp] theorem State.setWindow_freeCtr (s : State) (k : Nat) (x : Window) : (s.setWindow k x).freeCtr = s.freeCtr := rfl
@[simp] theorem State.setWindow_pending (s : State) (k : Nat) (x : Window) : (s.setWindow k x).pending = s.pending := rfl
@[simp] theorem State.setWindow_get (s : State) (k : Nat) (x : Window) (G : RegField) (j : Nat) : (s.setWindow k x).get G j = s.get G j := rfl
@[simp] theorem State.setWindow_flag (s : State) (k : Nat) (x : Window) (G : RegField) (j : Nat) : (s.setWindow k x).flag G j = s.flag G j := rfl
@[simp] theorem State.setWindow_modState (s : State) (k : Nat) (x : Window) : (s.setWindow k x).modState = s.modState := rfl
@[simp] theorem State.setWindow_hubUp (s : State) (k : Nat) (x : Window) : (s.setWindow k x).hubUp = s.hubUp := rfl

@[simp] theorem State.setTrayBerth_regs (s : State) (n : Nat) (x : TrayBerth) : (s.setTrayBerth n x).regs = s.regs := rfl
@[simp] theorem State.setTrayBerth_tb (s : State) (n : Nat) (x : TrayBerth) : (s.setTrayBerth n x).tb = s.tb := rfl
@[simp] theorem State.setTrayBerth_pwr (s : State) (n : Nat) (x : TrayBerth) : (s.setTrayBerth n x).pwr = s.pwr := rfl
@[simp] theorem State.setTrayBerth_ps (s : State) (n : Nat) (x : TrayBerth) : (s.setTrayBerth n x).ps = s.ps := rfl
@[simp] theorem State.setTrayBerth_fe (s : State) (n : Nat) (x : TrayBerth) : (s.setTrayBerth n x).fe = s.fe := rfl
@[simp] theorem State.setTrayBerth_deckA (s : State) (n : Nat) (x : TrayBerth) : (s.setTrayBerth n x).deckA = s.deckA := rfl
@[simp] theorem State.setTrayBerth_deckB (s : State) (n : Nat) (x : TrayBerth) : (s.setTrayBerth n x).deckB = s.deckB := rfl
@[simp] theorem State.setTrayBerth_pt (s : State) (n : Nat) (x : TrayBerth) : (s.setTrayBerth n x).pt = s.pt := rfl
@[simp] theorem State.setTrayBerth_co (s : State) (n : Nat) (x : TrayBerth) : (s.setTrayBerth n x).co = s.co := rfl
@[simp] theorem State.setTrayBerth_pm (s : State) (n : Nat) (x : TrayBerth) : (s.setTrayBerth n x).pm = s.pm := rfl
@[simp] theorem State.setTrayBerth_ho (s : State) (n : Nat) (x : TrayBerth) : (s.setTrayBerth n x).ho = s.ho := rfl
@[simp] theorem State.setTrayBerth_te (s : State) (n : Nat) (x : TrayBerth) : (s.setTrayBerth n x).te = s.te := rfl
@[simp] theorem State.setTrayBerth_fl (s : State) (n : Nat) (x : TrayBerth) : (s.setTrayBerth n x).fl = s.fl := rfl
@[simp] theorem State.setTrayBerth_lp (s : State) (n : Nat) (x : TrayBerth) : (s.setTrayBerth n x).lp = s.lp := rfl
@[simp] theorem State.setTrayBerth_lk (s : State) (n : Nat) (x : TrayBerth) : (s.setTrayBerth n x).lk = s.lk := rfl
@[simp] theorem State.setTrayBerth_sc (s : State) (n : Nat) (x : TrayBerth) : (s.setTrayBerth n x).sc = s.sc := rfl
@[simp] theorem State.setTrayBerth_tm (s : State) (n : Nat) (x : TrayBerth) : (s.setTrayBerth n x).tm = s.tm := rfl
@[simp] theorem State.setTrayBerth_hs (s : State) (n : Nat) (x : TrayBerth) : (s.setTrayBerth n x).hs = s.hs := rfl
@[simp] theorem State.setTrayBerth_mg (s : State) (n : Nat) (x : TrayBerth) : (s.setTrayBerth n x).mg = s.mg := rfl
@[simp] theorem State.setTrayBerth_out (s : State) (n : Nat) (x : TrayBerth) : (s.setTrayBerth n x).out = s.out := rfl
@[simp] theorem State.setTrayBerth_freeCtr (s : State) (n : Nat) (x : TrayBerth) : (s.setTrayBerth n x).freeCtr = s.freeCtr := rfl
@[simp] theorem State.setTrayBerth_pending (s : State) (n : Nat) (x : TrayBerth) : (s.setTrayBerth n x).pending = s.pending := rfl
@[simp] theorem State.setTrayBerth_get (s : State) (n : Nat) (x : TrayBerth) (G : RegField) (j : Nat) : (s.setTrayBerth n x).get G j = s.get G j := rfl
@[simp] theorem State.setTrayBerth_flag (s : State) (n : Nat) (x : TrayBerth) (G : RegField) (j : Nat) : (s.setTrayBerth n x).flag G j = s.flag G j := rfl
@[simp] theorem State.setTrayBerth_modState (s : State) (n : Nat) (x : TrayBerth) : (s.setTrayBerth n x).modState = s.modState := rfl
@[simp] theorem State.setTrayBerth_hubUp (s : State) (n : Nat) (x : TrayBerth) : (s.setTrayBerth n x).hubUp = s.hubUp := rfl

@[simp] theorem State.setManifest_regs (s : State) (m : Manifest) : (s.setManifest m).regs = s.regs := rfl
@[simp] theorem State.setManifest_tb (s : State) (m : Manifest) : (s.setManifest m).tb = s.tb := rfl
@[simp] theorem State.setManifest_pwr (s : State) (m : Manifest) : (s.setManifest m).pwr = s.pwr := rfl
@[simp] theorem State.setManifest_ps (s : State) (m : Manifest) : (s.setManifest m).ps = s.ps := rfl
@[simp] theorem State.setManifest_fe (s : State) (m : Manifest) : (s.setManifest m).fe = s.fe := rfl
@[simp] theorem State.setManifest_deckA (s : State) (m : Manifest) : (s.setManifest m).deckA = s.deckA := rfl
@[simp] theorem State.setManifest_deckB (s : State) (m : Manifest) : (s.setManifest m).deckB = s.deckB := rfl
@[simp] theorem State.setManifest_pt (s : State) (m : Manifest) : (s.setManifest m).pt = s.pt := rfl
@[simp] theorem State.setManifest_co (s : State) (m : Manifest) : (s.setManifest m).co = s.co := rfl
@[simp] theorem State.setManifest_pm (s : State) (m : Manifest) : (s.setManifest m).pm = s.pm := rfl
@[simp] theorem State.setManifest_ho (s : State) (m : Manifest) : (s.setManifest m).ho = s.ho := rfl
@[simp] theorem State.setManifest_ty (s : State) (m : Manifest) : (s.setManifest m).ty = s.ty := rfl
@[simp] theorem State.setManifest_fl (s : State) (m : Manifest) : (s.setManifest m).fl = s.fl := rfl
@[simp] theorem State.setManifest_lp (s : State) (m : Manifest) : (s.setManifest m).lp = s.lp := rfl
@[simp] theorem State.setManifest_lk (s : State) (m : Manifest) : (s.setManifest m).lk = s.lk := rfl
@[simp] theorem State.setManifest_sc (s : State) (m : Manifest) : (s.setManifest m).sc = s.sc := rfl
@[simp] theorem State.setManifest_tm (s : State) (m : Manifest) : (s.setManifest m).tm = s.tm := rfl
@[simp] theorem State.setManifest_hs (s : State) (m : Manifest) : (s.setManifest m).hs = s.hs := rfl
@[simp] theorem State.setManifest_mg (s : State) (m : Manifest) : (s.setManifest m).mg = s.mg := rfl
@[simp] theorem State.setManifest_out (s : State) (m : Manifest) : (s.setManifest m).out = s.out := rfl
@[simp] theorem State.setManifest_freeCtr (s : State) (m : Manifest) : (s.setManifest m).freeCtr = s.freeCtr := rfl
@[simp] theorem State.setManifest_pending (s : State) (m : Manifest) : (s.setManifest m).pending = s.pending := rfl
@[simp] theorem State.setManifest_get (s : State) (m : Manifest) (G : RegField) (j : Nat) : (s.setManifest m).get G j = s.get G j := rfl
@[simp] theorem State.setManifest_flag (s : State) (m : Manifest) (G : RegField) (j : Nat) : (s.setManifest m).flag G j = s.flag G j := rfl
@[simp] theorem State.setManifest_modState (s : State) (m : Manifest) : (s.setManifest m).modState = s.modState := rfl
@[simp] theorem State.setManifest_hubUp (s : State) (m : Manifest) : (s.setManifest m).hubUp = s.hubUp := rfl

@[simp] theorem State.setDrive_regs (s : State) (d : Nat) (x : Drive) : (s.setDrive d x).regs = s.regs := rfl
@[simp] theorem State.setDrive_tb (s : State) (d : Nat) (x : Drive) : (s.setDrive d x).tb = s.tb := rfl
@[simp] theorem State.setDrive_pwr (s : State) (d : Nat) (x : Drive) : (s.setDrive d x).pwr = s.pwr := rfl
@[simp] theorem State.setDrive_ps (s : State) (d : Nat) (x : Drive) : (s.setDrive d x).ps = s.ps := rfl
@[simp] theorem State.setDrive_fe (s : State) (d : Nat) (x : Drive) : (s.setDrive d x).fe = s.fe := rfl
@[simp] theorem State.setDrive_deckA (s : State) (d : Nat) (x : Drive) : (s.setDrive d x).deckA = s.deckA := rfl
@[simp] theorem State.setDrive_deckB (s : State) (d : Nat) (x : Drive) : (s.setDrive d x).deckB = s.deckB := rfl
@[simp] theorem State.setDrive_pt (s : State) (d : Nat) (x : Drive) : (s.setDrive d x).pt = s.pt := rfl
@[simp] theorem State.setDrive_co (s : State) (d : Nat) (x : Drive) : (s.setDrive d x).co = s.co := rfl
@[simp] theorem State.setDrive_pm (s : State) (d : Nat) (x : Drive) : (s.setDrive d x).pm = s.pm := rfl
@[simp] theorem State.setDrive_ho (s : State) (d : Nat) (x : Drive) : (s.setDrive d x).ho = s.ho := rfl
@[simp] theorem State.setDrive_te (s : State) (d : Nat) (x : Drive) : (s.setDrive d x).te = s.te := rfl
@[simp] theorem State.setDrive_ty (s : State) (d : Nat) (x : Drive) : (s.setDrive d x).ty = s.ty := rfl
@[simp] theorem State.setDrive_lp (s : State) (d : Nat) (x : Drive) : (s.setDrive d x).lp = s.lp := rfl
@[simp] theorem State.setDrive_lk (s : State) (d : Nat) (x : Drive) : (s.setDrive d x).lk = s.lk := rfl
@[simp] theorem State.setDrive_sc (s : State) (d : Nat) (x : Drive) : (s.setDrive d x).sc = s.sc := rfl
@[simp] theorem State.setDrive_tm (s : State) (d : Nat) (x : Drive) : (s.setDrive d x).tm = s.tm := rfl
@[simp] theorem State.setDrive_hs (s : State) (d : Nat) (x : Drive) : (s.setDrive d x).hs = s.hs := rfl
@[simp] theorem State.setDrive_mg (s : State) (d : Nat) (x : Drive) : (s.setDrive d x).mg = s.mg := rfl
@[simp] theorem State.setDrive_out (s : State) (d : Nat) (x : Drive) : (s.setDrive d x).out = s.out := rfl
@[simp] theorem State.setDrive_freeCtr (s : State) (d : Nat) (x : Drive) : (s.setDrive d x).freeCtr = s.freeCtr := rfl
@[simp] theorem State.setDrive_pending (s : State) (d : Nat) (x : Drive) : (s.setDrive d x).pending = s.pending := rfl
@[simp] theorem State.setDrive_get (s : State) (d : Nat) (x : Drive) (G : RegField) (j : Nat) : (s.setDrive d x).get G j = s.get G j := rfl
@[simp] theorem State.setDrive_flag (s : State) (d : Nat) (x : Drive) (G : RegField) (j : Nat) : (s.setDrive d x).flag G j = s.flag G j := rfl
@[simp] theorem State.setDrive_modState (s : State) (d : Nat) (x : Drive) : (s.setDrive d x).modState = s.modState := rfl
@[simp] theorem State.setDrive_hubUp (s : State) (d : Nat) (x : Drive) : (s.setDrive d x).hubUp = s.hubUp := rfl

@[simp] theorem State.updSeq_regs (s : State) (g q : Nat) (f : Seq → Seq) : (s.updSeq g q f).regs = s.regs := rfl
@[simp] theorem State.updSeq_tb (s : State) (g q : Nat) (f : Seq → Seq) : (s.updSeq g q f).tb = s.tb := rfl
@[simp] theorem State.updSeq_pwr (s : State) (g q : Nat) (f : Seq → Seq) : (s.updSeq g q f).pwr = s.pwr := rfl
@[simp] theorem State.updSeq_ps (s : State) (g q : Nat) (f : Seq → Seq) : (s.updSeq g q f).ps = s.ps := rfl
@[simp] theorem State.updSeq_fe (s : State) (g q : Nat) (f : Seq → Seq) : (s.updSeq g q f).fe = s.fe := rfl
@[simp] theorem State.updSeq_deckA (s : State) (g q : Nat) (f : Seq → Seq) : (s.updSeq g q f).deckA = s.deckA := rfl
@[simp] theorem State.updSeq_deckB (s : State) (g q : Nat) (f : Seq → Seq) : (s.updSeq g q f).deckB = s.deckB := rfl
@[simp] theorem State.updSeq_pt (s : State) (g q : Nat) (f : Seq → Seq) : (s.updSeq g q f).pt = s.pt := rfl
@[simp] theorem State.updSeq_pm (s : State) (g q : Nat) (f : Seq → Seq) : (s.updSeq g q f).pm = s.pm := rfl
@[simp] theorem State.updSeq_ho (s : State) (g q : Nat) (f : Seq → Seq) : (s.updSeq g q f).ho = s.ho := rfl
@[simp] theorem State.updSeq_te (s : State) (g q : Nat) (f : Seq → Seq) : (s.updSeq g q f).te = s.te := rfl
@[simp] theorem State.updSeq_ty (s : State) (g q : Nat) (f : Seq → Seq) : (s.updSeq g q f).ty = s.ty := rfl
@[simp] theorem State.updSeq_fl (s : State) (g q : Nat) (f : Seq → Seq) : (s.updSeq g q f).fl = s.fl := rfl
@[simp] theorem State.updSeq_lp (s : State) (g q : Nat) (f : Seq → Seq) : (s.updSeq g q f).lp = s.lp := rfl
@[simp] theorem State.updSeq_lk (s : State) (g q : Nat) (f : Seq → Seq) : (s.updSeq g q f).lk = s.lk := rfl
@[simp] theorem State.updSeq_sc (s : State) (g q : Nat) (f : Seq → Seq) : (s.updSeq g q f).sc = s.sc := rfl
@[simp] theorem State.updSeq_tm (s : State) (g q : Nat) (f : Seq → Seq) : (s.updSeq g q f).tm = s.tm := rfl
@[simp] theorem State.updSeq_hs (s : State) (g q : Nat) (f : Seq → Seq) : (s.updSeq g q f).hs = s.hs := rfl
@[simp] theorem State.updSeq_mg (s : State) (g q : Nat) (f : Seq → Seq) : (s.updSeq g q f).mg = s.mg := rfl
@[simp] theorem State.updSeq_out (s : State) (g q : Nat) (f : Seq → Seq) : (s.updSeq g q f).out = s.out := rfl
@[simp] theorem State.updSeq_freeCtr (s : State) (g q : Nat) (f : Seq → Seq) : (s.updSeq g q f).freeCtr = s.freeCtr := rfl
@[simp] theorem State.updSeq_pending (s : State) (g q : Nat) (f : Seq → Seq) : (s.updSeq g q f).pending = s.pending := rfl
@[simp] theorem State.updSeq_get (s : State) (g q : Nat) (f : Seq → Seq) (G : RegField) (j : Nat) : (s.updSeq g q f).get G j = s.get G j := rfl
@[simp] theorem State.updSeq_flag (s : State) (g q : Nat) (f : Seq → Seq) (G : RegField) (j : Nat) : (s.updSeq g q f).flag G j = s.flag G j := rfl
@[simp] theorem State.updSeq_modState (s : State) (g q : Nat) (f : Seq → Seq) : (s.updSeq g q f).modState = s.modState := rfl
@[simp] theorem State.updSeq_hubUp (s : State) (g q : Nat) (f : Seq → Seq) : (s.updSeq g q f).hubUp = s.hubUp := rfl

@[simp] theorem State.setPort_regs (s : State) (p : Nat) (x : Port) : (s.setPort p x).regs = s.regs := rfl
@[simp] theorem State.setPort_tb (s : State) (p : Nat) (x : Port) : (s.setPort p x).tb = s.tb := rfl
@[simp] theorem State.setPort_pwr (s : State) (p : Nat) (x : Port) : (s.setPort p x).pwr = s.pwr := rfl
@[simp] theorem State.setPort_ps (s : State) (p : Nat) (x : Port) : (s.setPort p x).ps = s.ps := rfl
@[simp] theorem State.setPort_fe (s : State) (p : Nat) (x : Port) : (s.setPort p x).fe = s.fe := rfl
@[simp] theorem State.setPort_deckA (s : State) (p : Nat) (x : Port) : (s.setPort p x).deckA = s.deckA := rfl
@[simp] theorem State.setPort_deckB (s : State) (p : Nat) (x : Port) : (s.setPort p x).deckB = s.deckB := rfl
@[simp] theorem State.setPort_pt (s : State) (p : Nat) (x : Port) : (s.setPort p x).pt = s.pt := rfl
@[simp] theorem State.setPort_co (s : State) (p : Nat) (x : Port) : (s.setPort p x).co = s.co := rfl
@[simp] theorem State.setPort_pm (s : State) (p : Nat) (x : Port) : (s.setPort p x).pm = s.pm := rfl
@[simp] theorem State.setPort_ho (s : State) (p : Nat) (x : Port) : (s.setPort p x).ho = s.ho := rfl
@[simp] theorem State.setPort_te (s : State) (p : Nat) (x : Port) : (s.setPort p x).te = s.te := rfl
@[simp] theorem State.setPort_ty (s : State) (p : Nat) (x : Port) : (s.setPort p x).ty = s.ty := rfl
@[simp] theorem State.setPort_fl (s : State) (p : Nat) (x : Port) : (s.setPort p x).fl = s.fl := rfl
@[simp] theorem State.setPort_lp (s : State) (p : Nat) (x : Port) : (s.setPort p x).lp = s.lp := rfl
@[simp] theorem State.setPort_sc (s : State) (p : Nat) (x : Port) : (s.setPort p x).sc = s.sc := rfl
@[simp] theorem State.setPort_tm (s : State) (p : Nat) (x : Port) : (s.setPort p x).tm = s.tm := rfl
@[simp] theorem State.setPort_hs (s : State) (p : Nat) (x : Port) : (s.setPort p x).hs = s.hs := rfl
@[simp] theorem State.setPort_mg (s : State) (p : Nat) (x : Port) : (s.setPort p x).mg = s.mg := rfl
@[simp] theorem State.setPort_out (s : State) (p : Nat) (x : Port) : (s.setPort p x).out = s.out := rfl
@[simp] theorem State.setPort_freeCtr (s : State) (p : Nat) (x : Port) : (s.setPort p x).freeCtr = s.freeCtr := rfl
@[simp] theorem State.setPort_pending (s : State) (p : Nat) (x : Port) : (s.setPort p x).pending = s.pending := rfl
@[simp] theorem State.setPort_get (s : State) (p : Nat) (x : Port) (G : RegField) (j : Nat) : (s.setPort p x).get G j = s.get G j := rfl
@[simp] theorem State.setPort_flag (s : State) (p : Nat) (x : Port) (G : RegField) (j : Nat) : (s.setPort p x).flag G j = s.flag G j := rfl
@[simp] theorem State.setPort_modState (s : State) (p : Nat) (x : Port) : (s.setPort p x).modState = s.modState := rfl
@[simp] theorem State.setPort_hubUp (s : State) (p : Nat) (x : Port) : (s.setPort p x).hubUp = s.hubUp := rfl

@[simp] theorem State.setFlowOut_regs (s : State) (x : FlowOut) : (s.setFlowOut x).regs = s.regs := rfl
@[simp] theorem State.setFlowOut_tb (s : State) (x : FlowOut) : (s.setFlowOut x).tb = s.tb := rfl
@[simp] theorem State.setFlowOut_pwr (s : State) (x : FlowOut) : (s.setFlowOut x).pwr = s.pwr := rfl
@[simp] theorem State.setFlowOut_ps (s : State) (x : FlowOut) : (s.setFlowOut x).ps = s.ps := rfl
@[simp] theorem State.setFlowOut_fe (s : State) (x : FlowOut) : (s.setFlowOut x).fe = s.fe := rfl
@[simp] theorem State.setFlowOut_deckA (s : State) (x : FlowOut) : (s.setFlowOut x).deckA = s.deckA := rfl
@[simp] theorem State.setFlowOut_deckB (s : State) (x : FlowOut) : (s.setFlowOut x).deckB = s.deckB := rfl
@[simp] theorem State.setFlowOut_pt (s : State) (x : FlowOut) : (s.setFlowOut x).pt = s.pt := rfl
@[simp] theorem State.setFlowOut_co (s : State) (x : FlowOut) : (s.setFlowOut x).co = s.co := rfl
@[simp] theorem State.setFlowOut_pm (s : State) (x : FlowOut) : (s.setFlowOut x).pm = s.pm := rfl
@[simp] theorem State.setFlowOut_ho (s : State) (x : FlowOut) : (s.setFlowOut x).ho = s.ho := rfl
@[simp] theorem State.setFlowOut_te (s : State) (x : FlowOut) : (s.setFlowOut x).te = s.te := rfl
@[simp] theorem State.setFlowOut_ty (s : State) (x : FlowOut) : (s.setFlowOut x).ty = s.ty := rfl
@[simp] theorem State.setFlowOut_fl (s : State) (x : FlowOut) : (s.setFlowOut x).fl = s.fl := rfl
@[simp] theorem State.setFlowOut_lp (s : State) (x : FlowOut) : (s.setFlowOut x).lp = s.lp := rfl
@[simp] theorem State.setFlowOut_sc (s : State) (x : FlowOut) : (s.setFlowOut x).sc = s.sc := rfl
@[simp] theorem State.setFlowOut_tm (s : State) (x : FlowOut) : (s.setFlowOut x).tm = s.tm := rfl
@[simp] theorem State.setFlowOut_hs (s : State) (x : FlowOut) : (s.setFlowOut x).hs = s.hs := rfl
@[simp] theorem State.setFlowOut_mg (s : State) (x : FlowOut) : (s.setFlowOut x).mg = s.mg := rfl
@[simp] theorem State.setFlowOut_out (s : State) (x : FlowOut) : (s.setFlowOut x).out = s.out := rfl
@[simp] theorem State.setFlowOut_freeCtr (s : State) (x : FlowOut) : (s.setFlowOut x).freeCtr = s.freeCtr := rfl
@[simp] theorem State.setFlowOut_pending (s : State) (x : FlowOut) : (s.setFlowOut x).pending = s.pending := rfl
@[simp] theorem State.setFlowOut_get (s : State) (x : FlowOut) (G : RegField) (j : Nat) : (s.setFlowOut x).get G j = s.get G j := rfl
@[simp] theorem State.setFlowOut_flag (s : State) (x : FlowOut) (G : RegField) (j : Nat) : (s.setFlowOut x).flag G j = s.flag G j := rfl
@[simp] theorem State.setFlowOut_modState (s : State) (x : FlowOut) : (s.setFlowOut x).modState = s.modState := rfl
@[simp] theorem State.setFlowOut_hubUp (s : State) (x : FlowOut) : (s.setFlowOut x).hubUp = s.hubUp := rfl

@[simp] theorem State.setFlowIn_regs (s : State) (x : FlowIn) : (s.setFlowIn x).regs = s.regs := rfl
@[simp] theorem State.setFlowIn_tb (s : State) (x : FlowIn) : (s.setFlowIn x).tb = s.tb := rfl
@[simp] theorem State.setFlowIn_pwr (s : State) (x : FlowIn) : (s.setFlowIn x).pwr = s.pwr := rfl
@[simp] theorem State.setFlowIn_ps (s : State) (x : FlowIn) : (s.setFlowIn x).ps = s.ps := rfl
@[simp] theorem State.setFlowIn_fe (s : State) (x : FlowIn) : (s.setFlowIn x).fe = s.fe := rfl
@[simp] theorem State.setFlowIn_deckA (s : State) (x : FlowIn) : (s.setFlowIn x).deckA = s.deckA := rfl
@[simp] theorem State.setFlowIn_deckB (s : State) (x : FlowIn) : (s.setFlowIn x).deckB = s.deckB := rfl
@[simp] theorem State.setFlowIn_pt (s : State) (x : FlowIn) : (s.setFlowIn x).pt = s.pt := rfl
@[simp] theorem State.setFlowIn_co (s : State) (x : FlowIn) : (s.setFlowIn x).co = s.co := rfl
@[simp] theorem State.setFlowIn_pm (s : State) (x : FlowIn) : (s.setFlowIn x).pm = s.pm := rfl
@[simp] theorem State.setFlowIn_ho (s : State) (x : FlowIn) : (s.setFlowIn x).ho = s.ho := rfl
@[simp] theorem State.setFlowIn_te (s : State) (x : FlowIn) : (s.setFlowIn x).te = s.te := rfl
@[simp] theorem State.setFlowIn_ty (s : State) (x : FlowIn) : (s.setFlowIn x).ty = s.ty := rfl
@[simp] theorem State.setFlowIn_fl (s : State) (x : FlowIn) : (s.setFlowIn x).fl = s.fl := rfl
@[simp] theorem State.setFlowIn_lp (s : State) (x : FlowIn) : (s.setFlowIn x).lp = s.lp := rfl
@[simp] theorem State.setFlowIn_sc (s : State) (x : FlowIn) : (s.setFlowIn x).sc = s.sc := rfl
@[simp] theorem State.setFlowIn_tm (s : State) (x : FlowIn) : (s.setFlowIn x).tm = s.tm := rfl
@[simp] theorem State.setFlowIn_hs (s : State) (x : FlowIn) : (s.setFlowIn x).hs = s.hs := rfl
@[simp] theorem State.setFlowIn_mg (s : State) (x : FlowIn) : (s.setFlowIn x).mg = s.mg := rfl
@[simp] theorem State.setFlowIn_out (s : State) (x : FlowIn) : (s.setFlowIn x).out = s.out := rfl
@[simp] theorem State.setFlowIn_freeCtr (s : State) (x : FlowIn) : (s.setFlowIn x).freeCtr = s.freeCtr := rfl
@[simp] theorem State.setFlowIn_pending (s : State) (x : FlowIn) : (s.setFlowIn x).pending = s.pending := rfl
@[simp] theorem State.setFlowIn_get (s : State) (x : FlowIn) (G : RegField) (j : Nat) : (s.setFlowIn x).get G j = s.get G j := rfl
@[simp] theorem State.setFlowIn_flag (s : State) (x : FlowIn) (G : RegField) (j : Nat) : (s.setFlowIn x).flag G j = s.flag G j := rfl
@[simp] theorem State.setFlowIn_modState (s : State) (x : FlowIn) : (s.setFlowIn x).modState = s.modState := rfl
@[simp] theorem State.setFlowIn_hubUp (s : State) (x : FlowIn) : (s.setFlowIn x).hubUp = s.hubUp := rfl

@[simp] theorem State.setSeal_regs (s : State) (n : Nat) (x : Seal) : (s.setSeal n x).regs = s.regs := rfl
@[simp] theorem State.setSeal_tb (s : State) (n : Nat) (x : Seal) : (s.setSeal n x).tb = s.tb := rfl
@[simp] theorem State.setSeal_pwr (s : State) (n : Nat) (x : Seal) : (s.setSeal n x).pwr = s.pwr := rfl
@[simp] theorem State.setSeal_fe (s : State) (n : Nat) (x : Seal) : (s.setSeal n x).fe = s.fe := rfl
@[simp] theorem State.setSeal_deckA (s : State) (n : Nat) (x : Seal) : (s.setSeal n x).deckA = s.deckA := rfl
@[simp] theorem State.setSeal_deckB (s : State) (n : Nat) (x : Seal) : (s.setSeal n x).deckB = s.deckB := rfl
@[simp] theorem State.setSeal_pt (s : State) (n : Nat) (x : Seal) : (s.setSeal n x).pt = s.pt := rfl
@[simp] theorem State.setSeal_co (s : State) (n : Nat) (x : Seal) : (s.setSeal n x).co = s.co := rfl
@[simp] theorem State.setSeal_pm (s : State) (n : Nat) (x : Seal) : (s.setSeal n x).pm = s.pm := rfl
@[simp] theorem State.setSeal_ho (s : State) (n : Nat) (x : Seal) : (s.setSeal n x).ho = s.ho := rfl
@[simp] theorem State.setSeal_te (s : State) (n : Nat) (x : Seal) : (s.setSeal n x).te = s.te := rfl
@[simp] theorem State.setSeal_ty (s : State) (n : Nat) (x : Seal) : (s.setSeal n x).ty = s.ty := rfl
@[simp] theorem State.setSeal_fl (s : State) (n : Nat) (x : Seal) : (s.setSeal n x).fl = s.fl := rfl
@[simp] theorem State.setSeal_lp (s : State) (n : Nat) (x : Seal) : (s.setSeal n x).lp = s.lp := rfl
@[simp] theorem State.setSeal_lk (s : State) (n : Nat) (x : Seal) : (s.setSeal n x).lk = s.lk := rfl
@[simp] theorem State.setSeal_sc (s : State) (n : Nat) (x : Seal) : (s.setSeal n x).sc = s.sc := rfl
@[simp] theorem State.setSeal_tm (s : State) (n : Nat) (x : Seal) : (s.setSeal n x).tm = s.tm := rfl
@[simp] theorem State.setSeal_hs (s : State) (n : Nat) (x : Seal) : (s.setSeal n x).hs = s.hs := rfl
@[simp] theorem State.setSeal_mg (s : State) (n : Nat) (x : Seal) : (s.setSeal n x).mg = s.mg := rfl
@[simp] theorem State.setSeal_out (s : State) (n : Nat) (x : Seal) : (s.setSeal n x).out = s.out := rfl
@[simp] theorem State.setSeal_freeCtr (s : State) (n : Nat) (x : Seal) : (s.setSeal n x).freeCtr = s.freeCtr := rfl
@[simp] theorem State.setSeal_pending (s : State) (n : Nat) (x : Seal) : (s.setSeal n x).pending = s.pending := rfl
@[simp] theorem State.setSeal_get (s : State) (n : Nat) (x : Seal) (G : RegField) (j : Nat) : (s.setSeal n x).get G j = s.get G j := rfl
@[simp] theorem State.setSeal_flag (s : State) (n : Nat) (x : Seal) (G : RegField) (j : Nat) : (s.setSeal n x).flag G j = s.flag G j := rfl
@[simp] theorem State.setSeal_modState (s : State) (n : Nat) (x : Seal) : (s.setSeal n x).modState = s.modState := rfl
@[simp] theorem State.setSeal_hubUp (s : State) (n : Nat) (x : Seal) : (s.setSeal n x).hubUp = s.hubUp := rfl

/-- The two decks: an update of one leaves everything but that deck. -/
theorem State.setDeck_cases (s : State) (d : DeckId) (x : Deck) :
    (d = .a ∧ s.setDeck d x = { s with deckA := x }) ∨ (d = .b ∧ s.setDeck d x = { s with deckB := x }) := by
  cases d
  · exact .inl ⟨rfl, rfl⟩
  · exact .inr ⟨rfl, rfl⟩

@[simp] theorem State.setDeck_regs (s : State) (d : DeckId) (x : Deck) : (s.setDeck d x).regs = s.regs := by cases d <;> rfl
@[simp] theorem State.updDeck_regs (s : State) (d : DeckId) (g : Deck → Deck) : (s.updDeck d g).regs = s.regs := by cases d <;> rfl
@[simp] theorem State.setDeck_tb (s : State) (d : DeckId) (x : Deck) : (s.setDeck d x).tb = s.tb := by cases d <;> rfl
@[simp] theorem State.updDeck_tb (s : State) (d : DeckId) (g : Deck → Deck) : (s.updDeck d g).tb = s.tb := by cases d <;> rfl
@[simp] theorem State.setDeck_pwr (s : State) (d : DeckId) (x : Deck) : (s.setDeck d x).pwr = s.pwr := by cases d <;> rfl
@[simp] theorem State.updDeck_pwr (s : State) (d : DeckId) (g : Deck → Deck) : (s.updDeck d g).pwr = s.pwr := by cases d <;> rfl
@[simp] theorem State.setDeck_ps (s : State) (d : DeckId) (x : Deck) : (s.setDeck d x).ps = s.ps := by cases d <;> rfl
@[simp] theorem State.updDeck_ps (s : State) (d : DeckId) (g : Deck → Deck) : (s.updDeck d g).ps = s.ps := by cases d <;> rfl
@[simp] theorem State.setDeck_fe (s : State) (d : DeckId) (x : Deck) : (s.setDeck d x).fe = s.fe := by cases d <;> rfl
@[simp] theorem State.updDeck_fe (s : State) (d : DeckId) (g : Deck → Deck) : (s.updDeck d g).fe = s.fe := by cases d <;> rfl
@[simp] theorem State.setDeck_pt (s : State) (d : DeckId) (x : Deck) : (s.setDeck d x).pt = s.pt := by cases d <;> rfl
@[simp] theorem State.updDeck_pt (s : State) (d : DeckId) (g : Deck → Deck) : (s.updDeck d g).pt = s.pt := by cases d <;> rfl
@[simp] theorem State.setDeck_co (s : State) (d : DeckId) (x : Deck) : (s.setDeck d x).co = s.co := by cases d <;> rfl
@[simp] theorem State.updDeck_co (s : State) (d : DeckId) (g : Deck → Deck) : (s.updDeck d g).co = s.co := by cases d <;> rfl
@[simp] theorem State.setDeck_pm (s : State) (d : DeckId) (x : Deck) : (s.setDeck d x).pm = s.pm := by cases d <;> rfl
@[simp] theorem State.updDeck_pm (s : State) (d : DeckId) (g : Deck → Deck) : (s.updDeck d g).pm = s.pm := by cases d <;> rfl
@[simp] theorem State.setDeck_ho (s : State) (d : DeckId) (x : Deck) : (s.setDeck d x).ho = s.ho := by cases d <;> rfl
@[simp] theorem State.updDeck_ho (s : State) (d : DeckId) (g : Deck → Deck) : (s.updDeck d g).ho = s.ho := by cases d <;> rfl
@[simp] theorem State.setDeck_te (s : State) (d : DeckId) (x : Deck) : (s.setDeck d x).te = s.te := by cases d <;> rfl
@[simp] theorem State.updDeck_te (s : State) (d : DeckId) (g : Deck → Deck) : (s.updDeck d g).te = s.te := by cases d <;> rfl
@[simp] theorem State.setDeck_ty (s : State) (d : DeckId) (x : Deck) : (s.setDeck d x).ty = s.ty := by cases d <;> rfl
@[simp] theorem State.updDeck_ty (s : State) (d : DeckId) (g : Deck → Deck) : (s.updDeck d g).ty = s.ty := by cases d <;> rfl
@[simp] theorem State.setDeck_fl (s : State) (d : DeckId) (x : Deck) : (s.setDeck d x).fl = s.fl := by cases d <;> rfl
@[simp] theorem State.updDeck_fl (s : State) (d : DeckId) (g : Deck → Deck) : (s.updDeck d g).fl = s.fl := by cases d <;> rfl
@[simp] theorem State.setDeck_lp (s : State) (d : DeckId) (x : Deck) : (s.setDeck d x).lp = s.lp := by cases d <;> rfl
@[simp] theorem State.updDeck_lp (s : State) (d : DeckId) (g : Deck → Deck) : (s.updDeck d g).lp = s.lp := by cases d <;> rfl
@[simp] theorem State.setDeck_lk (s : State) (d : DeckId) (x : Deck) : (s.setDeck d x).lk = s.lk := by cases d <;> rfl
@[simp] theorem State.updDeck_lk (s : State) (d : DeckId) (g : Deck → Deck) : (s.updDeck d g).lk = s.lk := by cases d <;> rfl
@[simp] theorem State.setDeck_sc (s : State) (d : DeckId) (x : Deck) : (s.setDeck d x).sc = s.sc := by cases d <;> rfl
@[simp] theorem State.updDeck_sc (s : State) (d : DeckId) (g : Deck → Deck) : (s.updDeck d g).sc = s.sc := by cases d <;> rfl
@[simp] theorem State.setDeck_tm (s : State) (d : DeckId) (x : Deck) : (s.setDeck d x).tm = s.tm := by cases d <;> rfl
@[simp] theorem State.updDeck_tm (s : State) (d : DeckId) (g : Deck → Deck) : (s.updDeck d g).tm = s.tm := by cases d <;> rfl
@[simp] theorem State.setDeck_hs (s : State) (d : DeckId) (x : Deck) : (s.setDeck d x).hs = s.hs := by cases d <;> rfl
@[simp] theorem State.updDeck_hs (s : State) (d : DeckId) (g : Deck → Deck) : (s.updDeck d g).hs = s.hs := by cases d <;> rfl
@[simp] theorem State.setDeck_mg (s : State) (d : DeckId) (x : Deck) : (s.setDeck d x).mg = s.mg := by cases d <;> rfl
@[simp] theorem State.updDeck_mg (s : State) (d : DeckId) (g : Deck → Deck) : (s.updDeck d g).mg = s.mg := by cases d <;> rfl
@[simp] theorem State.setDeck_out (s : State) (d : DeckId) (x : Deck) : (s.setDeck d x).out = s.out := by cases d <;> rfl
@[simp] theorem State.updDeck_out (s : State) (d : DeckId) (g : Deck → Deck) : (s.updDeck d g).out = s.out := by cases d <;> rfl
@[simp] theorem State.setDeck_freeCtr (s : State) (d : DeckId) (x : Deck) : (s.setDeck d x).freeCtr = s.freeCtr := by cases d <;> rfl
@[simp] theorem State.updDeck_freeCtr (s : State) (d : DeckId) (g : Deck → Deck) : (s.updDeck d g).freeCtr = s.freeCtr := by cases d <;> rfl
@[simp] theorem State.setDeck_pending (s : State) (d : DeckId) (x : Deck) : (s.setDeck d x).pending = s.pending := by cases d <;> rfl
@[simp] theorem State.updDeck_pending (s : State) (d : DeckId) (g : Deck → Deck) : (s.updDeck d g).pending = s.pending := by cases d <;> rfl
@[simp] theorem State.setDeck_get (s : State) (d : DeckId) (x : Deck) (G : RegField) (j : Nat) :
    (s.setDeck d x).get G j = s.get G j := by cases d <;> rfl
@[simp] theorem State.updDeck_get (s : State) (d : DeckId) (g : Deck → Deck) (G : RegField) (j : Nat) :
    (s.updDeck d g).get G j = s.get G j := by cases d <;> rfl
@[simp] theorem State.setDeck_deck (s : State) (d : DeckId) (x : Deck) : (s.setDeck d x).deck d = x := by cases d <;> rfl
@[simp] theorem State.updDeck_deck (s : State) (d : DeckId) (g : Deck → Deck) : (s.updDeck d g).deck d = g (s.deck d) := by
  cases d <;> rfl

/-! ## Registers -/

/-- A field reads what was written, in its width. -/
theorem State.get_put_same (s : State) (F : RegField) (i v : Nat) (h : i < F.count) : (s.put F i v).get F i = v % 2 ^ F.width := by
  simp [State.get, State.put, h]

theorem State.regKey_inj {a b : Fin 1024} {i j : Nat} (h : a ≠ b ∨ i ≠ j) : a.val + 1024 * i ≠ b.val + 1024 * j := by
  intro he
  have ha := a.isLt
  have hb := b.isLt
  rcases h with h | h
  · exact h (Fin.ext (by omega))
  · omega

/-- A write leaves every other field and entry alone. -/
theorem State.get_put_other (s : State) (F G : RegField) (i j v : Nat) (h : G.id ≠ F.id ∨ j ≠ i) :
    (s.put F i v).get G j = s.get G j := by
  unfold State.put
  split
  · unfold State.get
    split
    · exact Tab.get_set_other _ _ _ _ (State.regKey_inj h)
    · rfl
  · rfl

/-- What `bump` leaves in the field it counts in. -/
theorem State.get_bump_same (s : State) (F : RegField) (i n : Nat) (h : i < F.count) :
    (s.bump F i n).get F i = min (s.get F i + n) (2 ^ F.width - 1) := by
  unfold State.bump
  rw [State.get_put_same _ _ _ _ h]
  apply Nat.mod_eq_of_lt
  have := Nat.two_pow_pos F.width
  omega

theorem State.get_bump_other (s : State) (F G : RegField) (i j n : Nat) (h : G.id ≠ F.id ∨ j ≠ i) :
    (s.bump F i n).get G j = s.get G j := State.get_put_other _ _ _ _ _ _ h

/-- Writing a register keeps the keys rising. -/
theorem State.put_rises (s : State) (F : RegField) (i v : Nat) (h : s.regs.rises = true) : (s.put F i v).regs.rises = true := by
  unfold State.put
  split
  · exact Tab.rises_set _ _ _ _ h
  · exact h

/-! ## Slots, lines and contexts -/

@[simp] theorem State.slot_setSlot (s : State) (p n : Nat) (x : Slot) : (s.setSlot p n x).slot p n = x :=
  Tab.get_set_same ..

theorem State.slot_setSlot_other (s : State) (p n p' n' : Nat) (x : Slot) (h : slotKey p' n' ≠ slotKey p n) :
    (s.setSlot p n x).slot p' n' = s.slot p' n' := Tab.get_set_other _ _ _ _ h

@[simp] theorem State.line_setLine (s : State) (ln : Nat) (x : Line) : (s.setLine ln x).line ln = x := Tab.get_set_same ..

theorem State.line_setLine_other (s : State) (ln l : Nat) (x : Line) (h : l ≠ ln) : (s.setLine ln x).line l = s.line l :=
  Tab.get_set_other _ _ _ _ h

end Sys2Proof.Machine
end

