-- ==== Sys2Proof/Tests/Slice0.lean ====
section
/-! SUPPORT. Small tests: an ill-formed command for each check of `Instr.wellFormed`, and for each statement states and operands
that meet its hypotheses, with what one step then does. Expected values are from the manual's rules and tables. -/

namespace Sys2Proof.Tests

open Sys2Proof Sys2Proof.Machine

set_option Elab.async false

/-! ## Ill-formed commands -/

def noFrame : Frame :=
  { ver := 1, cls := 0, vc := 0, opc := 0, part := 0, epoch := 0, dst := 0, src := 0, seq := 0, tag := 0, len := 0, rsvA := 0, flags := 0,
    addr := 0, rsvB := 0, ctx := 0, attr := 0, rsvC := 0, hcrc := 0, data := [], ecrc := 0, hops := 0, ce := 0, rsvT := 0 }

def noData : Payload := ⟨[], []⟩

def badData : Payload := ⟨[0], [1]⟩

def strap : StrapSample := ⟨false, false, 0⟩

def zeroTime : TimeStamp := ⟨0, 0, 0⟩

def sync : TimePayload := ⟨0, 0, zeroTime, 0⟩

def eight : List Nat := [0, 0, 0, 0, 0, 0, 0, 0]

def peer : LParam := ⟨1, 0, 0, false, 0, eight, 33, 0, 0, 0, 0⟩

def flow : FlowId := ⟨1, 2, 1⟩

def drive : DriveInfo := ⟨true, 64, true, true⟩

def token : UnlockToken := ⟨0, 0, 0⟩
/-- Ill-formed commands, part 1: each breaks one check. -/
def illFormed1 : List Instr :=
  [.powerGood ⟨true, true, 16⟩ strap strap, .powerGood strap ⟨true, true, 16⟩ strap,
   .powerGood strap strap ⟨true, true, 16⟩, .stackTrainingDone [640], .deckSelfTest [68], .clockLoss 4,
   .thermalSample [65536], .fatalError (.d2dFail 64), .fatalError (.metadataLost 20), .fatalError (.thermalTrip 256 0),
   .fatalError (.thermalTrip 0 65536), .fatalError (.clockLoss 4), .d2dLaneRepair 64 true, .moduleReset 0, .moduleReset 3,
   .hsReset 2 0, .perstN 2 .hotReset, .cblPrsntN 4 0 true 0, .cblPrsntN 0 32 true 0, .sprPrsntN 4 true 0,
   .fprsntN 16 true 0, .ckTimeSet 2 0, .ckTimeSecRead 2, .timeSync 512 sync zeroTime,
   .timeSync 0 ⟨0, 0, ⟨281474976710656, 0, 0⟩, 0⟩ zeroTime, .timeSync 0 sync ⟨0, 1000000000, 0⟩,
   .timeSync 0 sync ⟨0, 0, 4294967296⟩, .delayReq 512 sync zeroTime, .delayReq 0 ⟨0, 0, ⟨281474976710656, 0, 0⟩, 0⟩ zeroTime,
   .delayReq 0 sync ⟨0, 1000000000, 0⟩, .delayReq 0 sync ⟨0, 0, 4294967296⟩, .delayRsp 512 sync,
   .delayRsp 0 ⟨0, 0, ⟨281474976710656, 0, 0⟩, 0⟩, .registerWrite 2 0 [] true, .registerWrite 0 33554432 [] true,
   .registerWrite 0 0 (List.replicate 4097 0) true, .fareCommit 2 0 0, .fareCommit 0 64 0, .contextEnable 4096,
   .contextDisable 4096, .contextPause 4096, .contextResume 4096]

theorem test_ill_formed_1 : illFormed1.all (fun c => !c.wellFormed) = true := by decide +kernel

/-- Ill-formed commands, part 2: each breaks one check. -/
def illFormed2 : List Instr :=
  [.contextDrainComplete 4096, .descriptorFetch 4096, .commandDispatch 16384, .recordCommit 16384, .commandTimeout 16384,
   .nop 16384, .abort 16384, .cross 16384, .score 16384, .matmul 16384, .search 16384, .select 16384, .gather 16384,
   .filter 16384, .append 16384, .merge 16384, .reduce 16384, .copy 16384, .manifestStart 16384, .manifestStop 16384,
   .fill 16384, .bind 16384, .clean 16384, .evict 16384, .acquire 16384, .publishUpdate 16384, .publishInit 16384,
   .publishXfer 16384, .publishFree 16384, .fence 16384, .flushComplete 16384, .atomicAdd 16384, .atomicOr 16384,
   .atomicAnd 16384, .atomicMax 16384, .atomicMin 16384, .atomicSwap 16384, .atomicCas 16384, .semInit 16384,
   .semGive 16384, .semFree 16384, .wait 16384]

theorem test_ill_formed_2 : illFormed2.all (fun c => !c.wellFormed) = true := by decide +kernel

/-- Ill-formed commands, part 3: each breaks one check. -/
def illFormed3 : List Instr :=
  [.handoffCreate 16384, .handoffOffer 16384, .handoffConfirm 16384, .handoffQuery 16384, .handoffRelease 16384,
   .handoffDeadline 16106127360, .homeAnswer 16384, .acquireTimeout 16384, .waitTimeout 16384,
   .semLeaseExpiry 16106127360 0, .semLeaseExpiry 0 4096, .homeNextRequest 16106127360, .homeBatchApply 16106127360,
   .snoopTargetLost 16106127360 0, .snoopTargetLost 0 65536, .replyCacheExpiry 65536 0, .replyCacheExpiry 0 1048576,
   .ld noFrame [.corrected 32212254720], .ld noFrame [.uncorrectable 32212254720], .st noFrame [.corrected 32212254720],
   .st noFrame [.uncorrectable 32212254720], .ldData 0 0 badData, .contribTimeout 1024 0, .contribTimeout 0 65536,
   .reduceChunkComplete (.merge 16384), .reduceChunkComplete (.seq 1024 0), .reduceChunkComplete (.seq 0 65536),
   .groupActivate 1024, .groupDrain 1024, .groupDrainComplete 1024, .ackTimer ⟨65536, 0, 0⟩, .ackTimer ⟨0, 65536, 0⟩,
   .ackTimer ⟨0, 0, 8⟩, .gapNackTimer ⟨65536, 0, 0⟩, .gapNackTimer ⟨0, 65536, 0⟩, .gapNackTimer ⟨0, 0, 8⟩,
   .retxTimer ⟨65536, 0, 0⟩ 0, .retxTimer ⟨0, 65536, 0⟩ 0, .retxTimer ⟨0, 0, 8⟩ 0, .retxTimer flow 16777216,
   .credit 512 ⟨eight, 0⟩, .credit 0 ⟨[0, 0, 0, 0, 0, 0, 0, 65536], 0⟩]

theorem test_ill_formed_3 : illFormed3.all (fun c => !c.wellFormed) = true := by decide +kernel

/-- Ill-formed commands, part 4: each breaks one check. -/
def illFormed4 : List Instr :=
  [.credit 0 ⟨[], 0⟩, .creditSend 512, .lparam 512 peer, .lparam 0 ⟨1, 0, 0, false, 0, [], 0, 0, 0, 0, 0⟩, .laneCtl 512 0 ⟨0, 0⟩,
   .laneCtl 0 132 ⟨0, 0⟩, .codewordUncorrectable 512 0, .codewordUncorrectable 0 132, .frameForward 512 noFrame,
   .frameSelect 518 none, .frameSelect 0 (some (522, true)), .reseqGapTimeout (.egress 512) flow,
   .reseqGapTimeout .delivery ⟨65536, 0, 0⟩, .reseqGapTimeout .delivery ⟨0, 65536, 0⟩, .reseqGapTimeout .delivery ⟨0, 0, 8⟩,
   .reseqFlowEvict 512 flow, .reseqFlowEvict 0 ⟨65536, 0, 0⟩, .reseqFlowEvict 0 ⟨0, 65536, 0⟩, .reseqFlowEvict 0 ⟨0, 0, 8⟩,
   .gateEntryBoundary 512, .gclCommit 512, .gclActivate 512, .leakAuditPass [524288] [] true,
   .leakAuditPass [] [524288] true, .bankRetire 522, .mcWrite 2 0, .portEnable 512, .portDisable 512, .trainingStepDone 512,
   .trainingStepTimeout 512 [], .trainingStepTimeout 0 [132], .trainingRetry 512, .linkLost 512, .laneFailure 4 0,
   .laneFailure 0 132, .lkLaneRetire 2 0, .portFence 512, .routeWrite 2 0, .mapWrite 2 0, .epochActivate 64,
   .epochRetire 64 true, .grant 2]

theorem test_ill_formed_4 : illFormed4.all (fun c => !c.wellFormed) = true := by decide +kernel

/-- Ill-formed commands, part 5: each breaks one check. -/
def illFormed5 : List Instr :=
  [.moor 2, .renew 2, .unmoor 2, .revoke 2, .leaseEnd 64 0, .leaseEnd 0 32768, .graceEnd 64 0, .graceEnd 0 32768,
   .drainUsExpiry 64 0, .drainUsExpiry 0 32768, .drainComplete 64 0, .drainComplete 0 32768, .scrubComplete 64 0,
   .scrubComplete 0 32768, .patrolScrub [.corrected 32212254720], .patrolScrub [.uncorrectable 32212254720],
   .rowRepair 640 0, .rowRepair 0 12582912, .channelRetireRequest 640, .migrationComplete 640, .channelFail 640,
   .granuleReadReturn 16384 0 0 true 0, .granuleReadReturn 0 0 0 true 4097, .gatherUnitError 18 true,
   .filterUnitError 9 true, .reduceUnitError 9 true, .filterTransferBoundary 16384, .passStep .a (some 34),
   .legEnd .a (some (34, 0)), .suspectExpiry .a 34, .writeBackAge 64 0 0, .writeBackAge 0 32768 0, .writeBackAge 0 0 16384,
   .tierWaitExpiry 16384, .nvmeCompletion 16 0 true noData, .nvmeCompletion 0 0 true badData, .nvmeTimeout 16 0,
   .driveDiscovery 16 drive, .trayFailure 64, .alloc 2, .trayBerthFree 2, .rebuild 2 0]

theorem test_ill_formed_5 : illFormed5.all (fun c => !c.wellFormed) = true := by decide +kernel

/-- Ill-formed commands, part 6: each breaks one check. -/
def illFormed6 : List Instr :=
  [.rebuild 0 64, .rebuildComplete 33554432, .create 2 0, .create 0 64, .destroy 2 0, .destroy 0 64, .teardownContinue 64,
   .contain 64 .request, .contain 0 (.tallyLost 20 0), .contain 0 (.stateUE 65536), .logEnable 2, .logHeadWrite 2 0,
   .logHeadWrite 0 1048576, .commitSvn 2, .imageUpdate 2, .sealData 2, .sealHashDone 16, .unsealData 2, .getDigests 8,
   .getCertificate 8, .challenge 8 0, .getMeasurements 256 0, .setEndpointId 256, .getMctpVersionSupport 256,
   .getpldmversion 256, .getpldmcommands 256, .getsensorreading 256, .getstatesensorreadings 256, .seteventreceiver 256,
   .setdasa 128 0, .setdasa 0 128, .entdaa 128, .laneCtlTimeout 512, .rcRegisterRead 2 0 0, .rcRegisterRead 0 33554432 0,
   .rcRegisterRead 0 0 4097, .fperstNRelease 16]

theorem test_ill_formed_6 : illFormed6.all (fun c => !c.wellFormed) = true := by decide +kernel

theorem test_well_formed : [Instr.powerGood strap strap ⟨true, true, 15⟩, .registerWrite 1 33554431 (List.replicate 4096 0) true,
    .credit 511 ⟨[0, 0, 0, 0, 0, 0, 0, 65535], 0⟩, .ld noFrame [.corrected 32212254719], .lparam 511 peer, .moduleReset 2,
    .timeSync 0 sync ⟨281474976710655, 999999999, 4294967295⟩, .retxTimer ⟨65535, 65535, 7⟩ 16777215,
    .legEnd .b (some (33, 1))].all (fun c => c.wellFormed) = true := by decide +kernel

/-! ## Resets, supply, start-up and time -/

/-- The module in a state of HS_STATE, everything else as after reset. -/
def inState (st : Nat) : State := State.reset.put HS_STATE.STATE 0 st

def ready : State := inState modReady

/-- The state after a command; the reset state where it stops. -/
def after (c : Instr) (s : State) : State :=
  match exec c s with
  | .next t => t
  | _ => State.reset

/-- A command answers a next state of which a check holds. -/
def leads (c : Instr) (s : State) (ok : State → Bool) : Bool :=
  match exec c s with
  | .next t => ok t
  | _ => false

def img (svn : Nat) : Image := ⟨1, 2, svn, 0, 0, 0, [], 0⟩

theorem witness_resets : ready.modState ≠ modOff ∧ (0x5A01#64).getLsbD 0 = true ∧ (0x5A01#64).extractLsb' 8 8 = 0x5A#8
    ∧ (0x0001#64).extractLsb' 8 8 ≠ 0x5A#8 ∧ (0x5A00#64).getLsbD 0 = false ∧ (1000 : Nat) ≤ 1000 := by decide +kernel

theorem test_module_reset : leads (.moduleReset 2) (ready.put LK_PORT_ERR.UCW 3 7) (fun t => t.modState == modStandby
    && t.get HS_RESET_CAUSE.CAUSE == 2 && t.get LK_PORT_ERR.UCW 3 == 0) = true := by decide +kernel

theorem test_hs_reset_needs_key : leads (.hsReset 0 0x0001#64) ready (fun t => t == ready.viaUp 0) = true
    ∧ leads (.hsReset 0 0x5A01#64) ready (fun t => t.modState == modStandby) = true := by decide +kernel

theorem witness_power_good : (inState modOff).modState = modOff ∧ (inState modOff).pwr.enableLow = true
    ∧ (⟨true, false, 15⟩ : StrapSample).slotId < 16 := by decide +kernel

theorem test_power_good_samples_straps : leads (.powerGood ⟨true, true, 15⟩ ⟨true, true, 15⟩ ⟨true, true, 15⟩) (inState modOff) (fun t =>
      t.get HS_STRAP_STATUS.SLOT_ID == 15 && t.get HS_STATE.HOLD == 1 && t.get HS_STRAP_STATUS.UNSTABLE == 0) = true
    ∧ leads (.powerGood ⟨true, true, 15⟩ ⟨false, true, 15⟩ ⟨true, true, 15⟩) (inState modOff) (fun t =>
      t.get HS_STRAP_STATUS.START_HOLD == 0 && t.get HS_STRAP_STATUS.UNSTABLE == 1 && t.get HS_STRAP_STATUS.BIST_EN == 1) = true := by
  decide +kernel

theorem test_enable_n_high_is_power_fail : leads (.enableN true 0) ready (fun t => t.modState == modOff && t.pwr.faultLow) = true := by
  decide +kernel

/-- STANDBY with two images in the boot flash. -/
def standby2 : State := { inState modStandby with ps := { Purser.reset with slotA := some (img 3), slotB := some (img 4) } }

/-- STANDBY with an image running and the reference locked: the hub may be released. -/
def releasable : State :=
  ({ inState modStandby with ps := { Purser.reset with running := some (img 3) } }.put CK_CLK_STATUS.REF_OK 0 1).put CK_CLK_STATUS.PLL_LOCK 0 1

def initAt (step : Nat) : State := { inState modInit with pwr := { Power.reset with startStep := step } }

theorem witness_boot : standby2.modState = modStandby ∧ standby2.ps.running = none ∧ standby2.pwr.resetHeld = false
    ∧ standby2.get PS_BOOT_CFG.PREFER_B < 2 ∧ standby2.ps.slot (standby2.get PS_BOOT_CFG.PREFER_B) = some (img 3)
    ∧ standby2.ps.slot (1 - standby2.get PS_BOOT_CFG.PREFER_B) = some (img 4)
    ∧ (inState modStandby).ps.slotA = none ∧ (inState modStandby).ps.slotB = none := by decide +kernel

theorem test_boot_without_image_fails : leads .bootRom (inState modStandby) (fun t => t.modState == modFailed && t.pwr.faultLow) = true := by
  decide +kernel

theorem witness_start_up : releasable.mayRelease = true ∧ releasable.te = .reset ∧ releasable.ty = .reset
    ∧ (initAt 0).modState = modInit ∧ (initAt 0).pwr.startStep = 0 ∧ (initAt 2).pwr.startStep = 2 ∧ (initAt 3).pwr.startStep = 3
    ∧ (initAt 4).pwr.startStep = 4 ∧ (639 : Nat) < 640 ∧ 67 < 68 ∧ 32 ≤ 67 % 34 := by decide +kernel

theorem test_hub_release : leads .hubRelease releasable (fun t => t.modState == modInit && t.tb.running && t.tb.sec == 0) = true := by
  decide +kernel

theorem test_start_steps : leads (.stackTrainingDone [639]) (initAt 0) (fun t => t.get PM_CHAN_STATUS.STATE 639 == 2 && t.modState == modInit)
      = true
    ∧ leads (.deckSelfTest [67]) (initAt 3) (fun t => t.get DK_COL_STATUS.STATE 67 == 2 && t.pwr.startStep == 4) = true
    ∧ leads (.selfTestDone true) (initAt 4) (fun t => t.modState == modReady && t.get HS_STATE.BIST_RAN == 0) = true := by decide +kernel

theorem witness_monitors : ready.hubUp = true ∧ ready.pwr.railsOn = true ∧ (3001 : Int).natAbs > 3000 ∧ (3000 : Int).natAbs ≤ 3000
    ∧ ready.hs.queue.length < 1024 ∧ ready.modState ≠ modOff ∧ ready.railWatched .v12 = true ∧ Rail.v12 ∉ ready.pwr.railsBad
    ∧ (Rail.v12 ∈ ({ ready with pwr := { Power.reset with railsBad := [.v12] } } : State).pwr.railsBad) ∧ ready.pwr.overSample = false
    ∧ (inState modStandby).modState = modStandby := by decide +kernel

theorem test_fatal_errors : leads (.fatalError (.metadataLost 19)) ready (fun t => t.modState == modFailed && t.get HS_STATE.CAUSE == 2
      && t.pwr.faultLow) = true
    ∧ leads (.clockLoss 3) ready (fun t => t.modState == modFailed) = true
    ∧ leads (.refclkCheck true 3001) ready (fun t => t.modState == modFailed) = true
    ∧ leads (.refclkCheck true 3000) ready (fun t => t.modState == modReady) = true := by decide +kernel

theorem test_input_voltage_bounds : leads (.inputVoltageChange 400 0) ready (fun t => t.get HS_PWR_STATUS.LOW_VIN == 0) = true
    ∧ leads (.inputVoltageChange 399 0) ready (fun t => t.get HS_PWR_STATUS.LOW_VIN == 1 && t.get HS_PWR_STATUS.LEVEL == 7) = true
    ∧ leads (.inputVoltageChange 380 100) ready (fun t => t.modState == modReady) = true
    ∧ leads (.inputVoltageChange 379 100) ready (fun t => t.modState == modOff) = true
    ∧ leads (.inputVoltageChange 720 10) ready (fun t => t.modState == modReady && t.get HS_PWR_STATUS.HIGH_VIN == 1) = true
    ∧ leads (.inputVoltageChange 721 10) ready (fun t => t.modState == modOff) = true := by decide +kernel

theorem test_power_sample_bounds : leads (.powerSample 1450 360) ready (fun t => t.get HS_PWR_STATUS.LEVEL == 0 && t.pwr.sumWatts == 1450) = true
    ∧ leads (.powerSample 1451 360) ready (fun t => t.get HS_PWR_STATUS.LEVEL == 7 && t.pwr.decksHalted) = true := by decide +kernel

theorem test_rail_check_twice : leads (.railCheck [.vhub]) ready (fun t => t.modState == modReady && t.pwr.railsBad == [.vhub]) = true
    ∧ leads (.railCheck [.vhub]) (after (.railCheck [.vhub]) ready) (fun t => t.modState == modOff) = true := by decide +kernel

def hot (temps : List Nat) (cool : Nat) : State := { ready with pwr := { Power.reset with dieTemps := temps, coolMs := cool } }

theorem witness_thermal : (hot [539, 540] 0).pwr.dieTemps.any (540 ≤ ·) = true ∧ (hot [528] 9).pwr.dieTemps.all (· ≤ 528) = true
    ∧ (hot [528] 9).pwr.dieTemps.any (540 ≤ ·) = false ∧ (hot [529] 0).pwr.dieTemps.all (· ≤ 528) = false
    ∧ (hot [529] 0).pwr.dieTemps.any (540 ≤ ·) = false ∧ (hot [528] 8).pwr.coolMs < 9 ∧ ready.pwr.tripping = [] := by decide +kernel

theorem test_thermal_level : leads .thermalLevelUpdate (hot [540] 5) (fun t => t.get HS_PWR_STATUS.THERM_LEVEL == 1) = true
    ∧ leads .thermalLevelUpdate ((hot [528] 9).put HS_PWR_STATUS.THERM_LEVEL 0 7) (fun t => t.get HS_PWR_STATUS.THERM_LEVEL == 6) = true
    ∧ leads .thermalLevelUpdate ((hot [528] 8).put HS_PWR_STATUS.THERM_LEVEL 0 7) (fun t => t.get HS_PWR_STATUS.THERM_LEVEL == 7) = true := by
  decide +kernel

theorem test_thermal_sample : leads (.thermalSample [400, 1100]) ready (fun t => t.get HS_THERM_STATUS.TEMP 0 == 400
    && t.get HS_THERM_STATUS.TEMP 1 == 1023 && t.get HS_THERM_STATUS.FAILED 1 == 1 && t.pwr.dieTemps.length == 27) = true := by decide +kernel

/-- Partition 1 in a state. -/
def withPart (st : Nat) (s : State) : State := s.put PT_PART_STATE.STATE 1 st

/-- A running time base at a point, with PPS as its source. -/
def timed (sec ns : Nat) (last : Option TimeStamp) : State :=
  { ready.put CK_TIME_CFG.SRC 0 1 with tb := { TimeBase.reset with running := true, sec := sec, ns := ns, lastPps := last } }

theorem witness_time_base : (timed 5 0 none).pending = [] ∧ ready.tb.running = false ∧ (timed 5 999999999 none).tb.running = true
    ∧ (timed 5 999999999 none).tb.ns < 1000000000 ∧ (timed 5 0 none).tb.frac < 4294967296 ∧ (timed 5 0 none).tb.sec < 281474976710656
    ∧ tideOf ⟨5, 0, 0⟩ ≤ tideOf (timed 5 999 none).now ∧ (timed 5 0 none).get CK_TIME_CFG.SRC = 1
    ∧ (timed 5 999998998 none).tb.lastPps = none ∧ (timed 5 999998998 none).tb.secNextNew = false ∧ (timed 5 999998998 none).tb.ns < 999998999
    ∧ ready.get CK_TIME_CFG.SRC ≠ 1 ∧ (timed 6 10001 (some ⟨5, 0, 0⟩)).tb.lastPps = some ⟨5, 0, 0⟩
    ∧ (timeUnits (timed 6 10001 (some ⟨5, 0, 0⟩)).now : Int) - timeUnits ⟨5, 0, 0⟩ > 1000010000 * 4294967296 := by decide +kernel

/-- Partition 1 LIVE, with 999.99 ns of a microsecond gone and work of it charged or not. -/
def endsUs (active : List Nat) (cause : Nat) : State :=
  { ((withPart (if cause = 0 then partLive else partContained) (timed 5 999 none)).put HS_PART_STATE.CONTAINED 1 (min 1 cause)).put
      HS_PART_STATE.CAUSE 1 cause with
    tb := { (timed 5 999 none).tb with frac := 4294967295 }, pt := { Fares.reset with active := active } }

theorem witness_microseconds : (endsUs [1] 0).partState 1 ≠ partFree ∧ (endsUs [1] 0).timeKind 1 = .progress
    ∧ (endsUs [] 0x50).partState 1 ≠ partFree ∧ (endsUs [] 0x50).timeKind 1 = .deviceStall ∧ (endsUs [] 0).timeKind 1 = .idle
    ∧ 5 * 1000000 + (999 : Nat) / 1000 ≠ 5 * 1000000 + 1000 / 1000 ∧ (endsUs [] 0).pending = [] ∧ (endsUs [] 0).tb.running = true
    ∧ (endsUs [] 0).tm.times = [] ∧ (timed 3 0 (some ⟨0, 0, 0⟩)).tb.lastPps = some ⟨0, 0, 0⟩
    ∧ 3000000000 * 4294967296 ≤ (timeUnits (timed 3 0 (some ⟨0, 0, 0⟩)).now : Int) - timeUnits ⟨0, 0, 0⟩
    ∧ (timeUnits (timed 2 999999999 (some ⟨0, 0, 0⟩)).now : Int) - timeUnits ⟨0, 0, 0⟩ < 3000000000 * 4294967296 := by decide +kernel

/-- What the step on an empty queue answers satisfies a check. -/
def ticks (s : State) (ok : State → Bool) : Bool :=
  match step s with
  | .next t => ok t
  | _ => false

theorem test_microsecond_counts : ticks (endsUs [1] 0) (fun t => t.tb.ns == 1000 && t.get HS_PART_AVAIL.PROGRESS_US 1 == 1
      && t.get HS_PART_AVAIL.STALL_US 1 == 0 && t.pt.active == []) = true
    ∧ ticks (endsUs [] 0x50) (fun t => t.get HS_PART_AVAIL.STALL_US 1 == 1 && t.get HS_PART_AVAIL.PROGRESS_US 1 == 0) = true
    ∧ ticks (timed 5 999 none) (fun t => t == { timed 5 999 none with tb := t.tb } && t.tb.hclk == 1) = true := by decide +kernel

theorem test_time_set : leads (.ckTimeSet 0 7#64) (timed 5 3 none) (fun t => t.tb.sec == 7 && t.tb.ns == 0
    && t.get CK_TIME_STATUS.STEPS == 1) = true := by decide +kernel

theorem test_pps : leads (.ppsEdge 50 50) (timed 5 3 none) (fun t => t.tb.sec == 6 && t.tb.ns == 0) = true
    ∧ leads (.ppsEdge 50 50) (timed 6 10001 (some ⟨5, 0, 0⟩)) (fun t => t.tb.sec == 6 && t.tb.ns == 10001
        && t.get CK_TIME_STATUS.PPS_REJECT == 1) = true
    ∧ leads (.ppsEdge 50 50) (timed 6 10000 (some ⟨5, 0, 0⟩)) (fun t => t.tb.ns == 0) = true := by decide +kernel

/-- A follower of the time frames of port 7. -/
def follower : State :=
  ((ready.put CK_TIME_CFG.SRC 0 2).put CK_TIME_CFG.SRC_PORT 0 7).put LK_PORT_STATUS.STATE 7 portUpState

def reqSent : State :=
  { follower with tb := { TimeBase.reset with sec := 9, syncTimes := some (⟨5, 0, 0⟩, ⟨5, 2000, 0⟩), delayReq := some (3, ⟨5, 3000, 0⟩) } }

theorem witness_time_frames : follower.hubUp = true ∧ follower.follows 7 = true ∧ follower.follows 511 = false
    ∧ follower.follows (follower.get CK_TIME_CFG.SRC_PORT) = true ∧ (ready.put CK_TIME_CFG.SYNC_OUT 0 1).flag CK_TIME_CFG.SYNC_OUT = true
    ∧ follower.portUp 7 = true ∧ follower.tb.linkDelay = none ∧ reqSent.follows 7 = true ∧ reqSent.tb.delayReq = some (3, ⟨5, 3000, 0⟩)
    ∧ reqSent.tb.syncTimes = some (⟨5, 0, 0⟩, ⟨5, 2000, 0⟩) := by decide +kernel

theorem witness_time_gates : (∀ q, q < 512 → (ready.put CK_TIME_CFG.SYNC_OUT 0 1).timeGate q = true) ∧ follower.tm.times = []
    ∧ follower.timeGate 7 = true ∧ follower.timeGate (follower.get CK_TIME_CFG.SRC_PORT) = true
    ∧ (ready.put CK_TIME_CFG.SYNC_OUT 0 1).tm.times = [] ∧ (⟨0, 0, zeroTime, 1⟩ : TimePayload).rsv ≠ 0 := by decide +kernel

theorem test_sync_send : leads .syncSend (((ready.put CK_TIME_CFG.SYNC_OUT 0 1).put LK_PORT_STATUS.STATE 511 portUpState).put
    LK_PORT_CFG.ROLE 511 2) (fun t => t.out == [.link 511 0x64 [0, 0, 0, 0, 0]]) = true := by decide +kernel

theorem test_delay_exchange : leads (.delayReq 7 ⟨1, 9, zeroTime, 0⟩ ⟨4, 5, 6⟩) follower (fun t => t.out == [.link 7 0x64 [2, 9, 4, 5, 6]]) = true
    ∧ leads .delayReqSend follower (fun t => t.out == [.link 7 0x64 [1, 0, 0, 0, 0]] && t.tb.delaySeq == 1) = true
    ∧ leads (.timeSync 7 sync ⟨1, 2, 3⟩) follower (fun t => t.tb.syncTimes == some (zeroTime, ⟨1, 2, 3⟩)) = true := by decide +kernel

/-- t1 = 5 s, t2 = 2,000 ns later, t3 = 3,000 ns, t4 = 2,998 ns: the follower leads by 1,001 ns, which is a step. -/
theorem test_offset_of_r412 : leads (.delayRsp 7 ⟨2, 3, ⟨5, 2998, 0⟩, 0⟩) reqSent (fun t => t.tb.sec == 8 && t.tb.ns == 999998999
    && t.tb.delayReq == none) = true := by decide +kernel

/-! ## Fares, health and the purser -/

def fared : State :=
  { (withPart partLive ready).put PT_CFG.FARE_EN 0 1 with pt := { Fares.reset with balance := [(64, 10), (72, 5)], lending := [1] } }

theorem witness_fares : ready.te = .reset ∧ ready.ty = .reset ∧ fared.partState 1 ≠ partFree
    ∧ ((List.range 7).map fun k => fared.get PT_GROUP_SHARE.SHARE (8 * 1 + k + 1)).sum ≤ 64 ∧ fared.covers 1 0 .nearA 10 = true
    ∧ fared.covers 1 0 .nearA 11 = fared.lend 1 ∧ fared.faresBind = true ∧ (ready.put PT_CFG.FARE_EN 0 0).faresBind = false
    ∧ (ready.put PT_CFG.FARE_EN 0 0).covers 1 7 .flash 99 = true
    := by decide +kernel

theorem test_tide_edge : leads .tideEdge (fared.put PT_CFG.TIDE_SEQ 0 4294967295) (fun t => t.get PT_CFG.TIDE_SEQ == 0
    && ((List.range 8).map fun g => t.balance 1 g .nearA).sum == t.fare 1 .nearA) = true := by decide +kernel

theorem test_charge : (fared.charge 1 0 .nearA 7).balance 1 0 .nearA = 3 ∧ (fared.charge 1 0 .nearA 7).usedNow 1 .nearA = 7 := by
  decide +kernel

def cmdOf (cid opc : Nat) (st : Stage) : Cmd := { newCmd cid 0 1 5 opc 0 0 with stage := st }

/-- Partition 1 LIVE, context 0 its own, and one command in flight. -/
def withCmd (c : Cmd) : State :=
  { (withPart partLive ready).put CF_CTX_CTRL.PART 0 1 with fe := { FrontEnd.reset with cmds := [c] } }

theorem witness_contain : (withPart partLive ready).live 1 = true ∧ (withPart partLive ready).hs.queue.length < 1024
    ∧ (withPart partLive ready).fe.cmds.all (·.part != 1) = true ∧ (withCmd (cmdOf 0 ocNop .waiting)).te.held = []
    ∧ (cmdOf 0 ocNop .waiting).part = 1 ∧ (cmdOf 0 ocCross .running).stage = .running ∧ ocCross ≠ ocReduce := by decide +kernel

theorem test_contain : leads (.contain 1 (.stateUE 7)) (withPart partLive ready) (fun t => t.partState 1 == partContained
      && t.get HS_PART_STATE.CAUSE 1 == 0x50 && t.hs.queue.map (·.sev) == [2]) = true
    ∧ leads (.contain 1 .request) (withCmd (cmdOf 0 ocNop .waiting)) (fun t => t.fe.cmds == [{ cmdOf 0 ocNop .finished with
        causes := [(stContained, 0)] }]) = true
    ∧ leads (.contain 1 .request) (withCmd (cmdOf 0 ocCopy .running)) (fun t => t.fe.cmds == [{ cmdOf 0 ocCopy .running with
        causes := [(stContained, 0)], stop := some (stContained, 0) }]) = true := by decide +kernel

/-- The log ring enabled with 2^8 entries, some unread, one entry waiting. -/
def logging (unread tail : Nat) (q : List LogEntry) : State :=
  { ((ready.put HS_LOG_CTRL.ENABLE 0 1).put HS_LOG_CTRL.LOG2 0 8).put HS_LOG_STATUS.TAIL 0 tail with
    hs := { Health.reset with queue := q, unread := unread }, mg := { Mgmt.reset with up0 := true } }


def entry0 : LogEntry := ⟨0, 0, 0, 0, none, 0, 0, 0, 0, 0, 0, 0, 0, 0⟩

theorem witness_log_ring : ready.flag HS_LOG_CTRL.ENABLE = false ∧ (logging 0 0 []).flag HS_LOG_CTRL.ENABLE = true
    ∧ (logging 255 255 [entry0]).hs.queue = [entry0] ∧ (logging 255 255 [entry0]).mg.up0 = true
    ∧ (logging 255 255 [entry0]).flag HS_LOG_CTRL.MSI_EN = false ∧ (logging 255 255 [entry0]).hs.unread < (logging 255 255 [entry0]).logSize
    ∧ (logging 0 0 []).hs.queue = [] ∧ (logging 0 0 []).hs.extra = [] ∧ 255 < (logging 4 4 []).logSize
    ∧ (logging 4 4 []).get HS_LOG_CTRL.HEAD < (logging 4 4 []).logSize ∧ (logging 4 4 []).hs.unread < (5 + 256 - 0) % 256
    ∧ 0 < (4 + 256 - 0) % 256 ∧ (4 + 256 - 0) % 256 ≤ (logging 4 4 []).hs.unread ∧ (0 + 256 - 0) % 256 = 0 := by decide +kernel

theorem test_log_ring : leads (.logEnable 0) ready (fun t => t.out == [.fmZero 0 0 65536] && t.get HS_LOG_CTRL.ENABLE == 1) = true
    ∧ leads .logEntryWrite (logging 255 255 [entry0]) (fun t => t.get HS_LOG_STATUS.TAIL == 0 && t.get HS_LOG_STATUS.FULL == 1
        && t.hs.unread == 256 && t.hs.queue == [] && t.out.length == 2) = true
    ∧ leads .logEntryWrite (logging 256 0 [entry0]) (fun t => t.hs.queue == [entry0]) = true
    ∧ leads (.logHeadWrite 0 4) (logging 4 4 []) (fun t => t.get HS_LOG_CTRL.HEAD == 4 && t.hs.unread == 0) = true
    ∧ leads (.logHeadWrite 0 5) (logging 4 4 []) (fun t => t.get HS_LOG_CTRL.HEAD == 0 && t.get HS_LOG_CTRL.REFUSED == 1) = true := by
  decide +kernel

def purserRuns : State := { ready with ps := { Purser.reset with running := some (img 9), svnCount := 4 } }

theorem witness_images : ready.modState ≠ modOff ∧ purserRuns.ps.running = some (img 9) ∧ purserRuns.flag PS_UPD_CMD.BUSY = false
    ∧ (purserRuns.put PS_UPD_CMD.BUSY 0 1).flag PS_UPD_CMD.BUSY = true ∧ purserRuns.get PS_ID.SLOT ≤ 1
    ∧ purserRuns.ps.debug = .locked ∧ purserRuns.ps.unlocking = false ∧ purserRuns.partitions = [0]
    ∧ ({ ready with ps := { Purser.reset with debug := .disabled } } : State).ps.debug ≠ .locked
    ∧ ({ ready with ps := { Purser.reset with unlocking := true } } : State).ps.unlocking = true := by decide +kernel

theorem test_images : leads (.commitSvn 0) purserRuns (fun t => t.ps.svnCount == 9) = true
    ∧ leads (.imageUpdateDone none true) (purserRuns.put PS_UPD_CMD.BUSY 0 1) (fun t => t.get PS_UPD_CMD.RESULT == 8) = true
    ∧ leads (.imageUpdate 1) purserRuns (fun t => t.get PS_UPD_CMD.BUSY == 1) = true := by decide +kernel

def unlocking : State :=
  { ready with ps := { Purser.reset with unlocking := true }, pm := { Pool.reset with near := ⟨[(5, 1)], []⟩ } }

theorem test_unlock_ends : leads .unlockZeroFillDone unlocking (fun t => t.ps.debug == .unlocked && t.pm.near.cells == []) = true := by
  decide +kernel

theorem witness_partitions : (withPart partLive ready).flag PT_PART_CMD.BUSY = false ∧ ready.partState 1 = partFree
    ∧ (ready.put PT_PART_CMD.BUSY 0 1).flag PT_PART_CMD.BUSY = true ∧ (withPart partTeardown ready).partState 1 = partTeardown
    ∧ ready.partState 63 = partFree ∧ (withPart partContained ready).partState 1 = partContained
    ∧ (withPart partLive ready).endpointPorts 1 = [] ∧ (withPart partLive ready).ctxsOf 1 = [] ∧ (withPart partLive ready).groupsOf 1 = []
    ∧ (withPart partLive ready).slotsOf 1 = [] ∧ (withPart partLive ready).te.held = [] ∧ (withPart partLive ready).ho = .reset
    ∧ (withPart partTeardown ready).drainedPart 1 = true ∧ (withPart partTeardown ready).ps.unlocking = false := by decide +kernel

theorem test_create_destroy : leads (.create 0 63) ready (fun t => t.partState 63 == partLive && t.get PT_PART_STATE.CREATE_SEQ 63 == 1
      && t.get PS_LOCK_STATUS.FARE_LOCKED == 1 && t.partState 1 == partFree) = true
    ∧ leads (.create 0 1) (withPart partLive ready) (fun t => t.get PT_PART_CMD.RESULT == 1) = true
    ∧ leads (.create 0 0) ready (fun t => t.get PT_PART_CMD.RESULT == 2) = true
    ∧ leads (.destroy 0 1) (withPart partContained ready) (fun t => t.partState 1 == partTeardown && t.get PT_PART_CMD.BUSY == 1) = true
    ∧ leads (.destroy 0 1) (ready.put PT_PART_CMD.BUSY 0 1) (fun t => t.get PT_PART_CMD.RESULT == 3) = true := by decide +kernel

theorem test_teardown_ends : leads (.teardownContinue 1) ((withPart partTeardown ready).put PT_PART_CMD.BUSY 0 1) (fun t =>
    t.partState 1 == partFree && t.get PT_PART_CMD.BUSY == 0) = true := by decide +kernel

/-- A DECK_A berth of partition 1 in slot 3, in a state. -/
def slotOf (st : SlotState) (kind : Nat) : Slot := { Slot.reset with state := st, kind := kind, physA := 2, physB := 3, lhalf := 0 }

def berthed (st : SlotState) (kind : Nat) : State := (withPart partLive ready).setSlot 1 3 (slotOf st kind)

def sealing (busy : Bool) (off len : Nat) : State :=
  let s := berthed .moored kindDeckA
  { s with ps := { s.ps with seals := [(0, { Seal.reset with part := 1, handle := 3, offset := off, length := len, busy := busy })] } }

theorem witness_seals : (sealing false 16383 1).get PS_DIGEST_SEL.ENTRY = 0 ∧ ((sealing false 16383 1).sealEntry 0).busy = false
    ∧ ((sealing false 16383 1).sealEntry 0).length ≠ 0 ∧ ((sealing false 16383 1).sealEntry 0).offset + ((sealing false 16383 1).sealEntry 0).length ≤ 16384
    ∧ ((sealing false 16383 1).slot 1 3).state ≠ .draining ∧ (sealing false 16383 1).heldSlot 1 3 = some (slotOf .moored kindDeckA)
    ∧ (sealing false 16383 1).sealOverlaps ((sealing false 16383 1).sealEntry 0) = false ∧ ready.heldSlot 1 3 = none
    ∧ ((sealing true 16383 1).sealEntry 0).busy = true
    ∧ (((sealing false 0 2).setSeal 1 { Seal.reset with part := 1, handle := 3, offset := 1, length := 1, live := true }).sealOverlaps
        ((sealing false 0 2).sealEntry 0)) = true := by decide +kernel

theorem test_seal : leads (.sealData 0) (sealing false 16383 1) (fun t => (t.sealEntry 0).busy) = true
    ∧ leads (.unsealData 0) (sealing false 0 1) (fun t => !(t.sealEntry 0).live) = true := by decide +kernel

theorem witness_management : purserRuns.purserUp = true ∧ (0 : Nat) < 254 ∧ 254 < 255 ∧ (1 : Nat) ≠ 0
    ∧ purserRuns.measurement 6 = none ∧ purserRuns.measurement 15 = none ∧ purserRuns.mg.i3cAddr = 0
    ∧ ({ purserRuns with mg := { Mgmt.reset with i3cAddr := 9 } } : State).mg.i3cAddr ≠ 0 ∧ (inState modStandby).modState = modStandby
    ∧ ready.modState ≠ modStandby ∧ ready.modState ≠ modFailed ∧ ready.ps.debug ≠ .unlocked
    ∧ ({ ready with ps := { Purser.reset with debug := .unlocked } } : State).ps.debug = .unlocked := by decide +kernel

theorem test_management : leads .getVersion purserRuns (fun t => t.out == [.spdm "VERSION" [1, 3] [] none]) = true
    ∧ leads (.setEndpointId 254) purserRuns (fun t => t.mg.eid == 254) = true
    ∧ leads (.getsensorreading 1) (purserRuns.put HS_PWR_STATUS.VIN_DV 0 480) (fun t => t.out == [.mctp "GetSensorReading" [0, 480]]) = true
    ∧ leads (.setdasa 48 7) purserRuns (fun t => t.mg.i3cAddr == 7) = true := by decide +kernel

theorem test_jtag : leads (.jtagInstruction .extest) ready (fun t => t.out == [.jtag 1 0]) = true
    ∧ leads (.jtagInstruction (.dieInternal 4)) ready (fun t => t.mg.jtag == .bypass) = true
    ∧ leads (.jtagInstruction .highz) (inState modFailed) (fun t => t.mg.jtag == .highz) = true := by decide +kernel

/-! ## The command front end -/

/-- The body of a descriptor: the named 64-bit words of its 512 bits. -/
def desc (words : List (Nat × Nat)) : Desc := BitVec.ofNat 512 ((words.map fun w => w.2 * 2 ^ (8 * w.1)).sum)

/-- The module has the endpoint ID 9 and rank 2 of partition 1 the ID 77; context 5 is that rank's, in a state, with rings of 16. -/
def ctxAt (st : Nat) : State :=
  let s := (withPart partLive ready).put LP_CFG.MOD_ID 0 9
  let s := ((s.put CF_CTX_CTRL.PART 5 1).put CF_CTX_CTRL.OWNER_RANK 5 2).put CF_CTX_STATE.STATE 5 st
  let s := ((s.put CF_CTX_SQ.LOG2 5 4).put CF_CTX_CQ.LOG2 5 4).put CF_CTX_SQ.BASE 5 4096
  { s.put CF_PART_QUOTA.SLOT_QUOTA 1 64 with lp := { Landing.reset with maps := [(mapKey 1 slotCurrent 2, 77)] } }

theorem witness_context_enable : (ctxAt ctxDisabled).hubUp = true ∧ (ctxAt ctxDisabled).ctxState 5 = ctxDisabled
    ∧ (ctxAt ctxDisabled).flag CF_CTX_CTRL.ENABLE 5 = false ∧ (ctxAt ctxDisabled).get CF_CTX_SQ.BASE 5 % 4096 = 0
    ∧ (ctxAt ctxDisabled).get CF_CTX_SQ.LOG2 5 = 4 ∧ (ctxAt ctxDisabled).rankId 1 2 ≠ 0
    ∧ (ctxAt ctxDisabled).get CF_PART_QUOTA.SLOT_QUOTA ((ctxAt ctxDisabled).ctxPart 5) ≠ 0
    ∧ validId (ctxAt ctxDisabled).modId = true ∧ (ctxAt ctxDisabled).unackedCount < 65536 ∧ (ctxAt ctxDisabled).lk.waiting = []
    ∧ ((ctxAt ctxDisabled).put CF_CTX_CTRL.ENABLE 5 1).flag CF_CTX_CTRL.ENABLE 5 = true
    ∧ ((ctxAt ctxDisabled).put CF_CTX_CTRL.ENABLE 5 1).ownerUnacked (.record 5) = false
    ∧ (after (.contextEnable 5) (ctxAt ctxDisabled)).ownerUnacked (.record 5) = true := by decide +kernel

theorem test_context_enable : leads (.contextEnable 5) (ctxAt ctxDisabled) (fun t => t.flag CF_CTX_CTRL.ENABLE 5
      && t.ctxState 5 == ctxDisabled) = true
    ∧ leads (.contextEnable 5) ((ctxAt ctxDisabled).put CF_CTX_CTRL.ENABLE 5 1) (fun t => t.ctxState 5 == ctxEnabled) = true
    ∧ leads (.contextEnable 5) ((ctxAt ctxDisabled).put CF_CTX_CQ.BASE 5 64) (fun t => t.get CF_CTX_STATE.ERR_CAUSE 5 == 1) = true
    ∧ leads (.contextEnable 5) ((ctxAt ctxDisabled).put CF_CTX_CQ.LOG2 5 17) (fun t => t.get CF_CTX_STATE.ERR_CAUSE 5 == 2) = true
    ∧ leads (.contextEnable 5) ((ctxAt ctxDisabled).put CF_CTX_CTRL.OWNER_RANK 5 3) (fun t => t.get CF_CTX_STATE.ERR_CAUSE 5 == 3) = true
    ∧ leads (.contextEnable 5) ((ctxAt ctxDisabled).put CF_PART_QUOTA.SLOT_QUOTA 1 0) (fun t => t.get CF_CTX_STATE.ERR_CAUSE 5 == 4) = true
    := by decide +kernel

theorem witness_context_states : (ctxAt ctxEnabled).ho = .reset ∧ (ctxAt ctxEnabled).ctxState 5 = ctxEnabled
    ∧ (ctxAt ctxPaused).ctxState 5 = ctxPaused ∧ (ctxAt ctxError).ctxState 5 = ctxError ∧ (ctxAt ctxDraining).ctxState 5 = ctxDraining
    ∧ (ctxAt ctxEnabled).ctxCmds 5 = [] ∧ (ctxAt ctxDraining).inflight 5 = 0
    ∧ ((ctxAt ctxDraining).setCtx 5 { Ctx.reset with reserved := 1 }).inflight 5 ≠ 0 := by decide +kernel

theorem witness_context_parts : (ctxAt ctxEnabled).co.seqs = [] ∧ (ctxAt ctxPaused).ctxCmds 5 = [] ∧ (ctxAt ctxError).ho = .reset
    ∧ (ctxAt ctxDraining).hubUp = true := by decide +kernel

theorem test_context_states : leads (.contextDisable 5) (ctxAt ctxEnabled) (fun t => t.ctxState 5 == ctxDraining) = true
    ∧ leads (.contextDisable 5) (ctxAt ctxError) (fun t => t.ctxState 5 == ctxDisabled) = true
    ∧ leads (.contextPause 5) (ctxAt ctxEnabled) (fun t => t.ctxState 5 == ctxPaused) = true
    ∧ leads (.contextResume 5) (ctxAt ctxPaused) (fun t => t.ctxState 5 == ctxEnabled) = true
    ∧ leads (.contextDrainComplete 5) (ctxAt ctxDraining) (fun t => t.ctxState 5 == ctxDisabled) = true := by decide +kernel

/-- A doorbell of endpoint 77 to context 5: a value at an offset of its slot. -/
def doorbell (off value : Nat) : Frame :=
  { noFrame with opc := 0x12, part := 1, epoch := 1, src := 77, tag := 4, attr := 0x1E0, addr := BitVec.ofNat 52 (2 ^ 50 + 5 * 64 + off),
                 data := List.replicate off 0 ++ leBytes 8 value ++ List.replicate (56 - off) 0 }

theorem witness_doorbells : Safety.canSend (ctxAt ctxEnabled) ∧ apertureOk (doorbell 0 3) = true ∧ inAperture (doorbell 0 3) = true
    ∧ slotOffset6 (doorbell 0 3) = 0 ∧ slotContext (doorbell 0 3) = 5 ∧ (ctxAt ctxEnabled).doorbellOwner (doorbell 0 3) = true
    ∧ (ctxAt ctxEnabled).partState ((ctxAt ctxEnabled).ctxPart 5) ≠ partTeardown
    ∧ (ctxAt ctxEnabled).doorbellReason (doorbell 0 15) 16 = 0 ∧ (15 + 16 - 0) % 16 = 16 - 1
    ∧ (ctxAt ctxEnabled).doorbellOwner ({ doorbell 0 3 with src := 78 }) = false ∧ (ctxAt ctxEnabled).ctxPart 5 < 64
    ∧ slotOffset6 (doorbell 8 1) = 8 ∧ (ctxAt ctxEnabled).doorbellReason (doorbell 8 1) ((ctxAt ctxEnabled).cqSize 5) = 0
    ∧ ((ctxAt ctxEnabled).ctx 5).unconsumed < (1 + 16 - 0) % 16 := by
  refine ⟨⟨?_, ?_, ?_⟩, ?_⟩ <;> decide +kernel

theorem witness_doorbell_repeats : (ctxAt ctxEnabled).doorbellReason (doorbell 0 0) 16 = 0
    ∧ doorbellValue (doorbell 0 0) % 65536 = (ctxAt ctxEnabled).get CF_CTX_IDX.SQ_TAIL 5
    ∧ ((ctxAt ctxEnabled).put CF_CTX_IDX.SQ_TAIL 5 15).doorbellReason (doorbell 0 15) 16 = 0
    ∧ doorbellValue (doorbell 0 15) % 65536 ≠ (ctxAt ctxEnabled).get CF_CTX_IDX.SQ_TAIL 5
    ∧ ((0 : Nat) + 16 - 0) % 16 ≤ (15 + 16 - 0) % 16 := by decide +kernel

/-- A repeat of the tail of a full ring is answered OK, not RING_FULL (R39). -/
theorem test_doorbell_repeats : leads (.db (doorbell 0 15)) ((ctxAt ctxEnabled).put CF_CTX_IDX.SQ_TAIL 5 15) (fun t =>
    (Safety.lastSent t 77 vcRsp).any fun r => r.data.head? == some (BitVec.ofNat 8 stOk)) = true := by decide +kernel

theorem test_doorbells : leads (.db (doorbell 0 3)) (ctxAt ctxEnabled) (fun t => t.get CF_CTX_IDX.SQ_TAIL 5 == 3
      && (Safety.lastSent t 77 vcRsp).any fun r => r.opc == 0x22 && r.tag == 4 && r.data.head? == some (BitVec.ofNat 8 stOk)) = true
    ∧ leads (.db (doorbell 0 15)) (ctxAt ctxEnabled) (fun t => (Safety.lastSent t 77 vcRsp).any fun r =>
        r.data.head? == some (BitVec.ofNat 8 stRingFull)) = true
    ∧ leads (.db { doorbell 0 3 with src := 78 }) (ctxAt ctxEnabled) (fun t => t.get CF_CTX_IDX.SQ_TAIL 5 == 0
        && t.get CF_DB_REJECT.NOT_OWNER 1 == 1) = true
    ∧ leads (.completionHeadDoorbell (doorbell 8 1)) (ctxAt ctxEnabled) (fun t => t.get CF_DB_REJECT.DISCARDED 1 == 1) = true
    ∧ leads (.completionHeadDoorbell (doorbell 8 1)) ((ctxAt ctxEnabled).setCtx 5 { Ctx.reset with unconsumed := 2 }) (fun t =>
        (t.ctx 5).unconsumed == 1 && t.get CF_CTX_IDX.CQ_HEAD 5 == 1) = true := by decide +kernel

def reading : State :=
  { ctxAt ctxEnabled with
    fe := { FrontEnd.reset with reads := [⟨3, .descriptors 5 15 1, 1, 64, 0, none⟩], ctxs := [(5, { Ctx.reset with reserved := 1 })] } }

theorem witness_descriptors : (ctxAt ctxEnabled).live ((ctxAt ctxEnabled).ctxPart 5) = true ∧ ((ctxAt ctxEnabled).ctx 5).reserved = 0
    ∧ ((ctxAt ctxEnabled).put CF_CTX_IDX.SQ_TAIL 5 2).fetchable 5 ≠ 0 ∧ (ctxAt ctxEnabled).rankId 1 2 < 65536
    ∧ reading.fe.cmds = [] ∧ reading.pm.slots = [] ∧ reading.ctxState 5 = ctxEnabled ∧ (List.replicate 64 (0#8)).length = 64
    ∧ 0x13 < (0x14#8).toNat := by decide +kernel

/-- Context 6 of partition 1 has two descriptors to fetch too; context 5 was served last. -/
def served5 : State :=
  let s := (((ctxAt ctxEnabled).put CF_CTX_CTRL.PART 6 1).put CF_CTX_CTRL.OWNER_RANK 6 2).put CF_CTX_STATE.STATE 6 ctxEnabled
  let s := ((s.put CF_CTX_SQ.LOG2 6 4).put CF_CTX_IDX.SQ_TAIL 6 2).put CF_CTX_IDX.SQ_TAIL 5 2
  { s with fe := { FrontEnd.reset with turn := [(1, 6)] } }

theorem witness_fetch_turns : served5.fetchTurn 5 = false ∧ served5.fetchTurn 6 = true ∧ served5.fetchable 5 ≠ 0
    ∧ ((ctxAt ctxEnabled).put CF_CTX_IDX.SQ_TAIL 5 2).fetchTurn 5 = true := by decide +kernel

theorem test_fetch_turns : leads (.descriptorFetch 5) served5 (fun t => t == served5) = true
    ∧ leads (.descriptorFetch 6) served5 (fun t => (t.ctx 6).reserved == 2 && t.fe.turn == [(1, 7)]) = true := by decide +kernel

theorem test_fetch : leads (.descriptorFetch 5) ((ctxAt ctxEnabled).put CF_CTX_IDX.SQ_TAIL 5 2) (fun t => (t.ctx 5).reserved == 2
    && (Safety.lastSent t 77 vcReq).any fun f => f.opc == 0x01 && f.addr == 4096 && f.len == 128) = true := by decide +kernel

theorem test_descriptors : leads (.ldData 3 stOk ⟨List.replicate 64 0, []⟩) reading (fun t =>
      t.fe.cmds.map (fun c => (c.opc, c.stage, c.ctx, c.part)) == [(ocNop, .waiting, 5, 1)] && t.get CF_CTX_STATE.SQ_HEAD 5 == 0) = true
    ∧ leads (.ldData 3 stOk ⟨0x14 :: List.replicate 63 0, []⟩) reading (fun t =>
      t.fe.cmds.map (fun c => (c.stage, c.causes)) == [(.finished, [(stBadDesc, 0x10)])]) = true := by decide +kernel

def abortOf (cid : Nat) : Cmd := { newCmd cid 5 1 6 ocAbort (desc [(0, ocAbort), (8, 5)]) 0 with stage := .waiting }

def victim : Cmd := { newCmd 2 5 1 5 ocCopy 0 0 with stage := .waiting }

def holding (l : List Cmd) : State := { ctxAt ctxEnabled with fe := { FrontEnd.reset with cmds := l } }

theorem witness_commands : (holding [victim]).cmd 2 = some victim ∧ victim.depsMet = true ∧ victim.berths = [] ∧ deckOpcode victim.opc = false
    ∧ victim.opc ≠ ocReduce ∧ ((holding [victim]).put PT_CFG.FARE_EN 0 0).zeroFare 1 [.nearA] = false
    ∧ ({ victim with chainRes := some stPoison } : Cmd).chainFailed = true ∧ abortTarget (abortOf 3).desc = victim.tag ∧ victim.tag ≠ noTag
    ∧ ((holding [abortOf 3]).ctx 5).history = [] ∧ (cmdOf 2 ocCopy .running).stage = .running := by decide +kernel

theorem witness_timeouts : victim.place = none ∧ victim.lost = false
    ∧ ((holding [victim]).put PT_CFG.FARE_EN 0 0).zeroFare 1 (((holding [victim]).put PT_CFG.FARE_EN 0 0).neededOf 5 1 victim.desc) = false
    ∧ ({ victim with opc := ocHandoff } : Cmd).stage = .waiting ∧ (cmdOf 2 ocHandoff .atHome).stage = .atHome
    ∧ ocHandoff ≠ ocAcquire ∧ ocHandoff ≠ ocWait ∧ (cmdOf 2 ocAcquire .atHome).opc = ocAcquire := by decide +kernel

theorem test_home_timeouts : leads (.commandTimeout 0) (withCmd (cmdOf 0 ocHandoff .atHome)) (fun t => t.fe.cmds.map (fun c => (c.stage, c.causes))
      == [(.answered, [(stTimeout, 0)])]) = true
    ∧ leads (.commandTimeout 0) (withCmd (cmdOf 0 ocAcquire .atHome)) (fun t => t == withCmd (cmdOf 0 ocAcquire .atHome)) = true
    ∧ leads (.abort 3) (holding [{ victim with opc := ocHandoff }, abortOf 3]) (fun t =>
        t.fe.cmds.map (fun c => (c.stage, c.causes, c.value)) == [(.waiting, [], 0), (.finished, [(stAbortTooLate, 0)], 1)]) = true := by
  decide +kernel

theorem test_dispatch : leads (.commandDispatch 2) ((holding [{ victim with opc := ocFence }]).put PT_CFG.FARE_EN 0 0) (fun t =>
      t.fe.cmds.map (·.stage) == [.atHome]) = true
    ∧ leads (.commandDispatch 2) (holding [{ victim with chainRes := some stPoison }]) (fun t =>
      t.fe.cmds.map (fun c => (c.stage, c.causes)) == [(.finished, [(stAborted, 2)])]) = true := by decide +kernel

theorem test_abort_and_timeout : leads (.abort 3) (holding [victim, abortOf 3]) (fun t =>
      t.fe.cmds.map (fun c => (c.stage, c.causes)) == [(.finished, [(stAborted, 1)]), (.finished, [])]) = true
    ∧ leads (.abort 3) (holding [abortOf 3]) (fun t => t.fe.cmds.map (·.causes) == [[(stAbortTooLate, 0)]]) = true
    ∧ leads (.commandTimeout 2) (holding [{ victim with stage := .running }]) (fun t => t.fe.cmds.map (·.stop) == [some (stTimeout, 0)]) = true
    ∧ leads (.nop 2) (holding [{ victim with opc := ocNop }]) (fun t => t.fe.cmds.map (·.stage) == [.finished]) = true := by decide +kernel

def done : Cmd := { newCmd 2 5 1 5 ocCopy 0 0 with stage := .finished, value := 7, causes := [(stTimeout, 0), (stRevoked, 0)] }

theorem witness_records : (holding [done]).cmd 2 = some done ∧ done.opc ≠ ocReduce ∧ done.notify = false ∧ done.ctx < 4096
    ∧ done.tag < noTag ∧ Safety.quiet (holding [done]) ∧ (holding [done]).ownerUnacked (.cmd 2) = false
    ∧ (holding [done]).ownerUnacked (.record 5) = false ∧ (holding [done]).get CF_CTX_CQ.BASE 5 % 64 = 0
    ∧ (holding [done]).rankId 1 2 ≠ 0 ∧ (holding [done]).rankId 1 2 < 65536 := by
  refine ⟨?_, ?_, ?_, ?_, ?_, ⟨?_, ?_⟩, ?_⟩ <;> decide +kernel

/-- The record of entry 15, the ring's last: status REVOKED before TIMEOUT (R62), the next entry 0. -/
theorem test_record : leads (.recordCommit 2) ((holding [done]).put CF_CTX_STATE.CQ_NEXT 5 15) (fun t => t.fe.cmds == []
    && t.get CF_CTX_STATE.CQ_NEXT 5 == 0 && (t.ctx 5).history == [(5, stRevoked)] && (t.ctx 5).unconsumed == 1
    && (Safety.lastSent t 77 vcBulk).any fun f => f.addr == 480 && (f.data.drop 32).take 1 == [BitVec.ofNat 8 stRevoked]) = true := by
  decide +kernel

theorem test_top_cause : topCause [(stPartial, 1), (stPoison, 2), (stContained, 3), (stContained, 4)] = (stContained, 3) := by decide

/-! ## The coherence home -/

/-- The tally line at the start of the berth in slot 3 of partition 1: physical berth 2 of both halves. -/
def lineNo : Nat := 1048576

/-- Rank 2 of partition 1, which has no share of the directory cache, runs context 5; the line has a kind and first words; commands
stand at the home; fares do not bind. -/
def tallied (kind : LineKind) (words : List Nat) (l : List Cmd) : State :=
  let s := (((ctxAt ctxEnabled).put PT_CFG.FARE_EN 0 0).put CH_PART_CFG.PROFILE 1 0).put CH_PART_CFG.DIR_UNITS 1 0
  let s := s.setSlot 1 3 (slotOf .moored kindTally)
  let s := { s with fe := { FrontEnd.reset with cmds := l } }
  let s := s.setLineBytes lineNo (lineOfWords words)
  s.setDir lineNo { Line.reset.dir with kind := kind }

/-- A command at the home on the line: its address is the berth's first. -/
def home (opc : Nat) (words : List (Nat × Nat)) : Cmd :=
  { newCmd 2 5 1 5 opc (desc ((0, opc) :: (8, 3 * 2 ^ 26) :: words)) 0 with stage := .atHome }

/-- An ATOMIC of a kind with an operand and a comparand. -/
def atomic (kind operand compare : Nat) : Cmd := home ocAtomic [(16, operand), (24, compare), (32, kind)]

theorem witness_atomics : (tallied .normal [7] [atomic 0 5 0]).cmd 2 = some (atomic 0 5 0) ∧ (atomic 0 5 0).flushTo = none
    ∧ (tallied .normal [7] [atomic 0 5 0]).tallyLine 1 (homeAddr (atomic 0 5 0)) = some lineNo
    ∧ ((tallied .normal [7] []).line lineNo).dir.st = .u ∧ ((tallied .normal [7] []).line lineNo).txn = none
    ∧ ((tallied .normal [7] []).line lineNo).queue = [] ∧ (tallied .normal [7] []).ho.waiters = []
    ∧ (tallied .normal [7] []).lineKind lineNo = .normal ∧ (tallied .normal [7] []).lineWord lineNo 0 = 7
    ∧ (atomicBody (atomic 6 5 7).desc).kind = 6 ∧ (atomicBody (atomic 3 5 7).desc).signed = false
    ∧ (tallied .normal [7] []).linePoison lineNo 0 = false
    ∧ ({ tallied .normal [7] [] with pm := { Pool.reset with near := ⟨[], [2 * lineNo]⟩ } } : State).linePoison lineNo 0 = true := by decide +kernel

/-- What an ATOMIC leaves in the line's first word. -/
def atomicLeaves (ins : Instr) (c : Cmd) (old new : Nat) : Bool :=
  leads ins (tallied .normal [old] [c]) fun t => t.lineWord lineNo 0 == new && (t.cmd 2).any fun x => x.value == old && x.stage == .answered

theorem test_atomics : atomicLeaves (.atomicAdd 2) (atomic 0 5 0) (2 ^ 64 - 3) 2 = true
    ∧ atomicLeaves (.atomicOr 2) (atomic 1 12 0) 5 13 = true ∧ atomicLeaves (.atomicAnd 2) (atomic 2 12 0) 5 4 = true
    ∧ atomicLeaves (.atomicMax 2) (atomic 3 (2 ^ 64 - 1) 0) 5 (2 ^ 64 - 1) = true
    ∧ atomicLeaves (.atomicMax 2) (atomic (3 + 16) (2 ^ 64 - 1) 0) 5 5 = true
    ∧ atomicLeaves (.atomicMin 2) (atomic (4 + 16) (2 ^ 64 - 1) 0) 5 (2 ^ 64 - 1) = true
    ∧ atomicLeaves (.atomicSwap 2) (atomic 5 9 0) 5 9 = true ∧ atomicLeaves (.atomicCas 2) (atomic 6 9 5) 5 9 = true
    ∧ atomicLeaves (.atomicCas 2) (atomic 6 9 4) 5 5 = true := by decide +kernel

theorem test_atomic_on_poison : leads (.atomicAdd 2) ({ tallied .normal [7] [atomic 0 5 0] with pm := { (tallied .normal [7] []).pm with
    near := ⟨[], [2 * lineNo]⟩ } } : State) (fun t => (t.cmd 2).any fun x => x.causes == [(stPoison, 0)]) = true := by decide +kernel

/-- A semaphore word of limit 2: HELD and its holders' entries; context 5 is entry 0. -/
def sema (held : Nat) (ctxs : List Nat) : List Nat := (2 + 16 * held) :: ctxs.map (· + 4096)

def take : Cmd := home ocWait [(32, 4 + 8)]

theorem witness_semaphores : (tallied .sema (sema 1 [5]) []).semEntry lineNo 5 = some 0 ∧ (tallied .sema (sema 1 [6]) []).semEntry lineNo 5 = none
    ∧ semHeld (2 + 16 * 1) = 1 ∧ semLimit (2 + 16 * 1) = 2 ∧ (tallied .sema (sema 1 [6]) []).semFreeEntry lineNo = some 1
    ∧ (waitBody take.desc).cond = 4 ∧ (waitBody take.desc).take = true ∧ waitWord (waitBody take.desc) = 0 ∧ semHeld 2 = 0
    ∧ (tallied .sema (sema 1 [5]) []).contained ((tallied .sema (sema 1 [5]) []).linePart lineNo) = false
    ∧ (tallied .sema (sema 1 [5]) []).linePart lineNo < 64 ∧ (atomicBody (atomic 7 0 0).desc).kind = 7
    ∧ (tallied .sema (sema 1 [5]) []).linePoison lineNo 1 = false := by decide +kernel

/-- Context 5 took its entry an hour ago. -/
def leased : State := { tallied .sema (sema 1 [5]) [] with tb := { TimeBase.reset with hclk := 4320000000000 } }

theorem test_semaphores : leads (.semInit 2) (tallied .normal [9, 9] [atomic 7 0 0]) (fun t => t.lineKind lineNo == .sema
      && t.lineWord lineNo 0 == (atomicBody (atomic 7 0 0).desc).limit && t.lineWord lineNo 1 == 0) = true
    ∧ leads (.semGive 2) (tallied .sema (sema 1 [5]) [atomic 8 0 0]) (fun t => t.lineWord lineNo 0 == 2 && t.lineWord lineNo 1 == 0) = true
    ∧ leads (.semGive 2) (tallied .sema (sema 1 [6]) [atomic 8 0 0]) (fun t => (t.cmd 2).any fun x => x.causes == [(stNotOwner, 0)]) = true
    ∧ leads (.semFree 2) (tallied .sema (sema 1 [6]) [atomic 9 0 0]) (fun t => (t.cmd 2).any fun x => x.causes == [(stBadDesc, 0x23)]) = true
    ∧ leads (.semFree 2) (tallied .sema (sema 0 []) [atomic 9 0 0]) (fun t => t.lineKind lineNo == .normal) = true
    ∧ leads (.wait 2) (tallied .sema (sema 1 [6]) [take]) (fun t => t.lineWord lineNo 0 == 34 && t.lineWord lineNo 2 == 4096 + 5) = true
    ∧ leads (.semLeaseExpiry lineNo 5) leased (fun t => t.lineWord lineNo 0 == 2
        && t.get CH_PART_STAT.SEM_EXPIRED (leased.linePart lineNo) == 1) = true
    ∧ leads (.semLeaseExpiry lineNo 5) (tallied .sema (sema 1 [5]) []) (fun t => t.lineWord lineNo 0 == 18) = true := by decide +kernel

theorem witness_lease_ends : leased.semExpired lineNo 5 = true ∧ (tallied .sema (sema 1 [5]) []).semExpired lineNo 5 = false ∧ leased.te.held = []
    ∧ leased.homeAffords lineNo (.leaseEnd 5) = true ∧ leased.linePart lineNo < 64 ∧ leased.semEntry lineNo 5 = some 0 := by decide +kernel

/-- WAIT for the first word under a full mask to equal 7 (condition 0), or ACQUIRE of a version. -/
def waitFor (cond cmp timeout : Nat) : Cmd := home ocWait [(16, cmp), (24, 2 ^ 64 - 1), (32, cond + 16 * timeout)]

def acquireOf (version timeout : Nat) : Cmd := home ocAcquire [(16, version), (24, 256 * timeout)]

theorem witness_waiters : (waitBody (waitFor 0 7 3).desc).cond < 4 ∧ (waitBody (waitFor 0 7 3).desc).timeout = 3
    ∧ waitHolds (waitBody (waitFor 0 7 3).desc) 7 = true ∧ waitHolds (waitBody (waitFor 0 7 0).desc) 8 = false
    ∧ acquireHolds (acquireBody (acquireOf 7 3).desc) 7 = true ∧ acquireHolds (acquireBody (acquireOf 8 0).desc) 7 = false
    ∧ (acquireBody (acquireOf 8 0).desc).timeout = 0 ∧ (tallied .record [7] []).lineKind lineNo = .record
    ∧ (tallied .normal [7] []).lineKind lineNo ≠ .record := by decide +kernel

theorem test_waiters : leads (.wait 2) (tallied .normal [7] [waitFor 0 7 3]) (fun t => (t.cmd 2).any fun x => x.value == 7 && x.stage == .answered) = true
    ∧ leads (.wait 2) (tallied .normal [8] [waitFor 0 7 3]) (fun t => t.ho.waiters == [⟨2, lineNo⟩] && t.get CH_STATUS.WATCHES == 1) = true
    ∧ leads (.wait 2) (tallied .normal [8] [waitFor 0 7 0]) (fun t => (t.cmd 2).any fun x => x.causes == [(stTimeout, 0)] && x.value == 8) = true
    ∧ leads (.acquire 2) (tallied .record [7] [acquireOf 7 3]) (fun t => (t.cmd 2).any fun x => x.value == 7 && x.causes == []) = true
    ∧ leads (.acquire 2) (tallied .normal [7] [acquireOf 7 3]) (fun t => (t.cmd 2).any fun x => x.causes == [(stBadDesc, 0x23)]) = true
    ∧ leads (.waitTimeout 2) (after (.wait 2) (tallied .normal [8] [waitFor 0 7 3])) (fun t => t.ho.waiters == []
        && (t.cmd 2).any fun x => x.causes == [(stTimeout, 0)]) = true
    ∧ leads (.acquireTimeout 2) (after (.acquire 2) (tallied .record [7] [acquireOf 8 3])) (fun t => t.ho.waiters == []
        && (t.cmd 2).any fun x => x.value == 7) = true := by decide +kernel

/-- PUBLISH: an action that expects 7 and installs 8; the line's owner is rank 2. -/
def publish (action : Nat) : Cmd := home ocPublish [(16, 7), (24, 8), (32, 2 ^ 25 * action + 2 ^ 27 * 3)]

theorem witness_publish : (publishBody (publish 2).desc).action = 2 ∧ (publishBody (publish 2).desc).expect = 7
    ∧ (tallied .record [7, 2] []).ticketInTransit 1 ((tallied .record [7, 2] []).lineWord lineNo 3) = false
    ∧ (tallied .record [7, 2] []).lineWord lineNo 1 % 4096 = (tallied .record [7, 2] []).ctxRank 5
    ∧ (tallied .record [7, 1] []).lineWord lineNo 1 % 4096 ≠ (tallied .record [7, 2] []).ctxRank 5 ∧ (publish 0).part < 64 := by decide +kernel

theorem test_publish : leads (.publishUpdate 2) (tallied .record [7, 2] [publish 0]) (fun t => t.lineWord lineNo 0 == 8
      && (t.cmd 2).any fun x => x.value == 8) = true
    ∧ leads (.publishInit 2) (tallied .normal [7, 9, 9] [publish 1]) (fun t => t.lineKind lineNo == .record && t.lineWord lineNo 0 == 8
        && t.lineWord lineNo 1 == 2 && t.lineWord lineNo 2 == 0) = true
    ∧ leads (.publishXfer 2) (tallied .record [7, 2] [publish 2]) (fun t => t.lineWord lineNo 0 == 8 && t.lineWord lineNo 1 == 3) = true
    ∧ leads (.publishFree 2) (tallied .record [7, 2] [publish 3]) (fun t => t.lineKind lineNo == .normal && t.lineWord lineNo 0 == 8
        && t.lineWord lineNo 1 == 0) = true
    ∧ leads (.publishUpdate 2) (tallied .record [6, 2] [publish 0]) (fun t => (t.cmd 2).any fun x => x.causes == [(stStalePublish, 0)]
        && x.value == 6) = true
    ∧ leads (.publishUpdate 2) (tallied .record [7, 1] [publish 0]) (fun t => (t.cmd 2).any fun x => x.causes == [(stNotOwner, 0)]) = true := by
  decide +kernel

/-- HANDOFF: an operation on the ticket with COOKIE 11; peer rank 3. -/
def ticketOp (op : Nat) : Cmd := home ocHandoff [(16, op + 16 * 3), (32, 11)]

/-- A ticket word: state, direction; prefill rank 2 (the caller), decode rank 3. -/
def ticket (st dir pre dec : Nat) : List Nat := [st + 4 * dir + 65536 * pre + 2 ^ 32 * dec, 11, 0]

theorem witness_tickets : (tallied .ticket (ticket 0 0 2 3) [ticketOp 1]).lineKind lineNo = .ticket
    ∧ (tallied .ticket (ticket 0 0 2 3) []).lineWord lineNo 1 = (handoffBody (ticketOp 1).desc).cookie
    ∧ (tallied .ticket (ticket 0 0 2 3) []).lineWord lineNo 2 = 0 ∧ (handoffBody (ticketOp 1).desc).op = 1
    ∧ (tallied .ticket (ticket 0 0 2 3) []).ctxRank 5 = 2 ∧ (handoffBody (ticketOp 0).desc).recAddr = 0
    ∧ (tallied .ticket (ticket 1 1 2 3) []).linePart lineNo < 64
    ∧ (tallied .ticket [0, 12] []).lineWord lineNo 1 ≠ (handoffBody (ticketOp 1).desc).cookie := by decide +kernel

theorem test_tickets : leads (.handoffCreate 2) (tallied .normal [9] [ticketOp 0]) (fun t => t.lineKind lineNo == .ticket
      && t.lineWord lineNo 0 == 65536 * 2 + 2 ^ 32 * 3 && t.lineWord lineNo 1 == 11) = true
    ∧ leads (.handoffOffer 2) (tallied .ticket (ticket 0 0 2 3) [ticketOp 1]) (fun t => t.lineWord lineNo 0 == 1 + 65536 * 2 + 2 ^ 32 * 3) = true
    ∧ leads (.handoffConfirm 2) (tallied .ticket (ticket 1 1 2 3) [ticketOp 2]) (fun t => t.lineWord lineNo 0 == 65536 * 2 + 2 ^ 32 * 3
        && t.lineWord lineNo 3 == 1) = true
    ∧ leads (.handoffQuery 2) (tallied .ticket (ticket 1 0 2 3) [ticketOp 3]) (fun t => (t.cmd 2).any fun x => x.value == 1 + 65536 * 2 + 2 ^ 32 * 3) = true
    ∧ leads (.handoffRelease 2) (tallied .ticket (ticket 2 0 3 2) [ticketOp 4]) (fun t => t.lineKind lineNo == .normal && t.lineWord lineNo 1 == 0) = true
    ∧ leads (.handoffOffer 2) (tallied .ticket [0, 12] [ticketOp 1]) (fun t => (t.cmd 2).any fun x => x.causes == [(stNotOwner, 0)]) = true
    ∧ leads (.handoffDeadline lineNo) (tallied .ticket (ticket 1 1 2 3) []) (fun t => t.lineWord lineNo 0 == 2 + 65536 * 2 + 2 ^ 32 * 3) = true := by
  decide +kernel

def second : Cmd := { atomic 0 6 0 with cid := 4 }

/-- Two ADDs wait in the line's queue. -/
def batched : State :=
  let s := tallied .normal [7] [atomic 0 5 0, second]
  s.setLine lineNo { s.line lineNo with queue := [.cmd 2, .cmd 4] }

theorem witness_batch : batched.cmd 2 = some (atomic 0 5 0) ∧ batched.cmd 4 = some second ∧ second.flushTo = none
    ∧ (batched.line lineNo).queue = [.cmd 2, .cmd 4] ∧ (batched.line lineNo).txn = none ∧ 2 ≤ batched.get CH_CFG.BATCH_MAX
    ∧ batched.te.held = [] ∧ batched.ho.waiters = [] := by decide +kernel

theorem witness_batch_fares : (atomic 0 5 0).stage = .atHome ∧ second.stage = .atHome ∧ batched.homeAffords lineNo (.cmd 2) = true
    ∧ (batched.chargeHome lineNo (.cmd 2) (1, 1)).homeAffords lineNo (.cmd 4) = true ∧ batched.linePoison lineNo 0 = false
    ∧ batched.lineKind lineNo = .normal := by decide +kernel

theorem test_batch : leads (.homeBatchApply lineNo) batched (fun t => t.lineWord lineNo 0 == 18 && (t.line lineNo).queue == []
    && (t.cmd 2).any (fun x => x.value == 7) && (t.cmd 4).any fun x => x.value == 12) = true := by decide +kernel

/-- A request frame of endpoint 77 to the line. -/
def request (opc : BitVec 8) (data : List Byte) : Frame :=
  { noFrame with opc := opc, part := 1, epoch := 1, src := 77, dst := 9, tag := 4, addr := BitVec.ofNat 52 (3 * 2 ^ 26), data := data }

def line128 : List Byte := List.replicate 128 3

/-- Another endpoint owns the line. -/
def ownedBy (o : Nat) : State :=
  (tallied .normal [7] []).setDir lineNo { Line.reset.dir with st := .ow, ptrs := [o] }

/-- A transaction of endpoint 77's RD_U waits for the owner, 78. -/
def snooping : State :=
  let s := ownedBy 78
  s.setLine lineNo { s.line lineNo with txn := some ⟨.frame (request 0x43 []), [78], none, false, none⟩ }

/-- The atomic frame's operand 5, comparand 0 and operation ADD. -/
def addFrame : Frame := request 0x45 (leBytes 8 5 ++ leBytes 8 0 ++ List.replicate 48 0)

def replied : State :=
  { tallied .normal [7] [] with ho := { (tallied .normal [7] []).ho with replies := [⟨77, 4, 1, 0, 42⟩] } }

def queued : State :=
  let s := tallied .normal [7] []
  s.setLine lineNo { s.line lineNo with queue := [.frame (request 0x43 [])] }

theorem witness_uncached_lines : Safety.canSend (tallied .normal [7] []) ∧ (request 0x40 []).addr.extractLsb' 50 2 = 0#2
    ∧ (tallied .normal [7] []).handle 1 3 = .held (slotOf .moored kindTally) ∧ (slotOf .moored kindTally).kind = kindTally
    ∧ (tallied .normal [7] []).slotByte (slotOf .moored kindTally) 0 / 128 = lineNo ∧ (tallied .normal [7] []).te.held = []
    ∧ (request 0x44 line128).data.length = 128 ∧ (request 0x44 line128).addr.toNat % 128 = 0 ∧ attrSub (request 0x44 line128) = false
    ∧ hasFlag (request 0x44 line128) flagPsn = false ∧ atOk addFrame = true ∧ (tallied .normal [7] []).cachedReply addFrame = none
    ∧ replied.cachedReply addFrame = some ⟨77, 4, 1, 0, 42⟩ ∧ (tallied .normal [7] []).storesPending 77 (fun q => seqLe q 0) = false
    ∧ (tallied .normal [7] []).bulk 77 = none ∧ (tallied .sema (sema 0 []) []).lineKind lineNo ≠ .normal := by
  refine ⟨⟨?_, ?_, ?_⟩, ?_⟩ <;> decide +kernel

def got (t : State) (opc : BitVec 8) (st : Nat) : Bool :=
  (Safety.lastSent t 77 vcRsp).any fun r => r.opc == opc && r.tag == 4 && r.ctx.toNat % 256 == st

theorem test_uncached_lines : leads (.rdS (request 0x40 [])) (tallied .normal [7] []) (fun t => got t 0x4B stOk && (t.line lineNo).dir.ptrs == [77]
      && (t.line lineNo).dir.st == .ow) = true
    ∧ leads (.rdO (request 0x41 [])) (tallied .normal [7] []) (fun t => got t 0x4B stOk && (t.line lineNo).dir.st == .ow) = true
    ∧ leads (.upg (request 0x42 [])) (tallied .normal [7] []) (fun t => got t 0x4B stOk && (t.line lineNo).dir.st == .ow) = true
    ∧ leads (.rdU (request 0x43 [])) (tallied .normal [7] []) (fun t => got t 0x4B stOk && (t.line lineNo).dir.st == .u) = true
    ∧ leads (.wrU (request 0x44 line128)) (tallied .normal [7] []) (fun t => got t 0x4E stOk && (t.lineData lineNo).bytes == line128) = true
    ∧ leads (.tallySt ({ request 0x46 line128 with cls := 1, seq := 9 })) (tallied .normal [7] []) (fun t =>
        (t.lineData lineNo).bytes == line128 && (t.bulk 77).any fun b => b.applied == 9) = true
    ∧ leads (.atomicFrame addFrame) (tallied .normal [7] []) (fun t => got t 0x4E stOk && t.lineWord lineNo 0 == 12) = true
    ∧ leads (.atomicFrame addFrame) replied (fun t => t.lineWord lineNo 0 == 7 && t.get CH_STATUS.REPLAYS == 1) = true
    ∧ leads (.wrU (request 0x44 line128)) (tallied .sema (sema 0 []) []) (fun t => got t 0x4E stNotOwner) = true
    ∧ leads (.replyCacheExpiry 77 4) replied (fun t => t.ho.replies == []) = true := by decide +kernel

theorem witness_owned_lines : ((ownedBy 78).line lineNo).dir.st = .ow ∧ ((ownedBy 78).line lineNo).dir.ptrs = [78]
    ∧ ((ownedBy 78).line lineNo).queue = [] ∧ (ownedBy 78).ho.waiters = [] ∧ (ownedBy 78).te.held = []
    ∧ (snooping.line lineNo).txn = some ⟨.frame (request 0x43 []), [78], none, false, none⟩
    ∧ (ownedBy 78).tallyLine 1 (3 * 2 ^ 26) = some lineNo ∧ (queued.line lineNo).queue = [.frame (request 0x43 [])]
    ∧ (queued.line lineNo).dir.st = .u ∧ queued.linePoison lineNo 0 = false := by decide +kernel

theorem witness_home_fares : (tallied .normal [7] [atomic 0 5 0]).homeAffords lineNo (.cmd 2) = true
    ∧ (tallied .normal [7] [atomic 0 5 0]).homeLost (atomic 0 5 0) = false ∧ (tallied .sema (sema 1 [5]) []).homeAffords lineNo (.leaseEnd 5) = true
    ∧ (tallied .ticket (ticket 1 1 2 3) []).homeAffords lineNo (.deadline 0) = true
    ∧ (tallied .ticket (ticket 1 1 2 3) []).lineWord lineNo 3 % 2 ^ 32 = 0 ∧ (tallied .ticket (ticket 1 1 2 3) []).te.held = []
    ∧ (tallied .normal [7] []).homeAffords lineNo (.frame (request 0x40 [])) = true
    ∧ (ownedBy 78).homeAffords lineNo (.frame (request 0x43 [])) = true ∧ queued.homeAffords lineNo (.frame (request 0x43 [])) = true
    ∧ Safety.canSend (ownedBy 78) ∧ Safety.canSend queued := by
  refine ⟨?_, ?_, ?_, ?_, ?_, ?_, ?_, ?_, ?_, ⟨?_, ?_, ?_⟩, ⟨?_, ?_, ?_⟩⟩ <;> decide +kernel

theorem test_owned_lines : leads (.rdU (request 0x43 [])) (ownedBy 78) (fun t => (Safety.lastSent t 78 vcFwd).any (fun r => r.opc == 0x48)
      && (t.line lineNo).txn.any fun x => x.awaiting == [78]) = true
    ∧ leads (.snpAck { request 0x4A line128 with src := 78 } false true false) snooping (fun t => got t 0x4B stOk
        && (t.lineData lineNo).bytes == line128 && (t.line lineNo).dir.st == .sh && (t.line lineNo).dir.ptrs == [78]) = true
    ∧ leads (.snoopTargetLost lineNo 78) snooping (fun t => t.linePoison lineNo 0 && t.linePoison lineNo 1 && (t.line lineNo).txn == none) = true
    ∧ leads (.wb { request 0x47 line128 with src := 78 }) (ownedBy 78) (fun t => (t.lineData lineNo).bytes == line128
        && (t.line lineNo).dir.st == .u) = true
    ∧ leads (.wb (request 0x47 line128)) (ownedBy 78) (fun t => t.lineWord lineNo 0 == 7 && t.get CH_STATUS.PROTO_ERR == 1) = true
    ∧ leads (.homeNextRequest lineNo) queued (fun t => got t 0x4B stOk && (t.line lineNo).queue == []) = true := by decide +kernel

/-! ## Near memory -/

def fenceAt (flush : Option Nat) : Cmd := { home ocFence [] with flushTo := flush }

/-- Endpoint 77's posted stores: applied up to 5, some lost, and perhaps one held behind its block. -/
def flushing (flush : Option Nat) (lost : List Nat) (heldSeq : List Nat) : State :=
  let s := tallied .normal [7] [fenceAt flush]
  { s with ho := { s.ho with bulk := [⟨77, 0, 5, some 5, lost⟩] },
           te := { Tier.reset with held := heldSeq.map fun q => ⟨{ request 0x10 line128 with cls := 1, seq := BitVec.ofNat 24 q }, true⟩ } }

theorem witness_fences : (flushing none [] []).cmd 2 = some (fenceAt none) ∧ (fenceAt none).stage = .atHome ∧ (fenceAt none).opc = ocFence
    ∧ (flushing (some 4) [] [3]).bulk 77 = some ⟨77, 0, 5, some 5, []⟩ ∧ (flushing (some 4) [] [3]).rankId 1 2 = 77
    ∧ (flushing (some 4) [] [3]).storesPending 77 (fun x => seqLe 0 x && seqLe x 4) = true
    ∧ (flushing (some 5) [] []).storesPending 77 (fun x => seqLe 0 x && seqLe x 5) = false ∧ seqLe 5 5 = true
    ∧ [2].any (fun l => seqLe l 4) = true ∧ ({ fenceAt none with stage := .answered } : Cmd).stage = .answered := by decide +kernel

theorem witness_marks : (((flushing none [] []).bulk 77).bind (·.high)).getD 0 = 5 ∧ ((flushing none [] []).bulk 78).bind (·.high) = none
    ∧ (flushing (some 4) [2] []).bulk 77 = some ⟨77, 0, 5, some 5, [2]⟩ := by decide +kernel

theorem test_fences : leads (.fence 2) (flushing none [] []) (fun t => (t.cmd 2).any fun x => x.stage == .answered && x.value == 5) = true
    ∧ leads (.flushComplete 2) (flushing (some 4) [] [3]) (fun t => (t.cmd 2).any fun x => x.stage == .atHome) = true
    ∧ leads (.flushComplete 2) (flushing (some 5) [] []) (fun t => (t.cmd 2).any fun x => x.stage == .answered && x.value == 5) = true
    ∧ leads (.flushComplete 2) (flushing (some 4) [2] []) (fun t => (t.cmd 2).any (fun x => x.causes == [(stRevoked, 0)])
        && (t.bulk 77).any fun b => b.lost == []) = true
    ∧ leads (.homeAnswer 2) (holding [{ fenceAt none with stage := .answered }]) (fun t => t.fe.cmds.map (·.stage) == [.finished]) = true := by
  decide +kernel

/-- A DECK_A berth in slot 3 with a few bytes, fares not binding. -/
def stored : State :=
  let s := (((ctxAt ctxEnabled).setSlot 1 3 (slotOf .moored kindDeckA)).put PT_CFG.FARE_EN 0 0)
  { s with pm := { s.pm with near := ⟨[(2 * 2 ^ 26 + 64, 9)], []⟩ } }

def loadOf (off len : Nat) : Frame :=
  { noFrame with opc := 0x01, part := 1, epoch := 1, src := 77, dst := 9, tag := 4, addr := BitVec.ofNat 52 (3 * 2 ^ 26 + off),
                 len := BitVec.ofNat 13 len }

def storeOf (opc : BitVec 8) (cls : BitVec 3) (flags : BitVec 8) (attr : BitVec 16) (data : List Byte) : Frame :=
  { request opc data with cls := cls, flags := flags, attr := attr, len := BitVec.ofNat 13 data.length, seq := 6 }

theorem witness_loads : Safety.quiet stored ∧ stored.contained 1 = false ∧ (loadOf 0 128).addr.extractLsb' 50 2 = 0#2 ∧ stored.ps.seals = []
    ∧ stored.handle 1 3 = .held (slotOf .moored kindDeckA) ∧ (slotOf .moored kindDeckA).physA < 15360 ∧ stored.pm.near.poison = []
    ∧ stored.pm.dead = [] ∧ lenOk (loadOf 0 128) = true ∧ (loadOf 0 128).addr.toNat % 64 = 0
    ∧ stored.coversNear 1 0 (stored.granules (slotOf .moored kindDeckA) 0 128 false) = true
    ∧ (loadOf (2 ^ 26 - 64) 64).addr.toNat % berthBytes + 64 ≤ berthBytes ∧ stored.handle 1 4 = .notHeld
    ∧ hasFlag (storeOf 0x10 1 0 0 line128) flagPsn = false ∧ attrSub (storeOf 0x10 1 flagPsn 0x3E0 (List.replicate 64 3)) = true
    ∧ hasFlag (storeOf 0x10 1 flagPsn 0x3E0 (List.replicate 64 3)) flagPsn = true := by
  refine ⟨⟨?_, ?_⟩, ?_⟩ <;> decide +kernel

theorem test_loads : leads (.ld (loadOf 0 128) []) stored (fun t => (Safety.lastSent t 77 vcRsp).any fun r => r.opc == 0x20
      && r.data == List.replicate 64 0 ++ 9 :: List.replicate 63 0) = true
    ∧ leads (.ld { loadOf 0 128 with addr := BitVec.ofNat 52 (4 * 2 ^ 26) } []) stored (fun t => got t 0x20 stBadDesc) = true := by
  decide +kernel

theorem test_stores : leads (.st (storeOf 0x10 1 0 0 (List.replicate 64 3)) []) stored (fun t => t.pm.near.byte (2 * 2 ^ 26) == 3
      && t.pm.near.byte (2 * 2 ^ 26 + 63) == 3 && t.pm.near.byte (2 * 2 ^ 26 + 64) == 9 && (t.bulk 77).any fun b => b.applied == 6) = true
    ∧ leads (.stNp (storeOf 0x02 0 0 0 (List.replicate 64 3))) stored (fun t => got t 0x21 stOk && t.pm.near.byte (2 * 2 ^ 26) == 3) = true
    ∧ leads (.st (storeOf 0x10 1 flagPsn 0x3E0 (List.replicate 64 3)) []) stored (fun t => t.pm.near.poison == [2 * 2 ^ 26 / 64]) = true
    ∧ leads (.st { storeOf 0x10 1 0 0 (List.replicate 64 3) with addr := BitVec.ofNat 52 (4 * 2 ^ 26) } []) stored (fun t =>
        t.get PM_PART_ERR.DROPPED_ST 1 == 1 && t.pm.near.cells == [(2 * 2 ^ 26 + 64, 9)]) = true := by decide +kernel

/-- Slot 3 of partition 1 selected, in a state; mooring context 5 is the partition's own. -/
def slotIn (sl : Slot) : State :=
  (((ctxAt ctxEnabled).put PM_BERTH_SEL.PART 0 1).put PM_BERTH_SEL.SLOT 0 3).setSlot 1 3 sl

def emptySlot : Slot := { Slot.reset with kind := kindLashed, lhalf := 1, physA := 15000, physB := 15001 }

def slotAs (st : SlotState) : Slot := { emptySlot with state := st, mctx := 5, mooring := .active, leaseMs := 250 }

theorem witness_berths : (slotIn emptySlot).te = .reset ∧ (slotIn emptySlot).fe.cmds = [] ∧ (slotIn emptySlot).get PM_BERTH_SEL.SLOT = 3
    ∧ (slotIn emptySlot).partState 1 = partLive ∧ (slotIn emptySlot).slot 1 3 = emptySlot ∧ emptySlot.state = .empty
    ∧ emptySlot.inRegion = true ∧ (slotIn emptySlot).berthsOk 1 emptySlot = true ∧ ({ emptySlot with physB := 15360 } : Slot).inRegion = false
    ∧ ({ emptySlot with kind := kindDeckA } : Slot).kind ≠ kindLashed ∧ (slotIn (slotAs .granted)).ctxPart 5 = 1
    ∧ (slotIn (slotAs .granted)).ctxPart 6 ≠ 1 ∧ (slotIn (slotAs .moored)).pairOf (slotKey 1 3) (slotAs .moored) = none
    ∧ (slotAs .draining).state = .draining := by decide +kernel

/-- Slots 3 and 4 hold the two handles of one lashed pair. -/
def pairedSlots (st : SlotState) : State := (slotIn (slotAs .moored)).setSlot 1 4 { slotAs st with lhalf := 0 }

theorem witness_pairs : (pairedSlots .granted).pairOf (slotKey 1 3) (slotAs .moored) = some (slotKey 1 4)
    ∧ (slotIn (slotAs .granted)).pairOf (slotKey 1 3) (slotAs .granted) = none
    ∧ (slotIn (slotAs .draining)).pairOf (slotKey 1 3) (slotAs .draining) = none ∧ (slotAs .moored).state ≠ .empty
    ∧ slotKey 1 4 / 32768 = 1 ∧ slotKey 1 4 % 32768 = 4 := by decide +kernel

theorem test_revoke_takes_the_pair : leads (.revoke 0) (pairedSlots .granted) (fun t => (t.slot 1 3).state == .draining
      && (t.slot 1 4).state == .empty) = true
    ∧ leads (.revoke 0) (pairedSlots .moored) (fun t => (t.slot 1 3).revoke && (t.slot 1 4).state == .draining && (t.slot 1 4).revoke) = true := by
  decide +kernel

theorem test_berth_commands : leads (.grant 0) (slotIn emptySlot) (fun t => (t.slot 1 3).state == .granted && t.get PM_BERTH_CMD.RESULT == 0) = true
    ∧ leads (.grant 0) (slotIn { emptySlot with physB := 15360 }) (fun t => t.get PM_BERTH_CMD.RESULT == 2) = true
    ∧ leads (.grant 0) (slotIn { emptySlot with kind := kindDeckA }) (fun t => t.get PM_BERTH_CMD.RESULT == 4) = true
    ∧ leads (.moor 0) (slotIn (slotAs .granted)) (fun t => t.slot 1 3 == { slotAs .moored with renewed := 0 }) = true
    ∧ leads (.moor 0) (slotIn { slotAs .granted with mctx := 6 }) (fun t => t.get PM_BERTH_CMD.RESULT == 3) = true
    ∧ leads (.renew 0) (slotIn { slotAs .moored with mooring := .grace }) (fun t => (t.slot 1 3).mooring == .active) = true
    ∧ leads (.unmoor 0) (slotIn (slotAs .moored)) (fun t => (t.slot 1 3).state == .draining && !(t.slot 1 3).revoke) = true
    ∧ leads (.revoke 0) (slotIn (slotAs .granted)) (fun t => (t.slot 1 3).state == .empty) = true
    ∧ leads (.revoke 0) (slotIn (slotAs .moored)) (fun t => (t.slot 1 3).state == .draining && (t.slot 1 3).revoke) = true
    ∧ leads (.moor 0) (slotIn (slotAs .moored)) (fun t => t.get PM_BERTH_CMD.RESULT == 1) = true := by decide +kernel

/-- A DRAINING slot with a running command that names it. -/
def draining (st : Stage) : State :=
  { slotIn { slotAs .draining with kind := kindDeckA } with
    fe := { FrontEnd.reset with cmds := [{ newCmd 2 5 1 5 ocCopy 0 0 with stage := st, berths := [3] }] } }

def scrubbing (revoke : Bool) : State :=
  let s := slotIn { slotAs .scrubbing with kind := kindDeckA, physA := 2, revoke := revoke, gen := 511 }
  { s with pm := { s.pm with near := ⟨[(2 * 2 ^ 26 - 1, 8), (2 * 2 ^ 26, 9)], [2 * 2 ^ 20]⟩ } }

theorem witness_leases : (slotAs .moored).lease.isSome = true ∧ (slotAs .moored).mooring = .active ∧ (slotIn (slotAs .moored)).contained 1 = false
    ∧ ({ slotAs .moored with leaseMs := 0, lprofile := 0 } : Slot).lease = none ∧ ({ slotAs .moored with mooring := .grace } : Slot).mooring = .grace
    ∧ (slotAs .draining).expired = false ∧ (draining .running).ho = .reset ∧ slotHandle 3 (slotAs .draining) = 3
    ∧ (draining .running).fe.cmds.map (·.berths) = [[3]] ∧ (slotIn { slotAs .draining with expired := true }).engineCmds 1 3 = []
    ∧ ((scrubbing true).slot 1 3).state = .scrubbing ∧ ((scrubbing true).slot 1 3).owns (2 * 2 ^ 26) = true
    ∧ ((scrubbing true).slot 1 3).owns (2 * 2 ^ 26 - 64) = false := by decide +kernel

theorem witness_drains : ((draining .running).setSlot 1 3 { slotAs .draining with kind := kindDeckA, expired := true }).engineCmds 1 3 ≠ []
    ∧ (slotIn { slotAs .draining with expired := true }).fe.cmds = []
    ∧ ((scrubbing true).setSlot 1 3 { slotAs .scrubbing with revoke := true }).pairOf (slotKey 1 3) { slotAs .scrubbing with revoke := true } = none
    ∧ ({ slotAs .scrubbing with lhalf := 1 - 1 } : Slot).owns (15000 * 2 ^ 26) = true := by decide +kernel

/-- REVOKE's scrub of one handle of a lashed pair whose other handle was never granted clears the other half too (R197). -/
theorem test_scrub_of_a_pair : leads (.scrubComplete 1 3) (let s := slotIn { slotAs .scrubbing with revoke := true }
    { s with pm := { s.pm with near := ⟨[(15000 * 2 ^ 26, 9), (15000 * 2 ^ 26 + 256, 9), (15002 * 2 ^ 26, 9)], []⟩ } }) (fun t =>
      t.pm.near.cells == [(15002 * 2 ^ 26, 9)] && (t.slot 1 3).state == .empty) = true := by decide +kernel

theorem test_leases : leads (.leaseEnd 1 3) (slotIn (slotAs .moored)) (fun t => (t.slot 1 3).mooring == .grace) = true
    ∧ leads (.graceEnd 1 3) (slotIn { slotAs .moored with mooring := .grace }) (fun t => (t.slot 1 3).state == .draining) = true
    ∧ leads (.drainUsExpiry 1 3) (draining .running) (fun t => (t.slot 1 3).expired && (t.cmd 2).any fun c => c.stop == some (stRevoked, 0)) = true
    ∧ leads (.drainComplete 1 3) (slotIn { slotAs .draining with expired := true }) (fun t => (t.slot 1 3).state == .scrubbing) = true
    ∧ leads (.drainComplete 1 3) (slotIn (slotAs .draining)) (fun t => (t.slot 1 3).state == .draining) = true
    ∧ leads (.scrubComplete 1 3) (scrubbing true) (fun t => (t.slot 1 3).state == .empty && (t.slot 1 3).gen == 0
        && t.pm.near == ⟨[(2 * 2 ^ 26 - 1, 8)], []⟩) = true
    ∧ leads (.scrubComplete 1 3) (scrubbing false) (fun t => (t.slot 1 3).state == .granted) = true := by decide +kernel

/-- A sector of a bulk berth. -/
def bulkSector : Nat := 2000 * 2 ^ 20

def alone (chan : Nat) (st : Nat) : State := (slotIn { slotAs .moored with kind := kindDeckA, physA := 2000 }).put PM_CHAN_STATUS.STATE chan st

/-- One correctable error on a row, and a threshold of one. -/
def worn : State := { ready.put HS_RAS_CFG.ROW_CE 0 1 with pm := { Pool.reset with rowCe := [(5, [0])] } }

theorem witness_sectors : (ready.placeOf (bulkSector * 64)).1 < 640 ∧ critical (bulkSector * 64) = false ∧ ready.pm.near.poisoned bulkSector = false
    ∧ worn.get HS_RAS_CFG.ROW_CE ≤ worn.rowCount 5 ∧ ready.rowCount 5 < ready.get HS_RAS_CFG.ROW_CE ∧ ready.reserveUsed 1 < 8 ∧ ready.get PM_CHAN_STATUS.STATE 639 = 0
    ∧ (alone 639 1).get PM_CHAN_STATUS.STATE 639 ≠ 0 ∧ ready.get PM_HALF_STATUS.RETIRED 1 < 8
    ∧ (alone 0 0).heldSlots = [(slotKey 1 3, { slotAs .moored with kind := kindDeckA, physA := 2000 })] ∧ bulkBerth 2000 = true
    ∧ (alone 0 0).get PM_HALF_STATUS.RETIRED 0 < 8 := by decide +kernel

theorem witness_reserve : ready.pm.lostPairs = [] ∧ (alone 0 0).metadataOn 0 = false ∧ (alone 0 0).reserveUsed 0 < 8
    ∧ 8 ≤ (ready.put PM_HALF_STATUS.RETIRED 1 8).reserveUsed 1 ∧ (ready.put PM_HALF_STATUS.RETIRED 1 8).get PM_CHAN_STATUS.STATE 639 = 0
    ∧ (alone 0 0).get PM_CHAN_STATUS.STATE 0 = 0 ∧ (alone 0 0).te = .reset ∧ (alone 0 0).pm.lostPairs = [] := by decide +kernel

theorem test_sectors : leads (.patrolScrub [.corrected bulkSector]) ready (fun t => t.get PM_CHAN_STATUS.CE_24H (ready.placeOf (bulkSector * 64)).1 == 1) = true
    ∧ leads (.patrolScrub [.uncorrectable bulkSector]) ready (fun t => t.pm.near == ⟨[], [bulkSector]⟩) = true
    ∧ leads (.rowRepair 0 5) worn (fun t => t.pm.rowCe == []) = true
    ∧ leads (.channelRetireRequest 639) ready (fun t => t.get PM_CHAN_STATUS.STATE 639 == 1) = true
    ∧ leads (.channelRetireRequest 639) (alone 639 1) (fun t => t.get PM_RAS_CFG.REFUSED == 1) = true
    ∧ leads (.migrationComplete 639) (alone 639 1) (fun t => t.get PM_CHAN_STATUS.STATE 639 == 2 && t.get PM_HALF_STATUS.RETIRED 1 == 1) = true := by
  decide +kernel

/-! ## Tiers, trays and flash -/

/-- A BACKED DECK_A berth in slot 3 of partition 1 and a PREFETCH command on it; fares do not bind. -/
def prefetch (op : Nat) (words : List (Nat × Nat)) : Cmd :=
  { newCmd 2 5 1 5 ocPrefetch (desc ((0, ocPrefetch) :: (8, op) :: words)) 0 with stage := .dispatched }

def backedSlot : Slot := { slotOf .moored kindDeckA with cls := 1 }

def boundTo1 : TrayBerth :=
  { TrayBerth.free with part := 1, state := tbAllocated, places := [(0, [4, 5, 6, 7, 8, 9, 10, 11]), (1, [0, 1, 2, 3, 4, 5, 6, 7])] }

def tiered (l : List Cmd) (windows : Tab Window) : State :=
  let s := ((ctxAt ctxEnabled).put PT_CFG.FARE_EN 0 0).setSlot 1 3 backedSlot
  { s with fe := { FrontEnd.reset with cmds := l }, te := { Tier.reset with windows := windows },
           ty := { Trays.reset with berths := [(8, boundTo1)] } }

def theKey : Nat := slotKey 1 3

def dirty : Tab Window := [(theKey, ⟨.tray 8, false, [(16383, .dirty)]⟩)]

def bindTo (src : Nat) : Cmd := prefetch 3 [(24, 3 + 2 ^ 25 * src)]

theorem witness_windows : (tiered [bindTo 8] []).cmd 2 = some (bindTo 8) ∧ (tiered [bindTo 8] []).boundaryStop (bindTo 8) = none
    ∧ (prefetchBody (bindTo 8).desc).op = 3 ∧ (tiered [] []).window theKey = none ∧ (tiered [] []).backed 1 3 = true
    ∧ bindSource (prefetchBody (bindTo 8).desc) = some (.tray 8) ∧ (tiered [] []).sourceOk 1 (.tray 8) = true
    ∧ (tiered [] []).boundElsewhere (.tray 8) theKey = false ∧ bindSource (prefetchBody (bindTo 33554431).desc) = none
    ∧ theKey / 32768 < 64 ∧ (prefetchBody (prefetch 4 [(24, 3)]).desc).op = 4 ∧ ((tiered [] dirty).trayBerth 8).state ≠ tbLost
    ∧ (tiered [] dirty).covers 1 0 .tray 32 = true ∧ ((tiered [] dirty).trayBerth 8).policy = 0
    ∧ (tiered [] dirty).te.fills = [] ∧ (tiered [] dirty).te.manifests = [] := by decide +kernel

/-- Partition 1 has no tray fare, and fares bind. -/
def noTrayFare (l : List Cmd) : State :=
  { (tiered l dirty).put PT_CFG.FARE_EN 0 1 with pt := { Fares.reset with force := [(8, 9), (9, 9)] } }

theorem witness_tier_fares : (noTrayFare []).zeroFare 1 [.tray] = true ∧ (tiered [] dirty).zeroFare 1 [.tray] = false
    ∧ (tiered [] dirty).covers 1 0 .tray ((tiered [] dirty).trayUnits 8 16383) = true
    ∧ (tiered [] dirty).coversNear 1 0 ((tiered [] dirty).granules ((tiered [] dirty).keySlot theKey) (16383 * 4096) 4096 false) = true
    ∧ (tiered [bindTo 8] []).te.held = [] ∧ Safety.canSend (tiered [] dirty) ∧ (tiered [] dirty).unackedCount < 65535
    ∧ ((tiered [] dirty).trayBerth 8).lost = [] ∧ ((tiered [] dirty).trayBerth 8).places.length = 2
    ∧ (noTrayFare []).boundaryStop (prefetch 4 [(24, 3)]) = none := by
  refine ⟨?_, ?_, ?_, ?_, ?_, ⟨?_, ?_, ?_⟩, ?_⟩ <;> decide +kernel

theorem test_zero_tray_fare : leads (.clean 2) (noTrayFare [prefetch 4 [(24, 3)]]) (fun t => t.fe.cmds.map (·.causes) == [[(stBudget, 0)]]
      && t.blockState theKey 16383 == .dirty) = true
    ∧ leads (.evict 2) (noTrayFare [prefetch 5 [(24, 3)]]) (fun t => t.fe.cmds.map (·.causes) == [[(stBudget, 0)]]) = true := by decide +kernel

theorem test_windows : leads (.bind 2) (tiered [bindTo 8] []) (fun t => t.window theKey == some ⟨.tray 8, false, []⟩
      && t.fe.cmds.map (·.stage) == [.finished]) = true
    ∧ leads (.bind 2) (tiered [bindTo 33554431] [(theKey, ⟨.tray 8, false, []⟩)]) (fun t => t.te.windows == []) = true
    ∧ leads (.clean 2) (tiered [prefetch 4 [(24, 3)]] dirty) (fun t => t.blockState theKey 16383 == .resident
        && t.fe.cmds.map (·.value) == [1] && t.get TE_PART_STALL.WRITTEN_BACK 1 == 1) = true
    ∧ leads (.evict 2) (tiered [prefetch 5 [(24, 3)]] dirty) (fun t => t.blockState theKey 16383 == .absent) = true
    ∧ leads (.writeBackAge 1 3 16383) (tiered [] dirty) (fun t => t.blockState theKey 16383 == .resident) = true
    ∧ leads (.tierWaitExpiry 2) (tiered [{ bindTo 8 with stage := .running }] []) (fun t => t.fe.cmds.map (·.stop) == [some (stTierFail, 0)]) = true := by
  decide +kernel

/-- A FILL of one list entry whose K tile lies in a window: any width of the fill touches block 0. -/
def fillCmd (step : Nat) : Cmd :=
  { prefetch 2 [(16, 3 * 2 ^ 20 + 2 ^ 44 * 1), (24, 2 ^ 50 * 1)] with step := step, stage := if step = 0 then .dispatched else .running }

theorem witness_fill : (prefetchBody (fillCmd 0).desc).nent = 1 ∧ (prefetchBody (fillCmd 0).desc).nsec = 1
    ∧ (tiered [fillCmd 0] []).view 1 (prefetchBody (fillCmd 0).desc).addr 16 = .ready ∧ (tiered [fillCmd 0] []).pm.dead = []
    ∧ (fillCmd 0).step = 0 ∧ (fillCmd 1).step = 1 := by decide +kernel

def manifestCmd (start : Nat) : Cmd := prefetch 0 [(8, 2 ^ 7 * start), (16, 3 * 2 ^ 20)]

/-- A manifest of one layer at the berth's start: one section of no entries. -/
def manifested (l : List Cmd) : State :=
  let s := tiered l []
  { s with pm := { s.pm with near := ⟨[(2 * 2 ^ 26, 1), (2 * 2 ^ 26 + 72, 1)], []⟩ } }

theorem witness_manifests : (prefetchBody (manifestCmd 0).desc).op = 0 ∧ (manifested []).te.windows = [] ∧ (manifested []).te.fills = []
    ∧ inBerth 0 (64 + 64 * (manifested []).manifestLayers 1 (prefetchBody (manifestCmd 0).desc).addr) = true
    ∧ ((manifested []).manifestBytes 1 (prefetchBody (manifestCmd 0).desc).addr).map (·.1) = some 1
    ∧ (prefetchBody (manifestCmd 0).desc).start < 1 ∧ 1 ≤ (prefetchBody (manifestCmd 1).desc).start
    ∧ (prefetchBody (prefetch 1 []).desc).op = 1 := by decide +kernel

def manifestLost : State := { manifested [] with pm := { (manifested []).pm with near := ⟨[(2 * 2 ^ 26, 1)], [2 * 2 ^ 20]⟩ } }

theorem witness_manifest_reads : manifestLost.manifestPoisoned 1 (prefetchBody (manifestCmd 0).desc).addr = true
    ∧ (manifested []).manifestPoisoned 1 (prefetchBody (manifestCmd 1).desc).addr = false ∧ (manifested []).ho = .reset
    ∧ (manifested []).pm.near.poison = [] ∧ ((manifested [manifestCmd 0]).spend (manifestCmd 0)
        ((manifestSpans (prefetchBody (manifestCmd 0).desc).addr []).flatMap fun x => (manifested []).nearCost 1 x.1 x.2 false)).2 = true := by
  decide +kernel

theorem test_manifest_poison : leads (.manifestStart 2) { manifestLost with fe := { FrontEnd.reset with cmds := [manifestCmd 0] } } (fun t =>
    t.fe.cmds.map (·.causes) == [[(stPoison, 0)]]) = true := by decide +kernel

theorem test_manifests : leads (.manifestStart 2) (manifested [manifestCmd 0]) (fun t => t.fe.cmds.map (fun c => (c.stage, c.causes)) == [(.finished, [])]
      && t.te.manifests.map (fun m => (m.ctx, m.layers.length)) == [(5, 1)]) = true
    ∧ leads (.manifestStart 2) (manifested [manifestCmd 1]) (fun t => t.fe.cmds.map (·.causes) == [[(stBadDesc, 0x23)]]) = true
    ∧ leads (.manifestStop 2) { after (.manifestStart 2) (manifested [manifestCmd 0]) with
        fe := { FrontEnd.reset with cmds := [prefetch 1 []] } } (fun t => t.te.manifests == [] && t.fe.cmds.map (·.stage) == [.finished]) = true := by
  decide +kernel

/-- Trays 0 and 1 up in group 0, with 8 free pages each; tray berth 8 selected, in a state. -/
def trays (t : TrayBerth) : State :=
  let s := ((ready.put TY_GROUP.TRAYS 0 7).put TY_TB_SEL.TBN 0 8)
  let up (s : State) (n : Nat) : State := (s.put TY_TRAY_STATUS.STATE n 1).put TY_TRAY_STATUS.FREE_PAGES n 8
  { up (up (up s 0) 1) 2 with ty := { Trays.reset with berths := [(8, t)], capacity := [(0, 8), (1, 8), (2, 8)] } }

def mirrored (st : Nat) : TrayBerth :=
  { TrayBerth.free with state := st, places := [(0, [0, 1, 2, 3, 4, 5, 6, 7]), (1, [0, 1, 2, 3, 4, 5, 6, 7])] }

def reading1 : State :=
  { tiered [] [(theKey, ⟨.tray 8, false, [(0, .filling)]⟩)] with
    fe := { FrontEnd.reset with reads := [⟨6, .trayShard 2 0, 1, 4096, 0, none⟩] },
    te := { Tier.reset with windows := [(theKey, ⟨.tray 8, false, [(0, .filling)]⟩)],
                            fills := [⟨2, theKey, 0, true, [0], [], false, none, none⟩] } }

theorem witness_tray_berths : (trays TrayBerth.free).trayBerth 8 = TrayBerth.free ∧ TrayBerth.free.state = tbFree
    ∧ (((trays TrayBerth.free).groupTrays 0).filter fun x => 8 ≤ (trays TrayBerth.free).get TY_TRAY_STATUS.FREE_PAGES x).take 2 = [0, 1]
    ∧ (mirrored tbAllocated).bound = false ∧ ({ mirrored tbAllocated with bound := true } : TrayBerth).bound = true
    ∧ (mirrored tbAllocated).state ≠ tbFree ∧ (trays (mirrored tbDegraded)).ty.berths = [(8, mirrored tbDegraded)]
    ∧ (mirrored tbDegraded).places.any (·.1 == 2) = false ∧ (trays (mirrored tbDegraded)).get TY_GROUP.TRAYS 0 / 2 ^ 2 % 2 = 1
    ∧ (trays (mirrored tbDegraded)).get TY_TRAY_STATUS.STATE 2 = 1 ∧ (mirrored tbAllocated).places.map (·.1) = [0, 1]
    ∧ reading1.readTray ⟨6, .trayShard 2 0, 1, 4096, 0, none⟩ = some 0 ∧ reading1.te.held = [] ∧ reading1.te.manifests = [] := by decide +kernel

theorem test_tray_berths : leads (.alloc 0) (trays TrayBerth.free) (fun t => (t.trayBerth 8).state == tbAllocated
      && (t.trayBerth 8).places.map (·.1) == [0, 1] && t.get TY_TRAY_STATUS.FREE_PAGES 0 == 0) = true
    ∧ leads (.alloc 0) ((trays TrayBerth.free).put TY_TRAY_STATUS.FREE_PAGES 1 7 |>.put TY_TRAY_STATUS.FREE_PAGES 2 7) (fun t => t.get TY_TB_CMD.RESULT == 2) = true
    ∧ leads (.alloc 0) (trays (mirrored tbAllocated)) (fun t => t.get TY_TB_CMD.RESULT == 1) = true
    ∧ leads (.trayBerthFree 0) (trays (mirrored tbAllocated)) (fun t => (t.trayBerth 8).state == tbFree) = true
    ∧ leads (.trayBerthFree 0) (trays { mirrored tbAllocated with bound := true }) (fun t => t.get TY_TB_CMD.RESULT == 3) = true
    ∧ leads (.rebuild 0 2) (trays (mirrored tbAllocated)) (fun t => t.get TY_TB_CMD.RESULT == 1) = true
    ∧ leads (.rebuildComplete 8) (trays { mirrored tbRebuilding with lost := [1], target := some 1 }) (fun t =>
        (t.trayBerth 8).state == tbAllocated && (t.trayBerth 8).lost == []) = true
    ∧ leads (.trayFailure 0) (trays (mirrored tbAllocated)) (fun t => (t.trayBerth 8).state == tbDegraded && (t.trayBerth 8).lost == [0]) = true
    ∧ leads (.trayRequestTimeout 6) reading1 (fun t => t.blockState theKey 0 == .failed && t.get TY_TRAY_STATUS.ERRORS 0 == 1) = true := by
  decide +kernel

theorem witness_eight_plus_two : (List.replicate 8 (List.replicate 512 (3#8))).length = 8
    ∧ (∀ d ∈ List.replicate 8 (List.replicate 512 (3#8)), d.length = 512) := by decide +kernel

/-- Drive 4, with one read of a fill under way. -/
def flashing (retried : Bool) : State :=
  { tiered [] [(theKey, ⟨.flash 1, false, [(0, .filling)]⟩)] with
    te := { Tier.reset with windows := [(theKey, ⟨.flash 1, false, [(0, .filling)]⟩)],
                            fills := [⟨2, theKey, 0, true, [0], [], false, none, none⟩] },
    fl := { Flash.reset with cmds := [⟨4, 7, 1, some 2, none, 1, 0, 1, retried, false⟩], drives := [(4, ⟨true, true, false, []⟩)] } }

def drive4 (x : Drive) : State := { ready with fl := { Flash.reset with drives := [(4, x)] } }

def block : Payload := ⟨List.replicate 4096 5, []⟩

theorem witness_drives : (ready.drive 4).present = false ∧ (drive4 ⟨true, true, true, []⟩).fl.cmds = [] ∧ ((drive4 ⟨true, true, true, []⟩).drive 4).perstLow = true
    ∧ ((drive4 ⟨true, true, false, []⟩).drive 4).present = true ∧ (drive4 ⟨true, true, false, []⟩).get FL_DRIVE_STATUS.STATE 4 ≠ 2
    ∧ drive.flitMode = true ∧ drive.adminOk = true ∧ drive.lba4096 = true ∧ (flashing false).window theKey = some ⟨.flash 1, false, [(0, .filling)]⟩
    ∧ (flashing false).blockState theKey 0 = .filling ∧ block.bytes.length = 4096 ∧ (flashing false).pm.dead = []
    ∧ ((flashing false).keySlot theKey).kind = kindDeckA ∧ ((flashing false).drive 4).recreates = [] ∧ (flashing false).te.held = [] := by
  decide +kernel

/-- Drive 4's admin command is out. -/
def polling : State :=
  { drive4 ⟨true, true, false, []⟩ with fl := { Flash.reset with drives := [(4, ⟨true, true, false, []⟩)], cmds := [⟨4, 7, 0, none, none, 0, 0, 0, false, false⟩] } }

theorem witness_admin : polling.fl.cmds = [⟨4, 7, 0, none, none, 0, 0, 0, false, false⟩] ∧ polling.te.held = [] ∧ polling.te.manifests = []
    ∧ (flashing false).fl.cmds = [⟨4, 7, 1, some 2, none, 1, 0, 1, false, false⟩] ∧ (flashing false).covers 1 0 .flash 1 = true := by decide +kernel

theorem test_admin : leads (.nvmeCompletion 4 7 true noData) polling (fun t => t.fl.cmds == []) = true
    ∧ leads (.nvmeTimeout 4 7) polling (fun t => t.get FL_DRIVE_STATUS.STATE 4 == 3 && t.fl.cmds == []
        && t.get FL_DRIVE_STATUS.TIMEOUTS 4 == 1) = true
    ∧ leads (.nvmeCompletion 4 7 true block) (flashing false) (fun t => t.blockState theKey 0 == .resident) = true := by decide +kernel

theorem test_drives : leads (.fprsntN 4 true 10) ready (fun t => (t.drive 4).present && (t.drive 4).refclk) = true
    ∧ leads (.fprsntN 4 false 10) (drive4 ⟨true, true, true, []⟩) (fun t => t.drive 4 == Drive.reset) = true
    ∧ leads (.fperstNRelease 4) (drive4 ⟨true, true, true, []⟩) (fun t => t.get FL_DRIVE_STATUS.STATE 4 == 1) = true
    ∧ leads (.driveDiscovery 4 drive) (drive4 ⟨true, true, false, []⟩) (fun t => t.get FL_DRIVE_STATUS.STATE 4 == 2
        && t.get FL_DRIVE_STATUS.QPAIRS 4 == 64) = true
    ∧ leads (.driveDiscovery 4 { drive with lba4096 := false }) (drive4 ⟨true, true, false, []⟩) (fun t => t.get FL_DRIVE_STATUS.STATE 4 == 3) = true
    ∧ leads .getLogPagePoll (ready.put FL_DRIVE_STATUS.STATE 4 2) (fun t => t.out.length == 1) = true := by decide +kernel

theorem test_nvme : leads (.nvmeCompletion 4 7 false block) (flashing false) (fun t => t.blockState theKey 0 == .failed
        && t.get FL_DRIVE_STATUS.MEDIA_ERR 4 == 1) = true
    ∧ leads (.nvmeTimeout 4 7) (flashing false) (fun t => (t.fl.cmds.filter (·.qpair != 0)).map (·.retried) == [true] && t.get FL_DRIVE_STATUS.RECREATES 4 == 1) = true
    ∧ leads (.nvmeTimeout 4 7) (flashing true) (fun t => t.blockState theKey 0 == .failed && t.fl.cmds.filter (·.qpair != 0) == []) = true := by decide +kernel

/-- A COPY of 256 bytes from the berth's first to its bytes from 512 on. -/
def copyCmd : Cmd :=
  { newCmd 2 5 1 5 ocCopy (desc [(0, ocCopy), (8, 3 * 2 ^ 26 + 2 ^ 52 + 2 ^ 54), (16, 3 * 2 ^ 26 + 512)]) 0 with stage := .dispatched }

def copying : State :=
  { tiered [copyCmd] [] with pm := { (tiered [] []).pm with near := ⟨[(2 * 2 ^ 26, 1), (2 * 2 ^ 26 + 255, 2), (2 * 2 ^ 26 + 256, 3)], []⟩ },
                             te := .reset }

theorem witness_copy : copying.cmd 2 = some copyCmd ∧ copyCmd.stop = none ∧ copying.boundaryStop copyCmd = none
    ∧ (copyBody copyCmd.desc).srcKind = 1 ∧ (copyBody copyCmd.desc).dstKind = 1 ∧ (copyBody copyCmd.desc).len = 256
    ∧ copying.handle 1 (ref50 (copyBody copyCmd.desc).src).handle = .held backedSlot ∧ (ref50 (copyBody copyCmd.desc).dst).off = 512
    ∧ copying.handle 1 (ref50 (copyBody copyCmd.desc).dst).handle = .held backedSlot ∧ backedSlot.physA < 15360
    ∧ backedSlot.kind ≠ kindTally ∧ (copying.spend copyCmd (copying.copyCost copyCmd (copyBody copyCmd.desc) 0 256)).2 = true
    ∧ copyCmd.causes = [] ∧ copying.te = .reset := by decide +kernel

theorem test_copy : leads (.copy 2) copying (fun t => t.fe.cmds.map (fun c => (c.stage, c.value)) == [(.finished, 256)]
    && t.pm.near.cells == [(2 * 2 ^ 26, 1), (2 * 2 ^ 26 + 255, 2), (2 * 2 ^ 26 + 256, 3), (2 * 2 ^ 26 + 512, 1), (2 * 2 ^ 26 + 767, 2)]) = true := by
  decide +kernel

/-! ## Collectives -/

/-- Group 5 of partition 1, of one member: its role (0 TOP, 1 RELAY), its state and its member's word. -/
def grouped (role st word : Nat) (l : List Cmd) (seqs : List Seq) : State :=
  let s := (ctxAt ctxEnabled).setSlot 1 3 (slotOf .moored kindDeckA)
  let s := ((((s.put PT_CFG.FARE_EN 0 0).put RU_GRP_CFG.PART 5 1).put RU_GRP_CFG.STATE 5 st).put RU_GRP_CFG.NMEMB 5 1).put RU_GRP_CFG.ROLE 5 role
  { s with fe := { FrontEnd.reset with cmds := l }, co := { members := [(2560, BitVec.ofNat 64 word)], seqs := seqs, gone := [] } }

/-- Room for one group's slot memory. -/
def roomFor (n : Nat) (s : State) : State := s.put RU_PART_CFG.SLOT_RES 1 n

def seqOf0 (m : MemberSeq) : Seq :=
  { group := 5, seq := 0, params := none, members := [m], step := 0, out := noData, tail := noData, sent := 0, frames := 0, got := 0,
    outcome := none, up := false }

theorem witness_groups : (grouped 0 grpDefining 1 [] []).groupPart 5 = 1 ∧ (grouped 0 grpDefining 1 [] []).get RU_GRP_CFG.STATE 5 = grpDefining
    ∧ (grouped 0 grpDefining 1 [] []).membersOk 5 = true ∧ (grouped 0 grpDefining 0 [] []).membersOk 5 = false
    ∧ slotUnits 1 = 1 ∧ slotUnits 8 = 1 ∧ slotUnits 9 = 2 ∧ slotUnits 512 = 64
    ∧ (roomFor 1 (grouped 0 grpDefining 1 [] [])).get RU_PART_CFG.SLOT_RES 1 = 1 ∧ grpActive ≠ grpDefining
    ∧ (grouped 0 grpActive 1 [] []).get RU_GRP_CFG.STATE 5 = grpActive ∧ (grouped 0 grpDraining 1 [] []).get RU_GRP_CFG.STATE 5 = grpDraining
    ∧ (grouped 0 grpDraining 1 [] []).co.seqs.any (·.group == 5) = false
    ∧ (grouped 0 grpDraining 1 [] [seqOf0 (MemberSeq.reset 0)]).co.seqs.any (·.group == 5) = true := by decide +kernel

theorem test_groups : leads (.groupActivate 5) (roomFor 1 (grouped 0 grpDefining 1 [] [])) (fun t =>
      t.get RU_GRP_CFG.STATE 5 == grpActive && t.get RU_PART_CFG.SLOT_HELD 1 == 1) = true
    ∧ leads (.groupActivate 5) (grouped 0 grpDefining 1 [] []) (fun t => t.get RU_GRP_CFG.REFUSED 5 == 1) = true
    ∧ leads (.groupActivate 5) (roomFor 1 (grouped 0 grpDefining 0 [] [])) (fun t => t.get RU_GRP_CFG.REFUSED 5 == 1) = true
    ∧ leads (.groupDrain 5) (grouped 0 grpActive 1 [] []) (fun t => t.get RU_GRP_CFG.STATE 5 == grpDraining) = true
    ∧ leads (.groupDrainComplete 5) ((grouped 0 grpDraining 1 [] []).put RU_PART_CFG.SLOT_HELD 1 1) (fun t =>
        t.get RU_GRP_CFG.STATE 5 == grpFree && t.get RU_PART_CFG.SLOT_HELD 1 == 0) = true := by decide +kernel

/-- The tree over five leaves: ((0 1) (2 3)) 4; an absent leaf passes its sibling up. -/
theorem test_tree : treeOf (fun a b : List Nat => [a.sum * 10 + b.sum]) 3 [some [1], some [2], some [3], some [4], some [5]] = some [1545]
    ∧ treeOf (fun a b : Nat => 10 * a + b) 2 [some 1, none, some 3] = some 13 := by decide +kernel

/-- REDUCE of kind 0, ADD, FP32 to FP32, one unit of 64 bytes from the berth's first bytes to its bytes from 512 on. -/
def reduceCmd (st : Stage) (q : Nat) : Cmd :=
  { newCmd 2 5 1 5 ocReduce (desc [(0, ocReduce), (8, 3 * 2 ^ 26 + 2 ^ 52 + 2 ^ 53), (16, 3 * 2 ^ 26 + 512), (24, 1 + 2 ^ 32 * 9 + 2 ^ 36 * 9),
      (32, 5 + 2 ^ 19 * q)]) 0 with stage := st }

def ones : Payload := ⟨(List.replicate 16 [0x00#8, 0x00#8, 0x80#8, 0x3F#8]).flatten, []⟩

def member0 (complete : Bool) : MemberSeq :=
  { MemberSeq.reset 0 with cid := some 2, chunks := if complete then [(0, ones), (1, noData)] else [], complete := complete }

def running0 (complete : Bool) : Seq :=
  { seqOf0 (member0 complete) with params := some (paramsOf (reduceBody (reduceCmd .running 0).desc)) }

/-- The group's frames of sequence 0 and member 0. -/
def groupFrame (opc : BitVec 8) (data : List Byte) : Frame :=
  { request opc data with addr := 5, tag := 0 }

theorem witness_reduce : (reduceBody (reduceCmd .dispatched 3).desc).group = 5 ∧ (reduceBody (reduceCmd .dispatched 3).desc).seq = 3
    ∧ (reduceBody (reduceCmd .dispatched 3).desc).maskEn = false ∧ (reduceBody (reduceCmd .dispatched 3).desc).srcLoc = true
    ∧ (grouped 0 grpActive 1 [reduceCmd .dispatched 3] []).cmd 2 = some (reduceCmd .dispatched 3) ∧ (reduceCmd .dispatched 3).stop = none
    ∧ (grouped 0 grpActive 1 [reduceCmd .dispatched 3] []).boundaryStop (reduceCmd .dispatched 3) = none
    ∧ (grouped 0 grpActive 1 [] []).seqDistance 5 3 = 3 ∧ (grouped 0 grpActive 1 [] []).seqDistance 5 4 = 4
    ∧ (grouped 0 grpActive 1 [] []).handle 1 (ref50 (reduceBody (reduceCmd .dispatched 3).desc).src).handle = .held (slotOf .moored kindDeckA)
    ∧ ((grouped 0 grpActive 1 [] []).spend (reduceCmd .dispatched 3) ((grouped 0 grpActive 1 [] []).nearCost 1
        (ref50 (reduceBody (reduceCmd .dispatched 3).desc).src) 64 false)).2 = true
    ∧ (grouped 0 grpActive 1 [] []).pm.near.poison = [] ∧ (grouped 0 grpActive 1 [] []).sc.groups = [] ∧ (grouped 0 grpActive 1 [] []).te = .reset := by
  decide +kernel

theorem witness_contrib : let f := groupFrame 0x30 line128
    frameGroup f = 5 ∧ frameSeq f = 0 ∧ frameMember f = 0 ∧ frameSummary f = false
    ∧ ((grouped 0 grpActive (3 + 65536 * 77) [] []).member 5 0).valid = true ∧ ((grouped 0 grpActive (3 + 65536 * 77) [] []).member 5 0).child = true
    ∧ ((grouped 0 grpActive (3 + 65536 * 77) [] []).member 5 0).id = f.src.toNat ∧ (member0 false).settled = false ∧ (member0 false).expected = none
    ∧ (grouped 0 grpActive 1 [] []).groupOpen 5 = true ∧ (grouped 0 grpDraining 1 [] []).groupOpen 5 = true
    ∧ (grouped 0 grpFree 1 [] []).groupOpen 5 = false ∧ (grouped 0 grpActive 1 [] []).excludes 5 = false
    ∧ ((grouped 0 grpActive 1 [] []).put RU_GRP_CFG.ON_MISSING 5 1).excludes 5 = true ∧ (grouped 1 grpActive 1 [] []).isTop 5 = false := by
  decide +kernel

theorem witness_chunk : let s := grouped 0 grpActive 1 [reduceCmd .running 0] [running0 true]
    let p := paramsOf (reduceBody (reduceCmd .running 0).desc)
    s.reduceWork (running0 true) p 0 = .chunk ⟨ones.bytes, []⟩ ⟨[], []⟩ [(0, 64)] ∧ ones.bytes.length = 64 ∧ p.kind = 0 ∧ s.isTop 5 = true ∧ p.outBytes (s.nglobal 5) = 64
    ∧ (chunkCycles [(0, 64)]).all (fun k => s.covers 1 k.1 .engine k.2) = true ∧ (reduceBody (reduceCmd .running 0).desc).dstLoc = true
    ∧ (reduceBody (reduceCmd .running 0).desc).receives (s.member 5 0).glo = true
    ∧ s.handle 1 (ref50 (reduceBody (reduceCmd .running 0).desc).dst).handle = .held (slotOf .moored kindDeckA)
    ∧ (ref50 (reduceBody (reduceCmd .running 0).desc).dst).off = 512 := by decide +kernel

theorem witness_joins : let c := reduceCmd .dispatched 3
    let b := reduceBody c.desc
    let p := paramsOf b
    let s := grouped 0 grpActive 1 [c] []
    b.gives (s.member 5 0).glo = true ∧ p.chunks = 1 ∧ p.chunks ≠ 0 ∧ p.spans 0 = ((0, 64), (0, 0))
    ∧ (s.spend c (([(ref50 b.src, 64)].filter (0 < ·.2)).flatMap fun y => s.nearCost 1 y.1 y.2 false)).2 = true
    ∧ (reduceBody (desc [(24, 3 * 2 ^ 26), (32, 5 + 2 ^ 35 * 7)])).gives (s.member 5 0).glo = false
    ∧ s.co.gone = [] ∧ b.member < s.get RU_GRP_CFG.NMEMB 5 ∧ s.contained 1 = false ∧ s.te = .reset ∧ s.ho = .reset ∧ s.ps.seals = [] := by decide +kernel

theorem witness_destination_open (n : Nat) : (grouped 0 grpActive 1 [reduceCmd .dispatched 3] []).writeBarred 1 (3, 512, n) = false := by
  have normal (ln : Nat) : (grouped 0 grpActive 1 [reduceCmd .dispatched 3] []).lineKind ln = .normal := rfl
  rw [State.writeBarred, Bool.or_eq_false_iff]
  refine ⟨rfl, ?_⟩
  unfold State.protectedSpan
  split
  · simp [normal]
  · rfl

def partialDone : DoneInfo := ⟨stPartial, 0, 1, 0, 1, [0]⟩

theorem test_reduce : leads (.reduce 2) (grouped 0 grpActive 1 [reduceCmd .dispatched 3] []) (fun t =>
      t.co.seqs.map (fun x => (x.seq, x.members.map (·.complete))) == [(3, [true])] && t.get RU_GRP_STAT.OPEN 5 == 1) = true
    ∧ leads (.reduce 2) (grouped 0 grpActive 1 [reduceCmd .dispatched 4] []) (fun t => t.co.seqs == []
        && t.fe.cmds.map (·.causes) == [[(stBadDesc, 0x27)]]) = true
    ∧ leads (.contrib (groupFrame 0x30 line128)) (grouped 0 grpActive (3 + 65536 * 77) [] [seqOf0 (member0 false)]) (fun t =>
        t.co.seqs.map (fun x => x.members.map fun m => m.chunks.map (·.1)) == [[[0]]]) = true
    ∧ leads (.contrib (groupFrame 0x30 line128)) (grouped 0 grpFree (3 + 65536 * 77) [] []) (fun t => t.get RU_GRP_STAT.LATE 5 == 1) = true
    ∧ leads (.reduceChunkComplete (.seq 5 0)) (grouped 0 grpActive 1 [reduceCmd .running 0] [running0 true]) (fun t =>
        t.pm.near.byte (2 * 2 ^ 26 + 512 + 3) == 0x3F && t.pm.near.byte (2 * 2 ^ 26 + 512 + 64) == 0
          && t.fe.cmds.map (·.stage) == [.finished]) = true
    ∧ leads (.result (groupFrame 0x31 line128)) (grouped 1 grpActive 1 [reduceCmd .running 0] [running0 true]) (fun t =>
        t.pm.near.byte (2 * 2 ^ 26 + 512 + 63) == 3 && t.pm.near.byte (2 * 2 ^ 26 + 512 + 64) == 0) = true
    ∧ leads (.doneFrame (groupFrame 0x32 (donePayload partialDone).bytes)) (grouped 1 grpActive 1 [reduceCmd .running 0] [running0 true]) (fun t =>
        t.fe.cmds.map (fun c => (c.stage, c.causes)) == [(.finished, [(stPartial, 0)])]) = true
    ∧ leads (.contribTimeout 5 0) ((grouped 0 grpActive 1 [reduceCmd .running 0] [running0 false]).put RU_GRP_CFG.ON_MISSING 5 1) (fun t =>
        t.get RU_GRP_STAT.MISSING 5 == 1 && t.fe.cmds.map (·.causes) == [[(stTimeout, 0)]]) = true := by decide +kernel

theorem witness_chunk_unit : let s := grouped 0 grpActive 1 [reduceCmd .running 0] [running0 true]
    (s.reduceUnit (s.maxUnits 1 ocReduce) 0).isSome = true ∧ (reduceCmd .running 0).poisonRows = 0 ∧ (running0 true).out = noData
    ∧ collClean (groupFrame 0x30 line128) = true ∧ collClean { groupFrame 0x30 line128 with addr := BitVec.ofNat 52 (5 + 2 ^ 48) } = false
    ∧ doneClean (donePayload partialDone).bytes = true ∧ (member0 true).missing = false ∧ (member0 true).excluded = false
    ∧ hasFlag (groupFrame 0x31 line128) flagPsn = false ∧ (groupFrame 0x32 []).part.toNat = 1 := by decide +kernel

theorem test_reserved_bits : leads (.contrib { groupFrame 0x30 line128 with addr := BitVec.ofNat 52 (5 + 2 ^ 48) })
    (grouped 0 grpFree (3 + 65536 * 77) [] []) (fun t => t == grouped 0 grpFree (3 + 65536 * 77) [] []) = true := by decide +kernel

/-- A MERGE of two inputs of one row of width 32, at offsets 0 and 256 of the berth; the table at 1,024, the output at 2,048. -/
def mergeCmd (st : Stage) (inputs : Tab Payload) : Cmd :=
  { newCmd 2 5 1 5 ocMerge (desc [(0, ocMerge), (8, 3 * 2 ^ 20 + 16 + 2 ^ 44), (16, 3 * 2 ^ 26 + 2048 + 2 ^ 52 * 9 + 2 ^ 56), (24, 1 + 2 ^ 15)]) 0 with
    stage := st, inputs := inputs }

/-- The table's entries, as bytes. -/
def table2 : Payload := ⟨leBytes 8 (3 * 2 ^ 26) ++ leBytes 8 (3 * 2 ^ 26 + 256), []⟩

/-- Bytes of the berth. -/
def bytesAt (t : State) (off n : Nat) : List Byte := (List.range n).map fun i => t.pm.near.byte (2 * 2 ^ 26 + off + i)

/-- Both rows all zero but for the first element and l = 1 of the first; the second's m is −∞. -/
def mergeState (c : Cmd) : State :=
  let s := grouped 0 grpFree 0 [c] []
  let a := 2 * 2 ^ 26
  { s with pm := { s.pm with near := ((((s.pm.near.setRun a (leBytes 4 0x40000000)).setRun (a + 132) (leBytes 4 0x3F800000)).setRun (a + 384)
      (leBytes 4 0xFF800000)).setRun (a + 1024) table2.bytes) } }

theorem witness_merge : (mergeBody (mergeCmd .dispatched []).desc).nin = 2 ∧ (mergeBody (mergeCmd .dispatched []).desc).dvw = 1
    ∧ (mergeBody (mergeCmd .dispatched []).desc).ofmt = 9 ∧ (mergeBody (mergeCmd .dispatched []).desc).inList.off = 1024
    ∧ (mergeState (mergeCmd .dispatched [])).boundaryStop (mergeCmd .dispatched []) = none
    ∧ (mergeState (mergeCmd .dispatched [])).handle 1 3 = .held (slotOf .moored kindDeckA)
    ∧ (mergeState (mergeCmd .dispatched [])).readSpan 1 (mergeBody (mergeCmd .dispatched []).desc).inList 16 = table2
    ∧ mergeInputs (mergeBody (mergeCmd .dispatched []).desc) table2 = [some (3 * 2 ^ 26), some (3 * 2 ^ 26 + 256)]
    ∧ (mergeState (mergeCmd .dispatched [])).mergeBad 1 (mergeBody (mergeCmd .dispatched []).desc) (3 * 2 ^ 26 + 256) = none
    ∧ mergeInBytes (mergeBody (mergeCmd .dispatched []).desc) ≤ 4096 := by decide +kernel

theorem witness_merge_costs : let s := mergeState (mergeCmd .running [(0, table2)])
    let c := mergeCmd .running [(0, table2)]
    let b := mergeBody c.desc
    let spans := (mergeInputs b table2).flatMap fun a => match a with
      | some a => mergeSpans b (mergeRows b 0) a
      | none => []
    let costs := spans.flatMap (fun x => s.nearCost 1 x.1 x.2 false) ++ [(.engine, unitCycles (spans.map (·.2)).sum)]
    (s.spend c costs).2 = true ∧ (s.reduceUnit c.maxUnits 0).isSome = true
    ∧ ((s.spend c costs).1.spend { c with paid := [] } (s.nearCost 1 (ref50 b.oAddr) (rowsBytes b.ofmt b.nrow 32) true)).2 = true
    ∧ 0 < mergeInBytes b ∧ c.rows = [] ∧ c.step = 0 ∧ b.outLoc = true ∧ b.norm = false
    ∧ (s.spend (mergeCmd .dispatched []) (s.nearCost 1 b.inList 16 false)).2 = true
    ∧ (s.mergeBad 1 b (4 * 2 ^ 26)).isSome = true := by decide +kernel

theorem test_merge : leads (.merge 2) (mergeState (mergeCmd .dispatched [])) (fun t => t.fe.cmds.map (fun c => (c.stage, c.inputs)) ==
      [(.running, [(0, table2)])]) = true
    ∧ leads (.reduceChunkComplete (.merge 2)) (mergeState (mergeCmd .running [(0, table2)])) (fun t =>
        t.fe.cmds.map (·.stage) == [.finished] && bytesAt t 2048 4 == leBytes 4 0x40000000
          && bytesAt t 2180 4 == leBytes 4 0x3F800000) = true := by decide +kernel

/-! ## End-to-end delivery and the landing stage -/

/-- Port 7 is up and the route to endpoint 77; the module is 9. -/
def routed (role : Nat) : State :=
  let s := ((ctxAt ctxEnabled).put LK_PORT_STATUS.STATE 7 portUpState).put LK_PORT_CFG.ROLE 7 role
  { s with lp := { s.lp with routes := [(77, [7])] } }

/-- One retained frame of the flow to 77. -/
def retained (resends path : Nat) : Sent :=
  { frame := { noFrame with src := 9, dst := 77, cls := 1, vc := 1, opc := 0x10, part := 1, epoch := 1, seq := 6, tag := 4, data := line128 },
    resends := resends, path := path, owner := none, sentAt := 0 }

def flowTo (x : Sent) : FlowOut := { id := ⟨9, 77, 1⟩, nextSeq := 7, syncNext := false, unacked := [x] }

def sending (x : Sent) : State :=
  { routed 0 with lk := { Links.reset with out := [flowTo x] }, tb := { (routed 0).tb with hclk := 1000000000 } }

/-- A frame of the flow's receiver. -/
def back (seq : BitVec 24) (status : BitVec 12) : Frame :=
  { noFrame with src := 77, dst := 9, cls := 1, seq := seq, tag := 4, part := 1, ctx := status }

theorem witness_sources : (routed 0).hubUp = true ∧ (flowTo (retained 0 0)).id = flowOf (retained 0 0).frame ∧ (routed 0).pathSet 77 none = [7]
    ∧ (77 : Nat) ≠ (routed 0).modId ∧ attrMc (retained 0 0).frame = false ∧ (routed 0).te.held = [] ∧ (routed 0).co.seqs = []
    ∧ (retained 0 0).owner = none ∧ (1 : Nat) ≠ vcFwd ∧ (back 6 0).dst.toNat = 9 ∧ (back 6 0).src.toNat = 77 ∧ (1 : Nat) = vcBulk
    ∧ seqLe 6 6 = true ∧ seqLe 6 5 = false ∧ seqLe 6 (6 + 8388607) = true ∧ seqLe 6 (6 + 8388608) = false
    ∧ (routed 0).get LK_E2E_CFG.MAX_RETX = 7 ∧ ((routed 0).rankOf 1 slotCurrent 77).isSome = true ∧ (back 5 0).seq.toNat ≠ 6 := by
  decide +kernel

/-- A frame that was sent a moment ago. -/
def justSent : State := { sending (retained 0 0) with tb := { (sending (retained 0 0)).tb with hclk := 1 } }

theorem witness_resend_times : 0 + usCycles ((sending (retained 0 0)).get LK_E2E_CFG.NACK_US) ≤ 1000000000
    ∧ 0 + usCycles ((sending (retained 0 0)).get LK_E2E_CFG.RETX_US) ≤ 1000000000
    ∧ ¬ 0 + usCycles (justSent.get LK_E2E_CFG.NACK_US) ≤ justSent.tb.hclk ∧ ¬ 0 + usCycles (justSent.get LK_E2E_CFG.RETX_US) ≤ justSent.tb.hclk
    ∧ (sending (retained 0 0)).lk.waiting = [] ∧ (retained 0 0).path < 7 ∧ 7 ≤ (retained 7 7).path
    ∧ (retained 0 0).resends < (routed 0).get LK_E2E_CFG.MAX_RETX ∧ stOk = (back 6 0).ctx.toNat % 256 := by decide +kernel

theorem test_too_early : leads (.nack (back 6 0)) justSent (fun t => t == justSent) = true
    ∧ leads (.retxTimer ⟨9, 77, 1⟩ 6) justSent (fun t => t == justSent) = true := by decide +kernel

/-- The frame was staged again, marked RETX. -/
def resentOnce (t : State) : Bool :=
  t.get LK_E2E_STAT.RETX 0 == 1 && t.sc.staged.map (fun g => (g.egress, hasFlag g.frame flagRetx, g.frame.seq.toNat)) == [([7], true, 6)]

theorem test_sources : leads (.ack (back 6 0)) (sending (retained 0 0)) (fun t => t.lk.out.map (·.unacked.length) == [0]) = true
    ∧ leads (.ack (back 5 0)) (sending (retained 0 0)) (fun t => t.lk.out.map (·.unacked.length) == [1]) = true
    ∧ leads (.nack (back 6 0)) (sending (retained 0 0)) resentOnce = true
    ∧ leads (.retxTimer ⟨9, 77, 1⟩ 6) (sending (retained 6 0)) resentOnce = true
    ∧ leads (.retxTimer ⟨9, 77, 1⟩ 6) (sending (retained 7 0)) (fun t => t.get LK_E2E_STAT.FAILOVER 0 == 1
        && t.lk.out.map (fun fl => fl.unacked.map fun x => (x.resends, x.path)) == [[(0, 1)]]) = true
    ∧ leads (.retxTimer ⟨9, 77, 1⟩ 6) (sending (retained 7 7)) (fun t => t.get LK_E2E_STAT.PATH_FATAL 0 == 1
        && t.lk.out.map (fun fl => (fl.unacked.length, fl.syncNext)) == [(0, true)]) = true
    ∧ leads (.stRsp (back 6 0x08)) (sending (retained 0 0)) resentOnce = true
    ∧ leads (.stRsp (back 6 0x0E)) (sending (retained 0 0)) (fun t => t.get LK_E2E_STAT.PATH_FATAL 0 == 1) = true := by decide +kernel

/-- A flow from 77 that has passed SEQ 6 on. -/
def flowFrom (since : Nat) (owes : Bool) : FlowIn :=
  { id := ⟨77, 9, 1⟩, start := some 0, passed := 6, held := [], sinceAck := since, owes := owes, maxCe := 2, part := 1, epoch := 1 }

/-- One frame of it waits at a resequencer. -/
def heldFrame (pt : ReseqPoint) : Staged :=
  { frame := { noFrame with src := 77, dst := 9, cls := 1, seq := 9 }, acct := 1, sub := 4103, egress := [512], ingress := some 7,
    held := some pt, owner := none, forms := [] }

def receiving (since : Nat) (owes : Bool) (held : List Staged) : State :=
  { routed 0 with lk := { Links.reset with inn := [flowFrom since owes] },
                  sc := { SwitchCore.reset with staged := held, passed := [⟨7, ⟨77, 9, 1⟩, 3⟩] } }

theorem witness_destinations : (receiving 1 false []).flowIn ⟨77, 9, 1⟩ = some (flowFrom 1 false) ∧ (flowFrom 0 true).owes = true
    ∧ (flowFrom 0 false).start.isSome = true ∧ (receiving 0 false [heldFrame .delivery]).heldSeqs .delivery ⟨77, 9, 1⟩ = [9]
    ∧ (receiving 0 false []).heldSeqs .delivery ⟨77, 9, 1⟩ = [] ∧ (receiving 0 false [heldFrame (.egress 7)]).heldSeqs (.egress 7) ⟨77, 9, 1⟩ = [9]
    ∧ (receiving 0 false []).pathSet 77 none = [7] := by decide +kernel

def sentBack (t : State) (opc : BitVec 8) (seq : Nat) : Bool :=
  t.sc.staged.map (fun g => (g.frame.opc, g.frame.seq.toNat, g.frame.dst.toNat, g.egress)) == [(opc, seq, 77, [7])]

theorem test_destinations : leads (.ackTimer ⟨77, 9, 1⟩) (receiving 1 false []) (fun t => sentBack t 0x60 6
      && t.lk.inn.map (·.sinceAck) == [0]) = true
    ∧ leads (.ackTimer ⟨77, 9, 1⟩) (receiving 0 true []) (fun t => sentBack t 0x60 6) = true
    ∧ leads (.ackTimer ⟨77, 9, 1⟩) (receiving 0 false []) (fun t => t.sc.staged == []) = true
    ∧ leads (.gapNackTimer ⟨77, 9, 1⟩) (receiving 0 false [heldFrame .delivery]) (fun t =>
        t.sc.staged.map (fun g => (g.frame.opc, g.frame.seq.toNat)) == [(0, 9), (0x61, 7)]) = true
    ∧ leads (.reseqGapTimeout (.egress 7) ⟨77, 9, 1⟩) (receiving 0 false [heldFrame (.egress 7)]) (fun t =>
        t.sc.staged.map (·.held) == [none] && t.passedPoint 7 ⟨77, 9, 1⟩ == some 9) = true
    ∧ leads (.reseqGapTimeout .delivery ⟨77, 9, 1⟩) (receiving 0 false [heldFrame .delivery]) (fun t => t.sc.staged == []) = true
    ∧ leads (.reseqFlowEvict 7 ⟨77, 9, 1⟩) (receiving 0 false []) (fun t => t.sc.passed == []) = true := by decide +kernel

/-- A store of rank 2 from port 8 of partition 1. -/
def fromRank (dst : BitVec 16) (part : BitVec 6) : Frame :=
  sealHeader { noFrame with opc := 0x10, cls := 1, vc := 1, dst := dst, part := part, len := 128, data := line128 }

def arriving : State :=
  let s := ((routed 2).put LK_PORT_STATUS.STATE 8 portUpState).put LP_PORT_CFG.PART 8 1
  s.put LP_PORT_CFG.EP_ID 8 78

theorem witness_forward : arriving.portUp 8 = true ∧ (fromRank 2 0).hcrc = hcrcOf (fromRank 2 0) ∧ arriving.protoOk 8 (fromRank 2 0) = true
    ∧ ({ fromRank 2 0 with hcrc := ~~~ (fromRank 2 0).hcrc } : Frame).hcrc ≠ hcrcOf (fromRank 2 0)
    ∧ arriving.protoOk 8 { fromRank 2 0 with len := 127 } = false ∧ (1 : Nat) ≠ vcTime ∧ (1 : Nat) ≠ vcMgmt ∧ isAckNack (fromRank 2 0) = false
    ∧ arriving.get LK_PORT_CFG.ROLE 8 = 0 ∧ arriving.flag LP_PORT_CFG.FENCE 8 = false ∧ arriving.mapped 1 slotCurrent 2 = 77
    ∧ arriving.mapped 1 slotCurrent 4095 = 0 ∧ isNonPosted (fromRank 4095 0) = false
    ∧ arriving.pathSet 77 (some 8) = [7] ∧ arriving.get LK_PORT_CFG.ROLE 7 = 2 ∧ arriving.flag LP_PORT_CFG.FENCE 7 = false
    ∧ attrPin (fromRank 2 0) = false := by decide +kernel

theorem witness_frames : ({ fromRank 2 0 with cls := 7 } : Frame).cls.toNat = vcTime ∧ isAckNack { fromRank 2 0 with cls := 7 } = false
    ∧ arriving.protoOk 8 (sealHeader { fromRank 2 0 with cls := 7 }) = false ∧ ((fromRank 2 1).part ≠ 0)
    ∧ (fromRank 2 0).epoch = 0 ∧ (fromRank 2 0).src = 0 ∧ (fromRank 2 0).dst.toNat < 4096 ∧ attrMc (fromRank 2 0) = false
    ∧ (77 : Nat) < 65536 ∧ arriving.get LP_PORT_CFG.PART 8 < 64 ∧ (77 : Nat) ≠ arriving.modId := by decide +kernel

theorem test_forward : leads (.frameForward 8 { fromRank 2 0 with hcrc := ~~~ (fromRank 2 0).hcrc }) arriving (fun t => t.get LK_PORT_ERR.HCRC 8 == 1) = true
    ∧ leads (.frameForward 8 (sealHeader { fromRank 2 0 with len := 64 })) arriving (fun t => t.get LK_PORT_ERR.PROTO 8 == 1) = true
    ∧ leads (.frameForward 8 (fromRank 2 1)) arriving (fun t => t.get LP_PART_STAT.STAMP 1 == 1) = true
    ∧ leads (.frameForward 8 (fromRank 4096 0)) arriving (fun t => t.get LP_PART_STAT.STAMP 1 == 1) = true
    ∧ leads (.frameForward 8 (fromRank 4095 0)) arriving (fun t => t.get LP_PART_STAT.UNMAPPED 1 == 1) = true
    ∧ leads (.frameForward 8 (fromRank 2 0)) arriving (fun t => t.sc.staged.map (fun g => (g.egress, g.frame.dst.toNat, g.frame.src.toNat,
        g.frame.part.toNat, g.frame.epoch.toNat, g.frame.hops.toNat)) == [([7], 77, 78, 1, 1, 1)]) = true := by decide +kernel

/-- Rank 3 of partition 1 has the ID 80 in the STAGED map; epoch 1 is current and the previous one retired. -/
def mapping : State :=
  let s := { routed 0 with lp := { Landing.reset with maps := [(mapKey 1 slotStaged 3, 80), (mapKey 1 slotCurrent 2, 77)] } }
  ((s.put LP_MAP_DATA.VALID 0 1).put LP_MAP_DATA.EP_ID 0 79).put LP_ROUTE_DATA.NPATH 0 2 |>.put LP_ROUTE_DATA.PORT 1 5

theorem witness_maps : mapping.get LP_EPOCH.CUR 1 = 1 ∧ mapping.flag LP_EPOCH.RETIRED 1 = true ∧ mapping.get LP_EPOCH.STAGED_EPOCH 1 = epochNext 1
    ∧ epochNext 255 = 1 ∧ epochNext 254 = 255 ∧ (mapping.put LP_EPOCH.RETIRED 1 0).flag LP_EPOCH.RETIRED 1 = false
    ∧ (mapping.put LP_EPOCH.STAGED_EPOCH 1 9).get LP_EPOCH.STAGED_EPOCH 1 ≠ epochNext (mapping.get LP_EPOCH.CUR 1)
    ∧ (mapping.put LP_EPOCH.RETIRED 1 0).prevInflight 1 = 0 ∧ mapping.lk.out = [] ∧ mapping.lk.waiting = [] ∧ mapping.fe.cmds = []
    ∧ mapping.ho = .reset ∧ mapping.te = .reset ∧ mapping.flag LP_PORT_CFG.FENCE 511 = false ∧ (0x1FFFF#64).getLsbD 16 = true
    ∧ (0x0FFFF#64).getLsbD 16 = false ∧ (BitVec.ofNat 64 (2 ^ 20 + 4096 + 7)).getLsbD 20 = true
    ∧ (BitVec.ofNat 64 (2 ^ 20 + 4096 + 7)).extractLsb' 18 2 = 0#2 ∧ (BitVec.ofNat 64 (2 ^ 20 + 2 ^ 18 + 7)).extractLsb' 18 2 ≠ 0#2 := by decide +kernel

/-- A frame of endpoint 77 waits for port 7. -/
def queuedAt7 : BufFrame :=
  { fid := 0, frame := { noFrame with src := 77, part := 1, cls := 1, vc := 1, opc := 0x10 }, acct := 1, chain := [0], shared := true, sub := 4103,
    egress := [7], held := none, admitted := 0, owner := none, forms := [], gateHeld := false }

theorem test_maps : leads (.routeWrite 0 0x10007#64) mapping (fun t => Tab.get [] t.lp.routes 7 == [0, 5]) = true
    ∧ leads (.routeWrite 0 0x00007#64) mapping (fun t => t.lp == mapping.lp && t.get LP_ROUTE_SEL.ID 0 == 7) = true
    ∧ leads (.mapWrite 0 (BitVec.ofNat 64 (2 ^ 20 + 4096 + 7))) mapping (fun t => t.mapped 1 slotStaged 7 == 79) = true
    ∧ leads (.mapWrite 0 (BitVec.ofNat 64 (2 ^ 20 + 2 ^ 18 + 4096 + 7))) mapping (fun t => t.get LP_EPOCH.REFUSED 1 == 1 && t.lp == mapping.lp) = true
    ∧ leads (.epochActivate 1) mapping (fun t => t.get LP_EPOCH.CUR 1 == 2 && t.get LP_EPOCH.PREV 1 == 1
        && t.mapped 1 slotCurrent 3 == 80 && t.mapped 1 slotCurrent 2 == 0 && t.mapped 1 slotPrevious 2 == 77) = true
    ∧ leads (.epochActivate 1) (mapping.put LP_EPOCH.RETIRED 1 0) (fun t => t.get LP_EPOCH.REFUSED 1 == 1) = true
    ∧ leads (.epochRetire 1 false) (after (.epochActivate 1) mapping) (fun t => t.get LP_EPOCH.RETIRED 1 == 1 && t.mapped 1 slotPrevious 2 == 0) = true
    ∧ leads (.portFence 7) { mapping with sc := { SwitchCore.reset with frames := [queuedAt7] } } (fun t => t.flag LP_PORT_CFG.FENCE 7
        && t.sc.frames == [] && t.get LP_PART_STAT.FENCED 1 == 1) = true := by decide +kernel

/-! ## Gangway ports -/

/-- Port 8, cabled, x4 wide: its state, what runs at it, and its width code in use. -/
def linked (st up : Nat) (x : Port) : State :=
  let s := ((ready.put LK_PORT_STATUS.STATE 8 st).put LK_PORT_STATUS.WIDTH_UP 8 up).put LK_PORT_CFG.ENABLE 8 1
  (s.put LK_CBL_STATUS.GROUP_PRSNT 0 4).setPort 8 x

/-- A training port in a step of its n-th attempt. -/
def inStep (step attempts : Nat) : Port := { Port.reset with step := step, attempts := attempts }

/-- The port's lane 8 has a bound and cabled spare. -/
def spared (s : State) : State := (s.put LK_PORT_CFG.SPARE_BOUND 8 1).put LK_CBL_STATUS.SPARE_PRSNT 0 1

/-- Neither sparing nor downshift. -/
def rigid (s : State) : State := s.put LK_PORT_CFG.PROFILE 8 3

/-- Parameters of an ENDPOINT peer. -/
def params : LParam := { ver := 1, typ := 0, width := 2, spare := false, pool := 5, rcred := List.replicate 8 32, floor := 33, pages := 0, uid := 1, stage := 0, rsv := 0 }

def agreed : Port := { inStep 5 1 with agreed := 3, resv := List.replicate 8 32, floor := List.replicate 8 33 }

theorem witness_training : (ready.put LK_PORT_CFG.WIDTH 8 3).noOverlap 8 3 = true ∧ (8 : Nat) % 128 % 2 ^ 3 = 0 ∧ (4 : Nat) % 128 % 2 ^ 3 ≠ 0
    ∧ (linked portDisabled 0 (inStep 0 0)).noOverlap 8 2 = true ∧ (linked portDisabled 0 (inStep 0 0)).noOverlap 10 1 = false
    ∧ (linked portTraining 2 (inStep 3 0)).port 8 = inStep 3 0 ∧ (linked portTraining 2 (inStep 3 0)).get LK_PORT_STATUS.STATE 8 = portTraining
    ∧ paramDone agreed = true ∧ paramDone (inStep 5 0) = false ∧ (spared (linked portTraining 2 (inStep 3 0))).spareUsable 8 = true
    ∧ (linked portTraining 2 (inStep 3 0)).spareUsable 8 = false ∧ (linked portTraining 2 (inStep 3 0)).downshiftOn 8 = true
    ∧ (rigid (linked portTraining 2 (inStep 3 0))).downshiftOn 8 = false ∧ (rigid (linked portTraining 2 (inStep 3 0))).spareUsable 8 = false
    ∧ (linked portTraining 2 (inStep 3 0)).cabled 8 = true ∧ (linked portTraining 2 (inStep 3 0)).flag LK_PORT_CFG.ENABLE 8 = true
    ∧ params.rcred.length = 8 ∧ params.typ = (linked portTraining 2 agreed).get LK_PORT_CFG.ROLE 8
    ∧ (∀ l ∈ [11], 8 / 128 * 132 + l ∉ portLanes 8 1) ∧ ¬ (∀ l ∈ [11], 8 / 128 * 132 + l ∉ portLanes 8 2) := by decide +kernel

/-- What the peer of a port of a role must offer. -/
def fitsRole (q : LParam) (role : Nat) : Bool :=
  q.rcred.length == 8 && q.rcred.all (32 ≤ ·) && decide (33 ≤ q.floor) && (if role = 1 then decide (1 ≤ q.pages) else q.pages == 0)

theorem witness_params : params.rsv = 0 ∧ params.ver = 1 ∧ params.width = (linked portTraining 2 (inStep 5 0)).get LK_PORT_STATUS.WIDTH_UP 8
    ∧ fitsRole params 0 = true ∧ fitsRole { params with pages := 1 } 0 = false ∧ fitsRole { params with pages := 0 } 1 = false
    ∧ ({ params with width := 3 } : LParam).width ≠ 2 ∧ ({ params with rsv := 1 } : LParam).rsv ≠ 0
    ∧ sameParams { inStep 5 0 with resv := List.replicate 8 32, floor := List.replicate 8 33, pool := 5, uid := 1, agreed := 1 } params = true
    ∧ 0 < agreed.agreed ∧ (inStep 5 0).agreed = 0 ∧ (spared (linked portTraining 2 (inStep 3 0))).get LK_PORT_CFG.SPARE_SEL 8 < 4 := by
  decide +kernel

theorem test_reserved_lparam : leads (.lparam 8 { params with rsv := 1 }) (linked portTraining 2 (inStep 5 0)) (fun t =>
      t == (linked portTraining 2 (inStep 5 0)).bump LK_PORT_ERR.PROTO 8 1) = true
    ∧ leads (.lparam 8 { params with width := 3 }) (linked portTraining 2 (inStep 5 0)) (fun t => t.get LK_PORT_STATUS.FAIL_CAUSE 8 == 5) = true := by
  decide +kernel

def standsAt (t : State) (st step attempts : Nat) : Bool :=
  t.get LK_PORT_STATUS.STATE 8 == st && (t.port 8).step == step && (t.port 8).attempts == attempts

theorem test_training : leads (.portEnable 8) (ready.put LK_CBL_STATUS.GROUP_PRSNT 0 4) (fun t => standsAt t portTraining 1 0
      && t.get LK_LANE_STATUS.PORT 11 == 8) = true
    ∧ leads (.portEnable 8) (ready.put LK_CBL_STATUS.GROUP_PRSNT 0 0) (fun t => standsAt t portTraining 0 0) = true
    ∧ leads (.portEnable 9) ready (fun t => t.get LK_PORT_CFG.REFUSED 9 == 1) = true
    ∧ leads (.trainingStepDone 8) (linked portTraining 2 (inStep 4 0)) (fun t => standsAt t portTraining 5 0 && t.out.length == 1) = true
    ∧ leads (.trainingStepDone 8) (linked portTraining 2 agreed) (fun t => standsAt t portUpState 0 0 && t.modState == modReady) = true
    ∧ leads (.trainingStepDone 8) (linked portTraining 1 agreed) (fun t => standsAt t portDownshifted 0 0 && t.modState == modDegraded) = true
    ∧ leads (.trainingStepTimeout 8 [11]) (spared (linked portTraining 2 (inStep 3 0))) (fun t => standsAt t portTraining 4 0
        && t.flag LK_PORT_STATUS.SPARED 8 && t.get LK_LANE_STATUS.STATE 11 == 2) = true
    ∧ leads (.trainingStepTimeout 8 [11]) (linked portTraining 2 (inStep 3 0)) (fun t => standsAt t portTraining 4 0
        && t.get LK_PORT_STATUS.WIDTH_UP 8 == 1) = true
    ∧ leads (.trainingStepTimeout 8 [8]) (linked portTraining 2 (inStep 3 2)) (fun t => standsAt t portFailed 0 3
        && t.get LK_PORT_STATUS.FAIL_CAUSE 8 == 3) = true
    ∧ leads (.trainingStepTimeout 8 []) (linked portTraining 2 (inStep 4 1)) (fun t => standsAt t portTraining 0 2) = true
    ∧ leads (.lparam 8 params) (linked portTraining 2 (inStep 5 0)) (fun t => (t.port 8).pool == 5 && (t.port 8).agreed == 1) = true
    ∧ leads (.lparam 8 { params with ver := 2 }) (linked portTraining 2 (inStep 5 0)) (fun t => t.get LK_PORT_STATUS.FAIL_CAUSE 8 == 7) = true
    ∧ leads (.lparam 8 { params with typ := 1 }) (linked portTraining 2 (inStep 5 0)) (fun t => t.get LK_PORT_STATUS.FAIL_CAUSE 8 == 6) = true
    ∧ leads (.lparam 8 { params with floor := 32 }) (linked portTraining 2 (inStep 5 0)) (fun t => t.get LK_PORT_STATUS.FAIL_CAUSE 8 == 5) = true
    ∧ leads (.trainingRetry 8) (linked portFailed 2 (inStep 0 3)) (fun t => standsAt t portTraining 1 3) = true := by decide +kernel

def repairing (action : Nat) : Port := { Port.reset with repair := some (11, action), peerSpare := true }

theorem witness_lanes : (linked portUpState 2 Port.reset).portUp 8 = true ∧ (linked portRepair 2 Port.reset).portUp 8 = false
    ∧ (linked portUpState 2 Port.reset).portOfLane 11 = some 8 ∧ (linked portUpState 2 Port.reset).portOfLane 12 = none
    ∧ (linked portUpState 2 Port.reset).laneCabled 11 = true ∧ (linked portUpState 2 Port.reset).laneCabled 12 = false
    ∧ ((linked portUpState 2 Port.reset).put LK_CBL_STATUS.GROUP_PRSNT 0 0).laneCabled 11 = false
    ∧ (spared (linked portUpState 2 (repairing 0))).spareUsable 8 = true ∧ ((linked portRepair 2 (repairing 0)).port 8).repair = some (11, 0)
    ∧ ((linked portRepair 2 (repairing 1)).port 8).repair = some (11, 1) ∧ (linked portUpState 2 Port.reset).enabledPorts = [8]
    ∧ (11 ∈ portLanes 8 2 ∧ 11 / 132 = 0 ∧ 11 % 132 / 4 = 2) ∧ (0x2C#64).extractLsb' 2 8 = 11#8 ∧ (0x2C#64).extractLsb' 0 2 = 0#2 := by
  decide +kernel

theorem witness_repairs : (linked portUpState 2 Port.reset).port 8 = Port.reset ∧ Port.reset.waiting = [] ∧ (repairing 0).waiting = []
    ∧ (linked portRepair 2 (repairing 0)).portOfLane 10 = some 8 ∧ (linked portRepair 2 (repairing 0)).laneCabled 10 = true
    ∧ (linked portUpState 2 Port.reset).get LK_PORT_STATUS.WIDTH_UP 8 < 4 ∧ (linked portUpState 2 Port.reset).get LK_PORT_CFG.SPARE_SEL 8 < 4 := by
  decide +kernel

/-- A lane that fails during a repair waits for its end (R289). -/
theorem test_second_failure_waits : leads (.laneFailure 0 10) (linked portRepair 2 (repairing 0)) (fun t =>
    (t.port 8).waiting == [10] && (t.port 8).repair == some (11, 0)) = true := by decide +kernel

theorem test_lanes : leads (.linkLost 8) (linked portUpState 2 agreed) (fun t => standsAt t portTraining 1 0 && (t.port 8).resv == List.replicate 8 0) = true
    ∧ leads (.portDisable 8) (linked portUpState 2 agreed) (fun t => standsAt t portDisabled 0 0 && !t.flag LK_PORT_CFG.ENABLE 8) = true
    ∧ leads (.laneFailure 0 11) (spared (linked portUpState 2 { Port.reset with peerSpare := true })) (fun t =>
        t.out == [.link 8 0x65 [11, 0]] && t.get LK_PORT_STATUS.STATE 8 == portRepair) = true
    ∧ leads (.laneFailure 0 11) (linked portUpState 2 Port.reset) (fun t => t.out == [.link 8 0x65 [11, 1]]) = true
    ∧ leads (.laneFailure 0 11) (rigid (linked portUpState 2 Port.reset)) (fun t => standsAt t portTraining 1 0 && t.get LK_LANE_STATUS.STATE 11 == 2) = true
    ∧ leads (.lkLaneRetire 0 0x2C#64) (linked portUpState 2 Port.reset) (fun t => t.out == [.link 8 0x65 [11, 1]]) = true
    ∧ leads (.lkLaneRetire 0 0x30#64) (linked portUpState 2 Port.reset) (fun t => t.out == []) = true
    ∧ leads (.laneCtl 8 11 ⟨0, 0⟩) (spared (linked portUpState 2 Port.reset)) (fun t => t.flag LK_PORT_STATUS.SPARED 8 && t.out == [.link 8 0x65 [11, 2]]
        && standsAt t portUpState 0 0) = true
    ∧ leads (.laneCtl 8 11 ⟨1, 0⟩) (linked portUpState 2 Port.reset) (fun t => t.get LK_PORT_STATUS.WIDTH_UP 8 == 1 && t.modState == modDegraded
        && standsAt t portDownshifted 0 0) = true
    ∧ leads (.laneCtl 8 0 ⟨2, 0⟩) (linked portRepair 2 (repairing 1)) (fun t => t.get LK_PORT_STATUS.WIDTH_UP 8 == 1 && standsAt t portDownshifted 0 0) = true
    ∧ leads (.laneCtlTimeout 8) (linked portRepair 2 (repairing 1)) (fun t => standsAt t portTraining 1 0) = true
    ∧ leads (.cblPrsntN 0 2 false 10) (linked portUpState 2 Port.reset) (fun t => standsAt t portTraining 0 0 && t.get LK_CBL_STATUS.GROUP_PRSNT 0 == 0) = true
    ∧ leads (.cblPrsntN 0 2 true 10) ((linked portTraining 2 Port.reset).put LK_CBL_STATUS.GROUP_PRSNT 0 0) (fun t => standsAt t portTraining 1 0) = true
    ∧ leads (.cblPrsntN 0 2 false 9) (linked portUpState 2 Port.reset) (fun t => standsAt t portUpState 0 0) = true
    ∧ leads (.sprPrsntN 3 true 10) ready (fun t => t.get LK_CBL_STATUS.SPARE_PRSNT 3 == 1) = true := by decide +kernel

/-- A frame on VC 1 of partition 1 took 2 reserved, 3 pool and 1 floor credits. -/
def owed : Port :=
  { agreed with resv := List.replicate 8 30, pool := 7, poolUse := [(1, 3)], taken := [⟨1, 1, 2, 3, 1⟩], counts := [0, 65533, 0, 0, 0, 0, 0, 0],
                freed := [1, 2, 3, 4, 5, 6, 7, 8] }

theorem witness_credits : (owed.counts.getD 1 0 + (2 + 3 + 1)) % 65536 = 3 ∧ owed.resv.length = 8 ∧ owed.floor.length = 8
    ∧ (linked portUpState 2 owed).port 8 = owed := by decide +kernel

theorem test_credits : leads (.creditSend 8) (linked portUpState 2 owed) (fun t => t.out == [.link 8 0x62 [1, 2, 3, 4, 5, 6, 7, 8]]) = true
    ∧ leads (.credit 8 ⟨[0, 3, 0, 0, 0, 0, 0, 0], 0⟩) (linked portUpState 2 owed) (fun t => (t.port 8).pool == 10 && (t.port 8).taken == []
        && (t.port 8).resv.getD 1 0 == 32 && (t.port 8).floor.getD 1 0 == 34 && Tab.get 0 (t.port 8).poolUse 1 == 0) = true
    ∧ leads (.credit 8 ⟨owed.counts, 0⟩) (linked portUpState 2 owed) (fun t => t.port 8 == owed) = true
    ∧ leads (.codewordUncorrectable 8 3) (linked portUpState 2 owed) (fun t => t.get LK_PORT_ERR.UCW 8 == 1 && t.get LK_LANE_STATUS.UCW 3 == 1) = true
    ∧ leads (.creditSend 8) (linked portTraining 2 owed) (fun t => t.out == []) = true := by decide +kernel

/-- One codeword of a lane that cannot be corrected retires it. -/
def fragile : State := (linked portUpState 2 owed).put LK_E2E_CFG.UCW_RETIRE 0 1

theorem witness_codewords : let key := LK_LANE_STATUS.UCW.id + 1024 * (8 / 128 * 132 + 11)
    ((linked portUpState 2 owed).noteEvent key secondCycles).recentCount key secondCycles < (linked portUpState 2 owed).get LK_E2E_CFG.UCW_RETIRE
    ∧ fragile.get LK_E2E_CFG.UCW_RETIRE ≤ (fragile.noteEvent key secondCycles).recentCount key secondCycles
    ∧ fragile.portUp 8 = true ∧ (linked portTraining 2 owed).portUp 8 = false ∧ 0 < 2 + 3 + 1 ∧ owed.taken = [⟨1, 1, 2, 3, 1⟩] := by
  decide +kernel

theorem test_codewords_retire : leads (.codewordUncorrectable 8 11) fragile (fun t => t.get LK_PORT_ERR.UCW 8 == 1
      && t.out == [.link 8 0x65 [11, 1]]) = true
    ∧ leads (.credit 8 ⟨owed.counts, 1⟩) (linked portUpState 2 owed) (fun t => t.get LK_PORT_ERR.PROTO 8 == 1 && t.port 8 == owed) = true := by
  decide +kernel

/-- Frames of a stream: a STORE of 128 bytes, whose header is right, and words that begin none. -/
theorem witness_codeword_streams : Port.reset.tx.bytes.length < 640 ∧ (fromRank 2 0).ver = 1#4 ∧ (fromRank 2 0).hcrc = hcrcOf (fromRank 2 0)
    ∧ (fromRank 2 0).data.length % 8 = 0 ∧ (fromRank 2 0).data.length = (fromRank 2 0).len.toNat ∧ (fromRank 2 0).opc ≠ 0x01#8
    ∧ wordVer (List.replicate 8 0) = 0 ∧ 1 < wordVer (List.replicate 8 0x22) := by decide +kernel

theorem witness_skews : [20, 21, 22, 23].Perm ((List.range 4).map fun l => (4 * (5 + 0) + l) % 4096)
    ∧ [40, 21, 22, 23].Perm ((List.range 4).map fun l => (4 * (5 + if l = 0 then 5 else 0) + l) % 4096) := by
  constructor <;> decide

theorem test_skews : deskewOk 4 [20, 21, 22, 23] = true ∧ deskewOk 4 [36, 21, 22, 23] = true ∧ deskewOk 4 [40, 21, 22, 23] = false
    ∧ deskewOk 4 [23, 20, 22, 21] = true ∧ deskewOk 2 [4095, 0] = true := by decide +kernel

/-! ## Switch core and traffic manager -/

/-- One frame waits for admission on a path. -/
def waits (held : Option ReseqPoint) : Staged :=
  { frame := { noFrame with part := 1, cls := 1, vc := 1, opc := 0x10, src := 77, dst := 80, data := line128 }, acct := 1, sub := 4103,
    egress := [7], ingress := some 8, held := held, owner := none, forms := [] }

def switching (staged : List Staged) (frames : List BufFrame) : State :=
  { (routed 2).put PT_CFG.FARE_EN 0 0 with sc := { SwitchCore.reset with staged := staged, frames := frames } }

/-- Partition 1 has used its share and the VC's reserve is as full as said. -/
def crowded (reserve : Nat) : State :=
  let s := (switching [waits none] [{ queuedAt7 with chain := List.range reserve, shared := false }]).put SC_PART_BUF.PROFILE 1 0
  s.put SC_PART_BUF.BUF_MAX 1 0

/-- A thousand seconds on. -/
def aged (s : State) : State := { s with tb := { s.tb with hclk := 1200000000000 } }

theorem witness_admission : (waits none).egress.filter ((switching [] []).egressOpen false) = [7] ∧ ([7] : List Nat).filter ((mapping.put LK_PORT_STATUS.STATE 7 0).egressOpen false) = []
    ∧ (switching [] []).faresBind = false ∧ (((routed 2).put PT_CFG.FARE_EN 0 1).faresBind = true ∧ ((routed 2).put PT_CFG.FARE_EN 0 1).fare 1 .link = 0)
    ∧ (switching [] []).queuesOk (waits none).frame 4103 [7] = true ∧ frameCells (waits none).frame = 1
    ∧ (switching [] []).sharedUse 1 + 1 ≤ (switching [] []).bufMax 1 ∧ 1 + (switching [] []).unusedMins 1 ≤ (switching [] []).get SC_STATUS.FREE_CELLS
    ∧ ¬ ((crowded 33).sharedUse 1 + 1 ≤ (crowded 33).bufMax 1) ∧ 1 + (crowded 33).reserveUse 1 1 = 34 ∧ 1 + (crowded 34).reserveUse 1 1 = 35
    ∧ ((switching [] []).put TM_PART_CFG.PROFILE 1 0 |>.put TM_PART_CFG.FQ_MAX 1 0).queuesOk (waits none).frame 4103 [7] = false := by decide +kernel

/-- Only 522 banks exist, so a check of those is a check of all. -/
theorem no_bank_drains (s : State) (h : ∀ k, k < 522 → s.get SC_BANK_STATUS.STATE k ≠ 2) : ∀ k, s.get SC_BANK_STATUS.STATE k ≠ 2 := by
  intro k
  by_cases hk : k < 522
  · exact h k hk
  · simp [State.get, SC_BANK_STATUS.STATE, hk]

theorem witness_banks_at_rest : ∀ k, (switching [waits none] []).get SC_BANK_STATUS.STATE k ≠ 2 := no_bank_drains _ (by decide +kernel)

/-- A frame for a port that has been fenced. -/
def fencedOff : State := (switching [waits none] []).put LP_PORT_CFG.FENCE 7 1

theorem witness_drops : (waits none).egress.filter (fencedOff.egressOpen (attrMc (waits none).frame)) = [] ∧ attrMc (waits none).frame = false
    ∧ fencedOff.flag LP_PORT_CFG.FENCE 7 = true ∧ (switching [waits none] []).egressOpen (attrMc (waits none).frame) 7 = true
    ∧ 1 ≤ ((switching [waits none] []).allocate 1).length ∧ ¬ 1 ≤ (((switching [waits none] []).put SC_STATUS.FREE_CELLS 0 0).get SC_STATUS.FREE_CELLS)
    ∧ ¬ (switching [waits none] []).get TM_CFG.CE_KB * 1024 < (switching [waits none] []).serviceBytes 7 9
    ∧ ((switching [waits none] [queuedAt7]).put TM_CFG.CE_KB 0 0).get TM_CFG.CE_KB * 1024
        < ((switching [waits none] [queuedAt7]).put TM_CFG.CE_KB 0 0).serviceBytes 7 9
    ∧ 0 + usCycles ((switching [] []).get SC_CFG.AGE_US) ≤ (aged (switching [] [])).tb.hclk
    ∧ (switching [] []).tb.hclk < 0 + usCycles ((switching [] []).get SC_CFG.AGE_US) ∧ (waits none).ingress = some 8 := by decide +kernel

theorem test_drops : leads (.bufferAdmission 0) fencedOff (fun t => t.sc.frames == [] && t.get LP_PART_STAT.FENCED 1 == 1) = true
    ∧ leads (.frameAgeOut 0) (switching [] [queuedAt7]) (fun t => t == switching [] [queuedAt7]) = true := by decide +kernel

theorem test_admission : leads (.bufferAdmission 0) (switching [waits none] []) (fun t => t.sc.frames.map (fun b => (b.shared, b.chain.length, b.egress)) == [(true, 1, [7])]
      && t.sc.staged == [] && t.get SC_PART_OCC.USED 1 == 1 && (t.port 8).freed.getD 1 0 == 3) = true
    ∧ leads (.bufferAdmission 0) (crowded 33) (fun t => t.sc.frames.map (·.shared) == [false, false]) = true
    ∧ leads (.bufferAdmission 0) (crowded 34) (fun t => t.sc.staged == [waits none]) = true
    ∧ leads (.bufferAdmission 0) ((switching [waits none] []).put LK_PORT_STATUS.STATE 7 0) (fun t => t.sc.staged == [] && t.sc.frames == []) = true
    ∧ leads (.bufferAdmission 0) ((switching [waits none] []).put PT_CFG.FARE_EN 0 1) (fun t => t.sc.staged == [] && t.get SC_PART_DROP.NOFARE 1 == 1) = true
    ∧ leads (.bufferAdmission 1) (switching [waits none, waits none] []) (fun t => t.sc.staged.length == 2) = true
    ∧ leads (.frameAgeOut 0) (aged ((switching [] [queuedAt7]).put SC_PART_OCC.USED 1 1)) (fun t => t.sc.frames == [] && t.get SC_PART_DROP.AGED 1 == 1
        && t.get SC_PART_OCC.USED 1 == 0) = true := by decide +kernel

/-- The port's peer has credits. -/
def open7 (frames : List BufFrame) : State := (switching [] frames).setPort 7 { agreed with step := 0 }

def rival : BufFrame := { queuedAt7 with fid := 1, frame := { queuedAt7.frame with part := 2, vc := 1 }, acct := 2 }

def consumer : BufFrame := { queuedAt7 with egress := [512] }

theorem witness_select : (open7 [queuedAt7]).eligible 7 queuedAt7 = true ∧ (open7 [consumer]).eligible 512 consumer = true
    ∧ ((open7 [queuedAt7]).put LP_PORT_CFG.FENCE 7 0).portUp 7 = true ∧ (switching [] [queuedAt7]).eligible 7 queuedAt7 = false
    ∧ serviceOf queuedAt7.frame = 9 ∧ serviceOf rival.frame = 17 ∧ (open7 [rival]).eligible 7 rival = true
    ∧ frameCredits queuedAt7.frame ≤ ((open7 []).port 7).resv.getD 1 0 ∧ tagLe 5 6 = true ∧ tagLe (2 ^ 64 - 1) 0 = true := by decide +kernel

theorem witness_egress_banks : (∀ k, (open7 [queuedAt7]).get SC_BANK_STATUS.STATE k ≠ 2) ∧ ∀ k, (open7 [consumer]).get SC_BANK_STATUS.STATE k ≠ 2 :=
  ⟨no_bank_drains _ (by decide +kernel), no_bank_drains _ (by decide +kernel)⟩

theorem test_select : leads (.frameSelect 7 none) (open7 [queuedAt7]) (fun t => t.sc.frames == [] && t.out == [.frame 7 (sealHeader queuedAt7.frame)]
      && (t.port 7).resv.getD 1 0 == 31) = true
    ∧ leads (.frameSelect 512 none) (open7 [consumer]) (fun t => t.out == [.deliver 512 consumer.frame]) = true
    ∧ leads (.frameSelect 7 (some (521, true))) (open7 [queuedAt7]) (fun t => t.sc.frames == [] && t.out == [] && t.get SC_PART_DROP.ECC 1 == 1
        && t.get SC_BANK_STATUS.UE 521 == 1) = true
    ∧ leads (.frameSelect 7 none) (switching [] [queuedAt7]) (fun t => t.sc.frames.length == 1 && t.out == []) = true
    ∧ leads (.frameSelect 7 none) (open7 [rival, queuedAt7]) (fun t => t.sc.frames.map (·.fid) == [1]) = true
    ∧ leads (.frameSelect 7 none) (after (.frameSelect 7 none) (open7 [queuedAt7, { queuedAt7 with fid := 2 }, rival])) (fun t =>
        t.sc.frames.map (·.fid) == [2]) = true := by decide +kernel

/-- Port 7 has a list of two entries of 4 µs: all gates open, then all but VC 1; as written and as ACTIVE or PENDING. -/
def twoEntries : Gcl := { entries := [(255, 500), (253, 500)], offset := 3 }

def gated : State :=
  let s := ((ready.put TM_GCL_CTRL.NENT 7 2).put TM_GCL_CTRL.OFFSET 7 3).put TM_GCL_CTRL.ENABLE 7 1
  { s with tm := { Traffic.reset with pendData := [(1792, 255 + 256 * 500), (1793, 253 + 256 * 500)] } }

/-- The same with the words of its entries. -/
def gatedWith (a b : Nat) : State := { gated with tm := { Traffic.reset with pendData := [(1792, a), (1793, b)] } }

def active (n : Nat) : State := { gated with tm := { Traffic.reset with active := [(7, twoEntries)], pending := [(7, twoEntries)], entry := [(7, n)] } }

/-- The time base stands 24 ns into the second: at the start of the list's cycle. -/
def atStart (s : State) : State := { s with tb := { s.tb with ns := 24 } }

def bucket : State := { (ready.put TM_SVC_SHAPE.RATE 9 100).put TM_SVC_SHAPE.BURST 9 1 with tm := { Traffic.reset with svcBucket := [(9, 255300)] } }

theorem witness_gates : gated.pendingList 7 = twoEntries ∧ gclCycle twoEntries = 1000 ∧ 125000000 % 1000 = 0 ∧ longestClosed twoEntries 1 = some 500
    ∧ (∀ k, k < 8 → (longestClosed twoEntries k).isSome = true) ∧ longestClosed (gatedWith (1 + 256 * 500) (1 + 256 * 500) |>.pendingList 7) 7 = none
    ∧ (gated.put TM_GCL_CTRL.NENT 7 0).pendingList 7 = ⟨[], 3⟩ ∧ 125000000 % gclCycle ((gatedWith (255 + 256 * 500) (255 + 256 * 501)).pendingList 7) ≠ 0
    ∧ Tab.find (active 1).tm.active 7 = some twoEntries ∧ Tab.find gated.tm.active 7 = none ∧ 500 < gated.get SC_CFG.AGE_US * 125
    ∧ bucket.tm.svcBucket.rises = true ∧ bucketFull 1 = 256000 := by decide +kernel

theorem witness_gate_turns : Tab.find (active 1).tm.pending 7 = some twoEntries ∧ (active 1).tm.times = []
    ∧ entryAt twoEntries.entries ((active 1).cyclePos twoEntries / 8) = 1 ∧ entryAt twoEntries.entries ((atStart (active 2)).cyclePos twoEntries / 8) = 0
    ∧ (atStart (active 2)).atCycleStart twoEntries = true ∧ (active 2).atCycleStart twoEntries = false
    ∧ (atStart (active 2)).gateEntry 7 = some (twoEntries, 1) ∧ (active 0).gateEntry 7 = none ∧ (atStart (active 0)).atCycleStart twoEntries = true
    ∧ Tab.get 0 (active 0).tm.entry 7 = 0 ∧ Tab.find gated.tm.pending 7 = none ∧ gated.get TM_GCL_CTRL.BANK 7 < 2 := by decide +kernel

theorem test_gates : leads .tokenBucketRefill bucket (fun t => t.svcTokens 9 == 256000 && t.tm.svcBucket == []) = true
    ∧ leads .tokenBucketRefill (bucket.put TM_SVC_SHAPE.RATE 9 50) (fun t => t.svcTokens 9 == 255700) = true
    ∧ leads (.gateEntryBoundary 7) (active 1) (fun t => Tab.get 0 t.tm.entry 7 == 2) = true
    ∧ leads (.gateEntryBoundary 7) (atStart (active 2)) (fun t => Tab.get 0 t.tm.entry 7 == 1) = true
    ∧ leads (.gclCommit 7) gated (fun t => t.get TM_GCL_CTRL.PENDING 7 == 1 && t.get TM_GCL_CTRL.CAUSE 7 == 0) = true
    ∧ leads (.gclCommit 7) (gated.put TM_GCL_CTRL.NENT 7 0) (fun t => t.get TM_GCL_CTRL.CAUSE 7 == 4) = true
    ∧ leads (.gclCommit 7) (gatedWith (255 + 256 * 500) (255 + 256 * 501)) (fun t => t.get TM_GCL_CTRL.CAUSE 7 == 1) = true
    ∧ leads (.gclCommit 7) (gated.put TM_GCL_CTRL.OFFSET 7 1000) (fun t => t.get TM_GCL_CTRL.CAUSE 7 == 5) = true
    ∧ leads (.gclCommit 7) (gatedWith (1 + 256 * 500) (1 + 256 * 500)) (fun t => t.get TM_GCL_CTRL.CAUSE 7 == 2) = true
    ∧ leads (.gclCommit 7) (gated.put SC_CFG.AGE_US 0 4) (fun t => t.get TM_GCL_CTRL.CAUSE 7 == 3) = true
    ∧ leads (.gclActivate 7) (atStart (active 2)) (fun t => Tab.get 0 t.tm.entry 7 == 1 && t.tm.pending == [] && t.get TM_GCL_CTRL.BANK 7 == 1) = true := by
  decide +kernel

def audited (unmarked : List Nat) : State := { ready with sc := { SwitchCore.reset with unmarked := unmarked, frames := [queuedAt7] } }

/-- Ten spares, all used. -/
def noSpares (s : State) : State := (List.range 10).foldl (fun s i => s.put SC_BANK_STATUS.STATE (512 + i) 0) s

theorem witness_audit : (audited [5, 6]).sc.unmarked.contains 5 = true ∧ ready.spareBank = some 512 ∧ (noSpares ready).spareBank = none
    ∧ ready.get SC_BANK_STATUS.STATE 511 = 0 ∧ ready.get SC_BANK_STATUS.STATE 512 ≠ 0 ∧ (0x2005#64).getLsbD 13 = true
    ∧ (0x1FFF#64).getLsbD 13 = false := by decide +kernel

/-- A frame in the group of bank 0, and the same group without its second bank. -/
def held0 : State := { ready with sc := { SwitchCore.reset with frames := [queuedAt7] } }

theorem witness_bank_groups : ready.get SC_BANK_STATUS.GROUP 511 = 511 / 4 ∧ ready.groupBanks 127 = 4 ∧ ready.groupHolds 127 = false
    ∧ held0.groupHolds (held0.get SC_BANK_STATUS.GROUP 0) = true ∧ held0.groupBanks (held0.get SC_BANK_STATUS.GROUP 0) = 4
    ∧ held0.get SC_BANK_STATUS.STATE 0 = 0 ∧ held0.get SC_BANK_STATUS.GROUP 0 = 0 / 4 ∧ 4096 ≤ ready.get SC_STATUS.FREE_CELLS
    ∧ (noSpares ready).get SC_BANK_STATUS.STATE 0 = 0 ∧ (noSpares ready).groupBanks 0 = 4 ∧ (noSpares ready).groupHolds 0 = false
    ∧ 4096 ≤ (noSpares ready).get SC_STATUS.FREE_CELLS := by decide +kernel

theorem witness_banks_quiet : (∀ k, ready.get SC_BANK_STATUS.STATE k ≠ 2) ∧ (∀ k, held0.get SC_BANK_STATUS.STATE k ≠ 2)
    ∧ ∀ k, (noSpares ready).get SC_BANK_STATUS.STATE k ≠ 2 :=
  ⟨no_bank_drains _ (by decide +kernel), no_bank_drains _ (by decide +kernel), no_bank_drains _ (by decide +kernel)⟩

theorem witness_double_cells : ([0].filter fun c => (audited []).sc.frames.any fun b => b.chain.contains c) ≠ []
    ∧ ((audited []).sc.frames.map (·.fid)).Nodup ∧ ([6, 7].filter fun c => (audited [5, 6]).sc.frames.all fun b => !b.chain.contains c) = [6, 7] := by
  decide +kernel

theorem test_bank_drains : leads (.bankRetire 0) held0 (fun t => t.get SC_BANK_STATUS.STATE 0 == 2 && t.groupClosed 0
    && t.get SC_STATUS.FREE_CELLS + 4095 == held0.get SC_STATUS.FREE_CELLS) = true := by decide +kernel

theorem test_audit : leads (.leakAuditPass [6, 7] [] true) (audited [5, 6]) (fun t => t.get SC_AUDIT_STAT.LEAKED == 1 && t.sc.unmarked == [7]
      && t.get SC_AUDIT_STAT.MISMATCH == 1 && t.get SC_AUDIT_STAT.PASSES == 1) = true
    ∧ leads (.leakAuditPass [] [0] false) (audited []) (fun t => t.sc.frames == [] && t.get SC_AUDIT_STAT.DOUBLE == 1) = true
    ∧ leads (.bankRetire 511) ready (fun t => t.get SC_BANK_STATUS.STATE 511 == 3 && t.get SC_BANK_STATUS.STATE 512 == 0
        && t.get SC_BANK_STATUS.GROUP 512 == ready.get SC_BANK_STATUS.GROUP 511) = true
    ∧ leads (.bankRetire 0) (noSpares ready) (fun t => t.get SC_STATUS.GROUPS_OUT == 1 && t.modState == modDegraded
        && t.get SC_STATUS.FREE_CELLS + 4096 == ready.get SC_STATUS.FREE_CELLS) = true
    ∧ leads (.mcWrite 0 0x2005#64) ((ready.put SC_MC_DATA.VALID 0 1).put SC_MC_DATA.PORTS 1 2) (fun t => Tab.find t.sc.groups 5 == some ⟨0, [65]⟩) = true := by
  decide +kernel

/-! ## APPEND, SELECT, FILTER and GATHER -/

/-- Slot 3 holds a DECK_A berth with these bytes at these offsets; one command. -/
def stocked (c : Cmd) (l : List (Nat × List Byte)) : State :=
  let s := grouped 0 grpFree 0 [c] []
  { s with pm := { s.pm with near := l.foldl (fun n x => n.setRun (2 * 2 ^ 26 + x.1) x.2) s.pm.near } }

/-- 32 BF16 ones. -/
def bfOnes : List Byte := (List.replicate 32 [0x80#8, 0x3F#8]).flatten

/-- APPEND of one token of one head, width 32, BF16, shared: tile at 0, summary at 8,192 and entry at 12,288; it closes the block. -/
def appendCmd (st : Stage) : Cmd :=
  { newCmd 2 5 1 5 ocAppend (desc [(0, ocAppend), (8, 2 ^ 52 * 7 + 2 ^ 56 * 7), (16, 3 * 2 ^ 18 + 2 ^ 42 + 2 ^ 55), (24, 2 ^ 42),
      (32, 3 * 2 ^ 20 + 128), (40, 3 * 2 ^ 22 + 768), (48, 2 ^ 22 * 6 + 2 ^ 38 + 2 ^ 39 + 2 ^ 40 + 2 ^ 41)]) 0 with
    stage := st, inputs := [(0, ⟨bfOnes, []⟩)] }

theorem witness_append : (appendBody (appendCmd .dispatched).desc).nhead = 1 ∧ (appendBody (appendCmd .dispatched).desc).sums = true
    ∧ (appendBody (appendCmd .dispatched).desc).shared = true ∧ (appendBody (appendCmd .dispatched).desc).listEn = true
    ∧ inputReady (appendCmd .dispatched) 0 0 (appendSource (appendBody (appendCmd .dispatched).desc)) = true
    ∧ (stocked (appendCmd .dispatched) []).boundaryStop (appendCmd .dispatched) = none
    ∧ ((appendChecks (appendCmd .dispatched).desc).handles ++ ((appendBody (appendCmd .dispatched).desc).spans 0).map (·.1.handle)).all (· == 3) = true
    ∧ (stocked (appendCmd .dispatched) []).handle 1 3 = .held (slotOf .moored kindDeckA)
    ∧ (((appendBody (appendCmd .dispatched).desc).spans 0).all fun w =>
        !(stocked (appendCmd .dispatched) []).writeRefused 1 (w.1.handle, w.1.off, w.2)) = true
    ∧ (appendConvert (appendBody (appendCmd .dispatched).desc) bfOnes).1.length = rowBytes 7 32
    ∧ ((stocked (appendCmd .dispatched) []).spend (appendCmd .dispatched)
        (((appendBody (appendCmd .dispatched).desc).spans 0).flatMap (fun w => (stocked (appendCmd .dispatched) []).nearCost 1 w.1 w.2 true)
        ++ ((appendBody (appendCmd .dispatched).desc).kSpans 0).flatMap (fun w => (stocked (appendCmd .dispatched) []).nearCost 1 w.1 w.2 false))).2 = true := by
  decide +kernel

theorem witness_append_open : (((appendBody (appendCmd .dispatched).desc).spans 0).all fun w =>
    !(stocked (appendCmd .dispatched) []).writeBarred 1 (w.1.handle, w.1.off, w.2)) = true
    ∧ ((appendBody (appendCmd .dispatched).desc).spans 0).length = 3 ∧ kindDeckA ≠ kindTally ∧ (stocked (appendCmd .dispatched) []).te = .reset
    ∧ (stocked (appendCmd .dispatched) []).pm.near.poison = [] ∧ (stocked (appendCmd .dispatched) []).pm.dead = [] := by decide +kernel

/-- The row as it came, its means as FP16 ones with spread zero, and the entry: one token, with a summary, of document 6. -/
theorem test_append : leads (.append 2) (stocked (appendCmd .dispatched) []) (fun t => t.fe.cmds.map (fun c => (c.stage, c.value)) == [(.finished, 1)]
      && bytesAt t 0 64 == bfOnes && bytesAt t 8192 66 == (List.replicate 32 [0x00#8, 0x3C#8]).flatten ++ [0, 0]
      && entryOfBytes (bytesAt t 12288 16) == ⟨⟨3, 0⟩, ⟨3, 0⟩, 7, 1, true, 6, 0⟩) = true := by decide +kernel

/-- Six entries at 0 and their scores at 4,096; K is 4; the output goes to 8,192. -/
def selectCmd (st : Stage) (words : List (Nat × Nat)) : Cmd :=
  { newCmd 2 5 1 5 ocSelect (desc ([(0, ocSelect), (8, 3 * 2 ^ 20 + 64), (16, 3 * 2 ^ 20 + 2 ^ 44 * 6), (24, 3 * 2 ^ 20 + 128 + 2 ^ 44)] ++ words)) 0 with
    stage := st }

def sixEntries : List Byte := (List.range 6).flatMap fun i => entryBytes ⟨3, 16384 * i⟩ ⟨3, 16384 * i⟩ 5 1 true i

/-- 1, 3, 2, 5, NaN and 0 in FP32. -/
def sixScores : List Byte := [0x3F800000, 0x40400000, 0x40000000, 0x40A00000, 0x7FC00000, 0].flatMap (leBytes 4)

def selecting (st : Stage) (words : List (Nat × Nat)) : State := stocked (selectCmd st words) [(0, sixEntries), (4096, sixScores)]

/-- The section's entries with their scores, as SELECT ranks them. -/
def ranked6 : List Ranked :=
  ((selectBody (selectCmd .running []).desc).sectionOf { selectCmd .running [] with inputs := [(0, ⟨sixEntries, []⟩), (1, ⟨sixScores, []⟩)] } 0).1

theorem witness_select_engine : ranked6.map (·.index) = List.range ranked6.length ∧ (selectBody (selectCmd .running []).desc).k ≤ ranked6.length
    ∧ (selectBody (selectCmd .running []).desc).k = 4 ∧ (selectBody (selectCmd .running []).desc).nent = 6
    ∧ (ranked6.filter (forcedEntry (selectBody (selectCmd .running [(32, 2 ^ 14 * 5)]).desc))).length = 5
    ∧ (selecting .dispatched []).boundaryStop (selectCmd .dispatched []) = none ∧ (selecting .dispatched []).handle 1 3 = .held (slotOf .moored kindDeckA)
    ∧ (selecting .dispatched []).writeRefused 1 (3, 8192, 64) = false
    ∧ ((itemsOf ⟨sixEntries, []⟩ 0 16 6).all fun x => !(selecting .dispatched []).entryBad 1 none (entryOfBytes x.1)) = true := by decide +kernel

/-- No filter unit is active. -/
def unitless (s : State) : State := (List.range 9).foldl (fun s u => s.put FU_UNIT_STATUS.ACTIVE u 0) s

theorem witness_select_units : let s := selecting .dispatched []
    let c := selectCmd .dispatched []
    let b := selectBody c.desc
    let u := b.unitOf 0 0
    let cost := s.spanCosts 1 [u.1, u.2] ++ [(.engine, (3 * b.nent + 4) / 5)]
    (s.holdUnits c b.nsec).isSome = true ∧ (unitless s).holdUnits c b.nsec = none ∧ s.viewAll 1 [u.1, u.2] = .ready ∧ s.hs.retiring = []
    ∧ s.writeBarred 1 (3, 8192, 64) = false ∧ (s.spend c cost).2 = true
    ∧ ((s.spend c cost).1.spend { c with paid := [] } (s.nearCost 1 ⟨3, 8192⟩ 64 true)).2 = true ∧ (slotOf .moored kindDeckA).lhalf < 2
    ∧ (slotOf .moored kindDeckA).physA < 15360 ∧ (slotOf .moored kindDeckA).physB < 15360 := by decide +kernel

theorem witness_selections : ((selectSection (selectBody (selectCmd .running []).desc) ranked6) matches .inr _) = true
    ∧ ((selectSection (selectBody (selectCmd .running [(32, 2 ^ 14 * 5)]).desc) ranked6) matches .inl 0x25) = true
    ∧ leads (.select 2) (unitless (selecting .dispatched [])) (· == unitless (selecting .dispatched [])) = true := by decide +kernel

theorem test_select_engine : leads (.select 2) (selecting .dispatched []) (fun t => t.fe.cmds.map (fun c => (c.stage, c.count)) == [(.finished, 4)]
      && bytesAt t 8192 64 == (sixEntries.drop 16).take 64) = true
    ∧ leads (.filterTransferBoundary 2) (selecting .running [(32, 2 ^ 14)]) (fun t => bytesAt t 8192 64 == sixEntries.take 32 ++ (sixEntries.drop 48).take 32) = true
    ∧ leads (.select 2) (selecting .dispatched [(32, 2 ^ 14 * 5)]) (fun t => t.fe.cmds.map (·.causes) == [[(stBadDesc, 0x25)]]) = true := by decide +kernel

/-- FILTER of six entries (DOCS), predicate at 16,384, bitmap at 20,480; and of a table of 64 rows (ROWS) with its segment list at 24,576. -/
def filterCmd (st : Stage) (rows : Bool) (inputs : Tab Payload) : Cmd :=
  { newCmd 2 5 1 5 ocFilter (desc [(0, ocFilter), (8, 3 * 2 ^ 20 + 256 + if rows then 0 else 2 ^ 44),
      (16, 3 * 2 ^ 20 + if rows then 384 + 2 ^ 44 else 2 ^ 44 * 6), (24, 3 * 2 ^ 20 + 320 + if rows then 0 else 2 ^ 44), (32, if rows then 64 else 0)]) 0 with
    stage := st, inputs := inputs }

/-- One term: 2 ≤ key ≤ 4. -/
def between : List Byte := leBytes 8 1 ++ leBytes 24 0 ++ leBytes 8 (2 ^ 64 - 1) ++ leBytes 8 2 ++ leBytes 8 4 ++ leBytes 8 2

def segment : List Byte := leBytes 8 (3 + 2 ^ 42)

def filtering (st : Stage) (rows : Bool) (inputs : Tab Payload) : State :=
  stocked (filterCmd st rows inputs) [(0, sixEntries), (16384, between), (24576, segment)]

def ready6 : Tab Payload := [(0, ⟨between, []⟩), (1, ⟨[], []⟩)]

theorem witness_filter : (filterBody (filterCmd .dispatched true []).desc).mode = 0 ∧ (filterBody (filterCmd .dispatched false []).desc).mode = 1
    ∧ (predicateHead ((filtering .dispatched true []).readSpan 1 ⟨3, 16384⟩ 32).bytes).1 = 1 ∧ segsFill (segsOf segment 1) 64 = true ∧ (segsOf segment 1).map (·.at_.handle) = [3]
    ∧ (filtering .dispatched true []).handle 1 3 = .held (slotOf .moored kindDeckA)
    ∧ ((filterBody (filterCmd .running false ready6).desc).sources [] 0 0 6).all (·.isSome) = true
    ∧ (filtering .running false ready6).writeRefused 1 (3, 20480, 64) = false
    ∧ (filtering .running false ready6).boundaryStop (filterCmd .running false ready6) = none := by decide +kernel

theorem witness_filter_starts : let s := filtering .dispatched true []
    let c := filterCmd .dispatched true []
    let b := filterBody c.desc
    let spans := [(b.pred, predicateBytes 1), (b.src, 8 * b.count)]
    let pred := s.readSpan 1 b.pred (predicateBytes 1)
    (s.holdUnits c ((b.total + transferUnit - 1) / transferUnit)).isSome = true ∧ (unitless s).holdUnits c 1 = none
    ∧ inBerth b.pred.off (predicateBytes 1) = true ∧ inBerth b.src.off (8 * b.count) = true ∧ b.judgeRead pred = none
    ∧ (b.judgeRead ⟨leBytes 8 65 ++ leBytes 24 0, []⟩).isSome = true ∧ s.viewAll 1 [(b.pred, 32)] = .ready ∧ s.viewAll 1 spans = .ready
    ∧ (s.spend c (s.spanCosts 1 spans)).2 = true ∧ s.hs.retiring = [] := by decide +kernel

theorem witness_filter_runs : let c := filterCmd .running false ready6
    let s := filtering .running false ready6
    let b := filterBody c.desc
    let spans := (b.sources [] 0 0 6).filterMap id
    b.cuts c.held.length = [(0, 6)] ∧ spans.map (·.2) = [96] ∧ s.viewAll 1 spans = .ready ∧ s.writeBarred 1 (3, 20480, 64) = false
    ∧ (s.spend c (s.spanCosts 1 spans ++ s.nearCost 1 ⟨3, 20480⟩ 64 true ++ [(.engine, (3 * 6 + 31) / 32)])).2 = true
    ∧ ((itemsOf (s.readSpan 1 ⟨3, 0⟩ 96) 0 16 6).all fun i => !s.entryBad 1 none (entryOfBytes i.1)) = true ∧ c.step + 1 = (b.cuts 0).length
    ∧ 1 ≠ ((filterBody (desc [(16, 3 * 2 ^ 20 + 2 ^ 44 * 5000), (8, 2 ^ 44)])).cuts 2).length := by decide +kernel

theorem test_filter : leads (.filter 2) (filtering .dispatched false []) (fun t => t.fe.cmds.map (fun c => (c.stage, c.inputs)) == [(.running, ready6)]) = true
    ∧ leads (.filter 2) (filtering .dispatched true []) (fun t => t.fe.cmds.map (fun c => (c.stage, c.inputs)) ==
        [(.running, [(0, ⟨between, []⟩), (1, ⟨segment, []⟩)])]) = true
    ∧ leads (.filterTransferBoundary 2) (filtering .running false ready6) (fun t => t.fe.cmds.map (fun c => (c.stage, c.count)) == [(.finished, 3)]
        && bytesAt t 20480 2 == [0x1C, 0]) = true := by decide +kernel

/-- GATHER of the first entry (FP4, width 32, one token) with its entry, to 32,768. -/
def gatherCmd (st : Stage) : Cmd :=
  { newCmd 2 5 1 5 ocGather (desc [(0, ocGather), (8, 3 * 2 ^ 26 + 32768 + 2 ^ 52 + 2 ^ 53), (16, 3 * 2 ^ 20 + 2 ^ 44), (24, 2 ^ 44 + 2 ^ 51)]) 0 with
    stage := st }

def gathering (st : Stage) : State := stocked (gatherCmd st) [(0, entryBytes ⟨3, 16384⟩ ⟨3, 16384⟩ 5 1 true 0), (16384, List.replicate 20 7), (17408, [9, 9])]

theorem witness_gather : (gatherBody (gatherCmd .dispatched).desc).group 0 = 1 ∧ (gatherBody (gatherCmd .dispatched).desc).maskEn = false
    ∧ (gatherBody (gatherCmd .dispatched).desc).outLoc = true ∧ gatherTiles (gatherBody (gatherCmd .dispatched).desc) = 256
    ∧ tileBytes 5 32 = 1280 ∧ (gathering .dispatched).handle 1 3 = .held (slotOf .moored kindDeckA)
    ∧ (gathering .dispatched).writeRefused 1 (3, 33024, 1280) = false ∧ (gathering .dispatched).writeRefused 1 (3, 32768, 16) = false
    ∧ (gathering .dispatched).entryBad 1 (some 32) ⟨⟨3, 16384⟩, ⟨3, 16384⟩, 5, 1, true, 0, 0⟩ = false
    ∧ (gathering .dispatched).boundaryStop (gatherCmd .dispatched) = none := by decide +kernel

/-- Its list read, and then the first of its two bursts. -/
def listed : State := after (.gather 2) (gathering .dispatched)

def halfRead : State := after (.gather 2) listed

def gatherNow (s : State) : Cmd := (s.cmd 2).getD (gatherCmd .running)

theorem witness_gather_turns : let s := gathering .dispatched
    let c := gatherCmd .dispatched
    let b := gatherBody c.desc
    let lots := b.lots (gatherNow listed)
    s.viewAll 1 [(b.list, 16)] = .ready ∧ (s.spend c (s.nearCost 1 b.list 16 false)).2 = true
    ∧ ((b.lots { c with inputs := [(0, s.readSpan 1 b.list 16)] }).all fun l => !s.entryBad 1 (some 32) (entryOfBytes l.bytes)) = true
    ∧ s.entryBad 1 (some 32) (entryOfBytes (List.replicate 16 0)) = true
    ∧ (gatherBursts 32 lots).map (·.2.2) = [16, 1] ∧ burstsRead (gatherNow listed) = 0 ∧ burstsRead (gatherNow halfRead) = 1
    ∧ (lots.all fun l => (listed.gatherUnits (listed.gatherDeck 1 b l)).length == 8) = true ∧ (gatherNow listed).marked = [] := by decide +kernel

theorem witness_gather_ships : let c := gatherNow halfRead
    let b := gatherBody c.desc
    let x := ((gatherBursts 32 (b.lots c))[1]?.map (·.2)).getD (⟨0, 0⟩, 0)
    let read : Cmd := { c with paid := [], inputs := Tab.put c.inputs (burstPiece 1) (halfRead.readSpan 1 x.1 x.2) }
    let n := (joinPayloads (shipLots b read (b.lots c) 0)).bytes.length
    c.inputs ≠ [] ∧ (c.inputs.all fun e => e.2.poisoned.isEmpty) = true ∧ Tab.find c.inputs (burstPiece 1) = none ∧ halfRead.viewAll 1 [x] = .ready
    ∧ n = 1280 ∧ halfRead.writeBarred 1 (3, 33024, n) = false ∧ halfRead.writeBarred 1 (3, 32768, 16) = false
    ∧ (halfRead.spend c (halfRead.spanCosts 1 [x])).2 = true
    ∧ ((halfRead.spend c (halfRead.spanCosts 1 [x])).1.spend { c with paid := [] } (halfRead.nearCost 1 ⟨3, 33024⟩ n true
        ++ halfRead.nearCost 1 ⟨3, 32768⟩ 16 true)).2 = true := by decide +kernel

theorem test_gather : leads (.gather 2) (gathering .dispatched) (fun t => t.fe.cmds.map (fun c => (c.stage, c.inputs.map (·.1))) == [(.running, [0])]) = true
    ∧ leads (.gather 2) (after (.gather 2) (after (.gather 2) (gathering .dispatched))) (fun t => t.fe.cmds.map (fun c => (c.stage, c.count, c.value)) == [(.finished, 1, valueShip 1 0)]
      && bytesAt t 32768 16 == bytesAt t 0 16 && bytesAt t 33024 17 == List.replicate 16 7 ++ [0] && bytesAt t 34048 2 == [9, 0]) = true := by
  decide +kernel

/-! ## The decks -/

/-- SCORE of one query row of BF16 ones against one entry at 0, whose summary lies at 8,192; the scores go to 32,768. -/
def scoreCmd (place : Nat) : Cmd :=
  { newCmd 2 5 1 5 ocScore (desc [(0, ocScore), (8, 2 ^ 52 * 7 + 2 ^ 60), (16, 3 * 2 ^ 26 + 32768), (24, 3 * 2 ^ 20 + 2 ^ 44), (32, 2 ^ 10 + 2 ^ 17),
      (56, 3 * 2 ^ 20 + 128)]) 0 with
    stage := .dispatched, place := some place, inputs := [(0, ⟨bfOnes, []⟩)] }

def oneEntry : List Byte := entryBytes ⟨3, 16384⟩ ⟨3, 16384⟩ 5 1 true 0

def scoreStart (place : Nat) : State :=
  stocked (scoreCmd place) [(0, oneEntry), (8192, (List.replicate 32 [0x00#8, 0x3C#8]).flatten)]

/-- A MATMUL of one row of 32 ones and one column; a CROSS like the SCORE, without a place; a SEARCH of one row tile. -/
def matmulCmd : Cmd :=
  { newCmd 2 5 1 5 ocMatmul (desc [(0, ocMatmul), (8, 2 ^ 52 * 7 + 2 ^ 56 * 9 + 2 ^ 60), (16, 3 * 2 ^ 26 + 32768), (24, 3 * 2 ^ 14 + 4 + 2 ^ 38 * 5), (32, 2 ^ 16)]) 0 with
    stage := .dispatched, place := some 1, inputs := [(0, ⟨bfOnes, []⟩)] }

def crossCmd : Cmd :=
  { newCmd 2 5 1 5 ocCross (desc [(0, ocCross), (8, 2 ^ 52 * 7 + 2 ^ 56 * 9 + 2 ^ 60), (16, 3 * 2 ^ 26 + 32768), (24, 3 * 2 ^ 20 + 2 ^ 44),
      (32, 2 ^ 10 + 2 ^ 17 + 2 ^ 22 + 2 ^ 27)]) 0 with
    stage := .dispatched, inputs := [(0, ⟨bfOnes, []⟩)] }

def searchCmd : Cmd :=
  { newCmd 2 5 1 5 ocSearch (desc [(0, ocSearch), (8, 2 ^ 52 * 7 + 2 ^ 56 * 5 + 2 ^ 60), (16, 3 * 2 ^ 26 + 32768), (24, 3 * 2 ^ 20 + 384 + 2 ^ 44), (32, 64 + 2 ^ 32)]) 0 with
    stage := .dispatched, inputs := [(0, ⟨bfOnes, []⟩)] }

def crossStart : State := stocked crossCmd [(0, oneEntry)]

def searchStart : State := stocked searchCmd [(24576, segment)]

theorem witness_launch : (scoreStart 0).cmd 2 = some (scoreCmd 0) ∧ (scoreStart 0).boundaryStop (scoreCmd 0) = none
    ∧ inputReady (scoreCmd 0) 0 (scoreCmd 0).operand.1 (scoreCmd 0).operand.2 = true ∧ (scoreCmd 0).work.units = 1 ∧ matmulCmd.work.units = 1
    ∧ inputReady matmulCmd 0 matmulCmd.operand.1 matmulCmd.operand.2 = true ∧ inputReady crossCmd 0 crossCmd.operand.1 crossCmd.operand.2 = true
    ∧ inputReady searchCmd 0 searchCmd.operand.1 searchCmd.operand.2 = true ∧ crossCmd.work.units = 1 ∧ searchCmd.work.units = 1
    ∧ (crossStart.payNear crossCmd ⟨3, 0⟩ 256).isSome = true ∧ crossStart.entryBad 1 (some 32) (entryOfBytes oneEntry) = false
    ∧ crossStart.kindOf 1 3 = some 0 ∧ crossStart.liveRoom 5 (some 0) = true ∧ crossStart.zeroFare 1 [.deckA, .nearA] = false
    ∧ (crossStart.setSlot 1 3 (slotOf .moored kindLashed)).kindOf 1 3 = some 2
    ∧ segsFill (segsOf segment 1) (searchBody searchCmd.desc).nrows = true ∧ (searchBody searchCmd.desc).segIn ((segsOf segment 1).headD ⟨⟨0, 0⟩, 0, false⟩) = true
    ∧ (searchStart.payNear searchCmd ⟨3, 24576⟩ 8).isSome = true := by decide +kernel

/-- Deck A has no room: its live queues are taken. -/
def fullDeck : State := { crossStart with fe := { crossStart.fe with cmds := crossStart.fe.cmds ++ (List.range 16).map fun i =>
    { scoreCmd 0 with cid := 10 + i, stage := .running } } }

theorem witness_launch_fares : (scoreStart 0).zeroFare 1 [.deckA, .nearA] = false ∧ ((stocked matmulCmd []).zeroFare 1 [.deckB, .nearB] = false)
    ∧ fullDeck.liveRoom 5 (some 0) = false ∧ fullDeck.cmd 2 = some crossCmd ∧ crossCmd.place = none ∧ searchCmd.place = none
    ∧ searchStart.kindOf 1 3 = some 0 ∧ searchStart.liveRoom 5 (some 0) = true ∧ crossStart.view 1 ⟨3, 0⟩ 256 = .ready
    ∧ searchStart.view 1 ⟨3, 24576⟩ 8 = .ready ∧ (searchStart.heldSlot 1 3).isSome = true
    ∧ leads (.cross 2) fullDeck (fun t => (t.cmd 2).map (fun c => (c.stage, c.place)) == some (.waiting, some 0)) = true := by decide +kernel

def launchedAt (t : State) (p fold : Nat) : Bool := t.fe.cmds.map (fun c => (c.stage, c.place, c.sec, c.acc.length)) == [(.running, some p, 0, fold)]

theorem test_launch : leads (.score 2) (scoreStart 0) (fun t => launchedAt t 0 1) = true
    ∧ leads (.matmul 2) (stocked matmulCmd []) (fun t => launchedAt t 1 1) = true
    ∧ leads (.cross 2) crossStart (fun t => launchedAt t 0 1) = true
    ∧ leads (.cross 2) (crossStart.setSlot 1 3 (slotOf .moored kindLashed)) (fun t => t.fe.cmds.map (·.causes) == [[(stBadDesc, 0x2B)]]) = true
    ∧ leads (.search 2) searchStart (fun t => launchedAt t 0 1) = true := by decide +kernel

/-- The SCORE launched on deck A, its list granule read. -/
def scoring : State :=
  let s := after (.score 2) (scoreStart 0)
  s.updCmd 2 fun c => { c with inputs := Tab.put c.inputs (listPiece 0) (s.readSpan 1 ⟨3, 0⟩ 256) }

def theScore : Cmd := (scoring.cmd 2).getD (scoreCmd 0)

/-- Its one tile: the summary. -/
def summaryTile : Need := ⟨0, 0, false, ⟨3, 8192⟩, 128⟩

def needed (s : State) : List (Nat × Nat × Bool × NearRef × Nat) :=
  ((s.nextStep 2).2.map fun x => x.1.map fun n => (n.unit, n.ent, n.isV, n.src, n.len)).getD []

theorem witness_granules : scoring.cmd 2 = some theScore ∧ theScore.stage = .running ∧ theScore.stop = none ∧ theScore.sec = 0 ∧ theScore.step = 0
    ∧ theScore.stepsAhead 0 0 ≤ theScore.ahead ∧ (scoring.stepNeeds 2 0 0).1 = scoring ∧ (scoring.nextStep 2).1 = scoring
    ∧ needed scoring = [(0, 0, false, ⟨3, 8192⟩, 128)] ∧ scoring.tileValid theScore 0 summaryTile = false ∧ summaryTile.granules = 1
    ∧ windowBytes (scoring.deck .a) = 0 ∧ scoring.nearZero theScore ⟨3, 8192⟩ = false ∧ (scoring.payNear theScore ⟨3, 8192⟩ 256).isSome = true := by
  decide +kernel

/-- Half of a tile of two granules has arrived. -/
def partly : State := scoring.updDeck .a fun k =>
  { k with scratch := [{ cid := 2, sec := 0, ent := 0, isV := false, unit := 0, need := 2, got := 1, valid := false, data := ⟨[], []⟩ }] }

theorem witness_feed_turns : (scoring.earlierNeeds 2 0 0).1 = scoring ∧ (scoring.earlierNeeds 2 0 0).2.isEmpty = true ∧ scoring.gatherUnit theScore 0 0 = some 0
    ∧ scoring.feedTurn theScore 0 [] = true ∧ scoring.feedTurn theScore 0 [(0, summaryTile)] = false
    ∧ inflightReads (scoring.deck .a) 0 + 1 ≤ 4096 ∧ scoring.view 1 ⟨3, 8192⟩ 128 = .ready ∧ (scoring.deck .a).scratch.find? (tileIs theScore 0 summaryTile) = none
    ∧ ((partly.deck .a).scratch.find? (tileIs theScore 0 summaryTile)).map (·.got) = some 1 ∧ theScore.work.units = 1 ∧ theScore.work.sections = 1 := by
  decide +kernel

def fed : State := after (.granuleReadReturn 2 0 0 false 1) scoring

theorem test_granules : fed.deckA.scratch.map (fun t => (t.cid, t.valid, t.data.bytes.length)) = [(2, true, 128)]
    ∧ fed.get GU_PART_FEED.BYTES 1 = 256 ∧ fed.deckB.scratch = [] := by decide +kernel

def legOf (steps cycles : Nat) : Leg :=
  { cid := 2, part := 1, bound := 6400, cycles := cycles, busy := cycles, steps := steps, lashed := false, short := false, audit := none, marked := false, fails := 0,
    left := 0, secAtStart := 0, stepAtStart := 0 }

def onLeg (l : Leg) (s : State) : State := s.updDeck .a fun k => { k with leg := some l }

def waitingLeg (l : Leg) (s : State) : State := s.updDeck .a fun k => { k with waitingLeg := some l }

/-- The same command lashed. -/
def lashed : State := scoring.updCmd 2 fun c => { c with place := some 2 }

/-- A second SCORE, of partition 2, on the same deck. -/
def rivals : State :=
  let s := (scoring.setSlot 2 3 (slotOf .moored kindDeckA)).put CF_CTX_CTRL.PART 6 2
  { s with fe := { s.fe with cmds := s.fe.cmds ++ [{ theScore with cid := 4, part := 2, ctx := 6 }] } }

theorem witness_legs : scoring.retireColumns .a = scoring ∧ scoring.boundaryStops .a = scoring ∧ scoring.readyOn 2 .a 0 = (scoring, true)
    ∧ theScore.decks = [.a] ∧ reexecutes (scoring.deck .a) = false ∧ scoring.pwr.decksHalted = false
    ∧ lashed.readyOn 2 .a 0 = (lashed, true) ∧ (lashed.cmd 2).map (·.lashed) = some true
    ∧ (lashed.updDeck .b fun k => { k with leg := some (legOf 0 0) }).readyOn 2 .a 6400 = (lashed.updDeck .b fun k => { k with leg := some (legOf 0 0) }, false)
    ∧ rivals.readyOn 2 .a 0 = (rivals, true) ∧ rivals.readyOn 4 .a 0 = (rivals, true) ∧ rivals.partBefore .deckA 1 2 = true := by decide +kernel

theorem witness_lashed_turns : fed.feedTurn theScore 0 [(0, summaryTile)] = true ∧ (lashed.lashedChoice .a).map (·.cid) = some 2 ∧ lashed.flag DK_FULL_SAVE.QUIESCE 1 = false ∧ (lashed.deck .b).leg = none
    ∧ reexecutes (lashed.deck .b) = false ∧ (lashed.deck .a).reserved = none ∧ scoring.hs.retiring = [] ∧ scoring.te = .reset
    ∧ scoring.boundaryStop theScore = none ∧ theScore.lost = false ∧ theScore.rows = [] := by decide +kernel

/-- The other deck of a lashed command runs a leg of somebody else. -/
def lashedBusy : State := lashed.updDeck .b fun k => { k with leg := some { legOf 0 0 with cid := 9 } }

theorem witness_steps : ((onLeg (legOf 0 0) fed).nextStep 2).1 = onLeg (legOf 0 0) fed ∧ needed (onLeg (legOf 0 0) fed) = needed scoring
    ∧ ((onLeg (legOf 0 0) scoring).nextStep 2).1 = onLeg (legOf 0 0) scoring := by decide +kernel

theorem witness_more_legs : lashedBusy.readyOn 2 .a (boundLeft (lashedBusy.deck .b)) = (lashedBusy, true)
    ∧ (onLeg (legOf 0 0) fed).tileValid theScore 0 summaryTile = true ∧ (onLeg (legOf 0 0) scoring).tileValid theScore 0 summaryTile = false
    ∧ (onLeg (legOf 0 0) fed).readMask theScore = (onLeg (legOf 0 0) fed, true) ∧ fed.coversStep theScore 36 .a 0 = true ∧ fed.suspects .a = [] ∧ fed.suspects .b = []
    ∧ fed.stepCycles theScore [] ≤ 6400 ∧ theScore.rows = [] ∧ theScore.sec < theScore.work.sections
    ∧ (4096 - 0 + 4096 - 1) / 4096 < 2 ∧ (8192 + 2 - 1) / 2 = 4096 ∧ fed.colState .a 33 = 1 ∧ fed.colState .a 0 = 0 := by decide +kernel

theorem test_legs : leads (.legBoundary .a) scoring (fun t => (t.deckA.leg.map fun l => (l.cid, l.bound, l.steps)) == some (2, 6400, 0)
      && t.get DK_DECK_STATUS.BUSY 0 == 1 && t.get DK_DECK_STATUS.LEG_SEQ 0 == 1 && t.deckB.leg.isNone) = true
    ∧ leads (.legBoundary .a) lashed (fun t => t.deckA.leg.isSome && t.deckB.leg.isSome) = true
    ∧ leads (.legBoundary .a) lashedBusy (fun t => t.deckA.leg.isNone && t.deckA.reserved == some 2) = true
    ∧ leads (.legBoundary .a) rivals (fun t => (t.deckA.leg.map (·.cid)) == some 2) = true := by decide +kernel

/-- (32 ones · 32 means of 1) × the pre-scale 1/√32 × log2 e of R106 = 8.16112, which is 0x410293xx in FP32; a pass takes 32 + 4 cycles. -/
theorem test_steps : leads (.passStep .a none) (onLeg (legOf 0 0) scoring) (fun t => (t.deckA.leg.map (·.short)) == some true) = true
    ∧ leads (.passStep .a none) (onLeg (legOf 0 6400) fed) (fun t => t == onLeg (legOf 0 6400) fed) = true
    ∧ leads (.passStep .a none) (onLeg (legOf 0 0) fed) (fun t => (t.deckA.leg.map fun l => (l.steps, l.cycles)) == some (1, 36)
        && t.fe.cmds.map (fun c => (c.sec, c.rows.map fun p => p.m / 256#32)) == [(1, [0x410293#32])] && t.deckA.scratch == []) = true
    ∧ leads (.passStep .a (some 0)) (onLeg (legOf 0 0) fed) (fun t => (t.deckA.leg.map (·.marked)) == some true
        && t.get DK_COL_STATUS.RESIDUE_24H 0 == 1) = true
    ∧ leads (.legEnd .a none) (onLeg (legOf 1 32) scoring) (fun t => t.deckA.leg.isNone && t.get DK_PART_LEGS.LEGS 1 == 1
        && t.fe.cmds.map (·.legs) == [1]) = true
    ∧ leads (.legEnd .a none) (onLeg { legOf 1 32 with marked := true } scoring) (fun t => (t.deckA.waitingLeg.map fun w => (w.fails, w.left)) == some (1, 1)) = true
    ∧ leads (.legReexecution .a false) (waitingLeg { legOf 2 8192 with left := 2 } scoring) (fun t => (t.deckA.waitingLeg.map (·.left)) == some 1
        && t.deckA.reserveUsed == 4096) = true
    ∧ leads (.legReexecution .a false) (waitingLeg { legOf 2 8192 with left := 1 } scoring) (fun t => t.deckA.waitingLeg.isNone) = true
    ∧ leads (.legReexecution .a true) (waitingLeg { legOf 2 8192 with left := 1, fails := 1 } scoring) (fun t =>
        (t.deckA.waitingLeg.map fun w => (w.fails, w.left)) == some (2, 2)) = true
    ∧ leads (.legReexecution .a true) (waitingLeg { legOf 2 8192 with left := 1, fails := 2 } scoring) (fun t => t.deckA.waitingLeg.isNone
        && t.fe.cmds.map (fun c => c.acc.all fun r => r.all (·.poison)) == [true]) = true := by decide +kernel

/-- The whole command: its score is stored and it ends. -/
theorem test_leg_end_writes : leads (.legEnd .a none) (after (.passStep .a none) (onLeg (legOf 0 0) fed)) (fun t => t.fe.cmds.map (·.stage) == [.finished]
      && (bytesAt t 32768 4).drop 1 == [0x93, 0x02, 0x41]) = true := by decide +kernel

def quiesced : State := ready.put DK_FULL_SAVE.QUIESCED 1 1

theorem witness_quiesce : (onLeg (legOf 0 0) ready).deckA.leg.isSome = true ∧ quiesced.flag DK_FULL_SAVE.QUIESCED 1 = true
    ∧ ready.flag DK_FULL_SAVE.QUIESCED 1 = false ∧ (quiesced.put DK_FULL_SAVE.BUSY 1 1).flag DK_FULL_SAVE.BUSY 1 = true
    ∧ (after (.save .b) quiesced).deckB.saveArea = some ⟨[], []⟩ ∧ ready.get FU_UNIT_STATUS.ACTIVE 0 = 1 ∧ ready.get FU_UNIT_STATUS.SPARE 8 = 1
    ∧ ready.get GU_UNIT_STATUS.ACTIVE 9 = 1 ∧ ready.get GU_UNIT_STATUS.SPARE 17 = 1 ∧ ready.get RU_UNIT_STATUS.ACTIVE 7 = 1
    ∧ ready.get RU_UNIT_STATUS.SPARE 8 = 1 ∧ (ready.put RU_UNIT_STATUS.SPARE 8 0).get RU_UNIT_STATUS.SPARE 8 ≠ 1 := by decide +kernel

/-- Deck A is reserved; a FILTER and a SELECT stand in the middle of a piece of the unit they hold. -/
def reservedA : State := (ready.updDeck .a fun k => { k with reserved := some 2, reservedAt := 0 })

def midFilter : Cmd := { newCmd 2 5 1 5 ocFilter (desc [(8, 2 ^ 44), (16, 3 * 2 ^ 20 + 2 ^ 44 * 20000)]) 0 with stage := .running, held := [3, 4], step := 1 }

def midSelect : Cmd := { selectCmd .running [] with held := [5], step := 1 }

theorem witness_units_at_work : midFilter.midPiece = some 3 ∧ midSelect.midPiece = some 5 ∧ (filterCmd .running false []).midPiece ≠ some 3
    ∧ ready.hs.retiring = [] ∧ ready.fe.cmds = [] ∧ (ready.deck .a).leg = none ∧ ready.mismatched .b 33 = false
    ∧ (ready.noteEvent (DK_COL_STATUS.MISMATCH_24H.id + 1024 * 67) 1).mismatched .b 33 = true
    ∧ (reservedA.deck .a).reserved = some 2 ∧ ready.deckB.saveArea = none ∧ (after (.quiesce .a) reservedA).deckA.reserved = none
    ∧ (after (.save .a) ((onLeg (legOf 0 0) scoring).put DK_FULL_SAVE.QUIESCED 0 1)).deckA.saveArea.map (fun g => g.accs.map (·.1)) = some [2]
    ∧ ([2] : List Nat).Nodup := by decide +kernel

theorem test_units_at_work : leads (.filterUnitError 3 true) { ready with fe := { FrontEnd.reset with cmds := [midFilter] } } (fun t =>
      t.hs.retiring == [35] && t.get FU_UNIT_STATUS.RETIRED 3 == 0) = true
    ∧ leads (.gatherUnitError 0 true) (onLeg (legOf 0 0) ready) (fun t => t.hs.retiring == [0] && t.get GU_UNIT_STATUS.RETIRED 0 == 0) = true := by decide +kernel

theorem test_quiesce : leads (.suspectExpiry .b 33) (ready.put DK_COL_STATUS.SUSPECT 67 1) (fun t => t.get DK_COL_STATUS.SUSPECT 67 == 0) = true
    ∧ leads (.quiesce .a) (onLeg (legOf 0 0) ready) (fun t => t.flag DK_FULL_SAVE.QUIESCE 0 && !t.flag DK_FULL_SAVE.QUIESCED 0) = true
    ∧ leads (.quiesce .b) ready (fun t => t.flag DK_FULL_SAVE.QUIESCED 1) = true
    ∧ leads (.save .b) ready (fun t => t.get DK_FULL_SAVE.RESULT 1 == 1) = true
    ∧ leads (.save .b) quiesced (fun t => t.flag DK_FULL_SAVE.BUSY 1 && t.deckB.saveOp == 1) = true
    ∧ leads (.restore .b) (after (.fullSaveComplete .b false) (after (.save .b) quiesced)) (fun t => t.deckB.saveOp == 2) = true
    ∧ leads (.fullSaveComplete .b true) (after (.save .b) quiesced) (fun t => t.get DK_FULL_SAVE.RESULT 1 == 2 && t.deckB.saveOp == 0) = true
    ∧ leads (.filterUnitError 0 true) ready (fun t => t.get FU_UNIT_STATUS.ACTIVE 8 == 1 && t.get FU_UNIT_STATUS.RETIRED 0 == 1) = true
    ∧ leads (.gatherUnitError 9 true) ready (fun t => t.get GU_UNIT_STATUS.ACTIVE 17 == 1 && t.get GU_UNIT_STATUS.SPARE 8 == 1) = true
    ∧ leads (.reduceUnitError 7 true) (ready.put RU_UNIT_STATUS.SPARE 8 0) (fun t => t.get RU_UNIT_STATUS.RETIRED 7 == 1 && t.modState == modDegraded) = true
    ∧ leads (.filterUnitError 0 false) ready (fun t => t.get FU_UNIT_STATUS.CORRECTED 0 == 1) = true := by decide +kernel

/-! ## BAR0, reset and the queue -/

/-- SC_CFG with its reset values, and with AGE_US 50, out of range, or BANK_RETIRE 8. -/
def scWord (age retire : Nat) : List Byte := leBytes 8 (age + 2 ^ 14 * 32 + 2 ^ 22 * 256 + 2 ^ 31 * retire)

theorem witness_registers : writeForm 0x700000 7 true = false ∧ writeForm 0x700000 8 false = false ∧ (0x1EFFFFF : Nat) < 0x1F00000
    ∧ (scWord 50 8).length = 8 ∧ ((ready.put LK_PORT_ERR.UCW 511 65535).get LK_PORT_ERR.UCW 511 < 65536) := by decide +kernel

theorem test_registers : leads (.registerWrite 1 0x700004 (List.replicate 8 0) true) ready (fun t => t.get HS_ACC_STATUS.BAD_SIZE == 1
      && t.get HS_ACC_ADDR.OFFSET == 0x700004 && t.get HS_ACC_ADDR.KIND == 1 && t.get HS_ACC_ADDR.PORT == 1) = true
    ∧ leads (.registerWrite 0 0x700000 (scWord 50 8) true) ready (fun t => t.get SC_CFG.AGE_US == 500 && t.get SC_CFG.BANK_RETIRE == 8
        && t.get SC_CFG.REFUSED == 1) = true
    ∧ leads (.registerWrite 0 0x700000 (scWord 100 7) true) ready (fun t => t.get SC_CFG.AGE_US == 100 && t.get SC_CFG.BANK_RETIRE == 64
        && t.get SC_CFG.REFUSED == 1) = true
    ∧ leads (.registerWrite 0 0x700000 (leBytes 8 (leNat (scWord 10000 65535) + 2 ^ 63)) true) (ready.put SC_CFG.REFUSED 0 1) (fun t =>
        t.get SC_CFG.AGE_US == 10000 && t.get SC_CFG.BANK_RETIRE == 65535 && t.get SC_CFG.REFUSED == 0) = true
    ∧ leads (.rcRegisterRead 0 0x603FF8 8) ((ready.put LK_PORT_ERR.UCW 511 3).put LK_PORT_ERR.ECRC 511 4) (fun t =>
        t.out == [.readData 0 (leBytes 8 (3 + 4 * 2 ^ 48))] && t.get LK_PORT_ERR.UCW 511 == 0 && t.get LK_PORT_ERR.ECRC 511 == 0) = true
    ∧ leads (.rcRegisterRead 0 0x603FF8 2) ((ready.put LK_PORT_ERR.UCW 511 3).put LK_PORT_ERR.ECRC 511 4) (fun t =>
        t.get LK_PORT_ERR.UCW 511 == 0 && t.get LK_PORT_ERR.ECRC 511 == 4) = true := by decide +kernel

/-- Partition 1 is LIVE and EXPERT. -/
def expert : State := ((withPart partLive ready).put PT_PART_CFG.PROFILE 1 0)

/-- Partition 2 is EXPERT too and has committed all but 16 of the 1,024 units of FLASH. -/
def crowdedFares : State :=
  let s := (expert.put PT_PART_STATE.STATE 2 partLive).put PT_PART_CFG.PROFILE 2 0
  { s with pt := { s.pt with written := [(10, BitVec.ofNat 64 (2 ^ 22 * 1008))], hold := [(2, 5)] } }

theorem witness_fare_commit : expert.fareOpen 1 = true ∧ (expert.put PT_PART_CFG.PROFILE 1 1).fareOpen 1 = false ∧ expert.faresFit = true
    ∧ expert.fareMerge (expert.fareWord 1 2) (2 ^ 22 * 17) 2 = (2 ^ 22 * 17, false) ∧ expert.fareMerge (expert.fareWord 1 2) (2 ^ 22 * 1025) 2 = (0, true)
    ∧ (expert.fareWritten 1 fun w => if w = 2 then 2 ^ 22 * 17 else expert.fareWord 1 w).faresFit = true
    ∧ (crowdedFares.fareWritten 1 fun w => if w = 2 then 2 ^ 22 * 17 else crowdedFares.fareWord 1 w).faresFit = false := by decide +kernel

/-- A FLASH fare of 17 is taken, one above FLASH_CAP keeps the old value; a sum above the capacity discards the held words too. -/
theorem test_fare_commit : leads (.fareCommit 0 1 (BitVec.ofNat 64 (2 ^ 22 * 17))) expert (fun t => Tab.find t.pt.written 6 == some (BitVec.ofNat 64 (2 ^ 22 * 17))
      && t.get PT_PART_CFG.REFUSED 1 == 0) = true
    ∧ leads (.fareCommit 0 1 (BitVec.ofNat 64 (2 ^ 22 * 1025))) expert (fun t => Tab.find t.pt.written 6 == some 0#64 && t.get PT_PART_CFG.REFUSED 1 == 1) = true
    ∧ leads (.fareCommit 0 1 (BitVec.ofNat 64 (2 ^ 22 * 17))) crowdedFares (fun t => Tab.find t.pt.written 6 == none && t.pt.hold == []
        && t.get PT_PART_CFG.REFUSED 1 == 1) = true
    ∧ leads (.fareCommit 0 1 17#64) (expert.put PT_PART_CFG.PROFILE 1 1) (fun t => t.pt.written == [] && t.get PT_PART_CFG.REFUSED 1 == 1) = true := by
  decide +kernel

theorem witness_unmapped : ready.released = true ∧ inMsix 0x1E00000 = false ∧ regAt 0x1E00000 = none ∧ regAt 0x1EFFFF8 = none := by decide +kernel

theorem test_unmapped : leads (.rcRegisterRead 0 0x1E00003 5) ready (fun t => t.out == [.readData 0 [0, 0, 0, 0, 0]]
      && t.get HS_ACC_STATUS.UNMAPPED == 1 && t.get HS_ACC_ADDR.OFFSET == 0x1E00000) = true
    ∧ leads (.registerWrite 0 0x1E00000 (List.replicate 8 1) true) ready (fun t => t.get HS_ACC_STATUS.UNMAPPED == 1 && t.out == []) = true := by
  decide +kernel

theorem witness_canonical : State.reset.regs.rises = true ∧ State.reset.pm.near.wf = true ∧ State.reset.modState = modStandby := by decide +kernel

/-- The front command runs with the queue's rest; an empty queue ticks. -/
theorem test_step : (match step { ready with pending := [.nop 1, .nop 2] } with
      | .next t => t.pending == [.nop 2]
      | _ => false) = true
    ∧ (match step State.reset with
      | .next t => t.pending == []
      | _ => false) = true := by decide +kernel

end Sys2Proof.Tests
end

section
/-! PROOFS. Admission of a staged frame whose account has no LINK fare (R331). -/

namespace Sys2Proof.Machine

/-! ## What the operations of admission leave alone -/

theorem whenUp_of_hubUp {s : State} (f : State → State) (hup : s.hubUp = true) : whenUp s f = f s := if_pos hup

/-- The frame at `index` leaves the input buffer; the frames behind it keep their order. -/
def State.unstaged (s : State) (index : Nat) : State := { s with sc := { s.sc with staged := s.sc.staged.eraseIdx index } }

@[simp] theorem State.unstaged_sc (s : State) (i : Nat) :
    (s.unstaged i).sc = { s.sc with staged := s.sc.staged.eraseIdx i } := rfl
@[simp] theorem State.unstaged_out (s : State) (i : Nat) : (s.unstaged i).out = s.out := rfl
@[simp] theorem State.unstaged_pt (s : State) (i : Nat) : (s.unstaged i).pt = s.pt := rfl
@[simp] theorem State.unstaged_get (s : State) (i : Nat) (G : RegField) (j : Nat) : (s.unstaged i).get G j = s.get G j := rfl

/-- Credits that return (R296) touch a port's counts only: no part of the state but `lk`. -/
theorem State.freeCredits_eq_lk (s : State) (ingress : Option Nat) (f : Frame) :
    s.freeCredits ingress f = { s with lk := (s.freeCredits ingress f).lk } := by
  cases ingress with
  | none => rfl
  | some p => rfl

@[simp] theorem State.freeCredits_sc (s : State) (ingress : Option Nat) (f : Frame) : (s.freeCredits ingress f).sc = s.sc := by
  rw [State.freeCredits_eq_lk]
@[simp] theorem State.freeCredits_out (s : State) (ingress : Option Nat) (f : Frame) : (s.freeCredits ingress f).out = s.out := by
  rw [State.freeCredits_eq_lk]
@[simp] theorem State.freeCredits_pt (s : State) (ingress : Option Nat) (f : Frame) : (s.freeCredits ingress f).pt = s.pt := by
  rw [State.freeCredits_eq_lk]
@[simp] theorem State.freeCredits_get (s : State) (ingress : Option Nat) (f : Frame) (G : RegField) (j : Nat) :
    (s.freeCredits ingress f).get G j = s.get G j := by
  rw [State.freeCredits_eq_lk]
  rfl

/-! ## The drop for a zero LINK fare -/

/-- What the drop of the staged frame `x` at `index` leaves: the frame is gone, counted, and its credits return. -/
def State.noFareDropped (s : State) (index : Nat) (x : Staged) : State :=
  ((s.unstaged index).bump SC_PART_DROP.NOFARE x.acct 1).freeCredits x.ingress x.frame

/-- The oldest frame of its account and VC is not admitted but dropped when fares bind, its account's LINK fare is zero and one of
its open egresses is a port. -/
theorem State.takeIn_eq_noFareDropped {s : State} {i e : Nat} {x : Staged} (hx : s.sc.staged[i]? = some x)
    (holdest : ∀ y ∈ s.sc.staged.take i, y.acct ≠ x.acct ∨ y.frame.vc ≠ x.frame.vc) (hbind : s.faresBind = true)
    (hacct : x.acct < 64) (hfare : s.fare x.acct .link = 0) (he : e ∈ x.egress) (hopen : s.egressOpen (attrMc x.frame) e = true)
    (hport : e < 512) : s.takeIn i = s.noFareDropped i x := by
  have hnoOlder : ((s.sc.staged.take i).any fun y => y.acct == x.acct && y.frame.vc == x.frame.vc) = false := by
    rw [List.any_eq_false]
    intro y hy hsame
    obtain ⟨hsameAcct, hsameVc⟩ := Bool.and_eq_true_iff.mp hsame
    rcases holdest y hy with hne | hne
    · exact hne (eq_of_beq hsameAcct)
    · exact hne (eq_of_beq hsameVc)
  have hmem : e ∈ x.egress.filter (s.egressOpen (attrMc x.frame)) := List.mem_filter.mpr ⟨he, hopen⟩
  generalize heg : x.egress.filter (s.egressOpen (attrMc x.frame)) = eg at hmem
  have hsome : eg.isEmpty = false := List.isEmpty_eq_false_iff_exists_mem.mpr ⟨e, hmem⟩
  have hanyPort : eg.any (· < 512) = true := List.any_eq_true.mpr ⟨e, hmem, decide_eq_true hport⟩
  have hnoFare : (x.acct < 64 && s.faresBind && s.fare x.acct .link == 0 && eg.any (· < 512)) = true := by
    simp only [hacct, hbind, hfare, hanyPort, decide_true, beq_self_eq_true, Bool.and_self]
  simp only [State.takeIn, hx, hnoOlder, heg, hsome, hnoFare, Bool.false_eq_true, if_false, if_true]
  rfl

theorem State.noFareDropped_sc (s : State) (i : Nat) (x : Staged) :
    (s.noFareDropped i x).sc = { s.sc with staged := s.sc.staged.eraseIdx i } := by simp [State.noFareDropped]

theorem State.noFareDropped_out (s : State) (i : Nat) (x : Staged) : (s.noFareDropped i x).out = s.out := by
  simp [State.noFareDropped]

theorem State.noFareDropped_pt (s : State) (i : Nat) (x : Staged) : (s.noFareDropped i x).pt = s.pt := by
  simp [State.noFareDropped]

/-- NOFARE counts the drop, up to the 16 bits of its field (R441). -/
theorem State.noFareDropped_noFare (s : State) (i : Nat) (x : Staged) (hacct : x.acct < 64) :
    (s.noFareDropped i x).get SC_PART_DROP.NOFARE x.acct = min (s.get SC_PART_DROP.NOFARE x.acct + 1) 65535 := by
  have hcount : x.acct < SC_PART_DROP.NOFARE.count := Nat.lt_trans hacct (by decide)
  rw [State.noFareDropped, State.freeCredits_get, State.get_bump_same _ _ _ _ hcount, State.unstaged_get]
  rfl

theorem State.noFareDropped_regsKept (s : State) (i : Nat) (x : Staged) :
    Safety.regsKeptBut [SC_PART_DROP.NOFARE] s (s.noFareDropped i x) := by
  intro F j hF
  have hid : F.id ≠ SC_PART_DROP.NOFARE.id := hF _ (List.mem_singleton_self _)
  rw [State.noFareDropped, State.freeCredits_get, State.get_bump_other _ _ _ _ _ _ (.inl hid), State.unstaged_get]

/-- Settles O44: BUFFER_ADMISSION takes the branch of R331, whose result is known field by field. -/
theorem zeroLinkFareFramesAreDropped : Obligations.ZeroLinkFareFramesAreDropped := by
  intro s i e x hup hbind hx holdest hacct hfare he hopen hport
  refine ⟨s.noFareDropped i x, ?_, s.noFareDropped_sc i x, s.noFareDropped_out i x, s.noFareDropped_pt i x,
    s.noFareDropped_noFare i x hacct, s.noFareDropped_regsKept i x⟩
  calc exec (.bufferAdmission i) s
      = .next (whenUp s fun s => s.takeIn i) := rfl
    _ = .next (s.takeIn i) := by rw [whenUp_of_hubUp _ hup]
    _ = .next (s.noFareDropped i x) := by
      rw [State.takeIn_eq_noFareDropped hx holdest hbind hacct hfare he hopen hport]

end Sys2Proof.Machine
end

section
/-! PROOFS. Fuses are only ever blown (R387, Table 16.2).

The invariant is the order `fusesOnlyBlown` itself, taken from a fixed starting purser: it reads nothing but the purser, so every
kind of change but the purser's own keeps it as it stands, and those only go further along the order. -/

namespace Sys2Proof.Machine

theorem fusesOnlyBlown_refl (a : Purser) : fusesOnlyBlown a a :=
  ⟨rfl, rfl, rfl, rfl, Nat.le_refl _, BitVec.or_self⟩

theorem fusesOnlyBlown.revoked {a b : Purser} (h : fusesOnlyBlown a b) (k : Nat) (hk : a.keyRevoke.getLsbD k = true) :
    b.keyRevoke.getLsbD k = true := by
  obtain ⟨-, -, -, -, -, hrevoke⟩ := h
  rw [← hrevoke, BitVec.getLsbD_or, hk, Bool.true_or]

theorem fusesOnlyBlown.trans {a b c : Purser} (h : fusesOnlyBlown a b) (g : fusesOnlyBlown b c) : fusesOnlyBlown a c := by
  obtain ⟨huid, hstep, hkey, hdebug, hsvn, hrevoke⟩ := h
  obtain ⟨guid, gstep, gkey, gdebug, gsvn, grevoke⟩ := g
  refine ⟨guid.trans huid, gstep.trans hstep, gkey.trans hkey, gdebug.trans hdebug, Nat.le_trans hsvn gsvn, ?_⟩
  calc a.keyRevoke ||| c.keyRevoke
      = (a.keyRevoke ||| b.keyRevoke) ||| c.keyRevoke := by rw [BitVec.or_assoc, grevoke]
    _ = c.keyRevoke := by rw [hrevoke, grevoke]

/-- The fuses of a state are those of `a`, or blown further. -/
def State.fusesBlownFrom (a : Purser) (s : State) : Prop := fusesOnlyBlown a s.ps

theorem State.fusesBlownFrom_of_ps_eq {a : Purser} {s t : State} (hps : t.ps = s.ps) (h : s.fusesBlownFrom a) :
    t.fusesBlownFrom a := by
  rwa [State.fusesBlownFrom, hps]

theorem State.fusesBlownFrom_keepBase (a : Purser) : KeepBase (State.fusesBlownFrom a) :=
  ⟨fun _ _ _ hps _ => State.fusesBlownFrom_of_ps_eq hps⟩

theorem State.fusesBlownFrom_keepRegs (a : Purser) : KeepRegs (State.fusesBlownFrom a) :=
  ⟨fun s F i v => State.fusesBlownFrom_of_ps_eq (s.put_ps F i v), fun _ _ _ hps _ => State.fusesBlownFrom_of_ps_eq hps⟩

theorem State.fusesBlownFrom_keepNear (a : Purser) : KeepNear (State.fusesBlownFrom a) :=
  ⟨fun _ _ _ hps _ => State.fusesBlownFrom_of_ps_eq hps⟩

theorem State.fusesBlownFrom_keepTime (a : Purser) : KeepTime (State.fusesBlownFrom a) :=
  ⟨fun _ _ hps _ => State.fusesBlownFrom_of_ps_eq hps⟩

theorem State.fusesBlownFrom_keepPurser (a : Purser) : KeepPurser (State.fusesBlownFrom a) :=
  ⟨fun hblown _ _ _ _ h => h.trans hblown⟩

/-- A step, of whatever command or of the idle module, only ever blows fuses. -/
theorem step_fusesOnlyBlown {s t : State} (hst : step s = .next t) : fusesOnlyBlown s.ps t.ps :=
  step_keep (State.fusesBlownFrom_keepBase s.ps) (State.fusesBlownFrom_keepRegs s.ps) (State.fusesBlownFrom_keepNear s.ps)
    (State.fusesBlownFrom_keepTime s.ps) (State.fusesBlownFrom_keepPurser s.ps)
    (fun _ _ h => State.fusesBlownFrom_of_ps_eq rfl h) s (fusesOnlyBlown_refl s.ps) t hst

/-- Settles O15: every step moves the purser along the order in which fuses are only blown. -/
theorem fusesAreOnlyEverBlown : Obligations.FusesAreOnlyEverBlown := by
  intro s t hst
  have hblown := step_fusesOnlyBlown hst
  have hrevoked := hblown.revoked
  obtain ⟨huid, hstepping, hkeys, hdebug, hsvn, -⟩ := hblown
  exact ⟨huid, hstepping, hkeys, hsvn, hrevoked, fun h => hdebug.trans h⟩

end Sys2Proof.Machine
end

section
/-! PROOFS. Accesses of BAR0 offsets that no register occupies (R439).

An unmapped access does one thing, `countAccess`; so its counter, its place and its frame are stated once for any kind of counted
access, and the read and the write of R439 are brought to it. -/

namespace Sys2Proof.Machine

/-! ## An access through an upstream port -/

/-- An access through an upstream port shows its link trained: no part of the state but `mg` changes. -/
theorem State.viaUp_eq_mg (s : State) (up : Nat) : s.viaUp up = { s with mg := (s.viaUp up).mg } := by
  unfold State.viaUp
  split
  · rfl
  · split <;> rfl

@[simp] theorem State.viaUp_out (s : State) (up : Nat) : (s.viaUp up).out = s.out := by
  rw [State.viaUp_eq_mg]
@[simp] theorem State.viaUp_get (s : State) (up : Nat) (G : RegField) (j : Nat) : (s.viaUp up).get G j = s.get G j := by
  rw [State.viaUp_eq_mg]
  rfl
@[simp] theorem State.viaUp_released (s : State) (up : Nat) : (s.viaUp up).released = s.released := by
  rw [State.viaUp_eq_mg]
  rfl

/-- A released hub is not OFF: it works, or it failed after release. -/
theorem State.modState_ne_modOff_of_released {s : State} (hrel : s.released = true) : s.modState ≠ modOff := by
  intro hoff
  simp [State.released, State.hubUp, State.failedReleased, hoff, modOff, modFailed] at hrel

theorem State.barOpen_of_released {s : State} {up off : Nat} (hrel : s.released = true) (hup : up < 2) (hoff : off < 0x2000000) :
    s.barOpen up off = true := by
  simp [State.barOpen, hup, hoff, State.modState_ne_modOff_of_released hrel]

/-! ## Changes of registers and outputs only -/

/-- `t` is `s` but for the register fields and the outputs. -/
def State.onlyRegsAndOut (s t : State) : Prop := t = { s with regs := t.regs, out := t.out }

theorem State.onlyRegsAndOut_refl (s : State) : s.onlyRegsAndOut s := rfl

theorem State.onlyRegsAndOut.update {s t : State} (h : s.onlyRegsAndOut t) (regs : Tab Nat) (out : List Out) :
    s.onlyRegsAndOut { t with regs := regs, out := out } := by
  unfold State.onlyRegsAndOut at h ⊢
  exact congrArg (fun x : State => { x with regs := regs, out := out }) h

theorem State.onlyRegsAndOut.put {s t : State} (h : s.onlyRegsAndOut t) (F : RegField) (i v : Nat) :
    s.onlyRegsAndOut (t.put F i v) := by
  unfold State.put
  split
  · exact h.update _ _
  · exact h

theorem State.onlyRegsAndOut.emit {s t : State} (h : s.onlyRegsAndOut t) (o : Out) : s.onlyRegsAndOut (t.emit o) :=
  h.update _ _

/-! ## A counted access (Tables 19.7 and 19.8) -/

/-- The five counters of HS_ACC_STATUS lie before the fields of HS_ACC_ADDR. -/
theorem accField_id_lt (kind : Nat) : (accField kind).id < HS_ACC_ADDR.OFFSET.id := by
  unfold accField
  split <;> decide

theorem accField_count (kind : Nat) : (accField kind).count = 1 := by
  unfold accField
  split <;> rfl

section
variable {s : State} (hrel : s.released = true)
include hrel

theorem State.countAccess_of_released (kind up off : Nat) : s.countAccess kind up off =
    (((s.bump (accField kind) 0 1).put HS_ACC_ADDR.OFFSET 0 off).put HS_ACC_ADDR.KIND 0 kind).put HS_ACC_ADDR.PORT 0 up := if_pos hrel

theorem State.countAccess_onlyRegsAndOut (kind up off : Nat) : s.onlyRegsAndOut (s.countAccess kind up off) := by
  rw [State.countAccess_of_released hrel]
  exact ((((State.onlyRegsAndOut_refl s).put ..).put ..).put ..).put ..

theorem State.countAccess_out (kind up off : Nat) : (s.countAccess kind up off).out = s.out := by
  simp [State.countAccess_of_released hrel]

/-- Every field but the counter of the kind and those of HS_ACC_ADDR keeps its value. -/
theorem State.countAccess_regsKept (kind up off : Nat) :
    Safety.regsKeptBut [accField kind, HS_ACC_ADDR.OFFSET, HS_ACC_ADDR.KIND, HS_ACC_ADDR.PORT] s (s.countAccess kind up off) := by
  intro F j hF
  simp only [List.forall_mem_cons] at hF
  obtain ⟨hcounter, hoffset, hkind, hport, -⟩ := hF
  rw [State.countAccess_of_released hrel, State.get_put_other _ _ _ _ _ _ (.inl hport),
    State.get_put_other _ _ _ _ _ _ (.inl hkind), State.get_put_other _ _ _ _ _ _ (.inl hoffset),
    State.get_bump_other _ _ _ _ _ _ (.inl hcounter)]

/-- The counter of the kind goes up by one, and stays at the most its width holds (R441). -/
theorem State.countAccess_get_accField (kind up off : Nat) : (s.countAccess kind up off).get (accField kind) =
    min (s.get (accField kind) + 1) (2 ^ (accField kind).width - 1) := by
  have hlt := accField_id_lt kind
  have hoffset : (accField kind).id ≠ HS_ACC_ADDR.OFFSET.id := Fin.ne_of_lt hlt
  have hkind : (accField kind).id ≠ HS_ACC_ADDR.KIND.id := Fin.ne_of_lt (Nat.lt_trans hlt (by decide))
  have hport : (accField kind).id ≠ HS_ACC_ADDR.PORT.id := Fin.ne_of_lt (Nat.lt_trans hlt (by decide))
  have hcount : 0 < (accField kind).count := by rw [accField_count]; exact Nat.one_pos
  rw [State.countAccess_of_released hrel, State.get_put_other _ _ _ _ _ _ (.inl hport),
    State.get_put_other _ _ _ _ _ _ (.inl hkind), State.get_put_other _ _ _ _ _ _ (.inl hoffset),
    State.get_bump_same _ _ _ _ hcount]

/-- OFFSET keeps the place of an access within BAR0's 32 MiB (R435). -/
theorem State.countAccess_get_offset (kind up : Nat) {off : Nat} (hoff : off < 0x2000000) :
    (s.countAccess kind up off).get HS_ACC_ADDR.OFFSET = off := by
  rw [State.countAccess_of_released hrel, State.get_put_other _ _ _ _ _ _ (.inl (by decide)),
    State.get_put_other _ _ _ _ _ _ (.inl (by decide)), State.get_put_same _ _ _ _ (by decide)]
  exact Nat.mod_eq_of_lt hoff

theorem State.countAccess_get_kind {kind : Nat} (up off : Nat) (hkind : kind < 8) :
    (s.countAccess kind up off).get HS_ACC_ADDR.KIND = kind := by
  rw [State.countAccess_of_released hrel, State.get_put_other _ _ _ _ _ _ (.inl (by decide)),
    State.get_put_same _ _ _ _ (by decide)]
  exact Nat.mod_eq_of_lt hkind

theorem State.countAccess_get_port (kind off : Nat) {up : Nat} (hup : up < 2) :
    (s.countAccess kind up off).get HS_ACC_ADDR.PORT = up := by
  rw [State.countAccess_of_released hrel, State.get_put_same _ _ _ _ (by decide)]
  exact Nat.mod_eq_of_lt hup

end

/-! ## Offsets of no register -/

theorem State.readAt_of_regAt_none (s : State) (up : Nat) {off : Nat} (lo hi : Nat) (hnone : regAt off = none) :
    s.readAt up off lo hi = (0, s.countAccess accUnmapped up off) := by
  rw [State.readAt, hnone]

theorem State.writeAt_of_regAt_none (s : State) (up : Nat) {off : Nat} (v : Nat) (hnone : regAt off = none) :
    s.writeAt up off v = s.countAccess accUnmapped up off := by
  rw [State.writeAt, hnone]

/-- A read within one word that no register occupies returns zeros and is counted at the word. -/
theorem State.barReadData_of_regAt_none (s : State) (up : Nat) {off len : Nat} (hmsix : inMsix off = false)
    (hnone : regAt (off / 8 * 8) = none) (hlen : 1 ≤ len) (hword : off % 8 + len ≤ 8) :
    s.barReadData up off len = (List.replicate len 0, s.countAccess accUnmapped up (off / 8 * 8)) := by
  have hform : 1 ≤ len ∧ len ≤ 64 ∧ off / 64 = (off + len - 1) / 64 := by omega
  have hone : (off + len + 7) / 8 - off / 8 = 1 := by omega
  have hzeros : ((leBytes 8 0).drop (off % 8)).take len = List.replicate len 0 := by
    have hbytes : leBytes 8 0 = List.replicate 8 0 := by decide
    rw [hbytes, List.drop_replicate, List.take_replicate, Nat.min_eq_left (by omega)]
  have hread : s.readWords up off len = (leBytes 8 0, s.countAccess accUnmapped up (off / 8 * 8)) := by
    simp [State.readWords, hone, State.readAt_of_regAt_none _ _ _ _ hnone]
  simp only [State.barReadData, hmsix, Bool.false_eq_true, if_false, if_pos hform, hread, hzeros]

/-- A whole-word write where no register lies is counted, and does nothing else. -/
theorem State.barWriteData_of_regAt_none (s : State) (up : Nat) {off : Nat} {data : List Byte} (hmsix : inMsix off = false)
    (hnone : regAt off = none) (halign : off % 8 = 0) (hlen : data.length = 8) :
    s.barWriteData up off data true = s.countAccess accUnmapped up off := by
  have hline : off / 64 = (off + 8 - 1) / 64 := by omega
  have hform : writeForm off 8 true = true := by simp [writeForm, halign, hline]
  simp [State.barWriteData, hmsix, hlen, hform, State.writeAt_of_regAt_none _ _ _ hnone]

/-- What R439 asks of the state `t` after an access through port `up` of the unoccupied word at `place`: UNMAPPED counts it,
HS_ACC_ADDR keeps its place, and nothing else of the registers changes. -/
def State.unmappedCounted (s : State) (up place : Nat) (t : State) : Prop :=
  t.get HS_ACC_STATUS.UNMAPPED = min (s.get HS_ACC_STATUS.UNMAPPED + 1) 65535
    ∧ t.get HS_ACC_ADDR.OFFSET = place ∧ t.get HS_ACC_ADDR.KIND = 2 ∧ t.get HS_ACC_ADDR.PORT = up
    ∧ (s.viaUp up).onlyRegsAndOut t
    ∧ Safety.regsKeptBut [HS_ACC_STATUS.UNMAPPED, HS_ACC_ADDR.OFFSET, HS_ACC_ADDR.KIND, HS_ACC_ADDR.PORT] s t

theorem State.countAccess_unmappedCounted {s : State} {up place : Nat} (hrel : s.released = true) (hup : up < 2)
    (hplace : place < 0x2000000) : s.unmappedCounted up place ((s.viaUp up).countAccess accUnmapped up place) := by
  have hrel' : (s.viaUp up).released = true := by rwa [State.viaUp_released]
  have hcount := State.countAccess_get_accField hrel' accUnmapped up place
  rw [State.viaUp_get] at hcount
  have hkept := State.countAccess_regsKept hrel' accUnmapped up place
  refine ⟨hcount, State.countAccess_get_offset hrel' _ _ hplace, State.countAccess_get_kind hrel' _ _ (by decide),
    State.countAccess_get_port hrel' _ _ hup, State.countAccess_onlyRegsAndOut hrel' _ _ _, fun F j hF => ?_⟩
  rw [hkept F j hF, State.viaUp_get]

theorem State.unmappedCounted.emit {s t : State} {up place : Nat} (h : s.unmappedCounted up place t) (o : Out) :
    s.unmappedCounted up place (t.emit o) := by
  obtain ⟨hcount, hoffset, hkind, hport, honly, hkept⟩ := h
  exact ⟨hcount, hoffset, hkind, hport, honly.emit o, hkept⟩

/-- Settles O58: the read and the write of an unoccupied word are both the counted access, the read with zeros besides. -/
theorem unmappedOffsetsReadAsZero : Obligations.UnmappedOffsetsReadAsZero := by
  intro s up off len data hrel hup hoff hmsix hnone hlen hword
  have hopen : s.barOpen up off = true := State.barOpen_of_released hrel hup hoff
  have hout : ∀ place, ((s.viaUp up).countAccess accUnmapped up place).out = s.out := fun place => by
    rw [State.countAccess_out (by rwa [State.viaUp_released]), State.viaUp_out]
  refine ⟨⟨((s.viaUp up).countAccess accUnmapped up (off / 8 * 8)).emit (.readData up (List.replicate len 0)), ?_, ?_,
    (State.countAccess_unmappedCounted hrel hup (by omega)).emit _⟩, fun halign hdata =>
    ⟨(s.viaUp up).countAccess accUnmapped up off, ?_, hout _, State.countAccess_unmappedCounted hrel hup hoff⟩⟩
  · show execRcRegisterRead up off len s = _
    simp only [execRcRegisterRead, hopen, if_true, State.barReadData_of_regAt_none _ _ hmsix hnone hlen hword]
  · rw [State.emit, hout]
  · have hword_eq : off / 8 * 8 = off := by omega
    rw [hword_eq] at hnone
    show execRegisterWrite up off data true s = _
    simp only [execRegisterWrite, hopen, if_true, State.barWriteData_of_regAt_none _ _ hmsix hnone halign hdata]

end Sys2Proof.Machine
end
